-- ==== Sys2Proof/Word.lean ====
section
/-! DEFINITION. The widths of the Ampiro 240: words, bytes, two-word values, clock values, addresses, and the two lanes. -/

namespace Sys2Proof

/-- One byte of a frame or of content. -/
abbrev Byte := BitVec 8

/-- One word of the exchange memory (00_scope.md, Conventions). -/
abbrev Word := BitVec 16

/-- A value that spans two words: a 32-bit total (00_scope.md, Conventions). -/
abbrev Long := BitVec 32

/-- A part clock value, in microseconds (R9). -/
abbrev Clock := BitVec 32

/-- A word address: fifteen address lines (section 1.1). -/
abbrev Addr := BitVec 15

/-- A set of bay ports, bay port 1 in bit 0 (section 12.2, the set code). -/
abbrev PortSet := BitVec 4

/-- The two station LANs. -/
inductive Lane where
  | a
  | b
  deriving DecidableEq, Repr

end Sys2Proof
end

