-- ==== Sys2Proof/Config.lean ====
section
/-! DEFINITION. The limits the manual gives the part, and the free choices it leaves open. -/

namespace Sys2Proof.Config

/-- R35. Records an arrival queue holds. -/
def arrivalRoom : Nat := 8

/-- R144. Records an URGENT queue holds. -/
def urgentRoom : Nat := 16

/-- R144. Records a NORMAL queue holds. -/
def normalRoom : Nat := 64

/-- R144. Records a bay port's queue holds. -/
def bayRoom : Nat := 32

/-- R78. Entries the twin watch list holds. -/
def watchRoom : Nat := 256

/-- R82. Miss notes Twin Watch keeps. -/
def missRoom : Nat := 64

/-- R168. Journal entries that may be outstanding. -/
def journalRoom : Nat := 128

/-- R120. Content bytes a delivery writes at most. -/
def contentRoom : Nat := 256

/-- A FREE VALUE (log entry 2): R136 lets a colliding edition write be taken as the collision first or as the
post first. True at `n` says that the `n`-th choice of the run takes the collision first. -/
opaque collisionFirst : Nat → Bool

/-- A FREE VALUE (log entry 2): R121 lets a deferred freshness update and a waiting delivery be made in either
order. True at `n` says that the `n`-th choice of the run makes the freshness update first. -/
opaque freshnessUpdateFirst : Nat → Bool

/-- A FREE VALUE (log entry 2): R13 and R15 give no pace to the work of START. The number at `n` is how many pieces of it the
`n`-th choice of the run lets the part do before the next command or microsecond (log entry 5). -/
opaque startPace : Nat → Nat

end Sys2Proof.Config
end

