-- ==== Sys2Proof/Syntax.lean ====
section
/-! DEFINITION. The commands of the Ampiro 240: one constructor for each row of spec/opcode_table.json. -/

namespace Sys2Proof

/-- A command: one whole and indivisible step of the part (spec/95_what_each_step_holds.md). The table gives no
operands; those here are what the row's rule leaves to be named (log entry 1). -/
inductive Instr where
  /-- R19. Power-on or the reset pin. -/
  | hardwareReset
  /-- R11. The preparation of memory after a reset completes. -/
  | initialisingComplete
  /-- R3. A host write of `v` to the word at `a`. -/
  | hostWrite (a : Addr) (v : Word)
  /-- R15. The host writes START into the command word. -/
  | start
  /-- R16. The host writes APPLY into the command word. -/
  | apply
  /-- R17. The host writes CLEAR-COUNTS into the command word. -/
  | clearCounts
  /-- R18. The host writes SOFT-RESET into the command word. -/
  | softReset
  /-- R94. The host writes LANE-HOLD into the command word; the lane stands in the argument word. -/
  | laneHold
  /-- R95. The host writes LANE-RELEASE into the command word; the lane stands in the argument word. -/
  | laneRelease
  /-- R161. The host writes OUTPUT-DRIVE into the command word; the output stands in the argument word. -/
  | outputDrive
  /-- R161. The host writes OUTPUT-RELEASE into the command word; the output stands in the argument word. -/
  | outputRelease
  /-- R14. The host writes `v`, no recognised command code, into the command word. -/
  | unknownCommand (v : Word)
  /-- R13. The command in progress completes. -/
  | commandCompletion
  /-- R169. The host writes `t` into the journal taken word. -/
  | journalTakenWrite (t : Word)
  /-- R115. The host writes `v` into the arm word of subscription slot `k`. -/
  | subscriptionArm (k : Fin 64) (v : Word)
  /-- R129. The host writes `v` into the arm word of publication slot `k`. -/
  | publicationArm (k : Fin 32) (v : Word)
  /-- R162. The host writes `v` into the arm word of link rule `k`. -/
  | linkRuleArm (k : Fin 16) (v : Word)
  /-- R133. The host writes `v` into the edition word of publication slot `k`. -/
  | editionWrite (k : Fin 32) (v : Word)
  /-- R135. The take in progress completes. -/
  | takeComplete
  /-- R141. The part clock reaches the due time at the head of the send calendar. -/
  | calendarSend
  /-- R142. The refresh deadline of publication slot `k` passes. -/
  | refreshExpiry (k : Fin 32)
  /-- R9. The controller writes the clock group. -/
  | clockGroupUpdate
  /-- R9. A seconds tick. -/
  | secondsTick
  /-- R55. The entry at record position `p`, found too old by a seconds tick, is removed. -/
  | ageingExpiry (p : Fin 512)
  /-- R29. The frame `f`, FCS included, completes reception at lane port `l`. -/
  | laneFrameReceived (l : Lane) (f : List Byte)
  /-- R32. The frame `f`, FCS included, completes reception at bay port `p` + 1. -/
  | bayFrameReceived (p : Fin 4) (f : List Byte)
  /-- R91. The link of lane port `l` comes up. -/
  | laneLinkUp (l : Lane)
  /-- R96. The link of lane port `l` goes down; `cut` says that a frame was being received (R26). -/
  | laneLinkDown (l : Lane) (cut : Bool)
  /-- R27. The link of bay port `p` + 1 comes up. -/
  | bayLinkUp (p : Fin 4)
  /-- R151. The link of bay port `p` + 1 goes down; `cut` says that a frame was being received (R26). -/
  | bayLinkDown (p : Fin 4) (cut : Bool)
  /-- R146. Lane port `l` sends the last byte of its frame on the wire. -/
  | laneTransmitEnd (l : Lane)
  /-- R151. Bay port `p` + 1 sends the last byte of its frame on the wire. -/
  | bayTransmitEnd (p : Fin 4)
  /-- R38. The Stream Engine takes an arrival record. -/
  | arrivalTaken
  /-- R119. The delivery in progress for subscription slot `k` completes. -/
  | deliveryComplete (k : Fin 64)
  /-- R80. Twin Watch takes a watch request. -/
  | watchRequest
  /-- R83. Twin Watch takes a twin. -/
  | twinTaken
  /-- R84. Twin Watch takes an abandonment. -/
  | abandon
  /-- R96. Twin Watch takes a lane cleanup. -/
  | laneCleanup
  /-- R81. The deadline at the head of the twin watch list passes. -/
  | watchExpiry
  /-- R87. The engine takes a miss report. -/
  | missReport
  /-- R88. The engine takes a credit report. -/
  | creditReport
  /-- R86. The engine takes a lane notice. -/
  | laneNotice
  /-- R89. The Lane Supervisor takes a lone count rise. -/
  | loneCountRise
  /-- R89. The Lane Supervisor takes a lone count fall. -/
  | loneCountFall
  /-- R92. The proving timer of lane `l` expires. -/
  | provingTimerExpiry (l : Lane)
  /-- R106. The freshness deadline of stream `id` passes. -/
  | freshnessExpiry (id : Word)
  /-- R165. The Link Rule Unit takes an offered event. -/
  | eventOffer
  /-- R160. The pulse timer of trip output `n` + 1 expires. -/
  | pulseExpiry (n : Fin 4)
  /-- R156. The raw level of contact input `n` + 1 changes. -/
  | rawChange (n : Fin 8)
  /-- R156. The filter timer of contact input `n` + 1 expires. -/
  | filterTimerExpiry (n : Fin 8)
  /-- R159. The block count of contact input `n` + 1 has reached 0. -/
  | blockCountExpiry (n : Fin 8)
  /-- R159. The raw level of contact input `n` + 1 has held for one filter time. -/
  | unblock (n : Fin 8)
  /-- R168. The Journal Writer takes a claim. -/
  | journalClaim
  /-- R172. The INT pulse ends. -/
  | intPulseEnd
  deriving DecidableEq, Repr

end Sys2Proof
end

