-- ==== Sys2Proof/WellFormed.lean ====
section
/-! DEFINITION. When a command is one the outside can give. Nothing in the machine depends on it: exec is total. -/

namespace Sys2Proof

/-- The word at `a` is a trigger word (R6): the command word, the journal taken word, or the arm or edition word of
a record. -/
def Addr.isTrigger (a : Addr) : Bool :=
  let n := a.toNat
  n == 0x40 || n == 0x42
    || (0x200 ≤ n && n < 0x1600 && ((n - 0x200) % 160 == 11 || (n - 0x200) % 160 == 12))
    || (0x1600 ≤ n && n < 0x4200 && (n - 0x1600) % 176 == 7)
    || (0x4600 ≤ n && n < 0x4700 && (n - 0x4600) % 16 == 11)

/-- A command is well-formed when its operands can name what its row says:
a HOST_WRITE goes to a word without behaviour of its own (R3; a write to a trigger word is the row of that trigger),
an UNKNOWN_COMMAND holds no recognised code (R14, section 12.7), a stream identifier is in 1..4095 (R40),
and a frame holds at least one byte. -/
def Instr.wellFormed : Instr → Bool
  | .hostWrite a _ => !a.isTrigger
  | .unknownCommand v => v == 0 || decide (8 < v.toNat)
  | .freshnessExpiry id => id != 0 && decide (id.toNat ≤ 4095)
  | .laneFrameReceived _ f => !f.isEmpty
  | .bayFrameReceived _ f => !f.isEmpty
  | .hardwareReset | .initialisingComplete | .start | .apply | .clearCounts | .softReset | .laneHold | .laneRelease
  | .outputDrive | .outputRelease | .commandCompletion | .journalTakenWrite _ | .subscriptionArm _ _
  | .publicationArm _ _ | .linkRuleArm _ _ | .editionWrite _ _ | .takeComplete | .calendarSend | .refreshExpiry _
  | .clockGroupUpdate | .secondsTick | .ageingExpiry _ | .laneLinkUp _ | .laneLinkDown _ _ | .bayLinkUp _
  | .bayLinkDown _ _ | .laneTransmitEnd _ | .bayTransmitEnd _ | .arrivalTaken | .deliveryComplete _ | .watchRequest
  | .twinTaken | .abandon | .laneCleanup | .watchExpiry | .missReport | .creditReport | .laneNotice | .loneCountRise
  | .loneCountFall | .provingTimerExpiry _ | .eventOffer | .pulseExpiry _ | .rawChange _ | .filterTimerExpiry _
  | .blockCountExpiry _ | .unblock _ | .journalClaim | .intPulseEnd => true

end Sys2Proof
end

