-- ==== Sys2Proof/Decode.lean ====
section
/-! DEFINITION. Reading a command from a word, over the rows of spec/opcode_table.json that give bits: no row gives any,
so no word spells a command (log entry 1). -/

namespace Sys2Proof

/-- The command that a word of `nbits` bits spells by the table's bits. The table gives no row any bits ("fields": [],
no match, no mask), so every word is refused. -/
def decodeTableWord (nbits w : Nat) : Option Instr :=
  match nbits, w with
  | _, _ => none

end Sys2Proof
end

