-- ==== Sys2Proof/Machine/Types.lean ====
section
/-! DEFINITION. The plain data the blocks of the part keep: one structure or enumeration per thing the manual names. -/

namespace Sys2Proof.Machine

/-! ## Names -/

/-- R11. -/
inductive PartState where
  | initialising
  | config
  | running
  deriving DecidableEq, Repr

/-- R40. The four assigned classes. -/
inductive Cls where
  | trip
  | status
  | sample
  | service
  deriving DecidableEq, Repr

/-- R38. The six ports, in the cycle's order. -/
inductive Port where
  | lane (l : Lane)
  | bay (p : Fin 4)
  deriving DecidableEq, Repr

/-- R90. -/
inductive LaneState where
  | held
  | down
  | proving
  | healthy
  | suspect
  | degraded
  deriving DecidableEq, Repr

/-- R98. What changed a lane's state. -/
inductive LaneCause where
  | start
  | laneHold
  | laneRelease
  | linkDown
  | linkUp
  | provingTimer
  | loneCount
  deriving DecidableEq, Repr

/-- R99. -/
inductive Redundancy where
  | none
  | single
  | dual
  deriving DecidableEq, Repr

/-- R102. `none` of an `Option Freshness` is the "none" of a LOCAL-HOST entry. -/
inductive Freshness where
  | awaiting
  | fresh
  | stale
  | unsupervised
  deriving DecidableEq, Repr

/-- Section 7.2 and R162: the states of subscription slots and of link rules. -/
inductive SlotState where
  | disarmed
  | armed
  | refused
  deriving DecidableEq, Repr

/-- Section 8.2: the six publication states. -/
inductive PubState where
  | disarmed
  | refused
  | armedIdle
  | burst
  | steady
  | expired
  deriving DecidableEq, Repr

/-- Section 12.7: refusal reasons. -/
inductive Reason where
  | none
  | badArmCode
  | badSetting
  | originClash
  | duplicate
  deriving DecidableEq, Repr

/-- Section 12.7: result codes. -/
inductive ResultCode where
  | done
  | wrongState
  | badArgument
  | badSetting
  | startOnly
  | unknown
  deriving DecidableEq, Repr

/-- Section 12.7: kinds of journal entry. -/
inductive JournalKind where
  | started
  | laneVerdict
  | redundancy
  | streamStale
  | streamFresh
  | epochChange
  | originClashSeen
  | echoSeen
  | counterFirst
  | delivery
  | deliveryChanged
  | testMismatch
  | armRefused
  | publicationExpired
  | contactInitial
  | contactChange
  | contactBlocked
  | contactUnblocked
  | outputChange
  | ruleFired
  | refusedWrite
  | overflow
  deriving DecidableEq, Repr

/-- Section 12.5: what a journal entry is about. -/
inductive Subject where
  | stream (id : Word)
  | lane (l : Lane)
  | bayPort (p : Fin 4)
  | subscription (k : Fin 64)
  | publication (k : Fin 32)
  | contact (n : Fin 8)
  | output (n : Fin 4)
  | rule (k : Fin 16)
  | part
  deriving DecidableEq, Repr

/-- R36: the anomaly counters of a lane port. -/
inductive LaneCounter where
  | frameErrors
  | overruns
  | damaged
  | crossLane
  | foreignTag
  | heldDiscards
  | bareDiscards
  | drops
  deriving DecidableEq, Repr

/-- R36: the anomaly counters of a bay port. -/
inductive BayCounter where
  | frameErrors
  | overruns
  | damaged
  | bareDiscards
  | trailerOnBay
  | drops
  deriving DecidableEq, Repr

/-- R36: the part-wide anomaly counters of the Stream Engine. -/
inductive EngineCounter where
  | echo
  | originClash
  | unplaced
  deriving DecidableEq, Repr

/-! ## Settings (section 1.9, R155, R160) -/

/-- R155. The settings of one contact input. -/
structure ContactSettings where
  filter : Word
  limit : Word
  block : Word
  journal : Bool
  deriving DecidableEq, Repr

/-- R160. The settings of one trip output. -/
structure OutputSettings where
  permitted : Bool
  latch : Bool
  width : Word
  deriving DecidableEq, Repr

/-- Section 1.9. The settings the part acts on. -/
structure Settings where
  messageType : Word
  station : BitVec 48
  bareLane : Lane
  bayEpoch : Byte
  twinWait : Word
  loneThreshold : Word
  degradeQuorum : Word
  provingPeriod : Word
  freshMargin : Word
  ageingTime : Word
  defaultForward : PortSet
  divTrip : Word
  divStatus : Word
  divSample : Word
  divService : Word
  passBare : PortSet
  intEnable : Bool
  intPulse : Bool
  journalLearned : Bool
  contacts : Vector ContactSettings 8
  outputs : Vector OutputSettings 4
  deriving DecidableEq, Repr

/-! ## Journal (chapter 11) -/

/-- R168. What a block asks the Journal Writer to write. -/
structure JournalClaim where
  kind : JournalKind
  subject : Subject
  time : Clock
  d1 : Word
  d2 : Word
  d3 : Word
  deriving DecidableEq, Repr

/-- R168. An entry in the ring. -/
structure JournalEntry where
  number : Word
  claim : JournalClaim
  deriving DecidableEq, Repr

/-- R169. A value written to the journal taken word that the Journal Writer has not yet taken; `behind` counts the waiting claims
that reached the writer before it. -/
structure WaitingWrite where
  value : Word
  behind : Nat
  deriving DecidableEq, Repr

/-- R167, R169, R171, R172. The Journal Writer's state, the claims and the writes of the journal taken word in flight to it, and
the INT line. -/
structure Journal where
  ring : Vector (Option JournalEntry) 128
  written : Word
  taken : Word
  lost : Word
  firstLoss : Clock
  overflowPending : Bool
  claims : List JournalClaim
  writes : List WaitingWrite
  int : Bool
  pulseEnds : Option Clock
  deriving DecidableEq, Repr

/-! ## Part status groups (section 12.3) -/

/-- The counters group. -/
structure Counters where
  edition : Word
  refused : Word
  firstRefused : Word
  echo : Word
  originClash : Word
  unplaced : Word
  epochChanges : Long
  repeatsA : Long
  repeatsB : Long
  watchCount : Word
  watchMost : Word
  unwatched : Long
  missesA : Long
  missesB : Long
  lateTwinsA : Long
  lateTwinsB : Long
  abandoned : Long
  longestA : Long
  longestB : Long
  deriving DecidableEq, Repr

/-- The clock group (R9). -/
structure ClockGroup where
  edition : Word
  clock : Clock
  seconds : Long
  deriving DecidableEq, Repr

/-- A lane status group; the one home of the lane state, the link state and the lone count. -/
structure LaneGroup where
  edition : Word
  state : LaneState
  link : Bool
  lone : Word
  frameErrors : Word
  overruns : Word
  damaged : Word
  crossLane : Word
  foreignTag : Word
  heldDiscards : Word
  bareDiscards : Word
  drops : Word
  arrival : Long
  sent : Long
  notSent : Long
  flushed : Long
  deriving DecidableEq, Repr

/-- One port's block of the bay port status group. -/
structure BayBlock where
  link : Bool
  frameErrors : Word
  overruns : Word
  damaged : Word
  bareDiscards : Word
  trailerOnBay : Word
  drops : Word
  arrival : Long
  sent : Long
  notSent : Long
  flushed : Long
  deriving DecidableEq, Repr

/-- The bay port status group. -/
structure BayGroup where
  edition : Word
  ports : Vector BayBlock 4
  deriving DecidableEq, Repr

/-- R10. The result group. -/
structure ResultGroup where
  echo : Word
  code : Option ResultCode
  detail : Word
  deriving DecidableEq, Repr

/-! ## Frames and queues (chapters 2 and 9) -/

/-- R20, R176. The fields of a stream message's header. -/
structure Header where
  id : Word
  cls : Cls
  test : Bool
  epoch : Byte
  hold : Word
  repeatNo : Byte
  length : Word
  deriving DecidableEq, Repr

/-- R31, R34. An arrival record; `seq` is the twin sequence of a lane arrival and absent for a bay arrival. -/
structure Arrival where
  frame : List Byte
  port : Port
  seq : Option Word
  time : Clock
  header : Header
  deriving DecidableEq, Repr

/-- R144. A transmit record; `seq` is the twin sequence beside a stream copy on a lane queue. -/
structure TxRecord where
  frame : List Byte
  stream : Bool
  trip : Bool
  seq : Option Word
  deriving DecidableEq, Repr

/-- R146, R151. The frame on the wire: the record it was built from and the bytes sent, FCS included. -/
structure WireFrame where
  record : TxRecord
  bytes : List Byte
  deriving DecidableEq, Repr

/-- A lane port and its lane: status group, queues, frame on the wire, lane cycle (R86) and proving timer (R92). -/
structure LanePort where
  group : LaneGroup
  arrivals : List Arrival
  urgent : List TxRecord
  normal : List TxRecord
  wire : Option WireFrame
  cycle : Word
  provingEnds : Option Clock
  deriving DecidableEq, Repr

/-- A bay port's queues and frame on the wire. -/
structure BayPort where
  arrivals : List Arrival
  queue : List TxRecord
  wire : Option WireFrame
  deriving DecidableEq, Repr

/-- The levels the outside holds at the part's pins: link indications (R27) and raw contact levels (R155). -/
structure Pins where
  linkA : Bool
  linkB : Bool
  bays : Vector Bool 4
  raw : Vector Bool 8
  deriving DecidableEq, Repr

/-! ## Stream table (chapters 3, 4 and 6) -/

/-- R41. -/
inductive Origin where
  | remote
  | localBay (p : Fin 4)
  | localHost (k : Fin 32)
  deriving DecidableEq, Repr

/-- R59. -/
inductive ForwardSet where
  | default
  | explicit (set : PortSet)
  deriving DecidableEq, Repr

/-- R63. The mark at a position of the window. -/
inductive Mark where
  | empty
  | a
  | b
  | both
  deriving DecidableEq, Repr

/-- R63. A window that is not EMPTY. -/
structure Window where
  high : Word
  epoch : Byte
  marks : Vector Mark 32
  deriving DecidableEq, Repr

/-- R85. A lane record with the lane cycle at which it was last written. -/
structure LaneRecord where
  lone : Bool
  run : Nat
  cycle : Word
  deriving DecidableEq, Repr

/-- R103, R105. A freshness deadline: none; the wait of an entry armed by START, which begins when the part enters
RUNNING; or a part clock value with the hold time or expected first-arrival time and the margin it was computed from. -/
inductive Deadline where
  | none
  | fromRunning (promise : Word)
  | at (time : Clock) (promise : Word) (margin : Word)
  deriving DecidableEq, Repr

/-- R40. An entry of the stream table. -/
structure Entry where
  id : Word
  origin : Origin
  configured : Bool
  slot : Option (Fin 64)
  forward : ForwardSet
  cls : Option Cls
  fresh : Option Freshness
  deadline : Deadline
  hold : Word
  window : Option Window
  sendEpoch : Byte
  sendNext : Word
  recordA : LaneRecord
  recordB : LaneRecord
  firsts : Word
  twins : Word
  repeats : Word
  late : Word
  lastAccept : Option Clock
  longest : Option Long
  age : Word
  echoNoted : Bool
  clashNoted : Bool
  serial : Word
  deriving DecidableEq, Repr

/-- R64 to R69. What the window makes of a copy; the four kinds of FIRST are kept apart. -/
inductive Judgement where
  | firstFromEmpty
  | firstNewEpoch (old : Byte)
  | firstAhead
  | firstFilled
  | twin
  | repeated
  | late
  | oldEpoch
  deriving DecidableEq, Repr

/-! ## Twin Watch and the claims between it, the engine and the Lane Supervisor (chapter 5) -/

/-- R78. -/
structure WatchEntry where
  id : Word
  serial : Word
  seq : Word
  absent : Lane
  cycle : Word
  first : Clock
  deadline : Clock
  deriving DecidableEq, Repr

/-- R82. -/
structure MissNote where
  id : Word
  serial : Word
  seq : Word
  absent : Lane
  deriving DecidableEq, Repr

/-- What the engine hands Twin Watch (R65, R70, R72, R84); `lane` is the arrival lane, `time` the arrival time. -/
inductive TwinClaim where
  | watch (id serial seq : Word) (lane : Lane) (time : Clock)
  | twin (id serial seq : Word) (lane : Lane) (time : Clock)
  | abandon (id serial : Word)
  deriving DecidableEq, Repr

/-- What Twin Watch reports to the engine (R81, R83). -/
inductive TwinReport where
  | miss (id serial : Word) (lane : Lane) (cycle : Word)
  | credit (id serial : Word) (lane : Lane)
  deriving DecidableEq, Repr

/-- R89. A lone count rise or fall, with the lane cycle it carries. -/
structure LoneChange where
  rise : Bool
  lane : Lane
  cycle : Word
  deriving DecidableEq, Repr

/-! ## Delivery (chapter 7) -/

/-- R114. -/
inductive TestAcceptance where
  | normalOnly
  | testOnly
  | both
  deriving DecidableEq, Repr

/-- R114. -/
inductive NotifyMode where
  | none
  | onChange
  | onEvery
  deriving DecidableEq, Repr

/-- R114. What Delivery keeps of a slot's configuration while the slot is ARMED. -/
structure SlotConfig where
  acceptance : TestAcceptance
  notify : NotifyMode
  offset : Word
  length : Word
  deriving DecidableEq, Repr

/-- R114. A subscription slot's configuration as an arm reads it. -/
structure SlotRequest where
  id : Word
  config : SlotConfig
  forward : ForwardSet
  expected : Word
  deriving DecidableEq, Repr

/-- R119, R120. An accepted copy as it is handed to Delivery. -/
structure Copy where
  id : Word
  seq : Word
  epoch : Byte
  port : Port
  time : Clock
  cls : Cls
  test : Bool
  hold : Word
  repeatNo : Byte
  length : Word
  content : List Byte
  deriving DecidableEq, Repr

/-- R112. What a slot shows of its entry: freshness and the two lane records as they read (R85). -/
structure EntryView where
  fresh : Option Freshness
  loneA : Bool
  runA : Nat
  loneB : Bool
  runB : Nat
  deriving DecidableEq, Repr

/-- R117, R120, R125, section 12.4. The status and content of a subscription slot: its edition-guarded group. -/
structure SlotStatus where
  edition : Word
  state : SlotState
  reason : Reason
  view : EntryView
  mismatch : Bool
  truncated : Bool
  seq : Word
  epoch : Byte
  port : Option Port
  time : Clock
  cls : Option Cls
  test : Bool
  hold : Word
  repeatNo : Byte
  length : Word
  deliveries : Long
  superseded : Word
  stale : Word
  content : List Byte
  deriving DecidableEq, Repr

/-- R122. The copy that last changed a slot's mismatch marker. -/
structure MarkedBy where
  id : Word
  seq : Word
  time : Clock
  deriving DecidableEq, Repr

/-- R119. A delivery in progress: the copy, and what was settled at its start. -/
structure InProgress where
  copy : Copy
  view : EntryView
  mismatch : Bool
  markedBy : Option MarkedBy
  notify : NotifyMode
  differs : Bool
  deriving DecidableEq, Repr

/-- R115 to R118. An arm outcome or a detach as it reaches Delivery; `marked` is the copy that last changed the marker before
an arm. -/
inductive SlotOutcome where
  | disarmed
  | refused (reason : Reason) (claim : JournalClaim)
  | armed (view : EntryView) (marked : Option MarkedBy)
  deriving DecidableEq, Repr

/-- R112, R121. An update of the engine that waits for a delivery's completion: the view of the entry that it shows, and
whether it is an entering of STALE. -/
structure DueView where
  view : EntryView
  stale : Bool
  deriving DecidableEq, Repr

/-- A subscription slot: the state the last claim gave it, its status group, and what Delivery keeps for it. `told` is the view
of its entry that the engine last handed to it, in an update, with a copy or at the arm. -/
structure SubSlot where
  state : SlotState
  status : SlotStatus
  config : Option SlotConfig
  inProgress : Option InProgress
  waiting : Option Copy
  marker : Bool
  markedBy : Option MarkedBy
  previous : Option (List Byte)
  supersededDue : Nat
  staleDue : Nat
  told : EntryView
  viewsDue : List DueView
  outcomes : List SlotOutcome
  deriving DecidableEq, Repr

/-! ## Publication Scheduler (chapter 8) -/

/-- R133. Who posted a slot. -/
inductive Poster where
  | host
  | rule (k : Fin 16)
  deriving DecidableEq, Repr

/-- R127. The arm-time fields of a publication slot. -/
structure PubConfig where
  id : Word
  cls : Cls
  test : Bool
  epoch : Byte
  first : Word
  heartbeat : Word
  refresh : Word
  snapshot : Bool
  forward : PortSet
  dest : BitVec 48
  deriving DecidableEq, Repr

/-- R128. A publication slot's status (the next due time is a view of the calendar) and what the scheduler keeps. -/
structure PubSlot where
  count : Word
  state : PubState
  reason : Reason
  detail : Word
  takenEdition : Word
  takenBy : Option Poster
  nextSeq : Word
  epoch : Byte
  interval : Word
  repeatNo : Word
  sends : Long
  collisions : Word
  lastTake : Clock
  config : Option PubConfig
  buffer : Option (List Byte)
  refreshAt : Option Clock
  everArmed : Bool
  lastEpoch : Byte
  deriving DecidableEq, Repr

/-- R133. An entry of the post set. -/
structure Post where
  slot : Fin 32
  poster : Poster
  deriving DecidableEq, Repr

/-- R134, R135. The take in progress with its staging buffer. -/
structure Take where
  slot : Fin 32
  poster : Poster
  edition : Word
  staged : List Byte
  deriving DecidableEq, Repr

/-- R141. An entry of the send calendar. -/
structure CalendarEntry where
  slot : Fin 32
  due : Clock
  deriving DecidableEq, Repr

/-! ## Contact and Output Unit, Link Rule Unit (chapter 10) -/

/-- R155. One contact input. `settling` is the level settled toward, `none` for STEADY; `accepted` is `none` for
UNKNOWN. -/
structure ContactInput where
  accepted : Option Bool
  settling : Option Bool
  rawSince : Clock
  filterEnds : Option Clock
  blocked : Bool
  waiting : Bool
  changes : Nat
  windowStart : Option Clock
  blockCount : Nat
  lastChange : Clock
  deriving DecidableEq, Repr

/-- R160. One trip output. -/
structure TripOutput where
  driven : Bool
  pulseEnds : Option Clock
  deriving DecidableEq, Repr

/-- R160. What changed an output. -/
inductive OutputCause where
  | rule (k : Fin 16)
  | outputDrive
  | outputRelease
  | pulseExpiry
  | apply
  deriving DecidableEq, Repr

/-- R163. -/
inductive Source where
  | contactOn (n : Fin 8)
  | contactOff (n : Fin 8)
  | streamMatch (id : Word) (offset : Nat) (mask value : List Byte)
  | streamStale (id : Word)
  | lane (l : Lane) (verdict : LaneState)
  | redundancy (state : Redundancy)
  deriving DecidableEq, Repr

/-- R162. -/
inductive Action where
  | driveOutput (n : Fin 4)
  | releaseOutput (n : Fin 4)
  | post (k : Fin 32)
  | journalOnly
  deriving DecidableEq, Repr

/-- R162. A rule's internal copy. -/
structure RuleCopy where
  source : Source
  edge : Bool
  action : Action
  journal : Bool
  deriving DecidableEq, Repr

/-- R166. A link rule's status and internal copy. -/
structure LinkRule where
  state : SlotState
  reason : Reason
  matching : Bool
  refusals : Byte
  fired : Word
  lastFired : Clock
  copy : Option RuleCopy
  deriving DecidableEq, Repr

/-- R163. An event offered to the Link Rule Unit. -/
inductive RuleEvent where
  | contact (n : Fin 8) (on : Bool) (time : Clock)
  | streamCopy (id : Word) (content : List Byte)
  | streamStale (id : Word)
  | lane (l : Lane) (entered : LaneState)
  | redundancy (entered : Redundancy)
  deriving DecidableEq, Repr

/-! ## Commands in progress (section 1.7) -/

/-- R6, R15. The arm word of a record. -/
inductive ArmWord where
  | subscription (k : Fin 64)
  | publication (k : Fin 32)
  | rule (k : Fin 16)
  deriving DecidableEq, Repr

/-- R15. A piece of START's work: one settings word read; the check of the words read and, if every one is valid, step 1; one
record of step 2 visited; step 3; step 4. -/
inductive StartPiece where
  | read (a : Nat)
  | settings
  | visit (w : ArmWord)
  | lanes
  | started
  deriving DecidableEq, Repr

/-- What a command in progress has still to do beside writing its result: of START the pieces left, with the settings words
read so far (word `a` at `a`, as in the host's words), and then step 5; of APPLY the settings it takes at its completion. -/
inductive Finish where
  | nothing
  | starting (left : List StartPiece) (read : List Host.Cell)
  | takeSettings (settings : Settings)
  deriving DecidableEq, Repr

/-- R13. The command in progress: its echo, the result it will end with as far as it is known, and what it has still to do. -/
structure Working where
  echo : Word
  code : ResultCode
  detail : Word
  finish : Finish
  deriving DecidableEq, Repr

end Sys2Proof.Machine
end

