-- ==== Sys2Proof/Machine/Bits.lean ====
section
/-! DEFINITION. Arithmetic on words, clock values and sequences, byte order, and reading and changing one of a fixed number
of like things. -/

namespace Sys2Proof.Machine

/-! ## Counts and two-word values -/

/-- R36. A 16-bit count rises by 1 and stays at 65,535 once there. -/
def satInc (w : Word) : Word :=
  if w = 0xFFFF then w else w + 1

/-- A 16-bit saturating count raised `n` times. -/
def satAdd (w : Word) (n : Nat) : Word :=
  if w.toNat + n ≤ 0xFFFF then BitVec.ofNat 16 (w.toNat + n) else 0xFFFF

/-- R165. A count that saturates at 255. -/
def satIncByte (b : Byte) : Byte :=
  if b = 0xFF then b else b + 1

/-- The more significant half of a two-word value, which stands at the lower address. -/
def high (x : Long) : Word := x.extractLsb' 16 16

/-- The less significant half of a two-word value. -/
def low (x : Long) : Word := x.extractLsb' 0 16

/-- A flag shown as a word: 0 or 1. -/
def bit (b : Bool) : Word := if b then 1 else 0

/-- A flag shown in bit `n` of a word. -/
def bitAt (n : Nat) (b : Bool) : Word := if b then (1 : Word) <<< n else 0

/-- Two bytes as a word, the first byte in the upper half (R176, Conventions). -/
def wordOf (upper lower : Byte) : Word := upper ++ lower

/-- The two bytes of a word, more significant first. -/
def bytesOf (w : Word) : List Byte := [w.extractLsb' 8 8, w.extractLsb' 0 8]

/-- The four bytes of a two-word value, more significant first. -/
def bytesOfLong (x : Long) : List Byte := bytesOf (high x) ++ bytesOf (low x)

/-! ## Time (Conventions, "Arithmetic that wraps") -/

/-- `due` is at or before `now`, judged by signed difference. -/
def reached (now due : Clock) : Bool := !(now - due).msb

/-- `due` is before `now`, judged by signed difference. -/
def overdue (now due : Clock) : Bool := reached now due && now != due

/-- Milliseconds in microseconds. -/
def millis (n : Word) : Clock := BitVec.ofNat 32 (n.toNat * 1000)

/-- Seconds in microseconds. -/
def secs (n : Word) : Clock := BitVec.ofNat 32 (n.toNat * 1000000)

/-- Steps of 0.1 ms in microseconds. -/
def tenthMillis (n : Word) : Clock := BitVec.ofNat 32 (n.toNat * 100)

/-- Steps of 0.5 ms in microseconds. -/
def halfMillis (n : Word) : Clock := BitVec.ofNat 32 (n.toNat * 500)

/-! ## Lanes -/

end Sys2Proof.Machine

namespace Sys2Proof

/-- The lane that is not this one. -/
def Lane.other : Lane → Lane
  | .a => .b
  | .b => .a

end Sys2Proof

namespace Sys2Proof.Machine

/-! ## A fixed number of like things -/

/-- `v` with the thing at `i` changed by `f`. -/
def modifyAt {α : Type} {n : Nat} (v : Vector α n) (i : Fin n) (f : α → α) : Vector α n := v.set i.val (f v[i]) i.isLt

/-- Every thing of `v` changed by `f`. -/
def mapAll {α β : Type} {n : Nat} (f : α → β) (v : Vector α n) : Vector β n := ⟨⟨v.toList.map f⟩, by simp⟩

/-- The two vectors joined thing by thing. -/
def zipAll {α β γ : Type} {n : Nat} (f : α → β → γ) (v : Vector α n) (w : Vector β n) : Vector γ n :=
  ⟨⟨List.zipWith f v.toList w.toList⟩, by simp⟩

/-- A vector given by what stands at each index. -/
def build {α : Type} (n : Nat) (f : Fin n → α) : Vector α n := ⟨⟨List.ofFn f⟩, by simp⟩

/-- The lowest index at which `p` holds. -/
def findAt? {α : Type} {n : Nat} (p : α → Bool) (v : Vector α n) : Option (Fin n) :=
  match v.toList.findIdx? p with
  | some i => if h : i < n then some ⟨i, h⟩ else none
  | none => none

end Sys2Proof.Machine
end

