-- ==== Sys2Proof/Machine/Codes.lean ====
section
/-! DEFINITION. The code values of section 12.7 and the packed words of sections 12.3 to 12.6 that stand for a name. -/

namespace Sys2Proof.Machine

/-- R22, section 12.2. 0x000A for Lane A, 0x000B for Lane B. -/
def laneCode : Lane → Byte
  | .a => 0x0A
  | .b => 0x0B

def laneWord (l : Lane) : Word := (laneCode l).setWidth 16

/-- A bay port's number, 1 to 4. -/
def bayNumber (p : Fin 4) : Word := BitVec.ofNat 16 (p.val + 1)

/-- Section 12.5. The port of arrival. -/
def portWord : Port → Word
  | .lane l => laneWord l
  | .bay p => bayNumber p

def partStateCode : PartState → Word
  | .initialising => 0
  | .config => 1
  | .running => 2

def classCode : Cls → Word
  | .trip => 1
  | .status => 2
  | .sample => 3
  | .service => 4

/-- R176. The class a code names; 0, 5, 6 and 7 are unassigned. -/
def classOf : Nat → Option Cls
  | 1 => some .trip
  | 2 => some .status
  | 3 => some .sample
  | 4 => some .service
  | _ => none

def optClassCode : Option Cls → Word
  | some c => classCode c
  | none => 0

def laneStateCode : LaneState → Word
  | .held => 0
  | .down => 1
  | .proving => 2
  | .healthy => 3
  | .suspect => 4
  | .degraded => 5

def laneStateOf : Nat → Option LaneState
  | 0 => some .held
  | 1 => some .down
  | 2 => some .proving
  | 3 => some .healthy
  | 4 => some .suspect
  | 5 => some .degraded
  | _ => none

def laneCauseCode : LaneCause → Word
  | .start => 1
  | .laneHold => 2
  | .laneRelease => 3
  | .linkDown => 4
  | .linkUp => 5
  | .provingTimer => 6
  | .loneCount => 7

def redundancyCode : Redundancy → Word
  | .none => 0
  | .single => 1
  | .dual => 2

def freshnessCode : Option Freshness → Word
  | none => 0
  | some .awaiting => 1
  | some .fresh => 2
  | some .stale => 3
  | some .unsupervised => 4

def slotStateCode : SlotState → Word
  | .disarmed => 0
  | .armed => 1
  | .refused => 2

def pubStateCode : PubState → Word
  | .disarmed => 0
  | .refused => 1
  | .armedIdle => 2
  | .burst => 3
  | .steady => 4
  | .expired => 5

def reasonCode : Reason → Word
  | .none => 0
  | .badArmCode => 1
  | .badSetting => 2
  | .originClash => 3
  | .duplicate => 4

def resultCode : ResultCode → Word
  | .done => 1
  | .wrongState => 2
  | .badArgument => 3
  | .badSetting => 4
  | .startOnly => 5
  | .unknown => 6

def optResultCode : Option ResultCode → Word
  | some c => resultCode c
  | none => 0

def journalKindCode : JournalKind → Word
  | .started => 1
  | .laneVerdict => 2
  | .redundancy => 3
  | .streamStale => 4
  | .streamFresh => 5
  | .epochChange => 6
  | .originClashSeen => 7
  | .echoSeen => 8
  | .counterFirst => 9
  | .delivery => 10
  | .deliveryChanged => 11
  | .testMismatch => 12
  | .armRefused => 13
  | .publicationExpired => 14
  | .contactInitial => 15
  | .contactChange => 16
  | .contactBlocked => 17
  | .contactUnblocked => 18
  | .outputChange => 19
  | .ruleFired => 20
  | .refusedWrite => 21
  | .overflow => 22

/-- Section 12.5. The subject type in bits 12-15, the value in bits 0-11. -/
def subjectWord : Subject → Word
  | .stream id => 0x1000 ||| (id &&& 0x0FFF)
  | .lane l => 0x2000 ||| laneWord l
  | .bayPort p => 0x3000 ||| bayNumber p
  | .subscription k => 0x4000 ||| BitVec.ofNat 16 k.val
  | .publication k => 0x5000 ||| BitVec.ofNat 16 k.val
  | .contact n => 0x6000 ||| BitVec.ofNat 16 (n.val + 1)
  | .output n => 0x7000 ||| BitVec.ofNat 16 (n.val + 1)
  | .rule k => 0x8000 ||| BitVec.ofNat 16 k.val
  | .part => 0x9000

def laneCounterCode : LaneCounter → Word
  | .frameErrors => 1
  | .overruns => 2
  | .damaged => 3
  | .crossLane => 4
  | .foreignTag => 5
  | .heldDiscards => 6
  | .bareDiscards => 7
  | .drops => 9

def bayCounterCode : BayCounter → Word
  | .frameErrors => 1
  | .overruns => 2
  | .damaged => 3
  | .bareDiscards => 7
  | .trailerOnBay => 8
  | .drops => 9

def engineCounterCode : EngineCounter → Word
  | .echo => 10
  | .originClash => 11
  | .unplaced => 12

/-- Section 12.3. An accepted level: 0 UNKNOWN, 1 OFF, 2 ON. -/
def levelCode : Option Bool → Word
  | none => 0
  | some false => 1
  | some true => 2

def outputCauseCode : OutputCause → Word
  | .rule k => BitVec.ofNat 16 k.val
  | .outputDrive => 0x0101
  | .outputRelease => 0x0102
  | .pulseExpiry => 0x0103
  | .apply => 0x0104

/-- Section 12.4. 0 none, 0x0001 HOST, 0x0100 plus the rule number. -/
def takenByCode : Option Poster → Word
  | none => 0
  | some .host => 1
  | some (.rule k) => 0x0100 + BitVec.ofNat 16 k.val

def sourceKindCode : Source → Word
  | .contactOn _ => 1
  | .contactOff _ => 2
  | .streamMatch _ _ _ _ => 3
  | .streamStale _ => 4
  | .lane _ _ => 5
  | .redundancy _ => 6

def actionCode : Action → Word
  | .driveOutput _ => 1
  | .releaseOutput _ => 2
  | .post _ => 3
  | .journalOnly => 4

/-- Section 12.5, RULE-FIRED. The subject of an event. -/
def eventSubject : RuleEvent → Word
  | .contact n _ _ => BitVec.ofNat 16 (n.val + 1)
  | .streamCopy id _ => id
  | .streamStale id => id
  | .lane l _ => laneWord l
  | .redundancy st => redundancyCode st

/-- A lane record as the slot status shows it: miss run in bits 0-3, LONE in bit 4. -/
def recordWord (lone : Bool) (run : Nat) : Word := BitVec.ofNat 16 run ||| bitAt 4 lone

end Sys2Proof.Machine
end

