-- ==== Sys2Proof/Machine/Frame.lean ====
section
/-! DEFINITION. Frames as bytes: the two check sequences (R23, R26), the twin trailer (R22), the stream header (R20, R176),
and the frames the ports build (R24, R139, R146, R151). -/

namespace Sys2Proof.Machine

/-! ## Check sequences -/

/-- One bit into a CRC register whose generator, less its highest term, is `poly`. -/
def crcBit {w : Nat} (poly reg : BitVec w) (b : Bool) : BitVec w :=
  if reg.msb != b then (reg <<< 1) ^^^ poly else reg <<< 1

/-- The bits of a byte, most significant first. -/
def bitsFromTop (b : Byte) : List Bool :=
  [b.getLsbD 7, b.getLsbD 6, b.getLsbD 5, b.getLsbD 4, b.getLsbD 3, b.getLsbD 2, b.getLsbD 1, b.getLsbD 0]

/-- The bits of a byte, least significant first. -/
def bitsFromBottom (b : Byte) : List Bool :=
  [b.getLsbD 0, b.getLsbD 1, b.getLsbD 2, b.getLsbD 3, b.getLsbD 4, b.getLsbD 5, b.getLsbD 6, b.getLsbD 7]

/-- R23. The trailer check of a span: x^16+x^12+x^5+1, initial value all ones, most significant bit first, no final
inversion. -/
def trailerCheck (span : List Byte) : Word :=
  (span.flatMap bitsFromTop).foldl (crcBit 0x1021) 0xFFFF

/-- R26. The CRC of the bytes before the FCS: initial value all ones, least significant bit first, inverted; bit i is
the coefficient of x^i. -/
def fcsValue (bytes : List Byte) : BitVec 32 :=
  ~~~ ((bytes.flatMap bitsFromBottom).foldl (crcBit 0x04C11DB7) 0xFFFFFFFF)

/-- R26. The four FCS bytes: the coefficient of x^31 in bit 0 of the first, that of x^0 in bit 7 of the last. -/
def fcs (bytes : List Byte) : List Byte :=
  let r := fcsValue bytes
  [(r.extractLsb' 24 8).reverse, (r.extractLsb' 16 8).reverse, (r.extractLsb' 8 8).reverse, (r.extractLsb' 0 8).reverse]

/-! ## Reading a frame -/

def byteAt (f : List Byte) (i : Nat) : Byte := f.getD i 0

/-- R176. More significant byte first. -/
def wordAt (f : List Byte) (i : Nat) : Word := wordOf (byteAt f i) (byteAt f (i + 1))

/-- The frame without its FCS. -/
def withoutFcs (f : List Byte) : List Byte := f.take (f.length - 4)

/-- R26. The length is 64 to 1,522 bytes and the FCS matches. -/
def frameGood (f : List Byte) : Bool :=
  decide (64 ≤ f.length) && decide (f.length ≤ 1522) && (f.drop (f.length - 4) == fcs (withoutFcs f))

/-- R22. Of a frame without its FCS: the marker stands in the fifth and sixth of its last eight bytes. -/
def hasTrailer (body : List Byte) : Bool :=
  decide (8 ≤ body.length) && wordAt body (body.length - 4) == 0xA6E1

def trailerSeq (body : List Byte) : Word := wordAt body (body.length - 8)

def trailerLane (body : List Byte) : Byte := byteAt body (body.length - 6)

def trailerVersion (body : List Byte) : Byte := byteAt body (body.length - 5)

/-- R23. The check over the type word to the sixth trailer byte equals the last two bytes, and the version is 1. -/
def trailerPasses (body : List Byte) : Bool :=
  trailerCheck ((body.take (body.length - 2)).drop 12) == wordAt body (body.length - 2) && trailerVersion body == 1

/-- R25. The frame without its trailer. -/
def stripTrailer (body : List Byte) : List Byte := body.take (body.length - 8)

/-- R20. The word after the two addresses. -/
def typeWord (body : List Byte) : Word := wordAt body 12

/-- R20, R21, R176. The header of a stream message without trailer and FCS, if the message is well-formed. -/
def readHeader (msg : List Byte) : Option Header :=
  let w := wordAt msg 14
  let id := w &&& 0x0FFF
  let hold := wordAt msg 17
  let length := wordAt msg 20
  match classOf ((w.toNat / 4096) % 8) with
  | none => none
  | some c =>
    if id != 0 && decide (hold.toNat ≤ 60000) && decide (length.toNat ≤ 480) && decide (22 + length.toNat ≤ msg.length) then
      some { id := id, cls := c, test := w.getLsbD 15, epoch := byteAt msg 16, hold := hold, repeatNo := byteAt msg 19
             length := length }
    else none

/-- The content bytes of a message whose header has been read. -/
def contentOf (a : Arrival) : List Byte := (a.frame.drop 22).take a.header.length.toNat

/-! ## Building a frame -/

/-- R20. Zero bytes bring a frame to `n` bytes. -/
def padTo (n : Nat) (f : List Byte) : List Byte := f ++ List.replicate (n - f.length) 0

def withFcs (bytes : List Byte) : List Byte := bytes ++ fcs bytes

/-- R22, R23. The trailer of a message with twin sequence `seq` sent on lane `l`. -/
def trailerOf (l : Lane) (seq : Word) (msg : List Byte) : List Byte :=
  let first := bytesOf seq ++ [laneCode l, 1] ++ bytesOf 0xA6E1
  first ++ bytesOf (trailerCheck (msg.drop 12 ++ first))

/-- R24, R146. What a lane port sends for a record: a STREAM record padded to 64 bytes with its trailer and FCS, a BARE
record as queued. -/
def laneBytes (l : Lane) (r : TxRecord) : List Byte :=
  if r.stream then
    let msg := padTo 52 r.frame
    withFcs (msg ++ trailerOf l (r.seq.getD 0) msg)
  else withFcs r.frame

/-- R151. What a bay port sends for a record: no trailer, padded to 64 bytes with its FCS. -/
def bayBytes (r : TxRecord) : List Byte := withFcs (padTo 60 r.frame)

/-- R61, R76. A bay copy with the stamped epoch at offset 16. -/
def stampEpoch (frame : List Byte) (epoch : Byte) : List Byte := frame.set 16 epoch

/-- The six bytes of a 48-bit address, most significant first. -/
def addressBytes (x : BitVec 48) : List Byte :=
  bytesOf (x.extractLsb' 32 16) ++ bytesOf (x.extractLsb' 16 16) ++ bytesOf (x.extractLsb' 0 16)

/-- R139, R176. The stream message of a publication. -/
def buildMessage (dest station : BitVec 48) (type : Word) (h : Header) (content : List Byte) : List Byte :=
  addressBytes dest ++ addressBytes station ++ bytesOf type
    ++ bytesOf (h.id ||| (classCode h.cls <<< 12) ||| bitAt 15 h.test) ++ [h.epoch] ++ bytesOf h.hold ++ [h.repeatNo]
    ++ bytesOf h.length ++ content

end Sys2Proof.Machine
end

