-- ==== Sys2Proof/Machine/Defaults.lean ====
section
/-! DEFINITION. What each piece of state holds after a reset, and the hardware-reset settings. -/

namespace Sys2Proof.Machine

/-- R155. Filter time 4.0 ms, chatter limit 20, block time 10 s, journal-changes flag off. -/
def contactSettingsAtReset : ContactSettings :=
  { filter := 8, limit := 20, block := 10, journal := false }

/-- R160. Not permitted, PULSE, 200 ms. -/
def outputSettingsAtReset : OutputSettings :=
  { permitted := false, latch := false, width := 200 }

/-- Section 1.9. The hardware-reset values, in force in CONFIG after either reset (R18). -/
def settingsAtReset : Settings :=
  { messageType := 0x7A51
    station := 0
    bareLane := .a
    bayEpoch := 0
    twinWait := 50
    loneThreshold := 3
    degradeQuorum := 4
    provingPeriod := 5
    freshMargin := 2
    ageingTime := 60
    defaultForward := 0xF
    divTrip := 1
    divStatus := 1
    divSample := 16
    divService := 4
    passBare := 0
    intEnable := false
    intPulse := false
    journalLearned := false
    contacts := Vector.replicate 8 contactSettingsAtReset
    outputs := Vector.replicate 4 outputSettingsAtReset }

/-- R167, R172. -/
def journalAtReset : Journal :=
  { ring := Vector.replicate 128 none
    written := 0
    taken := 0
    lost := 0
    firstLoss := 0
    overflowPending := false
    claims := []
    writes := []
    int := false
    pulseEnds := none }

/-- R8, R17, R18. -/
def countersAtReset : Counters :=
  { edition := 0, refused := 0, firstRefused := 0, echo := 0, originClash := 0, unplaced := 0, epochChanges := 0
    repeatsA := 0, repeatsB := 0, watchCount := 0, watchMost := 0, unwatched := 0, missesA := 0, missesB := 0
    lateTwinsA := 0, lateTwinsB := 0, abandoned := 0, longestA := 0, longestB := 0 }

/-- R90, R153. HELD, link not yet taken, every count 0. -/
def laneGroupAtReset : LaneGroup :=
  { edition := 0, state := .held, link := false, lone := 0, frameErrors := 0, overruns := 0, damaged := 0
    crossLane := 0, foreignTag := 0, heldDiscards := 0, bareDiscards := 0, drops := 0, arrival := 0, sent := 0
    notSent := 0, flushed := 0 }

/-- R153. -/
def bayBlockAtReset : BayBlock :=
  { link := false, frameErrors := 0, overruns := 0, damaged := 0, bareDiscards := 0, trailerOnBay := 0, drops := 0
    arrival := 0, sent := 0, notSent := 0, flushed := 0 }

/-- R35, R86, R90, R144. -/
def lanePortAtReset : LanePort :=
  { group := laneGroupAtReset, arrivals := [], urgent := [], normal := [], wire := none, cycle := 0
    provingEnds := none }

/-- R35, R144. -/
def bayPortAtReset : BayPort :=
  { arrivals := [], queue := [], wire := none }

/-- R112. What a slot that holds no entry shows (R126). -/
def viewAtReset : EntryView :=
  { fresh := none, loneA := false, runA := 0, loneB := false, runB := 0 }

/-- R126. Every word of a slot's status and content 0. -/
def slotStatusAtReset : SlotStatus :=
  { edition := 0, state := .disarmed, reason := .none, view := viewAtReset, mismatch := false, truncated := false
    seq := 0, epoch := 0, port := none, time := 0, cls := none, test := false, hold := 0, repeatNo := 0, length := 0
    deliveries := 0, superseded := 0, stale := 0, content := [] }

/-- R126. -/
def subSlotAtReset : SubSlot :=
  { state := .disarmed, status := slotStatusAtReset, config := none, inProgress := none, waiting := none
    marker := false, markedBy := none, previous := none, supersededDue := 0, staleDue := 0, told := viewAtReset, viewsDue := []
    outcomes := [] }

/-- R143. -/
def pubSlotAtReset : PubSlot :=
  { count := 0, state := .disarmed, reason := .none, detail := 0, takenEdition := 0, takenBy := none, nextSeq := 0
    epoch := 0, interval := 0, repeatNo := 0, sends := 0, collisions := 0, lastTake := 0, config := none
    buffer := none, refreshAt := none, everArmed := false, lastEpoch := 0 }

/-- R155. -/
def contactInputAtReset : ContactInput :=
  { accepted := none, settling := none, rawSince := 0, filterEnds := none, blocked := false, waiting := false
    changes := 0, windowStart := none, blockCount := 0, lastChange := 0 }

/-- R160. -/
def tripOutputAtReset : TripOutput :=
  { driven := false, pulseEnds := none }

/-- R162, R166. -/
def linkRuleAtReset : LinkRule :=
  { state := .disarmed, reason := .none, matching := false, refusals := 0, fired := 0, lastFired := 0, copy := none }

end Sys2Proof.Machine
end

