-- ==== Sys2Proof/Machine/State.lean ====
section
/-! DEFINITION. The state of the part as plain data, why a step can stop, and the state right after a hardware reset. -/

namespace Sys2Proof.Machine

/-- Why the part stops with a fault. The manual gives every access, frame, claim and command an outcome (INVENTORY.md,
"Faults"), so nothing raises one. Safe: no constructor, no stop. -/
inductive Fault where
  deriving DecidableEq, Repr

/-- Why the model refuses a command. -/
inductive Refusal where
  /-- Raised by an arm of `exec` for a command without a meaning; no arm raises it now. Safe: the model stops. -/
  | notModelled (mnemonic : String)
  deriving DecidableEq, Repr

/-- Everything the part keeps (INVENTORY.md, "State"). -/
structure State where
  /-- The commands not yet taken, first in, first out. -/
  pending : List Instr
  /-- The model's own: numbers the free choices of a run (log entry 2). -/
  free : Nat
  /-- R11. -/
  partState : PartState
  /-- R18, R19. INITIALISING completes a soft reset. -/
  softReset : Bool
  /-- R9. The part clock. -/
  clock : Clock
  /-- R9. The seconds count. -/
  seconds : Long
  /-- R9. When the next seconds tick falls. -/
  nextTick : Clock
  /-- R9. When the next clock group update falls. -/
  nextClockUpdate : Clock
  clockGroup : ClockGroup
  /-- R3. The HOST-owned words, word `a` at bytes 2a and 2a + 1; rising addresses, no zero byte. -/
  mem : List Host.Cell
  result : ResultGroup
  /-- R13. The command in progress; none while the command state is READY. -/
  working : Option Working
  /-- R15. Arm writes held while START is WORKING. -/
  heldArms : List ArmWord
  /-- Section 1.9. The settings in force. -/
  settings : Settings
  counters : Counters
  journal : Journal
  laneA : LanePort
  laneB : LanePort
  bays : Vector BayPort 4
  bayGroup : BayGroup
  pins : Pins
  /-- R38. -/
  lastServed : Port
  /-- R42. The record positions of the stream table. -/
  table : Vector (Option Entry) 512
  /-- R43. The opening and closing count of each record, equal between updates. -/
  imageCounts : Vector Word 512
  /-- R42. The serial count. -/
  serial : Word
  /-- R46. The bay epoch counter. -/
  bayEpoch : Byte
  /-- R55. The positions of entries a seconds tick has found too old and that are not yet removed. -/
  ageingDue : List (Fin 512)
  /-- R58. What Twin Watch has handed the engine. -/
  reports : List TwinReport
  /-- R86. Lane notices handed to the engine. -/
  laneNotices : List Lane
  /-- R78. The twin watch list, earliest deadline first. -/
  watchList : List WatchEntry
  /-- R82. Oldest first. -/
  missNotes : List MissNote
  /-- R83. What the engine has handed Twin Watch. -/
  twinClaims : List TwinClaim
  /-- R96. Lane cleanups handed to Twin Watch. -/
  cleanups : List Lane
  /-- R89. Lone count rises and falls handed to the Lane Supervisor. -/
  loneChanges : List LoneChange
  /-- R99. -/
  redundancy : Redundancy
  /-- R100. -/
  bareRoute : Lane
  subs : Vector SubSlot 64
  pubs : Vector PubSlot 32
  /-- R133. The TRIP group of the post set. -/
  postTrip : List Post
  /-- R133. The other group of the post set. -/
  postOther : List Post
  /-- R134. -/
  take : Option Take
  /-- R141. The send calendar, earliest due time first. -/
  calendar : List CalendarEntry
  /-- R8. The edition word of the contact status group. -/
  contactEdition : Word
  /-- R155. The unit takes raw changes: step 3 of START has been done. -/
  filtering : Bool
  inputs : Vector ContactInput 8
  outputs : Vector TripOutput 4
  rules : Vector LinkRule 16
  /-- R165. Events offered to the Link Rule Unit. -/
  events : List RuleEvent
  deriving DecidableEq, Repr

/-- R19. The part at the taking of a power-on reset: INITIALISING, READY low, the clock 0, every block at its reset
value. The levels at the pins are the model's choice (log entry 10). -/
def State.reset : State :=
  { pending := []
    free := 0
    partState := .initialising
    softReset := false
    clock := 0
    seconds := 0
    nextTick := 1000000
    nextClockUpdate := 0
    clockGroup := { edition := 0, clock := 0, seconds := 0 }
    mem := []
    result := { echo := 0, code := none, detail := 0 }
    working := none
    heldArms := []
    settings := settingsAtReset
    counters := countersAtReset
    journal := journalAtReset
    laneA := lanePortAtReset
    laneB := lanePortAtReset
    bays := Vector.replicate 4 bayPortAtReset
    bayGroup := { edition := 0, ports := Vector.replicate 4 bayBlockAtReset }
    pins := { linkA := false, linkB := false, bays := Vector.replicate 4 false, raw := Vector.replicate 8 false }
    lastServed := .bay 3
    table := Vector.replicate 512 none
    imageCounts := Vector.replicate 512 0
    serial := 0
    bayEpoch := 0
    ageingDue := []
    reports := []
    laneNotices := []
    watchList := []
    missNotes := []
    twinClaims := []
    cleanups := []
    loneChanges := []
    redundancy := .none
    bareRoute := .a
    subs := Vector.replicate 64 subSlotAtReset
    pubs := Vector.replicate 32 pubSlotAtReset
    postTrip := []
    postOther := []
    take := none
    calendar := []
    contactEdition := 0
    filtering := false
    inputs := Vector.replicate 8 contactInputAtReset
    outputs := Vector.replicate 4 tripOutputAtReset
    rules := Vector.replicate 16 linkRuleAtReset
    events := [] }

end Sys2Proof.Machine
end

