-- ==== Sys2Proof/Machine/Memory.lean ====
section
/-! DEFINITION. The HOST-owned words of the exchange memory as listed bytes. -/

namespace Sys2Proof.Machine

/-- What a byte that is not listed reads as: R19 sets every word of the memory to 0. -/
def Memory.unlisted : Byte := 0

/-- The canonical form: addresses strictly rising, no byte listed that equals an unlisted one. -/
abbrev Memory.wf (m : List Host.Cell) : Prop :=
  m.Pairwise (fun c d => c.1 < d.1) ∧ ∀ c ∈ m, c.2 ≠ Memory.unlisted

/-- The byte at `a`. -/
def readByte : List Host.Cell → Nat → Byte
  | [], _ => Memory.unlisted
  | (b, v) :: rest, a => if b = a then v else readByte rest a

/-- The memory after a write of `v` at `a`. -/
def writeByte : List Host.Cell → Nat → Byte → List Host.Cell
  | [], a, v => if v = Memory.unlisted then [] else [(a, v)]
  | (b, w) :: rest, a, v =>
    if a < b then
      if v = Memory.unlisted then (b, w) :: rest else (a, v) :: (b, w) :: rest
    else if a = b then
      if v = Memory.unlisted then rest else (a, v) :: rest
    else (b, w) :: writeByte rest a v

/-- The word at word address `a`, its upper half at byte 2a (Conventions: the first byte in the upper half). -/
def readWord (m : List Host.Cell) (a : Nat) : Word := wordOf (readByte m (2 * a)) (readByte m (2 * a + 1))

/-- The memory after a write of the word `v` at word address `a`. -/
def writeWord (m : List Host.Cell) (a : Nat) (v : Word) : List Host.Cell :=
  writeByte (writeByte m (2 * a) (v.extractLsb' 8 8)) (2 * a + 1) (v.extractLsb' 0 8)

/-- Words `vs` written from word address `a` on. -/
def writeWords (m : List Host.Cell) (a : Nat) : List Word → List Host.Cell
  | [] => m
  | v :: vs => writeWords (writeWord m a v) (a + 1) vs

/-- `n` content bytes from the first byte of word address `a` on: two to a word, the first in the upper half. -/
def readContent (m : List Host.Cell) (a n : Nat) : List Byte := (List.range n).map (fun i => readByte m (2 * a + i))

end Sys2Proof.Machine
end

