-- ==== Sys2Proof/Machine/Map.lean ====
section
/-! DEFINITION. The exchange memory map: whose each word is (section 1.2, R174), where each host word stands (chapter 12),
and what each PART-owned word shows of the blocks' state. -/

namespace Sys2Proof.Machine

/-! ## Addresses -/

def commandWord : Nat := 0x0040
def argumentWord : Nat := 0x0041
def journalTakenWord : Nat := 0x0042

/-- Section 12.4. The first word of publication slot `k`. -/
def pubBase (k : Fin 32) : Nat := 0x0200 + 160 * k.val

/-- Section 12.4. The first word of subscription slot `k`. -/
def subBase (k : Fin 64) : Nat := 0x1600 + 176 * k.val

/-- Section 12.5. The first word of link rule `k`. -/
def ruleBase (k : Fin 16) : Nat := 0x4600 + 16 * k.val

/-- Section 12.5. The settings record of contact input `n` + 1. -/
def contactBase (n : Fin 8) : Nat := 0x4700 + 4 * n.val

/-- Section 12.5. The settings record of trip output `n` + 1. -/
def outputBase (n : Fin 4) : Nat := 0x4720 + 4 * n.val

/-! ## Regions -/

/-- Where a word address lies. -/
inductive Place where
  | directory (offset : Nat)
  | command
  | argument
  | journalTaken
  | hostSettings
  | status (address : Nat)
  | publication (k : Fin 32) (offset : Nat)
  | subscription (k : Fin 64) (offset : Nat)
  | journal (position : Fin 128) (offset : Nat)
  | rule (k : Fin 16) (offset : Nat)
  | contactSettings
  | outputSettings
  | streamTable (position : Fin 512) (offset : Nat)
  | nobody
  deriving DecidableEq, Repr

/-- Section 1.2, chapter 12: the region and record of word address `a`. -/
def place (a : Nat) : Place :=
  if a < 0x0040 then .directory a
  else if a = 0x0040 then .command
  else if a = 0x0041 then .argument
  else if a = 0x0042 then .journalTaken
  else if a < 0x0100 then .hostSettings
  else if a < 0x0200 then .status a
  else if a < 0x1600 then .publication (Fin.ofNat 32 ((a - 0x0200) / 160)) ((a - 0x0200) % 160)
  else if a < 0x4200 then .subscription (Fin.ofNat 64 ((a - 0x1600) / 176)) ((a - 0x1600) % 176)
  else if a < 0x4600 then .journal (Fin.ofNat 128 ((a - 0x4200) / 8)) ((a - 0x4200) % 8)
  else if a < 0x4700 then .rule (Fin.ofNat 16 ((a - 0x4600) / 16)) ((a - 0x4600) % 16)
  else if a < 0x4720 then .contactSettings
  else if a < 0x4730 then .outputSettings
  else if a < 0x4800 then .nobody
  else if a < 0x6800 then .streamTable (Fin.ofNat 512 ((a - 0x4800) / 16)) ((a - 0x4800) % 16)
  else .nobody

/-- Who may write a word (R3). -/
inductive Side where
  | host
  | part
  | nobody
  deriving DecidableEq, Repr

/-- The fixed map of section 1.2 and R174. -/
def sideOf : Place → Side
  | .directory _ => .part
  | .command => .host
  | .argument => .host
  | .journalTaken => .host
  | .hostSettings => .host
  | .status _ => .part
  | .publication _ off => if off ≤ 140 then .host else .part
  | .subscription _ off => if off ≤ 15 then .host else if off ≤ 167 then .part else .nobody
  | .journal _ _ => .part
  | .rule _ off => if off ≤ 11 then .host else .part
  | .contactSettings => .host
  | .outputSettings => .host
  | .streamTable _ _ => .part
  | .nobody => .nobody

/-- R3, R5. The writing side of word `a` at this moment: every word is the part's while INITIALISING, and the command
and argument words while a command is WORKING. -/
def State.sideNow (s : State) (a : Nat) : Side :=
  if s.partState = .initialising then .part
  else if s.working.isSome && (a == commandWord || a == argumentWord) then .part
  else sideOf (place a)

/-! ## What the PART-owned words show -/

/-- R10, section 12.2. -/
def directoryWords : List Word :=
  [0x0240, 1, 9, 0,
   0x0040, 1, 0x00C0,
   0x0100, 1, 0x0100,
   0x0200, 32, 160,
   0x1600, 64, 176,
   0x4200, 128, 8,
   0x4600, 16, 16,
   0x4700, 8, 4,
   0x4720, 4, 4,
   0x4800, 512, 16]

/-- Section 12.3. -/
def stateWord (s : State) : Word := partStateCode s.partState ||| bitAt 8 s.working.isSome

/-- Section 12.3. -/
def redundancyWord (s : State) : Word := redundancyCode s.redundancy ||| bitAt 8 (s.bareRoute == .b)

/-- Section 12.3. -/
def counterWords (c : Counters) : List Word :=
  [c.edition, c.refused, c.firstRefused, c.echo, c.originClash, c.unplaced,
   high c.epochChanges, low c.epochChanges, high c.repeatsA, low c.repeatsA, high c.repeatsB, low c.repeatsB,
   c.watchCount, c.watchMost, high c.unwatched, low c.unwatched,
   high c.missesA, low c.missesA, high c.missesB, low c.missesB,
   high c.lateTwinsA, low c.lateTwinsA, high c.lateTwinsB, low c.lateTwinsB,
   high c.abandoned, low c.abandoned, high c.longestA, low c.longestA, high c.longestB, low c.longestB]

/-- Section 12.3. -/
def laneWords (g : LaneGroup) : List Word :=
  [g.edition, laneStateCode g.state, bit g.link, g.lone,
   g.frameErrors, g.overruns, g.damaged, g.crossLane, g.foreignTag, g.heldDiscards, g.bareDiscards, g.drops,
   high g.arrival, low g.arrival, high g.sent, low g.sent, high g.notSent, low g.notSent, high g.flushed, low g.flushed]

/-- Section 12.3. -/
def bayWords (b : BayBlock) : List Word :=
  [bit b.link, b.frameErrors, b.overruns, b.damaged, b.bareDiscards, b.trailerOnBay, b.drops,
   high b.arrival, low b.arrival, high b.sent, low b.sent, high b.notSent, low b.notSent, high b.flushed, low b.flushed]

/-- Section 12.3. The three words of a contact input. -/
def inputWords (i : ContactInput) : List Word :=
  [levelCode i.accepted ||| bitAt 4 i.settling.isSome ||| bitAt 5 i.blocked, high i.lastChange, low i.lastChange]

/-- Section 12.3. The word of a trip output: DRIVEN and the mode in force. -/
def outputWord (o : TripOutput) (c : OutputSettings) : Word := bitAt 0 o.driven ||| bitAt 1 c.latch

/-- Section 12.3. The words of the contact status group after its edition. -/
def contactWords (s : State) : List Word :=
  s.inputs.toList.flatMap inputWords ++ List.zipWith outputWord s.outputs.toList s.settings.outputs.toList

/-- Section 12.3. The words 0x0100 to 0x01FF. -/
def statusWord (s : State) (a : Nat) : Word :=
  if a = 0x0100 then stateWord s
  else if a = 0x0101 then s.result.echo
  else if a = 0x0102 then optResultCode s.result.code
  else if a = 0x0103 then s.result.detail
  else if a = 0x0104 then redundancyWord s
  else if a = 0x0105 then s.journal.written
  else if a = 0x0106 then s.journal.taken
  else if a = 0x0107 then s.journal.lost
  else if a = 0x0108 then bit s.journal.overflowPending
  else if 0x0110 ≤ a && a ≤ 0x0114 then
    [s.clockGroup.edition, high s.clockGroup.clock, low s.clockGroup.clock, high s.clockGroup.seconds,
     low s.clockGroup.seconds].getD (a - 0x0110) 0
  else if 0x0118 ≤ a && a ≤ 0x0135 then (counterWords s.counters).getD (a - 0x0118) 0
  else if 0x0140 ≤ a && a ≤ 0x0153 then (laneWords s.laneA.group).getD (a - 0x0140) 0
  else if 0x0160 ≤ a && a ≤ 0x0173 then (laneWords s.laneB.group).getD (a - 0x0160) 0
  else if a = 0x0180 then s.bayGroup.edition
  else if 0x0190 ≤ a && a ≤ 0x01CF then
    (bayWords (s.bayGroup.ports[Fin.ofNat 4 ((a - 0x0190) / 16)])).getD ((a - 0x0190) % 16) 0
  else if a = 0x01E0 then s.contactEdition
  else if 0x01E1 ≤ a && a ≤ 0x01FC then (contactWords s).getD (a - 0x01E1) 0
  else 0

/-- R141. When the calendar will next send slot `k`; 0 when it holds no entry for it (R128). -/
def nextDue (s : State) (k : Fin 32) : Clock :=
  match s.calendar.find? (fun c => c.slot == k) with
  | some c => c.due
  | none => 0

/-- Section 12.4. Words 141 to 159 of a publication slot. -/
def pubWords (s : State) (k : Fin 32) : List Word :=
  let p := s.pubs[k]
  [p.count, pubStateCode p.state, reasonCode p.reason, p.detail, p.takenEdition, takenByCode p.takenBy,
   p.nextSeq, p.epoch.setWidth 16, p.interval, p.repeatNo, high (nextDue s k), low (nextDue s k),
   high p.sends, low p.sends, p.collisions, high p.lastTake, low p.lastTake, 0, p.count]

/-- Section 12.4. Words 16 to 39 of a subscription slot. -/
def slotWords (t : SlotStatus) : List Word :=
  [t.edition, slotStateCode t.state, reasonCode t.reason, freshnessCode t.view.fresh,
   recordWord t.view.loneA t.view.runA, recordWord t.view.loneB t.view.runB,
   bitAt 0 t.mismatch ||| bitAt 1 t.truncated, t.seq, t.epoch.setWidth 16,
   (match t.port with | some p => portWord p | none => 0),
   high t.time, low t.time, optClassCode t.cls, bit t.test, t.hold, t.repeatNo.setWidth 16, t.length,
   high t.deliveries, low t.deliveries, t.superseded, t.stale, 0, 0, 0]

/-- R120. A content word: two bytes of the delivered content, bytes beyond it 0. -/
def contentWord (content : List Byte) (i : Nat) : Word := wordOf (content.getD (2 * i) 0) (content.getD (2 * i + 1) 0)

/-- Section 12.5. -/
def journalWords : Option JournalEntry → List Word
  | none => []
  | some e =>
    [e.number, journalKindCode e.claim.kind, subjectWord e.claim.subject, high e.claim.time, low e.claim.time,
     e.claim.d1, e.claim.d2, e.claim.d3]

/-- R166, section 12.5. Words 12 to 15 of a link rule. -/
def ruleWords (r : LinkRule) : List Word :=
  [high r.lastFired, low r.lastFired, r.fired,
   slotStateCode r.state ||| (reasonCode r.reason <<< 2) ||| bitAt 7 r.matching ||| (r.refusals.setWidth 16 <<< 8)]

/-- Section 12.6. The words of an entry's record between the two counts. What has no meaning shows 0 (the model's choice, log entry
35): the window's epoch and highest sequence while the window is EMPTY, the last acceptance time while it is absent, bits 6 to 11 of
word 2 without a subscription slot, bits 0 to 4 of word 2 of a REMOTE entry, and bits 10 to 13 of word 4 under DEFAULT. -/
def entryWords (e : Entry) : List Word :=
  let remote := e.origin == .remote
  let originBits : Word := match e.origin with
    | .remote => 0x4000
    | .localBay p => 0x8000 ||| bayNumber p
    | .localHost k => 0xC000 ||| BitVec.ofNat 16 k.val
  let slotBits : Word := match e.slot with
    | some k => 0x1000 ||| (BitVec.ofNat 16 k.val <<< 6)
    | none => 0
  let epoch : Byte := if remote then (match e.window with | some w => w.epoch | none => 0) else e.sendEpoch
  let records : Word :=
    if remote then recordWord e.recordA.lone e.recordA.run ||| (recordWord e.recordB.lone e.recordB.run <<< 5) else 0
  let forward : Word := match e.forward with
    | .default => 0x4000
    | .explicit set => set.setWidth 16 <<< 10
  let sequence : Word := if remote then (match e.window with | some w => w.high | none => 0) else e.sendNext
  let accept : Clock := e.lastAccept.getD 0
  let longest : Long := e.longest.getD 0xFFFFFFFF
  [e.id,
   originBits ||| bitAt 13 e.configured ||| slotBits ||| bitAt 5 e.echoNoted,
   epoch.setWidth 16 ||| bitAt 8 (remote && e.window.isSome) ||| (optClassCode e.cls <<< 9)
     ||| (freshnessCode e.fresh <<< 12) ||| bitAt 15 e.clashNoted,
   records ||| forward,
   e.hold, sequence, e.firsts, e.twins, e.repeats, e.late, high accept, low accept, high longest, low longest]

/-- R43. The record of a position: the opening count, the entry's words or zeros, the closing count. -/
def recordWords (count : Word) (e : Option Entry) : List Word :=
  [count] ++ (match e with | some e => entryWords e | none => List.replicate 14 0) ++ [count]

/-- What a PART-owned word shows; a word without a field and a word of no one read 0 (R174). -/
def partWord (s : State) : Place → Word
  | .directory off => directoryWords.getD off 0
  | .status a => statusWord s a
  | .publication k off => (pubWords s k).getD (off - 141) 0
  | .subscription k off =>
    if off < 40 then (slotWords s.subs[k].status).getD (off - 16) 0
    else if off < 168 then contentWord s.subs[k].status.content (off - 40)
    else 0
  | .journal p off => (journalWords s.journal.ring[p]).getD off 0
  | .rule k off => (ruleWords s.rules[k]).getD (off - 12) 0
  | .streamTable p off => (recordWords s.imageCounts[p] s.table[p]).getD off 0
  | .command | .argument | .journalTaken | .hostSettings | .contactSettings | .outputSettings | .nobody => 0

/-- R1, R2. What a host read of word `a` returns: 0 while INITIALISING, else the value the word holds. -/
def hostRead (s : State) (a : Addr) : Word :=
  if s.partState = .initialising then 0
  else
    match sideOf (place a.toNat) with
    | .host => readWord s.mem a.toNat
    | .part => partWord s (place a.toNat)
    | .nobody => 0

/-- R2. The READY line. -/
def State.ready (s : State) : Bool := s.partState != .initialising

end Sys2Proof.Machine
end

