-- ==== Sys2Proof/Machine/Flags.lean ====
section
/-! DEFINITION. Counters, verdicts and lines as pure functions: what a counted event does to a group, what a lane's evidence
says, and where the INT line stands. -/

namespace Sys2Proof.Machine

/-! ## Anomaly counters (R36) -/

/-- A lane port's counter. -/
def LaneGroup.count (g : LaneGroup) : LaneCounter → Word
  | .frameErrors => g.frameErrors
  | .overruns => g.overruns
  | .damaged => g.damaged
  | .crossLane => g.crossLane
  | .foreignTag => g.foreignTag
  | .heldDiscards => g.heldDiscards
  | .bareDiscards => g.bareDiscards
  | .drops => g.drops

/-- A lane port's counter raised by 1. -/
def LaneGroup.bump (c : LaneCounter) (g : LaneGroup) : LaneGroup :=
  match c with
  | .frameErrors => { g with frameErrors := satInc g.frameErrors }
  | .overruns => { g with overruns := satInc g.overruns }
  | .damaged => { g with damaged := satInc g.damaged }
  | .crossLane => { g with crossLane := satInc g.crossLane }
  | .foreignTag => { g with foreignTag := satInc g.foreignTag }
  | .heldDiscards => { g with heldDiscards := satInc g.heldDiscards }
  | .bareDiscards => { g with bareDiscards := satInc g.bareDiscards }
  | .drops => { g with drops := satInc g.drops }

/-- A bay port's counter. -/
def BayBlock.count (b : BayBlock) : BayCounter → Word
  | .frameErrors => b.frameErrors
  | .overruns => b.overruns
  | .damaged => b.damaged
  | .bareDiscards => b.bareDiscards
  | .trailerOnBay => b.trailerOnBay
  | .drops => b.drops

/-- A bay port's counter raised by 1. -/
def BayBlock.bump (c : BayCounter) (b : BayBlock) : BayBlock :=
  match c with
  | .frameErrors => { b with frameErrors := satInc b.frameErrors }
  | .overruns => { b with overruns := satInc b.overruns }
  | .damaged => { b with damaged := satInc b.damaged }
  | .bareDiscards => { b with bareDiscards := satInc b.bareDiscards }
  | .trailerOnBay => { b with trailerOnBay := satInc b.trailerOnBay }
  | .drops => { b with drops := satInc b.drops }

/-- A part-wide counter. -/
def Counters.count (c : Counters) : EngineCounter → Word
  | .echo => c.echo
  | .originClash => c.originClash
  | .unplaced => c.unplaced

/-- A part-wide counter raised by 1. -/
def Counters.bump (k : EngineCounter) (c : Counters) : Counters :=
  match k with
  | .echo => { c with echo := satInc c.echo }
  | .originClash => { c with originClash := satInc c.originClash }
  | .unplaced => { c with unplaced := satInc c.unplaced }

/-- R26. One completed reception. -/
def LaneGroup.arrived (g : LaneGroup) : LaneGroup := { g with arrival := g.arrival + 1 }

/-- R26. One completed reception. -/
def BayBlock.arrived (b : BayBlock) : BayBlock := { b with arrival := b.arrival + 1 }

/-- R17. Anomaly counters and totals set to 0. -/
def LaneGroup.cleared (g : LaneGroup) : LaneGroup :=
  { g with frameErrors := 0, overruns := 0, damaged := 0, crossLane := 0, foreignTag := 0, heldDiscards := 0
           bareDiscards := 0, drops := 0, arrival := 0, sent := 0, notSent := 0, flushed := 0 }

/-- R17. Anomaly counters and totals set to 0. -/
def BayBlock.cleared (b : BayBlock) : BayBlock :=
  { b with frameErrors := 0, overruns := 0, damaged := 0, bareDiscards := 0, trailerOnBay := 0, drops := 0
           arrival := 0, sent := 0, notSent := 0, flushed := 0 }

/-- R17. What CLEAR-COUNTS leaves of the counters group: the edition, the watch list counts and the longest delays. -/
def Counters.cleared (c : Counters) : Counters :=
  { c with refused := 0, firstRefused := 0, echo := 0, originClash := 0, unplaced := 0, epochChanges := 0
           repeatsA := 0, repeatsB := 0, unwatched := 0, missesA := 0, missesB := 0, lateTwinsA := 0, lateTwinsB := 0
           abandoned := 0 }

/-! ## Per-lane totals of the counters group -/

/-- R73. -/
def Counters.addRepeat (l : Lane) (c : Counters) : Counters :=
  match l with
  | .a => { c with repeatsA := c.repeatsA + 1 }
  | .b => { c with repeatsB := c.repeatsB + 1 }

/-- R81. -/
def Counters.addMiss (l : Lane) (c : Counters) : Counters :=
  match l with
  | .a => { c with missesA := c.missesA + 1 }
  | .b => { c with missesB := c.missesB + 1 }

/-- R83. -/
def Counters.addLateTwin (l : Lane) (c : Counters) : Counters :=
  match l with
  | .a => { c with lateTwinsA := c.lateTwinsA + 1 }
  | .b => { c with lateTwinsB := c.lateTwinsB + 1 }

/-- R83. The longest twin delay of a lane. -/
def Counters.longest (c : Counters) : Lane → Long
  | .a => c.longestA
  | .b => c.longestB

/-- R83, R92. -/
def Counters.setLongest (l : Lane) (x : Long) (c : Counters) : Counters :=
  match l with
  | .a => { c with longestA := x }
  | .b => { c with longestB := x }

/-- R83. An on-time twin's delay; a twin received before its first copy (a negative delay) raises nothing (log entry
13). -/
def Counters.noteDelay (l : Lane) (delay : Long) (c : Counters) : Counters :=
  if !delay.msb && decide ((c.longest l).toNat < delay.toNat) then c.setLongest l delay else c

/-- R78. The number of entries the watch list holds, and the greatest it has held. -/
def Counters.noteWatch (n : Nat) (c : Counters) : Counters :=
  { c with watchCount := BitVec.ofNat 16 n
           watchMost := if c.watchMost.toNat < n then BitVec.ofNat 16 n else c.watchMost }

/-! ## Edition-guarded updates (R8) -/

/-- One update of a lane status group: the edition word rises by 2 when a word changes (log entry 6). -/
def LaneGroup.update (f : LaneGroup → LaneGroup) (g : LaneGroup) : LaneGroup :=
  if f g = g then g else { f g with edition := g.edition + 2 }

/-- One update of the bay port status group, for one port. -/
def BayGroup.update (p : Fin 4) (f : BayBlock → BayBlock) (g : BayGroup) : BayGroup :=
  if f g.ports[p] = g.ports[p] then g else { edition := g.edition + 2, ports := modifyAt g.ports p f }

/-- One update of the counters group. -/
def Counters.update (f : Counters → Counters) (c : Counters) : Counters :=
  if f c = c then c else { f c with edition := c.edition + 2 }

/-! ## Lane evidence (chapter 5) -/

/-- R28, R80, R145. The lane carries traffic: PROVING, HEALTHY, SUSPECT or DEGRADED. -/
def LaneState.carries : LaneState → Bool
  | .proving | .healthy | .suspect | .degraded => true
  | .held | .down => false

/-- R93. HEALTHY, SUSPECT or DEGRADED. -/
def LaneState.judged : LaneState → Bool
  | .healthy | .suspect | .degraded => true
  | .held | .down | .proving => false

/-- R99. HEALTHY or SUSPECT. -/
def LaneState.serves : LaneState → Bool
  | .healthy | .suspect => true
  | .held | .down | .proving | .degraded => false

/-- R90. -/
def evaluation (lone quorum : Word) : LaneState :=
  if lone = 0 then .healthy else if lone.toNat < quorum.toNat then .suspect else .degraded

/-- R99. -/
def redundancyOf (a b : LaneState) : Redundancy :=
  match a.serves, b.serves with
  | true, true => .dual
  | false, false => .none
  | _, _ => .single

/-- R100. Where the bare route goes when lane `l` has entered `new`; `carrier` and `other` are the states of the lane
that carries the route and of the lane that is not `l`, after the change. -/
def rerouted (route preferred l : Lane) (new carrier other : LaneState) : Lane :=
  match new with
  | .held | .down => if route = l && other.carries then l.other else route
  | .proving => if carrier.carries then route else l
  | .healthy => if l = preferred then l else route
  | .suspect | .degraded => route

/-- R85. A lane record as it reads in the lane cycle `now`. -/
def LaneRecord.reads (now : Word) (r : LaneRecord) : Bool × Nat :=
  if r.cycle = now then (r.lone, r.run) else (false, 0)

/-- R88. A record credited, and whether that is a fall of the lone count. -/
def LaneRecord.credited (now : Word) (r : LaneRecord) : LaneRecord × Bool :=
  ({ lone := false, run := 0, cycle := now }, (r.reads now).1)

/-- R87. A record after one more miss, and whether that is a rise of the lone count. -/
def LaneRecord.missed (now threshold : Word) (r : LaneRecord) : LaneRecord × Bool :=
  let (lone, run) := r.reads now
  let run' := min 15 (run + 1)
  let lone' := lone || decide (threshold.toNat ≤ run')
  ({ lone := lone', run := run', cycle := now }, lone' && !lone)

/-- R86. A record after the engine has taken a lane notice. -/
def LaneRecord.noticed (now : Word) (r : LaneRecord) : LaneRecord :=
  if r.cycle = now || (!r.lone && r.run == 0) then r else { lone := false, run := 0, cycle := now }

/-! ## The journal's room and the INT line (chapter 11) -/

/-- R167. Entries written and not yet taken. -/
def Journal.outstanding (j : Journal) : Nat := (j.written - j.taken).toNat

/-- R168, R171, R172. One entry written for a claim, and what the INT line does. -/
def Journal.write (set : Settings) (now : Clock) (c : JournalClaim) (j : Journal) : Journal :=
  let n := j.written + 1
  let j' := { j with ring := j.ring.set (n.toNat % 128) (some { number := n, claim := c }) (Nat.mod_lt _ (by decide))
                     written := n }
  if set.intEnable then
    if set.intPulse then
      match j.pulseEnds with
      | none => { j' with int := true, pulseEnds := some (now + 2) }
      | some _ => j'
    else { j' with int := true }
  else j'

/-- R170. A claim that finds 128 entries outstanding. -/
def Journal.lose (now : Clock) (j : Journal) : Journal :=
  { j with lost := satInc j.lost, firstLoss := if j.lost = 0 then now else j.firstLoss, overflowPending := true }

/-- R170. The claim of the OVERFLOW entry. -/
def Journal.overflowClaim (now : Clock) (j : Journal) : JournalClaim :=
  { kind := .overflow, subject := .part, time := now, d1 := j.lost, d2 := high j.firstLoss, d3 := low j.firstLoss }

/-- R168, R170. A claim taken by the Journal Writer. -/
def Journal.take (set : Settings) (now : Clock) (c : JournalClaim) (j : Journal) : Journal :=
  if 128 ≤ j.outstanding then j.lose now
  else if j.overflowPending then
    let j' := { j.write set now (j.overflowClaim now) with lost := 0, firstLoss := 0, overflowPending := false }
    if 128 ≤ j'.outstanding then j'.lose now else j'.write set now c
  else j.write set now c

/-- R169, R171. A write of `t` to the journal taken word, as the writer takes it. -/
def Journal.giveBack (set : Settings) (t : Word) (j : Journal) : Journal :=
  if (j.written - t).toNat ≤ 128 then
    let j' := { j with taken := t }
    if set.intEnable && !set.intPulse then { j' with int := decide (0 < j'.outstanding) } else j'
  else j

/-- R6, R169. A write of `t` to the journal taken word handed to the writer: it is taken in the order of the writer's claims, at
once where none waits and otherwise behind those that wait (log entry 42). -/
def Journal.handWrite (set : Settings) (t : Word) (j : Journal) : Journal :=
  if j.claims.isEmpty then j.giveBack set t
  else { j with writes := j.writes ++ [{ value := t, behind := j.claims.length }] }

/-- R169. One waiting claim fewer stands before each waiting write. -/
def WaitingWrite.nearer (w : WaitingWrite) : WaitingWrite := { w with behind := w.behind - 1 }

/-- R169. The waiting writes that no claim stands before are taken, in the order in which they were written. -/
def Journal.takeWrites (set : Settings) (j : Journal) : Journal :=
  (j.writes.filter (·.behind == 0)).foldl (fun j w => j.giveBack set w.value)
    { j with writes := j.writes.filter (·.behind != 0) }

/-- R168, R169. The claim `c` at the head, before the claims `rest`, is taken; then the writes that have waited for it alone. -/
def Journal.takeHead (set : Settings) (now : Clock) (c : JournalClaim) (rest : List JournalClaim) (j : Journal) : Journal :=
  ({ j with claims := rest, writes := j.writes.map WaitingWrite.nearer }.take set now c).takeWrites set

/-- R171, R172. INT under new settings. -/
def Journal.follow (old new : Settings) (j : Journal) : Journal :=
  if new.intEnable then
    if new.intPulse then
      if old.intEnable && old.intPulse then j else { j with int := false, pulseEnds := none }
    else { j with int := decide (0 < j.outstanding), pulseEnds := none }
  else { j with int := false, pulseEnds := none }

end Sys2Proof.Machine
end

