-- ==== Sys2Proof/Machine/Operands.lean ====
section
/-! DEFINITION. The host-written fields the part reads: their ranges (R175), the first field out of range in ascending order,
and the values taken from them. -/

namespace Sys2Proof.Machine

/-! ## Checks -/

/-- The place of the first check that fails. -/
def firstBad : List (Nat × Bool) → Option Nat
  | [] => none
  | (a, ok) :: rest => if ok then firstBad rest else some a

/-- The value lies in `lo`..`hi`. -/
def within (lo hi : Nat) (w : Word) : Bool := decide (lo ≤ w.toNat) && decide (w.toNat ≤ hi)

/-- Section 1.9. 1, 2, 4, 8, 16, 32 or 64. -/
def isDivisor (w : Word) : Bool := [1, 2, 4, 8, 16, 32, 64].contains w.toNat

/-- Section 12.2. The lane a word names. -/
def laneOf (w : Word) : Option Lane :=
  if w = 0x000A then some .a else if w = 0x000B then some .b else none

/-- Section 12.2. A set code: bits 0 to 3 alone. -/
def isSet (w : Word) : Bool := within 0 15 w

def setOf (w : Word) : PortSet := w.setWidth 4

/-- Bay port `p` + 1 is in the set. -/
def inSet (set : PortSet) (p : Fin 4) : Bool := set.getLsbD p.val

/-! ## Global, contact and output settings (section 1.9, R155, R160) -/

/-- Section 12.2. The checks of the APPLY-able global settings. -/
def applyChecks (m : List Host.Cell) : List (Nat × Bool) :=
  let w := readWord m
  [(0x0049, within 1 200 (w 0x0049)), (0x004A, within 1 15 (w 0x004A)), (0x004B, within 1 64 (w 0x004B)),
   (0x004C, within 1 60 (w 0x004C)), (0x004D, within 0 255 (w 0x004D)), (0x004E, within 10 3600 (w 0x004E)),
   (0x004F, isSet (w 0x004F)), (0x0050, isDivisor (w 0x0050)), (0x0051, isDivisor (w 0x0051)),
   (0x0052, isDivisor (w 0x0052)), (0x0053, isDivisor (w 0x0053)), (0x0054, isSet (w 0x0054)),
   (0x0055, within 0 3 (w 0x0055)), (0x0056, within 0 1 (w 0x0056))]

/-- R155. -/
def contactChecks (m : List Host.Cell) (n : Fin 8) : List (Nat × Bool) :=
  let a := contactBase n
  [(a, within 1 100 (readWord m a)), (a + 1, within 2 60 (readWord m (a + 1))),
   (a + 2, within 1 300 (readWord m (a + 2))), (a + 3, within 0 1 (readWord m (a + 3)))]

/-- R160. -/
def outputChecks (m : List Host.Cell) (n : Fin 4) : List (Nat × Bool) :=
  let a := outputBase n
  [(a, within 0 1 (readWord m a)), (a + 1, within 0 1 (readWord m (a + 1))), (a + 2, within 10 5000 (readWord m (a + 2)))]

/-- R15, R16. Contact and output settings in ascending order. -/
def ioChecks (m : List Host.Cell) : List (Nat × Bool) :=
  (List.finRange 8).flatMap (contactChecks m) ++ (List.finRange 4).flatMap (outputChecks m)

/-- The 48-bit value of three words, most significant word first. -/
def readAddress (m : List Host.Cell) (a : Nat) : BitVec 48 := readWord m a ++ readWord m (a + 1) ++ readWord m (a + 2)

/-- Section 12.2. The checks of the START-only settings. -/
def startOnlyChecks (m : List Host.Cell) : List (Nat × Bool) :=
  let w := readWord m
  [(0x0043, within 0x0600 0xFFFF (w 0x0043)), (0x0044, readAddress m 0x0044 != 0),
   (0x0047, (laneOf (w 0x0047)).isSome), (0x0048, within 0 255 (w 0x0048))]

/-- R15. The address of the first setting word START finds out of range. -/
def badStart (m : List Host.Cell) : Option Nat := firstBad (startOnlyChecks m ++ applyChecks m ++ ioChecks m)

/-- R16. The address of the first setting word APPLY finds out of range. -/
def badApply (m : List Host.Cell) : Option Nat := firstBad (applyChecks m ++ ioChecks m)

/-- R16. The address of the first START-only word that differs from the value in force. -/
def startOnlyDiffers (m : List Host.Cell) (set : Settings) : Option Nat :=
  let w := readWord m
  firstBad
    [(0x0043, w 0x0043 == set.messageType), (0x0044, w 0x0044 == set.station.extractLsb' 32 16),
     (0x0045, w 0x0045 == set.station.extractLsb' 16 16), (0x0046, w 0x0046 == set.station.extractLsb' 0 16),
     (0x0047, w 0x0047 == laneWord set.bareLane), (0x0048, w 0x0048 == set.bayEpoch.setWidth 16)]

/-- R155. -/
def readContact (m : List Host.Cell) (n : Fin 8) : ContactSettings :=
  let a := contactBase n
  { filter := readWord m a, limit := readWord m (a + 1), block := readWord m (a + 2), journal := readWord m (a + 3) != 0 }

/-- R160. -/
def readOutput (m : List Host.Cell) (n : Fin 4) : OutputSettings :=
  let a := outputBase n
  { permitted := readWord m a != 0, latch := readWord m (a + 1) != 0, width := readWord m (a + 2) }

/-- Section 12.2. The settings the host words hold. -/
def readSettings (m : List Host.Cell) : Settings :=
  let w := readWord m
  { messageType := w 0x0043
    station := readAddress m 0x0044
    bareLane := (laneOf (w 0x0047)).getD .a
    bayEpoch := (w 0x0048).setWidth 8
    twinWait := w 0x0049
    loneThreshold := w 0x004A
    degradeQuorum := w 0x004B
    provingPeriod := w 0x004C
    freshMargin := w 0x004D
    ageingTime := w 0x004E
    defaultForward := setOf (w 0x004F)
    divTrip := w 0x0050
    divStatus := w 0x0051
    divSample := w 0x0052
    divService := w 0x0053
    passBare := setOf (w 0x0054)
    intEnable := (w 0x0055).getLsbD 0
    intPulse := (w 0x0055).getLsbD 1
    journalLearned := w 0x0056 != 0
    contacts := build 8 (readContact m)
    outputs := build 4 (readOutput m) }

/-- R79. The watch divisor in force for a class. -/
def Settings.divisor (set : Settings) : Cls → Word
  | .trip => set.divTrip
  | .status => set.divStatus
  | .sample => set.divSample
  | .service => set.divService

/-- R59. A forward set resolved. -/
def Settings.resolve (set : Settings) : ForwardSet → PortSet
  | .default => set.defaultForward
  | .explicit ports => ports

/-- R19. The host words a hardware reset writes, section 1.9, R155 and R160, into memory of zeros. -/
def defaultMem : List Host.Cell :=
  let global := writeWords [] 0x0043 [0x7A51, 0, 0, 0, 0x000A, 0, 50, 3, 4, 5, 2, 60, 0x000F, 1, 1, 16, 4, 0, 0, 0]
  let contacts := writeWords global 0x4700 ((List.range 8).flatMap (fun _ => [8, 20, 10, 0]))
  writeWords contacts 0x4720 ((List.range 4).flatMap (fun _ => [0, 0, 200, 0]))

/-! ## Subscription slots (R114, R116) -/

def notifyOf (w : Word) : NotifyMode := if w = 1 then .onChange else if w = 2 then .onEvery else .none

def acceptanceOf (w : Word) : TestAcceptance := if w = 0 then .normalOnly else if w = 1 then .testOnly else .both

/-- R114. The word offset of the first field out of range; the compare window is checked in ON-CHANGE alone. -/
def badSlot (m : List Host.Cell) (k : Fin 64) : Option Nat :=
  let w := fun i => readWord m (subBase k + i)
  let onChange := w 2 == 1
  firstBad
    [(0, within 1 4095 (w 0)), (1, within 0 2 (w 1)), (2, within 0 2 (w 2)),
     (3, !onChange || within 0 255 (w 3)),
     (4, !onChange || (within 1 256 (w 4) && decide ((w 3).toNat + (w 4).toNat ≤ 256))),
     (5, isSet (w 5) || w 5 == 0x8000), (6, within 1 60000 (w 6))]

/-- R114. The configuration as an arm reads it. -/
def readSlot (m : List Host.Cell) (k : Fin 64) : SlotRequest :=
  let w := fun i => readWord m (subBase k + i)
  { id := w 0
    config := { acceptance := acceptanceOf (w 1), notify := notifyOf (w 2), offset := w 3, length := w 4 }
    forward := if w 5 = 0x8000 then .default else .explicit (setOf (w 5))
    expected := w 6 }

/-! ## Publication slots (R127, R130) -/

/-- Section 12.4. Word 1: a class code, the TEST flag, the content mode, and no other bit. -/
def isPubMode (w : Word) : Bool := (w &&& 0xFEE8) == 0 && (classOf (w.toNat % 8)).isSome

/-- R130. The word offset of the first arm-time field out of range; the configured epoch is checked at every arm, also where R131
does not use it (the model's choice, log entry 36). -/
def badPub (m : List Host.Cell) (k : Fin 32) : Option Nat :=
  let w := fun i => readWord m (pubBase k + i)
  firstBad
    [(0, within 1 4095 (w 0)), (1, isPubMode (w 1)), (2, within 0 255 (w 2)), (3, within 1 1000 (w 3)),
     (4, within 10 60000 (w 4) && decide ((w 3).toNat ≤ (w 4).toNat)), (5, within 0 600 (w 5)), (6, isSet (w 6))]

/-- R127. The arm-time fields. -/
def readPub (m : List Host.Cell) (k : Fin 32) : PubConfig :=
  let w := fun i => readWord m (pubBase k + i)
  { id := w 0
    cls := (classOf ((w 1).toNat % 8)).getD .trip
    test := (w 1).getLsbD 4
    epoch := (w 2).setWidth 8
    first := w 3
    heartbeat := w 4
    refresh := w 5
    snapshot := (w 1).getLsbD 8
    forward := setOf (w 6)
    dest := readAddress m (pubBase k + 7) }

/-- R135. The content a HOST-CONTENT take copies. -/
def readStaged (m : List Host.Cell) (k : Fin 32) : List Byte :=
  readContent m (pubBase k + 13) (min 256 (readWord m (pubBase k + 10)).toNat)

/-! ## Link rules (R162, R163) -/

/-- R162. The word offset of the first field out of range. -/
def badRule (m : List Host.Cell) (k : Fin 16) : Option Nat :=
  let w := fun i => readWord m (ruleBase k + i)
  let source := (w 0).toNat
  let action := (w 8).toNat
  firstBad
    [(0, within 1 6 (w 0)),
     (1, match source with
       | 1 | 2 => within 1 8 (w 1)
       | 3 | 4 => within 1 4095 (w 1)
       | 5 => (laneOf (w 1)).isSome
       | _ => within 0 1 (w 1)),
     (2, match source with
       | 3 => within 0 252 (w 2)
       | 5 => within 0 5 (w 2)
       | _ => true),
     (7, within 0 1 (w 7)), (8, within 1 4 (w 8)),
     (9, match action with
       | 1 | 2 => within 1 4 (w 9)
       | 3 => within 0 31 (w 9)
       | _ => true),
     (10, within 0 1 (w 10))]

/-- R163. The source of a rule whose fields are in range. -/
def readSource (m : List Host.Cell) (k : Fin 16) : Source :=
  let w := fun i => readWord m (ruleBase k + i)
  match (w 0).toNat with
  | 1 => .contactOn (Fin.ofNat 8 ((w 1).toNat - 1))
  | 2 => .contactOff (Fin.ofNat 8 ((w 1).toNat - 1))
  | 3 => .streamMatch (w 1) (w 2).toNat (readContent m (ruleBase k + 3) 4) (readContent m (ruleBase k + 5) 4)
  | 4 => .streamStale (w 1)
  | 5 => .lane ((laneOf (w 1)).getD .a) ((laneStateOf (w 2).toNat).getD .held)
  | _ => .redundancy (if w 1 = 0 then .none else .single)

/-- R162. The action of a rule whose fields are in range. -/
def readAction (m : List Host.Cell) (k : Fin 16) : Action :=
  let w := fun i => readWord m (ruleBase k + i)
  match (w 8).toNat with
  | 1 => .driveOutput (Fin.ofNat 4 ((w 9).toNat - 1))
  | 2 => .releaseOutput (Fin.ofNat 4 ((w 9).toNat - 1))
  | 3 => .post (Fin.ofNat 32 (w 9).toNat)
  | _ => .journalOnly

/-- R162. The internal copy an arm takes. -/
def readRule (m : List Host.Cell) (k : Fin 16) : RuleCopy :=
  { source := readSource m k, edge := readWord m (ruleBase k + 7) == 1, action := readAction m k
    journal := readWord m (ruleBase k + 10) == 1 }

end Sys2Proof.Machine
end

