-- ==== Sys2Proof/Machine/Ops.lean ====
section
/-! DEFINITION. The named operations on the machine: claims to the Journal Writer, events offered to the rules, one update of each
edition-guarded group, counted events with their sentinel, and the access to one port, slot, entry, input or output. -/

namespace Sys2Proof.Machine

/-! ## Claims and events -/

/-- A claim handed to the Journal Writer (R168); it is taken by JOURNAL_CLAIM. -/
def claim (c : JournalClaim) (s : State) : State :=
  { s with journal := { s.journal with claims := s.journal.claims ++ [c] } }

/-- R163, R165. An event offered to the Link Rule Unit, which acts on none while the part is not RUNNING. -/
def offer (e : RuleEvent) (s : State) : State :=
  if s.partState = .running then { s with events := s.events ++ [e] } else s

/-- A claim handed by the engine to Twin Watch (R65, R70, R72). -/
def handTwin (c : TwinClaim) (s : State) : State := { s with twinClaims := s.twinClaims ++ [c] }

/-- A lone count rise or fall handed to the Lane Supervisor (R87, R88). -/
def handLone (c : LoneChange) (s : State) : State := { s with loneChanges := s.loneChanges ++ [c] }

/-! ## Lane ports -/

/-- The port of a lane. -/
def State.lane (s : State) : Lane → LanePort
  | .a => s.laneA
  | .b => s.laneB

/-- The port of a lane changed. -/
def State.modifyLane (l : Lane) (f : LanePort → LanePort) (s : State) : State :=
  match l with
  | .a => { s with laneA := f s.laneA }
  | .b => { s with laneB := f s.laneB }

/-- One update of a lane status group (R8). -/
def updateLane (l : Lane) (f : LaneGroup → LaneGroup) (s : State) : State :=
  s.modifyLane l (fun p => { p with group := p.group.update f })

/-- R37. The claim of a lane counter's sentinel, made after the group's update if the counter stood at 0. -/
def laneSentinel (l : Lane) (c : LaneCounter) (before : LaneGroup) (time : Clock) (s : State) : State :=
  if before.count c = 0 then
    claim { kind := .counterFirst, subject := .lane l, time := time, d1 := laneCounterCode c, d2 := 0, d3 := 0 } s
  else s

/-- R36, R37. An event counted at a lane port, with what else the same event changes in the group. -/
def countLane (l : Lane) (also : LaneGroup → LaneGroup) (c : LaneCounter) (time : Clock) (s : State) : State :=
  laneSentinel l c (s.lane l).group time (updateLane l (fun g => (also g).bump c) s)

/-! ## Bay ports -/

/-- One update of the bay port status group, for port `p` (R8). -/
def updateBay (p : Fin 4) (f : BayBlock → BayBlock) (s : State) : State :=
  { s with bayGroup := s.bayGroup.update p f }

/-- The queues of a bay port changed. -/
def State.modifyBay (p : Fin 4) (f : BayPort → BayPort) (s : State) : State := { s with bays := modifyAt s.bays p f }

/-- R37. The claim of a bay counter's sentinel. -/
def baySentinel (p : Fin 4) (c : BayCounter) (before : BayBlock) (time : Clock) (s : State) : State :=
  if before.count c = 0 then
    claim { kind := .counterFirst, subject := .bayPort p, time := time, d1 := bayCounterCode c, d2 := 0, d3 := 0 } s
  else s

/-- R36, R37. An event counted at a bay port, with what else the same event changes in the port's block. -/
def countBay (p : Fin 4) (also : BayBlock → BayBlock) (c : BayCounter) (time : Clock) (s : State) : State :=
  baySentinel p c s.bayGroup.ports[p] time (updateBay p (fun b => (also b).bump c) s)

/-! ## Counters group -/

/-- One update of the counters group (R8). -/
def updateCounters (f : Counters → Counters) (s : State) : State := { s with counters := s.counters.update f }

/-- R36, R37. A copy the engine discards or cannot place. -/
def countEngine (k : EngineCounter) (time : Clock) (s : State) : State :=
  let t := updateCounters (·.bump k) s
  if s.counters.count k = 0 then
    claim { kind := .counterFirst, subject := .part, time := time, d1 := engineCounterCode k, d2 := 0, d3 := 0 } t
  else t

/-! ## Contact status group -/

/-- One update of the contact status group (R8): the edition word rises by 2 when a word changes (log entry 6). -/
def updateContacts (f : State → State) (s : State) : State :=
  let t := f s
  if contactWords t = contactWords s then t else { t with contactEdition := s.contactEdition + 2 }

def State.modifyInput (n : Fin 8) (f : ContactInput → ContactInput) (s : State) : State :=
  { s with inputs := modifyAt s.inputs n f }

def State.modifyOutput (n : Fin 4) (f : TripOutput → TripOutput) (s : State) : State :=
  { s with outputs := modifyAt s.outputs n f }

/-! ## Slots and rules -/

def State.modifySub (k : Fin 64) (f : SubSlot → SubSlot) (s : State) : State := { s with subs := modifyAt s.subs k f }

/-- One update of a subscription slot's group (R8). -/
def updateSlot (k : Fin 64) (f : SlotStatus → SlotStatus) (s : State) : State :=
  s.modifySub k (fun t => { t with status := { f t.status with edition := t.status.edition + 2 } })

/-- One update of a publication slot's status (R128): both counts rise by 1. -/
def updatePub (k : Fin 32) (f : PubSlot → PubSlot) (s : State) : State :=
  { s with pubs := modifyAt s.pubs k (fun p => { f p with count := p.count + 1 }) }

def State.modifyRule (k : Fin 16) (f : LinkRule → LinkRule) (s : State) : State := { s with rules := modifyAt s.rules k f }

/-! ## Stream table -/

/-- R42. The position of the entry for a stream. -/
def State.findEntry (s : State) (id : Word) : Option (Fin 512) :=
  findAt? (fun e => match e with | some e => e.id == id | none => false) s.table

/-- R58. The position of the entry with an identifier and serial. -/
def State.findNamed (s : State) (id serial : Word) : Option (Fin 512) :=
  findAt? (fun e => match e with | some e => e.id == id && e.serial == serial | none => false) s.table

/-- R42. The lowest free position. -/
def State.freePosition (s : State) : Option (Fin 512) := findAt? (fun e => e.isNone) s.table

/-- The position of the entry a subscription slot holds. -/
def State.slotEntry (s : State) (k : Fin 64) : Option (Fin 512) :=
  findAt? (fun e => match e with | some e => e.slot == some k | none => false) s.table

/-- A position given its entry, or freed. -/
def State.putEntry (p : Fin 512) (e : Option Entry) (s : State) : State := { s with table := s.table.set p.val e p.isLt }

/-- R43. How many updates of its record a claim makes that turns what a position holds from `before` to `after`, a removal of
`before` apart. -/
def imageUpdates (before after : Option Entry) : Word :=
  match before, after with
  | none, none => 0
  | none, some _ => 1
  | some _, none => 1
  | some e, some e' => if entryWords e = entryWords e' then 0 else 1

/-- R43. The entries of `s` that stand over a claim that has raised the record counts to `counts`: only a removal raises one. -/
def State.standing (s : State) (counts : Vector Word 512) : Vector (Option Entry) 512 :=
  zipAll (fun removed e => if removed then none else e) (zipAll (· != ·) s.imageCounts counts) s.table

/-- R43. A claim the engine takes: what `f` changes in the table is brought into the record images. A removal is an update of its
own (removeEntry), and an entry made in its place another. -/
def asEngineClaim (f : State → State) (s : State) : State :=
  let t := f s
  { t with imageCounts := zipAll (· + ·) t.imageCounts (zipAll imageUpdates (s.standing t.imageCounts) t.table) }

/-- The record of a lane that an entry holds. -/
def Entry.record (e : Entry) : Lane → LaneRecord
  | .a => e.recordA
  | .b => e.recordB

def Entry.setRecord (l : Lane) (r : LaneRecord) (e : Entry) : Entry :=
  match l with
  | .a => { e with recordA := r }
  | .b => { e with recordB := r }

/-- R112. What a slot shows of its entry at this moment. -/
def State.viewOf (s : State) (e : Entry) : EntryView :=
  if e.origin = .remote then
    let a := e.recordA.reads s.laneA.cycle
    let b := e.recordB.reads s.laneB.cycle
    { fresh := e.fresh, loneA := a.1, runA := a.2, loneB := b.1, runB := b.2 }
  else { fresh := e.fresh, loneA := false, runA := 0, loneB := false, runB := 0 }

/-- R134. The slot is armed. -/
def PubState.armed : PubState → Bool
  | .armedIdle | .burst | .steady | .expired => true
  | .disarmed | .refused => false

end Sys2Proof.Machine
end

