-- ==== Sys2Proof/Machine/Transmit.lean ====
section
/-! DEFINITION. The transmit queues (chapter 9): placing a record, beginning to send, and the ends of transmissions. -/

namespace Sys2Proof.Machine

/-! ## Lane ports -/

/-- R146. The next record a lane port sends, and the port without it. -/
def LanePort.next (p : LanePort) : Option (TxRecord × LanePort) :=
  match p.urgent, p.normal with
  | r :: rest, _ => some (r, { p with urgent := rest })
  | [], r :: rest => some (r, { p with normal := rest })
  | [], [] => none

/-- R146. The port begins to send if it can. -/
def LanePort.begin (l : Lane) (p : LanePort) : LanePort :=
  if p.wire.isNone && p.group.state.carries && p.group.link then
    match p.next with
    | some (r, p') => { p' with wire := some { record := r, bytes := laneBytes l r } }
    | none => p
  else p

/-- R145. The queue a record joins, or none when it is dropped. -/
def LanePort.enqueue (r : TxRecord) (p : LanePort) : Option LanePort :=
  if r.stream && r.trip && decide (p.urgent.length < Config.urgentRoom) then some { p with urgent := p.urgent ++ [r] }
  else if p.normal.length < Config.normalRoom then some { p with normal := p.normal ++ [r] }
  else none

/-- R145, R146. A record offered to a lane port. -/
def offerLane (l : Lane) (r : TxRecord) (s : State) : State :=
  if !(s.lane l).group.state.carries then updateLane l (fun g => { g with notSent := g.notSent + 1 }) s
  else
    match (s.lane l).enqueue r with
    | some p => s.modifyLane l (fun _ => p.begin l)
    | none => countLane l id .drops s.clock s

/-- R146. A lane port's transmission ends. -/
def laneSent (l : Lane) (s : State) : State :=
  match (s.lane l).wire with
  | none => s
  | some _ =>
    (updateLane l (fun g => { g with sent := g.sent + 1 }) s).modifyLane l
      (fun p => LanePort.begin l { p with wire := none })

/-- LANE_TRANSMIT_END (R146, R148). -/
def execLaneTransmitEnd (l : Lane) (s : State) : Host.Outcome State Fault Refusal := .next (laneSent l s)

/-! ## Bay ports -/

/-- R151. The port begins to send if its link is up. -/
def BayPort.begin (link : Bool) (p : BayPort) : BayPort :=
  if p.wire.isNone && link then
    match p.queue with
    | r :: rest => { p with queue := rest, wire := some { record := r, bytes := bayBytes r } }
    | [] => p
  else p

/-- R149. A record placed by class. -/
def placeBay (r : TxRecord) (q : List TxRecord) : List TxRecord :=
  if r.trip then q.takeWhile (·.trip) ++ [r] ++ q.dropWhile (·.trip) else q ++ [r]

/-- R149, R150. The queue after an offer, and whether a record is dropped. -/
def BayPort.enqueue (r : TxRecord) (q : List TxRecord) : List TxRecord × Bool :=
  if q.length < Config.bayRoom then (placeBay r q, false)
  else if r.trip && q.any (fun x => !x.trip) then (placeBay r q.dropLast, true)
  else (q, true)

/-- R149 to R151. A record offered to a bay port. -/
def offerBay (p : Fin 4) (r : TxRecord) (s : State) : State :=
  let link := s.bayGroup.ports[p].link
  if s.partState ≠ .running then s
  else if !link then updateBay p (fun b => { b with notSent := b.notSent + 1 }) s
  else
    let (q, dropped) := BayPort.enqueue r s.bays[p].queue
    let t := s.modifyBay p (fun b => BayPort.begin link { b with queue := q })
    if dropped then countBay p id .drops s.clock t else t

/-- A record offered to each bay port of a set, in port order. -/
def offerBays (set : PortSet) (r : TxRecord) (s : State) : State :=
  (List.finRange 4).foldl (fun s p => if inSet set p then offerBay p r s else s) s

/-- R151. A bay port's transmission ends. -/
def baySent (p : Fin 4) (s : State) : State :=
  match s.bays[p].wire with
  | none => s
  | some _ =>
    (updateBay p (fun b => { b with sent := b.sent + 1 }) s).modifyBay p
      (fun b => BayPort.begin s.bayGroup.ports[p].link { b with wire := none })

/-- BAY_TRANSMIT_END (R151). -/
def execBayTransmitEnd (p : Fin 4) (s : State) : Host.Outcome State Fault Refusal := .next (baySent p s)

end Sys2Proof.Machine
end

