-- ==== Sys2Proof/Machine/Arrival.lean ====
section
/-! DEFINITION. Reception and classification at the lane ports (section 2.4) and the bay ports (section 2.5). -/

namespace Sys2Proof.Machine

/-! ## Lane ports -/

/-- R152. A bare frame as a transmit record. -/
def bareRecord (body : List Byte) : TxRecord := { frame := body, stream := false, trip := false, seq := none }

/-- R30. A BARE frame at lane port `l`. -/
def bareFromLane (l : Lane) (body : List Byte) (s : State) : State :=
  if s.bareRoute = l && s.settings.passBare != 0 then
    offerBays s.settings.passBare (bareRecord body) (updateLane l LaneGroup.arrived s)
  else countLane l LaneGroup.arrived .bareDiscards s.clock s

/-- R31. The arrival record of a STREAM frame at lane port `l`. -/
def laneRecord (l : Lane) (body : List Byte) (h : Header) (time : Clock) : Arrival :=
  { frame := stripTrailer body, port := .lane l, seq := some (trailerSeq body), time := time, header := h }

/-- R31, R35. A STREAM frame at lane port `l` joins the arrival queue, or is an overrun. -/
def joinLane (l : Lane) (a : Arrival) (s : State) : State :=
  if (s.lane l).arrivals.length < Config.arrivalRoom then
    (updateLane l LaneGroup.arrived s).modifyLane l (fun p => { p with arrivals := p.arrivals ++ [a] })
  else countLane l LaneGroup.arrived .overruns s.clock s

/-- R29. The checks on a frame at lane port `l`, in order. -/
def classifyLane (l : Lane) (f : List Byte) (s : State) : State :=
  let body := withoutFcs f
  let discard := fun c => countLane l LaneGroup.arrived c s.clock s
  if !frameGood f then discard .frameErrors
  else if !hasTrailer body then bareFromLane l body s
  else if !trailerPasses body then discard .damaged
  else if trailerLane body != laneCode l then discard .crossLane
  else if typeWord body != s.settings.messageType then discard .foreignTag
  else
    match readHeader (stripTrailer body) with
    | none => discard .damaged
    | some h => joinLane l (laneRecord l body h s.clock) s

/-- R12, R26, R28. A frame completes reception at lane port `l`. A port whose link is DOWN completes none (R27). -/
def receiveLane (l : Lane) (f : List Byte) (s : State) : State :=
  let g := (s.lane l).group
  if s.partState = .initialising || !g.link then s
  else if s.partState ≠ .running || g.state = .held then countLane l LaneGroup.arrived .heldDiscards s.clock s
  else if !g.state.carries then s
  else classifyLane l f s

/-- LANE_FRAME_RECEIVED (R26 to R31). -/
def execLaneFrameReceived (l : Lane) (f : List Byte) (s : State) : Host.Outcome State Fault Refusal :=
  .next (receiveLane l f s)

/-! ## Bay ports -/

/-- R33. A BARE frame at bay port `p`. -/
def bareFromBay (p : Fin 4) (body : List Byte) (s : State) : State :=
  if inSet s.settings.passBare p then offerLane s.bareRoute (bareRecord body) (updateBay p BayBlock.arrived s)
  else countBay p BayBlock.arrived .bareDiscards s.clock s

/-- R34. The arrival record of a STREAM frame at bay port `p`. -/
def bayRecord (p : Fin 4) (body : List Byte) (h : Header) (time : Clock) : Arrival :=
  { frame := body, port := .bay p, seq := none, time := time, header := h }

/-- R34, R35. A STREAM frame at bay port `p` joins the arrival queue, or is an overrun. -/
def joinBay (p : Fin 4) (a : Arrival) (s : State) : State :=
  if s.bays[p].arrivals.length < Config.arrivalRoom then
    (updateBay p BayBlock.arrived s).modifyBay p (fun b => { b with arrivals := b.arrivals ++ [a] })
  else countBay p BayBlock.arrived .overruns s.clock s

/-- R32. The checks on a frame at bay port `p`, in order; R21 bounds the whole frame to 1,514 bytes. -/
def classifyBay (p : Fin 4) (f : List Byte) (s : State) : State :=
  let body := withoutFcs f
  let discard := fun c => countBay p BayBlock.arrived c s.clock s
  if !frameGood f then discard .frameErrors
  else if hasTrailer body then discard .trailerOnBay
  else if typeWord body != s.settings.messageType then bareFromBay p body s
  else
    match readHeader body with
    | none => discard .damaged
    | some h => if f.length ≤ 1514 then joinBay p (bayRecord p body h s.clock) s else discard .damaged

/-- R12, R32. A frame completes reception at bay port `p`; outside RUNNING it is discarded uncounted. -/
def receiveBay (p : Fin 4) (f : List Byte) (s : State) : State :=
  if s.partState ≠ .running || !s.bayGroup.ports[p].link then s else classifyBay p f s

/-- BAY_FRAME_RECEIVED (R26, R32 to R34). -/
def execBayFrameReceived (p : Fin 4) (f : List Byte) (s : State) : Host.Outcome State Fault Refusal :=
  .next (receiveBay p f s)

end Sys2Proof.Machine
end

