-- ==== Sys2Proof/Machine/Contacts.lean ====
section
/-! DEFINITION. The Contact and Output Unit (sections 10.1 and 10.2). -/

namespace Sys2Proof.Machine

/-! ## Trip outputs (R160, R161) -/

/-- R160. The OUTPUT-CHANGE claim of a change to `driven`. -/
def outputClaim (n : Fin 4) (driven : Bool) (cause : OutputCause) (s : State) : State :=
  claim { kind := .outputChange, subject := .output n, time := s.clock, d1 := bit (!driven), d2 := bit driven
          d3 := outputCauseCode cause } s

/-- R160. A DRIVE of a permitted output: driven, or its pulse restarted. -/
def TripOutput.drive (set : OutputSettings) (now : Clock) (o : TripOutput) : TripOutput :=
  { driven := true, pulseEnds := if set.latch then o.pulseEnds else some (now + millis set.width) }

/-- R160, R161. A DRIVE claim on an output that is permitted; one that comes while the part is not RUNNING is not acted on. -/
def driveOutput (n : Fin 4) (cause : OutputCause) (s : State) : State :=
  if s.partState = .running then
    let t := updateContacts (·.modifyOutput n (TripOutput.drive s.settings.outputs[n] s.clock)) s
    if s.outputs[n].driven then t else outputClaim n true cause t
  else s

/-- R160. An output released, its timer cancelled. -/
def TripOutput.released (_ : TripOutput) : TripOutput := { driven := false, pulseEnds := none }

/-- R160. A RELEASE claim. -/
def releaseOutput (n : Fin 4) (cause : OutputCause) (s : State) : State :=
  if s.outputs[n].driven then outputClaim n false cause (updateContacts (·.modifyOutput n TripOutput.released) s) else s

/-- R160. The pulse timer of output `n` expires. -/
def pulseExpired (n : Fin 4) (s : State) : State :=
  match s.outputs[n].pulseEnds with
  | some t => if reached s.clock t then releaseOutput n .pulseExpiry s else s
  | none => s

/-- PULSE_EXPIRY (R160). -/
def execPulseExpiry (n : Fin 4) (s : State) : Host.Outcome State Fault Refusal := .next (pulseExpired n s)

/-- R161. An output under new settings. -/
def TripOutput.follow (old new : OutputSettings) (now : Clock) (o : TripOutput) : TripOutput :=
  if !o.driven then o
  else if !new.permitted then o.released
  else if new.latch then { o with pulseEnds := none }
  else if old.latch then { o with pulseEnds := some (now + millis new.width) }
  else o

/-- R161. The settings come into force and every output follows them: one update of the contact status group, then an
OUTPUT-CHANGE for each output released, in ascending output number (the model's choice, log entry 33). -/
def takeSettings (new : Settings) (s : State) : State :=
  let follow (s : State) : State :=
    { s with settings := new
             outputs := build 4 (fun n => s.outputs[n].follow s.settings.outputs[n] new.outputs[n] s.clock) }
  (List.finRange 4).foldl
    (fun t n => if s.outputs[n].driven && !t.outputs[n].driven then outputClaim n false .apply t else t)
    (updateContacts follow s)

/-! ## Contact inputs (R155 to R159) -/

/-- R157. An input begins, or begins again, to settle toward `level`. -/
def ContactInput.settle (level : Bool) (filter : Word) (now : Clock) (i : ContactInput) : ContactInput :=
  { i with settling := some level, rawSince := now, filterEnds := some (now + halfMillis filter) }

/-- R155, R157. Step 3 of START: every input enters SETTLING toward its present raw level. -/
def beginFiltering (s : State) : State :=
  updateContacts (fun s =>
    { s with filtering := true
             inputs := build 8 (fun n =>
               s.inputs[n].settle s.pins.raw[n] s.settings.contacts[n].filter s.clock) }) s

/-- R156 to R159. An input takes a change of its raw level to `level`, in RUNNING and, once filtering has begun, in CONFIG (log
entry 38). -/
def ContactInput.rawChanged (level : Bool) (filter : Word) (now : Clock) (i : ContactInput) : ContactInput :=
  if i.blocked then { i with rawSince := now }
  else
    match i.accepted with
    | none => i.settle level filter now
    | some accepted =>
      if level = accepted then { i with settling := none, filterEnds := none, rawSince := now }
      else i.settle level filter now

/-- R155. The raw level of input `n` changes; it is taken once filtering has begun. -/
def rawChange (n : Fin 8) (s : State) : State :=
  let level := !s.pins.raw[n]
  let t := { s with pins := { s.pins with raw := s.pins.raw.set n.val level n.isLt } }
  if s.filtering then
    updateContacts (·.modifyInput n (ContactInput.rawChanged level s.settings.contacts[n].filter s.clock)) t
  else t

/-- RAW_CHANGE (R155 to R159). -/
def execRawChange (n : Fin 8) (s : State) : Host.Outcome State Fault Refusal := .next (rawChange n s)

/-- R156, R159. What follows an accepted change: CONTACT-CHANGE if the flag is on, and the offer to the rules. -/
def announceChange (n : Fin 8) (left : Option Bool) (level : Bool) (time : Clock) (s : State) : State :=
  let t :=
    if s.settings.contacts[n].journal then
      claim { kind := .contactChange, subject := .contact n, time := time, d1 := levelCode left
              d2 := levelCode (some level), d3 := 0 } s
    else s
  offer (.contact n level time) t

/-- R157. The first settle of input `n`. -/
def firstSettle (n : Fin 8) (level : Bool) (s : State) : State :=
  claim { kind := .contactInitial, subject := .contact n, time := s.clock, d1 := levelCode (some level), d2 := 0, d3 := 0 }
    (updateContacts (·.modifyInput n (fun i =>
      { i with accepted := some level, settling := none, filterEnds := none, lastChange := i.rawSince })) s)

/-- R158. The window start and change count after a change accepted at `time`. The window's age is taken modulo 2^32 us: a window
that has stayed open over a whole wrap of the clock is judged by the remainder (the model's choice, log entry 39). -/
def ContactInput.counted (time : Clock) (i : ContactInput) : Clock × Nat :=
  match i.windowStart with
  | none => (time, 1)
  | some start => if 1000000 ≤ (time - start).toNat then (time, 1) else (start, i.changes + 1)

/-- R158. Input `n` is blocked by the change that makes the count `count`. -/
def blockInput (n : Fin 8) (start : Clock) (count : Nat) (s : State) : State :=
  claim { kind := .contactBlocked, subject := .contact n, time := s.clock, d1 := levelCode s.inputs[n].accepted
          d2 := BitVec.ofNat 16 count, d3 := 0 }
    (updateContacts (·.modifyInput n (fun i =>
      { i with blocked := true, waiting := false, settling := none, filterEnds := none, changes := count
               windowStart := some start, blockCount := s.settings.contacts[n].block.toNat })) s)

/-- R156. Input `n` accepts a change to `level`. -/
def acceptChange (n : Fin 8) (level : Bool) (start : Clock) (count : Nat) (s : State) : State :=
  let i := s.inputs[n]
  announceChange n i.accepted level i.rawSince
    (updateContacts (·.modifyInput n (fun i =>
      { i with accepted := some level, settling := none, filterEnds := none, lastChange := i.rawSince, changes := count
               windowStart := some start })) s)

/-- R156 to R158. The filter timer of input `n` expires; the expiry time is the timer's. An input with a known level is judged in
the same way while START, past its step 3, is still WORKING in CONFIG (the model's choice, log entry 38). -/
def filterExpired (n : Fin 8) (s : State) : State :=
  let i := s.inputs[n]
  match i.filterEnds, i.settling with
  | some t, some level =>
    if reached s.clock t then
      match i.accepted with
      | none => firstSettle n level s
      | some _ =>
        let (start, count) := i.counted t
        if s.settings.contacts[n].limit.toNat < count then blockInput n start count s
        else acceptChange n level start count s
    else s
  | _, _ => s

/-- FILTER_TIMER_EXPIRY (R156 to R158). -/
def execFilterTimerExpiry (n : Fin 8) (s : State) : Host.Outcome State Fault Refusal := .next (filterExpired n s)

/-- R158. A seconds tick's work on the inputs: the block count of every BLOCKED input falls by 1. -/
def countBlocks (s : State) : State :=
  { s with inputs := mapAll (fun (i : ContactInput) => if i.blocked then { i with blockCount := i.blockCount - 1 } else i)
             s.inputs }

/-- R159. The raw level of input `n` has held for one filter time. -/
def rawStable (n : Fin 8) (s : State) : Bool :=
  decide ((halfMillis s.settings.contacts[n].filter).toNat ≤ (s.clock - s.inputs[n].rawSince).toNat)

/-- R159. Input `n` unblocks. -/
def unblockInput (n : Fin 8) (s : State) : State :=
  let i := s.inputs[n]
  let level := s.pins.raw[n]
  let moved := i.accepted ≠ some level
  let t := updateContacts (·.modifyInput n (fun i =>
    { i with blocked := false, waiting := false, changes := 0, windowStart := none, accepted := some level
             lastChange := if moved then i.rawSince else i.lastChange })) s
  let u := claim { kind := .contactUnblocked, subject := .contact n, time := s.clock, d1 := levelCode i.accepted
                   d2 := levelCode (some level), d3 := 0 } t
  if moved then announceChange n i.accepted level i.rawSince u else u

/-- R159. The block count of input `n` has reached 0: it unblocks at once, or waits for its raw level to be stable. -/
def blockRunOut (n : Fin 8) (s : State) : State :=
  let i := s.inputs[n]
  if i.blocked && i.blockCount == 0 && !i.waiting then
    if rawStable n s then unblockInput n s else s.modifyInput n (fun i => { i with waiting := true })
  else s

/-- BLOCK_COUNT_EXPIRY (R159). -/
def execBlockCountExpiry (n : Fin 8) (s : State) : Host.Outcome State Fault Refusal := .next (blockRunOut n s)

/-- R159. A waiting input whose raw level is stable unblocks. -/
def unblockWaiting (n : Fin 8) (s : State) : State :=
  if s.inputs[n].blocked && s.inputs[n].waiting && rawStable n s then unblockInput n s else s

/-- UNBLOCK (R159). -/
def execUnblock (n : Fin 8) (s : State) : Host.Outcome State Fault Refusal := .next (unblockWaiting n s)

end Sys2Proof.Machine
end

