-- ==== Sys2Proof/Machine/Delivery.lean ====
section
/-! DEFINITION. Delivery (chapter 7): copies handed to a slot, the delivery in progress and the one waiting, the mismatch flag,
and the updates that wait for a delivery's completion. -/

namespace Sys2Proof.Machine

/-! ## What a slot shows -/

/-- R112. What slot `k` shows of the entry it holds; what it last showed, when it holds none. -/
def slotView (k : Fin 64) (s : State) : EntryView :=
  match s.slotEntry k with
  | some p => match s.table[p] with
    | some e => s.viewOf e
    | none => s.subs[k].status.view
  | none => s.subs[k].status.view

/-- R122. The mismatch flag that the slot will show when the updates in hand are made. -/
def SubSlot.flagToCome (t : SubSlot) : Bool :=
  if t.outcomes.any (fun o => match o with | .armed _ _ => true | _ => false) then false
  else match t.inProgress with
    | some d => d.mismatch
    | none => t.status.mismatch

/-- R122. The TEST-MISMATCH claim of an update that has written the flag `flag`. -/
def flagClaim (k : Fin 64) (marked : Option MarkedBy) (flag : Bool) (s : State) : State :=
  match marked with
  | some m => claim { kind := .testMismatch, subject := .subscription k, time := m.time, d1 := m.id, d2 := bit flag
                      d3 := m.seq } s
  | none => s

/-- R112. The engine's update of a slot's freshness and lane records; an entering of STALE raises the stale count in it. -/
def writeView (k : Fin 64) (d : DueView) (s : State) : State :=
  updateSlot k (fun st => { st with view := d.view, stale := if d.stale then satInc st.stale else st.stale }) s

/-- R112, R121. What a claim of the engine has changed of slot `k`'s entry is shown in an update of its own: at once, or after
the delivery in progress. -/
def engineView (k : Fin 64) (stale : Bool) (s : State) : State :=
  let d : DueView := { view := slotView k s, stale := stale }
  if !stale && d.view = s.subs[k].told then s
  else
    let t := s.modifySub k (fun t => { t with told := d.view })
    if s.subs[k].inProgress.isSome then t.modifySub k (fun t => { t with viewsDue := t.viewsDue ++ [d] })
    else writeView k d t

/-! ## Deliveries -/

/-- R123. At least one byte of the compare window is present in one content and not the other, or differs. -/
def windowDiffers (offset length : Word) (old new : List Byte) : Bool :=
  (new.drop offset.toNat).take length.toNat != (old.drop offset.toNat).take length.toNat

/-- R123. The copy differs from the previous content; a slot that holds none differs. -/
def SubSlot.differs (t : SubSlot) (content : List Byte) : Bool :=
  match t.config, t.previous with
  | some c, some old => windowDiffers c.offset c.length old content
  | _, _ => true

/-- R119, R121, R122. A delivery begins: the edition word becomes odd, and what is settled at the start is kept, the copy that
last changed the marker with it (the model's choice, log entry 31). -/
def beginDelivery (k : Fin 64) (c : Copy) (s : State) : State :=
  let v := slotView k s
  s.modifySub k (fun t =>
    { t with status := { t.status with edition := t.status.edition + 1 }
             waiting := none
             inProgress := some
               { copy := c, view := v, mismatch := t.marker, markedBy := t.markedBy
                 notify := (t.config.map (·.notify)).getD .none
                 differs := t.differs (c.content.take Config.contentRoom) } })

/-- R119, R120, R125. What a delivery writes, its second raise of the edition word included, with the superseded and stale
rises that have fallen meanwhile. -/
def SlotStatus.delivered (d : InProgress) (superseded stale : Nat) (st : SlotStatus) : SlotStatus :=
  { st with edition := st.edition + 1
            view := d.view
            mismatch := d.mismatch
            truncated := decide (Config.contentRoom < d.copy.length.toNat)
            seq := d.copy.seq
            epoch := d.copy.epoch
            port := some d.copy.port
            time := d.copy.time
            cls := some d.copy.cls
            test := d.copy.test
            hold := d.copy.hold
            repeatNo := d.copy.repeatNo
            length := d.copy.length
            deliveries := st.deliveries + 1
            superseded := satAdd st.superseded superseded
            stale := satAdd st.stale stale
            content := d.copy.content.take Config.contentRoom }

/-- R123, R124. The notify entry a completed delivery calls for. -/
def notifyClaim (k : Fin 64) (d : InProgress) (edition : Word) (s : State) : State :=
  let entry := fun kind => claim { kind := kind, subject := .subscription k, time := d.copy.time, d1 := d.copy.id
                                   d2 := d.copy.seq, d3 := edition } s
  match d.notify with
  | .none => s
  | .onChange => if d.differs then entry .deliveryChanged else s
  | .onEvery => entry .delivery

/-! ## Arm outcomes and detaches as they reach Delivery -/

/-- R117. The status an arm writes afresh. -/
def SlotStatus.armed (v : EntryView) (st : SlotStatus) : SlotStatus :=
  { slotStatusAtReset with edition := st.edition, state := .armed, view := v }

/-- R115 to R118. An outcome written in one update of the slot's group, and its claim. -/
def applyOutcome (k : Fin 64) (o : SlotOutcome) (s : State) : State :=
  match o with
  | .disarmed => updateSlot k (fun st => { st with state := .disarmed, reason := .none }) s
  | .refused reason c => claim c (updateSlot k (fun st => { st with state := .refused, reason := reason }) s)
  | .armed v marked =>
    let t := (updateSlot k (SlotStatus.armed v) s).modifySub k (fun t => { t with previous := none })
    if s.subs[k].status.mismatch then flagClaim k marked false t else t

/-- R117, R118. An outcome reaches Delivery: written at once, or after the delivery in progress. -/
def giveOutcome (k : Fin 64) (o : SlotOutcome) (s : State) : State :=
  if s.subs[k].inProgress.isSome then s.modifySub k (fun t => { t with outcomes := t.outcomes ++ [o] })
  else applyOutcome k o s

/-- R118. The engine's detach reaches Delivery: no further copy, the waiting delivery dropped, a mismatch not yet shown
forgotten. The freshness and lane records that still wait for the delivery in progress are not shown any more (R112); the
enterings of STALE among them count in that delivery's update (R125, log entry 30). -/
def detachDelivery (k : Fin 64) (s : State) : State :=
  s.modifySub k (fun t =>
    { t with config := none
             waiting := none
             marker := t.flagToCome
             markedBy := match t.inProgress with | some d => d.markedBy | none => t.markedBy
             staleDue := t.staleDue + (t.viewsDue.filter (·.stale)).length
             viewsDue := [] })

/-- R117. The engine's arm reaches Delivery, which keeps its copy of the configuration. -/
def armDelivery (k : Fin 64) (c : SlotConfig) (s : State) : State :=
  let marked := s.subs[k].markedBy
  let v := slotView k s
  let t := s.modifySub k (fun t => { t with state := .armed, config := some c, marker := false, markedBy := none, told := v })
  giveOutcome k (.armed v marked) t

/-- R115. The engine's disarm reaches Delivery. -/
def disarmDelivery (k : Fin 64) (s : State) : State :=
  giveOutcome k .disarmed (s.modifySub k (fun t => { t with state := .disarmed }))

/-- R116. A refusal reaches Delivery, with the ARM-REFUSED entry it claims. -/
def refuseDelivery (k : Fin 64) (reason : Reason) (id detail : Word) (s : State) : State :=
  giveOutcome k
    (.refused reason
      { kind := .armRefused, subject := .subscription k, time := s.clock, d1 := reasonCode reason, d2 := id, d3 := detail })
    (s.modifySub k (fun t => { t with state := .refused }))

/-! ## Copies handed to a slot -/

/-- R122. -/
def TestAcceptance.accepts (a : TestAcceptance) (test : Bool) : Bool :=
  match a with
  | .normalOnly => !test
  | .testOnly => test
  | .both => true

/-- R122. The marker after a copy, and the copy that last changed it. -/
def SubSlot.marked (c : Copy) (set : Bool) (t : SubSlot) : SubSlot :=
  { t with marker := set
           markedBy := if t.marker = set then t.markedBy else some { id := c.id, seq := c.seq, time := c.time } }

/-- R121. An accepted copy placed. -/
def placeCopy (k : Fin 64) (c : Copy) (s : State) : State :=
  match s.subs[k].inProgress, s.subs[k].waiting with
  | none, _ => beginDelivery k c s
  | some _, none => s.modifySub k (fun t => { t with waiting := some c })
  | some _, some _ => s.modifySub k (fun t => { t with waiting := some c, supersededDue := t.supersededDue + 1 })

/-- R122. The visible flag brought into line with the marker in an update of its own. -/
def showFlag (k : Fin 64) (s : State) : State :=
  let t := s.subs[k]
  if t.marker = t.status.mismatch then s
  else flagClaim k t.markedBy t.marker (updateSlot k (fun st => { st with mismatch := t.marker }) s)

/-- R112, R121, R122. A copy handed to Delivery for slot `k`. The delivery of one that is accepted shows what it changed of the
entry; of one that is not, the engine's own update does. -/
def handCopy (k : Fin 64) (c : Copy) (s : State) : State :=
  match s.subs[k].config with
  | none => s
  | some cfg =>
    if cfg.acceptance.accepts c.test then
      let v := slotView k s
      placeCopy k c (s.modifySub k (fun t => { t.marked c false with told := v }))
    else
      let t := (engineView k false s).modifySub k (SubSlot.marked c true)
      if t.subs[k].inProgress.isSome then t else showFlag k t

/-! ## Completion -/

/-- R121. The updates `dues` of the engine and the waiting delivery of `c`: before each update a free choice says whether it or
the delivery is first (log entry 2). The updates that then wait for that delivery write again the view that it writes. -/
def updatesAndDelivery (k : Fin 64) (c : Copy) : List DueView → State → State
  | [], s => beginDelivery k c s
  | d :: rest, s =>
    let u := { s with free := s.free + 1 }
    if Config.freshnessUpdateFirst s.free then updatesAndDelivery k c rest (writeView k d u)
    else
      let v := slotView k s
      (beginDelivery k c u).modifySub k (fun t => { t with viewsDue := (d :: rest).map (fun d => { d with view := v }) })

/-- R112, R121. What has waited for the delivery that completed: the engine's updates, each made by itself in the order of its
claim, and the waiting delivery. -/
def afterDelivery (k : Fin 64) (s : State) : State :=
  let dues := s.subs[k].viewsDue
  let t := s.modifySub k (fun t => { t with viewsDue := [] })
  match s.subs[k].waiting with
  | none => dues.foldl (fun s d => writeView k d s) t
  | some c => updatesAndDelivery k c dues t

/-- R119, R125. A delivery's words written, with every superseded rise that has fallen since its start (log entry 32), and its
claims: TEST-MISMATCH, then DELIVERY-CHANGED or DELIVERY. -/
def writeDelivery (k : Fin 64) (d : InProgress) (s : State) : State :=
  let t := s.subs[k]
  let written := t.status.delivered d t.supersededDue t.staleDue
  let u := s.modifySub k (fun t =>
    { t with status := written, inProgress := none, previous := some written.content, supersededDue := 0, staleDue := 0 })
  notifyClaim k d written.edition (if d.mismatch = t.status.mismatch then u else flagClaim k d.markedBy d.mismatch u)

/-- R118, R119, R121, R122. The delivery in progress completes; what waited for it is made. -/
def completeDelivery (k : Fin 64) (d : InProgress) (s : State) : State :=
  let outcomes := s.subs[k].outcomes
  let u := (writeDelivery k d s).modifySub k (fun t => { t with outcomes := [] })
  let v := afterDelivery k (outcomes.foldl (fun s o => applyOutcome k o s) u)
  if v.subs[k].inProgress.isSome then v else showFlag k v

/-- DELIVERY_COMPLETE (R119). -/
def execDeliveryComplete (k : Fin 64) (s : State) : Host.Outcome State Fault Refusal :=
  match s.subs[k].inProgress with
  | some d => .next (completeDelivery k d s)
  | none => .next s

end Sys2Proof.Machine
end

