-- ==== Sys2Proof/Machine/Table.lean ====
section
/-! DEFINITION. The Stream Engine's claims on the stream table other than arrivals: making, removing and evicting entries,
subscription arms, ageing, freshness expiries, reports of Twin Watch, and lane notices. -/

namespace Sys2Proof.Machine

/-! ## Entries made and removed -/

/-- R44. The entry for a stream, with its position. -/
def State.lookup (s : State) (id : Word) : Option (Fin 512 × Entry) :=
  match s.findEntry id with
  | some p => s.table[p].map (fun e => (p, e))
  | none => none

/-- R58. The entry with an identifier and serial, with its position. -/
def State.lookupNamed (s : State) (id serial : Word) : Option (Fin 512 × Entry) :=
  match s.findNamed id serial with
  | some p => s.table[p].map (fun e => (p, e))
  | none => none

/-- R40, R85. An entry as it is made, before what its maker gives it; the lane records take the lanes' cycles. -/
def State.blankEntry (s : State) (id : Word) (origin : Origin) : Entry :=
  { id := id, origin := origin, configured := false, slot := none, forward := .default, cls := none, fresh := none
    deadline := .none, hold := 0, window := none, sendEpoch := 0, sendNext := 0
    recordA := { lone := false, run := 0, cycle := s.laneA.cycle }
    recordB := { lone := false, run := 0, cycle := s.laneB.cycle }
    firsts := 0, twins := 0, repeats := 0, late := 0, lastAccept := none, longest := none, age := 0
    echoNoted := false, clashNoted := false, serial := 0 }

/-- R42. An entry is made at position `p`, with the serial count's new value. -/
def makeEntry (p : Fin 512) (e : Entry) (s : State) : State :=
  ({ s with serial := s.serial + 1 }).putEntry p (some { e with serial := s.serial + 1 })

/-- R57, R89. The lone count falls handed on at the removal of `e`, Lane A's first (the model's choice, log entry 29). -/
def removalFalls (e : Entry) : List LoneChange :=
  (if e.recordA.lone then [{ rise := false, lane := .a, cycle := e.recordA.cycle }] else [])
    ++ (if e.recordB.lone then [{ rise := false, lane := .b, cycle := e.recordB.cycle }] else [])

/-- R43. One update of the record image of position `p`. -/
def raiseImage (p : Fin 512) (s : State) : State := { s with imageCounts := modifyAt s.imageCounts p (· + 1) }

/-- R43, R57. The entry at `p` is removed, and its record image cleared. -/
def removeEntry (p : Fin 512) (s : State) : State :=
  match s.table[p] with
  | none => s
  | some e =>
    let t := handTwin (.abandon e.id e.serial) s
    raiseImage p
      (({ t with loneChanges := t.loneChanges ++ removalFalls e, ageingDue := t.ageingDue.filter (· != p) }).putEntry p none)

/-- R56. `e` gives way before `f`, standing at a higher position than it. -/
def Entry.olderThan (e f : Entry) : Bool :=
  decide (f.age.toNat < e.age.toNat) || (e.age == f.age && overdue (f.lastAccept.getD 0) (e.lastAccept.getD 0))

/-- R56. The LEARNED entry that gives way. -/
def State.victim (s : State) : Option (Fin 512 × Entry) :=
  (List.finRange 512).foldl (fun best p =>
    match s.table[p] with
    | some e =>
      if e.configured then best
      else match best with
        | none => some (p, e)
        | some (_, f) => if e.olderThan f then some (p, e) else best
    | none => best) none

/-- R56. Room for an arm's entry: a LEARNED entry is evicted from a full table. -/
def makeRoom (s : State) : State :=
  if s.freePosition.isSome then s
  else match s.victim with
    | some (p, _) => removeEntry p s
    | none => s

/-! ## Ageing (R55) -/

/-- R55. The entry at `p` is LEARNED and too old. -/
def State.tooOld (s : State) (p : Fin 512) : Bool :=
  match s.table[p] with
  | some e => !e.configured && decide (s.settings.ageingTime.toNat < e.age.toNat)
  | none => false

/-- R55. A seconds tick's work on the table: every age count rises, and the entries now too old are to be removed. -/
def ageEntries (s : State) : State :=
  let t := { s with table := mapAll (Option.map (fun (e : Entry) => { e with age := satInc e.age })) s.table }
  { t with ageingDue := (List.finRange 512).filter t.tooOld }

/-- R55, R57. One removal that a seconds tick has made due. -/
def expireAge (p : Fin 512) (s : State) : State :=
  if s.ageingDue.contains p then
    asEngineClaim (removeEntry p) { s with ageingDue := s.ageingDue.filter (· != p) }
  else s

/-- AGEING_EXPIRY (R55). -/
def execAgeingExpiry (p : Fin 512) (s : State) : Host.Outcome State Fault Refusal := .next (expireAge p s)

/-- R55. The removals of a tick are made before the engine's next claim, in ascending record position where an arm or CLEAR-COUNTS
makes several (the model's choice, log entry 43). -/
def settleAgeing (s : State) : State := s.ageingDue.foldl (fun s p => expireAge p s) s

/-! ## Subscription arms (R52, R53, R115, R116) -/

/-- R52. What becomes of the entry that slot `k` held. -/
def detachEntry (k : Fin 64) (s : State) : State :=
  match s.slotEntry k with
  | none => s
  | some p => match s.table[p] with
    | none => s
    | some e =>
      let left := { e with slot := none, forward := .default, configured := false }
      if e.origin = .remote && e.lastAccept.isNone then removeEntry p (s.putEntry p (some left))
      else s.putEntry p (some left)

/-- R52, R118. Slot `k` is detached, in the table and in Delivery; a slot that is not ARMED holds nothing. -/
def detach (k : Fin 64) (s : State) : State :=
  if s.subs[k].state = .armed then detachDelivery k (detachEntry k s) else s

/-- R105. The AWAITING deadline: an arm made by START waits for RUNNING. -/
def awaitingDeadline (expected : Word) (s : State) : Deadline :=
  if s.partState = .running then .at (s.clock + millis expected) expected 0 else .fromRunning expected

/-- R53. The entry an arm of slot `k` makes. -/
def State.awaitingEntry (s : State) (k : Fin 64) (r : SlotRequest) : Entry :=
  { s.blankEntry r.id .remote with configured := true, slot := some k, forward := r.forward, fresh := some .awaiting
                                   deadline := awaitingDeadline r.expected s }

/-- R41, R53. The origin is a publication slot. -/
def Origin.isHost : Origin → Bool
  | .localHost _ => true
  | .remote | .localBay _ => false

/-- R53, R116. An arm whose configuration is in range, judged against the table. -/
def attach (k : Fin 64) (r : SlotRequest) (s : State) : State :=
  match s.lookup r.id with
  | some (p, e) =>
    if e.origin.isHost then refuseDelivery k .originClash r.id 0 s
    else if e.slot.isSome then refuseDelivery k .duplicate r.id 0 s
    else armDelivery k r.config (s.putEntry p (some { e with slot := some k, configured := true, forward := r.forward }))
  | none =>
    let t := makeRoom s
    match t.freePosition with
    | some p => armDelivery k r.config (makeEntry p (t.awaitingEntry k r) t)
    | none => refuseDelivery k .originClash r.id 0 t

/-- R116. An arm of slot `k`. -/
def armSlot (k : Fin 64) (s : State) : State :=
  match badSlot s.mem k with
  | some offset => refuseDelivery k .badSetting (readWord s.mem (subBase k)) (BitVec.ofNat 16 offset) s
  | none => attach k (readSlot s.mem k) s

/-- R115. The claim that an arm word is on its slot, by the value the word now holds. -/
def subscriptionClaim (k : Fin 64) (s : State) : State :=
  let v := readWord s.mem (subBase k + 7)
  if v = 1 then armSlot k (detach k s)
  else if v = 0 then
    if s.subs[k].state = .disarmed then s else disarmDelivery k (detach k s)
  else refuseDelivery k .badArmCode (readWord s.mem (subBase k)) v (detach k s)

/-- R38, R115. The engine takes the claim. -/
def takeSubscription (k : Fin 64) (s : State) : State := asEngineClaim (subscriptionClaim k) (settleAgeing s)

/-! ## Publication entries (R54) -/

/-- R54, R57. The entry of publication slot `k` is removed. -/
def removeHostEntry (k : Fin 32) (s : State) : State :=
  match findAt? (fun e => match e with | some e => e.origin == .localHost k | none => false) s.table with
  | some p => removeEntry p s
  | none => s

/-- R54. The entry an arm of publication slot `k` makes. -/
def State.hostEntry (s : State) (k : Fin 32) (c : PubConfig) (epoch : Byte) : Entry :=
  { s.blankEntry c.id (.localHost k) with configured := true, forward := .explicit c.forward, cls := some c.cls
                                          sendEpoch := epoch }

/-- R54. The entry of publication slot `k` is made, if the table holds none for its stream. -/
def makeHostEntry (k : Fin 32) (c : PubConfig) (epoch : Byte) (s : State) : Option State :=
  match s.lookup c.id with
  | some _ => none
  | none =>
    let t := makeRoom s
    match t.freePosition with
    | some p => some (makeEntry p (t.hostEntry k c epoch) t)
    | none => none

/-- R54, R139. The send state of publication slot `k` shown by its entry. -/
def showSendState (k : Fin 32) (epoch : Byte) (next : Word) (s : State) : State :=
  asEngineClaim (fun s => { s with table := mapAll (Option.map (fun (e : Entry) =>
    if e.origin = .localHost k then { e with sendEpoch := epoch, sendNext := next } else e)) s.table }) s

/-! ## Freshness expiry (R106, R107) -/

/-- R106. A freshness deadline of the entry at `p` has passed. -/
def goStale (p : Fin 512) (e : Entry) (time : Clock) (promise margin : Word) (s : State) : State :=
  let stale := { e with fresh := some .stale, deadline := .none, window := if e.origin = .remote then none else e.window }
  let s1 := s.putEntry p (some stale)
  let s2 := if e.origin = .remote then handTwin (.abandon e.id e.serial) s1 else s1
  let s3 := match e.slot with | some k => engineView k true s2 | none => s2
  let s4 :=
    if e.configured || s.settings.journalLearned then
      claim { kind := .streamStale, subject := .stream e.id, time := time
              d1 := freshnessCode e.fresh ||| bitAt 8 e.configured, d2 := promise, d3 := margin } s3
    else s3
  offer (.streamStale e.id) s4

/-- R106, R108. The deadline of stream `id`'s entry, if the part clock has reached it. -/
def expireFreshness (id : Word) (s : State) : State :=
  match s.lookup id with
  | some (p, e) =>
    match e.deadline with
    | .at time promise margin =>
      if reached s.clock time && s.ageingDue.isEmpty then asEngineClaim (goStale p e time promise margin) s else s
    | _ => s
  | none => s

/-- FRESHNESS_EXPIRY (R106). -/
def execFreshnessExpiry (id : Word) (s : State) : Host.Outcome State Fault Refusal := .next (expireFreshness id s)

/-- R105. At RUNNING the deadlines of START's arms begin. -/
def Entry.startDeadline (now : Clock) (e : Entry) : Entry :=
  match e.deadline with
  | .fromRunning promise => { e with deadline := .at (now + millis promise) promise 0 }
  | _ => e

/-! ## Reports of Twin Watch and lane notices (R86 to R88) -/

/-- The entry at `p` changed, and shown by the slot it holds (R112). -/
def writeEntry (p : Fin 512) (e : Entry) (s : State) : State :=
  match e.slot with
  | some k => engineView k false (s.putEntry p (some e))
  | none => s.putEntry p (some e)

/-- R87. A miss against lane `l`, made in the lane cycle `cycle`. -/
def applyMiss (id serial : Word) (l : Lane) (cycle : Word) (s : State) : State :=
  match s.lookupNamed id serial with
  | some (p, e) =>
    let now := (s.lane l).cycle
    if cycle ≠ now then s
    else
      let (r, rise) := (e.record l).missed now s.settings.loneThreshold
      let t := writeEntry p (e.setRecord l r) s
      if rise then handLone { rise := true, lane := l, cycle := now } t else t
  | none => s

/-- R88. A credit of lane `l`. -/
def applyCredit (id serial : Word) (l : Lane) (s : State) : State :=
  match s.lookupNamed id serial with
  | some (p, e) =>
    let now := (s.lane l).cycle
    let (r, fall) := (e.record l).credited now
    let t := writeEntry p (e.setRecord l r) s
    if fall then handLone { rise := false, lane := l, cycle := now } t else t
  | none => s

/-- MISS_REPORT (R87). -/
def execMissReport (s : State) : Host.Outcome State Fault Refusal :=
  match s.reports with
  | .miss id serial l cycle :: rest =>
    if s.ageingDue.isEmpty then .next (asEngineClaim (applyMiss id serial l cycle) { s with reports := rest }) else .next s
  | _ => .next s

/-- CREDIT_REPORT (R88). -/
def execCreditReport (s : State) : Host.Outcome State Fault Refusal :=
  match s.reports with
  | .credit id serial l :: rest =>
    if s.ageingDue.isEmpty then .next (asEngineClaim (applyCredit id serial l) { s with reports := rest }) else .next s
  | _ => .next s

/-- R86, R112. Every record of lane `l` from an earlier cycle is written anew, and the slots concerned show it. -/
def noticeLane (l : Lane) (s : State) : State :=
  let now := (s.lane l).cycle
  let t := { s with table := mapAll (Option.map (fun (e : Entry) => e.setRecord l ((e.record l).noticed now))) s.table }
  (List.finRange 64).foldl (fun s k => if (s.slotEntry k).isSome then engineView k false s else s) t

/-- LANE_NOTICE (R86). -/
def execLaneNotice (s : State) : Host.Outcome State Fault Refusal :=
  match s.laneNotices with
  | l :: rest =>
    if s.ageingDue.isEmpty then .next (asEngineClaim (noticeLane l) { s with laneNotices := rest }) else .next s
  | [] => .next s

/-! ## CLEAR-COUNTS in the table (R51) -/

/-- R51. Both noted flags of every entry clear. -/
def clearNoted (s : State) : State :=
  asEngineClaim (fun s => { s with table := mapAll (Option.map (fun (e : Entry) =>
    { e with echoNoted := false, clashNoted := false })) s.table }) (settleAgeing s)

end Sys2Proof.Machine
end

