-- ==== Sys2Proof/Machine/Publication.lean ====
section
/-! DEFINITION. The Publication Scheduler (chapter 8): arming, the post set, takes, sends, the calendar and the refresh limit. -/

namespace Sys2Proof.Machine

/-! ## The calendar (R141) -/

/-- R141. A new entry stands after every entry whose due time is at or before its own. -/
def insertCalendar (c : CalendarEntry) (list : List CalendarEntry) : List CalendarEntry :=
  list.takeWhile (fun d => reached c.due d.due) ++ [c] ++ list.dropWhile (fun d => reached c.due d.due)

/-- The calendar without the entry of slot `k`. -/
def uncalendar (k : Fin 32) (s : State) : State := { s with calendar := s.calendar.filter (fun c => c.slot != k) }

/-! ## Sending (R139, R140) -/

/-- R140. The hold time of a send that is followed by `interval` ms. -/
def holdFor (interval : Word) : Word := BitVec.ofNat 16 (min 60000 (2 * interval.toNat))

/-- R139. The header of a send of a slot. -/
def PubSlot.header (p : PubSlot) (c : PubConfig) (content : List Byte) : Header :=
  { id := c.id, cls := c.cls, test := c.test, epoch := p.epoch, hold := holdFor p.interval
    repeatNo := p.repeatNo.setWidth 8, length := BitVec.ofNat 16 content.length }

/-- R139. The message of a send of a slot. -/
def PubSlot.message (p : PubSlot) (c : PubConfig) (content : List Byte) (set : Settings) : List Byte :=
  buildMessage c.dest set.station set.messageType (p.header c content) content

/-- R139 steps 3 and 4. The slot after a send. -/
def PubSlot.sent (p : PubSlot) : PubSlot :=
  { p with nextSeq := p.nextSeq + 1, repeatNo := if p.repeatNo = 255 then 255 else p.repeatNo + 1, sends := p.sends + 1 }

/-- R139. One send of slot `k`, its interval already fixed: the copies handed out, the numbers raised, the new send state
reported to the engine. The status update that shows it is the caller's. -/
def sendPub (k : Fin 32) (s : State) : State :=
  let p := s.pubs[k]
  match p.config, p.buffer with
  | some c, some content =>
    let record := fun seq => { frame := p.message c content s.settings, stream := true, trip := c.cls == .trip, seq := seq }
    let s1 := offerLane .b (record (some p.nextSeq)) (offerLane .a (record (some p.nextSeq)) s)
    let s2 := offerBays c.forward (record none) s1
    let s3 := { s2 with pubs := modifyAt s2.pubs k PubSlot.sent }
    showSendState k p.epoch (p.nextSeq + 1) s3
  | _, _ => s

/-! ## Takes (R134, R135, R138) -/

/-- R138. A flag of each contact input in one byte, CI1 in the most significant bit. -/
def inputFlags (f : ContactInput → Bool) (inputs : Vector ContactInput 8) : Byte :=
  inputs.toList.foldl (fun acc i => (acc <<< 1) ||| (if f i then 1 else 0)) 0

/-- R138. The contact snapshot of 34 bytes. -/
def contactSnapshot (inputs : Vector ContactInput 8) : List Byte :=
  [inputFlags (fun i => i.accepted == some true) inputs, inputFlags (fun i => i.blocked) inputs]
    ++ inputs.toList.flatMap (fun i => bytesOfLong i.lastChange)

/-- R135 steps 1 to 3 and 6. The slot at the completion of a take, before its send. -/
def PubSlot.taken (content : List Byte) (edition : Word) (poster : Poster) (now : Clock) (c : PubConfig) (p : PubSlot) :
    PubSlot :=
  { p with buffer := some content, takenEdition := edition, takenBy := some poster, lastTake := now, repeatNo := 0
           interval := c.first, state := .burst
           refreshAt := if c.refresh = 0 then none else some (now + secs c.refresh) }

/-- R135. A take completes: the buffer replaced, one send made at once, the schedule begun again; one update of the
status. -/
def completeTake (k : Fin 32) (poster : Poster) (edition : Word) (content : List Byte) (s : State) : State :=
  match s.pubs[k].config with
  | none => s
  | some c =>
    let t := sendPub k (uncalendar k (updatePub k (PubSlot.taken content edition poster s.clock c) s))
    { t with calendar := insertCalendar { slot := k, due := s.clock + millis c.first } t.calendar }

/-- R135, R138. A take of slot `k` begins; a snapshot completes at its start. -/
def beginTake (p : Post) (s : State) : State :=
  let edition := readWord s.mem (pubBase p.slot + 11)
  if (s.pubs[p.slot].config.map (·.snapshot)).getD false then
    completeTake p.slot p.poster edition (contactSnapshot s.inputs) s
  else { s with take := some { slot := p.slot, poster := p.poster, edition := edition, staged := readStaged s.mem p.slot } }

/-- R134. Takes begin, TRIP slots first, until one stays in progress or the post set is empty; `n` bounds their number. -/
def beginTakes : Nat → State → State
  | 0, s => s
  | n + 1, s =>
    if s.take.isSome then s
    else
      match s.postTrip, s.postOther with
      | p :: rest, _ => beginTakes n (beginTake p { s with postTrip := rest })
      | [], p :: rest => beginTakes n (beginTake p { s with postOther := rest })
      | [], [] => s

/-- R134. The scheduler begins the takes it can. -/
def runTakes (s : State) : State := beginTakes (s.postTrip.length + s.postOther.length) s

/-- R135. The take in progress completes. -/
def takeCompletes (t : Take) (s : State) : State :=
  runTakes (completeTake t.slot t.poster t.edition t.staged { s with take := none })

/-- TAKE_COMPLETE (R135). -/
def execTakeComplete (s : State) : Host.Outcome State Fault Refusal :=
  match s.take with
  | some t => .next (takeCompletes t s)
  | none => .next s

/-! ## The post set (R133) -/

/-- R133. Slot `k` stands in the post set. -/
def posted (k : Fin 32) (s : State) : Bool := s.postTrip.any (·.slot == k) || s.postOther.any (·.slot == k)

/-- R133. Slot `k` joins the tail of its class group, unless it is there. -/
def joinPosts (k : Fin 32) (poster : Poster) (s : State) : State :=
  if posted k s then s
  else if (s.pubs[k].config.map (·.cls)) = some .trip then { s with postTrip := s.postTrip ++ [{ slot := k, poster := poster }] }
  else { s with postOther := s.postOther ++ [{ slot := k, poster := poster }] }

/-- R133. A post of slot `k`, acted on while the slot is armed. -/
def post (k : Fin 32) (poster : Poster) (s : State) : State :=
  if s.pubs[k].state.armed then runTakes (joinPosts k poster s) else s

/-- R136. The take of slot `k` in progress is abandoned by a collision, and the slot re-entered; the next take begins
after it. -/
def abandonByCollision (t : Take) (s : State) : State :=
  joinPosts t.slot t.poster (updatePub t.slot (fun p => { p with collisions := satInc p.collisions }) { s with take := none })

/-- R136. A write to the edition word of slot `t.slot` during its take: a collision and a post, in an order the manual leaves
free (log entry 2). -/
def collideAndPost (t : Take) (s : State) : State :=
  let u := { s with free := s.free + 1 }
  if Config.collisionFirst s.free then joinPosts t.slot .host (abandonByCollision t u)
  else abandonByCollision t (joinPosts t.slot .host u)

/-- R7, R133, R136. A host write stored into word `offset` of slot `k`, not its arm word: a collision with a take of the
slot; an edition write is a post as well. -/
def watchedWrite (k : Fin 32) (offset : Nat) (s : State) : State :=
  if s.partState ≠ .running then s
  else
    match s.take with
    | some t =>
      if t.slot = k then runTakes (if offset = 11 then collideAndPost t s else abandonByCollision t s)
      else if offset = 11 then post k .host s else s
    | none => if offset = 11 then post k .host s else s

/-! ## Arming (R129 to R132) -/

/-- R132. What a disarm drops of slot `k`, in the scheduler and in the stream table. -/
def dropPub (k : Fin 32) (s : State) : State :=
  let t := uncalendar k s
  removeHostEntry k
    { t with take := match t.take with | some x => if x.slot = k then none else some x | none => none
             postTrip := t.postTrip.filter (fun p => p.slot != k)
             postOther := t.postOther.filter (fun p => p.slot != k)
             pubs := modifyAt t.pubs k (fun p => { p with buffer := none, refreshAt := none, config := none, interval := 0 }) }

/-- R129, R132. The first half of a claim on an armed slot. -/
def dropIfArmed (k : Fin 32) (s : State) : State := if s.pubs[k].state.armed then dropPub k s else s

/-- R129. A refused arm: the status, and the ARM-REFUSED claim. The status fields other than state, reason and detail are as the
claim finds them or, of a slot that it has disarmed, as `dropPub` leaves them (the model's choice, log entry 37). -/
def refusePub (k : Fin 32) (reason : Reason) (detail : Word) (s : State) : State :=
  claim { kind := .armRefused, subject := .publication k, time := s.clock, d1 := reasonCode reason
          d2 := readWord s.mem (pubBase k), d3 := detail }
    (updatePub k (fun p => { p with state := .refused, reason := reason, detail := detail }) s)

/-- R131. The epoch a successful arm of a slot takes. -/
def PubSlot.armEpoch (p : PubSlot) (c : PubConfig) : Byte := if p.everArmed then p.lastEpoch + 1 else c.epoch

/-- R130. The slot after a successful arm. -/
def PubSlot.armedAt (c : PubConfig) (p : PubSlot) : PubSlot :=
  { pubSlotAtReset with count := p.count, state := .armedIdle, epoch := p.armEpoch c, config := some c
                        everArmed := true, lastEpoch := p.armEpoch c }

/-- R130. An arm of slot `k`. -/
def armPub (k : Fin 32) (s : State) : State :=
  match badPub s.mem k with
  | some offset => refusePub k .badSetting (BitVec.ofNat 16 offset) s
  | none =>
    let c := readPub s.mem k
    match makeHostEntry k c (s.pubs[k].armEpoch c) s with
    | some t => updatePub k (PubSlot.armedAt c) t
    | none => refusePub k .originClash 0 s

/-- R129. The claim that an arm word is on its slot, by the value the word now holds. -/
def publicationClaim (k : Fin 32) (s : State) : State :=
  let v := readWord s.mem (pubBase k + 12)
  if v = 1 then armPub k (dropIfArmed k s)
  else if v = 0 then
    if s.pubs[k].state = .disarmed then s
    else updatePub k (fun p => { p with state := .disarmed, reason := .none, detail := 0 }) (dropIfArmed k s)
  else refusePub k .badArmCode v (dropIfArmed k s)

/-- R129, R134. The scheduler takes the claim; a take that was abandoned makes way for the next. -/
def takePublication (k : Fin 32) (s : State) : State := runTakes (asEngineClaim (publicationClaim k) (settleAgeing s))

/-! ## Calendar sends (R140, R141) -/

/-- R140. The slot as a calendar send fixes its next interval. -/
def PubSlot.advanced (c : PubConfig) (p : PubSlot) : PubSlot :=
  if p.state = .burst then
    if 2 * p.interval.toNat < c.heartbeat.toNat then { p with interval := BitVec.ofNat 16 (2 * p.interval.toNat) }
    else { p with interval := c.heartbeat, state := .steady }
  else { p with interval := c.heartbeat }

/-- R139 to R141. The send of the slot at the head of the calendar. -/
def sendDue (e : CalendarEntry) (rest : List CalendarEntry) (s : State) : State :=
  match s.pubs[e.slot].config with
  | none => s
  | some c =>
    let t := sendPub e.slot (updatePub e.slot (PubSlot.advanced c) { s with calendar := rest })
    { t with calendar := insertCalendar { slot := e.slot, due := e.due + millis t.pubs[e.slot].interval } t.calendar }

/-- CALENDAR_SEND (R141). -/
def execCalendarSend (s : State) : Host.Outcome State Fault Refusal :=
  match s.calendar with
  | e :: rest => if reached s.clock e.due then .next (sendDue e rest s) else .next s
  | [] => .next s

/-! ## The refresh limit (R142) -/

/-- R142. Slot `k` enters EXPIRED; its deadline was `time`. -/
def expirePub (k : Fin 32) (time : Clock) (s : State) : State :=
  let p := s.pubs[k]
  claim { kind := .publicationExpired, subject := .publication k, time := time
          d1 := (p.config.map (·.id)).getD 0, d2 := p.takenEdition, d3 := p.nextSeq }
    (updatePub k (fun p => { p with state := .expired, refreshAt := none, interval := 0 }) (uncalendar k s))

/-- REFRESH_EXPIRY (R142). -/
def execRefreshExpiry (k : Fin 32) (s : State) : Host.Outcome State Fault Refusal :=
  match s.pubs[k].refreshAt with
  | some t => if reached s.clock t then .next (expirePub k t s) else .next s
  | none => .next s

end Sys2Proof.Machine
end

