-- ==== Sys2Proof/Machine/Rules.lean ====
section
/-! DEFINITION. The Link Rule Unit (section 10.3): arming, judging an event, firing. -/

namespace Sys2Proof.Machine

/-! ## Arming (R162) -/

/-- R162. A refused arm: the status, and the ARM-REFUSED claim. -/
def refuseRule (k : Fin 16) (reason : Reason) (detail : Word) (s : State) : State :=
  claim { kind := .armRefused, subject := .rule k, time := s.clock, d1 := reasonCode reason, d2 := 0, d3 := detail }
    (s.modifyRule k (fun r => { r with state := .refused, reason := reason, copy := none }))

/-- R162. The rule after a successful arm. It shows no refusal reason, an ARM-REFUSED one's cleared (the model's choice, log entry
40). -/
def armedRule (c : RuleCopy) : LinkRule := { linkRuleAtReset with state := .armed, copy := some c }

/-- R162. The claim that an arm word is on its rule, by the value the word now holds. A disarm clears the refusal reason of an
ARM-REFUSED rule (the model's choice, log entry 40). -/
def ruleClaim (k : Fin 16) (s : State) : State :=
  let v := readWord s.mem (ruleBase k + 11)
  if v = 1 then
    match badRule s.mem k with
    | some offset => refuseRule k .badSetting (BitVec.ofNat 16 offset) s
    | none => s.modifyRule k (fun _ => armedRule (readRule s.mem k))
  else if v = 0 then
    if s.rules[k].state = .disarmed then s
    else s.modifyRule k (fun r => { r with state := .disarmed, reason := .none, copy := none })
  else refuseRule k .badArmCode v s

/-! ## Judging (R163, R164) -/

/-- R163. The event is offered to a rule with this source. -/
def Source.concerns (src : Source) (e : RuleEvent) : Bool :=
  match src, e with
  | .contactOn n, .contact m _ _ => n == m
  | .contactOff n, .contact m _ _ => n == m
  | .streamMatch id _ _ _, .streamCopy id' _ => id == id'
  | .streamMatch id _ _ _, .streamStale id' => id == id'
  | .streamStale id, .streamStale id' => id == id'
  | .streamStale id, .streamCopy id' _ => id == id'
  | .lane l _, .lane l' _ => l == l'
  | .redundancy _, .redundancy _ => true
  | _, _ => false

/-- R163. The masked bytes of the content from the offset equal the masked value bytes. -/
def patternMatches (offset : Nat) (mask value content : List Byte) : Bool :=
  decide (offset + 4 ≤ content.length)
    && (List.range 4).all (fun i =>
      (content.getD (offset + i) 0 &&& mask.getD i 0) == (value.getD i 0 &&& mask.getD i 0))

/-- R163. The event is matching. -/
def Source.matches (src : Source) (e : RuleEvent) : Bool :=
  match src, e with
  | .contactOn _, .contact _ on _ => on
  | .contactOff _, .contact _ on _ => !on
  | .streamMatch _ offset mask value, .streamCopy _ content => patternMatches offset mask value content
  | .streamStale _, .streamStale _ => true
  | .lane _ verdict, .lane _ entered => verdict == entered
  | .redundancy state, .redundancy entered => state == entered
  | _, _ => false

/-! ## Firing (R165) -/

/-- R165. The action of rule `k` handed on, and whether it was refused. -/
def act (k : Fin 16) (a : Action) (s : State) : State × Bool :=
  match a with
  | .driveOutput n => if s.settings.outputs[n].permitted then (driveOutput n (.rule k) s, false) else (s, true)
  | .releaseOutput n => (releaseOutput n (.rule k) s, false)
  | .post n => if s.pubs[n].state.armed then (post n (.rule k) s, false) else (s, true)
  | .journalOnly => (s, false)

/-- R165. Rule `k`, whose copy is `c`, fires at event `e`. Its action has its effect at once, so that what the action claims of the
journal, an OUTPUT-CHANGE among it, stands before the RULE-FIRED of the next rule that fires at the event (the model's choice, log entry
45). -/
def fire (k : Fin 16) (c : RuleCopy) (e : RuleEvent) (s : State) : State :=
  let s1 := s.modifyRule k (fun r => { r with fired := satInc r.fired, lastFired := s.clock })
  let s2 :=
    if c.journal then
      claim { kind := .ruleFired, subject := .rule k, time := s.clock, d1 := sourceKindCode c.source
              d2 := eventSubject e, d3 := actionCode c.action } s1
    else s1
  let (s3, refused) := act k c.action s2
  if refused then s3.modifyRule k (fun r => { r with refusals := satIncByte r.refusals }) else s3

/-- R164, R165. Rule `k` judges event `e`. -/
def judgeRule (e : RuleEvent) (s : State) (k : Fin 16) : State :=
  match s.rules[k].copy with
  | some c =>
    if s.rules[k].state = .armed && c.source.concerns e then
      let hit := c.source.matches e
      let t := s.modifyRule k (fun r => { r with matching := hit })
      if hit && (!c.edge || !s.rules[k].matching) then fire k c e t else t
    else s
  | none => s

/-- R165. An event taken whole: the rules judge it in ascending number, each firing with the claims of its action before the next judges
(the model's choice, log entry 45). -/
def takeEvent (e : RuleEvent) (s : State) : State := (List.finRange 16).foldl (judgeRule e) s

/-- EVENT_OFFER (R163 to R165). -/
def execEventOffer (s : State) : Host.Outcome State Fault Refusal :=
  match s.events with
  | e :: rest => .next (takeEvent e { s with events := rest })
  | [] => .next s

end Sys2Proof.Machine
end

