-- ==== Sys2Proof/Machine/Supervisor.lean ====
section
/-! DEFINITION. The Lane Supervisor (sections 5.4 to 5.7) and the link states of the six ports (R27). -/

namespace Sys2Proof.Machine

/-! ## Changes of lane state -/

/-- R96, R97, R147, R148. How many frames the entering of DOWN or HELD flushes; DOWN cuts the frame on the wire, HELD
does not. -/
def LanePort.flushes (p : LanePort) (new : LaneState) : Nat :=
  p.urgent.length + p.normal.length + (if new = .down && p.wire.isSome then 1 else 0)

/-- R92, R96, R97. A port as its lane enters `new`: `also` is what the same event changes in the lane's group, which the
change shares one update with. -/
def LanePort.entered (new : LaneState) (also : LaneGroup → LaneGroup) (now : Clock) (period : Word) (p : LanePort) :
    LanePort :=
  if new.carries then
    { p with group := p.group.update (fun g => { also g with state := new })
             provingEnds := if new = .proving then some (now + secs period) else none }
  else
    { p with group := p.group.update (fun g =>
               { also g with state := new, lone := 0, flushed := g.flushed + BitVec.ofNat 32 (p.flushes new) })
             cycle := p.cycle + 1
             urgent := []
             normal := []
             wire := if new = .down then none else p.wire
             provingEnds := none }

/-- R92, R96, R97. The entering of `new` by lane `l`: the port, and what is handed to Twin Watch and the engine. -/
def enterState (l : Lane) (new : LaneState) (also : LaneGroup → LaneGroup) (s : State) : State :=
  let t := s.modifyLane l (LanePort.entered new also s.clock s.settings.provingPeriod)
  if new = .proving then updateCounters (·.setLongest l 0) t
  else if new.carries then t
  else { t with cleanups := t.cleanups ++ [l], laneNotices := t.laneNotices ++ [l] }

/-- R98. The LANE-VERDICT claim of a change. -/
def verdictClaim (l : Lane) (old new : LaneState) (lone : Word) (cause : LaneCause) (now : Clock) : JournalClaim :=
  { kind := .laneVerdict, subject := .lane l, time := now
    d1 := (laneStateCode old <<< 8) ||| laneStateCode new, d2 := lone, d3 := laneCauseCode cause }

/-- R100. The bare route reconsidered after lane `l` has entered `new`. -/
def reroute (l : Lane) (new : LaneState) (s : State) : State :=
  { s with bareRoute := rerouted s.bareRoute s.settings.bareLane l new (s.lane s.bareRoute).group.state
                          (s.lane l.other).group.state }

/-- R99. The redundancy state derived again after a change of lane `l`, also while START, past its step 3, is still WORKING in
CONFIG (the model's choice, log entry 44). -/
def deriveRedundancy (l : Lane) (s : State) : State :=
  let new := redundancyOf s.laneA.group.state s.laneB.group.state
  if new = s.redundancy then s
  else
    offer (.redundancy new)
      (claim { kind := .redundancy, subject := .lane l, time := s.clock, d1 := redundancyCode s.redundancy
               d2 := redundancyCode new, d3 := 0 } { s with redundancy := new })

/-- R98. The journal entry and the event of a change. -/
def announce (l : Lane) (old new : LaneState) (lone : Word) (cause : LaneCause) (s : State) : State :=
  offer (.lane l new) (claim (verdictClaim l old new lone cause s.clock) s)

/-- R92 to R100. Lane `l` moves to `new`. The lone count told is the one at the moment of the change. -/
def moveLane (l : Lane) (new : LaneState) (cause : LaneCause) (also : LaneGroup → LaneGroup) (s : State) : State :=
  let g := (s.lane l).group
  deriveRedundancy l (announce l g.state new (also g).lone cause (reroute l new (enterState l new also s)))

/-- R95. A lane leaves HELD by its link state. -/
def releaseLane (l : Lane) (cause : LaneCause) (s : State) : State :=
  if (s.lane l).group.state = .held then
    moveLane l (if (s.lane l).group.link then .proving else .down) cause id s
  else s

/-- R94. A lane is set aside. -/
def holdLane (l : Lane) (s : State) : State :=
  if (s.lane l).group.state = .held then s else moveLane l .held .laneHold id s

/-- R15 step 3, R95, R101. Both lanes leave HELD; the route is reconsidered when both have. -/
def releaseAtStart (s : State) : State :=
  let enter (l : Lane) (s : State) : State :=
    let new : LaneState := if (s.lane l).group.link then .proving else .down
    announce l .held new (s.lane l).group.lone .start (enterState l new id s)
  let t := enter .b (enter .a s)
  let preferred := t.settings.bareLane
  { t with bareRoute := if (t.lane preferred).group.state = .down && (t.lane preferred.other).group.state = .proving
                        then preferred.other else preferred }

/-! ## Lone counts (R89, R93) -/

/-- R89. The lone count after a rise or a fall. -/
def LaneGroup.loneChanged (rise : Bool) (g : LaneGroup) : LaneGroup :=
  { g with lone := if rise then g.lone + 1 else if g.lone = 0 then 0 else g.lone - 1 }

/-- R89, R93. A rise or fall applied: it counts if its cycle is the lane's, and a judged lane is evaluated, in CONFIG as in RUNNING
(the model's choice, log entry 44). -/
def applyLone (c : LoneChange) (s : State) : State :=
  let p := s.lane c.lane
  if c.cycle ≠ p.cycle then s
  else
    let g := p.group.loneChanged c.rise
    let new := evaluation g.lone s.settings.degradeQuorum
    if p.group.state.judged && new ≠ p.group.state then moveLane c.lane new .loneCount (·.loneChanged c.rise) s
    else updateLane c.lane (·.loneChanged c.rise) s

/-- The head of the rises and falls is taken if it is of the kind the row names. -/
def takeLone (rise : Bool) (s : State) : State :=
  match s.loneChanges with
  | c :: rest => if c.rise = rise then applyLone c { s with loneChanges := rest } else s
  | [] => s

/-- LONE_COUNT_RISE (R89). -/
def execLoneCountRise (s : State) : Host.Outcome State Fault Refusal := .next (takeLone true s)

/-- LONE_COUNT_FALL (R89). -/
def execLoneCountFall (s : State) : Host.Outcome State Fault Refusal := .next (takeLone false s)

/-! ## The proving timer (R92) -/

/-- R92. The expiry of a lane's proving timer, taken in RUNNING and, where START is still WORKING past its step 3, in CONFIG (the
model's choice, log entry 44). -/
def provingExpired (l : Lane) (s : State) : State :=
  match (s.lane l).provingEnds with
  | some t =>
    if reached s.clock t && (s.lane l).group.state = .proving then
      moveLane l (evaluation (s.lane l).group.lone s.settings.degradeQuorum) .provingTimer id s
    else s
  | none => s

/-- PROVING_TIMER_EXPIRY (R92). -/
def execProvingTimerExpiry (l : Lane) (s : State) : Host.Outcome State Fault Refusal := .next (provingExpired l s)

/-! ## Link states (R27, R91) -/

/-- The physical layer's indication at a lane port. -/
def State.setLanePin (l : Lane) (up : Bool) (s : State) : State :=
  match l with
  | .a => { s with pins := { s.pins with linkA := up } }
  | .b => { s with pins := { s.pins with linkB := up } }

def State.setBayPin (p : Fin 4) (up : Bool) (s : State) : State :=
  { s with pins := { s.pins with bays := s.pins.bays.set p.val up p.isLt } }

/-- R27, R91. A lane port takes a change of its link to UP, and the Supervisor its report. -/
def laneUp (l : Lane) (s : State) : State :=
  let s := s.setLanePin l true
  if s.partState = .initialising || (s.lane l).group.link then s
  else
    let t := updateLane l (fun g => { g with link := true }) s
    if (t.lane l).group.state = .down then moveLane l .proving .linkUp id t
    else t.modifyLane l (LanePort.begin l)

/-- R27, R148. What the loss of a lane's link changes in the group, beside the Supervisor's work: the link state, and the count
of the frame that a HELD lane was still sending. -/
def LaneGroup.linkLost (sending : Bool) (g : LaneGroup) : LaneGroup :=
  { g with link := false, flushed := if g.state = .held && sending then g.flushed + 1 else g.flushed }

/-- R148. The frame that a HELD lane was still sending is cut. -/
def LanePort.cutHeld (p : LanePort) : LanePort := { p with wire := if p.group.state = .held then none else p.wire }

/-- R26, R27, R91, R96. A lane port takes a change of its link to DOWN; `cut` says that a frame was being received, a frame
error whatever the lane's state. Its COUNTER-FIRST is handed on before the Supervisor's LANE-VERDICT (the model's choice, log
entry 34). -/
def laneDown (l : Lane) (cut : Bool) (s : State) : State :=
  let s := s.setLanePin l false
  if s.partState = .initialising || !(s.lane l).group.link then s
  else
    let p := s.lane l
    let lost := LaneGroup.linkLost p.wire.isSome
    let t := if cut then countLane l lost .frameErrors s.clock s else updateLane l lost s
    let u := t.modifyLane l LanePort.cutHeld
    if p.group.state.carries then moveLane l .down .linkDown id u else u

/-- R27. A bay port takes a change of its link to UP. -/
def bayUp (p : Fin 4) (s : State) : State :=
  let s := s.setBayPin p true
  if s.partState = .initialising then s else updateBay p (fun b => { b with link := true }) s

/-- R151. What a bay port's link change to DOWN changes in its block. -/
def BayBlock.linkLost (n : Nat) (b : BayBlock) : BayBlock :=
  { b with link := false, flushed := b.flushed + BitVec.ofNat 32 n }

/-- R26, R27, R151. A bay port takes a change of its link to DOWN: one update of the group, the queue emptied, the frame on
the wire cut; `cut` says that a frame was being received, a frame error in CONFIG as in RUNNING (log entry 7). -/
def bayDown (p : Fin 4) (cut : Bool) (s : State) : State :=
  let s := s.setBayPin p false
  if s.partState = .initialising || !s.bayGroup.ports[p].link then s
  else
    let b := s.bays[p]
    let n := b.queue.length + (if b.wire.isSome then 1 else 0)
    let t := s.modifyBay p (fun b => { b with queue := [], wire := none })
    if cut then countBay p (·.linkLost n) .frameErrors s.clock t
    else updateBay p (·.linkLost n) t

/-- LANE_LINK_UP (R27, R91). -/
def execLaneLinkUp (l : Lane) (s : State) : Host.Outcome State Fault Refusal := .next (laneUp l s)

/-- LANE_LINK_DOWN (R26, R27, R91, R96). -/
def execLaneLinkDown (l : Lane) (cut : Bool) (s : State) : Host.Outcome State Fault Refusal := .next (laneDown l cut s)

/-- BAY_LINK_UP (R27). -/
def execBayLinkUp (p : Fin 4) (s : State) : Host.Outcome State Fault Refusal := .next (bayUp p s)

/-- BAY_LINK_DOWN (R26, R27, R151). -/
def execBayLinkDown (p : Fin 4) (cut : Bool) (s : State) : Host.Outcome State Fault Refusal := .next (bayDown p cut s)

end Sys2Proof.Machine
end

