-- ==== Sys2Proof/Machine/Control.lean ====
section
/-! DEFINITION. The Exchange Memory Controller (chapter 1): resets, host writes, the commands and their completion, the clock;
and the Journal Writer's claims (chapter 11). -/

namespace Sys2Proof.Machine

/-! ## Resets (R11, R18, R19) -/

/-- R18, R19. Everything the part keeps at the taking of a reset; what stands outside it (the commands to come and the
levels at the pins) and the model's free choices go on. -/
def resetTo (soft : Bool) (mem : List Host.Cell) (s : State) : State :=
  { State.reset with pending := s.pending, free := s.free, pins := s.pins, softReset := soft, mem := mem }

/-- HARDWARE_RESET (R19). -/
def execHardwareReset (s : State) : Host.Outcome State Fault Refusal := .next (resetTo false [] s)

/-- R27. A port takes the link indication at the completion of INITIALISING: for a link that is UP an update of its group, so
that the edition word no longer reads 0 (the model's choice, log entry 28). -/
def takeLinks (s : State) : State :=
  let t := updateLane .b (fun g => { g with link := s.pins.linkB })
             (updateLane .a (fun g => { g with link := s.pins.linkA }) s)
  (List.finRange 4).foldl (fun t p => updateBay p (fun b => { b with link := s.pins.bays[p] }) t) t

/-- R2, R5, R9, R11, R18, R19. INITIALISING completes. -/
def enterConfig (s : State) : State :=
  takeLinks
    { s with partState := .config
             nextClockUpdate := s.clock + 100
             mem := if s.softReset then s.mem else defaultMem
             result := if s.softReset then { echo := 4, code := some .done, detail := 0 } else s.result
             softReset := false }

/-- INITIALISING_COMPLETE (R11). -/
def execInitialisingComplete (s : State) : Host.Outcome State Fault Refusal :=
  if s.partState = .initialising then .next (enterConfig s) else .next s

/-! ## Settings (R15, R16, R171, R172) -/

/-- R171. The settings that INT obeys: those in force, with the interrupt disabled while the part is not RUNNING. -/
def State.lineSettings (s : State) : Settings :=
  if s.partState = .running then s.settings else { s.settings with intEnable := false }

/-- The settings come into force for every block that follows them at once. -/
def putInForce (new : Settings) (s : State) : State :=
  let t := takeSettings new s
  { t with journal := t.journal.follow s.lineSettings t.lineSettings }

/-! ## START (R15) -/

/-- R15. The settings words that START reads, in ascending order of address. -/
def settingsAddrs : List Nat :=
  List.range' 0x0043 20 ++ List.range' (contactBase 0) 32
    ++ (List.finRange 4).flatMap (fun n => List.range' (outputBase n) 3)

/-- R15 step 2. The records in the order START visits them. -/
def visitOrder : List ArmWord :=
  (List.finRange 32).map .publication ++ (List.finRange 64).map .subscription ++ (List.finRange 16).map .rule

/-- R15. START's work before its step 5, in its order. -/
def startPieces : List StartPiece :=
  settingsAddrs.map .read ++ [.settings] ++ visitOrder.map .visit ++ [.lanes, .started]

/-- R6, R15. An arm word handed to its owner. -/
def takeArm (w : ArmWord) (s : State) : State :=
  match w with
  | .subscription k => takeSubscription k s
  | .publication k => takePublication k s
  | .rule k => ruleClaim k s

/-- R173. How many records are armed. -/
def armedCount {α : Type} {n : Nat} (p : α → Bool) (v : Vector α n) : Word := BitVec.ofNat 16 (v.toList.countP p)

/-- R15 step 4, R173. -/
def startedClaim (s : State) : State :=
  claim { kind := .started, subject := .part, time := s.clock
          d1 := armedCount (fun p => p.state.armed) s.pubs
          d2 := armedCount (fun t => t.state == .armed) s.subs
          d3 := armedCount (fun r => r.state == .armed) s.rules } s

/-- R15 step 1, R101. The settings words as START has read them come into force; INT stays inactive until RUNNING (R171). -/
def takeStartSettings (read : List Host.Cell) (s : State) : State :=
  let new := readSettings read
  { putInForce new s with bayEpoch := new.bayEpoch, bareRoute := new.bareLane }

/-- R15. One piece of START's work, with `left` to do after it and the words `read` so far. A word out of range ends the work,
with the address of the first such word. -/
def doPiece (p : StartPiece) (left : List StartPiece) (read : List Host.Cell) (w : Working) (s : State) : State :=
  let goOn := fun read => { s with working := some { w with finish := .starting left read } }
  match p with
  | .read a => goOn (writeWord read a (readWord s.mem a))
  | .settings =>
    match badStart read with
    | some a =>
      { s with working := some { w with code := .badSetting, detail := BitVec.ofNat 16 a, finish := .nothing } }
    | none => takeStartSettings read (goOn read)
  | .visit arm => takeArm arm (goOn read)
  | .lanes => beginFiltering (releaseAtStart (goOn read))
  | .started => startedClaim (goOn read)

/-- R15. The next piece of the work of a START in progress. -/
def workOnce (s : State) : State :=
  match s.working with
  | some w => match w.finish with
    | .starting (p :: left) read => doPiece p left read w s
    | _ => s
  | none => s

/-- R15. The next `n` pieces. -/
def work : Nat → State → State
  | 0, s => s
  | n + 1, s => work n (workOnce s)

/-- R15. What the command in progress has left of START's work, if it is a START that has found nothing out of range. -/
def State.startLeft (s : State) : Option (List StartPiece) :=
  match s.working with
  | some w => match w.finish with
    | .starting left _ => some left
    | .nothing | .takeSettings _ => none
  | none => none

/-- R13, R15. A START in progress goes on by as many pieces as a free choice says (log entries 2 and 5). -/
def goOnStarting (s : State) : State :=
  match s.startLeft with
  | some _ => work (Config.startPace s.free) { s with free := s.free + 1 }
  | none => s

/-- R15 step 5, R105, R171, R172. The part enters RUNNING: the deadlines of START's arms begin, and INT, inactive until now, follows
the settings in force as at its enabling (log entry 41). -/
def enterRunning (s : State) : State :=
  { s with partState := .running
           table := mapAll (Option.map (Entry.startDeadline s.clock)) s.table
           journal := s.journal.follow { s.settings with intEnable := false } s.settings }

/-! ## Commands (R13, R14) -/

/-- R13. The command taken is WORKING; it will end with `code` and `detail`. -/
def working (echo : Word) (code : ResultCode) (detail : Word) (finish : Finish) (s : State) : State :=
  { s with working := some { echo := echo, code := code, detail := detail, finish := finish } }

/-- R14. A command that is not allowed in the part state. -/
def inRunning (echo : Word) (s : State) (run : State → State) : State :=
  if s.partState = .running then run s else working echo .wrongState 0 .nothing s

/-- R15. START begins its work. -/
def commandStart (s : State) : State :=
  if s.partState = .config then goOnStarting (working 1 .done 0 (.starting startPieces []) s)
  else working 1 .wrongState 0 .nothing s

/-- R16. -/
def commandApply (s : State) : State :=
  inRunning 2 s (fun s =>
    match startOnlyDiffers s.mem s.settings, badApply s.mem with
    | some a, _ => working 2 .startOnly (BitVec.ofNat 16 a) .nothing s
    | none, some a => working 2 .badSetting (BitVec.ofNat 16 a) .nothing s
    | none, none => working 2 .done 0 (.takeSettings (readSettings s.mem)) s)

/-- R17. Each group cleared in one update. -/
def clearGroups (s : State) : State :=
  let laneCleared (p : LanePort) : LanePort :=
    { p with group := { p.group.cleared with edition := p.group.edition + 2 } }
  { s with laneA := laneCleared s.laneA
           laneB := laneCleared s.laneB
           bayGroup := { edition := s.bayGroup.edition + 2, ports := mapAll BayBlock.cleared s.bayGroup.ports }
           counters := { s.counters.cleared with edition := s.counters.edition + 2 } }

/-- R17, R51. -/
def commandClearCounts (s : State) : State := working 3 .done 0 .nothing (clearNoted (clearGroups s))

/-- R18. The result group is written at the end of INITIALISING. -/
def commandSoftReset (s : State) : State := resetTo true s.mem s

/-- R14. A command whose argument names a lane. -/
def laneCommand (echo : Word) (run : Lane → State → State) (s : State) : State :=
  inRunning echo s (fun s =>
    match laneOf (readWord s.mem argumentWord) with
    | some l => working echo .done 0 .nothing (run l s)
    | none => working echo .badArgument 0 .nothing s)

/-- R94. -/
def commandLaneHold (s : State) : State := laneCommand 5 holdLane s

/-- R95. -/
def commandLaneRelease (s : State) : State := laneCommand 6 (fun l => releaseLane l .laneRelease) s

/-- Section 12.2. The output an argument names. -/
def outputOf (w : Word) : Option (Fin 4) := if within 1 4 w then some (Fin.ofNat 4 (w.toNat - 1)) else none

/-- R161. -/
def commandOutputDrive (s : State) : State :=
  inRunning 7 s (fun s =>
    match outputOf (readWord s.mem argumentWord) with
    | some n =>
      if s.settings.outputs[n].permitted then working 7 .done 0 .nothing (driveOutput n .outputDrive s)
      else working 7 .badArgument 0 .nothing s
    | none => working 7 .badArgument 0 .nothing s)

/-- R161. -/
def commandOutputRelease (s : State) : State :=
  inRunning 8 s (fun s =>
    match outputOf (readWord s.mem argumentWord) with
    | some n => working 8 .done 0 .nothing (releaseOutput n .outputRelease s)
    | none => working 8 .badArgument 0 .nothing s)

/-- R13, R14. The command word has been stored as `v`. -/
def takeCommand (v : Word) (s : State) : State :=
  match v.toNat with
  | 1 => commandStart s
  | 2 => commandApply s
  | 3 => commandClearCounts s
  | 4 => commandSoftReset s
  | 5 => commandLaneHold s
  | 6 => commandLaneRelease s
  | 7 => commandOutputDrive s
  | 8 => commandOutputRelease s
  | _ => working v .unknown 0 .nothing s

/-- R13, R15. What the completion of a command does beside its result; the arm writes held go to their owners at RUNNING. -/
def finishCommand (f : Finish) (s : State) : State :=
  match f with
  | .nothing => s
  | .starting _ _ => s.heldArms.foldl (fun s w => takeArm w s) { enterRunning s with heldArms := [] }
  | .takeSettings new => putInForce new s

/-- R13. The command in progress completes: its result written, the command state READY. -/
def complete (w : Working) (s : State) : State :=
  { finishCommand w.finish s with
      result := { echo := w.echo, code := some w.code, detail := w.detail }, working := none }

/-- R13. The command in progress, with nothing of START's work left, completes. -/
def completeCommand (s : State) : State :=
  let t := match s.startLeft with
    | some left => work left.length s
    | none => s
  match t.working with
  | some w => complete w t
  | none => t

/-- COMMAND_COMPLETION (R13). -/
def execCommandCompletion (s : State) : Host.Outcome State Fault Refusal := .next (completeCommand s)

/-! ## Host writes (R2 to R7) -/

/-- R4, R173. A host write refused. -/
def refuseWrite (a : Nat) (v : Word) (s : State) : State :=
  let first := s.counters.refused = 0
  let t := updateCounters (fun c =>
    { c with refused := satInc c.refused, firstRefused := if first then BitVec.ofNat 16 a else c.firstRefused }) s
  if first then
    claim { kind := .refusedWrite, subject := .part, time := s.clock, d1 := BitVec.ofNat 16 a, d2 := v
            d3 := stateWord s } t
  else t

/-- R6, R15. A stored arm word: acted on in RUNNING; in CONFIG held while a START that has visited the record is WORKING, and
otherwise left for START. -/
def armWritten (w : ArmWord) (s : State) : State :=
  if s.partState = .running then takeArm w s
  else
    match s.startLeft with
    | some left => if .visit w ∈ left then s else { s with heldArms := s.heldArms ++ [w] }
    | none => s

/-- R6, R7. What a host write stored at `a` does. -/
def written (a : Nat) (v : Word) (s : State) : State :=
  match place a with
  | .command => takeCommand v s
  | .journalTaken => { s with journal := s.journal.handWrite s.lineSettings v }
  | .publication k off => if off = 12 then armWritten (.publication k) s else watchedWrite k off s
  | .subscription k off => if off = 7 then armWritten (.subscription k) s else s
  | .rule k off => if off = 11 then armWritten (.rule k) s else s
  | _ => s

/-- R2 to R7. A host write of `v` to word `a`. -/
def hostWrite (a : Nat) (v : Word) (s : State) : State :=
  if s.partState = .initialising then s
  else
    match s.sideNow a with
    | .host => written a v { s with mem := writeWord s.mem a v }
    | .part | .nobody => refuseWrite a v s

/-- HOST_WRITE (R3 to R7). -/
def execHostWrite (a : Addr) (v : Word) (s : State) : Host.Outcome State Fault Refusal := .next (hostWrite a.toNat v s)

/-- START (R15). -/
def execStart (s : State) : Host.Outcome State Fault Refusal := .next (hostWrite commandWord 1 s)

/-- APPLY (R16). -/
def execApply (s : State) : Host.Outcome State Fault Refusal := .next (hostWrite commandWord 2 s)

/-- CLEAR_COUNTS (R17). -/
def execClearCounts (s : State) : Host.Outcome State Fault Refusal := .next (hostWrite commandWord 3 s)

/-- SOFT_RESET (R18). -/
def execSoftReset (s : State) : Host.Outcome State Fault Refusal := .next (hostWrite commandWord 4 s)

/-- LANE_HOLD (R94). -/
def execLaneHold (s : State) : Host.Outcome State Fault Refusal := .next (hostWrite commandWord 5 s)

/-- LANE_RELEASE (R95). -/
def execLaneRelease (s : State) : Host.Outcome State Fault Refusal := .next (hostWrite commandWord 6 s)

/-- OUTPUT_DRIVE (R161). -/
def execOutputDrive (s : State) : Host.Outcome State Fault Refusal := .next (hostWrite commandWord 7 s)

/-- OUTPUT_RELEASE (R161). -/
def execOutputRelease (s : State) : Host.Outcome State Fault Refusal := .next (hostWrite commandWord 8 s)

/-- UNKNOWN_COMMAND (R14). -/
def execUnknownCommand (v : Word) (s : State) : Host.Outcome State Fault Refusal := .next (hostWrite commandWord v s)

/-- JOURNAL_TAKEN_WRITE (R169). The Journal Writer takes the write behind the claims that wait for it (log entry 42). -/
def execJournalTakenWrite (t : Word) (s : State) : Host.Outcome State Fault Refusal := .next (hostWrite journalTakenWord t s)

/-- SUBSCRIPTION_ARM (R115). -/
def execSubscriptionArm (k : Fin 64) (v : Word) (s : State) : Host.Outcome State Fault Refusal :=
  .next (hostWrite (subBase k + 7) v s)

/-- PUBLICATION_ARM (R129). -/
def execPublicationArm (k : Fin 32) (v : Word) (s : State) : Host.Outcome State Fault Refusal :=
  .next (hostWrite (pubBase k + 12) v s)

/-- LINK_RULE_ARM (R162). -/
def execLinkRuleArm (k : Fin 16) (v : Word) (s : State) : Host.Outcome State Fault Refusal :=
  .next (hostWrite (ruleBase k + 11) v s)

/-- EDITION_WRITE (R133). -/
def execEditionWrite (k : Fin 32) (v : Word) (s : State) : Host.Outcome State Fault Refusal :=
  .next (hostWrite (pubBase k + 11) v s)

/-! ## The clock (R9) -/

/-- R9. The clock group shows the clock at this moment. -/
def updateClockGroup (s : State) : State :=
  { s with clockGroup := { edition := s.clockGroup.edition + 2, clock := s.clock, seconds := s.seconds }
           nextClockUpdate := s.nextClockUpdate + 100 }

/-- CLOCK_GROUP_UPDATE (R9). -/
def execClockGroupUpdate (s : State) : Host.Outcome State Fault Refusal :=
  if s.partState ≠ .initialising && reached s.clock s.nextClockUpdate then .next (updateClockGroup s) else .next s

/-- R9, R55, R158. A seconds tick. -/
def secondsTicks (s : State) : State :=
  ageEntries (countBlocks { s with seconds := s.seconds + 1, nextTick := s.nextTick + 1000000 })

/-- SECONDS_TICK (R9). The removals of the last tick are made first (log entry 3). -/
def execSecondsTick (s : State) : Host.Outcome State Fault Refusal :=
  if reached s.clock s.nextTick && s.ageingDue.isEmpty then .next (secondsTicks s) else .next s

/-! ## The Journal Writer (R168, R172) -/

/-- JOURNAL_CLAIM (R168, R170), with the writes of the journal taken word that stand next behind the claim (R169). -/
def execJournalClaim (s : State) : Host.Outcome State Fault Refusal :=
  match s.journal.claims with
  | c :: rest => .next { s with journal := s.journal.takeHead s.lineSettings s.clock c rest }
  | [] => .next s

/-- INT_PULSE_END (R172). -/
def execIntPulseEnd (s : State) : Host.Outcome State Fault Refusal :=
  match s.journal.pulseEnds with
  | some t => if reached s.clock t then .next { s with journal := { s.journal with int := false, pulseEnds := none } } else .next s
  | none => .next s

end Sys2Proof.Machine
end

