-- ==== Sys2Proof/Machine/Engine.lean ====
section
/-! DEFINITION. The Stream Engine's arrivals: the choice among the queues (R38), the judgement of a copy (chapters 3 and 4), its
acceptance (R70, R76) and what it does to freshness (R103 to R111). -/

namespace Sys2Proof.Machine

/-! ## The window (R63 to R69) -/

/-- R63. The mark of a copy on lane `l`. -/
def Mark.ofLane : Lane → Mark
  | .a => .a
  | .b => .b

/-- R63. A window begun at a copy. -/
def Window.start (seq : Word) (epoch : Byte) (l : Lane) : Window :=
  { high := seq, epoch := epoch, marks := (Vector.replicate 32 Mark.empty).set 0 (Mark.ofLane l) }

/-- R68. The window moved forward by `d` to a copy on lane `l`. -/
def Window.forward (w : Window) (seq : Word) (d : Nat) (l : Lane) : Window :=
  { w with high := seq
           marks := build 32 (fun i =>
             if i.val = 0 then Mark.ofLane l else if d ≤ i.val then w.marks[i.val - d]?.getD .empty else .empty) }

/-- R69. The judgement at a position by its mark, and the mark afterwards. -/
def judgeMark (mark : Mark) (l : Lane) : Judgement × Mark :=
  match mark, l with
  | .empty, l => (.firstFilled, Mark.ofLane l)
  | .a, .b | .b, .a => (.twin, .both)
  | .a, .a => (.repeated, .a)
  | .b, .b => (.repeated, .b)
  | .both, _ => (.repeated, .both)

/-- R67 to R69. A copy of the window's epoch judged by its sequence. -/
def Window.judgeSeq (w : Window) (seq : Word) (l : Lane) : Judgement × Window :=
  let d := (seq - w.high).toNat
  let back := (w.high - seq).toNat
  if d = 0 || 32768 ≤ d then
    if h : back < 32 then
      let (j, m) := judgeMark (w.marks[back]) l
      (j, { w with marks := w.marks.set back m })
    else (.late, w)
  else (.firstAhead, w.forward seq d l)

/-- R64 to R69. A lane copy judged against the window, and the window afterwards. -/
def judge (w : Option Window) (epoch : Byte) (seq : Word) (l : Lane) : Judgement × Option Window :=
  match w with
  | none => (.firstFromEmpty, some (Window.start seq epoch l))
  | some w =>
    let f := (epoch - w.epoch).toNat
    if f = 0 then
      let (j, w') := w.judgeSeq seq l
      (j, some w')
    else if f ≤ 127 then (.firstNewEpoch w.epoch, some (Window.start seq epoch l))
    else (.oldEpoch, some w)

/-- R70. The judgement is FIRST. -/
def Judgement.isFirst : Judgement → Bool
  | .firstFromEmpty | .firstNewEpoch _ | .firstAhead | .firstFilled => true
  | .twin | .repeated | .late | .oldEpoch => false

/-- R111. The copy begins the window. -/
def Judgement.begins : Judgement → Bool
  | .firstFromEmpty | .firstNewEpoch _ => true
  | .firstAhead | .firstFilled | .twin | .repeated | .late | .oldEpoch => false

/-! ## Freshness of an accepted copy (R103, R104, R109 to R111) -/

/-- R109. An accepted copy freshens the stream. -/
def Entry.freshens (e : Entry) : Bool :=
  match e.fresh with
  | none | some .awaiting | some .stale => true
  | some .fresh | some .unsupervised => false

/-- R111. The longest observed interval after an accepted copy. -/
def Entry.longestAfter (e : Entry) (time : Clock) (begins : Bool) : Option Long :=
  match e.lastAccept with
  | none => e.longest
  | some last =>
    if decide (e.age.toNat ≤ 599) && !e.freshens && !begins then
      match e.longest with
      | none => some (time - last)
      | some x => if x.toNat < (time - last).toNat then some (time - last) else some x
    else e.longest

/-- R55, R70, R76, R103, R104, R111. An entry that has accepted copy `a`. -/
def Entry.accepted (e : Entry) (a : Arrival) (begins : Bool) (margin : Word) : Entry :=
  let h := a.header.hold
  { e with firsts := satInc e.firsts
           cls := some a.header.cls
           longest := e.longestAfter a.time begins
           lastAccept := some a.time
           age := 0
           hold := h
           fresh := some (if h = 0 then .unsupervised else .fresh)
           deadline := if h = 0 then .none else .at (a.time + millis h + millis margin) h margin }

/-- R109, R110. The STREAM-FRESH claim of a copy that freshens entry `e`, if one is due. -/
def freshClaim (e : Entry) (a : Arrival) (s : State) : State :=
  if e.freshens && (e.configured || s.settings.journalLearned) then
    let entered : Freshness := if a.header.hold = 0 then .unsupervised else .fresh
    claim { kind := .streamFresh, subject := .stream e.id, time := a.time
            d1 := (freshnessCode e.fresh <<< 8) ||| freshnessCode (some entered), d2 := a.header.hold
            d3 := portWord a.port } s
  else s

/-- R120. An accepted copy as Delivery takes it, under the sequence and epoch it goes by. -/
def Arrival.copy (a : Arrival) (seq : Word) (epoch : Byte) : Copy :=
  { id := a.header.id, seq := seq, epoch := epoch, port := a.port, time := a.time, cls := a.header.cls
    test := a.header.test, hold := a.header.hold, repeatNo := a.header.repeatNo, length := a.header.length
    content := contentOf a }

/-- R70 step 4, R76. A copy handed to Delivery if the entry has a subscription slot. -/
def deliver (e : Entry) (c : Copy) (s : State) : State :=
  match e.slot with
  | some k => handCopy k c s
  | none => s

/-! ## FIRST (R65, R70) -/

/-- R65. What a newer epoch does before its copy is handed on. -/
def changeEpoch (e : Entry) (old : Byte) (a : Arrival) (l : Lane) (s : State) : State :=
  claim { kind := .epochChange, subject := .stream e.id, time := a.time, d1 := old.setWidth 16
          d2 := a.header.epoch.setWidth 16, d3 := laneWord l }
    (handTwin (.abandon e.id e.serial)
      (updateCounters (fun c => { c with epochChanges := c.epochChanges + 1 }) s))

/-- R79. The watch request of a FIRST, if the class divisor chooses it. -/
def askWatch (e : Entry) (a : Arrival) (seq : Word) (l : Lane) (s : State) : State :=
  if seq.toNat % (s.settings.divisor a.header.cls).toNat = 0 then handTwin (.watch e.id e.serial seq l a.time) s else s

/-- R60. A stream copy for the bay, without its twin sequence. -/
def relayRecord (a : Arrival) : TxRecord :=
  { frame := a.frame, stream := true, trip := a.header.cls == .trip, seq := none }

/-- R70. A FIRST of the entry at `p`, whose window is then `w`. -/
def acceptFirst (p : Fin 512) (e : Entry) (j : Judgement) (w : Option Window) (a : Arrival) (seq : Word) (l : Lane)
    (s : State) : State :=
  let now := (s.lane l).cycle
  let (r, fall) := (e.record l).credited now
  let e' := ({ e.accepted a j.begins s.settings.freshMargin with window := w }).setRecord l r
  let s1 := match j with | .firstNewEpoch old => changeEpoch e old a l s | _ => s
  let s2 := freshClaim e a (s1.putEntry p (some e'))
  let s3 := if fall then handLone { rise := false, lane := l, cycle := now } s2 else s2
  let s4 := deliver e' (a.copy seq a.header.epoch) (offer (.streamCopy e.id (contentOf a)) s3)
  askWatch e a seq l (offerBays (s4.settings.resolve e.forward) (relayRecord a) s4)

/-- R64 to R73. A lane copy judged against the window of the REMOTE entry at `p`. -/
def judgeRemote (p : Fin 512) (e : Entry) (a : Arrival) (seq : Word) (l : Lane) (s : State) : State :=
  let (j, w) := judge e.window a.header.epoch seq l
  if j.isFirst then acceptFirst p e j w a seq l s
  else
    match j with
    | .twin =>
      handTwin (.twin e.id e.serial seq l a.time)
        (s.putEntry p (some { e with window := w, twins := satInc e.twins }))
    | .repeated => updateCounters (·.addRepeat l) (s.putEntry p (some { e with repeats := satInc e.repeats }))
    | _ => s.putEntry p (some { e with late := satInc e.late })

/-! ## Bay copies (R61, R76) -/

/-- R76. The lane copy of a bay copy under the stamped epoch and sequence. -/
def stampedRecord (a : Arrival) (epoch : Byte) (seq : Word) : TxRecord :=
  { frame := stampEpoch a.frame epoch, stream := true, trip := a.header.cls == .trip, seq := some seq }

/-- R61. The bay ports of a set other than `p`. -/
def without (set : PortSet) (p : Fin 4) : PortSet := set &&& ~~~(BitVec.twoPow 4 p.val)

/-- R76. A bay copy on port `q` accepted for the LOCAL-BAY entry at `p`: stamped, sent on both lanes and in the bay, offered
to the rules and delivered. -/
def acceptBay (p : Fin 512) (e : Entry) (a : Arrival) (q : Fin 4) (s : State) : State :=
  let n := e.sendNext
  let e' := { e.accepted a false s.settings.freshMargin with sendNext := n + 1 }
  let s1 := freshClaim e a (s.putEntry p (some e'))
  let s2 := offerLane .b (stampedRecord a e.sendEpoch n) (offerLane .a (stampedRecord a e.sendEpoch n) s1)
  let s3 := offerBays (without (s2.settings.resolve e.forward) q) (relayRecord a) s2
  deliver e' (a.copy n e.sendEpoch) (offer (.streamCopy e.id (contentOf a)) s3)

/-! ## Copies out of place (R47, R49 to R51) -/

/-- R51. The details of an ECHO-SEEN or ORIGIN-CLASH-SEEN claim. -/
def seenClaim (kind : JournalKind) (id : Word) (a : Arrival) : JournalClaim :=
  { kind := kind, subject := .stream id, time := a.time, d1 := portWord a.port, d2 := a.seq.getD 0
    d3 := a.header.epoch.setWidth 16 }

/-- R49, R51. A copy judged ECHO. -/
def echo (p : Fin 512) (e : Entry) (a : Arrival) (s : State) : State :=
  let t := countEngine .echo a.time s
  if e.echoNoted then t
  else claim (seenClaim .echoSeen e.id a) (t.putEntry p (some { e with echoNoted := true }))

/-- R49 to R51. A copy judged ORIGIN-CLASH. -/
def clash (p : Fin 512) (e : Entry) (a : Arrival) (s : State) : State :=
  let t := countEngine .originClash a.time s
  if e.clashNoted then t
  else claim (seenClaim .originClashSeen e.id a) (t.putEntry p (some { e with clashNoted := true }))

/-- R49. The epoch and next twin sequence a returning copy is compared with. -/
def State.sendState (s : State) (e : Entry) : Byte × Word :=
  match e.origin with
  | .localHost k => (s.pubs[k].epoch, s.pubs[k].nextSeq)
  | .remote | .localBay _ => (e.sendEpoch, e.sendNext)

/-- R49. The copy is one of the last 64 messages the part has sent under this epoch. -/
def isEcho (sent : Byte × Word) (epoch : Byte) (seq : Word) : Bool :=
  epoch == sent.1 && decide (1 ≤ (sent.2 - seq).toNat) && decide ((sent.2 - seq).toNat ≤ 64)

/-- R47. An UNPLACED copy. -/
def unplaced (a : Arrival) (s : State) : State :=
  let t := countEngine .unplaced a.time s
  match a.port with
  | .lane l => if l = t.bareRoute then offerBays t.settings.defaultForward (relayRecord a) t else t
  | .bay _ => offerLane t.bareRoute { frame := a.frame, stream := false, trip := false, seq := none } t

/-! ## Judgement by lookup (R44 to R46, R50) -/

/-- R44, R45. A lane copy. -/
def takeLaneCopy (a : Arrival) (l : Lane) (s : State) : State :=
  let seq := a.seq.getD 0
  match s.lookup a.header.id with
  | some (p, e) =>
    if e.origin = .remote then judgeRemote p e a seq l s
    else if isEcho (s.sendState e) a.header.epoch seq then echo p e a s
    else clash p e a s
  | none =>
    match s.freePosition with
    | some p =>
      let e := { s.blankEntry a.header.id .remote with cls := some a.header.cls, serial := s.serial + 1 }
      judgeRemote p e a seq l (makeEntry p e s)
    | none => unplaced a s

/-- R44, R46. A bay copy on port `q`. -/
def takeBayCopy (a : Arrival) (q : Fin 4) (s : State) : State :=
  match s.lookup a.header.id with
  | some (p, e) => if e.origin = .localBay q then acceptBay p e a q s else clash p e a s
  | none =>
    match s.freePosition with
    | some p =>
      let e := { s.blankEntry a.header.id (.localBay q) with
                 cls := some a.header.cls, sendEpoch := s.bayEpoch, serial := s.serial + 1 }
      acceptBay p e a q { makeEntry p e s with bayEpoch := s.bayEpoch + 1 }
    | none => unplaced a s

/-- R39, R44. The record taken, judged. -/
def takeArrival (a : Arrival) (s : State) : State :=
  match a.port with
  | .lane l => takeLaneCopy a l s
  | .bay q => takeBayCopy a q s

/-! ## The choice (R38) -/

/-- R38. The ports in the cycle's order, from the one after `last`. -/
def cycleAfter (last : Port) : List Port :=
  let cycle : List Port := [.lane .a, .lane .b, .bay 0, .bay 1, .bay 2, .bay 3]
  (cycle.dropWhile (· != last)).tail ++ cycle.takeWhile (· != last) ++ [last]

/-- The arrival queue of a port. -/
def State.arrivals (s : State) : Port → List Arrival
  | .lane l => (s.lane l).arrivals
  | .bay p => s.bays[p].arrivals

/-- R38. The queue chosen. -/
def chosenPort (s : State) : Option Port :=
  let ports := cycleAfter s.lastServed
  match ports.find? (fun p => ((s.arrivals p).head?.map (fun a => a.header.cls == .trip)).getD false) with
  | some p => some p
  | none => ports.find? (fun p => !(s.arrivals p).isEmpty)

/-- R35, R38. The head record leaves its queue, and the pointer names the port. -/
def popArrival (p : Port) (s : State) : State :=
  match p with
  | .lane l => ({ s with lastServed := p }).modifyLane l (fun x => { x with arrivals := x.arrivals.tail })
  | .bay q => ({ s with lastServed := p }).modifyBay q (fun x => { x with arrivals := x.arrivals.tail })

/-- An entry's freshness deadline has been left behind by the part clock. -/
def Entry.isOverdue (now : Clock) (e : Entry) : Bool :=
  match e.deadline with
  | .at time _ _ => overdue now time
  | .none | .fromRunning _ => false

/-- R12, R38. The engine is ready to take an arrival: in RUNNING, and with no claim that has reached it before (log
entry 3). -/
def engineReady (s : State) : Bool :=
  s.partState = .running && s.ageingDue.isEmpty && s.reports.isEmpty && s.laneNotices.isEmpty
    && !overdue s.clock s.nextTick
    && !(s.table.toList.any (fun e => match e with | some e => e.isOverdue s.clock | none => false))

/-- R45, R46, R70, R76. The copy will be accepted: FIRST of a REMOTE stream, the bay copy of its port's stream, or the copy
that makes an entry. -/
def State.accepts (s : State) (a : Arrival) : Bool :=
  match s.lookup a.header.id with
  | some (_, e) =>
    match a.port with
    | .lane l => e.origin == .remote && (judge e.window a.header.epoch (a.seq.getD 0) l).1.isFirst
    | .bay q => e.origin == .localBay q
  | none => s.freePosition.isSome

/-- R108. Arrival `a` judged; if it is accepted with a deadline that is already reached, the expiry is taken at once after its
hand-ons. -/
def judgeArrival (a : Arrival) (s : State) : State :=
  let t := asEngineClaim (takeArrival a) s
  if s.accepts a then expireFreshness a.header.id t else t

/-- R38. The engine takes an arrival record. -/
def arrivalTaken (s : State) : State :=
  if engineReady s then
    match chosenPort s with
    | some p =>
      match s.arrivals p with
      | a :: _ => judgeArrival a (popArrival p s)
      | [] => s
    | none => s
  else s

/-- ARRIVAL_TAKEN (R38). -/
def execArrivalTaken (s : State) : Host.Outcome State Fault Refusal := .next (arrivalTaken s)

end Sys2Proof.Machine
end

