-- ==== Sys2Proof/Machine/TwinWatch.lean ====
section
/-! DEFINITION. Twin Watch (sections 5.1 and 5.2): its list, its miss notes, and the claims it takes. -/

namespace Sys2Proof.Machine

/-- A watch entry for this message (R83). -/
def WatchEntry.isFor (id serial seq : Word) (w : WatchEntry) : Bool := w.id == id && w.serial == serial && w.seq == seq

/-- A miss note for this message (R83). -/
def MissNote.isFor (id serial seq : Word) (n : MissNote) : Bool := n.id == id && n.serial == serial && n.seq == seq

/-- R78. A new entry stands after every entry whose deadline is at or before its own. -/
def insertWatch (w : WatchEntry) (list : List WatchEntry) : List WatchEntry :=
  list.takeWhile (fun v => reached w.deadline v.deadline) ++ [w] ++ list.dropWhile (fun v => reached w.deadline v.deadline)

/-- The watch list replaced, with the counts of the counters group it shows (R78) and what else the claim counts, in one
update. -/
def setWatch (list : List WatchEntry) (also : Counters → Counters) (s : State) : State :=
  updateCounters (fun c => (also c).noteWatch list.length) { s with watchList := list }

/-- R80. The entry a request makes. -/
def watchFor (id serial seq : Word) (lane : Lane) (time : Clock) (s : State) : WatchEntry :=
  { id := id, serial := serial, seq := seq, absent := lane.other, cycle := (s.lane lane.other).cycle, first := time
    deadline := time + tenthMillis s.settings.twinWait }

/-- R80. A watch request judged. A stream and sequence already on the list get no second entry (R78, log entry 12). -/
def watchAsked (id serial seq : Word) (lane : Lane) (time : Clock) (s : State) : State :=
  if !(s.lane lane.other).group.state.carries then s
  else if Config.watchRoom ≤ s.watchList.length then
    updateCounters (fun c => { c with unwatched := c.unwatched + 1 }) s
  else if s.watchList.any (fun w => w.id == id && w.seq == seq) then s
  else
    setWatch (insertWatch (watchFor id serial seq lane time s) s.watchList) (fun c => c)
      { s with missNotes := s.missNotes.filter (fun n => !n.isFor id serial seq) }

/-- WATCH_REQUEST (R80). -/
def execWatchRequest (s : State) : Host.Outcome State Fault Refusal :=
  match s.twinClaims with
  | .watch id serial seq lane time :: rest => .next (watchAsked id serial seq lane time { s with twinClaims := rest })
  | _ => .next s

/-- R82. A note joins at the tail; of 64 the oldest gives way. -/
def addNote (n : MissNote) (notes : List MissNote) : List MissNote :=
  (if Config.missRoom ≤ notes.length then notes.tail else notes) ++ [n]

/-- R81. The watch entry at the head expires. -/
def watchExpired (w : WatchEntry) (rest : List WatchEntry) (s : State) : State :=
  setWatch rest (·.addMiss w.absent)
    { s with missNotes := addNote { id := w.id, serial := w.serial, seq := w.seq, absent := w.absent } s.missNotes
             reports := s.reports ++ [.miss w.id w.serial w.absent w.cycle] }

/-- WATCH_EXPIRY (R81). -/
def execWatchExpiry (s : State) : Host.Outcome State Fault Refusal :=
  match s.watchList with
  | w :: rest => if reached s.clock w.deadline then .next (watchExpired w rest s) else .next s
  | [] => .next s

/-- R83. A twin judged: on time, late, or unwatched. -/
def twinJudged (id serial seq : Word) (lane : Lane) (time : Clock) (s : State) : State :=
  let credit := fun (s : State) => { s with reports := s.reports ++ [.credit id serial lane] }
  match s.watchList.find? (·.isFor id serial seq) with
  | some w => credit (setWatch (s.watchList.filter (fun v => !v.isFor id serial seq)) (·.noteDelay lane (time - w.first)) s)
  | none =>
    if s.missNotes.any (·.isFor id serial seq) then
      updateCounters (·.addLateTwin lane) { s with missNotes := s.missNotes.filter (fun n => !n.isFor id serial seq) }
    else credit s

/-- TWIN_TAKEN (R83). -/
def execTwinTaken (s : State) : Host.Outcome State Fault Refusal :=
  match s.twinClaims with
  | .twin id serial seq lane time :: rest => .next (twinJudged id serial seq lane time { s with twinClaims := rest })
  | _ => .next s

/-- R84, R96. The watch entries chosen are removed, each counted as abandoned, without a miss; and the notes chosen. -/
def dropWatches (entry : WatchEntry → Bool) (note : MissNote → Bool) (s : State) : State :=
  setWatch (s.watchList.filter (fun w => !entry w))
    (fun c => { c with abandoned := c.abandoned + BitVec.ofNat 32 (s.watchList.filter entry).length })
    { s with missNotes := s.missNotes.filter (fun n => !note n) }

/-- R84. The watch entries and notes of a stream table entry are abandoned. -/
def abandonStream (id serial : Word) (s : State) : State :=
  dropWatches (fun w => w.id == id && w.serial == serial) (fun n => n.id == id && n.serial == serial) s

/-- ABANDON (R84). -/
def execAbandon (s : State) : Host.Outcome State Fault Refusal :=
  match s.twinClaims with
  | .abandon id serial :: rest => .next (abandonStream id serial { s with twinClaims := rest })
  | _ => .next s

/-- R96. A lane that has left service is cleaned up. -/
def cleanLane (l : Lane) (s : State) : State := dropWatches (·.absent == l) (·.absent == l) s

/-- LANE_CLEANUP (R96). -/
def execLaneCleanup (s : State) : Host.Outcome State Fault Refusal :=
  match s.cleanups with
  | l :: rest => .next (cleanLane l { s with cleanups := rest })
  | [] => .next s

end Sys2Proof.Machine
end

