-- ==== Sys2Proof/Machine/Dispatch.lean ====
section
/-! DEFINITION. The meaning of each command: one arm for each constructor of Instr. -/

namespace Sys2Proof.Machine

def exec (i : Instr) (s : State) : Host.Outcome State Fault Refusal :=
  match i with
  | .hardwareReset => Sys2Proof.Machine.execHardwareReset s
  | .initialisingComplete => Sys2Proof.Machine.execInitialisingComplete s
  | .hostWrite a v => Sys2Proof.Machine.execHostWrite a v s
  | .start => Sys2Proof.Machine.execStart s
  | .apply => Sys2Proof.Machine.execApply s
  | .clearCounts => Sys2Proof.Machine.execClearCounts s
  | .softReset => Sys2Proof.Machine.execSoftReset s
  | .laneHold => Sys2Proof.Machine.execLaneHold s
  | .laneRelease => Sys2Proof.Machine.execLaneRelease s
  | .outputDrive => Sys2Proof.Machine.execOutputDrive s
  | .outputRelease => Sys2Proof.Machine.execOutputRelease s
  | .unknownCommand v => Sys2Proof.Machine.execUnknownCommand v s
  | .commandCompletion => Sys2Proof.Machine.execCommandCompletion s
  | .journalTakenWrite t => Sys2Proof.Machine.execJournalTakenWrite t s
  | .subscriptionArm k v => Sys2Proof.Machine.execSubscriptionArm k v s
  | .publicationArm k v => Sys2Proof.Machine.execPublicationArm k v s
  | .linkRuleArm k v => Sys2Proof.Machine.execLinkRuleArm k v s
  | .editionWrite k v => Sys2Proof.Machine.execEditionWrite k v s
  | .takeComplete => Sys2Proof.Machine.execTakeComplete s
  | .calendarSend => Sys2Proof.Machine.execCalendarSend s
  | .refreshExpiry k => Sys2Proof.Machine.execRefreshExpiry k s
  | .clockGroupUpdate => Sys2Proof.Machine.execClockGroupUpdate s
  | .secondsTick => Sys2Proof.Machine.execSecondsTick s
  | .ageingExpiry p => Sys2Proof.Machine.execAgeingExpiry p s
  | .laneFrameReceived l f => Sys2Proof.Machine.execLaneFrameReceived l f s
  | .bayFrameReceived p f => Sys2Proof.Machine.execBayFrameReceived p f s
  | .laneLinkUp l => Sys2Proof.Machine.execLaneLinkUp l s
  | .laneLinkDown l cut => Sys2Proof.Machine.execLaneLinkDown l cut s
  | .bayLinkUp p => Sys2Proof.Machine.execBayLinkUp p s
  | .bayLinkDown p cut => Sys2Proof.Machine.execBayLinkDown p cut s
  | .laneTransmitEnd l => Sys2Proof.Machine.execLaneTransmitEnd l s
  | .bayTransmitEnd p => Sys2Proof.Machine.execBayTransmitEnd p s
  | .arrivalTaken => Sys2Proof.Machine.execArrivalTaken s
  | .deliveryComplete k => Sys2Proof.Machine.execDeliveryComplete k s
  | .watchRequest => Sys2Proof.Machine.execWatchRequest s
  | .twinTaken => Sys2Proof.Machine.execTwinTaken s
  | .abandon => Sys2Proof.Machine.execAbandon s
  | .laneCleanup => Sys2Proof.Machine.execLaneCleanup s
  | .watchExpiry => Sys2Proof.Machine.execWatchExpiry s
  | .missReport => Sys2Proof.Machine.execMissReport s
  | .creditReport => Sys2Proof.Machine.execCreditReport s
  | .laneNotice => Sys2Proof.Machine.execLaneNotice s
  | .loneCountRise => Sys2Proof.Machine.execLoneCountRise s
  | .loneCountFall => Sys2Proof.Machine.execLoneCountFall s
  | .provingTimerExpiry l => Sys2Proof.Machine.execProvingTimerExpiry l s
  | .freshnessExpiry id => Sys2Proof.Machine.execFreshnessExpiry id s
  | .eventOffer => Sys2Proof.Machine.execEventOffer s
  | .pulseExpiry n => Sys2Proof.Machine.execPulseExpiry n s
  | .rawChange n => Sys2Proof.Machine.execRawChange n s
  | .filterTimerExpiry n => Sys2Proof.Machine.execFilterTimerExpiry n s
  | .blockCountExpiry n => Sys2Proof.Machine.execBlockCountExpiry n s
  | .unblock n => Sys2Proof.Machine.execUnblock n s
  | .journalClaim => Sys2Proof.Machine.execJournalClaim s
  | .intPulseEnd => Sys2Proof.Machine.execIntPulseEnd s

end Sys2Proof.Machine
end

