-- ==== Sys2Proof/Machine/Step.lean ====
section
/-! DEFINITION. One step: the command at the front of the queue, or one microsecond of the part clock when none waits. -/

namespace Sys2Proof.Machine

/-- R9, R13. One microsecond passes (log entry 3), in which a START in progress goes on. -/
def tick (s : State) : State := goOnStarting { s with clock := s.clock + 1 }

/-- The command at the front of the queue is taken; on an empty queue the part clock advances. -/
def step (s : State) : Host.Outcome State Fault Refusal :=
  match s.pending with
  | c :: rest => exec c { s with pending := rest }
  | [] => .next (tick s)

/-- The command that a word spells put at the front of the queue. The table gives no row any bits, so no word spells one. -/
def State.withFetchWord (s : State) (nbits w : Nat) : State :=
  match decodeTableWord nbits w with
  | some c => { s with pending := c :: s.pending }
  | none => s

end Sys2Proof.Machine
end

