-- ==== Sys2Proof/Safety.lean ====
section
/-! DEFINITION. What counts as a sound state of the part, in the terms the claims use; what the host-written fields may hold and what is
read from them (R175); what the check sequences of a frame are (R23, R26). -/

namespace Sys2Proof.Machine

/-- No command is refused and none faults: the step answers a next state. -/
def Runs (s : State) : Prop := ∃ t, step s = .next t

/-- R168. At most 128 journal entries are written and not yet taken. -/
def Journal.bounded (j : Journal) : Prop := j.outstanding ≤ 128

/-- R171, R172. The INT line: inactive while the part is not RUNNING or the interrupt in force is off, asserted in LEVEL mode exactly
while an entry is outstanding, and in PULSE mode exactly while a pulse is being given. -/
def InterruptSound (s : State) : Prop :=
  s.journal.int =
      (if s.partState = .running ∧ s.settings.intEnable = true then
        if s.settings.intPulse then s.journal.pulseEnds.isSome else decide (0 < s.journal.outstanding)
      else false)
    ∧ (¬(s.partState = .running ∧ s.settings.intEnable = true ∧ s.settings.intPulse = true) → s.journal.pulseEnds = none)

/-- R160, R161. An output is DRIVEN only in RUNNING, and only if the settings in force permit it. -/
def OutputsSafe (s : State) : Prop :=
  ∀ n : Fin 4, s.outputs[n].driven = true → s.partState = .running ∧ s.settings.outputs[n].permitted = true

/-- R35, R78, R82, R144. No queue of the six ports, and no list of Twin Watch, holds more than its room. -/
def QueuesBounded (s : State) : Prop :=
  (∀ l : Lane, (s.lane l).arrivals.length ≤ Config.arrivalRoom ∧ (s.lane l).urgent.length ≤ Config.urgentRoom
      ∧ (s.lane l).normal.length ≤ Config.normalRoom)
    ∧ (∀ p : Fin 4, s.bays[p].arrivals.length ≤ Config.arrivalRoom ∧ s.bays[p].queue.length ≤ Config.bayRoom)
    ∧ s.watchList.length ≤ Config.watchRoom ∧ s.missNotes.length ≤ Config.missRoom

/-- R42, R52, R54. No two positions of the stream table hold one stream, one subscription slot, or the LOCAL-HOST entry of one
publication slot; and a slot that an entry names is armed. -/
def TableSound (s : State) : Prop :=
  ∀ (p : Fin 512) (e : Entry), s.table[p] = some e →
    (∀ k : Fin 64, e.slot = some k → s.subs[k].state = .armed)
    ∧ (∀ k : Fin 32, e.origin = .localHost k → s.pubs[k].state.armed = true)
    ∧ ∀ (q : Fin 512) (f : Entry), s.table[q] = some f →
      (e.id = f.id ∨ (e.slot ≠ none ∧ e.slot = f.slot) ∨ ∃ k, e.origin = .localHost k ∧ f.origin = .localHost k) → p = q

/-- R78. No two entries of the watch list expect the twin of one message. -/
def WatchesUnique (s : State) : Prop := s.watchList.Pairwise (fun v w => ¬(v.id = w.id ∧ v.seq = w.seq))

/-- R89. The lone count of lane `l`, once the rises and falls of its present cycle that wait are taken, is the number of entries whose
record for the lane reads as LONE. -/
def LoneCountSound (l : Lane) (s : State) : Prop :=
  ((s.loneChanges.filter (fun c => c.lane = l && c.cycle = (s.lane l).cycle)).foldl (fun g c => g.loneChanged c.rise)
      (s.lane l).group).lone
    = BitVec.ofNat 16 (s.table.toList.countP (fun e => match e with
      | some e => ((e.record l).reads (s.lane l).cycle).1
      | none => false))

/-- The word is even. -/
def isEven (w : Word) : Bool := !w.getLsbD 0

/-- R8, R119. The edition word of every edition-guarded group is even; a subscription slot's is odd while a delivery to it is in
progress. -/
def EditionsEven (s : State) : Prop :=
  (∀ l : Lane, isEven (s.lane l).group.edition = true) ∧ isEven s.bayGroup.edition = true
    ∧ isEven s.contactEdition = true ∧ isEven s.clockGroup.edition = true ∧ isEven s.counters.edition = true
    ∧ ∀ k : Fin 64, isEven s.subs[k].status.edition = !s.subs[k].inProgress.isSome

/-- Section 8.2. The publication is in BURST or STEADY. -/
def PubState.scheduled : PubState → Bool
  | .burst | .steady => true
  | .disarmed | .refused | .armedIdle | .expired => false

/-- R133, R134, R141, R142. The post set holds each slot at most once, in the group of its class, and only armed slots; it is
empty while no take is in progress, and a take is of an armed slot; the send calendar holds one entry for each publication in BURST or
STEADY and none for another; a slot has its arm-time fields exactly while it is armed, and a refresh deadline only in BURST or
STEADY. -/
def SchedulerSound (s : State) : Prop :=
  (s.postTrip ++ s.postOther).Pairwise (fun p q => p.slot ≠ q.slot)
    ∧ (∀ p ∈ s.postTrip, s.pubs[p.slot].config.map (·.cls) = some .trip)
    ∧ (∀ p ∈ s.postOther, ∃ c, s.pubs[p.slot].config = some c ∧ c.cls ≠ .trip)
    ∧ (s.take = none → s.postTrip = [] ∧ s.postOther = [])
    ∧ (∀ t, s.take = some t → s.pubs[t.slot].state.armed = true)
    ∧ s.calendar.Pairwise (fun c d => c.slot ≠ d.slot)
    ∧ ∀ k : Fin 32, (s.pubs[k].state.scheduled = true ↔ ∃ c ∈ s.calendar, c.slot = k)
      ∧ s.pubs[k].config.isSome = s.pubs[k].state.armed
      ∧ (s.pubs[k].refreshAt.isSome = true → s.pubs[k].state.scheduled = true)

/-- R1. The host reads the words `ws` at word address `a` and the addresses after it. -/
def ReadsFrom (s : State) (a : Nat) (ws : List Word) : Prop :=
  ∀ (i : Nat) (h : i < ws.length), hostRead s (BitVec.ofNat 15 (a + i)) = ws[i]

/-- R38. The place of a port in the cycle, from 0 for Lane A to 5 for bay port 4. -/
def Port.number : Port → Nat
  | .lane .a => 0
  | .lane .b => 1
  | .bay p => p.val + 2

/-- R38. How many ports the cycle that starts after `last` has before `p`. -/
def Port.turn (last p : Port) : Nat := (p.number + 5 - last.number) % 6

/-! ## What the host-written fields may hold, and what is read from them (R175) -/

/-- R15, R16, R175. `found` is the lowest address or offset whose word is not as `ok` asks, if there is one. -/
def FirstOutOfRange (ok : Nat → Prop) (found : Option Nat) : Prop := ∀ a, found = some a ↔ ¬ok a ∧ ∀ b < a, ok b

/-- Sections 1.9 and 12.2. The word at `a` holds what its START-only setting may hold, a station address of 0 being reported at its first
word (the model's reading, log entry 15); true of every other address. -/
def StartOnlyInRange (m : List Host.Cell) (a : Nat) : Prop :=
  (a = 0x0043 → 0x0600 ≤ (readWord m a).toNat)
    ∧ (a = 0x0044 → readWord m 0x0044 ≠ 0 ∨ readWord m 0x0045 ≠ 0 ∨ readWord m 0x0046 ≠ 0)
    ∧ (a = 0x0047 → readWord m a = 0x000A ∨ readWord m a = 0x000B)
    ∧ (a = 0x0048 → (readWord m a).toNat ≤ 255)

/-- Sections 1.9, 12.2 and 12.5, R155, R160. The word at `a` holds what its APPLY-able, contact or output setting may hold; true of every
other address. -/
def ApplyInRange (m : List Host.Cell) (a : Nat) : Prop :=
  let v := (readWord m a).toNat
  (a = 0x0049 → 1 ≤ v ∧ v ≤ 200) ∧ (a = 0x004A → 1 ≤ v ∧ v ≤ 15) ∧ (a = 0x004B → 1 ≤ v ∧ v ≤ 64)
  ∧ (a = 0x004C → 1 ≤ v ∧ v ≤ 60) ∧ (a = 0x004D → v ≤ 255) ∧ (a = 0x004E → 10 ≤ v ∧ v ≤ 3600)
  ∧ (a = 0x004F → v ≤ 15)
  ∧ (0x0050 ≤ a ∧ a ≤ 0x0053 → v = 1 ∨ v = 2 ∨ v = 4 ∨ v = 8 ∨ v = 16 ∨ v = 32 ∨ v = 64)
  ∧ (a = 0x0054 → v ≤ 15) ∧ (a = 0x0055 → v ≤ 3) ∧ (a = 0x0056 → v ≤ 1)
  ∧ (0x4700 ≤ a ∧ a ≤ 0x471F → (a % 4 = 0 → 1 ≤ v ∧ v ≤ 100) ∧ (a % 4 = 1 → 2 ≤ v ∧ v ≤ 60)
      ∧ (a % 4 = 2 → 1 ≤ v ∧ v ≤ 300) ∧ (a % 4 = 3 → v ≤ 1))
  ∧ (0x4720 ≤ a ∧ a ≤ 0x472F → (a % 4 = 0 → v ≤ 1) ∧ (a % 4 = 1 → v ≤ 1) ∧ (a % 4 = 2 → 10 ≤ v ∧ v ≤ 5000))

/-- R16, section 12.2. The word at `a` holds its START-only setting as it is in `set`; true of every other address. -/
def StartOnlyKept (m : List Host.Cell) (set : Settings) (a : Nat) : Prop :=
  (a = 0x0043 → readWord m a = set.messageType)
    ∧ (a = 0x0044 → (readWord m a).toNat = set.station.toNat / 2 ^ 32)
    ∧ (a = 0x0045 → (readWord m a).toNat = set.station.toNat / 2 ^ 16 % 2 ^ 16)
    ∧ (a = 0x0046 → (readWord m a).toNat = set.station.toNat % 2 ^ 16)
    ∧ (a = 0x0047 → readWord m a = match set.bareLane with | .a => 0x000A | .b => 0x000B)
    ∧ (a = 0x0048 → (readWord m a).toNat = set.bayEpoch.toNat)

/-- Sections 12.2 and 12.5. The settings `set` are those that the words of `m` hold, word by word. -/
def SettingsHeld (m : List Host.Cell) (set : Settings) : Prop :=
  let w := readWord m
  set.messageType = w 0x0043
  ∧ set.station.toNat = (w 0x0044).toNat * 2 ^ 32 + (w 0x0045).toNat * 2 ^ 16 + (w 0x0046).toNat
  ∧ (w 0x0047 = 0x000A → set.bareLane = .a) ∧ (w 0x0047 = 0x000B → set.bareLane = .b)
  ∧ set.bayEpoch.toNat = (w 0x0048).toNat % 256
  ∧ set.twinWait = w 0x0049 ∧ set.loneThreshold = w 0x004A ∧ set.degradeQuorum = w 0x004B
  ∧ set.provingPeriod = w 0x004C ∧ set.freshMargin = w 0x004D ∧ set.ageingTime = w 0x004E
  ∧ (∀ p : Fin 4, set.defaultForward.getLsbD p.val = (w 0x004F).getLsbD p.val)
  ∧ set.divTrip = w 0x0050 ∧ set.divStatus = w 0x0051 ∧ set.divSample = w 0x0052 ∧ set.divService = w 0x0053
  ∧ (∀ p : Fin 4, set.passBare.getLsbD p.val = (w 0x0054).getLsbD p.val)
  ∧ set.intEnable = (w 0x0055).getLsbD 0 ∧ set.intPulse = (w 0x0055).getLsbD 1
  ∧ set.journalLearned = (w 0x0056 != 0)
  ∧ (∀ n : Fin 8, set.contacts[n] =
      { filter := w (0x4700 + 4 * n.val), limit := w (0x4701 + 4 * n.val), block := w (0x4702 + 4 * n.val)
        journal := w (0x4703 + 4 * n.val) != 0 })
  ∧ ∀ n : Fin 4, set.outputs[n] =
      { permitted := w (0x4720 + 4 * n.val) != 0, latch := w (0x4721 + 4 * n.val) != 0, width := w (0x4722 + 4 * n.val) }

/-- R114, section 12.4. Word `off` of subscription slot `k` holds what its field may hold; the compare window is examined in ON-CHANGE
alone, and the arm word and the words after it are no fields of the configuration. -/
def SlotInRange (m : List Host.Cell) (k : Fin 64) (off : Nat) : Prop :=
  let w (i : Nat) : Nat := (readWord m (0x1600 + 176 * k.val + i)).toNat
  (off = 0 → 1 ≤ w 0 ∧ w 0 ≤ 4095) ∧ (off = 1 → w 1 ≤ 2) ∧ (off = 2 → w 2 ≤ 2)
  ∧ (off = 3 → w 2 = 1 → w 3 ≤ 255) ∧ (off = 4 → w 2 = 1 → 1 ≤ w 4 ∧ w 4 ≤ 256 ∧ w 3 + w 4 ≤ 256)
  ∧ (off = 5 → w 5 ≤ 15 ∨ w 5 = 0x8000) ∧ (off = 6 → 1 ≤ w 6 ∧ w 6 ≤ 60000)

/-- R114, section 12.4. The request `r` is the configuration that the words of subscription slot `k` hold, its codes in range. -/
def SlotHeld (m : List Host.Cell) (k : Fin 64) (r : SlotRequest) : Prop :=
  let w (i : Nat) : Word := readWord m (0x1600 + 176 * k.val + i)
  r.id = w 0 ∧ r.config.offset = w 3 ∧ r.config.length = w 4 ∧ r.expected = w 6
  ∧ (w 1 = 0 → r.config.acceptance = .normalOnly) ∧ (w 1 = 1 → r.config.acceptance = .testOnly)
  ∧ (w 1 = 2 → r.config.acceptance = .both)
  ∧ (w 2 = 0 → r.config.notify = .none) ∧ (w 2 = 1 → r.config.notify = .onChange) ∧ (w 2 = 2 → r.config.notify = .onEvery)
  ∧ (w 5 = 0x8000 → r.forward = .default)
  ∧ (w 5 ≠ 0x8000 → ∃ set, r.forward = .explicit set ∧ ∀ p : Fin 4, set.getLsbD p.val = (w 5).getLsbD p.val)

/-- R127, R130, section 12.4. Word `off` of publication slot `k` holds what its arm-time field may hold: in word 1 a class code in bits 0
to 2, the TEST flag in bit 4, the content mode in bit 8 and no other bit. -/
def PubInRange (m : List Host.Cell) (k : Fin 32) (off : Nat) : Prop :=
  let w (i : Nat) : Nat := (readWord m (0x0200 + 160 * k.val + i)).toNat
  (off = 0 → 1 ≤ w 0 ∧ w 0 ≤ 4095)
  ∧ (off = 1 → ∃ c t x, 1 ≤ c ∧ c ≤ 4 ∧ t ≤ 1 ∧ x ≤ 1 ∧ w 1 = c + 16 * t + 256 * x)
  ∧ (off = 2 → w 2 ≤ 255) ∧ (off = 3 → 1 ≤ w 3 ∧ w 3 ≤ 1000)
  ∧ (off = 4 → 10 ≤ w 4 ∧ w 4 ≤ 60000 ∧ w 3 ≤ w 4) ∧ (off = 5 → w 5 ≤ 600) ∧ (off = 6 → w 6 ≤ 15)

/-- R127, section 12.4. The arm-time fields `c` are those that the words of publication slot `k` hold, its class code an assigned one. -/
def PubHeld (m : List Host.Cell) (k : Fin 32) (c : PubConfig) : Prop :=
  let w (i : Nat) : Word := readWord m (0x0200 + 160 * k.val + i)
  c.id = w 0 ∧ (∀ x : Cls, (w 1).toNat % 8 = (classCode x).toNat → c.cls = x)
  ∧ c.test = (w 1).getLsbD 4 ∧ c.snapshot = (w 1).getLsbD 8
  ∧ c.epoch.toNat = (w 2).toNat % 256 ∧ c.first = w 3 ∧ c.heartbeat = w 4 ∧ c.refresh = w 5
  ∧ (∀ p : Fin 4, c.forward.getLsbD p.val = (w 6).getLsbD p.val)
  ∧ c.dest.toNat = (w 7).toNat * 2 ^ 32 + (w 8).toNat * 2 ^ 16 + (w 9).toNat

/-- R162, R163, section 12.5. Word `off` of link rule `k` holds what its field may hold; words 1 and 2 are examined as the source uses
them, word 9 as the action does. -/
def RuleInRange (m : List Host.Cell) (k : Fin 16) (off : Nat) : Prop :=
  let w (i : Nat) : Nat := (readWord m (0x4600 + 16 * k.val + i)).toNat
  (off = 0 → 1 ≤ w 0 ∧ w 0 ≤ 6)
  ∧ (off = 1 → ((w 0 = 1 ∨ w 0 = 2) → 1 ≤ w 1 ∧ w 1 ≤ 8) ∧ ((w 0 = 3 ∨ w 0 = 4) → 1 ≤ w 1 ∧ w 1 ≤ 4095)
      ∧ (w 0 = 5 → w 1 = 0x000A ∨ w 1 = 0x000B) ∧ (w 0 = 6 → w 1 ≤ 1))
  ∧ (off = 2 → (w 0 = 3 → w 2 ≤ 252) ∧ (w 0 = 5 → w 2 ≤ 5))
  ∧ (off = 7 → w 7 ≤ 1) ∧ (off = 8 → 1 ≤ w 8 ∧ w 8 ≤ 4)
  ∧ (off = 9 → ((w 8 = 1 ∨ w 8 = 2) → 1 ≤ w 9 ∧ w 9 ≤ 4) ∧ (w 8 = 3 → w 9 ≤ 31))
  ∧ (off = 10 → w 10 ≤ 1)

/-- R162, R163, section 12.5. The copy `c` is the rule that the words of link rule `k` hold, its fields in range: input and output numbers
count from 1, mask and value bytes stand two to a word, the first in the upper half. -/
def RuleHeld (m : List Host.Cell) (k : Fin 16) (c : RuleCopy) : Prop :=
  let w (i : Nat) : Word := readWord m (0x4600 + 16 * k.val + i)
  (∀ n : Fin 8, (w 1).toNat = n.val + 1 → (w 0 = 1 → c.source = .contactOn n) ∧ (w 0 = 2 → c.source = .contactOff n))
  ∧ (w 0 = 3 → ∃ mask value, c.source = .streamMatch (w 1) (w 2).toNat mask value ∧ mask.length = 4 ∧ value.length = 4
      ∧ mask.getD 0 0 ++ mask.getD 1 0 = w 3 ∧ mask.getD 2 0 ++ mask.getD 3 0 = w 4
      ∧ value.getD 0 0 ++ value.getD 1 0 = w 5 ∧ value.getD 2 0 ++ value.getD 3 0 = w 6)
  ∧ (w 0 = 4 → c.source = .streamStale (w 1))
  ∧ (∀ verdict : LaneState, w 0 = 5 → w 2 = laneStateCode verdict →
      (w 1 = 0x000A → c.source = .lane .a verdict) ∧ (w 1 = 0x000B → c.source = .lane .b verdict))
  ∧ (w 0 = 6 → (w 1 = 0 → c.source = .redundancy .none) ∧ (w 1 = 1 → c.source = .redundancy .single))
  ∧ c.edge = (w 7 == 1) ∧ c.journal = (w 10 == 1)
  ∧ (∀ n : Fin 4, (w 9).toNat = n.val + 1 → (w 8 = 1 → c.action = .driveOutput n) ∧ (w 8 = 2 → c.action = .releaseOutput n))
  ∧ (∀ n : Fin 32, (w 9).toNat = n.val → w 8 = 3 → c.action = .post n)
  ∧ (w 8 = 4 → c.action = .journalOnly)

/-! ## What frames are as bytes (R20 to R26, R176) -/

/-- The bits of the bytes in order, each byte least significant bit first. -/
def bitsUp (bytes : List Byte) : List Bool := bytes.flatMap (fun b => (List.range 8).map b.getLsbD)

/-- The bits of the bytes in order, each byte most significant bit first. -/
def bitsDown (bytes : List Byte) : List Bool := bytes.flatMap (fun b => (List.range 8).map b.getMsbD)

/-- The number that bytes spell, the most significant first. -/
def numberOf (bytes : List Byte) : Nat := bytes.foldl (fun n b => n * 256 + b.toNat) 0

/-- The polynomial over the field of two elements with these coefficients, that of the highest power first. -/
noncomputable def polyOf : List Bool → Polynomial (ZMod 2)
  | [] => 0
  | b :: rest => (if b then Polynomial.X ^ rest.length else 0) + polyOf rest

/-- R23, R26. The `w` coefficients `rest`, that of the highest power first, are the CRC of the bits `message` under the generator `gen` of
degree `w`, with initial value all ones and no inversion: the remainder modulo `gen` of the message moved up by `w` powers, to whose `w`
highest coefficients the initial value is added. -/
def CrcOf (gen : Polynomial (ZMod 2)) (w : Nat) (message rest : List Bool) : Prop :=
  rest.length = w
    ∧ gen ∣ polyOf message * Polynomial.X ^ w + polyOf (List.replicate w true) * Polynomial.X ^ message.length - polyOf rest

/-- R23. The trailer check of a span, x^16+x^12+x^5+1, most significant bit first. -/
def TrailerCheckOf (span : List Byte) (check : Word) : Prop :=
  CrcOf (.X ^ 16 + .X ^ 12 + .X ^ 5 + 1) 16 (bitsDown span) ((List.range 16).map check.getMsbD)

/-- R26. The four FCS bytes of a frame: the CRC of its bytes, least significant bit first, inverted, the coefficient of x^31 in bit 0 of the
first and that of x^0 in bit 7 of the last. -/
def FcsOf (bytes four : List Byte) : Prop :=
  ∃ rest, CrcOf (.X ^ 32 + .X ^ 26 + .X ^ 23 + .X ^ 22 + .X ^ 16 + .X ^ 12 + .X ^ 11 + .X ^ 10 + .X ^ 8 + .X ^ 7 + .X ^ 5 + .X ^ 4
      + .X ^ 2 + .X + 1) 32 (bitsUp bytes) rest
    ∧ four.length = 4 ∧ bitsUp four = rest.map (!·)

end Sys2Proof.Machine
end

