-- ==== Sys2Proof/Certificates/Slice0/Obligations.lean ====
section
/-! DEFINITION. The statements about the model, drawn from the manual's numbered rules. -/

open Sys2Proof Sys2Proof.Machine

/-! ## The machine -/

/-- Tier 1. A step runs the command at the front of the queue on the state with the queue's rest. On an empty queue one microsecond
passes (the model's choice, log entry 3), in which a START in progress does as many pieces of its work as a free choice says (log
entries 2 and 5). -/
def Obligations.StepTakesTheFrontCommand : Prop :=
  ∀ s : State,
    (∀ (c : Instr) (rest : List Instr), s.pending = c :: rest → step s = exec c { s with pending := rest })
    ∧ (s.pending = [] → s.startLeft = none → step s = .next { s with clock := s.clock + 1 })
    ∧ ∀ left, s.pending = [] → s.startLeft = some left →
      step s = .next (work (Config.startPace s.free) { s with clock := s.clock + 1, free := s.free + 1 })

/-- Tier 2. Every command answers a next state in every state, one whose claim, expiry or wait is not there included (the model's
choice, log entry 1), and leaves the commands that wait behind it, a reset included (the model's choice, log entry 10). -/
def Obligations.EveryCommandAnswers : Prop :=
  ∀ (c : Instr) (s : State), ∃ t, exec c s = .next t ∧ t.pending = s.pending

/-! ## Resets (section 1.6, R18, R19) -/

/-- Tier 1. The state right after reset: INITIALISING with READY low, clocks 0 and every host read 0. Both lanes are HELD and every count
of the lane, bay port and counters groups is 0; the arrival and transmit queues, wires and timers are empty. The stream table, the record
counts, the twin watch list, the miss notes and every list handed from block to block are empty. No slot or rule is armed and Delivery
holds nothing; no post, take, send or command waits; no contact input has a state (its raw change time 0 is the model's choice, log entry
11), no output is driven; the journal holds and waits for nothing, and INT is inactive. And it has the invariants that every step keeps.
-/
def Obligations.ResetLeavesNothing : Prop :=
  State.reset.partState = .initialising ∧ State.reset.ready = false ∧ State.reset.clock = 0 ∧ State.reset.seconds = 0
    ∧ State.reset.clockGroup = { edition := 0, clock := 0, seconds := 0 }
    ∧ State.reset.result = { echo := 0, code := none, detail := 0 }
    ∧ State.reset.pending = [] ∧ State.reset.working = none ∧ State.reset.heldArms = []
    ∧ (∀ a, hostRead State.reset a = 0)
    ∧ (∀ l, State.reset.lane l =
        { group :=
            { edition := 0, state := .held, link := false, lone := 0, frameErrors := 0, overruns := 0, damaged := 0
              crossLane := 0, foreignTag := 0, heldDiscards := 0, bareDiscards := 0, drops := 0, arrival := 0, sent := 0
              notSent := 0, flushed := 0 }
          arrivals := [], urgent := [], normal := [], wire := none, cycle := 0, provingEnds := none })
    ∧ State.reset.bayGroup.edition = 0
    ∧ (∀ p : Fin 4, State.reset.bays[p] = { arrivals := [], queue := [], wire := none }
        ∧ State.reset.bayGroup.ports[p] =
          { link := false, frameErrors := 0, overruns := 0, damaged := 0, bareDiscards := 0, trailerOnBay := 0, drops := 0
            arrival := 0, sent := 0, notSent := 0, flushed := 0 })
    ∧ State.reset.counters =
        { edition := 0, refused := 0, firstRefused := 0, echo := 0, originClash := 0, unplaced := 0, epochChanges := 0
          repeatsA := 0, repeatsB := 0, watchCount := 0, watchMost := 0, unwatched := 0, missesA := 0, missesB := 0
          lateTwinsA := 0, lateTwinsB := 0, abandoned := 0, longestA := 0, longestB := 0 }
    ∧ State.reset.redundancy = .none ∧ State.reset.lastServed = .bay 3
    ∧ (∀ p : Fin 512, State.reset.table[p] = none ∧ State.reset.imageCounts[p] = 0)
    ∧ State.reset.serial = 0 ∧ State.reset.bayEpoch = 0 ∧ State.reset.ageingDue = [] ∧ State.reset.reports = []
    ∧ State.reset.laneNotices = [] ∧ State.reset.watchList = [] ∧ State.reset.missNotes = []
    ∧ State.reset.twinClaims = [] ∧ State.reset.cleanups = [] ∧ State.reset.loneChanges = [] ∧ State.reset.events = []
    ∧ (∀ k : Fin 64, State.reset.subs[k] =
        { state := .disarmed
          status :=
            { edition := 0, state := .disarmed, reason := .none
              view := { fresh := none, loneA := false, runA := 0, loneB := false, runB := 0 }
              mismatch := false, truncated := false, seq := 0, epoch := 0, port := none, time := 0, cls := none
              test := false, hold := 0, repeatNo := 0, length := 0, deliveries := 0, superseded := 0, stale := 0
              content := [] }
          config := none, inProgress := none, waiting := none, marker := false, markedBy := none, previous := none
          supersededDue := 0, staleDue := 0
          told := { fresh := none, loneA := false, runA := 0, loneB := false, runB := 0 }, viewsDue := [], outcomes := [] })
    ∧ (∀ k : Fin 32, State.reset.pubs[k] =
        { count := 0, state := .disarmed, reason := .none, detail := 0, takenEdition := 0, takenBy := none, nextSeq := 0
          epoch := 0, interval := 0, repeatNo := 0, sends := 0, collisions := 0, lastTake := 0, config := none
          buffer := none, refreshAt := none, everArmed := false, lastEpoch := 0 })
    ∧ State.reset.postTrip = [] ∧ State.reset.postOther = [] ∧ State.reset.take = none ∧ State.reset.calendar = []
    ∧ (∀ k : Fin 16, State.reset.rules[k] =
        { state := .disarmed, reason := .none, matching := false, refusals := 0, fired := 0, lastFired := 0, copy := none })
    ∧ (∀ n : Fin 4, State.reset.outputs[n] = { driven := false, pulseEnds := none })
    ∧ State.reset.contactEdition = 0 ∧ State.reset.filtering = false
    ∧ (∀ n : Fin 8, State.reset.inputs[n] =
        { accepted := none, settling := none, rawSince := 0, filterEnds := none, blocked := false, waiting := false
          changes := 0, windowStart := none, blockCount := 0, lastChange := 0 })
    ∧ (∀ p : Fin 128, State.reset.journal.ring[p] = none)
    ∧ State.reset.journal.written = 0 ∧ State.reset.journal.taken = 0 ∧ State.reset.journal.lost = 0
    ∧ State.reset.journal.firstLoss = 0 ∧ State.reset.journal.overflowPending = false ∧ State.reset.journal.claims = []
    ∧ State.reset.journal.writes = [] ∧ State.reset.journal.int = false ∧ State.reset.journal.pulseEnds = none
    ∧ Memory.wf State.reset.mem ∧ State.reset.journal.bounded ∧ InterruptSound State.reset ∧ OutputsSafe State.reset
    ∧ QueuesBounded State.reset ∧ TableSound State.reset ∧ WatchesUnique State.reset ∧ EditionsEven State.reset
    ∧ SchedulerSound State.reset ∧ ∀ l, LoneCountSound l State.reset

/-- Tier 1. HARDWARE_RESET, from any state, leaves the state right after reset; SOFT_RESET, outside INITIALISING and with no command in
progress, leaves it with the host's words kept and the command word stored. The commands that wait, the pins and the number of free
choices made go on over both (the model's choice, log entry 10). INITIALISING_COMPLETE: CONFIG with READY high, the host's words kept
after a soft reset and at their defaults after a hardware reset (which give the settings of a hardware reset), the result of
SOFT-RESET, and the links taken from the pins. -/
def Obligations.ResetsStartOver : Prop :=
  (∀ s : State,
    exec .hardwareReset s = .next { State.reset with pending := s.pending, free := s.free, pins := s.pins }
    ∧ (s.partState ≠ .initialising → s.working = none → exec .softReset s
        = .next { State.reset with pending := s.pending, free := s.free, pins := s.pins, softReset := true
                                   mem := writeWord s.mem commandWord 4 }))
  ∧ ∀ s : State, s.partState = .initialising →
    ∃ t, exec .initialisingComplete s = .next t ∧ t.partState = .config ∧ t.ready = true ∧ t.clock = s.clock
      ∧ t.nextClockUpdate = s.clock + 100
      ∧ t.mem = (if s.softReset then s.mem else defaultMem)
      ∧ (s.softReset = false → readSettings t.mem = settingsAtReset)
      ∧ t.result = (if s.softReset then { echo := 4, code := some .done, detail := 0 } else s.result)
      ∧ (t.lane .a).group.link = s.pins.linkA ∧ (t.lane .b).group.link = s.pins.linkB
      ∧ (∀ p : Fin 4, t.bayGroup.ports[p].link = s.pins.bays[p])
      ∧ (∀ l, (t.lane l).group.state = (s.lane l).group.state)
      ∧ t.table = s.table ∧ t.subs = s.subs ∧ t.pubs = s.pubs ∧ t.rules = s.rules ∧ t.outputs = s.outputs
      ∧ t.inputs = s.inputs ∧ t.journal = s.journal ∧ t.settings = s.settings ∧ t.pins = s.pins

/-! ## Host writes (R2 to R6) -/

/-- Tier 2. HOST_WRITE to a word that is the host's and no trigger, with no take of the publication slot it lies in, stores the word and
does nothing else; the host then reads the word back, and every other word as before. Outside INITIALISING the host reads a HOST-owned
word as it was last stored, and a PART-owned word as chapter 12 lays it out: the directory; the state word, the result group, the
redundancy and journal words; the clock, counters, lane, bay port and contact groups; the status of the publication and subscription slots
with the delivered content, bytes beyond it 0; the journal entries; the status of the link rules; the stream table records, a free
position's words between its counts 0. A value of two words has its upper half first. Words without a field, a journal position that holds
no entry and words of no one read 0. The epoch and sequence of an EMPTY window and an absent last acceptance read 0 (the model's choice,
log entry 35). The codes are those of sections 12.5 and 12.7, and so are those of the journal details: the causes of LANE-VERDICT and
OUTPUT-CHANGE, the counters of COUNTER-FIRST, the accepted levels, the source, action and subject of RULE-FIRED, and the state word of
REFUSED-WRITE, which is the state word read. The words and records named in the statements stand where sections 12.2 to 12.5 put them. -/
def Obligations.HostWriteStoresWord : Prop :=
  (∀ (s : State) (a : Addr) (v : Word), Memory.wf s.mem → s.partState ≠ .initialising → s.sideNow a.toNat = .host →
    a.isTrigger = false → (∀ t, s.take = some t → ∀ off, place a.toNat ≠ .publication t.slot off) →
    ∃ t, exec (.hostWrite a v) s = .next t ∧ t = { s with mem := writeWord s.mem a.toNat v }
      ∧ hostRead t a = v ∧ (∀ b : Addr, b ≠ a → hostRead t b = hostRead s b)
      ∧ ∀ b : Nat, b ≠ a.toNat → readWord t.mem b = readWord s.mem b)
  ∧ (∀ s : State, s.partState ≠ .initialising →
    (∀ a : Addr, ((0x0040 ≤ a.toNat ∧ a.toNat ≤ 0x00FF)
        ∨ (∃ k : Fin 32, ∃ off, off ≤ 140 ∧ a.toNat = 0x0200 + 160 * k.val + off)
        ∨ (∃ k : Fin 64, ∃ off, off ≤ 15 ∧ a.toNat = 0x1600 + 176 * k.val + off)
        ∨ (∃ k : Fin 16, ∃ off, off ≤ 11 ∧ a.toNat = 0x4600 + 16 * k.val + off)
        ∨ (0x4700 ≤ a.toNat ∧ a.toNat ≤ 0x472F)) → hostRead s a = readWord s.mem a.toNat)
    ∧ (∀ a : Addr, ((0x4730 ≤ a.toNat ∧ a.toNat ≤ 0x47FF) ∨ 0x6800 ≤ a.toNat) → hostRead s a = 0)
    ∧ ReadsFrom s 0x0000 ([0x0240, 1, 9, 0, 0x0040, 1, 192, 0x0100, 1, 256, 0x0200, 32, 160, 0x1600, 64, 176, 0x4200, 128, 8,
        0x4600, 16, 16, 0x4700, 8, 4, 0x4720, 4, 4, 0x4800, 512, 16] ++ List.replicate 33 0)
    ∧ ReadsFrom s 0x0100 ([(if s.partState = .running then 2 else 1) ||| (if s.working.isSome then 0x0100 else 0),
        s.result.echo, (match s.result.code with | some c => resultCode c | none => 0), s.result.detail,
        redundancyCode s.redundancy ||| (if s.bareRoute = .b then 0x0100 else 0), s.journal.written, s.journal.taken,
        s.journal.lost, if s.journal.overflowPending then 1 else 0] ++ List.replicate 7 0)
    ∧ stateWord s = ((if s.partState = .running then 2 else 1) ||| (if s.working.isSome then 0x0100 else 0))
    ∧ ReadsFrom s 0x0110 ([s.clockGroup.edition, high s.clockGroup.clock, low s.clockGroup.clock, high s.clockGroup.seconds,
        low s.clockGroup.seconds] ++ List.replicate 3 0)
    ∧ (∀ c, s.counters = c → ReadsFrom s 0x0118 ([c.edition, c.refused, c.firstRefused, c.echo, c.originClash, c.unplaced,
        high c.epochChanges, low c.epochChanges, high c.repeatsA, low c.repeatsA, high c.repeatsB, low c.repeatsB,
        c.watchCount, c.watchMost, high c.unwatched, low c.unwatched, high c.missesA, low c.missesA, high c.missesB, low c.missesB,
        high c.lateTwinsA, low c.lateTwinsA, high c.lateTwinsB, low c.lateTwinsB, high c.abandoned, low c.abandoned,
        high c.longestA, low c.longestA, high c.longestB, low c.longestB] ++ List.replicate 10 0))
    ∧ (∀ l g, (s.lane l).group = g → ReadsFrom s (match l with | .a => 0x0140 | .b => 0x0160)
        ([g.edition, laneStateCode g.state, if g.link then 1 else 0, g.lone, g.frameErrors, g.overruns, g.damaged, g.crossLane,
          g.foreignTag, g.heldDiscards, g.bareDiscards, g.drops, high g.arrival, low g.arrival, high g.sent, low g.sent,
          high g.notSent, low g.notSent, high g.flushed, low g.flushed] ++ List.replicate 12 0))
    ∧ ReadsFrom s 0x0180 (s.bayGroup.edition :: List.replicate 15 0)
    ∧ (∀ (p : Fin 4) (b : BayBlock), s.bayGroup.ports[p] = b → ReadsFrom s (0x0190 + 16 * p.val)
        [if b.link then 1 else 0, b.frameErrors, b.overruns, b.damaged, b.bareDiscards, b.trailerOnBay, b.drops, high b.arrival,
          low b.arrival, high b.sent, low b.sent, high b.notSent, low b.notSent, high b.flushed, low b.flushed, 0])
    ∧ ReadsFrom s 0x01D0 (List.replicate 16 0 ++ [s.contactEdition]) ∧ ReadsFrom s 0x01FD (List.replicate 3 0)
    ∧ (∀ (n : Fin 8) (i : ContactInput), s.inputs[n] = i → ReadsFrom s (0x01E1 + 3 * n.val)
        [(match i.accepted with | none => 0 | some false => 1 | some true => 2) ||| (if i.settling.isSome then 0x0010 else 0)
          ||| (if i.blocked then 0x0020 else 0), high i.lastChange, low i.lastChange])
    ∧ (∀ n : Fin 4, ReadsFrom s (0x01F9 + n.val)
        [(if s.outputs[n].driven then 1 else 0) ||| (if s.settings.outputs[n].latch then 2 else 0)])
    ∧ (∀ (k : Fin 32) (p : PubSlot) (due : Clock), s.pubs[k] = p →
        ((s.calendar.find? (fun c => c.slot == k)).map (·.due)).getD 0 = due → ReadsFrom s (0x0200 + 160 * k.val + 141)
        [p.count, pubStateCode p.state, reasonCode p.reason, p.detail, p.takenEdition,
          (match p.takenBy with | none => 0 | some .host => 1 | some (.rule r) => 0x0100 + BitVec.ofNat 16 r.val), p.nextSeq,
          p.epoch.setWidth 16, p.interval, p.repeatNo, high due, low due, high p.sends, low p.sends, p.collisions,
          high p.lastTake, low p.lastTake, 0, p.count])
    ∧ (∀ (k : Fin 64) (t : SlotStatus), s.subs[k].status = t → ReadsFrom s (0x1600 + 176 * k.val + 16)
        ([t.edition, slotStateCode t.state, reasonCode t.reason, freshnessCode t.view.fresh,
          BitVec.ofNat 16 t.view.runA ||| (if t.view.loneA then 0x0010 else 0),
          BitVec.ofNat 16 t.view.runB ||| (if t.view.loneB then 0x0010 else 0),
          (if t.mismatch then 1 else 0) ||| (if t.truncated then 2 else 0), t.seq, t.epoch.setWidth 16,
          (match t.port with | none => 0 | some q => portWord q), high t.time, low t.time, optClassCode t.cls,
          if t.test then 1 else 0, t.hold, t.repeatNo.setWidth 16, t.length, high t.deliveries, low t.deliveries, t.superseded,
          t.stale, 0, 0, 0]
          ++ (List.range 128).map (fun i => t.content.getD (2 * i) 0 ++ t.content.getD (2 * i + 1) 0) ++ List.replicate 8 0))
    ∧ (∀ p : Fin 128, ReadsFrom s (0x4200 + 8 * p.val) (match s.journal.ring[p] with
        | none => List.replicate 8 0
        | some e => [e.number, journalKindCode e.claim.kind, subjectWord e.claim.subject, high e.claim.time, low e.claim.time,
            e.claim.d1, e.claim.d2, e.claim.d3]))
    ∧ (∀ (k : Fin 16) (r : LinkRule), s.rules[k] = r → ReadsFrom s (0x4600 + 16 * k.val + 12)
        [high r.lastFired, low r.lastFired, r.fired,
          slotStateCode r.state ||| (reasonCode r.reason <<< 2) ||| (if r.matching then 0x0080 else 0)
            ||| (r.refusals.setWidth 16 <<< 8)])
    ∧ ∀ (p : Fin 512) (n : Word), s.imageCounts[p] = n →
        (s.table[p] = none → ReadsFrom s (0x4800 + 16 * p.val) (n :: List.replicate 14 0 ++ [n]))
        ∧ ∀ (e : Entry) (remote : Bool), s.table[p] = some e → remote = decide (e.origin = .remote) →
          ReadsFrom s (0x4800 + 16 * p.val)
            [n, e.id,
              (match e.origin with
                | .remote => 1 <<< 14
                | .localBay b => 2 <<< 14 ||| BitVec.ofNat 16 (b.val + 1)
                | .localHost k => 3 <<< 14 ||| BitVec.ofNat 16 k.val)
                ||| (if e.configured then 1 <<< 13 else 0)
                ||| (match e.slot with | none => 0 | some k => 1 <<< 12 ||| (BitVec.ofNat 16 k.val <<< 6))
                ||| (if e.echoNoted then 1 <<< 5 else 0),
              ((if remote then (e.window.map (·.epoch)).getD 0 else e.sendEpoch).setWidth 16)
                ||| (if remote && e.window.isSome then 1 <<< 8 else 0) ||| (optClassCode e.cls <<< 9)
                ||| (freshnessCode e.fresh <<< 12) ||| (if e.clashNoted then 1 <<< 15 else 0),
              (if remote then BitVec.ofNat 16 e.recordA.run ||| (if e.recordA.lone then 1 <<< 4 else 0)
                  ||| ((BitVec.ofNat 16 e.recordB.run ||| (if e.recordB.lone then 1 <<< 4 else 0)) <<< 5) else 0)
                ||| (match e.forward with | .default => 1 <<< 14 | .explicit set => set.setWidth 16 <<< 10),
              e.hold, if remote then (e.window.map (·.high)).getD 0 else e.sendNext, e.firsts, e.twins, e.repeats, e.late,
              high (e.lastAccept.getD 0), low (e.lastAccept.getD 0), high (e.longest.getD 0xFFFFFFFF),
              low (e.longest.getD 0xFFFFFFFF), n])
  ∧ (∀ x : Long, (high x ++ low x : Long) = x)
  ∧ [ResultCode.done, .wrongState, .badArgument, .badSetting, .startOnly, .unknown].map resultCode = [1, 2, 3, 4, 5, 6]
  ∧ [Redundancy.none, .single, .dual].map redundancyCode = [0, 1, 2]
  ∧ [LaneState.held, .down, .proving, .healthy, .suspect, .degraded].map laneStateCode = [0, 1, 2, 3, 4, 5]
  ∧ [PubState.disarmed, .refused, .armedIdle, .burst, .steady, .expired].map pubStateCode = [0, 1, 2, 3, 4, 5]
  ∧ [SlotState.disarmed, .armed, .refused].map slotStateCode = [0, 1, 2]
  ∧ [Reason.none, .badArmCode, .badSetting, .originClash, .duplicate].map reasonCode = [0, 1, 2, 3, 4]
  ∧ [none, some Freshness.awaiting, some .fresh, some .stale, some .unsupervised].map freshnessCode = [0, 1, 2, 3, 4]
  ∧ [none, some Cls.trip, some .status, some .sample, some .service].map optClassCode = [0, 1, 2, 3, 4]
  ∧ [Port.lane .a, .lane .b, .bay 0, .bay 1, .bay 2, .bay 3].map portWord = [0x000A, 0x000B, 1, 2, 3, 4]
  ∧ [JournalKind.started, .laneVerdict, .redundancy, .streamStale, .streamFresh, .epochChange, .originClashSeen, .echoSeen,
      .counterFirst, .delivery, .deliveryChanged, .testMismatch, .armRefused, .publicationExpired, .contactInitial,
      .contactChange, .contactBlocked, .contactUnblocked, .outputChange, .ruleFired, .refusedWrite, .overflow].map
      journalKindCode = (List.range 22).map (fun i => BitVec.ofNat 16 (i + 1))
  ∧ (∀ id : Word, id.toNat < 4096 → subjectWord (.stream id) = 0x1000 + id)
  ∧ [Subject.lane .a, .lane .b, .part].map subjectWord = [0x200A, 0x200B, 0x9000]
  ∧ (∀ p, subjectWord (.bayPort p) = 0x3001 + BitVec.ofNat 16 p.val)
  ∧ (∀ k, subjectWord (.subscription k) = 0x4000 + BitVec.ofNat 16 k.val)
  ∧ (∀ k, subjectWord (.publication k) = 0x5000 + BitVec.ofNat 16 k.val)
  ∧ (∀ n, subjectWord (.contact n) = 0x6001 + BitVec.ofNat 16 n.val)
  ∧ (∀ n, subjectWord (.output n) = 0x7001 + BitVec.ofNat 16 n.val)
  ∧ (∀ k, subjectWord (.rule k) = 0x8000 + BitVec.ofNat 16 k.val)
  ∧ [Lane.a, .b].map laneWord = [0x000A, 0x000B]
  ∧ [LaneCause.start, .laneHold, .laneRelease, .linkDown, .linkUp, .provingTimer, .loneCount].map laneCauseCode
      = [1, 2, 3, 4, 5, 6, 7]
  ∧ (∀ k : Fin 16, outputCauseCode (.rule k) = BitVec.ofNat 16 k.val)
  ∧ [OutputCause.outputDrive, .outputRelease, .pulseExpiry, .apply].map outputCauseCode = [0x0101, 0x0102, 0x0103, 0x0104]
  ∧ [LaneCounter.frameErrors, .overruns, .damaged, .crossLane, .foreignTag, .heldDiscards, .bareDiscards, .drops].map
      laneCounterCode = [1, 2, 3, 4, 5, 6, 7, 9]
  ∧ [BayCounter.frameErrors, .overruns, .damaged, .bareDiscards, .trailerOnBay, .drops].map bayCounterCode
      = [1, 2, 3, 7, 8, 9]
  ∧ [EngineCounter.echo, .originClash, .unplaced].map engineCounterCode = [10, 11, 12]
  ∧ [none, some false, some true].map levelCode = [0, 1, 2]
  ∧ (∀ (n : Fin 8) (id : Word) (o : Nat) (m v : List Byte) (l : Lane) (ls : LaneState) (st : Redundancy),
      [Source.contactOn n, .contactOff n, .streamMatch id o m v, .streamStale id, .lane l ls,
        .redundancy st].map sourceKindCode = [1, 2, 3, 4, 5, 6])
  ∧ (∀ (n : Fin 4) (k : Fin 32), [Action.driveOutput n, .releaseOutput n, .post k, .journalOnly].map actionCode = [1, 2, 3, 4])
  ∧ (∀ (n : Fin 8) (level : Bool) (since : Clock), eventSubject (.contact n level since) = BitVec.ofNat 16 (n.val + 1))
  ∧ (∀ (id : Word) (content : List Byte), eventSubject (.streamCopy id content) = id ∧ eventSubject (.streamStale id) = id)
  ∧ (∀ (l : Lane) (st : LaneState), eventSubject (.lane l st) = (match l with | .a => 0x000A | .b => 0x000B))
  ∧ [Redundancy.none, .single, .dual].map (fun st => eventSubject (.redundancy st)) = [0, 1, 2]
  ∧ commandWord = 0x0040 ∧ argumentWord = 0x0041 ∧ journalTakenWord = 0x0042
  ∧ (∀ k, pubBase k = 0x0200 + 160 * k.val) ∧ (∀ k, subBase k = 0x1600 + 176 * k.val)
  ∧ ∀ k, ruleBase k = 0x4600 + 16 * k.val

/-- Tier 1. R4: a host write to a word that is not the host's is refused: HOST_WRITE, and, while a command is WORKING and the command word
is the part's, every command that a write of the command word gives. The word keeps its value, the refused-write count rises by 1 and
stays at 65,535, and the first refusal latches its address and claims REFUSED-WRITE; nothing else happens, whatever the word triggers. A
word owned by no one reads 0. Whose each word is, is the map of section 1.2: the directory, the status groups, the journal, the stream
table and the status and content words of the records are the part's, the settings and the records' first words the host's, but for the
command and argument words while a command is WORKING (R5), and the rest no one's. CLEAR_COUNTS and either reset set both values to 0;
that CLEAR_COUNTS has done so at its taking, its command still WORKING, is the model's choice (log entry 9). -/
def Obligations.HostWriteRefused : Prop :=
  (∀ (s : State) (c : Instr) (a : Addr) (v : Word), s.partState ≠ .initialising →
    ((c = .hostWrite a v ∧ s.sideNow a.toNat ≠ .host)
      ∨ (a = 0x0040 ∧ s.working.isSome = true
        ∧ ((c = .start ∧ v = 1) ∨ (c = .apply ∧ v = 2) ∨ (c = .clearCounts ∧ v = 3) ∨ (c = .softReset ∧ v = 4)
          ∨ (c = .laneHold ∧ v = 5) ∨ (c = .laneRelease ∧ v = 6) ∨ (c = .outputDrive ∧ v = 7) ∨ (c = .outputRelease ∧ v = 8)
          ∨ c = .unknownCommand v))) →
    ∃ t, exec c s = .next t ∧ t.mem = s.mem
      ∧ t.counters = { s.counters with
          edition := t.counters.edition
          refused := if s.counters.refused = 0xFFFF then 0xFFFF else s.counters.refused + 1
          firstRefused := if s.counters.refused = 0 then a.setWidth 16 else s.counters.firstRefused }
      ∧ t.journal.claims = s.journal.claims ++ (if s.counters.refused = 0 then
          [{ kind := .refusedWrite, subject := .part, time := s.clock, d1 := a.setWidth 16, d2 := v, d3 := stateWord s }]
          else [])
      ∧ t = { s with counters := t.counters, journal := { s.journal with claims := t.journal.claims } })
  ∧ (∀ (s : State) (a : Addr), s.sideNow a.toNat = .nobody → hostRead s a = 0)
  ∧ (∀ (s : State) (a : Addr), s.partState ≠ .initialising →
    (s.working.isSome = true → a = 0x0040 ∨ a = 0x0041 → s.sideNow a.toNat = .part)
    ∧ ((s.working = none ∨ (a ≠ 0x0040 ∧ a ≠ 0x0041)) →
      (((0x0040 ≤ a.toNat ∧ a.toNat ≤ 0x00FF)
          ∨ (∃ k : Fin 32, ∃ off, off ≤ 140 ∧ a.toNat = 0x0200 + 160 * k.val + off)
          ∨ (∃ k : Fin 64, ∃ off, off ≤ 15 ∧ a.toNat = 0x1600 + 176 * k.val + off)
          ∨ (∃ k : Fin 16, ∃ off, off ≤ 11 ∧ a.toNat = 0x4600 + 16 * k.val + off)
          ∨ (0x4700 ≤ a.toNat ∧ a.toNat ≤ 0x472F)) → s.sideNow a.toNat = .host)
      ∧ ((a.toNat ≤ 0x003F ∨ (0x0100 ≤ a.toNat ∧ a.toNat ≤ 0x01FF)
          ∨ (∃ k : Fin 32, ∃ off, 141 ≤ off ∧ off ≤ 159 ∧ a.toNat = 0x0200 + 160 * k.val + off)
          ∨ (∃ k : Fin 64, ∃ off, 16 ≤ off ∧ off ≤ 167 ∧ a.toNat = 0x1600 + 176 * k.val + off)
          ∨ (0x4200 ≤ a.toNat ∧ a.toNat ≤ 0x45FF)
          ∨ (∃ k : Fin 16, ∃ off, 12 ≤ off ∧ off ≤ 15 ∧ a.toNat = 0x4600 + 16 * k.val + off)
          ∨ (0x4800 ≤ a.toNat ∧ a.toNat ≤ 0x67FF)) → s.sideNow a.toNat = .part)
      ∧ (((∃ k : Fin 64, ∃ off, 168 ≤ off ∧ off ≤ 175 ∧ a.toNat = 0x1600 + 176 * k.val + off)
          ∨ (0x4730 ≤ a.toNat ∧ a.toNat ≤ 0x47FF) ∨ 0x6800 ≤ a.toNat) → s.sideNow a.toNat = .nobody)))
  ∧ ∀ (s : State) (c : Instr), (c = .hardwareReset
        ∨ (s.partState ≠ .initialising ∧ s.working = none ∧ (c = .softReset ∨ c = .clearCounts))) →
      ∃ t, exec c s = .next t ∧ t.counters.refused = 0 ∧ t.counters.firstRefused = 0

/-- Tier 1. R2: READY is low in INITIALISING and high in CONFIG and RUNNING; it falls at the taking of a reset and rises when INITIALISING
completes. While the part is INITIALISING every host read returns 0 and every host write is discarded, whatever word it goes to. -/
def Obligations.InitialisingIsDeafToTheHost : Prop :=
  (∀ s : State, (s.ready = false ↔ s.partState = .initialising)
    ∧ (∃ t, exec .hardwareReset s = .next t ∧ t.ready = false)
    ∧ (s.partState ≠ .initialising → s.working = none → ∃ t, exec .softReset s = .next t ∧ t.ready = false)
    ∧ (s.partState = .initialising → ∃ t, exec .initialisingComplete s = .next t ∧ t.ready = true ∧ t.partState = .config))
  ∧ ∀ s : State, s.partState = .initialising →
    (∀ a, hostRead s a = 0) ∧ (∀ a v, exec (.hostWrite a v) s = .next s) ∧ exec .start s = .next s
      ∧ exec .apply s = .next s ∧ exec .clearCounts s = .next s ∧ exec .softReset s = .next s ∧ exec .laneHold s = .next s
      ∧ exec .laneRelease s = .next s ∧ exec .outputDrive s = .next s ∧ exec .outputRelease s = .next s
      ∧ (∀ v, exec (.unknownCommand v) s = .next s) ∧ (∀ t, exec (.journalTakenWrite t) s = .next s)
      ∧ (∀ k v, exec (.subscriptionArm k v) s = .next s) ∧ (∀ k v, exec (.publicationArm k v) s = .next s)
      ∧ (∀ k v, exec (.linkRuleArm k v) s = .next s) ∧ (∀ k v, exec (.editionWrite k v) s = .next s)

/-! ## START (R15) -/

/-- Tier 2. START, taken in CONFIG, is WORKING toward DONE with its work before it: the settings words in ascending order, their check and
taking, the records in R15's order, the lanes and inputs, STARTED; how much is done at the taking is a free choice (log entries 2 and
5). Each word is read once, as it stands when it is reached. The first word out of range ends the work with its address and takes
nothing; else the values read come into force, with INT still inactive (R171). The words in range are those of sections 1.9, 12.2 and 12.5
(StartOnlyInRange, ApplyInRange; a station address of 0 is found at its first word: the model's reading, log entry 15), and the settings
read are the words, field by field (SettingsHeld). An arm word written in CONFIG is stored, and held only where a START in progress has
visited the record. -/
def Obligations.StartReadsThenTakes : Prop :=
  (∀ s : State, s.partState = .config → s.working = none →
    exec .start s = .next (work (Config.startPace s.free)
      { s with mem := writeWord s.mem commandWord 1, free := s.free + 1
               working := some { echo := 1, code := .done, detail := 0, finish := .starting startPieces [] } }))
  ∧ startPieces = settingsAddrs.map .read ++ [.settings]
      ++ (List.finRange 32).map (fun k => .visit (.publication k)) ++ (List.finRange 64).map (fun k => .visit (.subscription k))
      ++ (List.finRange 16).map (fun k => .visit (.rule k)) ++ [.lanes, .started]
  ∧ settingsAddrs.Pairwise (fun a b => a < b)
  ∧ (∀ a : Nat, a ∈ settingsAddrs ↔ (0x0043 ≤ a ∧ a ≤ 0x0056) ∨ (0x4700 ≤ a ∧ a ≤ 0x471F)
      ∨ (0x4720 ≤ a ∧ a ≤ 0x472F ∧ a % 4 ≠ 3))
  ∧ (∀ read : List Host.Cell, FirstOutOfRange (fun a => StartOnlyInRange read a ∧ ApplyInRange read a) (badStart read)
      ∧ SettingsHeld read (readSettings read))
  ∧ (∀ (s : State) (w : Working) (left : List StartPiece) (read : List Host.Cell), s.working = some w →
    (∀ a, w.finish = .starting (.read a :: left) read → workOnce s
      = { s with working := some { w with finish := .starting left (writeWord read a (readWord s.mem a)) } })
    ∧ (∀ a, w.finish = .starting (.settings :: left) read → badStart read = some a → workOnce s
      = { s with working := some { w with code := .badSetting, detail := BitVec.ofNat 16 a, finish := .nothing } })
    ∧ (w.finish = .starting (.settings :: left) read → badStart read = none → workOnce s
      = { s with working := some { w with finish := .starting left read }, settings := readSettings read
                 bayEpoch := (readSettings read).bayEpoch, bareRoute := (readSettings read).bareLane
                 journal := (workOnce s).journal, outputs := (workOnce s).outputs
                 contactEdition := (workOnce s).contactEdition })
    ∧ (w.finish = .starting (.settings :: left) read → badStart read = none → s.partState = .config →
      (workOnce s).journal.int = false ∧ (workOnce s).journal.pulseEnds = none))
  ∧ ∀ (s : State) (i : Instr) (x : ArmWord) (a : Nat) (v : Word), s.partState = .config →
    ((∃ k, i = .subscriptionArm k v ∧ x = .subscription k ∧ a = subBase k + 7)
      ∨ (∃ k, i = .publicationArm k v ∧ x = .publication k ∧ a = pubBase k + 12)
      ∨ ∃ k, i = .linkRuleArm k v ∧ x = .rule k ∧ a = ruleBase k + 11) →
    (s.startLeft = none → exec i s = .next { s with mem := writeWord s.mem a v })
    ∧ ∀ left, s.startLeft = some left →
      (.visit x ∈ left → exec i s = .next { s with mem := writeWord s.mem a v })
      ∧ (.visit x ∉ left → exec i s = .next { s with mem := writeWord s.mem a v, heldArms := s.heldArms ++ [x] })

/-- Tier 2. START's visits, lanes and STARTED. A record that is out of service, has arm word 1 and can be armed ends ARMED, a publication
ARMED-IDLE, and a subscription of a stream without an entry holds a new AWAITING entry whose wait begins with RUNNING; 0 leaves it. With 1
it is refused under BAD-SETTING (its first field out of range), a publication and a subscription under ORIGIN-CLASH and a subscription
under DUPLICATE by the entry of its stream, and with any other word under BAD-ARM-CODE, each with ARM-REFUSED claimed. Then each lane
leaves HELD for PROVING or DOWN by its link with LANE-VERDICT claimed, the bare route is the preferred lane unless that is DOWN and the
other PROVING, and every input begins to settle toward its raw level. Then STARTED is claimed with the counts armed. The model's own: what
a refused publication shows beside state, reason and detail (log entry 37), what a refused rule keeps (log entry 25), that an armed rule
shows no reason (log entry 40), that no event is offered here (log entry 20). -/
def Obligations.StartArmsThenReleases : Prop :=
  ∀ (s u : State) (w : Working) (p : StartPiece) (left : List StartPiece) (read : List Host.Cell), s.working = some w →
    w.finish = .starting (p :: left) read → u = { s with working := some { w with finish := .starting left read } } →
    s.partState = .config → Memory.wf s.mem → s.ageingDue = [] → s.postTrip = [] → s.postOther = [] →
    (∀ k : Fin 16, p = .visit (.rule k) →
      (readWord s.mem (ruleBase k + 11) = 1 → badRule s.mem k = none → workOnce s =
        { u with rules := modifyAt s.rules k (fun _ =>
          { state := .armed, reason := .none, matching := false, refusals := 0, fired := 0, lastFired := 0
            copy := some (readRule s.mem k) }) })
      ∧ (readWord s.mem (ruleBase k + 11) = 0 → s.rules[k].state = .disarmed → workOnce s = u)
      ∧ ∀ (reason : Reason) (detail : Word),
        ((readWord s.mem (ruleBase k + 11) = 1 ∧ ∃ off, badRule s.mem k = some off ∧ reason = .badSetting
            ∧ detail = BitVec.ofNat 16 off)
          ∨ (readWord s.mem (ruleBase k + 11) ≠ 0 ∧ readWord s.mem (ruleBase k + 11) ≠ 1 ∧ reason = .badArmCode
            ∧ detail = readWord s.mem (ruleBase k + 11))) →
        workOnce s =
          { u with
            rules := modifyAt s.rules k (fun r => { r with state := .refused, reason := reason, copy := none })
            journal := { s.journal with claims := s.journal.claims ++
              [{ kind := .armRefused, subject := .rule k, time := s.clock, d1 := reasonCode reason, d2 := 0
                 d3 := detail }] } })
    ∧ (∀ k : Fin 32, p = .visit (.publication k) → s.pubs[k].state = .disarmed →
      (∀ q : Fin 512, readWord s.mem (pubBase k + 12) = 1 → badPub s.mem k = none →
        s.lookup (readWord s.mem (pubBase k)) = none → s.freePosition = some q →
        (workOnce s).pubs[k].state = .armedIdle ∧ (workOnce s).pubs[k].config = some (readPub s.mem k)
        ∧ (workOnce s).table[q].map (fun e => (e.id, e.origin, e.configured))
            = some (readWord s.mem (pubBase k), .localHost k, true)
        ∧ (workOnce s).journal = s.journal)
      ∧ (readWord s.mem (pubBase k + 12) = 0 → workOnce s = u)
      ∧ ∀ (reason : Reason) (detail : Word),
        ((readWord s.mem (pubBase k + 12) = 1 ∧ ∃ off, badPub s.mem k = some off ∧ reason = .badSetting
            ∧ detail = BitVec.ofNat 16 off)
          ∨ (readWord s.mem (pubBase k + 12) = 1 ∧ badPub s.mem k = none
            ∧ (s.lookup (readWord s.mem (pubBase k))).isSome = true ∧ reason = .originClash ∧ detail = 0)
          ∨ (readWord s.mem (pubBase k + 12) ≠ 0 ∧ readWord s.mem (pubBase k + 12) ≠ 1 ∧ reason = .badArmCode
            ∧ detail = readWord s.mem (pubBase k + 12))) →
        workOnce s =
          { u with
            pubs := modifyAt s.pubs k (fun x =>
              { x with state := .refused, reason := reason, detail := detail, count := x.count + 1 })
            journal := { s.journal with claims := s.journal.claims ++
              [{ kind := .armRefused, subject := .publication k, time := s.clock, d1 := reasonCode reason
                 d2 := readWord s.mem (pubBase k), d3 := detail }] } })
    ∧ (∀ k : Fin 64, p = .visit (.subscription k) → s.subs[k].state = .disarmed → s.subs[k].inProgress = none →
      s.subs[k].status.mismatch = false →
      (∀ q : Fin 512, readWord s.mem (subBase k + 7) = 1 → badSlot s.mem k = none →
        s.lookup (readWord s.mem (subBase k)) = none → s.freePosition = some q →
        (workOnce s).subs[k].state = .armed ∧ (workOnce s).subs[k].status.state = .armed
        ∧ (workOnce s).table[q].map (fun e => (e.id, e.origin, e.configured, e.slot, e.fresh, e.deadline))
            = some (readWord s.mem (subBase k), .remote, true, some k, some .awaiting,
                .fromRunning (readWord s.mem (subBase k + 6)))
        ∧ (workOnce s).journal = s.journal)
      ∧ (readWord s.mem (subBase k + 7) = 0 → workOnce s = u)
      ∧ ∀ (reason : Reason) (detail : Word),
        ((readWord s.mem (subBase k + 7) = 1 ∧ ∃ off, badSlot s.mem k = some off ∧ reason = .badSetting
            ∧ detail = BitVec.ofNat 16 off)
          ∨ (readWord s.mem (subBase k + 7) = 1 ∧ badSlot s.mem k = none ∧ detail = 0
            ∧ ∃ (q : Fin 512) (e : Entry), s.lookup (readWord s.mem (subBase k)) = some (q, e)
              ∧ ((e.origin.isHost = true ∧ reason = .originClash)
                ∨ (e.origin.isHost = false ∧ e.slot.isSome = true ∧ reason = .duplicate)))
          ∨ (readWord s.mem (subBase k + 7) ≠ 0 ∧ readWord s.mem (subBase k + 7) ≠ 1 ∧ reason = .badArmCode
            ∧ detail = readWord s.mem (subBase k + 7))) →
        (workOnce s).subs[k].state = .refused ∧ (workOnce s).subs[k].status.state = .refused
        ∧ (workOnce s).subs[k].status.reason = reason ∧ (workOnce s).table = s.table
        ∧ (workOnce s).journal.claims = s.journal.claims ++
          [{ kind := .armRefused, subject := .subscription k, time := s.clock, d1 := reasonCode reason
             d2 := readWord s.mem (subBase k), d3 := detail }])
    ∧ (p = .lanes → (∀ l, (s.lane l).group.state = .held) →
      (∀ l, ((workOnce s).lane l).group.state = (if (s.lane l).group.link then .proving else .down)
        ∧ ((workOnce s).lane l).provingEnds
            = (if (s.lane l).group.link then some (s.clock + secs s.settings.provingPeriod) else none)
        ∧ ((workOnce s).lane l).cycle = (if (s.lane l).group.link then (s.lane l).cycle else (s.lane l).cycle + 1))
      ∧ (workOnce s).journal.claims = s.journal.claims ++ [Lane.a, Lane.b].map (fun l =>
          { kind := .laneVerdict, subject := .lane l, time := s.clock
            d1 := (laneStateCode .held <<< 8) ||| laneStateCode (if (s.lane l).group.link then .proving else .down)
            d2 := (s.lane l).group.lone, d3 := laneCauseCode .start })
      ∧ (workOnce s).bareRoute = (if (s.lane s.settings.bareLane).group.link = false
            ∧ (s.lane s.settings.bareLane.other).group.link = true
          then s.settings.bareLane.other else s.settings.bareLane)
      ∧ (workOnce s).filtering = true
      ∧ (∀ n : Fin 8, (workOnce s).inputs[n] = { s.inputs[n] with
          settling := some s.pins.raw[n], rawSince := s.clock
          filterEnds := some (s.clock + halfMillis s.settings.contacts[n].filter) })
      ∧ (workOnce s).table = s.table ∧ (workOnce s).working = u.working ∧ (workOnce s).events = s.events)
    ∧ (p = .started → workOnce s =
      { u with journal := { s.journal with claims := s.journal.claims ++
        [{ kind := .started, subject := .part, time := s.clock
           d1 := BitVec.ofNat 16 ((List.finRange 32).filter (fun k => s.pubs[k].state.armed)).length
           d2 := BitVec.ofNat 16 ((List.finRange 64).filter (fun k => s.subs[k].state == .armed)).length
           d3 := BitVec.ofNat 16 ((List.finRange 16).filter (fun k => s.rules[k].state == .armed)).length }] } })

/-- Tier 2. START and its COMMAND_COMPLETION with nothing between, both lanes HELD, nothing posted, no output driven and no mismatch
shown. With every setting in range the part is RUNNING under the settings read, DONE, every link rule with arm word 1 and fields in range
is ARMED, each lane is in PROVING or DOWN by its link, the claims made are the ARM-REFUSED ones, two LANE-VERDICT and STARTED, and INT is
asserted only in LEVEL mode with entries outstanding (as RUNNING begins: the model's reading, log entry 41). With a
setting out of range the result is BAD-SETTING with the first such address, and nothing else has changed (that the work is done by the
completion at the latest is the model's choice, log entry 5). -/
def Obligations.StartEndsInRunning : Prop :=
  ∀ (s : State) (m : List Host.Cell), s.partState = .config → s.working = none → s.heldArms = [] → Memory.wf s.mem →
    m = writeWord s.mem commandWord 1 → (∀ l, (s.lane l).group.state = .held) →
    (∀ k : Fin 64, s.subs[k].status.mismatch = false) → (∀ n : Fin 4, s.outputs[n].driven = false) →
    s.postTrip = [] → s.postOther = [] →
    ∃ t u, exec .start s = .next t ∧ exec .commandCompletion t = .next u ∧ u.working = none ∧ u.mem = m
      ∧ (∀ a, badStart m = some a → u = { s with
          mem := m, free := s.free + 1, result := { echo := 1, code := some .badSetting, detail := BitVec.ofNat 16 a } })
      ∧ (badStart m = none →
        u.partState = .running ∧ u.result = { echo := 1, code := some .done, detail := 0 } ∧ u.settings = readSettings m
        ∧ (∀ k : Fin 16, readWord m (ruleBase k + 11) = 1 → badRule m k = none →
            u.rules[k].state = .armed ∧ u.rules[k].copy = some (readRule m k))
        ∧ (∀ l, (u.lane l).group.state = (if (s.lane l).group.link then .proving else .down)) ∧ u.filtering = true
        ∧ u.journal.int = ((readSettings m).intEnable && !(readSettings m).intPulse
            && decide (s.journal.written ≠ s.journal.taken)) ∧ u.journal.pulseEnds = none
        ∧ ∃ refused verdicts started, u.journal.claims = s.journal.claims ++ refused ++ verdicts ++ [started]
          ∧ (∀ c ∈ refused, c.kind = .armRefused)
          ∧ verdicts.map (fun c => (c.kind, c.subject)) = [(.laneVerdict, .lane .a), (.laneVerdict, .lane .b)]
          ∧ started.kind = .started ∧ started.subject = .part)

/-! ## The other commands (sections 1.7 and 1.8) -/

/-- Tier 2. COMMAND_COMPLETION writes the result group and makes the command state READY. That of START first does what is left of its
work (the model's choice, log entry 5), then enters RUNNING, where the waits of START's AWAITING entries begin, INT follows the settings
in force as at its enabling (the model's reading, log entry 41) and the arm writes held go to their owners in the order taken, as arm
words written in RUNNING do. That of APPLY puts its settings in force, and INT (R172) and every output follow them at once: OUTPUT-CHANGE
is claimed for each one released, in ascending output number (the model's choice, log entry 33). That of any other command does nothing
else (the model's choice, log entry 9). -/
def Obligations.CompletionWritesTheResult : Prop :=
  (∀ (s : State) (w : Working), s.working = some w →
    (w.finish = .nothing → exec .commandCompletion s = .next
      { s with working := none, result := { echo := w.echo, code := some w.code, detail := w.detail } })
    ∧ (∀ p left read, w.finish = .starting (p :: left) read →
      exec .commandCompletion s = exec .commandCompletion (work (p :: left).length s))
    ∧ (∀ read, w.finish = .starting [] read → ∃ t, exec .commandCompletion s = .next t
      ∧ t.partState = .running ∧ t.working = none ∧ t.heldArms = [] ∧ t.settings = s.settings ∧ t.mem = s.mem
      ∧ t.result = { echo := w.echo, code := some w.code, detail := w.detail } ∧ t.clock = s.clock ∧ t.pins = s.pins
      ∧ t = { s.heldArms.foldl (fun u x => takeArm x u)
                { s with partState := .running, heldArms := []
                         journal := { s.journal with
                           int := s.settings.intEnable && !s.settings.intPulse && decide (s.journal.written ≠ s.journal.taken)
                           pulseEnds := none }
                         table := mapAll (Option.map (fun (e : Entry) => match e.deadline with
                           | .fromRunning promise => { e with deadline := .at (s.clock + millis promise) promise 0 }
                           | _ => e)) s.table } with
              working := none, result := t.result })
    ∧ ∀ new, w.finish = .takeSettings new → ∃ t, exec .commandCompletion s = .next t ∧ t.settings = new
      ∧ (∀ n : Fin 4, t.outputs[n] =
          if s.outputs[n].driven then
            if new.outputs[n].permitted then
              if new.outputs[n].latch then { s.outputs[n] with pulseEnds := none }
              else if s.settings.outputs[n].latch then
                { s.outputs[n] with pulseEnds := some (s.clock + millis new.outputs[n].width) }
              else s.outputs[n]
            else { driven := false, pulseEnds := none }
          else s.outputs[n])
      ∧ t.journal.claims = s.journal.claims
          ++ ((List.finRange 4).filter (fun n => s.outputs[n].driven && !new.outputs[n].permitted)).map (fun n =>
            { kind := .outputChange, subject := .output n, time := s.clock, d1 := 1, d2 := 0
              d3 := outputCauseCode .apply })
      ∧ (s.partState = .running →
        t.journal.int = (if new.intEnable then
            if new.intPulse then s.settings.intEnable && s.settings.intPulse && s.journal.int
            else decide (s.journal.written ≠ s.journal.taken)
          else false)
        ∧ t.journal.pulseEnds = (if new.intEnable && new.intPulse && s.settings.intEnable && s.settings.intPulse then
            s.journal.pulseEnds else none))
      ∧ t = { s with settings := new, outputs := t.outputs, contactEdition := t.contactEdition, journal := t.journal
                     working := none, result := { echo := w.echo, code := some w.code, detail := w.detail } })
  ∧ ∀ (s : State) (v : Word), s.partState = .running →
    (∀ k, exec (.subscriptionArm k v) s
      = .next (takeArm (.subscription k) { s with mem := writeWord s.mem (subBase k + 7) v }))
    ∧ (∀ k, exec (.publicationArm k v) s
      = .next (takeArm (.publication k) { s with mem := writeWord s.mem (pubBase k + 12) v }))
    ∧ ∀ k, exec (.linkRuleArm k v) s = .next (takeArm (.rule k) { s with mem := writeWord s.mem (ruleBase k + 11) v })

/-- Tier 1. A command that fails a check has no effect beyond its result: WRONG-STATE for START in RUNNING and for a RUNNING command in
CONFIG, BAD-ARGUMENT for an argument outside its values, UNKNOWN for a command word with no recognised code. APPLY takes nothing before
its completion: in RUNNING START-ONLY with the first differing address, else BAD-SETTING with the first address out of range, else DONE
with the settings read taken at the completion; that it reads and checks at its taking is the model's choice (log entry 9). The first
differing address is that of the lowest START-only word that is not as it is in force (StartOnlyKept), the first address out of range that
of the lowest APPLY-able, contact or output word outside its range (ApplyInRange), and the settings read are the words, field by field
(SettingsHeld). -/
def Obligations.CommandsThatFailTheirChecks : Prop :=
  (∀ (m : List Host.Cell) (set : Settings), FirstOutOfRange (StartOnlyKept m set) (startOnlyDiffers m set)
    ∧ FirstOutOfRange (ApplyInRange m) (badApply m) ∧ SettingsHeld m (readSettings m))
  ∧ ∀ s : State, s.working = none →
    (s.partState = .config → ∀ c v,
      (c, v) ∈ [(Instr.laneHold, (5 : Word)), (.laneRelease, 6), (.outputDrive, 7), (.outputRelease, 8)] →
      exec c s = .next { s with mem := writeWord s.mem commandWord v
                                working := some { echo := v, code := .wrongState, detail := 0, finish := .nothing } })
    ∧ (s.partState = .running → exec .start s = .next
      { s with mem := writeWord s.mem commandWord 1
               working := some { echo := 1, code := .wrongState, detail := 0, finish := .nothing } })
    ∧ (s.partState = .running → laneOf (readWord s.mem argumentWord) = none →
      ∀ c v, (c, v) ∈ [(Instr.laneHold, (5 : Word)), (.laneRelease, 6)] →
      exec c s = .next { s with mem := writeWord s.mem commandWord v
                                working := some { echo := v, code := .badArgument, detail := 0, finish := .nothing } })
    ∧ (s.partState = .running → outputOf (readWord s.mem argumentWord) = none →
      ∀ c v, (c, v) ∈ [(Instr.outputDrive, (7 : Word)), (.outputRelease, 8)] →
      exec c s = .next { s with mem := writeWord s.mem commandWord v
                                working := some { echo := v, code := .badArgument, detail := 0, finish := .nothing } })
    ∧ (∀ v : Word, (Instr.unknownCommand v).wellFormed = true → s.partState ≠ .initialising →
      exec (.unknownCommand v) s = .next
        { s with mem := writeWord s.mem commandWord v
                 working := some { echo := v, code := .unknown, detail := 0, finish := .nothing } })
    ∧ (s.partState ≠ .initialising → exec .apply s = .next
      { s with
        mem := writeWord s.mem commandWord 2
        working := some
          (if s.partState = .running then
            match startOnlyDiffers (writeWord s.mem commandWord 2) s.settings, badApply (writeWord s.mem commandWord 2) with
            | some a, _ => { echo := 2, code := .startOnly, detail := BitVec.ofNat 16 a, finish := .nothing }
            | none, some a => { echo := 2, code := .badSetting, detail := BitVec.ofNat 16 a, finish := .nothing }
            | none, none => { echo := 2, code := .done, detail := 0
                              finish := .takeSettings (readSettings (writeWord s.mem commandWord 2)) }
          else { echo := 2, code := .wrongState, detail := 0, finish := .nothing }) })

/-- Tier 2. R17: CLEAR_COUNTS, in CONFIG and RUNNING, sets every anomaly counter and total of the lane and bay port status groups to 0
and the counts it names of the counters group, each group in one update; the watch list counts and longest delays, the counts of
entries, slots, publications and rules, and the journal are kept; both noted flags of every entry clear (R51); it ends with DONE. That
all of this is done at the taking is the model's choice (log entry 9). -/
def Obligations.ClearCountsClearsTheCounts : Prop :=
  ∀ s : State, s.partState ≠ .initialising → s.working = none →
    ∃ t, exec .clearCounts s = .next t
      ∧ t.working = some { echo := 3, code := .done, detail := 0, finish := .nothing }
      ∧ (∀ l, (t.lane l).group =
          { edition := (s.lane l).group.edition + 2, state := (s.lane l).group.state, link := (s.lane l).group.link
            lone := (s.lane l).group.lone, frameErrors := 0, overruns := 0, damaged := 0, crossLane := 0, foreignTag := 0
            heldDiscards := 0, bareDiscards := 0, drops := 0, arrival := 0, sent := 0, notSent := 0, flushed := 0 })
      ∧ t.bayGroup.edition = s.bayGroup.edition + 2
      ∧ (∀ p : Fin 4, t.bayGroup.ports[p] =
          { link := s.bayGroup.ports[p].link, frameErrors := 0, overruns := 0, damaged := 0, bareDiscards := 0
            trailerOnBay := 0, drops := 0, arrival := 0, sent := 0, notSent := 0, flushed := 0 })
      ∧ t.counters =
          { edition := s.counters.edition + 2, refused := 0, firstRefused := 0, echo := 0, originClash := 0, unplaced := 0
            epochChanges := 0, repeatsA := 0, repeatsB := 0, watchCount := s.counters.watchCount
            watchMost := s.counters.watchMost, unwatched := 0, missesA := 0, missesB := 0, lateTwinsA := 0, lateTwinsB := 0
            abandoned := 0, longestA := s.counters.longestA, longestB := s.counters.longestB }
      ∧ (s.ageingDue = [] → ∀ p : Fin 512, t.table[p] = s.table[p].map (fun (e : Entry) =>
          { e with echoNoted := false, clashNoted := false }))
      ∧ t.subs = s.subs ∧ t.pubs = s.pubs ∧ t.rules = s.rules ∧ t.journal = s.journal ∧ t.outputs = s.outputs
      ∧ t.inputs = s.inputs ∧ t.watchList = s.watchList ∧ t.mem = writeWord s.mem commandWord 3

/-- Tier 2. LANE_HOLD in RUNNING moves the lane its argument names to HELD from any other state: the lone count 0, the lane cycle one on,
both queues flushed, the frame on the wire kept, LANE-VERDICT claimed with the count the lane had; a lane already HELD is unchanged.
LANE_RELEASE moves a HELD lane to PROVING, its timer started, if its link is UP, and to DOWN if not; a lane that is not HELD is unchanged.
The other lane's port is as it was. Each change claims LANE-VERDICT with the lone count it found and offers the LANE event (R98); the
redundancy state is that of the two lanes, and where it has changed REDUNDANCY is claimed and its event offered after those (R99).
Argument 0x000A names Lane A, 0x000B Lane B, and every other value none (R14). That both act at the taking, with the command still
WORKING, is the model's choice (log entry 9). -/
def Obligations.LaneCommandsMoveTheLane : Prop :=
  (∀ (w : Word) (l : Lane), laneOf w = some l ↔ w = (match l with | .a => 0x000A | .b => 0x000B))
  ∧ ∀ (s : State) (l : Lane) (announced : State → LaneState → LaneState → LaneCause → Prop),
    s.partState = .running → s.working = none → laneOf (readWord s.mem argumentWord) = some l →
    (∀ t old new cause, announced t old new cause ↔
      t.redundancy = redundancyOf t.laneA.group.state t.laneB.group.state
      ∧ t.journal.claims = s.journal.claims
          ++ [{ kind := .laneVerdict, subject := .lane l, time := s.clock
                d1 := (laneStateCode old <<< 8) ||| laneStateCode new, d2 := (s.lane l).group.lone, d3 := laneCauseCode cause }]
          ++ (if t.redundancy = s.redundancy then [] else
              [{ kind := .redundancy, subject := .lane l, time := s.clock, d1 := redundancyCode s.redundancy
                 d2 := redundancyCode t.redundancy, d3 := 0 }])
      ∧ t.events = s.events ++ [.lane l new] ++ (if t.redundancy = s.redundancy then [] else [.redundancy t.redundancy])) →
    (∃ t, exec .laneHold s = .next t ∧ t.mem = writeWord s.mem commandWord 5
      ∧ t.working = some { echo := 5, code := .done, detail := 0, finish := .nothing }
      ∧ ((s.lane l).group.state = .held → t = { s with mem := t.mem, working := t.working })
      ∧ ((s.lane l).group.state ≠ .held →
          (t.lane l).group.state = .held ∧ (t.lane l).group.lone = 0 ∧ (t.lane l).cycle = (s.lane l).cycle + 1
          ∧ (t.lane l).urgent = [] ∧ (t.lane l).normal = [] ∧ (t.lane l).wire = (s.lane l).wire
          ∧ (t.lane l).group.flushed
              = (s.lane l).group.flushed + BitVec.ofNat 32 ((s.lane l).urgent.length + (s.lane l).normal.length)
          ∧ (t.lane l).provingEnds = none ∧ t.lane l.other = s.lane l.other
          ∧ t.cleanups = s.cleanups ++ [l] ∧ t.laneNotices = s.laneNotices ++ [l]
          ∧ announced t (s.lane l).group.state .held .laneHold))
    ∧ ∃ t, exec .laneRelease s = .next t ∧ t.mem = writeWord s.mem commandWord 6
      ∧ t.working = some { echo := 6, code := .done, detail := 0, finish := .nothing }
      ∧ ((s.lane l).group.state ≠ .held → t = { s with mem := t.mem, working := t.working })
      ∧ ((s.lane l).group.state = .held → (s.lane l).group.link = true →
          (t.lane l).group.state = .proving ∧ (t.lane l).provingEnds = some (s.clock + secs s.settings.provingPeriod)
          ∧ t.counters.longest l = 0 ∧ t.lane l.other = s.lane l.other ∧ announced t .held .proving .laneRelease)
      ∧ ((s.lane l).group.state = .held → (s.lane l).group.link = false →
          (t.lane l).group.state = .down ∧ (t.lane l).cycle = (s.lane l).cycle + 1 ∧ (t.lane l).provingEnds = none
          ∧ t.lane l.other = s.lane l.other ∧ announced t .held .down .laneRelease)

/-- Tier 2. OUTPUT_DRIVE in RUNNING drives the permitted output its argument names (a pulse begun or begun again in PULSE mode) and is a
bad argument for one not permitted; OUTPUT_RELEASE and a reached PULSE_EXPIRY release it. OUTPUT-CHANGE is claimed only where the state
changes. Arguments 1 to 4 name trip outputs 1 to 4, and every other value none (R14). That the two commands act at their taking is the
model's choice (log entry 9). -/
def Obligations.OutputsAreDrivenAndReleased : Prop :=
  (∀ (w : Word) (n : Fin 4), outputOf w = some n ↔ w.toNat = n.val + 1)
  ∧ (∀ (s : State) (n : Fin 4), s.partState = .running → s.working = none → outputOf (readWord s.mem argumentWord) = some n →
    (s.settings.outputs[n].permitted = false → exec .outputDrive s = .next
      { s with mem := writeWord s.mem commandWord 7
               working := some { echo := 7, code := .badArgument, detail := 0, finish := .nothing } })
    ∧ (s.settings.outputs[n].permitted = true → ∃ t, exec .outputDrive s = .next t
      ∧ t.working = some { echo := 7, code := .done, detail := 0, finish := .nothing }
      ∧ t.outputs[n] = { driven := true
                         pulseEnds := if s.settings.outputs[n].latch then s.outputs[n].pulseEnds
                                      else some (s.clock + millis s.settings.outputs[n].width) }
      ∧ (∀ m : Fin 4, m ≠ n → t.outputs[m] = s.outputs[m])
      ∧ t.journal.claims = s.journal.claims ++ (if s.outputs[n].driven then [] else
          [{ kind := .outputChange, subject := .output n, time := s.clock, d1 := 0, d2 := 1
             d3 := outputCauseCode .outputDrive }])
      ∧ t = { s with mem := writeWord s.mem commandWord 7, working := t.working, outputs := t.outputs
                     contactEdition := t.contactEdition, journal := t.journal })
    ∧ ∃ t, exec .outputRelease s = .next t
      ∧ t.working = some { echo := 8, code := .done, detail := 0, finish := .nothing }
      ∧ t.outputs[n].driven = false ∧ (s.outputs[n].driven = true → t.outputs[n].pulseEnds = none)
      ∧ (∀ m : Fin 4, m ≠ n → t.outputs[m] = s.outputs[m])
      ∧ t.journal.claims = s.journal.claims ++ (if s.outputs[n].driven then
          [{ kind := .outputChange, subject := .output n, time := s.clock, d1 := 1, d2 := 0
             d3 := outputCauseCode .outputRelease }] else [])
      ∧ t = { s with mem := writeWord s.mem commandWord 8, working := t.working, outputs := t.outputs
                     contactEdition := t.contactEdition, journal := t.journal })
  ∧ ∀ (s : State) (n : Fin 4) (due : Clock), s.outputs[n] = { driven := true, pulseEnds := some due } →
    reached s.clock due = true →
    ∃ t, exec (.pulseExpiry n) s = .next t ∧ t.outputs[n] = { driven := false, pulseEnds := none }
      ∧ (∀ m : Fin 4, m ≠ n → t.outputs[m] = s.outputs[m])
      ∧ t.journal.claims = s.journal.claims ++
          [{ kind := .outputChange, subject := .output n, time := s.clock, d1 := 1, d2 := 0
             d3 := outputCauseCode .pulseExpiry }]
      ∧ t = { s with outputs := t.outputs, contactEdition := t.contactEdition, journal := t.journal }

/-- Tier 1. JOURNAL_TAKEN_WRITE: the word is stored. The write is taken in the order of the Journal Writer's claims: at once where
none waits, behind those that wait otherwise, with the JOURNAL_CLAIM that takes the last of them (which step that is, and that the value
written goes with the write, is the model's reading, log entry 42). As it is taken, a value at most 128 behind the written number of that
moment becomes the taken number, and in RUNNING in LEVEL mode INT then follows whether an entry is outstanding (R171: INT is inactive
throughout CONFIG); any other value leaves the journal as it is. -/
def Obligations.JournalTakenGivesBack : Prop :=
  ∀ (s : State) (t : Word),
    (s.partState ≠ .initialising → s.journal.claims = [] → exec (.journalTakenWrite t) s = .next
      { s with
        mem := writeWord s.mem journalTakenWord t
        journal :=
          if (s.journal.written - t).toNat ≤ 128 then
            { s.journal with
              taken := t
              int := if s.partState = .running ∧ s.settings.intEnable = true ∧ s.settings.intPulse = false then
                  decide (s.journal.written ≠ t) else s.journal.int }
          else s.journal })
    ∧ (s.partState ≠ .initialising → s.journal.claims ≠ [] → exec (.journalTakenWrite t) s = .next
      { s with
        mem := writeWord s.mem journalTakenWord t
        journal := { s.journal with
          writes := s.journal.writes ++ [{ value := t, behind := s.journal.claims.length }] } })
    ∧ ∀ (c : JournalClaim) (rest : List JournalClaim) (give : Journal → Word → Journal), s.journal.claims = c :: rest →
      (∀ j v, give j v = if (j.written - v).toNat ≤ 128 then
          { j with
            taken := v
            int := if s.partState = .running ∧ s.settings.intEnable = true ∧ s.settings.intPulse = false then
                decide (j.written ≠ v) else j.int }
        else j) →
      ∃ j, exec .journalClaim { s with journal := { s.journal with writes := [] } } = .next { s with journal := j }
        ∧ exec .journalClaim s = .next { s with
            journal := (s.journal.writes.filter (fun w => w.behind ≤ 1)).foldl (fun k w => give k w.value)
              { j with writes := (s.journal.writes.filter (fun w => 1 < w.behind)).map (fun w =>
                  { w with behind := w.behind - 1 }) } }

/-! ## Arm words (R115, R129, R162) and posts (R133) -/

/-- Tier 2. SUBSCRIPTION_ARM with 1, in RUNNING, of a slot whose configuration is in range. An ARMED slot lets go of its entry first: it
is removed if it is REMOTE and has accepted nothing, and else stays as LEARNED. Then, for a stream without an entry, while a position is
free, an AWAITING entry is made at the lowest free position with the next serial, an update of its record image (and the removal of the
entry that stood there, another); a REMOTE or LOCAL-BAY entry without a slot, the one just let go included, is attached and becomes
CONFIGURED. The slot is ARMED: with no delivery in progress its status is afresh in one update, with TEST-MISMATCH claimed if the flag was
set (the model's reading, log entry 16); behind one, the outcome waits for its completion, the waiting delivery of an ARMED slot is dropped,
and of the engine's updates that wait only the enterings of STALE are kept (the model's choice, log entry 30). The configuration is in range
where every word of it is (SlotInRange: R114, section 12.4), and what is armed is the words, field by field (SlotHeld). -/
def Obligations.SubscriptionArmHoldsAnEntry : Prop :=
  (∀ (m : List Host.Cell) (k : Fin 64), FirstOutOfRange (SlotInRange m k) (badSlot m k) ∧ SlotHeld m k (readSlot m k))
  ∧ ∀ (s : State) (k : Fin 64) (m : List Host.Cell) (tbl : Vector (Option Entry) 512) (gone : List TwinClaim) (sub : SubSlot)
    (armed : EntryView → SubSlot) (cleared : List JournalClaim) (request : SlotRequest),
    Memory.wf s.mem → m = writeWord s.mem (subBase k + 7) 1 → s.partState = .running → s.ageingDue = [] → TableSound s →
    badSlot m k = none → request = readSlot m k → request.id = readWord m (subBase k) →
    ((tbl = s.table ∧ gone = [] ∧ ∀ (p : Fin 512) (e : Entry), s.table[p] = some e → e.slot ≠ some k)
      ∨ ∃ (p : Fin 512) (e : Entry), s.table[p] = some e ∧ e.slot = some k
        ∧ ((e.origin = .remote ∧ e.lastAccept = none ∧ tbl = s.table.set p none ∧ gone = [.abandon e.id e.serial])
          ∨ ((e.origin ≠ .remote ∨ e.lastAccept ≠ none) ∧ gone = []
            ∧ tbl = s.table.set p (some { e with slot := none, forward := .default, configured := false })))) →
    sub = (if s.subs[k].state = .armed then
      { s.subs[k] with
        waiting := none
        markedBy := (match s.subs[k].inProgress with | some d => d.markedBy | none => s.subs[k].markedBy)
        staleDue := s.subs[k].staleDue + (s.subs[k].viewsDue.filter (·.stale)).length
        viewsDue := [] } else s.subs[k]) →
    (∀ view, armed view = (match s.subs[k].inProgress with
      | none =>
        { sub with
          state := .armed, config := some request.config, marker := false, markedBy := none, told := view, previous := none
          status :=
            { edition := s.subs[k].status.edition + 2, state := .armed, reason := .none, view := view
              mismatch := false, truncated := false, seq := 0, epoch := 0, port := none, time := 0, cls := none
              test := false, hold := 0, repeatNo := 0, length := 0, deliveries := 0, superseded := 0, stale := 0
              content := [] } }
      | some _ =>
        { sub with
          state := .armed, config := some request.config, marker := false, markedBy := none, told := view
          outcomes := s.subs[k].outcomes ++ [.armed view sub.markedBy] })) →
    cleared = (match s.subs[k].inProgress, sub.markedBy with
      | none, some mark => if s.subs[k].status.mismatch then
          [{ kind := .testMismatch, subject := .subscription k, time := mark.time, d1 := mark.id, d2 := 0
             d3 := mark.seq }] else []
      | _, _ => []) →
    (∀ (p : Fin 512) (e : Entry), tbl[p] = some e → e.id = request.id → e.origin.isHost = false → e.slot = none →
      ∃ t e', exec (.subscriptionArm k 1) s = .next t ∧ t.table = tbl.set p (some e') ∧ t.serial = s.serial
        ∧ e' = { e with slot := some k, configured := true, forward := request.forward }
        ∧ t.subs = s.subs.set k (armed (t.viewOf e'))
        ∧ t = { s with mem := m, table := t.table, imageCounts := t.imageCounts, loneChanges := t.loneChanges, subs := t.subs
                       twinClaims := s.twinClaims ++ gone
                       journal := { s.journal with claims := s.journal.claims ++ cleared } })
    ∧ ∀ p : Fin 512, (∀ (q : Fin 512) (e : Entry), tbl[q] = some e → e.id ≠ request.id) → tbl[p] = none →
      (∀ q : Fin 512, q.val < p.val → tbl[q].isSome = true) →
      ∃ t e', exec (.subscriptionArm k 1) s = .next t ∧ t.table = tbl.set p (some e') ∧ t.serial = s.serial + 1
        ∧ e'.id = request.id ∧ e'.origin = .remote ∧ e'.configured = true ∧ e'.slot = some k
        ∧ e'.forward = request.forward ∧ e'.fresh = some .awaiting ∧ e'.cls = none ∧ e'.serial = s.serial + 1
        ∧ e'.deadline = .at (s.clock + millis (readWord m (subBase k + 6))) (readWord m (subBase k + 6)) 0
        ∧ e'.window = none ∧ e'.firsts = 0 ∧ e'.lastAccept = none
        ∧ t.imageCounts[p] = s.imageCounts[p] + (if s.table[p].isSome then 2 else 1)
        ∧ t.subs = s.subs.set k (armed (t.viewOf e'))
        ∧ t = { s with mem := m, table := t.table, imageCounts := t.imageCounts, loneChanges := t.loneChanges, subs := t.subs
                       serial := t.serial, twinClaims := s.twinClaims ++ gone
                       journal := { s.journal with claims := s.journal.claims ++ cleared } }

/-- Tier 2. A subscription arm word other than a good arm, in RUNNING. An ARMED slot lets go of its entry first, which is removed if it is
REMOTE and has accepted nothing and else stays as LEARNED; its waiting delivery is dropped, and of the engine's updates that wait for a
delivery in progress only the enterings of STALE are kept (log entry 30). Then the slot is REFUSED under BAD-SETTING (its first field out
of range: the lowest offset whose word is not in SlotInRange), ORIGIN-CLASH, DUPLICATE or BAD-ARM-CODE, with ARM-REFUSED claimed, or by 0
an ARMED or ARM-REFUSED slot is DISARMED with its reason cleared; a DISARMED one stays so. With no delivery in progress the outcome is one
update of the status, which keeps its other words; behind one, the outcome and its claim wait for its completion. -/
def Obligations.SubscriptionArmRefusesOrDisarms : Prop :=
  (∀ (m : List Host.Cell) (k : Fin 64), FirstOutOfRange (SlotInRange m k) (badSlot m k))
  ∧ ∀ (s : State) (k : Fin 64) (v : Word) (m : List Host.Cell) (tbl : Vector (Option Entry) 512) (gone : List TwinClaim)
    (sub : SubSlot),
    Memory.wf s.mem → m = writeWord s.mem (subBase k + 7) v → s.partState = .running → s.ageingDue = [] → TableSound s →
    ((tbl = s.table ∧ gone = [] ∧ ∀ (p : Fin 512) (e : Entry), s.table[p] = some e → e.slot ≠ some k)
      ∨ ∃ (p : Fin 512) (e : Entry), s.table[p] = some e ∧ e.slot = some k
        ∧ ((e.origin = .remote ∧ e.lastAccept = none ∧ tbl = s.table.set p none ∧ gone = [.abandon e.id e.serial])
          ∨ ((e.origin ≠ .remote ∨ e.lastAccept ≠ none) ∧ gone = []
            ∧ tbl = s.table.set p (some { e with slot := none, forward := .default, configured := false })))) →
    sub = (if s.subs[k].state = .armed then
      { s.subs[k] with
        config := none, waiting := none
        marker := (if s.subs[k].outcomes.any (fun o => match o with | .armed _ _ => true | _ => false) then false
          else match s.subs[k].inProgress with | some d => d.mismatch | none => s.subs[k].status.mismatch)
        markedBy := (match s.subs[k].inProgress with | some d => d.markedBy | none => s.subs[k].markedBy)
        staleDue := s.subs[k].staleDue + (s.subs[k].viewsDue.filter (·.stale)).length
        viewsDue := [] } else s.subs[k]) →
    (∀ (reason : Reason) (detail : Word) (c : JournalClaim),
      ((v = 1 ∧ ∃ off, badSlot m k = some off ∧ reason = .badSetting ∧ detail = BitVec.ofNat 16 off)
        ∨ (v = 1 ∧ badSlot m k = none ∧ detail = 0 ∧ ∃ (p : Fin 512) (e : Entry), tbl[p] = some e
            ∧ e.id = readWord m (subBase k)
            ∧ ((e.origin.isHost = true ∧ reason = .originClash)
              ∨ (e.origin.isHost = false ∧ e.slot.isSome = true ∧ reason = .duplicate)))
        ∨ (v ≠ 0 ∧ v ≠ 1 ∧ reason = .badArmCode ∧ detail = v)) →
      c = { kind := .armRefused, subject := .subscription k, time := s.clock, d1 := reasonCode reason
            d2 := readWord m (subBase k), d3 := detail } →
      ∃ t, exec (.subscriptionArm k v) s = .next t
        ∧ t.subs = s.subs.set k (match s.subs[k].inProgress with
          | none =>
            { sub with
              state := .refused
              status := { s.subs[k].status with
                edition := s.subs[k].status.edition + 2, state := .refused, reason := reason } }
          | some _ => { sub with state := .refused, outcomes := s.subs[k].outcomes ++ [.refused reason c] })
        ∧ t = { s with mem := m, table := tbl, imageCounts := t.imageCounts, loneChanges := t.loneChanges, subs := t.subs
                       twinClaims := s.twinClaims ++ gone
                       journal := { s.journal with claims := s.journal.claims ++ (match s.subs[k].inProgress with
                         | none => [c] | some _ => []) } })
    ∧ (v = 0 → s.subs[k].state ≠ .disarmed →
      ∃ t, exec (.subscriptionArm k v) s = .next t
        ∧ t.subs = s.subs.set k (match s.subs[k].inProgress with
          | none =>
            { sub with
              state := .disarmed
              status := { s.subs[k].status with
                edition := s.subs[k].status.edition + 2, state := .disarmed, reason := .none } }
          | some _ => { sub with state := .disarmed, outcomes := s.subs[k].outcomes ++ [.disarmed] })
        ∧ t = { s with mem := m, table := tbl, imageCounts := t.imageCounts, loneChanges := t.loneChanges, subs := t.subs
                       twinClaims := s.twinClaims ++ gone })
    ∧ (v = 0 → s.subs[k].state = .disarmed → exec (.subscriptionArm k v) s = .next { s with mem := m })

/-- Tier 2. PUBLICATION_ARM in RUNNING. With 1, of a slot out of service whose arm-time fields are in range, for a stream without an entry
while a position is free: the slot is ARMED-IDLE with next sequence 0 and its epoch (one past its last in this run), in one update of the
status, and its LOCAL-HOST entry is made. It is refused by BAD-SETTING (the configured epoch out of range at a later arm too: the model's
choice, log entry 36), ORIGIN-CLASH for a stream with an entry, and BAD-ARM-CODE for another arm word. With 0, a DISARMED slot is unchanged
and an ARM-REFUSED one DISARMED. An armed slot is dropped by every arm word: its entry, calendar entry, buffer, configuration and place in
the post set go, and a take of it in progress is abandoned, with no collision counted (R137); the next take, if a slot is posted, begins at
once (a HOST-CONTENT slot's content is read whole at its start: the model's choice, log entry 26). Then 0 leaves it DISARMED, 1 arms it as
from ARMED-IDLE with a new entry at the lowest free position, for the same stream or another that has no entry, and it is refused where a
slot out of service would be. What a refused slot shows beside state, reason and detail is the model's choice (log entry 37). The arm-time
fields are in range where every word of them is (PubInRange: R130, section 12.4), and what is armed is the words, field by field (PubHeld:
R127). -/
def Obligations.PublicationArmOutcomes : Prop :=
  (∀ (m : List Host.Cell) (k : Fin 32), FirstOutOfRange (PubInRange m k) (badPub m k) ∧ PubHeld m k (readPub m k))
  ∧ ∀ (s : State) (k : Fin 32) (v : Word) (m : List Host.Cell),
    Memory.wf s.mem → m = writeWord s.mem (pubBase k + 12) v → s.partState = .running →
    s.postTrip = [] → s.postOther = [] → s.ageingDue = [] →
    (∀ p : Fin 512, v = 1 → s.pubs[k].state.armed = false → badPub m k = none → s.lookup (readWord m (pubBase k)) = none →
      s.freePosition = some p →
      ∃ t e, exec (.publicationArm k v) s = .next t ∧ t.mem = m
        ∧ t.pubs[k].state = .armedIdle ∧ t.pubs[k].reason = .none ∧ t.pubs[k].nextSeq = 0 ∧ t.pubs[k].sends = 0
        ∧ t.pubs[k].collisions = 0 ∧ t.pubs[k].buffer = none ∧ t.pubs[k].config = some (readPub m k)
        ∧ t.pubs[k].epoch
            = (if s.pubs[k].everArmed then s.pubs[k].lastEpoch + 1 else (readWord m (pubBase k + 2)).setWidth 8)
        ∧ t.pubs[k].everArmed = true ∧ t.pubs[k].lastEpoch = t.pubs[k].epoch ∧ t.pubs[k].count = s.pubs[k].count + 1
        ∧ (∀ j : Fin 32, j ≠ k → t.pubs[j] = s.pubs[j])
        ∧ t.table[p] = some e ∧ e.id = readWord m (pubBase k) ∧ e.origin = .localHost k ∧ e.configured = true
        ∧ e.sendEpoch = t.pubs[k].epoch ∧ e.sendNext = 0 ∧ e.serial = s.serial + 1
        ∧ (∀ q : Fin 512, q ≠ p → t.table[q] = s.table[q])
        ∧ t.calendar = s.calendar ∧ t.take = s.take ∧ t.journal = s.journal)
    ∧ (∀ off, v = 1 → s.pubs[k].state.armed = false → badPub m k = some off →
      exec (.publicationArm k v) s = .next
        { s with
          mem := m
          pubs := modifyAt s.pubs k (fun p =>
            { p with state := .refused, reason := .badSetting, detail := BitVec.ofNat 16 off, count := p.count + 1 })
          journal := { s.journal with claims := s.journal.claims ++
            [{ kind := .armRefused, subject := .publication k, time := s.clock, d1 := reasonCode .badSetting
               d2 := readWord m (pubBase k), d3 := BitVec.ofNat 16 off }] } })
    ∧ (∀ (reason : Reason) (detail : Word), s.pubs[k].state.armed = false →
      ((v = 1 ∧ badPub m k = none ∧ (s.lookup (readWord m (pubBase k))).isSome = true ∧ reason = .originClash ∧ detail = 0)
        ∨ (v ≠ 0 ∧ v ≠ 1 ∧ reason = .badArmCode ∧ detail = v)) →
      exec (.publicationArm k v) s = .next
        { s with
          mem := m
          pubs := modifyAt s.pubs k (fun p => { p with state := .refused, reason := reason, detail := detail, count := p.count + 1 })
          journal := { s.journal with claims := s.journal.claims ++
            [{ kind := .armRefused, subject := .publication k, time := s.clock, d1 := reasonCode reason
               d2 := readWord m (pubBase k), d3 := detail }] } })
    ∧ (v = 0 → s.pubs[k].state = .disarmed → exec (.publicationArm k v) s = .next { s with mem := m })
    ∧ (v = 0 → s.pubs[k].state = .refused → exec (.publicationArm k v) s = .next
      { s with
        mem := m
        pubs := modifyAt s.pubs k (fun p => { p with state := .disarmed, reason := .none, detail := 0, count := p.count + 1 }) })
    ∧ (v = 0 → s.pubs[k].state.armed = true →
      ∃ t, exec (.publicationArm k v) s = .next t
        ∧ t.pubs[k] = { s.pubs[k] with state := .disarmed, reason := .none, detail := 0, buffer := none
                                       refreshAt := none, config := none, interval := 0, count := s.pubs[k].count + 1 }
        ∧ (∀ j : Fin 32, j ≠ k → t.pubs[j] = s.pubs[j])
        ∧ t.calendar = s.calendar.filter (fun d => d.slot != k) ∧ t.take = s.take.filter (fun x => x.slot != k)
        ∧ t.journal = s.journal)
    ∧ (∀ (reason : Reason) (detail : Word), s.pubs[k].state.armed = true →
      ((v = 1 ∧ ∃ off, badPub m k = some off ∧ reason = .badSetting ∧ detail = BitVec.ofNat 16 off)
        ∨ (v = 1 ∧ badPub m k = none ∧ reason = .originClash ∧ detail = 0 ∧ ∃ (q : Fin 512) (f : Entry),
            s.table[q] = some f ∧ f.id = readWord m (pubBase k) ∧ f.origin ≠ .localHost k)
        ∨ (v ≠ 0 ∧ v ≠ 1 ∧ reason = .badArmCode ∧ detail = v)) →
      ∃ t, exec (.publicationArm k v) s = .next t
        ∧ t.pubs[k] = { s.pubs[k] with state := .refused, reason := reason, detail := detail, buffer := none
                                       refreshAt := none, config := none, interval := 0, count := s.pubs[k].count + 1 }
        ∧ (∀ j : Fin 32, j ≠ k → t.pubs[j] = s.pubs[j])
        ∧ t.calendar = s.calendar.filter (fun d => d.slot != k) ∧ t.take = s.take.filter (fun x => x.slot != k)
        ∧ t.journal = { s.journal with claims := s.journal.claims ++
            [{ kind := .armRefused, subject := .publication k, time := s.clock, d1 := reasonCode reason
               d2 := readWord m (pubBase k), d3 := detail }] }
        ∧ ∀ (p : Fin 512) (e : Entry), TableSound s → s.table[p] = some e → e.origin = .localHost k →
          t.table = s.table.set p none ∧ t.twinClaims = s.twinClaims ++ [.abandon e.id e.serial])
    ∧ (∀ (p : Fin 512) (e : Entry), v ≠ 1 → s.pubs[k].state.armed = true → TableSound s → s.table[p] = some e →
      e.origin = .localHost k → ∃ t, exec (.publicationArm k v) s = .next t ∧ t.table = s.table.set p none
        ∧ t.twinClaims = s.twinClaims ++ [.abandon e.id e.serial])
    ∧ (∀ (p : Fin 512) (e : Entry), v = 1 → s.pubs[k].state.armed = true → badPub m k = none → TableSound s →
      s.table[p] = some e → e.origin = .localHost k →
      (e.id = readWord m (pubBase k) ∨ s.lookup (readWord m (pubBase k)) = none) →
      ∃ t q e', exec (.publicationArm k v) s = .next t
        ∧ t.pubs[k] =
          { pubSlotAtReset with
            count := s.pubs[k].count + 1, state := .armedIdle, config := some (readPub m k), everArmed := true
            epoch := if s.pubs[k].everArmed then s.pubs[k].lastEpoch + 1 else (readWord m (pubBase k + 2)).setWidth 8
            lastEpoch := if s.pubs[k].everArmed then s.pubs[k].lastEpoch + 1 else (readWord m (pubBase k + 2)).setWidth 8 }
        ∧ (∀ j : Fin 32, j ≠ k → t.pubs[j] = s.pubs[j])
        ∧ (q = p ∨ s.table[q] = none) ∧ (∀ r : Fin 512, r < q → r ≠ p ∧ s.table[r].isSome = true)
        ∧ t.table[q] = some e' ∧ e'.id = readWord m (pubBase k) ∧ e'.origin = .localHost k ∧ e'.sendNext = 0
        ∧ e'.serial = s.serial + 1
        ∧ (q ≠ p → t.table[p] = none) ∧ (∀ r : Fin 512, r ≠ p → r ≠ q → t.table[r] = s.table[r])
        ∧ t.twinClaims = s.twinClaims ++ [.abandon e.id e.serial]
        ∧ t.calendar = s.calendar.filter (fun d => d.slot != k) ∧ t.take = s.take.filter (fun x => x.slot != k)
        ∧ t.journal = s.journal)
    ∧ ∀ (r : State) (trip other : List Post), s.pubs[k].state.armed = true →
      exec (.publicationArm k v) s = .next r →
      ∀ trip' other' : List Post, trip = trip'.filter (fun p => p.slot != k) → other = other'.filter (fun p => p.slot != k) →
      ((r.take.isSome = true ∨ (trip = [] ∧ other = [])) →
        exec (.publicationArm k v) { s with postTrip := trip', postOther := other' }
          = .next { r with postTrip := trip, postOther := other })
      ∧ ∀ (x : State) (p : Post) (restTrip restOther : List Post) (c : PubConfig), r.take = none →
        ((trip = p :: restTrip ∧ restOther = other) ∨ (trip = [] ∧ restTrip = [] ∧ other = p :: restOther)) →
        s.pubs[p.slot].config = some c →
        x = { r with
              postTrip := restTrip, postOther := restOther
              take := some { slot := p.slot, poster := p.poster, edition := readWord m (pubBase p.slot + 11)
                             staged := if c.snapshot then contactSnapshot s.inputs else readStaged m p.slot } } →
        exec (.publicationArm k v) { s with postTrip := trip', postOther := other' }
          = (if c.snapshot then exec .takeComplete x else .next x)

/-- Tier 1. LINK_RULE_ARM in RUNNING: 1 arms a rule whose fields are in range afresh, an ARMED one too, or refuses it at the first field
out of range; 0 disarms it; any other value refuses it. A refusal claims ARM-REFUSED. That a disarm and a refusal keep the match state
and the last fired time as they are shown is the model's reading (log entry 25); that a disarm and a successful arm clear the reason of an
ARM-REFUSED rule is its choice (log entry 40). The fields are in range where every word of them is (RuleInRange: R162, section 12.5), and
what is armed is the words, field by field (RuleHeld). -/
def Obligations.LinkRuleArmOutcomes : Prop :=
  (∀ (m : List Host.Cell) (k : Fin 16), FirstOutOfRange (RuleInRange m k) (badRule m k) ∧ RuleHeld m k (readRule m k))
  ∧ ∀ (s : State) (k : Fin 16) (v : Word) (m : List Host.Cell),
    Memory.wf s.mem → m = writeWord s.mem (ruleBase k + 11) v → s.partState = .running →
    (v = 1 → badRule m k = none → exec (.linkRuleArm k v) s = .next
      { s with mem := m, rules := modifyAt s.rules k (fun _ =>
        { state := .armed, reason := .none, matching := false, refusals := 0, fired := 0, lastFired := 0
          copy := some (readRule m k) }) })
    ∧ (v = 0 → s.rules[k].state ≠ .disarmed → exec (.linkRuleArm k v) s = .next
      { s with mem := m, rules := modifyAt s.rules k (fun r => { r with state := .disarmed, reason := .none, copy := none }) })
    ∧ (v = 0 → s.rules[k].state = .disarmed → exec (.linkRuleArm k v) s = .next { s with mem := m })
    ∧ ∀ (reason : Reason) (detail : Word),
      ((v = 1 ∧ ∃ off, badRule m k = some off ∧ reason = .badSetting ∧ detail = BitVec.ofNat 16 off)
        ∨ (v ≠ 0 ∧ v ≠ 1 ∧ reason = .badArmCode ∧ detail = v)) →
      exec (.linkRuleArm k v) s = .next
        { s with
          mem := m
          rules := modifyAt s.rules k (fun r => { r with state := .refused, reason := reason, copy := none })
          journal := { s.journal with claims := s.journal.claims ++
            [{ kind := .armRefused, subject := .rule k, time := s.clock, d1 := reasonCode reason, d2 := 0, d3 := detail }] } }

/-- Tier 2. R56: an arm that must make an entry in a full table evicts the LEARNED entry with the greatest age count, of equal ones the
one accepted earliest, of those the one at the lowest position: it is removed, with its watches to be abandoned and a lone count fall for
each LONE record (Lane A's first: the model's choice, log entry 29), and the new entry takes its position: two updates of its record
image (R43). The arm is a subscription's or
a publication's. -/
def Obligations.ArmsEvictTheOldest : Prop :=
  ∀ (s : State) (i : Instr) (id : Word) (p : Fin 512) (e : Entry), Memory.wf s.mem → s.partState = .running →
    s.ageingDue = [] → s.postTrip = [] → s.postOther = [] → s.lookup id = none →
    (∀ q : Fin 512, s.table[q].isSome = true) → s.table[p] = some e → e.configured = false →
    (∀ (q : Fin 512) (f : Entry), s.table[q] = some f → f.configured = false → q ≠ p →
      f.age.toNat < e.age.toNat
      ∨ (f.age = e.age ∧ ((f.lastAccept.getD 0 - e.lastAccept.getD 0).toNat ≠ 0
          ∧ (f.lastAccept.getD 0 - e.lastAccept.getD 0).toNat < 0x80000000))
      ∨ (f.age = e.age ∧ p.val < q.val ∧ f.lastAccept.getD 0 = e.lastAccept.getD 0)) →
    ((∃ k, i = .subscriptionArm k 1 ∧ s.subs[k].state ≠ .armed
        ∧ badSlot (writeWord s.mem (subBase k + 7) 1) k = none ∧ id = readWord (writeWord s.mem (subBase k + 7) 1) (subBase k))
      ∨ ∃ k, i = .publicationArm k 1 ∧ s.pubs[k].state.armed = false
        ∧ badPub (writeWord s.mem (pubBase k + 12) 1) k = none
        ∧ id = readWord (writeWord s.mem (pubBase k + 12) 1) (pubBase k)) →
    ∃ t e', exec i s = .next t ∧ t.table[p] = some e' ∧ e'.id = id ∧ e'.configured = true ∧ e'.serial = s.serial + 1
      ∧ (∀ k, i = .subscriptionArm k 1 → e'.origin = .remote ∧ e'.fresh = some .awaiting ∧ t.subs[k].state = .armed)
      ∧ (∀ k, i = .publicationArm k 1 → e'.origin = .localHost k ∧ t.pubs[k].state = .armedIdle)
      ∧ (∀ q : Fin 512, q ≠ p → t.table[q] = s.table[q])
      ∧ t.imageCounts[p] = s.imageCounts[p] + 2
      ∧ t.twinClaims = s.twinClaims ++ [.abandon e.id e.serial]
      ∧ t.loneChanges = s.loneChanges
          ++ (if e.recordA.lone then [{ rise := false, lane := .a, cycle := e.recordA.cycle }] else [])
          ++ (if e.recordB.lone then [{ rise := false, lane := .b, cycle := e.recordB.cycle }] else [])

/-- Tier 2. EDITION_WRITE in RUNNING: with the post set empty and no take in progress, an armed HOST-CONTENT slot's take begins at once,
by the host, with the edition just written (that the content is read whole at the start is the model's choice, log entry 26); a
CONTACT-SNAPSHOT slot's take completes at once, the snapshot of 34 bytes in its buffer (levels, blocked flags, last change times, CI1
first) and one send made; a slot that is not armed is not posted. Behind a take of another slot an armed slot joins the tail of its class
group, TRIP or other, with the poster HOST, and one that is posted already keeps its place. A host write into words 0 to 140 of the slot
whose take is in progress, other than its arm word, abandons the take: the collisions count rises by 1 and stays at 65,535, the slot is
re-entered at the tail of its class group unless it is posted, and the next take begins: of the first slot of the TRIP group or, with none
there, of the other group; that of a CONTACT-SNAPSHOT slot completes at once, as TAKE_COMPLETE does. The re-entered slot keeps the poster
of its take, unless the write was to the edition word and a free choice (log entry 2) takes it as the post first: then it is HOST. The
write is a HOST_WRITE, or, into the edition word, the EDITION_WRITE of that slot. The content of a HOST-CONTENT take (readStaged), over
every memory, is that of R135 and section 12.4: as many bytes as the content length word gives, at most 256, from the content words, the
more significant byte of each word first; of an odd length, the last byte is the more significant one of its word. The slots the takes
find armed are those in ARMED-IDLE, BURST, STEADY and EXPIRED (R134). -/
def Obligations.EditionWritesAndCollisions : Prop :=
  (∀ (m : List Host.Cell) (k : Fin 32) (n : Nat), n = (readWord m (0x0200 + 160 * k.val + 10)).toNat →
    (readStaged m k).length = (if n ≤ 256 then n else 256)
    ∧ ∀ (i : Nat) (w : Word), i < n → i < 256 → w = readWord m (0x0200 + 160 * k.val + 13 + i / 2) →
      (readStaged m k)[i]? = some (if i % 2 = 0 then w.extractLsb' 8 8 else w.extractLsb' 0 8))
  ∧ [PubState.disarmed, .refused, .armedIdle, .burst, .steady, .expired].map PubState.armed
      = [false, false, true, true, true, true]
  ∧ (∀ (s : State) (k : Fin 32) (v : Word), s.partState = .running → s.take = none →
    (s.pubs[k].state.armed = false →
      exec (.editionWrite k v) s = .next { s with mem := writeWord s.mem (pubBase k + 11) v })
    ∧ ∀ c, Memory.wf s.mem → s.pubs[k].state.armed = true → s.pubs[k].config = some c →
      s.postTrip = [] → s.postOther = [] →
      (c.snapshot = false → exec (.editionWrite k v) s = .next
        { s with mem := writeWord s.mem (pubBase k + 11) v
                 take := some { slot := k, poster := .host, edition := v
                                staged := readStaged (writeWord s.mem (pubBase k + 11) v) k } })
      ∧ (c.snapshot = true → ∃ t bytes, exec (.editionWrite k v) s = .next t ∧ t.take = none
        ∧ t.mem = writeWord s.mem (pubBase k + 11) v
        ∧ t.pubs[k] =
          { s.pubs[k] with
            buffer := some bytes, takenEdition := v, takenBy := some .host, lastTake := s.clock
            repeatNo := 1, interval := c.first, state := .burst
            refreshAt := if c.refresh = 0 then none else some (s.clock + secs c.refresh)
            nextSeq := s.pubs[k].nextSeq + 1, sends := s.pubs[k].sends + 1, count := s.pubs[k].count + 1 }
        ∧ t.calendar = insertCalendar { slot := k, due := s.clock + millis c.first }
            (s.calendar.filter (fun d => d.slot != k))
        ∧ bytes.length = 34
        ∧ ∀ n : Fin 8,
          ((bytes.getD 0 0).getLsbD (7 - n.val) = (s.inputs[n].accepted == some true))
          ∧ ((bytes.getD 1 0).getLsbD (7 - n.val) = s.inputs[n].blocked)
          ∧ (bytes.drop (2 + 4 * n.val)).take 4 =
            [s.inputs[n].lastChange.extractLsb' 24 8, s.inputs[n].lastChange.extractLsb' 16 8
             , s.inputs[n].lastChange.extractLsb' 8 8, s.inputs[n].lastChange.extractLsb' 0 8]))
  ∧ (∀ (s : State) (k : Fin 32) (v : Word) (tk : Take) (c : PubConfig), s.partState = .running → s.take = some tk →
    tk.slot ≠ k →
    (s.pubs[k].state.armed = false →
      exec (.editionWrite k v) s = .next { s with mem := writeWord s.mem (pubBase k + 11) v })
    ∧ (s.pubs[k].state.armed = true → s.pubs[k].config = some c →
      ((s.postTrip ++ s.postOther).any (fun x => x.slot == k) = true →
        exec (.editionWrite k v) s = .next { s with mem := writeWord s.mem (pubBase k + 11) v })
      ∧ ((s.postTrip ++ s.postOther).any (fun x => x.slot == k) = false →
        (c.cls = .trip → exec (.editionWrite k v) s = .next
          { s with mem := writeWord s.mem (pubBase k + 11) v, postTrip := s.postTrip ++ [{ slot := k, poster := .host }] })
        ∧ (c.cls ≠ .trip → exec (.editionWrite k v) s = .next
          { s with mem := writeWord s.mem (pubBase k + 11) v
                   postOther := s.postOther ++ [{ slot := k, poster := .host }] }))))
  ∧ ∀ (s x : State) (i : Instr) (tk : Take) (c c' : PubConfig) (a : Addr) (v : Word) (off : Nat) (p : Post)
      (again trip other trip' other' : List Post) (mem : List Host.Cell),
    s.partState = .running → s.take = some tk → s.pubs[tk.slot].config = some c → c.snapshot = false →
    a.toNat = pubBase tk.slot + off → off ≤ 140 → off ≠ 12 →
    (i = .hostWrite a v ∨ (off = 11 ∧ i = .editionWrite tk.slot v)) → mem = writeWord s.mem a.toNat v →
    again = (if (s.postTrip ++ s.postOther).any (fun x => x.slot == tk.slot) then [] else
      [{ slot := tk.slot
         poster := if off = 11 ∧ Config.collisionFirst s.free = false then .host else tk.poster }]) →
    trip = s.postTrip ++ (if c.cls = .trip then again else []) →
    other = s.postOther ++ (if c.cls = .trip then [] else again) →
    ((trip = p :: trip' ∧ other' = other) ∨ (trip = [] ∧ trip' = [] ∧ other = p :: other')) →
    s.pubs[p.slot].config = some c' →
    x = { s with
          free := if off = 11 then s.free + 1 else s.free
          mem := mem
          pubs := modifyAt s.pubs tk.slot (fun p =>
            { p with collisions := (if p.collisions = 0xFFFF then 0xFFFF else p.collisions + 1), count := p.count + 1 })
          postTrip := trip', postOther := other'
          take := some { slot := p.slot, poster := p.poster, edition := readWord mem (pubBase p.slot + 11)
                         staged := if c'.snapshot then contactSnapshot s.inputs else readStaged mem p.slot } } →
    exec i s = (if c'.snapshot then exec .takeComplete x else .next x)

/-! ## Publications (chapter 8) -/

/-- Tier 2. TAKE_COMPLETE, with no slot posted: the staged content is in the buffer, the slot is in BURST at its first interval with one
send made, its calendar entry is due one first interval later, and the status moved by one update. The send (R139): the message of the
content, with repeat number 0 and hold time twice the first interval, at most 60,000 ms, is offered to Lane A and Lane B with the slot's
next sequence beside it (offerLane) and to the bay ports of the slot's forward set without it (offerBays), in ascending number (the
model's choice, which orders the COUNTER-FIRST claims, log entry 18), and the slot's LOCAL-HOST entry shows the new send state, its record
image moved by one update where that changes it (R54, R43); nothing else changes. With slots posted, all of that is as it is with none,
and the next take begins at once with its edition read: of the first slot of the TRIP group or, with none there, of the other group
(R134); the slot leaves the post set, the content of a HOST-CONTENT slot (readStaged, as EditionWritesAndCollisions gives it) is read
whole at this start (the model's choice, log entry 26), and the take of a CONTACT-SNAPSHOT slot completes at once. The calendar entry
joins the calendar at the place R141 gives it (insertCalendar, as CalendarSendKeepsTheRhythm gives it). The message (buildMessage: R139,
R176), padded or not, is read as well-formed with the header it was built from, the destination and station addresses most significant
byte first, the type word and the content at offset 22. -/
def Obligations.TakeCompletes : Prop :=
  (∀ (dest station : BitVec 48) (type : Word) (h : Header) (content msg : List Byte) (n : Nat), 1 ≤ h.id.toNat → h.id.toNat ≤ 4095 →
    h.hold.toNat ≤ 60000 → h.length.toNat = content.length → content.length ≤ 480 →
    msg = buildMessage dest station type h content ++ List.replicate n 0 →
    readHeader msg = some h ∧ typeWord msg = type ∧ numberOf (msg.take 6) = dest.toNat
      ∧ numberOf ((msg.drop 6).take 6) = station.toNat ∧ (msg.drop 22).take content.length = content
      ∧ (buildMessage dest station type h content).length = 22 + content.length)
  ∧ (∀ (s u : State) (tk : Take) (c : PubConfig) (copy : Option Word → TxRecord), s.take = some tk →
    s.pubs[tk.slot].config = some c → s.postTrip = [] → s.postOther = [] →
    (∀ seq, copy seq =
      { frame := buildMessage c.dest s.settings.station s.settings.messageType
          { id := c.id, cls := c.cls, test := c.test, epoch := s.pubs[tk.slot].epoch
            hold := BitVec.ofNat 16 (min 60000 (2 * c.first.toNat)), repeatNo := 0
            length := BitVec.ofNat 16 tk.staged.length } tk.staged
        stream := true, trip := c.cls == .trip, seq := seq }) →
    u = offerBays c.forward (copy none) (offerLane .b (copy (some s.pubs[tk.slot].nextSeq))
          (offerLane .a (copy (some s.pubs[tk.slot].nextSeq)) s)) →
    ∃ t, exec .takeComplete s = .next t ∧ t.take = none
      ∧ t.pubs[tk.slot] =
          { s.pubs[tk.slot] with
            buffer := some tk.staged, takenEdition := tk.edition, takenBy := some tk.poster, lastTake := s.clock
            repeatNo := 1, interval := c.first, state := .burst
            refreshAt := if c.refresh = 0 then none else some (s.clock + secs c.refresh)
            nextSeq := s.pubs[tk.slot].nextSeq + 1, sends := s.pubs[tk.slot].sends + 1
            count := s.pubs[tk.slot].count + 1 }
      ∧ (∀ j : Fin 32, j ≠ tk.slot → t.pubs[j] = s.pubs[j])
      ∧ t.calendar = insertCalendar { slot := tk.slot, due := s.clock + millis c.first }
                       (s.calendar.filter (fun d => d.slot != tk.slot))
      ∧ t.laneA = u.laneA ∧ t.laneB = u.laneB ∧ t.bays = u.bays ∧ t.bayGroup = u.bayGroup ∧ t.journal = u.journal
      ∧ (∀ p : Fin 512, t.table[p] = s.table[p].map (fun (e : Entry) =>
          if e.origin = .localHost tk.slot then
            { e with sendEpoch := s.pubs[tk.slot].epoch, sendNext := s.pubs[tk.slot].nextSeq + 1 } else e))
      ∧ (∀ p : Fin 512, t.imageCounts[p] = s.imageCounts[p] + (if t.table[p] = s.table[p] then 0 else 1))
      ∧ t = { s with take := none, calendar := t.calendar, pubs := t.pubs, laneA := t.laneA, laneB := t.laneB, bays := t.bays
                     bayGroup := t.bayGroup, journal := t.journal, table := t.table, imageCounts := t.imageCounts })
  ∧ ∀ (s r x : State) (p : Post) (trip' other' : List Post) (c' : PubConfig), s.take.isSome = true →
    ((s.postTrip = p :: trip' ∧ other' = s.postOther) ∨ (s.postTrip = [] ∧ trip' = [] ∧ s.postOther = p :: other')) →
    s.pubs[p.slot].config = some c' →
    exec .takeComplete { s with postTrip := [], postOther := [] } = .next r →
    x = { r with
          postTrip := trip', postOther := other'
          take := some { slot := p.slot, poster := p.poster, edition := readWord s.mem (pubBase p.slot + 11)
                         staged := if c'.snapshot then contactSnapshot s.inputs else readStaged s.mem p.slot } } →
    exec .takeComplete s = (if c'.snapshot then exec .takeComplete x else .next x)

/-- Tier 2. CALENDAR_SEND of a slot in BURST or STEADY: the interval doubles while it stays below the heartbeat interval and is the
heartbeat interval, in STEADY, from then on; the message of the buffer, with the repeat number as it stood and hold time twice the new
interval, at most 60,000 ms, is offered to Lane A, Lane B and the bay ports of the forward set, in ascending number (the model's choice,
which orders the COUNTER-FIRST claims, log entry 18); the next sequence, repeat number (held at 255) and sends count rise; the entry is
replaced by one due an interval after the old due time; and the slot's LOCAL-HOST entry shows the new send state, its record image moved
by one update where that changes it (R54, R43). Nothing else changes. REFRESH_EXPIRY: the slot is EXPIRED with no deadline and nothing on
the calendar, and PUBLICATION-EXPIRED is claimed with the deadline as its time. An entry joins the calendar (insertCalendar, R141) behind
the entries due at or before its own due time and ahead of the first that is due later, by signed difference: on a calendar in order of
due time, behind every entry due at or before it and ahead of every later one; the others keep their order. -/
def Obligations.CalendarSendKeepsTheRhythm : Prop :=
  (∀ (c : CalendarEntry) (before after : List CalendarEntry), (∀ d ∈ before, (c.due - d.due).toNat < 0x80000000) →
    (∀ d, after.head? = some d → 0x80000000 ≤ (c.due - d.due).toNat) →
    insertCalendar c (before ++ after) = before ++ c :: after)
  ∧ (∀ (s : State) (e : CalendarEntry) (rest : List CalendarEntry) (c : PubConfig) (content : List Byte),
    s.calendar = e :: rest → reached s.clock e.due = true → s.pubs[e.slot].config = some c →
    s.pubs[e.slot].buffer = some content → s.pubs[e.slot].state.scheduled = true →
    ∃ t i, exec .calendarSend s = .next t
      ∧ (s.pubs[e.slot].state = .burst → 2 * s.pubs[e.slot].interval.toNat < c.heartbeat.toNat →
          i.toNat = 2 * s.pubs[e.slot].interval.toNat ∧ t.pubs[e.slot].state = .burst)
      ∧ (s.pubs[e.slot].state = .burst → c.heartbeat.toNat ≤ 2 * s.pubs[e.slot].interval.toNat →
          i = c.heartbeat ∧ t.pubs[e.slot].state = .steady)
      ∧ (s.pubs[e.slot].state = .steady → i = c.heartbeat ∧ t.pubs[e.slot].state = .steady)
      ∧ t.pubs[e.slot] =
          { s.pubs[e.slot] with
            interval := i, state := t.pubs[e.slot].state, nextSeq := s.pubs[e.slot].nextSeq + 1
            repeatNo := if s.pubs[e.slot].repeatNo = 255 then 255 else s.pubs[e.slot].repeatNo + 1
            sends := s.pubs[e.slot].sends + 1, count := s.pubs[e.slot].count + 1 }
      ∧ (∀ j : Fin 32, j ≠ e.slot → t.pubs[j] = s.pubs[j])
      ∧ t.calendar = insertCalendar { slot := e.slot, due := e.due + millis i } rest
      ∧ (∀ (u : State) (copy : Option Word → TxRecord),
          (∀ seq, copy seq =
            { frame := buildMessage c.dest s.settings.station s.settings.messageType
                { id := c.id, cls := c.cls, test := c.test, epoch := s.pubs[e.slot].epoch
                  hold := BitVec.ofNat 16 (min 60000 (2 * i.toNat))
                  repeatNo := s.pubs[e.slot].repeatNo.setWidth 8
                  length := BitVec.ofNat 16 content.length } content
              stream := true, trip := c.cls == .trip, seq := seq }) →
          u = offerBays c.forward (copy none) (offerLane .b (copy (some s.pubs[e.slot].nextSeq))
                (offerLane .a (copy (some s.pubs[e.slot].nextSeq)) s)) →
          t.laneA = u.laneA ∧ t.laneB = u.laneB ∧ t.bays = u.bays ∧ t.bayGroup = u.bayGroup ∧ t.journal = u.journal)
      ∧ (∀ p : Fin 512, t.table[p] = s.table[p].map (fun (f : Entry) =>
          if f.origin = .localHost e.slot then
            { f with sendEpoch := s.pubs[e.slot].epoch, sendNext := s.pubs[e.slot].nextSeq + 1 } else f))
      ∧ (∀ p : Fin 512, t.imageCounts[p] = s.imageCounts[p] + (if t.table[p] = s.table[p] then 0 else 1))
      ∧ t = { s with calendar := t.calendar, pubs := t.pubs, laneA := t.laneA, laneB := t.laneB, bays := t.bays
                     bayGroup := t.bayGroup, journal := t.journal, table := t.table, imageCounts := t.imageCounts })
  ∧ ∀ (s : State) (k : Fin 32) (due : Clock), s.pubs[k].refreshAt = some due → reached s.clock due = true →
    exec (.refreshExpiry k) s = .next
      { s with
        calendar := s.calendar.filter (fun d => d.slot != k)
        pubs := modifyAt s.pubs k (fun p =>
          { p with state := .expired, refreshAt := none, interval := 0, count := p.count + 1 })
        journal := { s.journal with claims := s.journal.claims ++
          [{ kind := .publicationExpired, subject := .publication k, time := due
             d1 := (s.pubs[k].config.map (·.id)).getD 0, d2 := s.pubs[k].takenEdition, d3 := s.pubs[k].nextSeq }] } }

/-! ## The clock (R9) and ageing (R55, R57) -/

/-- Tier 2. CLOCK_GROUP_UPDATE, when due: the clock group shows the part clock and the seconds count in one update, and the next falls 100
us later. SECONDS_TICK, when due: the seconds count rises by 1, every entry's age count rises by 1 and stays at 65,535, every BLOCKED
input's block count falls by 1, and exactly the LEARNED entries older than the ageing time are to be removed. AGEING_EXPIRY of one of
them: its position is free, its watch entries are abandoned, a lone count fall is handed on for each LONE record (Lane A's first: the
model's choice, log entry 29), and its record image moves by one update; every other position is kept. A clock value is reached, in every
statement, while the signed 32-bit difference of the part clock from it is not negative (00_scope.md), and milliseconds, steps of 0.1 ms,
steps of 0.5 ms and seconds are 1,000, 100, 500 and 1,000,000 ticks of it (R9). -/
def Obligations.ClockEventsFallDue : Prop :=
  (∀ now due : Clock, reached now due = true ↔ (now - due).toNat < 0x80000000)
  ∧ (∀ n : Word, millis n = BitVec.ofNat 32 (n.toNat * 1000) ∧ tenthMillis n = BitVec.ofNat 32 (n.toNat * 100)
    ∧ halfMillis n = BitVec.ofNat 32 (n.toNat * 500) ∧ secs n = BitVec.ofNat 32 (n.toNat * 1000000))
  ∧ (∀ s : State, s.partState ≠ .initialising → reached s.clock s.nextClockUpdate = true →
    exec .clockGroupUpdate s = .next
      { s with clockGroup := { edition := s.clockGroup.edition + 2, clock := s.clock, seconds := s.seconds }
               nextClockUpdate := s.nextClockUpdate + 100 })
  ∧ (∀ s : State, reached s.clock s.nextTick = true → s.ageingDue = [] →
    ∃ t, exec .secondsTick s = .next t ∧ t.seconds = s.seconds + 1 ∧ t.nextTick = s.nextTick + 1000000
      ∧ (∀ p : Fin 512, t.table[p] = s.table[p].map (fun (e : Entry) =>
          { e with age := if e.age = 0xFFFF then 0xFFFF else e.age + 1 }))
      ∧ (∀ p : Fin 512, p ∈ t.ageingDue ↔
          ∃ e, t.table[p] = some e ∧ e.configured = false ∧ s.settings.ageingTime.toNat < e.age.toNat)
      ∧ (∀ n : Fin 8, t.inputs[n] =
          if s.inputs[n].blocked then { s.inputs[n] with blockCount := s.inputs[n].blockCount - 1 } else s.inputs[n])
      ∧ t = { s with seconds := t.seconds, nextTick := t.nextTick, table := t.table, ageingDue := t.ageingDue
                     inputs := t.inputs })
  ∧ ∀ (s : State) (p : Fin 512) (e : Entry), p ∈ s.ageingDue → s.table[p] = some e →
    ∃ t, exec (.ageingExpiry p) s = .next t ∧ t.table[p] = none ∧ (∀ q : Fin 512, q ≠ p → t.table[q] = s.table[q])
      ∧ t.ageingDue = s.ageingDue.filter (fun q => q != p)
      ∧ t.twinClaims = s.twinClaims ++ [.abandon e.id e.serial]
      ∧ t.loneChanges = s.loneChanges
          ++ (if e.recordA.lone then [{ rise := false, lane := .a, cycle := e.recordA.cycle }] else [])
          ++ (if e.recordB.lone then [{ rise := false, lane := .b, cycle := e.recordB.cycle }] else [])
      ∧ t.imageCounts[p] = s.imageCounts[p] + 1 ∧ (∀ q : Fin 512, q ≠ p → t.imageCounts[q] = s.imageCounts[q])
      ∧ t = { s with table := t.table, ageingDue := t.ageingDue, twinClaims := t.twinClaims, loneChanges := t.loneChanges
                     imageCounts := t.imageCounts }

/-! ## Reception (sections 2.3 to 2.7) -/

/-- Tier 2. LANE_FRAME_RECEIVED on a lane port whose link is UP. A frame in CONFIG, or at a lane that is HELD in RUNNING, is a held
discard whatever it holds. In RUNNING, on a lane that carries traffic, the first check of R29 that fails decides: a frame of bad length
or FCS, a trailer that fails its check, a foreign lane or type, or an ill-formed message raises its own counter; so does a BARE frame off
the bare route or with no pass-bare port, and a STREAM frame that finds the arrival queue full. Either way the counter and the arrival
total rise in one update, COUNTER-FIRST is claimed if the counter stood at 0, and nothing else changes. A STREAM frame that passes, while
the queue has room, joins its tail, stripped of trailer and FCS; a BARE frame on the bare route is offered to the pass-bare ports
(offerBays), without its FCS, in ascending number (the model's choice, log entry 18). What the checks are: a good frame is 64 to 1,522 bytes
long and ends with the FCS of R26 (FcsOf); a trailer is present where the marker stands in the fifth and sixth of the last eight bytes
before it, has its sequence, lane code and version before the marker, and passes where the version is 1 and the last two bytes are the
check of R23 (TrailerCheckOf) over the type word to the marker; and what a lane port sends for a STREAM record (laneBytes) is a good frame
with a trailer that passes, the port's lane code and the record's sequence in it, that strips to the record's frame, padded with zeros
to 52 bytes. -/
def Obligations.LaneFrameReceived : Prop :=
  (∀ f : List Byte, frameGood f = true ↔ 64 ≤ f.length ∧ f.length ≤ 1522 ∧ ∃ body, f = body ++ fcs body)
  ∧ (∀ body : List Byte, FcsOf body (fcs body) ∧ withoutFcs (body ++ fcs body) = body)
  ∧ (∀ body : List Byte, hasTrailer body = true ↔ ∃ msg a b c d x y, body = msg ++ [a, b, c, d, 0xA6, 0xE1, x, y])
  ∧ (∀ (msg body : List Byte) (a b c d x y : Byte), body = msg ++ [a, b, c, d, 0xA6, 0xE1, x, y] →
    trailerSeq body = a ++ b ∧ trailerLane body = c ∧ stripTrailer body = msg
      ∧ (trailerPasses body = true ↔ d = 1 ∧ x ++ y = trailerCheck ((msg ++ [a, b, c, d, 0xA6, 0xE1]).drop 12)))
  ∧ (∀ span : List Byte, TrailerCheckOf span (trailerCheck span)) ∧ laneCode .a = 0x0A ∧ laneCode .b = 0x0B
  ∧ (∀ (l : Lane) (r : TxRecord) (seq : Word), r.stream = true → r.frame.length ≤ 1510 → r.seq = some seq →
    ∃ msg body, msg = r.frame ++ List.replicate (52 - r.frame.length) 0 ∧ laneBytes l r = body ++ fcs body
      ∧ body.length = msg.length + 8 ∧ frameGood (laneBytes l r) = true ∧ hasTrailer body = true ∧ trailerPasses body = true
      ∧ trailerLane body = laneCode l ∧ trailerSeq body = seq ∧ stripTrailer body = msg)
  ∧ (∀ (l : Lane) (r : TxRecord), r.stream = false → laneBytes l r = r.frame ++ fcs r.frame)
  ∧ ∀ (s : State) (l : Lane) (f : List Byte), (s.lane l).group.link = true →
    (∀ c : LaneCounter,
      ((c = .heldDiscards
          ∧ (s.partState = .config ∨ (s.partState = .running ∧ (s.lane l).group.state = .held)))
        ∨ (s.partState = .running ∧ (s.lane l).group.state.carries = true
          ∧ ((frameGood f = false ∧ c = .frameErrors)
            ∨ (frameGood f = true ∧ hasTrailer (withoutFcs f) = false
              ∧ (s.bareRoute ≠ l ∨ s.settings.passBare = 0) ∧ c = .bareDiscards)
            ∨ (frameGood f = true ∧ hasTrailer (withoutFcs f) = true
              ∧ ((trailerPasses (withoutFcs f) = false ∧ c = .damaged)
                ∨ (trailerPasses (withoutFcs f) = true
                  ∧ ((trailerLane (withoutFcs f) ≠ laneCode l ∧ c = .crossLane)
                    ∨ (trailerLane (withoutFcs f) = laneCode l
                      ∧ ((typeWord (withoutFcs f) ≠ s.settings.messageType ∧ c = .foreignTag)
                        ∨ (typeWord (withoutFcs f) = s.settings.messageType
                          ∧ ((readHeader (stripTrailer (withoutFcs f)) = none ∧ c = .damaged)
                            ∨ ((readHeader (stripTrailer (withoutFcs f))).isSome = true
                              ∧ 8 ≤ (s.lane l).arrivals.length ∧ c = .overruns)))))))))))) →
      ∃ t, exec (.laneFrameReceived l f) s = .next t
        ∧ (t.lane l).group.count c = (if (s.lane l).group.count c = 0xFFFF then 0xFFFF else (s.lane l).group.count c + 1)
        ∧ (∀ d, d ≠ c → (t.lane l).group.count d = (s.lane l).group.count d)
        ∧ (t.lane l).group = { (s.lane l).group with
            edition := (s.lane l).group.edition + 2, arrival := (s.lane l).group.arrival + 1
            frameErrors := (t.lane l).group.frameErrors, overruns := (t.lane l).group.overruns
            damaged := (t.lane l).group.damaged, crossLane := (t.lane l).group.crossLane
            foreignTag := (t.lane l).group.foreignTag, heldDiscards := (t.lane l).group.heldDiscards
            bareDiscards := (t.lane l).group.bareDiscards, drops := (t.lane l).group.drops }
        ∧ t.lane l = { s.lane l with group := (t.lane l).group } ∧ t.lane l.other = s.lane l.other
        ∧ t.journal.claims = s.journal.claims ++ (if (s.lane l).group.count c = 0 then
            [{ kind := .counterFirst, subject := .lane l, time := s.clock, d1 := laneCounterCode c, d2 := 0, d3 := 0 }]
            else [])
        ∧ t = { s with laneA := t.laneA, laneB := t.laneB, journal := { s.journal with claims := t.journal.claims } })
    ∧ (s.partState = .running → (s.lane l).group.state.carries = true → frameGood f = true →
      hasTrailer (withoutFcs f) = false → s.bareRoute = l → s.settings.passBare ≠ 0 →
      exec (.laneFrameReceived l f) s = .next (offerBays s.settings.passBare
        { frame := withoutFcs f, stream := false, trip := false, seq := none }
        (s.modifyLane l (fun p => { p with
          group := { p.group with arrival := p.group.arrival + 1, edition := p.group.edition + 2 } }))))
    ∧ ∀ h : Header, s.partState = .running → (s.lane l).group.state.carries = true → frameGood f = true →
      hasTrailer (withoutFcs f) = true → trailerPasses (withoutFcs f) = true → trailerLane (withoutFcs f) = laneCode l →
      typeWord (withoutFcs f) = s.settings.messageType → readHeader (stripTrailer (withoutFcs f)) = some h →
      (s.lane l).arrivals.length < 8 →
      exec (.laneFrameReceived l f) s = .next (s.modifyLane l (fun p =>
        { p with
          group := { p.group with arrival := p.group.arrival + 1, edition := p.group.edition + 2 }
          arrivals := p.arrivals ++
            [{ frame := stripTrailer (withoutFcs f), port := .lane l, seq := some (trailerSeq (withoutFcs f))
               time := s.clock, header := h }] }))

/-- Tier 2. BAY_FRAME_RECEIVED on a port whose link is UP. In CONFIG the frame is discarded uncounted. In RUNNING a STREAM frame of
at most 1,514 bytes joins the arrival queue without a twin sequence while there is room, and a BARE frame at a pass-bare port is offered
to the bare route's lane (offerLane). A bad frame, one with a twin trailer, a BARE frame at another port, an ill-formed or over-long
message and one that finds the queue full raise their own counter and the arrival total in one update, with COUNTER-FIRST claimed if the
counter stood at 0, and nothing else changes. What is read of a message: the type word after the twelve address bytes, then the header of
R176 (the id in the low twelve bits of its word, the class code in bits 12 to 14, TEST in bit 15; epoch, hold time, repeat number, content
length), each word more significant byte first; it is well-formed exactly within the bounds of R21, and its content is the bytes after it.
What a bay port sends (bayBytes) is the record's frame, padded with zeros to 60 bytes, with its FCS: a good frame. -/
def Obligations.BayFrameReceived : Prop :=
  (∀ (addresses rest msg : List Byte) (t0 t1 w0 w1 e h0 h1 n l0 l1 : Byte), addresses.length = 12 →
    msg = addresses ++ [t0, t1, w0, w1, e, h0, h1, n, l0, l1] ++ rest →
    typeWord msg = t0 ++ t1
    ∧ (∀ h : Header, readHeader msg = some h ↔
        h.id.toNat = (w0 ++ w1).toNat % 4096 ∧ (classCode h.cls).toNat = (w0 ++ w1).toNat / 4096 % 8
        ∧ h.test = w0.getLsbD 7 ∧ h.epoch = e ∧ h.hold = h0 ++ h1 ∧ h.repeatNo = n ∧ h.length = l0 ++ l1
        ∧ 1 ≤ h.id.toNat ∧ h.hold.toNat ≤ 60000 ∧ h.length.toNat ≤ 480 ∧ h.length.toNat ≤ rest.length)
    ∧ ∀ a : Arrival, a.frame = msg → contentOf a = rest.take a.header.length.toNat)
  ∧ (∀ msg : List Byte, msg.length < 22 → readHeader msg = none)
  ∧ [Cls.trip, .status, .sample, .service].map classCode = [1, 2, 3, 4]
  ∧ (∀ r : TxRecord, r.frame.length ≤ 1518 → frameGood (bayBytes r) = true
      ∧ bayBytes r = (r.frame ++ List.replicate (60 - r.frame.length) 0)
        ++ fcs (r.frame ++ List.replicate (60 - r.frame.length) 0))
  ∧ ∀ (s : State) (p : Fin 4) (f : List Byte), s.bayGroup.ports[p].link = true →
    (s.partState = .config → exec (.bayFrameReceived p f) s = .next s)
    ∧ (s.partState = .running →
      (∀ h, frameGood f = true → hasTrailer (withoutFcs f) = false → typeWord (withoutFcs f) = s.settings.messageType →
        readHeader (withoutFcs f) = some h → f.length ≤ 1514 → s.bays[p].arrivals.length < 8 →
        exec (.bayFrameReceived p f) s = .next
          { s with
            bayGroup := { edition := s.bayGroup.edition + 2
                          ports := modifyAt s.bayGroup.ports p (fun b => { b with arrival := b.arrival + 1 }) }
            bays := modifyAt s.bays p (fun b =>
              { b with arrivals := b.arrivals ++
                [{ frame := withoutFcs f, port := .bay p, seq := none, time := s.clock, header := h }] }) })
      ∧ (frameGood f = true → hasTrailer (withoutFcs f) = false → typeWord (withoutFcs f) ≠ s.settings.messageType →
        s.settings.passBare.getLsbD p.val = true →
        exec (.bayFrameReceived p f) s = .next (offerLane s.bareRoute
          { frame := withoutFcs f, stream := false, trip := false, seq := none }
          { s with
            bayGroup := { edition := s.bayGroup.edition + 2
                          ports := modifyAt s.bayGroup.ports p (fun b => { b with arrival := b.arrival + 1 }) } }))
      ∧ ∀ c, ((frameGood f = false ∧ c = .frameErrors)
          ∨ (frameGood f = true ∧ hasTrailer (withoutFcs f) = true ∧ c = .trailerOnBay)
          ∨ (frameGood f = true ∧ hasTrailer (withoutFcs f) = false
            ∧ ((typeWord (withoutFcs f) ≠ s.settings.messageType ∧ s.settings.passBare.getLsbD p.val = false
                ∧ c = .bareDiscards)
              ∨ (typeWord (withoutFcs f) = s.settings.messageType
                ∧ (((readHeader (withoutFcs f) = none ∨ 1514 < f.length) ∧ c = .damaged)
                  ∨ ((readHeader (withoutFcs f)).isSome = true ∧ f.length ≤ 1514 ∧ 8 ≤ s.bays[p].arrivals.length
                    ∧ c = .overruns)))))) →
        ∃ t, exec (.bayFrameReceived p f) s = .next t
          ∧ t.bayGroup.ports[p].count c
              = (if s.bayGroup.ports[p].count c = 0xFFFF then 0xFFFF else s.bayGroup.ports[p].count c + 1)
          ∧ (∀ d, d ≠ c → t.bayGroup.ports[p].count d = s.bayGroup.ports[p].count d)
          ∧ t.bayGroup.ports[p] = { s.bayGroup.ports[p] with
              arrival := s.bayGroup.ports[p].arrival + 1, frameErrors := t.bayGroup.ports[p].frameErrors
              overruns := t.bayGroup.ports[p].overruns, damaged := t.bayGroup.ports[p].damaged
              bareDiscards := t.bayGroup.ports[p].bareDiscards, trailerOnBay := t.bayGroup.ports[p].trailerOnBay
              drops := t.bayGroup.ports[p].drops }
          ∧ t.bayGroup.edition = s.bayGroup.edition + 2
          ∧ (∀ q : Fin 4, q ≠ p → t.bayGroup.ports[q] = s.bayGroup.ports[q])
          ∧ t.journal.claims = s.journal.claims ++ (if s.bayGroup.ports[p].count c = 0 then
              [{ kind := .counterFirst, subject := .bayPort p, time := s.clock, d1 := bayCounterCode c, d2 := 0
                 d3 := 0 }] else [])
          ∧ t = { s with bayGroup := t.bayGroup, journal := { s.journal with claims := t.journal.claims } })

/-! ## Links (R27, R91, R96, R151) and the bare route (R100, R101) -/

/-- Tier 2. LANE_LINK_UP, taken by a port whose link was DOWN: the link state is UP; a lane that was DOWN enters PROVING with its timer
started and its longest twin delay 0; a lane in any other state keeps it. LANE_LINK_DOWN, taken by a port whose link was UP: a frame whose
reception it cuts is a frame error whatever the lane's state (on a HELD lane and in CONFIG this is the model's reading, log entry 7),
COUNTER-FIRST claimed before LANE-VERDICT (the model's choice, log entry 34). A lane that carries traffic enters DOWN with its lane cycle
one on and lone count 0, its frame on the wire cut and its queues flushed, each frame counted; LANE-VERDICT carries the count it had. A
HELD lane stays HELD and its frame on the wire is cut. A change of lane state offers the LANE event in RUNNING; the redundancy state is
then that of the two lanes, and where it has changed REDUNDANCY is claimed and, in RUNNING, its event offered after those (R98, R99; in
CONFIG, while START is WORKING past its step 3, this is the model's choice, log entries 20 and 44). -/
def Obligations.LaneLinkMovesTheLane : Prop :=
  (∀ (s : State) (l : Lane), s.partState ≠ .initialising → (s.lane l).group.link = false →
    ∃ t, exec (.laneLinkUp l) s = .next t ∧ (t.lane l).group.link = true
      ∧ (t.lane l).group.state = (if (s.lane l).group.state = .down then .proving else (s.lane l).group.state)
      ∧ ((s.lane l).group.state = .down →
          (t.lane l).provingEnds = some (s.clock + secs s.settings.provingPeriod) ∧ t.counters.longest l = 0
          ∧ t.redundancy = redundancyOf t.laneA.group.state t.laneB.group.state
          ∧ t.journal.claims = s.journal.claims
            ++ [{ kind := .laneVerdict, subject := .lane l, time := s.clock
                  d1 := (laneStateCode .down <<< 8) ||| laneStateCode .proving, d2 := (s.lane l).group.lone
                  d3 := laneCauseCode .linkUp }]
            ++ (if t.redundancy = s.redundancy then [] else
                [{ kind := .redundancy, subject := .lane l, time := s.clock, d1 := redundancyCode s.redundancy
                   d2 := redundancyCode t.redundancy, d3 := 0 }])
          ∧ t.events = s.events ++ (if s.partState = .running then
              [.lane l .proving] ++ (if t.redundancy = s.redundancy then [] else [.redundancy t.redundancy])
            else []))
      ∧ ((s.lane l).group.state ≠ .down →
          t.redundancy = s.redundancy ∧ t.journal = s.journal ∧ t.events = s.events)
      ∧ (t.lane l).cycle = (s.lane l).cycle ∧ t.lane l.other = s.lane l.other ∧ t.table = s.table)
  ∧ ∀ (s : State) (l : Lane) (cut : Bool), s.partState ≠ .initialising → (s.lane l).group.link = true →
    ∃ t, exec (.laneLinkDown l cut) s = .next t ∧ (t.lane l).group.link = false ∧ t.lane l.other = s.lane l.other
      ∧ (t.lane l).group.frameErrors = (if cut = true ∧ (s.lane l).group.frameErrors ≠ 0xFFFF then
          (s.lane l).group.frameErrors + 1 else (s.lane l).group.frameErrors)
      ∧ (t.lane l).group.arrival = (s.lane l).group.arrival
      ∧ t.redundancy = (if (s.lane l).group.state.carries then redundancyOf t.laneA.group.state t.laneB.group.state
          else s.redundancy)
      ∧ t.journal.claims = s.journal.claims
          ++ (if cut = true ∧ (s.lane l).group.frameErrors = 0 then
              [{ kind := .counterFirst, subject := .lane l, time := s.clock, d1 := laneCounterCode .frameErrors, d2 := 0
                 d3 := 0 }] else [])
          ++ (if (s.lane l).group.state.carries then
              [{ kind := .laneVerdict, subject := .lane l, time := s.clock
                 d1 := (laneStateCode (s.lane l).group.state <<< 8) ||| laneStateCode .down, d2 := (s.lane l).group.lone
                 d3 := laneCauseCode .linkDown }] else [])
          ++ (if t.redundancy = s.redundancy then [] else
              [{ kind := .redundancy, subject := .lane l, time := s.clock, d1 := redundancyCode s.redundancy
                 d2 := redundancyCode t.redundancy, d3 := 0 }])
      ∧ t.events = s.events ++ (if s.partState = .running ∧ (s.lane l).group.state.carries = true then
          [.lane l .down] ++ (if t.redundancy = s.redundancy then [] else [.redundancy t.redundancy])
        else [])
      ∧ ((s.lane l).group.state.carries = true →
          (t.lane l).group.state = .down ∧ (t.lane l).group.lone = 0 ∧ (t.lane l).cycle = (s.lane l).cycle + 1
          ∧ (t.lane l).urgent = [] ∧ (t.lane l).normal = [] ∧ (t.lane l).wire = none ∧ (t.lane l).provingEnds = none
          ∧ (t.lane l).group.flushed = (s.lane l).group.flushed
              + BitVec.ofNat 32 ((s.lane l).urgent.length + (s.lane l).normal.length
                  + (if (s.lane l).wire.isSome then 1 else 0))
          ∧ t.cleanups = s.cleanups ++ [l] ∧ t.laneNotices = s.laneNotices ++ [l])
      ∧ ((s.lane l).group.state = .held → (t.lane l).group.state = .held ∧ (t.lane l).wire = none
          ∧ (t.lane l).cycle = (s.lane l).cycle
          ∧ (t.lane l).group.flushed = (s.lane l).group.flushed + (if (s.lane l).wire.isSome then 1 else 0))
      ∧ t.table = s.table ∧ t.watchList = s.watchList

/-- Tier 2. BAY_LINK_UP and BAY_LINK_DOWN, outside INITIALISING: the link state follows; going down empties the port's queue and cuts its
frame on the wire, each frame counted as flushed, and a frame whose reception it cuts is a frame error, with COUNTER-FIRST claimed if the
counter stood at 0 (in CONFIG as in RUNNING: the model's reading, log entry 7); the arrival total and the other ports are as they were. -/
def Obligations.BayLinkFollowsThePin : Prop :=
  ∀ (s : State) (p : Fin 4), s.partState ≠ .initialising →
    (∃ t, exec (.bayLinkUp p) s = .next t ∧ t.bayGroup.ports[p] = { s.bayGroup.ports[p] with link := true }
      ∧ (∀ q : Fin 4, q ≠ p → t.bayGroup.ports[q] = s.bayGroup.ports[q]) ∧ t.bays = s.bays)
    ∧ ∀ cut, s.bayGroup.ports[p].link = true →
      ∃ t, exec (.bayLinkDown p cut) s = .next t ∧ t.bayGroup.ports[p].link = false
        ∧ t.bays[p].queue = [] ∧ t.bays[p].wire = none ∧ t.bays[p].arrivals = s.bays[p].arrivals
        ∧ t.bayGroup.ports[p].flushed = s.bayGroup.ports[p].flushed
            + BitVec.ofNat 32 (s.bays[p].queue.length + (if s.bays[p].wire.isSome then 1 else 0))
        ∧ t.bayGroup.ports[p].frameErrors =
            (if cut = true ∧ s.bayGroup.ports[p].frameErrors ≠ 0xFFFF then
              s.bayGroup.ports[p].frameErrors + 1 else s.bayGroup.ports[p].frameErrors)
        ∧ t.bayGroup.ports[p].arrival = s.bayGroup.ports[p].arrival
        ∧ t.journal.claims = s.journal.claims ++ (if cut = true ∧ s.bayGroup.ports[p].frameErrors = 0 then
            [{ kind := .counterFirst, subject := .bayPort p, time := s.clock, d1 := bayCounterCode .frameErrors, d2 := 0
               d3 := 0 }] else [])
        ∧ (∀ q : Fin 4, q ≠ p → t.bays[q] = s.bays[q] ∧ t.bayGroup.ports[q] = s.bayGroup.ports[q])

/-- Tier 2. R100, R101: how the bare route follows the lanes. At INITIALISING_COMPLETE it stays, and after either reset it is Lane A. At
any of the commands that move one lane, a route on a lane that enters DOWN or HELD goes to the other lane if that is in neither; a lane
that enters PROVING takes the route from one that is DOWN or HELD; the preferred lane takes it as it enters HEALTHY; else it stays. -/
def Obligations.BareRouteFollowsTheLanes : Prop :=
  (∀ s : State, (∃ t, exec .hardwareReset s = .next t ∧ t.bareRoute = .a)
    ∧ (s.partState ≠ .initialising → s.working = none → ∃ t, exec .softReset s = .next t ∧ t.bareRoute = .a)
    ∧ (s.partState = .initialising → ∃ t, exec .initialisingComplete s = .next t ∧ t.bareRoute = s.bareRoute))
  ∧ ∀ (s : State) (i : Instr) (l : Lane),
    (i = .laneHold ∨ i = .laneRelease ∨ i = .laneLinkUp l ∨ (∃ cut, i = .laneLinkDown l cut) ∨ i = .provingTimerExpiry l
      ∨ i = .loneCountRise ∨ i = .loneCountFall) →
    ∃ t, exec i s = .next t
      ∧ ((∀ m, (t.lane m).group.state = (s.lane m).group.state) → t.bareRoute = s.bareRoute)
      ∧ ∀ m, (t.lane m).group.state ≠ (s.lane m).group.state →
        (t.lane m.other).group.state = (s.lane m.other).group.state
        ∧ (((t.lane m).group.state = .down ∨ (t.lane m).group.state = .held) → t.bareRoute =
            (if s.bareRoute = m ∧ (s.lane m.other).group.state.carries = true then m.other else s.bareRoute))
        ∧ ((t.lane m).group.state = .proving → t.bareRoute =
            (if (t.lane s.bareRoute).group.state = .down ∨ (t.lane s.bareRoute).group.state = .held then m
             else s.bareRoute))
        ∧ ((t.lane m).group.state = .healthy → t.bareRoute = (if m = s.settings.bareLane then m else s.bareRoute))
        ∧ (((t.lane m).group.state = .suspect ∨ (t.lane m).group.state = .degraded) → t.bareRoute = s.bareRoute)

/-! ## Transmission (chapter 9) -/

/-- Tier 2. LANE_TRANSMIT_END and BAY_TRANSMIT_END of a frame on the wire: the sent total rises by 1, and the port begins its next record
(URGENT before NORMAL on a lane) if the lane carries traffic, or the bay port's link is UP, and leaves the wire idle if nothing waits or
it may not send. Where a record is placed (R145, R149, R150): on a lane port that carries traffic a TRIP stream copy joins URGENT if that
has room, any other record, and a TRIP copy that finds URGENT full, joins NORMAL if that has room, and else the record is dropped and
counted; a lane that is DOWN or HELD counts it as not sent. A bay port whose link is DOWN counts it as not sent; in the queue of one whose
link is UP a TRIP record stands behind the TRIP records and ahead of all others, any other record at the tail; on a full queue a TRIP
record displaces the newest record that is not TRIP, and any other is dropped, and the drop is counted. A port that is idle and may send
begins at once with the record that then heads its queues (URGENT before NORMAL). A drop at a lane port or a bay port raises its count,
which stays at 65,535, and claims COUNTER-FIRST if the count stood at 0 (R37); nothing else changes but the edition of the port's group. A
record offered to a set of bay ports (offerBays) is offered to exactly the ports of the set, each once, in ascending number (that order is
the model's choice, log entry 18). -/
def Obligations.RecordsArePlacedAndSent : Prop :=
  (∀ (s : State) (l : Lane), (s.lane l).wire.isSome = true →
    ∃ t, exec (.laneTransmitEnd l) s = .next t
      ∧ (t.lane l).group = { (s.lane l).group with sent := (s.lane l).group.sent + 1, edition := (s.lane l).group.edition + 2 }
      ∧ t = s.modifyLane l (fun _ => t.lane l) ∧ (t.lane l).arrivals = (s.lane l).arrivals
      ∧ (((s.lane l).group.state.carries && (s.lane l).group.link) = true →
        (∀ r rest, (s.lane l).urgent = r :: rest →
          (t.lane l).wire = some { record := r, bytes := laneBytes l r } ∧ (t.lane l).urgent = rest
          ∧ (t.lane l).normal = (s.lane l).normal)
        ∧ (∀ r rest, (s.lane l).urgent = [] → (s.lane l).normal = r :: rest →
          (t.lane l).wire = some { record := r, bytes := laneBytes l r } ∧ (t.lane l).normal = rest)
        ∧ ((s.lane l).urgent = [] → (s.lane l).normal = [] → (t.lane l).wire = none))
      ∧ (((s.lane l).group.state.carries && (s.lane l).group.link) = false → (t.lane l).wire = none
          ∧ (t.lane l).urgent = (s.lane l).urgent ∧ (t.lane l).normal = (s.lane l).normal))
  ∧ (∀ (s : State) (p : Fin 4), s.bays[p].wire.isSome = true →
    ∃ t, exec (.bayTransmitEnd p) s = .next t
      ∧ t.bayGroup.ports[p] = { s.bayGroup.ports[p] with sent := s.bayGroup.ports[p].sent + 1 }
      ∧ (∀ q : Fin 4, q ≠ p → t.bays[q] = s.bays[q] ∧ t.bayGroup.ports[q] = s.bayGroup.ports[q])
      ∧ (∀ r rest, s.bayGroup.ports[p].link = true → s.bays[p].queue = r :: rest →
          t.bays[p].wire = some { record := r, bytes := bayBytes r } ∧ t.bays[p].queue = rest)
      ∧ (s.bayGroup.ports[p].link = false ∨ s.bays[p].queue = [] →
          t.bays[p].wire = none ∧ t.bays[p].queue = s.bays[p].queue))
  ∧ (∀ (s : State) (l : Lane) (r : TxRecord),
    ((s.lane l).group.state.carries = false →
      offerLane l r s = s.modifyLane l (fun p => { p with
        group := { p.group with notSent := p.group.notSent + 1, edition := p.group.edition + 2 } }))
    ∧ (∀ u n : List TxRecord, (s.lane l).group.state.carries = true →
        (((r.stream && r.trip) = true ∧ (s.lane l).urgent.length < 16 ∧ u = (s.lane l).urgent ++ [r] ∧ n = (s.lane l).normal)
          ∨ (((r.stream && r.trip) = false ∨ 16 ≤ (s.lane l).urgent.length) ∧ (s.lane l).normal.length < 64
            ∧ u = (s.lane l).urgent ∧ n = (s.lane l).normal ++ [r])) →
        (((s.lane l).wire.isSome = true ∨ (s.lane l).group.link = false) →
          offerLane l r s = s.modifyLane l (fun p => { p with urgent := u, normal := n }))
        ∧ ((s.lane l).wire = none → (s.lane l).group.link = true →
          (∀ x rest, u = x :: rest → offerLane l r s = s.modifyLane l (fun p =>
            { p with urgent := rest, normal := n, wire := some { record := x, bytes := laneBytes l x } }))
          ∧ ∀ x rest, u = [] → n = x :: rest → offerLane l r s = s.modifyLane l (fun p =>
            { p with urgent := [], normal := rest, wire := some { record := x, bytes := laneBytes l x } })))
    ∧ ((s.lane l).group.state.carries = true → ((r.stream && r.trip) = false ∨ 16 ≤ (s.lane l).urgent.length) →
        64 ≤ (s.lane l).normal.length →
        offerLane l r s =
          { s.modifyLane l (fun p => { p with group := { p.group with
              edition := ((offerLane l r s).lane l).group.edition
              drops := if p.group.drops = 0xFFFF then 0xFFFF else p.group.drops + 1 } }) with
            journal := { s.journal with claims := s.journal.claims ++ (if (s.lane l).group.drops = 0 then
              [{ kind := .counterFirst, subject := .lane l, time := s.clock, d1 := laneCounterCode .drops, d2 := 0, d3 := 0 }]
              else []) } }))
  ∧ (∀ (set : PortSet) (r : TxRecord) (s : State), offerBays set r s
      = ((List.finRange 4).filter (fun p => set.getLsbD p.val)).foldl (fun t p => offerBay p r t) s)
  ∧ (∀ (s : State) (p : Fin 4) (r : TxRecord), s.partState = .running →
    (s.bayGroup.ports[p].link = false → offerBay p r s = { s with
      bayGroup := { edition := s.bayGroup.edition + 2
                    ports := modifyAt s.bayGroup.ports p (fun b => { b with notSent := b.notSent + 1 }) } })
    ∧ (s.bayGroup.ports[p].link = true → ∀ (q : List TxRecord) (dropped : Bool),
      BayPort.enqueue r s.bays[p].queue = (q, dropped) →
      (s.bays[p].wire.isSome = true → (offerBay p r s).bays = modifyAt s.bays p (fun b => { b with queue := q }))
      ∧ (∀ x rest, s.bays[p].wire = none → q = x :: rest → (offerBay p r s).bays = modifyAt s.bays p (fun b =>
          { b with queue := rest, wire := some { record := x, bytes := bayBytes x } }))
      ∧ (dropped = false → (offerBay p r s).bayGroup = s.bayGroup ∧ (offerBay p r s).journal = s.journal)
      ∧ (dropped = true → (offerBay p r s).bayGroup =
            { edition := (offerBay p r s).bayGroup.edition
              ports := modifyAt s.bayGroup.ports p (fun b =>
                { b with drops := if b.drops = 0xFFFF then 0xFFFF else b.drops + 1 }) }
          ∧ (offerBay p r s).journal = { s.journal with claims := s.journal.claims
              ++ (if s.bayGroup.ports[p].drops = 0 then
                [{ kind := .counterFirst, subject := .bayPort p, time := s.clock, d1 := bayCounterCode .drops, d2 := 0
                   d3 := 0 }] else []) })
      ∧ offerBay p r s = { s with bays := (offerBay p r s).bays, bayGroup := (offerBay p r s).bayGroup
                                  journal := (offerBay p r s).journal }))
  ∧ ∀ (r : TxRecord) (trips others : List TxRecord), (∀ x ∈ trips, x.trip = true) → (∀ x ∈ others, x.trip = false) →
    ((trips ++ others).length < 32 → BayPort.enqueue r (trips ++ others)
      = (if r.trip then trips ++ r :: others else trips ++ others ++ [r], false))
    ∧ ((trips ++ others).length = 32 → r.trip = true → ∀ rest last, others = rest ++ [last] →
        BayPort.enqueue r (trips ++ others) = (trips ++ r :: rest, true))
    ∧ ((trips ++ others).length = 32 → (r.trip = false ∨ others = []) →
        BayPort.enqueue r (trips ++ others) = (trips ++ others, true))

/-! ## The window (R63 to R71) -/

/-- Tier 2. R64, R67 to R69: how a lane copy is judged. For an EMPTY window it is a FIRST that begins it; else, by f = (e' - e) mod 256,
it is judged by its sequence at 0, opens a new epoch at 1 to 127, and is OLD-EPOCH, the window unchanged, at 128 to 255. By its
sequence, d = (s - H) mod 65536, it is AHEAD at 1 to 32767 and moves the window forward by d, LATE when it lies 32 or more behind, and
otherwise judged by the mark at its position, which then changes as the table gives. -/
def Obligations.CopiesAreJudgedByTheWindow : Prop :=
  (∀ (epoch : Byte) (seq : Word) (l : Lane),
    judge none epoch seq l = (.firstFromEmpty, some (Window.start seq epoch l))
    ∧ (Window.start seq epoch l).high = seq ∧ (Window.start seq epoch l).epoch = epoch
    ∧ (∀ i : Fin 32, (Window.start seq epoch l).marks[i] = if i.val = 0 then Mark.ofLane l else .empty)
    ∧ ∀ w : Window,
      (epoch = w.epoch → judge (some w) epoch seq l = ((w.judgeSeq seq l).1, some (w.judgeSeq seq l).2))
      ∧ (1 ≤ (epoch - w.epoch).toNat → (epoch - w.epoch).toNat ≤ 127 →
          judge (some w) epoch seq l = (.firstNewEpoch w.epoch, some (Window.start seq epoch l)))
      ∧ (128 ≤ (epoch - w.epoch).toNat → judge (some w) epoch seq l = (.oldEpoch, some w)))
  ∧ ∀ (w : Window) (seq : Word) (l : Lane) (d : Nat), d = (seq - w.high).toNat →
    (1 ≤ d → d ≤ 32767 → (w.judgeSeq seq l).1 = .firstAhead
      ∧ (w.judgeSeq seq l).2.high = seq ∧ (w.judgeSeq seq l).2.epoch = w.epoch
      ∧ (w.judgeSeq seq l).2.marks[0] = Mark.ofLane l
      ∧ (∀ i j : Fin 32, j.val = i.val + d → (w.judgeSeq seq l).2.marks[j] = w.marks[i])
      ∧ (∀ j : Fin 32, 1 ≤ j.val → j.val < d → (w.judgeSeq seq l).2.marks[j] = .empty))
    ∧ (32768 ≤ d → d ≤ 65504 → w.judgeSeq seq l = (.late, w))
    ∧ ∀ i : Fin 32, (d + i.val) % 65536 = 0 →
        (w.marks[i] = .empty →
          w.judgeSeq seq l = (.firstFilled, { w with marks := w.marks.set i (Mark.ofLane l) }))
        ∧ (w.marks[i] = Mark.ofLane l.other → w.judgeSeq seq l = (.twin, { w with marks := w.marks.set i .both }))
        ∧ (w.marks[i] = Mark.ofLane l → w.judgeSeq seq l = (.repeated, w))
        ∧ (w.marks[i] = .both → w.judgeSeq seq l = (.repeated, w))

/-- Tier 2. R71: once a copy of an epoch and sequence s has been judged, no second copy of them, on either lane, is a FIRST against the
window it leaves; nor is one after any copies judged in between, while none of these has begun a newer epoch and H has stayed at most
32,768 beyond s. Once H is 32,769 or more beyond s in the window of that epoch, a copy of s is AHEAD. -/
def Obligations.NoMessageIsFirstTwice : Prop :=
  ∀ (w : Option Window) (epoch : Byte) (seq : Word) (l m : Lane),
    (judge (judge w epoch seq l).2 epoch seq m).1.isFirst = false
    ∧ (∀ (between : List (Byte × Word × Lane)) (left : List (Byte × Word × Lane) → Option Window),
      (∀ copies, left copies = copies.foldl (fun v c => (judge v c.1 c.2.1 c.2.2).2) (judge w epoch seq l).2) →
      (∀ before c after old, between = before ++ c :: after →
        (judge (left before) c.1 c.2.1 c.2.2).1 ≠ .firstNewEpoch old) →
      (∀ before after x, between = before ++ after → left before = some x → x.epoch = epoch →
        (x.high - seq).toNat ≤ 32768) →
      (judge (left between) epoch seq m).1.isFirst = false)
    ∧ ∀ x : Window, x.epoch = epoch → 32768 < (x.high - seq).toNat → (judge (some x) epoch seq m).1 = .firstAhead

/-! ## Arrivals taken (R38, R45 to R51, R60 to R76) -/

/-- Tier 2. ARRIVAL_TAKEN when the engine is ready and a queue holds a record: one port gives up its head and becomes the last port
served; every other queue keeps its records. Of the queues whose head is TRIP if there is one, else of all that hold a record, it is the
first in the cycle Lane A, Lane B, bay port 1 to 4 that starts after the last port served. -/
def Obligations.ArrivalTakenServesTheCycle : Prop :=
  ∀ (s : State), engineReady s = true → (∃ q, s.arrivals q ≠ []) →
    ∃ t p a, exec .arrivalTaken s = .next t ∧ (s.arrivals p).head? = some a ∧ t.lastServed = p
      ∧ t.arrivals p = (s.arrivals p).tail ∧ (∀ q, q ≠ p → t.arrivals q = s.arrivals q)
      ∧ ((∃ q b, (s.arrivals q).head? = some b ∧ b.header.cls = .trip) →
          a.header.cls = .trip
          ∧ ∀ q b, (s.arrivals q).head? = some b → b.header.cls = .trip →
            Port.turn s.lastServed p ≤ Port.turn s.lastServed q)
      ∧ ((∀ q b, (s.arrivals q).head? = some b → b.header.cls ≠ .trip) →
          ∀ q, s.arrivals q ≠ [] → Port.turn s.lastServed p ≤ Port.turn s.lastServed q)
      ∧ t.partState = s.partState ∧ t.mem = s.mem ∧ t.clock = s.clock

/-- Tier 2. R72, R73: a lane copy of a REMOTE entry that is not FIRST is discarded as a message. TWIN: only the entry's twins count and
window change, and the twin is handed to Twin Watch. REPEAT: the entry's repeats count and its lane's repeat total rise. LATE and
OLD-EPOCH: the entry's late count rises. Each entry count stays at 65,535, and nothing else changes. -/
def Obligations.CopiesNotFirstAreDiscarded : Prop :=
  ∀ (s : State) (l : Lane) (a : Arrival) (more : List Arrival) (p : Fin 512) (e : Entry) (j : Judgement)
    (w : Option Window),
    engineReady s = true → chosenPort s = some (.lane l) → (s.lane l).arrivals = a :: more → a.port = .lane l →
    s.lookup a.header.id = some (p, e) → e.origin = .remote →
    judge e.window a.header.epoch (a.seq.getD 0) l = (j, w) →
    (j = .twin → ∃ t, exec .arrivalTaken s = .next t
      ∧ t.table = s.table.set p (some { e with window := w, twins := if e.twins = 0xFFFF then 0xFFFF else e.twins + 1 })
      ∧ t.twinClaims = s.twinClaims ++ [.twin e.id e.serial (a.seq.getD 0) l a.time]
      ∧ t = { s.modifyLane l (fun x => { x with arrivals := more }) with
              lastServed := .lane l, table := t.table, twinClaims := t.twinClaims, imageCounts := t.imageCounts })
    ∧ (j = .repeated → ∃ t, exec .arrivalTaken s = .next t
      ∧ t.table = s.table.set p (some { e with repeats := if e.repeats = 0xFFFF then 0xFFFF else e.repeats + 1 })
      ∧ t.counters = { s.counters with
          edition := s.counters.edition + 2
          repeatsA := if l = .a then s.counters.repeatsA + 1 else s.counters.repeatsA
          repeatsB := if l = .b then s.counters.repeatsB + 1 else s.counters.repeatsB }
      ∧ t = { s.modifyLane l (fun x => { x with arrivals := more }) with
              lastServed := .lane l, table := t.table, counters := t.counters, imageCounts := t.imageCounts })
    ∧ (j = .late ∨ j = .oldEpoch → ∃ t, exec .arrivalTaken s = .next t
      ∧ t.table = s.table.set p (some { e with late := if e.late = 0xFFFF then 0xFFFF else e.late + 1 })
      ∧ t = { s.modifyLane l (fun x => { x with arrivals := more }) with
              lastServed := .lane l, table := t.table, imageCounts := t.imageCounts })

/-- Tier 2. R70: a lane copy judged FIRST is accepted: the firsts count, class, last acceptance time, age count and freshness of the entry
follow the copy, a newer epoch is counted, its watches are to be abandoned and EPOCH-CHANGE is claimed (R65), STREAM-FRESH is claimed for
a copy that freshens a CONFIGURED entry or where learned streams are journalled (R110), the arriving lane's record is credited, the copy
is offered to the rules and to the bay ports of the entry's forward set (offerBays, R60), and a watch is asked for exactly when the class
divisor divides its sequence (R79): the divisors of TRIP, STATUS, SAMPLE and SERVICE are the settings words 0x0050 to 0x0053 (section
12.2). A DEFAULT forward set is the default forward set of the settings, an explicit one its own ports (R59). The longest observed
interval follows R111. If the new deadline is already reached the entry's FRESHNESS_EXPIRY is taken at once after it (R108). -/
def Obligations.FirstIsAccepted : Prop :=
  (∀ set : Settings,
    [Cls.trip, .status, .sample, .service].map set.divisor = [set.divTrip, set.divStatus, set.divSample, set.divService]
    ∧ set.resolve .default = set.defaultForward ∧ ∀ ports : PortSet, set.resolve (.explicit ports) = ports)
  ∧ (∀ m : List Host.Cell, [Cls.trip, .status, .sample, .service].map (readSettings m).divisor
      = [readWord m 0x0050, readWord m 0x0051, readWord m 0x0052, readWord m 0x0053])
  ∧ ∀ (s : State) (l : Lane) (a : Arrival) (more : List Arrival) (p : Fin 512) (e : Entry) (j : Judgement)
    (w : Option Window) (due : Clock),
    engineReady s = true → chosenPort s = some (.lane l) → (s.lane l).arrivals = a :: more → a.port = .lane l →
    s.lookup a.header.id = some (p, e) → e.origin = .remote →
    judge e.window a.header.epoch (a.seq.getD 0) l = (j, w) → j.isFirst = true →
    due = a.time + millis a.header.hold + millis s.settings.freshMargin →
    ∃ t e', exec .arrivalTaken s
        = (if a.header.hold ≠ 0 ∧ reached s.clock due = true then exec (.freshnessExpiry e.id) t else .next t)
      ∧ t.table = s.table.set p (some e')
      ∧ e'.window = w ∧ e'.firsts = (if e.firsts = 0xFFFF then 0xFFFF else e.firsts + 1) ∧ e'.cls = some a.header.cls
      ∧ e'.lastAccept = some a.time ∧ e'.age = 0 ∧ e'.hold = a.header.hold
      ∧ e'.fresh = some (if a.header.hold = 0 then .unsupervised else .fresh)
      ∧ e'.deadline = (if a.header.hold = 0 then .none else .at due a.header.hold s.settings.freshMargin)
      ∧ (∀ last, e.lastAccept = some last → e.age.toNat ≤ 599 → (e.fresh = some .fresh ∨ e.fresh = some .unsupervised) →
          (j = .firstAhead ∨ j = .firstFilled) →
          e'.longest = some (if (e.longest.getD 0).toNat < (a.time - last).toNat then a.time - last else e.longest.getD 0))
      ∧ ((e.lastAccept = none ∨ 599 < e.age.toNat ∨ (e.fresh ≠ some .fresh ∧ e.fresh ≠ some .unsupervised)
          ∨ (j ≠ .firstAhead ∧ j ≠ .firstFilled)) → e'.longest = e.longest)
      ∧ (e'.record l).reads (s.lane l).cycle = (false, 0) ∧ e'.record l.other = e.record l.other
      ∧ e'.id = e.id ∧ e'.origin = e.origin ∧ e'.configured = e.configured ∧ e'.slot = e.slot ∧ e'.forward = e.forward
      ∧ e'.twins = e.twins ∧ e'.repeats = e.repeats ∧ e'.late = e.late ∧ e'.serial = e.serial
      ∧ t.events = s.events ++ [.streamCopy e.id (contentOf a)]
      ∧ t.twinClaims = s.twinClaims
          ++ (match j with | .firstNewEpoch _ => [.abandon e.id e.serial] | _ => [])
          ++ (if (a.seq.getD 0).toNat % (s.settings.divisor a.header.cls).toNat = 0 then
            [.watch e.id e.serial (a.seq.getD 0) l a.time] else [])
      ∧ t.counters.epochChanges = (match j with
          | .firstNewEpoch _ => s.counters.epochChanges + 1 | _ => s.counters.epochChanges)
      ∧ (∃ later, t.journal.claims = s.journal.claims
          ++ (match j with
            | .firstNewEpoch old =>
              [{ kind := .epochChange, subject := .stream e.id, time := a.time, d1 := old.setWidth 16
                 d2 := a.header.epoch.setWidth 16, d3 := laneWord l }]
            | _ => [])
          ++ (if (e.fresh = none ∨ e.fresh = some .awaiting ∨ e.fresh = some .stale)
              ∧ (e.configured = true ∨ s.settings.journalLearned = true) then
              [{ kind := .streamFresh, subject := .stream e.id, time := a.time
                 d1 := (freshnessCode e.fresh <<< 8)
                   ||| freshnessCode (some (if a.header.hold = 0 then .unsupervised else .fresh))
                 d2 := a.header.hold, d3 := laneWord l }] else [])
          ++ later ∧ (e.slot = none → ∀ c ∈ later, c.kind = .counterFirst))
      ∧ t.loneChanges = s.loneChanges ++ (if ((e.record l).reads (s.lane l).cycle).1 then
          [{ rise := false, lane := l, cycle := (s.lane l).cycle }] else [])
      ∧ t.bays = (offerBays (s.settings.resolve e.forward)
          { frame := a.frame, stream := true, trip := a.header.cls == .trip, seq := none } s).bays
      ∧ t.bayGroup = (offerBays (s.settings.resolve e.forward)
          { frame := a.frame, stream := true, trip := a.header.cls == .trip, seq := none } s).bayGroup
      ∧ (e.slot = none → t.subs = s.subs) ∧ (∀ k, e.slot = some k → ∀ m : Fin 64, m ≠ k → t.subs[m] = s.subs[m])
      ∧ t = { s.modifyLane l (fun x => { x with arrivals := more }) with
              lastServed := .lane l, table := t.table, imageCounts := t.imageCounts, events := t.events
              twinClaims := t.twinClaims, counters := t.counters
              journal := { s.journal with claims := t.journal.claims }, loneChanges := t.loneChanges
              bays := t.bays, bayGroup := t.bayGroup, subs := t.subs }

/-- Tier 2. R119, R121, R122: the FIRST of an entry that holds an armed slot, in the slot. Accepted by the test acceptance, it clears the
mismatch marker and begins its delivery when none is in progress, becomes the waiting one behind a delivery in progress, or replaces the
waiting one, which counts as superseded. Not accepted, it sets the marker and takes no place: with no delivery in progress the engine's
update shows what it changed of the entry, if anything, and a flag that was clear is set in an update of its own with TEST-MISMATCH
claimed; behind a delivery both wait. What the slot shows of the entry is what the copy has made of it: its freshness and its two lane
records as they read in the lanes' present cycles (a record of another cycle reads PAIRED with run 0, R85), and PAIRED with run 0 for an
entry that is not REMOTE, which has none (R58, R112). The position of the slot's entry (slotEntry) is the lowest whose entry holds the
slot. That the status words beside the edition keep their old values until the delivery completes is the model's choice (log entry 8). -/
def Obligations.FirstReachesItsSlot : Prop :=
  (∀ (r : LaneRecord) (cycle : Word), r.reads cycle = (if r.cycle = cycle then (r.lone, r.run) else (false, 0)))
  ∧ (∀ (s : State) (e : Entry),
    (e.origin = .remote → s.viewOf e =
      { fresh := e.fresh, loneA := (e.recordA.reads s.laneA.cycle).1, runA := (e.recordA.reads s.laneA.cycle).2
        loneB := (e.recordB.reads s.laneB.cycle).1, runB := (e.recordB.reads s.laneB.cycle).2 })
    ∧ (e.origin ≠ .remote → s.viewOf e = { fresh := e.fresh, loneA := false, runA := 0, loneB := false, runB := 0 }))
  ∧ (∀ (s : State) (k : Fin 64) (p : Fin 512), s.slotEntry k = some p ↔
    (∃ e, s.table[p] = some e ∧ e.slot = some k)
      ∧ ∀ (q : Fin 512) (f : Entry), q.val < p.val → s.table[q] = some f → f.slot ≠ some k)
  ∧ ∀ (s : State) (l : Lane) (a : Arrival) (more : List Arrival) (p : Fin 512) (e : Entry) (j : Judgement)
    (w : Option Window) (due : Clock) (k : Fin 64) (cfg : SlotConfig) (c : Copy),
    engineReady s = true → chosenPort s = some (.lane l) → (s.lane l).arrivals = a :: more → a.port = .lane l →
    s.lookup a.header.id = some (p, e) → e.origin = .remote →
    judge e.window a.header.epoch (a.seq.getD 0) l = (j, w) → j.isFirst = true →
    due = a.time + millis a.header.hold + millis s.settings.freshMargin →
    e.slot = some k → s.slotEntry k = some p → s.subs[k].config = some cfg →
    c = { id := a.header.id, seq := a.seq.getD 0, epoch := a.header.epoch, port := .lane l, time := a.time
          cls := a.header.cls, test := a.header.test, hold := a.header.hold, repeatNo := a.header.repeatNo
          length := a.header.length, content := contentOf a } →
    ∃ t e' view, exec .arrivalTaken s
        = (if a.header.hold ≠ 0 ∧ reached s.clock due = true then exec (.freshnessExpiry e.id) t else .next t)
      ∧ t.table[p] = some e' ∧ view = t.viewOf e'
      ∧ view.fresh = some (if a.header.hold = 0 then .unsupervised else .fresh)
      ∧ (∀ marked, marked = (if s.subs[k].marker then some { id := c.id, seq := c.seq, time := c.time }
            else s.subs[k].markedBy) →
        (cfg.acceptance = .both ∨ cfg.acceptance = (if c.test then .testOnly else .normalOnly)) →
        (s.subs[k].inProgress = none → t.subs[k] =
          { s.subs[k] with
            status := { s.subs[k].status with edition := s.subs[k].status.edition + 1 }
            waiting := none, marker := false, markedBy := marked, told := view
            inProgress := some
              { copy := c, view := view, mismatch := false, markedBy := marked, notify := cfg.notify
                differs := (match s.subs[k].previous with
                  | none => true
                  | some old => ((c.content.take 256).drop cfg.offset.toNat).take cfg.length.toNat
                      != (old.drop cfg.offset.toNat).take cfg.length.toNat) } })
        ∧ (s.subs[k].inProgress.isSome = true → t.subs[k] =
          { s.subs[k] with
            waiting := some c, marker := false, markedBy := marked, told := view
            supersededDue := s.subs[k].supersededDue + (if s.subs[k].waiting.isSome then 1 else 0) }))
      ∧ (cfg.acceptance = (if c.test then .normalOnly else .testOnly) →
        ∀ marked, marked = (if s.subs[k].marker then s.subs[k].markedBy
            else some { id := c.id, seq := c.seq, time := c.time }) →
        (s.subs[k].inProgress = none → t.subs[k] =
            { s.subs[k] with
              marker := true, markedBy := marked, told := view
              status := { s.subs[k].status with
                edition := s.subs[k].status.edition + (if view = s.subs[k].told then 0 else 2)
                  + (if s.subs[k].status.mismatch then 0 else 2)
                view := if view = s.subs[k].told then s.subs[k].status.view else view
                mismatch := true } }
          ∧ (s.subs[k].marker = false → s.subs[k].status.mismatch = false → ∃ claim ∈ t.journal.claims,
              claim.kind = .testMismatch ∧ claim.subject = .subscription k ∧ claim.time = a.time
              ∧ claim.d1 = a.header.id ∧ claim.d2 = 1 ∧ claim.d3 = a.seq.getD 0))
        ∧ (s.subs[k].inProgress.isSome = true → t.subs[k] =
          { s.subs[k] with
            marker := true, markedBy := marked, told := view
            viewsDue := s.subs[k].viewsDue ++ (if view = s.subs[k].told then [] else [{ view := view, stale := false }]) }))

/-- Tier 2. R45 to R47: a copy of a stream without an entry. While a position is free it makes an entry at the lowest one (freePosition),
LEARNED, with no slot and the DEFAULT forward set, under the next serial and with lane records of the lanes' present cycles, and is
accepted into it: one update of its record image. A lane copy makes it REMOTE, its window begun at the copy; a bay copy makes it LOCAL-BAY
for its port with the bay epoch counter's value as its epoch, which then rises by 1, and sequence 0. The copy is handed on as R60, R61,
R70 and R76 give: a lane copy to the bay ports of the default forward set (offerBays) and, where the class divisor divides its sequence
(R79), to Twin Watch; a bay copy as a copy under the stamped epoch with sequence 0 beside it to Lane A and Lane B (offerLane) and as
received to the bay ports of the default forward set other than its own, and to no watch; each to the rules, with STREAM-FRESH claimed
first where learned streams are journalled (R110). Nothing else changes. In a full table the copy is UNPLACED and counted: a lane copy on
the bare route goes to the bay ports of the default forward set, one on the other lane nowhere, a bay copy to the bare route's lane as a
bare frame; no entry, rule, slot or watch hears of it. That COUNTER-FIRST of UNPLACED takes the copy's arrival time is the model's reading
of R37 and R38 (log entry 17). That a copy is offered to Lane A, then to Lane B, then to the bay ports in ascending number, which orders
the COUNTER-FIRST claims of those offers, is the model's choice (log entry 18): no rule orders them. -/
def Obligations.UnknownStreamsAreLearned : Prop :=
  (∀ (s : State) (id : Word) (p : Fin 512),
    (s.lookup id = none ↔ ∀ (q : Fin 512) (f : Entry), s.table[q] = some f → f.id ≠ id)
    ∧ (∀ e, s.lookup id = some (p, e) → s.table[p] = some e ∧ e.id = id)
    ∧ (s.freePosition = some p ↔ s.table[p] = none ∧ ∀ q : Fin 512, q.val < p.val → s.table[q].isSome = true))
  ∧ ∀ (s : State) (a : Arrival) (q : Port) (more : List Arrival) (due : Clock),
    engineReady s = true → chosenPort s = some q → s.arrivals q = a :: more → a.port = q → s.lookup a.header.id = none →
    due = a.time + millis a.header.hold + millis s.settings.freshMargin →
    (∀ (p : Fin 512) (v u : State) (relay stamped : TxRecord), s.freePosition = some p →
      relay = { frame := a.frame, stream := true, trip := a.header.cls == .trip, seq := none } →
      stamped = { frame := stampEpoch a.frame s.bayEpoch, stream := true, trip := a.header.cls == .trip, seq := some 0 } →
      v = { s with journal := { s.journal with claims := s.journal.claims ++ (if s.settings.journalLearned then
        [{ kind := .streamFresh, subject := .stream a.header.id, time := a.time
           d1 := freshnessCode (some (if a.header.hold = 0 then .unsupervised else .fresh)), d2 := a.header.hold
           d3 := portWord q }] else []) } } →
      ((∃ l, q = .lane l ∧ u = offerBays s.settings.defaultForward relay (v.modifyLane l (fun x => { x with arrivals := more })))
        ∨ ∃ b, q = .bay b ∧ u = offerBays (s.settings.defaultForward &&& ~~~(BitVec.twoPow 4 b.val)) relay
            (offerLane .b stamped (offerLane .a stamped (v.modifyBay b (fun x => { x with arrivals := more }))))) →
      ∃ t e', exec .arrivalTaken s
        = (if a.header.hold ≠ 0 ∧ reached s.clock due = true then exec (.freshnessExpiry a.header.id) t else .next t)
      ∧ e' =
          { id := a.header.id, origin := e'.origin, configured := false, slot := none, forward := .default
            cls := some a.header.cls, fresh := some (if a.header.hold = 0 then .unsupervised else .fresh)
            deadline := if a.header.hold = 0 then .none else .at due a.header.hold s.settings.freshMargin
            hold := a.header.hold, window := e'.window, sendEpoch := e'.sendEpoch, sendNext := e'.sendNext
            recordA := { lone := false, run := 0, cycle := s.laneA.cycle }
            recordB := { lone := false, run := 0, cycle := s.laneB.cycle }
            firsts := 1, twins := 0, repeats := 0, late := 0, lastAccept := some a.time, longest := none, age := 0
            echoNoted := false, clashNoted := false, serial := s.serial + 1 }
      ∧ (∀ l, q = .lane l → e'.origin = .remote ∧ e'.window = some (Window.start (a.seq.getD 0) a.header.epoch l)
          ∧ e'.sendEpoch = 0 ∧ e'.sendNext = 0 ∧ t.bayEpoch = s.bayEpoch
          ∧ t.twinClaims = s.twinClaims ++ (if (a.seq.getD 0).toNat % (s.settings.divisor a.header.cls).toNat = 0 then
              [.watch a.header.id (s.serial + 1) (a.seq.getD 0) l a.time] else []))
      ∧ (∀ b, q = .bay b → e'.origin = .localBay b ∧ e'.window = none ∧ e'.sendEpoch = s.bayEpoch ∧ e'.sendNext = 1
          ∧ t.bayEpoch = s.bayEpoch + 1 ∧ t.twinClaims = s.twinClaims)
      ∧ t.imageCounts[p] = s.imageCounts[p] + 1 ∧ (∀ r : Fin 512, r ≠ p → t.imageCounts[r] = s.imageCounts[r])
      ∧ (∃ later, u.journal.claims = v.journal.claims ++ later ∧ ∀ c ∈ later, c.kind = .counterFirst)
      ∧ t = { s with
              lastServed := q, table := s.table.set p (some e'), imageCounts := t.imageCounts, serial := s.serial + 1
              bayEpoch := t.bayEpoch, events := s.events ++ [.streamCopy a.header.id (contentOf a)]
              twinClaims := t.twinClaims, laneA := u.laneA, laneB := u.laneB, bays := u.bays, bayGroup := u.bayGroup
              journal := { s.journal with claims := u.journal.claims } })
    ∧ (s.freePosition = none → ∃ t u, exec .arrivalTaken s = .next t
      ∧ t.counters = { s.counters with
          edition := t.counters.edition
          unplaced := if s.counters.unplaced = 0xFFFF then 0xFFFF else s.counters.unplaced + 1 }
      ∧ (∀ l, q = .lane l → u =
          (if l = s.bareRoute then
            offerBays s.settings.defaultForward
              { frame := a.frame, stream := true, trip := a.header.cls == .trip, seq := none }
              (s.modifyLane l (fun x => { x with arrivals := more }))
          else s.modifyLane l (fun x => { x with arrivals := more })))
      ∧ (∀ b, q = .bay b → u = offerLane s.bareRoute { frame := a.frame, stream := false, trip := false, seq := none }
          (s.modifyBay b (fun x => { x with arrivals := more })))
      ∧ t.laneA = u.laneA ∧ t.laneB = u.laneB ∧ t.bays = u.bays ∧ t.bayGroup = u.bayGroup
      ∧ (s.counters.unplaced = 0 → ∃ claim ∈ t.journal.claims, claim.kind = .counterFirst ∧ claim.subject = .part
          ∧ claim.time = a.time ∧ claim.d1 = engineCounterCode .unplaced)
      ∧ t = { s with lastServed := q, laneA := t.laneA, laneB := t.laneB, bays := t.bays, bayGroup := t.bayGroup
                     counters := t.counters, journal := { s.journal with claims := t.journal.claims } })

/-- Tier 2. R49 to R51: copies out of place. A lane copy of a LOCAL-BAY or LOCAL-HOST stream is an ECHO when it has the epoch of the
entry's send state and lies 1 to 64 behind its next sequence, and an ORIGIN-CLASH otherwise; a bay copy of a stream that is not
LOCAL-BAY of its port is an ORIGIN-CLASH. The copy is discarded: its counter rises and stays at 65,535, with COUNTER-FIRST claimed if it
stood at 0 (at the copy's arrival time: the model's reading of R37 and R38, log entry 17), the first on an entry sets the entry's flag and
claims ECHO-SEEN or ORIGIN-CLASH-SEEN, and nothing else changes. -/
def Obligations.EchoesAndClashesAreCounted : Prop :=
  ∀ (s : State) (a : Arrival) (q : Port) (more : List Arrival) (p : Fin 512) (e : Entry) (sent : Byte × Word) (isEcho : Bool),
    engineReady s = true → chosenPort s = some q → s.arrivals q = a :: more → a.port = q →
    s.lookup a.header.id = some (p, e) →
    (∀ k, e.origin = .localHost k → sent = (s.pubs[k].epoch, s.pubs[k].nextSeq)) →
    (∀ b, e.origin = .localBay b → sent = (e.sendEpoch, e.sendNext)) →
    ((∃ l, q = .lane l ∧ e.origin ≠ .remote
        ∧ isEcho = (a.header.epoch == sent.1 && decide (1 ≤ (sent.2 - a.seq.getD 0).toNat)
            && decide ((sent.2 - a.seq.getD 0).toNat ≤ 64)))
      ∨ ∃ b, q = .bay b ∧ e.origin ≠ .localBay b ∧ isEcho = false) →
    ∃ t, exec .arrivalTaken s = .next t
      ∧ t.counters = { s.counters with
          edition := t.counters.edition
          echo := if isEcho = true ∧ s.counters.echo ≠ 0xFFFF then s.counters.echo + 1 else s.counters.echo
          originClash := if isEcho = false ∧ s.counters.originClash ≠ 0xFFFF then s.counters.originClash + 1
            else s.counters.originClash }
      ∧ t.table = s.table.set p (some { e with
          echoNoted := e.echoNoted || isEcho, clashNoted := e.clashNoted || !isEcho })
      ∧ t.journal.claims = s.journal.claims
          ++ (if (if isEcho then s.counters.echo else s.counters.originClash) = 0 then
              [{ kind := .counterFirst, subject := .part, time := a.time
                 d1 := engineCounterCode (if isEcho then .echo else .originClash), d2 := 0, d3 := 0 }] else [])
          ++ (if (if isEcho then e.echoNoted else e.clashNoted) then [] else
              [{ kind := if isEcho then .echoSeen else .originClashSeen, subject := .stream e.id, time := a.time
                 d1 := portWord q, d2 := a.seq.getD 0, d3 := a.header.epoch.setWidth 16 }])
      ∧ (∀ r, t.arrivals r = if r = q then more else s.arrivals r)
      ∧ t = { s with lastServed := q, laneA := t.laneA, laneB := t.laneB, bays := t.bays, table := t.table
                     imageCounts := t.imageCounts, counters := t.counters
                     journal := { s.journal with claims := t.journal.claims } }
      ∧ (∀ l, t.lane l = { s.lane l with arrivals := (t.lane l).arrivals })
      ∧ ∀ b : Fin 4, t.bays[b] = { s.bays[b] with arrivals := t.bays[b].arrivals }

/-- Tier 2. R61, R76: a bay copy on port q of the LOCAL-BAY stream of that port is accepted whatever its epoch, repeat number and content.
It takes the entry's next sequence, which rises by 1, and the entry's epoch: a copy under that epoch with that sequence beside it is
offered to Lane A and Lane B (offerLane), the frame as received to the other bay ports of the entry's forward set (offerBays), and the
copy to the rules and to the entry's slot under the stamped numbers; the other slots are kept. It is not watched. A copy that freshens the
stream (R109) claims STREAM-FRESH, before the claims of its hand-ons, if the entry is CONFIGURED or learned freshness is journaled (R110).
The longest observed interval follows R111. If its new deadline is already reached the entry's FRESHNESS_EXPIRY is taken at once after it
(R108). Stamping a frame (stampEpoch) puts the epoch in its byte at offset 16, the epoch of the stream header (R176), and keeps its length
and every other byte. -/
def Obligations.BayCopiesAreStamped : Prop :=
  (∀ (frame : List Byte) (epoch : Byte), (stampEpoch frame epoch).length = frame.length
    ∧ (16 < frame.length → (stampEpoch frame epoch)[16]? = some epoch)
    ∧ ∀ i : Nat, i ≠ 16 → (stampEpoch frame epoch)[i]? = frame[i]?)
  ∧ ∀ (s : State) (q : Fin 4) (a : Arrival) (more : List Arrival) (p : Fin 512) (e : Entry) (due : Clock) (copy : TxRecord),
    engineReady s = true → chosenPort s = some (.bay q) → s.bays[q].arrivals = a :: more → a.port = .bay q →
    s.lookup a.header.id = some (p, e) → e.origin = .localBay q →
    due = a.time + millis a.header.hold + millis s.settings.freshMargin →
    copy = { frame := stampEpoch a.frame e.sendEpoch, stream := true, trip := a.header.cls == .trip
             seq := some e.sendNext } →
    ∃ t e', exec .arrivalTaken s
        = (if a.header.hold ≠ 0 ∧ reached s.clock due = true then exec (.freshnessExpiry e.id) t else .next t)
      ∧ t.table = s.table.set p (some e')
      ∧ e'.sendNext = e.sendNext + 1 ∧ e'.sendEpoch = e.sendEpoch
      ∧ e'.firsts = (if e.firsts = 0xFFFF then 0xFFFF else e.firsts + 1) ∧ e'.cls = some a.header.cls
      ∧ e'.lastAccept = some a.time ∧ e'.age = 0 ∧ e'.hold = a.header.hold
      ∧ e'.fresh = some (if a.header.hold = 0 then .unsupervised else .fresh)
      ∧ e'.deadline = (if a.header.hold = 0 then .none else .at due a.header.hold s.settings.freshMargin)
      ∧ (∀ last, e.lastAccept = some last → e.age.toNat ≤ 599 → (e.fresh = some .fresh ∨ e.fresh = some .unsupervised) →
          e'.longest = some (if (e.longest.getD 0).toNat < (a.time - last).toNat then a.time - last else e.longest.getD 0))
      ∧ ((e.lastAccept = none ∨ 599 < e.age.toNat ∨ (e.fresh ≠ some .fresh ∧ e.fresh ≠ some .unsupervised)) →
          e'.longest = e.longest)
      ∧ e'.id = e.id ∧ e'.origin = e.origin ∧ e'.configured = e.configured ∧ e'.slot = e.slot ∧ e'.forward = e.forward
      ∧ e'.serial = e.serial
      ∧ t.laneA = (offerLane .a copy s).laneA ∧ t.laneB = (offerLane .b copy s).laneB
      ∧ (∃ u, u = offerBays (s.settings.resolve e.forward &&& ~~~(BitVec.twoPow 4 q.val))
            { frame := a.frame, stream := true, trip := a.header.cls == .trip, seq := none }
            (s.modifyBay q (fun x => { x with arrivals := more }))
          ∧ t.bays = u.bays ∧ t.bayGroup = u.bayGroup)
      ∧ t.events = s.events ++ [.streamCopy e.id (contentOf a)]
      ∧ (∃ later, t.journal.claims = s.journal.claims
          ++ (if (e.fresh = none ∨ e.fresh = some .awaiting ∨ e.fresh = some .stale)
              ∧ (e.configured = true ∨ s.settings.journalLearned = true) then
              [{ kind := .streamFresh, subject := .stream e.id, time := a.time
                 d1 := (freshnessCode e.fresh <<< 8)
                   ||| freshnessCode (some (if a.header.hold = 0 then .unsupervised else .fresh))
                 d2 := a.header.hold, d3 := portWord (.bay q) }] else [])
          ++ later ∧ (e.slot = none → ∀ c ∈ later, c.kind = .counterFirst))
      ∧ (e.slot = none → t.subs = s.subs)
      ∧ (∀ k m : Fin 64, e.slot = some k → m ≠ k → t.subs[m] = s.subs[m])
      ∧ (∀ k cfg, e.slot = some k → s.subs[k].config = some cfg → s.subs[k].inProgress = none →
          (cfg.acceptance = .both ∨ cfg.acceptance = (if a.header.test then .testOnly else .normalOnly)) →
          ∃ d, t.subs[k].inProgress = some d ∧ d.copy.seq = e.sendNext ∧ d.copy.epoch = e.sendEpoch
            ∧ d.copy.port = .bay q ∧ d.copy.content = contentOf a)
      ∧ t = { s with lastServed := .bay q, table := t.table, imageCounts := t.imageCounts, events := t.events
                     laneA := t.laneA, laneB := t.laneB, bays := t.bays, bayGroup := t.bayGroup
                     journal := { s.journal with claims := t.journal.claims }, subs := t.subs }

/-! ## Twin Watch (R78 to R84, R96) -/

/-- Tier 2. WATCH_REQUEST: no entry while the absent lane carries no traffic; the unwatched total rises on a full list; otherwise, for a
message not on the list, an entry expecting the other lane joins with its deadline one twin wait after the arrival, and a miss note for
the message goes. The entry joins (insertWatch, R78) behind the entries due at or before its deadline and ahead of the first that is due
later, by signed difference: on a list in deadline order, behind every entry due at or before it and ahead of every later one; the others
keep their order. ABANDON and LANE_CLEANUP: every watch entry of the stream's table entry, or whose absent lane is the lane, goes and is
counted as abandoned, and so do the miss notes; no miss is counted and nothing is reported. -/
def Obligations.WatchesAreMadeAndAbandoned : Prop :=
  (∀ (w : WatchEntry) (before after : List WatchEntry), (∀ v ∈ before, (w.deadline - v.deadline).toNat < 0x80000000) →
    (∀ v, after.head? = some v → 0x80000000 ≤ (w.deadline - v.deadline).toNat) →
    insertWatch w (before ++ after) = before ++ w :: after)
  ∧ (∀ (s : State) (id serial seq : Word) (l : Lane) (time : Clock) (rest : List TwinClaim),
    s.twinClaims = .watch id serial seq l time :: rest →
    ((s.lane l.other).group.state.carries = false → exec .watchRequest s = .next { s with twinClaims := rest })
    ∧ ((s.lane l.other).group.state.carries = true → 256 ≤ s.watchList.length → exec .watchRequest s = .next
        { s with
          twinClaims := rest
          counters := { s.counters with unwatched := s.counters.unwatched + 1, edition := s.counters.edition + 2 } })
    ∧ ((s.lane l.other).group.state.carries = true → s.watchList.length < 256 →
        (∀ w ∈ s.watchList, ¬(w.id = id ∧ w.seq = seq)) →
        ∃ t, exec .watchRequest s = .next t
          ∧ t.watchList = insertWatch
              { id := id, serial := serial, seq := seq, absent := l.other, cycle := (s.lane l.other).cycle, first := time
                deadline := time + tenthMillis s.settings.twinWait } s.watchList
          ∧ t.counters.watchCount = BitVec.ofNat 16 (s.watchList.length + 1)
          ∧ t.missNotes = s.missNotes.filter (fun n => !(n.id == id && n.serial == serial && n.seq == seq))
          ∧ t = { s with twinClaims := rest, watchList := t.watchList, missNotes := t.missNotes, counters := t.counters }))
  ∧ (∀ (s : State) (id serial : Word) (rest : List TwinClaim), s.twinClaims = .abandon id serial :: rest →
    ∃ t, exec .abandon s = .next t
      ∧ t.watchList = s.watchList.filter (fun w => !(w.id == id && w.serial == serial))
      ∧ t.missNotes = s.missNotes.filter (fun n => !(n.id == id && n.serial == serial))
      ∧ t.counters.abandoned = s.counters.abandoned
          + BitVec.ofNat 32 (s.watchList.filter (fun w => w.id == id && w.serial == serial)).length
      ∧ t.counters.missesA = s.counters.missesA ∧ t.counters.missesB = s.counters.missesB
      ∧ t = { s with twinClaims := rest, watchList := t.watchList, missNotes := t.missNotes, counters := t.counters })
  ∧ ∀ (s : State) (l : Lane) (rest : List Lane), s.cleanups = l :: rest →
    ∃ t, exec .laneCleanup s = .next t
      ∧ t.watchList = s.watchList.filter (fun w => !(w.absent == l))
      ∧ t.missNotes = s.missNotes.filter (fun n => !(n.absent == l))
      ∧ t.counters.abandoned = s.counters.abandoned
          + BitVec.ofNat 32 (s.watchList.filter (fun w => w.absent == l)).length
      ∧ t.counters.missesA = s.counters.missesA ∧ t.counters.missesB = s.counters.missesB
      ∧ t = { s with cleanups := rest, watchList := t.watchList, missNotes := t.missNotes, counters := t.counters }

/-- Tier 2. R81: WATCH_EXPIRY of the head, once the part clock has reached its deadline and not before: the entry goes, its miss note
joins (the oldest of 64 giving way), the absent lane's miss total rises, and a miss report with the stream identifier, serial, absent lane
and absent lane cycle of the entry is handed to the engine. -/
def Obligations.WatchExpiryCountsAMiss : Prop :=
  ∀ (s : State) (w : WatchEntry) (rest : List WatchEntry), s.watchList = w :: rest →
    (reached s.clock w.deadline = false → exec .watchExpiry s = .next s)
    ∧ (reached s.clock w.deadline = true → ∃ t, exec .watchExpiry s = .next t ∧ t.watchList = rest
      ∧ t.missNotes = (if 64 ≤ s.missNotes.length then s.missNotes.tail else s.missNotes)
          ++ [{ id := w.id, serial := w.serial, seq := w.seq, absent := w.absent }]
      ∧ t.reports = s.reports ++ [.miss w.id w.serial w.absent w.cycle]
      ∧ t.counters.missesA = (if w.absent = .a then s.counters.missesA + 1 else s.counters.missesA)
      ∧ t.counters.missesB = (if w.absent = .b then s.counters.missesB + 1 else s.counters.missesB)
      ∧ t.counters.watchCount = BitVec.ofNat 16 rest.length
      ∧ t = { s with watchList := t.watchList, missNotes := t.missNotes, reports := t.reports, counters := t.counters })

/-- Tier 2. R83: TWIN_TAKEN: on time if its watch entry is on the list, which goes, with a credit, and a delay since the first copy that
is longer than the lane's longest twin delay takes its place (a twin received before the first copy raises none: the model's choice, log
entry 13); late if only its miss note is there, which goes, the lane's late twin total rising, without credit; unwatched if neither, with
a credit. -/
def Obligations.TwinTakenIsJudged : Prop :=
  ∀ (s : State) (id serial seq : Word) (l : Lane) (time : Clock) (rest : List TwinClaim),
    s.twinClaims = .twin id serial seq l time :: rest →
    (∀ w, s.watchList.find? (fun v => v.id == id && v.serial == serial && v.seq == seq) = some w →
      ∃ t, exec .twinTaken s = .next t ∧ t.reports = s.reports ++ [.credit id serial l]
        ∧ t.watchList = s.watchList.filter (fun w => !(w.id == id && w.serial == serial && w.seq == seq))
        ∧ t.counters.longest l = (if (time - w.first).toNat < 0x80000000
              ∧ (s.counters.longest l).toNat < (time - w.first).toNat then time - w.first else s.counters.longest l)
        ∧ t.counters.longest l.other = s.counters.longest l.other
        ∧ t.counters = { s.counters with
            edition := t.counters.edition, watchCount := BitVec.ofNat 16 t.watchList.length
            watchMost := if s.counters.watchMost.toNat < t.watchList.length then BitVec.ofNat 16 t.watchList.length
              else s.counters.watchMost
            longestA := t.counters.longestA, longestB := t.counters.longestB }
        ∧ t = { s with twinClaims := rest, reports := t.reports, watchList := t.watchList, counters := t.counters })
    ∧ ((∀ w ∈ s.watchList, ¬(w.id = id ∧ w.serial = serial ∧ w.seq = seq)) →
        (∃ n ∈ s.missNotes, n.id = id ∧ n.serial = serial ∧ n.seq = seq) →
        ∃ t, exec .twinTaken s = .next t ∧ t.reports = s.reports
          ∧ t.missNotes = s.missNotes.filter (fun n => !(n.id == id && n.serial == serial && n.seq == seq))
          ∧ t.counters.lateTwinsA = (if l = .a then s.counters.lateTwinsA + 1 else s.counters.lateTwinsA)
          ∧ t.counters.lateTwinsB = (if l = .b then s.counters.lateTwinsB + 1 else s.counters.lateTwinsB)
          ∧ t = { s with twinClaims := rest, missNotes := t.missNotes, counters := t.counters })
    ∧ ((∀ w ∈ s.watchList, ¬(w.id = id ∧ w.serial = serial ∧ w.seq = seq)) →
        (∀ n ∈ s.missNotes, ¬(n.id = id ∧ n.serial = serial ∧ n.seq = seq)) →
        exec .twinTaken s = .next { s with twinClaims := rest, reports := s.reports ++ [.credit id serial l] })

/-! ## Lane records and lane states (R85 to R93, R99) -/

/-- Tier 2. R87, R88. MISS_REPORT for an entry the table holds under that serial, of the lane's present cycle: the record's run rises by
1, held at 15; a PAIRED record whose run reaches the lone threshold becomes LONE and hands on a rise. CREDIT_REPORT: the record is PAIRED
with run 0 in the present cycle, and a record that read as LONE hands on a fall. A report of an earlier cycle, or whose entry is gone,
changes nothing. R86: LANE_NOTICE leaves every entry's record of the lane reading as it read, and each record from an earlier cycle PAIRED
with run 0; the other lane's records, and everything else of the entries, are kept. R112: each of the three shows what it has made of an
entry, where that is not what the slot of that entry was last told, in the slot: in one update of its status, or, behind a delivery in
progress, in one that waits for the completion; every other slot is kept, and so is the rest of the state. -/
def Obligations.ReportsMoveTheLaneRecord : Prop :=
  (∀ (r : LaneRecord) (cycle : Word), r.reads cycle = (if r.cycle = cycle then (r.lone, r.run) else (false, 0)))
  ∧ (∀ (s : State) (id serial : Word),
    (s.lookupNamed id serial = none ↔ ∀ (q : Fin 512) (f : Entry), s.table[q] = some f → ¬(f.id = id ∧ f.serial = serial))
    ∧ ∀ (p : Fin 512) (e : Entry), s.lookupNamed id serial = some (p, e) → s.table[p] = some e ∧ e.id = id ∧ e.serial = serial)
  ∧ ∀ (shown : SubSlot → EntryView → SubSlot) (alone : State → Fin 64 → Fin 512 → Prop),
    (∀ x view, shown x view =
      if view = x.told then x
      else match x.inProgress with
        | none => { x with told := view, status := { x.status with edition := x.status.edition + 2, view := view } }
        | some _ => { x with told := view, viewsDue := x.viewsDue ++ [{ view := view, stale := false }] }) →
    (∀ s k p, alone s k p ↔ ∀ (q : Fin 512) (f : Entry), s.table[q] = some f → f.slot = some k → q = p) →
  (∀ (s : State) (id serial : Word) (l : Lane) (rest : List TwinReport), s.ageingDue = [] →
    (∀ (cycle : Word), s.reports = .miss id serial l cycle :: rest →
      ((s.lookupNamed id serial = none ∨ cycle ≠ (s.lane l).cycle) → exec .missReport s = .next { s with reports := rest })
      ∧ ∀ (p : Fin 512) (e : Entry), s.lookupNamed id serial = some (p, e) → cycle = (s.lane l).cycle →
        ∃ t r, exec .missReport s = .next t ∧ t.reports = rest
          ∧ t.table = s.table.set p (some (e.setRecord l r))
          ∧ r.cycle = cycle ∧ r.run = min 15 (((e.record l).reads cycle).2 + 1)
          ∧ r.lone = (((e.record l).reads cycle).1 || decide (s.settings.loneThreshold.toNat ≤ r.run))
          ∧ t.loneChanges = s.loneChanges ++ (if r.lone && !((e.record l).reads cycle).1 then
              [{ rise := true, lane := l, cycle := cycle }] else [])
          ∧ (e.slot = none → t.subs = s.subs)
          ∧ (∀ k, e.slot = some k → (∀ m : Fin 64, m ≠ k → t.subs[m] = s.subs[m])
            ∧ (alone s k p → t.subs[k] = shown s.subs[k] (t.viewOf (e.setRecord l r))))
          ∧ t = { s with reports := t.reports, table := t.table, subs := t.subs, loneChanges := t.loneChanges
                         imageCounts := t.imageCounts })
    ∧ (s.reports = .credit id serial l :: rest →
      (s.lookupNamed id serial = none → exec .creditReport s = .next { s with reports := rest })
      ∧ ∀ (p : Fin 512) (e : Entry), s.lookupNamed id serial = some (p, e) →
        ∃ t, exec .creditReport s = .next t ∧ t.reports = rest
          ∧ t.table = s.table.set p (some (e.setRecord l { lone := false, run := 0, cycle := (s.lane l).cycle }))
          ∧ t.loneChanges = s.loneChanges ++ (if ((e.record l).reads (s.lane l).cycle).1 then
              [{ rise := false, lane := l, cycle := (s.lane l).cycle }] else [])
          ∧ (e.slot = none → t.subs = s.subs)
          ∧ (∀ k, e.slot = some k → (∀ m : Fin 64, m ≠ k → t.subs[m] = s.subs[m])
            ∧ (alone s k p → t.subs[k] = shown s.subs[k]
                (t.viewOf (e.setRecord l { lone := false, run := 0, cycle := (s.lane l).cycle }))))
          ∧ t = { s with reports := t.reports, table := t.table, subs := t.subs, loneChanges := t.loneChanges
                         imageCounts := t.imageCounts }))
  ∧ ∀ (s : State) (l : Lane) (rest : List Lane), s.laneNotices = l :: rest → s.ageingDue = [] →
    ∃ t, exec .laneNotice s = .next t ∧ t.laneNotices = rest
      ∧ (∀ (p : Fin 512), (s.table[p] = none → t.table[p] = none)
        ∧ ∀ e, s.table[p] = some e → ∃ r, t.table[p] = some (e.setRecord l r)
          ∧ r.reads (s.lane l).cycle = (e.record l).reads (s.lane l).cycle
          ∧ (r.cycle = (s.lane l).cycle ∨ (r.lone = false ∧ r.run = 0))
          ∧ ∀ k, e.slot = some k → alone s k p → t.subs[k] = shown s.subs[k] (t.viewOf (e.setRecord l r)))
      ∧ (∀ k : Fin 64, (∀ (q : Fin 512) (f : Entry), s.table[q] = some f → f.slot ≠ some k) → t.subs[k] = s.subs[k])
      ∧ t = { s with laneNotices := t.laneNotices, table := t.table, subs := t.subs, imageCounts := t.imageCounts }

/-- Tier 2. R89, R93: LONE_COUNT_RISE and LONE_COUNT_FALL of the lane's present cycle move its lone count by 1, and a judged lane is in
the state the evaluation gives; a lane that is not judged keeps its state; a change of an earlier cycle is discarded. R98, R99: a change
of state claims LANE-VERDICT with the new count and, in RUNNING, offers the LANE event, and a change of the redundancy state that follows
from it claims REDUNDANCY and offers its event; no other change claims or offers anything. That this holds in CONFIG too, while START is
still WORKING past its step 3, is the model's choice (log entry 44). -/
def Obligations.LoneChangesEvaluateTheLane : Prop :=
  ∀ (s : State) (c : LoneChange) (rest : List LoneChange) (i : Instr), s.loneChanges = c :: rest →
    i = (if c.rise then .loneCountRise else .loneCountFall) →
    (c.cycle ≠ (s.lane c.lane).cycle → exec i s = .next { s with loneChanges := rest })
    ∧ (c.cycle = (s.lane c.lane).cycle → ∃ t, exec i s = .next t ∧ t.loneChanges = rest
        ∧ (t.lane c.lane).group.lone = (if c.rise then (s.lane c.lane).group.lone + 1
            else if (s.lane c.lane).group.lone = 0 then 0 else (s.lane c.lane).group.lone - 1)
        ∧ (t.lane c.lane).group.state = (if (s.lane c.lane).group.state.judged then
            evaluation (t.lane c.lane).group.lone s.settings.degradeQuorum else (s.lane c.lane).group.state)
        ∧ ((t.lane c.lane).group.state = (s.lane c.lane).group.state →
            t.journal = s.journal ∧ t.events = s.events ∧ t.redundancy = s.redundancy)
        ∧ ((t.lane c.lane).group.state ≠ (s.lane c.lane).group.state →
          t.redundancy = redundancyOf t.laneA.group.state t.laneB.group.state
          ∧ t.journal.claims = s.journal.claims
              ++ [{ kind := .laneVerdict, subject := .lane c.lane, time := s.clock
                    d1 := (laneStateCode (s.lane c.lane).group.state <<< 8) ||| laneStateCode (t.lane c.lane).group.state
                    d2 := (t.lane c.lane).group.lone, d3 := laneCauseCode .loneCount }]
              ++ (if t.redundancy = s.redundancy then [] else
                  [{ kind := .redundancy, subject := .lane c.lane, time := s.clock, d1 := redundancyCode s.redundancy
                     d2 := redundancyCode t.redundancy, d3 := 0 }])
          ∧ t.events = s.events ++ (if s.partState = .running then
              [.lane c.lane (t.lane c.lane).group.state]
                ++ (if t.redundancy = s.redundancy then [] else [.redundancy t.redundancy])
            else []))
        ∧ t.lane c.lane.other = s.lane c.lane.other ∧ t.table = s.table)

/-- Tier 2. R92: PROVING_TIMER_EXPIRY of a lane still PROVING, once the part clock has reached it: the lane is in the state its evaluation
gives, with no timer; LANE-VERDICT is claimed and, in RUNNING, the LANE event offered to the rules (R98); the redundancy state is that of
the two lanes, and where it has changed REDUNDANCY is claimed and the REDUNDANCY event offered after those (R99). R90: the evaluation is
HEALTHY at lone count 0, SUSPECT from 1 up to the degrade quorum, DEGRADED from the quorum on. R99: the redundancy is DUAL when both lanes
are HEALTHY or SUSPECT, SINGLE when one is, NONE otherwise. A lane that carries traffic is in PROVING, HEALTHY, SUSPECT or DEGRADED, one
that is judged in one of the last three. That this holds in CONFIG too, while START is still WORKING past its step 3, is the model's
choice (log entry 44). -/
def Obligations.ProvingTimerEvaluatesTheLane : Prop :=
  (∀ (s : State) (l : Lane) (ends : Clock), (s.lane l).provingEnds = some ends → reached s.clock ends = true →
    (s.lane l).group.state = .proving →
    ∃ t, exec (.provingTimerExpiry l) s = .next t
      ∧ (t.lane l).group.state = evaluation (s.lane l).group.lone s.settings.degradeQuorum
      ∧ (t.lane l).group.lone = (s.lane l).group.lone ∧ (t.lane l).provingEnds = none
      ∧ (t.lane l).cycle = (s.lane l).cycle ∧ t.lane l.other = s.lane l.other
      ∧ t.redundancy = redundancyOf t.laneA.group.state t.laneB.group.state
      ∧ t.journal.claims = s.journal.claims
          ++ [{ kind := .laneVerdict, subject := .lane l, time := s.clock
                d1 := (laneStateCode .proving <<< 8) ||| laneStateCode (t.lane l).group.state, d2 := (s.lane l).group.lone
                d3 := laneCauseCode .provingTimer }]
          ++ (if t.redundancy = s.redundancy then [] else
              [{ kind := .redundancy, subject := .lane l, time := s.clock, d1 := redundancyCode s.redundancy
                 d2 := redundancyCode t.redundancy, d3 := 0 }])
      ∧ t.events = s.events ++ (if s.partState = .running then
          [.lane l (t.lane l).group.state] ++ (if t.redundancy = s.redundancy then [] else [.redundancy t.redundancy])
        else []))
  ∧ (∀ lone quorum : Word,
    (lone = 0 → evaluation lone quorum = .healthy)
    ∧ (1 ≤ lone.toNat → lone.toNat < quorum.toNat → evaluation lone quorum = .suspect)
    ∧ (1 ≤ lone.toNat → quorum.toNat ≤ lone.toNat → evaluation lone quorum = .degraded))
  ∧ [LaneState.held, .down, .proving, .healthy, .suspect, .degraded].map LaneState.carries = [false, false, true, true, true, true]
  ∧ [LaneState.held, .down, .proving, .healthy, .suspect, .degraded].map LaneState.judged = [false, false, false, true, true, true]
  ∧ ∀ a b : LaneState,
    redundancyOf a b = (if (a = .healthy ∨ a = .suspect) ∧ (b = .healthy ∨ b = .suspect) then .dual
      else if (a = .healthy ∨ a = .suspect) ∨ (b = .healthy ∨ b = .suspect) then .single else .none)

/-! ## Delivery, freshness and rules (chapters 6, 7 and 10) -/

/-- Tier 2. DELIVERY_COMPLETE: the slot's status shows the copy and what was settled at its start, all in this update (the model's choice,
log entry 8), with every superseded rise since then and the enterings of STALE of a slot let go meanwhile (log entries 30 and 32); the
edition word is even again, the deliveries count rises by 1, the content words hold the first 256 bytes of the content, and the notify
entry goes by the notify mode. TEST-MISMATCH comes before it if the flag changes, naming the copy of log entry 31. Each arm outcome that
waited is then an update of its own, with its claim: a refusal, a disarm, or an arm, which writes the status afresh and claims
TEST-MISMATCH if the flag was set (log entry 16). With no copy waiting, each update of the engine that waited is made by itself, in order
(R112), and then a mismatch marker changed meanwhile is shown in an update of its own. With a copy waiting and no update, that copy's
delivery begins at once; with one update as well, a free choice says which is first (log entry 2), and an update made second writes the
view of the delivery. -/
def Obligations.DeliveryShowsTheCopy : Prop :=
  ∀ (s : State) (k : Fin 64) (d : InProgress) (old shown : SlotStatus) (notified claims : List JournalClaim)
    (flag : Bool → Option MarkedBy → List JournalClaim)
    (outcome : SlotStatus × List JournalClaim → SlotOutcome → SlotStatus × List JournalClaim) (previous : Option (List Byte)),
    s.subs[k].inProgress = some d → old = s.subs[k].status →
    (∀ set, flag set none = [] ∧ ∀ mark : MarkedBy, flag set (some mark) =
      [{ kind := .testMismatch, subject := .subscription k, time := mark.time, d1 := mark.id, d2 := if set then 1 else 0
         d3 := mark.seq }]) →
    notified = (let entry := fun kind => ({ kind := kind, subject := .subscription k, time := d.copy.time, d1 := d.copy.id
                                            d2 := d.copy.seq, d3 := old.edition + 1 } : JournalClaim)
      match d.notify with
      | .none => []
      | .onChange => if d.differs then [entry .deliveryChanged] else []
      | .onEvery => [entry .delivery]) →
    (∀ st cs, outcome (st, cs) .disarmed
        = ({ st with edition := st.edition + 2, state := .disarmed, reason := .none }, cs)
      ∧ (∀ reason c, outcome (st, cs) (.refused reason c)
        = ({ st with edition := st.edition + 2, state := .refused, reason := reason }, cs ++ [c]))
      ∧ ∀ view mark, outcome (st, cs) (.armed view mark)
        = ({ edition := st.edition + 2, state := .armed, reason := .none, view := view
             mismatch := false, truncated := false, seq := 0, epoch := 0, port := none, time := 0, cls := none
             test := false, hold := 0, repeatNo := 0, length := 0, deliveries := 0, superseded := 0, stale := 0
             content := [] }, cs ++ (if st.mismatch then flag false mark else []))) →
    (shown, claims) = s.subs[k].outcomes.foldl outcome
      ({ old with
         edition := old.edition + 1, view := d.view, mismatch := d.mismatch
         truncated := decide (256 < d.copy.length.toNat)
         seq := d.copy.seq, epoch := d.copy.epoch, port := some d.copy.port, time := d.copy.time
         cls := some d.copy.cls, test := d.copy.test, hold := d.copy.hold, repeatNo := d.copy.repeatNo
         length := d.copy.length, deliveries := old.deliveries + 1
         superseded := BitVec.ofNat 16 (min 0xFFFF (old.superseded.toNat + s.subs[k].supersededDue))
         stale := BitVec.ofNat 16 (min 0xFFFF (old.stale.toNat + s.subs[k].staleDue))
         content := d.copy.content.take 256 },
       s.journal.claims ++ (if d.mismatch = old.mismatch then [] else flag d.mismatch d.markedBy) ++ notified) →
    previous = (if s.subs[k].outcomes.any (fun o => match o with | .armed _ _ => true | _ => false) then none
      else some (d.copy.content.take 256)) →
    (s.subs[k].waiting = none → exec (.deliveryComplete k) s = .next
      { s with
        journal := { s.journal with
          claims := claims ++ (if s.subs[k].marker = shown.mismatch then [] else flag s.subs[k].marker s.subs[k].markedBy) }
        subs := s.subs.set k
          { s.subs[k] with
            inProgress := none, previous := previous, supersededDue := 0, staleDue := 0, viewsDue := [], outcomes := []
            status :=
              { shown with
                edition := shown.edition + BitVec.ofNat 16 (2 * s.subs[k].viewsDue.length)
                  + (if s.subs[k].marker = shown.mismatch then 0 else 2)
                view := (s.subs[k].viewsDue.getLast?.map (·.view)).getD shown.view
                stale := BitVec.ofNat 16 (min 0xFFFF
                  (shown.stale.toNat + (s.subs[k].viewsDue.filter (·.stale)).length))
                mismatch := s.subs[k].marker } } })
    ∧ ∀ c, s.subs[k].waiting = some c → ∃ next : InProgress, next.copy = c ∧ next.mismatch = s.subs[k].marker
      ∧ next.markedBy = s.subs[k].markedBy ∧ next.notify = (s.subs[k].config.map (·.notify)).getD .none
      ∧ next.differs = (match s.subs[k].config, previous with
          | some cfg, some before =>
            ((c.content.take 256).drop cfg.offset.toNat).take cfg.length.toNat
              != (before.drop cfg.offset.toNat).take cfg.length.toNat
          | _, _ => true)
      ∧ (∀ p e, s.slotEntry k = some p → s.table[p] = some e → next.view = s.viewOf e)
      ∧ (s.subs[k].viewsDue = [] → exec (.deliveryComplete k) s = .next
        { s with
          journal := { s.journal with claims := claims }
          subs := s.subs.set k
            { s.subs[k] with
              inProgress := some next, waiting := none, previous := previous, supersededDue := 0, staleDue := 0
              outcomes := [], status := { shown with edition := shown.edition + 1 } } })
      ∧ ∀ v, s.subs[k].viewsDue = [v] → exec (.deliveryComplete k) s = .next
        { s with
          free := s.free + 1
          journal := { s.journal with claims := claims }
          subs := s.subs.set k
            { s.subs[k] with
              inProgress := some next, waiting := none, previous := previous, supersededDue := 0, staleDue := 0
              outcomes := []
              viewsDue := if Config.freshnessUpdateFirst s.free then [] else [{ view := next.view, stale := v.stale }]
              status := if Config.freshnessUpdateFirst s.free then
                  { shown with
                    edition := shown.edition + 3, view := v.view
                    stale := if v.stale then BitVec.ofNat 16 (min 0xFFFF (shown.stale.toNat + 1)) else shown.stale }
                else { shown with edition := shown.edition + 1 } } }

/-- Tier 2. FRESHNESS_EXPIRY of an entry whose deadline the part clock has reached: the entry is STALE with no deadline, a REMOTE entry's
window is EMPTY and its watches are to be abandoned, STREAM-STALE is claimed with the deadline as its time for a CONFIGURED entry or
where learned streams are journalled, the rules are told, and the slot that shows the entry counts one entering of STALE in an update of
its own, at once or, behind a delivery in progress, after it. -/
def Obligations.FreshnessExpiryMakesStale : Prop :=
  ∀ (s : State) (p : Fin 512) (e : Entry) (time : Clock) (promise margin : Word), s.partState = .running →
    s.lookup e.id = some (p, e) → e.deadline = .at time promise margin → reached s.clock time = true → s.ageingDue = [] →
    ∃ t, exec (.freshnessExpiry e.id) s = .next t
      ∧ t.table = s.table.set p (some { e with fresh := some .stale, deadline := .none
                                               window := if e.origin = .remote then none else e.window })
      ∧ t.twinClaims = s.twinClaims ++ (if e.origin = .remote then [.abandon e.id e.serial] else [])
      ∧ t.events = s.events ++ [.streamStale e.id]
      ∧ t.journal.claims = s.journal.claims ++ (if e.configured || s.settings.journalLearned then
          [{ kind := .streamStale, subject := .stream e.id, time := time
             d1 := freshnessCode e.fresh ||| (if e.configured then 0x100 else 0), d2 := promise, d3 := margin }] else [])
      ∧ (e.slot = none → t.subs = s.subs)
      ∧ (∀ k, e.slot = some k → s.slotEntry k = some p →
          (∀ m : Fin 64, m ≠ k → t.subs[m] = s.subs[m])
          ∧ (s.subs[k].inProgress = none →
            t.subs[k].status.view.fresh = some .stale
            ∧ t.subs[k].status.stale = (if s.subs[k].status.stale = 0xFFFF then 0xFFFF else s.subs[k].status.stale + 1)
            ∧ t.subs[k].status.edition = s.subs[k].status.edition + 2)
          ∧ (s.subs[k].inProgress.isSome = true →
            t.subs[k].status = s.subs[k].status ∧ t.subs[k].inProgress = s.subs[k].inProgress
            ∧ ∃ v, t.subs[k].viewsDue = s.subs[k].viewsDue ++ [v] ∧ v.stale = true ∧ v.view.fresh = some .stale))
      ∧ t = { s with table := t.table, twinClaims := t.twinClaims, events := t.events, journal := t.journal, subs := t.subs
                     imageCounts := t.imageCounts }

/-- Tier 2. R163: a contact source concerns each change of its input and matches the level entered; STREAM-MATCH and STREAM-STALE concern
each accepted copy and each STALE of their stream, the first matching a copy whose content holds at least offset + 4 bytes with the four
from the offset equal to the value under the mask, the second a STALE; LANE concerns the changes of its lane and matches its verdict,
REDUNDANCY each redundancy change and matches its state. EVENT_OFFER: the rules judge the event. A rule that is not ARMED, or that the
event does not concern, is as it was. One that it concerns takes the event's match as its match state, and fires if the event matches and,
in EDGE mode, the match state was not MATCHING: the fired count rises and the firing is journalled if the rule asks for it, by a claim added
here. Where no other rule is ARMED, that claim is the first added and the action's effect, with its OUTPUT-CHANGE, is that of the one rule:
a DRIVE acts in RUNNING (R161), a POST that finds nothing posted and no take in progress begins the slot's take, a HOST-CONTENT slot's
content read whole at its start (the model's choice, log entry 26); and the refusal count rises if the output is not permitted or the slot
not armed. -/
def Obligations.EventsAreJudgedByTheRules : Prop :=
  (∀ (src : Source) (e : RuleEvent),
    (src.concerns e = true ↔
      (∃ n on time, (src = .contactOn n ∨ src = .contactOff n) ∧ e = .contact n on time)
      ∨ (∃ id, ((∃ offset mask value, src = .streamMatch id offset mask value) ∨ src = .streamStale id)
          ∧ ((∃ content, e = .streamCopy id content) ∨ e = .streamStale id))
      ∨ (∃ l verdict entered, src = .lane l verdict ∧ e = .lane l entered)
      ∨ ∃ named entered, src = .redundancy named ∧ e = .redundancy entered)
    ∧ (src.concerns e = true → (src.matches e = true ↔
      (∃ n time, src = .contactOn n ∧ e = .contact n true time) ∨ (∃ n time, src = .contactOff n ∧ e = .contact n false time)
      ∨ (∃ id offset mask value content, src = .streamMatch id offset mask value ∧ e = .streamCopy id content
          ∧ offset + 4 ≤ content.length
          ∧ ∀ i < 4, content.getD (offset + i) 0 &&& mask.getD i 0 = value.getD i 0 &&& mask.getD i 0)
      ∨ (∃ id, src = .streamStale id ∧ e = .streamStale id) ∨ (∃ l entered, src = .lane l entered ∧ e = .lane l entered)
      ∨ ∃ entered, src = .redundancy entered ∧ e = .redundancy entered)))
  ∧ ∀ (s : State) (e : RuleEvent) (rest : List RuleEvent), s.events = e :: rest →
    ∃ t, exec .eventOffer s = .next t ∧ t.events = rest ∧ t.mem = s.mem ∧ t.table.map (·.isSome) = s.table.map (·.isSome)
      ∧ t.inputs = s.inputs ∧ t.settings = s.settings ∧ t.subs = s.subs
      ∧ ∀ k : Fin 16,
        ((s.rules[k].state ≠ .armed ∨ s.rules[k].copy = none) → t.rules[k] = s.rules[k])
        ∧ ∀ c, s.rules[k].state = .armed → s.rules[k].copy = some c →
          (c.source.concerns e = false → t.rules[k] = s.rules[k])
          ∧ (c.source.concerns e = true → (c.source.matches e && (!c.edge || !s.rules[k].matching)) = false →
              t.rules[k] = { s.rules[k] with matching := c.source.matches e })
          ∧ (c.source.concerns e = true → (c.source.matches e && (!c.edge || !s.rules[k].matching)) = true →
              t.rules[k] =
                { s.rules[k] with
                  matching := true, lastFired := s.clock
                  fired := if s.rules[k].fired = 0xFFFF then 0xFFFF else s.rules[k].fired + 1
                  refusals := t.rules[k].refusals }
              ∧ ∃ fired : JournalClaim,
                fired = { kind := .ruleFired, subject := .rule k, time := s.clock, d1 := sourceKindCode c.source
                          d2 := eventSubject e, d3 := actionCode c.action }
              ∧ (c.journal = true → ∃ before after, t.journal.claims = s.journal.claims ++ before ++ [fired] ++ after)
              ∧ ((∀ j : Fin 16, j ≠ k → s.rules[j].state ≠ .armed) →
                  (∃ acted, t.journal.claims = s.journal.claims ++ (if c.journal then [fired] else []) ++ acted
                    ∧ match c.action with
                      | .driveOutput n => acted = if s.partState = .running ∧ s.settings.outputs[n].permitted = true
                            ∧ s.outputs[n].driven = false then
                          [{ kind := .outputChange, subject := .output n, time := s.clock, d1 := 0, d2 := 1
                             d3 := BitVec.ofNat 16 k.val }] else []
                      | .releaseOutput n => acted = if s.outputs[n].driven then
                          [{ kind := .outputChange, subject := .output n, time := s.clock, d1 := 1, d2 := 0
                             d3 := BitVec.ofNat 16 k.val }] else []
                      | .post n => (s.pubs[n].state.armed = false ∨ s.take.isSome = true) → acted = []
                      | .journalOnly => acted = [])
                  ∧ t.rules[k].refusals =
                    (if (match c.action with
                        | .driveOutput n => !s.settings.outputs[n].permitted
                        | .post n => !s.pubs[n].state.armed
                        | .releaseOutput _ | .journalOnly => false) = true ∧ s.rules[k].refusals ≠ 0xFF
                     then s.rules[k].refusals + 1 else s.rules[k].refusals)
                  ∧
                  (∀ n, c.action = .driveOutput n → s.partState = .running → s.settings.outputs[n].permitted = true →
                    t.outputs[n].driven = true ∧ ∀ m : Fin 4, m ≠ n → t.outputs[m] = s.outputs[m])
                  ∧ (∀ n, c.action = .releaseOutput n →
                    t.outputs[n].driven = false ∧ ∀ m : Fin 4, m ≠ n → t.outputs[m] = s.outputs[m])
                  ∧ ∀ n pc, c.action = .post n → s.pubs[n].state.armed = true → s.pubs[n].config = some pc →
                    pc.snapshot = false → s.postTrip = [] → s.postOther = [] → s.take = none →
                    t.journal.claims = s.journal.claims ++ (if c.journal then [fired] else [])
                    ∧ t.take = some { slot := n, poster := .rule k, edition := readWord s.mem (pubBase n + 11)
                                      staged := readStaged s.mem n }))

/-! ## Contact inputs (R155 to R159) -/

/-- Tier 2. RAW_CHANGE: the raw level turns over (the model's reading, log entry 24); before START's filtering begins nothing else
changes. Then, in RUNNING and in CONFIG (the model's choice, log entry 38), a BLOCKED input only notes the time; an input whose raw level
has returned to its accepted level is STEADY; any other settles toward the raw level with its timer begun again. FILTER_TIMER_EXPIRY, once
reached, of an UNKNOWN input: the level settled toward is accepted with CONTACT-INITIAL, whose time is the part clock at the claim (the
model's choice, log entry 17). -/
def Obligations.RawChangesAreFiltered : Prop :=
  ∀ (s : State) (n : Fin 8),
    (∃ t, exec (.rawChange n) s = .next t ∧ t.pins = { s.pins with raw := s.pins.raw.set n (!s.pins.raw[n]) }
      ∧ (∀ m : Fin 8, m ≠ n → t.inputs[m] = s.inputs[m])
      ∧ (s.filtering = false → t.inputs[n] = s.inputs[n])
      ∧ (s.filtering = true → s.inputs[n].blocked = true → t.inputs[n] = { s.inputs[n] with rawSince := s.clock })
      ∧ (s.filtering = true → s.inputs[n].blocked = false → s.inputs[n].accepted = some (!s.pins.raw[n]) →
          t.inputs[n] = { s.inputs[n] with settling := none, filterEnds := none, rawSince := s.clock })
      ∧ (s.filtering = true → s.inputs[n].blocked = false → s.inputs[n].accepted ≠ some (!s.pins.raw[n]) →
          t.inputs[n] = { s.inputs[n] with settling := some (!s.pins.raw[n]), rawSince := s.clock
                                           filterEnds := some (s.clock + halfMillis s.settings.contacts[n].filter) })
      ∧ t = { s with pins := t.pins, inputs := t.inputs, contactEdition := t.contactEdition })
    ∧ ∀ due level, s.inputs[n].filterEnds = some due → s.inputs[n].settling = some level → s.inputs[n].accepted = none →
      reached s.clock due = true →
      ∃ t, exec (.filterTimerExpiry n) s = .next t
        ∧ t.inputs[n] = { s.inputs[n] with accepted := some level, settling := none, filterEnds := none
                                           lastChange := s.inputs[n].rawSince }
        ∧ (∀ m : Fin 8, m ≠ n → t.inputs[m] = s.inputs[m])
        ∧ t.journal.claims = s.journal.claims ++
            [{ kind := .contactInitial, subject := .contact n, time := s.clock, d1 := levelCode (some level), d2 := 0
               d3 := 0 }]
        ∧ t.events = s.events ∧ t = { s with inputs := t.inputs, contactEdition := t.contactEdition, journal := t.journal }

/-- Tier 2. FILTER_TIMER_EXPIRY, once reached, of an input with an accepted level: the changes count in the window is at the filter
timer's own expiry (the model's choice, log entry 23), a window of 1,000,000 us, its age taken modulo 2^32 (log entry 39), beginning where
none runs. At most the chatter limit, the change is accepted, journalled if the flag is on, and offered to the rules; past it the input is
BLOCKED with its block count set, and nothing is accepted. BLOCK_COUNT_EXPIRY of a BLOCKED input whose count is 0: it unblocks if its raw
level has held for one filter time, and otherwise waits; UNBLOCK unblocks a waiting one once it has. Unblocking takes the raw level,
begins the chatter count afresh, claims CONTACT-UNBLOCKED, and is a change, journalled and offered, where the level differs from the
accepted one. The time of CONTACT-BLOCKED and CONTACT-UNBLOCKED is the part clock at the claim (the model's choice, log entry 17). -/
def Obligations.ChangesAreAcceptedOrBlocked : Prop :=
  (∀ (s : State) (n : Fin 8) (due start : Clock) (count : Nat) (old level : Bool), s.partState = .running →
    s.inputs[n].filterEnds = some due → s.inputs[n].settling = some level → s.inputs[n].accepted = some old →
    reached s.clock due = true →
    ((s.inputs[n].windowStart = none ∧ start = due ∧ count = 1)
      ∨ ∃ w, s.inputs[n].windowStart = some w ∧ ((1000000 ≤ (due - w).toNat ∧ start = due ∧ count = 1)
          ∨ ((due - w).toNat < 1000000 ∧ start = w ∧ count = s.inputs[n].changes + 1))) →
    ∃ t, exec (.filterTimerExpiry n) s = .next t ∧ (∀ m : Fin 8, m ≠ n → t.inputs[m] = s.inputs[m])
      ∧ (count ≤ s.settings.contacts[n].limit.toNat →
          t.inputs[n] = { s.inputs[n] with accepted := some level, settling := none, filterEnds := none
                                           lastChange := s.inputs[n].rawSince, changes := count, windowStart := some start }
          ∧ t.journal.claims = s.journal.claims ++ (if s.settings.contacts[n].journal then
              [{ kind := .contactChange, subject := .contact n, time := s.inputs[n].rawSince, d1 := levelCode (some old)
                 d2 := levelCode (some level), d3 := 0 }] else [])
          ∧ t.events = s.events ++ [.contact n level s.inputs[n].rawSince])
      ∧ (s.settings.contacts[n].limit.toNat < count →
          t.inputs[n] = { s.inputs[n] with blocked := true, waiting := false, settling := none, filterEnds := none
                                           changes := count, windowStart := some start
                                           blockCount := s.settings.contacts[n].block.toNat }
          ∧ t.journal.claims = s.journal.claims ++
              [{ kind := .contactBlocked, subject := .contact n, time := s.clock, d1 := levelCode (some old)
                 d2 := BitVec.ofNat 16 count, d3 := 0 }]
          ∧ t.events = s.events)
      ∧ t = { s with inputs := t.inputs, contactEdition := t.contactEdition, journal := t.journal, events := t.events })
  ∧ ∀ (s : State) (n : Fin 8), s.partState = .running → s.inputs[n].blocked = true →
    (s.inputs[n].blockCount = 0 → s.inputs[n].waiting = false →
      (s.clock - s.inputs[n].rawSince).toNat < (halfMillis s.settings.contacts[n].filter).toNat →
      exec (.blockCountExpiry n) s = .next
        { s with inputs := modifyAt s.inputs n (fun i => { i with waiting := true }) })
    ∧ ∀ i : Instr, ((i = .blockCountExpiry n ∧ s.inputs[n].blockCount = 0 ∧ s.inputs[n].waiting = false)
        ∨ (i = .unblock n ∧ s.inputs[n].waiting = true)) →
      (halfMillis s.settings.contacts[n].filter).toNat ≤ (s.clock - s.inputs[n].rawSince).toNat →
      ∃ t, exec i s = .next t ∧ (∀ m : Fin 8, m ≠ n → t.inputs[m] = s.inputs[m])
        ∧ t.inputs[n] =
            { s.inputs[n] with
              blocked := false, waiting := false, changes := 0, windowStart := none, accepted := some s.pins.raw[n]
              lastChange := if s.inputs[n].accepted = some s.pins.raw[n] then s.inputs[n].lastChange
                            else s.inputs[n].rawSince }
        ∧ t.journal.claims = s.journal.claims
            ++ [{ kind := .contactUnblocked, subject := .contact n, time := s.clock, d1 := levelCode s.inputs[n].accepted
                  d2 := levelCode (some s.pins.raw[n]), d3 := 0 }]
            ++ (if s.inputs[n].accepted ≠ some s.pins.raw[n] ∧ s.settings.contacts[n].journal = true then
                [{ kind := .contactChange, subject := .contact n, time := s.inputs[n].rawSince
                   d1 := levelCode s.inputs[n].accepted, d2 := levelCode (some s.pins.raw[n]), d3 := 0 }] else [])
        ∧ t.events = s.events ++ (if s.inputs[n].accepted = some s.pins.raw[n] then []
            else [.contact n s.pins.raw[n] s.inputs[n].rawSince])
        ∧ t = { s with inputs := t.inputs, contactEdition := t.contactEdition, journal := t.journal, events := t.events }

/-! ## The journal and the interrupt (chapter 11) -/

/-- Tier 2. JOURNAL_CLAIM, with no write of the journal taken word waiting (O16 says what one behind the claim adds): with 128 entries
outstanding the claim is lost, counted, and an overflow is pending; else it is written as the next entry, at its number's place in the
ring, after the OVERFLOW entry if one is pending, which may take the last place. In RUNNING INT follows the entries written; outside it, or
disabled, it is not acted on (R171). INT_PULSE_END, once reached, ends the pulse. -/
def Obligations.ClaimsAreWrittenOrLost : Prop :=
  (∀ (s : State) (c : JournalClaim) (rest : List JournalClaim), s.journal.claims = c :: rest →
    s.journal.writes = [] → ∃ j, exec .journalClaim s = .next { s with journal := j } ∧ j.claims = rest
      ∧ j.taken = s.journal.taken ∧ j.writes = []
      ∧ (128 ≤ s.journal.outstanding →
          j = { s.journal with
                claims := rest, lost := if s.journal.lost = 0xFFFF then 0xFFFF else s.journal.lost + 1
                firstLoss := if s.journal.lost = 0 then s.clock else s.journal.firstLoss, overflowPending := true })
      ∧ (s.journal.outstanding < 128 → s.journal.overflowPending = false →
          j.written = s.journal.written + 1
          ∧ (∀ i : Fin 128, j.ring[i] = (if i.val = (s.journal.written + 1).toNat % 128
              then some { number := s.journal.written + 1, claim := c } else s.journal.ring[i]))
          ∧ j.lost = s.journal.lost ∧ j.overflowPending = false)
      ∧ (s.journal.outstanding < 128 → s.journal.overflowPending = true →
          (∀ i : Fin 128, i.val = (s.journal.written + 1).toNat % 128 →
            j.ring[i] = some { number := s.journal.written + 1
                               claim := { kind := .overflow, subject := .part, time := s.clock, d1 := s.journal.lost
                                          d2 := high s.journal.firstLoss, d3 := low s.journal.firstLoss } })
          ∧ (s.journal.outstanding = 127 → j.written = s.journal.written + 1 ∧ j.lost = 1 ∧ j.firstLoss = s.clock
              ∧ j.overflowPending = true)
          ∧ (s.journal.outstanding < 127 → j.written = s.journal.written + 2 ∧ j.lost = 0 ∧ j.overflowPending = false
              ∧ ∀ i : Fin 128, i.val = (s.journal.written + 2).toNat % 128 →
                j.ring[i] = some { number := s.journal.written + 2, claim := c }))
      ∧ (s.journal.outstanding < 128 → s.partState = .running → s.settings.intEnable = true →
          s.settings.intPulse = false → j.int = true)
      ∧ (s.journal.outstanding < 128 → s.partState = .running → s.settings.intEnable = true → s.settings.intPulse = true →
          (s.journal.pulseEnds = none → j.int = true ∧ j.pulseEnds = some (s.clock + 2))
          ∧ (s.journal.pulseEnds ≠ none → j.int = s.journal.int ∧ j.pulseEnds = s.journal.pulseEnds))
      ∧ (s.partState ≠ .running ∨ s.settings.intEnable = false →
          j.int = s.journal.int ∧ j.pulseEnds = s.journal.pulseEnds))
  ∧ ∀ (s : State) (due : Clock), s.journal.pulseEnds = some due → reached s.clock due = true →
    exec .intPulseEnd s = .next { s with journal := { s.journal with int := false, pulseEnds := none } }

/-! ## What every step keeps -/

/-- Tier 3. Every step keeps the canonical form of the host's words: rising addresses, no zero byte. -/
def Obligations.StepsKeepMemoryCanonical : Prop :=
  ∀ s t : State, Memory.wf s.mem → step s = .next t → Memory.wf t.mem

/-- Tier 3. R3, R4: no step but a reset, the completion of INITIALISING and a host write changes a host word, and a host write changes
at most the word it goes to: every other word reads as before. -/
def Obligations.OnlyHostWritesChangeHostWords : Prop :=
  ∀ (s t : State), step s = .next t → s.pending.head? ≠ some .hardwareReset → s.pending.head? ≠ some .initialisingComplete →
    ∀ b : Nat,
      (match s.pending.head? with
        | some (.hostWrite a _) => b ≠ a.toNat
        | some .start | some .apply | some .clearCounts | some .softReset | some .laneHold | some .laneRelease
        | some .outputDrive | some .outputRelease | some (.unknownCommand _) => b ≠ commandWord
        | some (.journalTakenWrite _) => b ≠ journalTakenWord
        | some (.subscriptionArm k _) => b ≠ subBase k + 7
        | some (.publicationArm k _) => b ≠ pubBase k + 12
        | some (.linkRuleArm k _) => b ≠ ruleBase k + 11
        | some (.editionWrite k _) => b ≠ pubBase k + 11
        | _ => True) →
      readWord t.mem b = readWord s.mem b

/-- Tier 3. R168, R171, R172: every step keeps at most 128 entries outstanding, and the INT line inactive outside RUNNING and, in RUNNING,
where the settings in force put it (as RUNNING begins: the model's reading, log entry 41). -/
def Obligations.StepsKeepTheJournalSound : Prop :=
  ∀ s t : State, s.journal.bounded → InterruptSound s → step s = .next t → t.journal.bounded ∧ InterruptSound t

/-- Tier 3. R160, R161: no step leaves an output DRIVEN while the part is not RUNNING, or one that the settings in force do not permit. -/
def Obligations.StepsDriveOnlyPermittedOutputs : Prop :=
  ∀ s t : State, OutputsSafe s → step s = .next t → OutputsSafe t

/-- Tier 3. R35, R78, R82, R144: no step puts more into a queue of a port, or into a list of Twin Watch, than its room. -/
def Obligations.StepsKeepQueuesBounded : Prop :=
  ∀ s t : State, QueuesBounded s → step s = .next t → QueuesBounded t

/-- Tier 3. R42, R52, R54, R78: every step keeps the stream table sound (no two entries of one stream, of one subscription slot, or
LOCAL-HOST of one publication slot, and a slot that an entry names is armed), and every step keeps the watch list without two entries of
one stream and sequence. R89: a step that stays in the lane's cycle keeps its lone count, the rises and falls of this cycle that wait
taken, the number of entries whose record reads as LONE; a step that begins a new cycle leaves the count 0. -/
def Obligations.StepsKeepEntriesUnique : Prop :=
  (∀ s t : State, TableSound s → step s = .next t → TableSound t)
  ∧ (∀ s t : State, WatchesUnique s → step s = .next t → WatchesUnique t)
  ∧ ∀ (s t : State) (l : Lane), step s = .next t →
    ((t.lane l).cycle = (s.lane l).cycle → LoneCountSound l s → LoneCountSound l t)
    ∧ ((t.lane l).cycle ≠ (s.lane l).cycle → (t.lane l).group.lone = 0)

/-- Tier 3. R8, R119: every step keeps the edition words even, and that of a subscription slot odd exactly while a delivery to it is in
progress. -/
def Obligations.StepsKeepEditionsEven : Prop :=
  ∀ s t : State, EditionsEven s → step s = .next t → EditionsEven t

/-- Tier 3. R133, R134, R141, R142: every step keeps the post set, the take, the send calendar and the refresh deadlines sound. -/
def Obligations.StepsKeepTheSchedulerSound : Prop :=
  ∀ s t : State, SchedulerSound s → step s = .next t → SchedulerSound t
end

