-- ==== Sys2Proof/Laws/Memory.lean ====
section
/-! SUPPORT. The laws of the listed memory: what a read finds after a write, and that every write keeps the canonical form. -/

namespace Sys2Proof.Machine

/-! ## The canonical form is kept -/

/-- Every listed address lies at or above `a`. -/
theorem writeByte_mem_lower {m : List Host.Cell} {a b : Nat} {v : Byte} (hb : b < a) (h : ∀ c ∈ m, b < c.1) :
    ∀ c ∈ writeByte m a v, b < c.1 := by
  induction m with
  | nil => unfold writeByte; split <;> simp [hb]
  | cons d rest ih =>
    obtain ⟨x, w⟩ := d
    have hr : ∀ c ∈ rest, b < c.1 := fun c hc => h c (List.mem_cons_of_mem _ hc)
    have hx : b < x := h (x, w) List.mem_cons_self
    unfold writeByte
    split
    · split
      · exact h
      · intro c hc
        rcases List.mem_cons.mp hc with rfl | hc
        · exact hb
        · exact h c hc
    · split
      · split
        · exact hr
        · intro c hc
          rcases List.mem_cons.mp hc with rfl | hc
          · exact hb
          · exact hr c hc
      · intro c hc
        rcases List.mem_cons.mp hc with rfl | hc
        · exact hx
        · exact ih hr c hc

theorem writeByte_wf {m : List Host.Cell} (h : Memory.wf m) (a : Nat) (v : Byte) : Memory.wf (writeByte m a v) := by
  induction m with
  | nil =>
    unfold writeByte
    split
    · exact ⟨List.Pairwise.nil, by simp⟩
    · next hv => exact ⟨List.pairwise_singleton _ _, by simpa using hv⟩
  | cons d rest ih =>
    obtain ⟨x, w⟩ := d
    obtain ⟨hp, hn⟩ := h
    have hpr := List.pairwise_cons.mp hp
    have hnr : ∀ c ∈ rest, c.2 ≠ Memory.unlisted := fun c hc => hn c (List.mem_cons_of_mem _ hc)
    have hwr : Memory.wf rest := ⟨hpr.2, hnr⟩
    have hw : w ≠ Memory.unlisted := hn (x, w) List.mem_cons_self
    unfold writeByte
    split
    · next hlt =>
      split
      · exact ⟨hp, hn⟩
      · next hv =>
        refine ⟨List.pairwise_cons.mpr ⟨?_, hp⟩, ?_⟩
        · intro c hc
          rcases List.mem_cons.mp hc with rfl | hc
          · exact hlt
          · exact Nat.lt_trans hlt (hpr.1 c hc)
        · intro c hc
          rcases List.mem_cons.mp hc with rfl | hc
          · exact hv
          · exact hn c hc
    · next hge =>
      split
      · next heq =>
        split
        · exact hwr
        · next hv =>
          refine ⟨List.pairwise_cons.mpr ⟨?_, hpr.2⟩, ?_⟩
          · intro c hc
            exact heq ▸ hpr.1 c hc
          · intro c hc
            rcases List.mem_cons.mp hc with rfl | hc
            · exact hv
            · exact hnr c hc
      · next hne =>
        have hlt : x < a := by omega
        refine ⟨List.pairwise_cons.mpr ⟨?_, (ih hwr).1⟩, ?_⟩
        · exact writeByte_mem_lower hlt hpr.1
        · intro c hc
          rcases List.mem_cons.mp hc with rfl | hc
          · exact hw
          · exact (ih hwr).2 c hc

theorem writeWord_wf {m : List Host.Cell} (h : Memory.wf m) (a : Nat) (v : Word) : Memory.wf (writeWord m a v) :=
  writeByte_wf (writeByte_wf h _ _) _ _

theorem writeWords_wf {m : List Host.Cell} (h : Memory.wf m) (a : Nat) (vs : List Word) :
    Memory.wf (writeWords m a vs) := by
  induction vs generalizing m a with
  | nil => exact h
  | cons v vs ih => exact ih (writeWord_wf h a v) (a + 1)

theorem empty_wf : Memory.wf [] := ⟨List.Pairwise.nil, by simp⟩

theorem defaultMem_wf : Memory.wf defaultMem :=
  writeWords_wf (writeWords_wf (writeWords_wf empty_wf _ _) _ _) _ _

/-! ## Reading after a write -/

theorem readByte_of_lower {m : List Host.Cell} {a : Nat} (h : ∀ c ∈ m, a < c.1) : readByte m a = Memory.unlisted := by
  induction m with
  | nil => rfl
  | cons d rest ih =>
    obtain ⟨x, w⟩ := d
    have hx : a < x := h (x, w) List.mem_cons_self
    unfold readByte
    rw [if_neg (by omega)]
    exact ih (fun c hc => h c (List.mem_cons_of_mem _ hc))

theorem readByte_writeByte_self {m : List Host.Cell} (h : Memory.wf m) (a : Nat) (v : Byte) :
    readByte (writeByte m a v) a = v := by
  induction m with
  | nil =>
    unfold writeByte
    split
    · next hv => rw [hv]; rfl
    · simp [readByte]
  | cons d rest ih =>
    obtain ⟨x, w⟩ := d
    obtain ⟨hp, hn⟩ := h
    have hpr := List.pairwise_cons.mp hp
    have hwr : Memory.wf rest := ⟨hpr.2, fun c hc => hn c (List.mem_cons_of_mem _ hc)⟩
    unfold writeByte
    split
    · next hlt =>
      split
      · next hv =>
        rw [hv]
        apply readByte_of_lower
        intro c hc
        rcases List.mem_cons.mp hc with rfl | hc
        · exact hlt
        · exact Nat.lt_trans hlt (hpr.1 c hc)
      · simp [readByte]
    · split
      · next heq =>
        split
        · next hv => rw [hv]; exact readByte_of_lower (fun c hc => heq ▸ hpr.1 c hc)
        · simp [readByte]
      · next hne =>
        unfold readByte
        rw [if_neg (fun e => hne e.symm)]
        exact ih hwr

theorem readByte_writeByte_ne (m : List Host.Cell) (a b : Nat) (v : Byte) (hab : b ≠ a) :
    readByte (writeByte m a v) b = readByte m b := by
  induction m with
  | nil =>
    unfold writeByte
    split
    · rfl
    · simp [readByte, Ne.symm hab]
  | cons d rest ih =>
    obtain ⟨x, w⟩ := d
    unfold writeByte
    split
    · split
      · rfl
      · rw [readByte, if_neg (Ne.symm hab)]
    · split
      · next heq =>
        have hx : x ≠ b := fun e => hab (e.symm.trans heq.symm)
        split
        · simp [readByte, hx]
        · simp [readByte, Ne.symm hab, hx]
      · by_cases hx : x = b
        · simp [readByte, hx]
        · simp [readByte, hx, ih]

theorem wordOf_halves (v : Word) : wordOf (v.extractLsb' 8 8) (v.extractLsb' 0 8) = v := by
  unfold wordOf
  ext i hi
  simp only [BitVec.getElem_append, BitVec.getElem_extractLsb']
  split <;> simp_all [BitVec.getLsbD_eq_getElem]

theorem readWord_writeWord_self {m : List Host.Cell} (h : Memory.wf m) (a : Nat) (v : Word) :
    readWord (writeWord m a v) a = v := by
  unfold readWord writeWord
  rw [readByte_writeByte_ne _ _ _ _ (by omega), readByte_writeByte_self h,
    readByte_writeByte_self (writeByte_wf h _ _)]
  exact wordOf_halves v

theorem readWord_writeWord_ne (m : List Host.Cell) (a b : Nat) (v : Word) (hab : b ≠ a) :
    readWord (writeWord m a v) b = readWord m b := by
  unfold readWord writeWord
  rw [readByte_writeByte_ne _ _ _ _ (by omega), readByte_writeByte_ne _ _ _ _ (by omega),
    readByte_writeByte_ne _ _ _ _ (by omega), readByte_writeByte_ne _ _ _ _ (by omega)]

/-- The two bytes of a word, the first in its upper half. -/
theorem readWord_halves (m : List Host.Cell) (a : Nat) :
    (readWord m a).extractLsb' 8 8 = readByte m (2 * a) ∧ (readWord m a).extractLsb' 0 8 = readByte m (2 * a + 1) := by
  unfold readWord wordOf
  constructor <;> ext j hj
  · rw [BitVec.getElem_extractLsb', BitVec.getLsbD_append]
    simp [BitVec.getLsbD_eq_getElem hj]
  · rw [BitVec.getElem_extractLsb', BitVec.getLsbD_append]
    simp [hj]

end Sys2Proof.Machine
end

