-- ==== Sys2Proof/Laws/Place.lean ====
section
/-! SUPPORT. Where the words of a record lie on the map, and whose they are. -/

namespace Sys2Proof.Machine

theorem place_pub (k : Fin 32) (off : Nat) (h : off < 160) : place (pubBase k + off) = .publication k off := by
  have hk := k.isLt
  have h1 : (pubBase k + off - 0x0200) / 160 = k.val := by unfold pubBase; omega
  have h2 : (pubBase k + off - 0x0200) % 160 = off := by unfold pubBase; omega
  have h3 : Fin.ofNat 32 k.val = k := by ext; simp [Fin.ofNat]
  unfold place
  repeat rw [if_neg (by unfold pubBase; omega)]
  rw [if_pos (by unfold pubBase; omega), h1, h2, h3]

theorem place_sub (k : Fin 64) (off : Nat) (h : off < 176) : place (subBase k + off) = .subscription k off := by
  have hk := k.isLt
  have h1 : (subBase k + off - 0x1600) / 176 = k.val := by unfold subBase; omega
  have h2 : (subBase k + off - 0x1600) % 176 = off := by unfold subBase; omega
  have h3 : Fin.ofNat 64 k.val = k := by ext; simp [Fin.ofNat]
  unfold place
  repeat rw [if_neg (by unfold subBase; omega)]
  rw [if_pos (by unfold subBase; omega), h1, h2, h3]

theorem place_rule (k : Fin 16) (off : Nat) (h : off < 16) : place (ruleBase k + off) = .rule k off := by
  have hk := k.isLt
  have h1 : (ruleBase k + off - 0x4600) / 16 = k.val := by unfold ruleBase; omega
  have h2 : (ruleBase k + off - 0x4600) % 16 = off := by unfold ruleBase; omega
  have h3 : Fin.ofNat 16 k.val = k := by ext; simp [Fin.ofNat]
  unfold place
  repeat rw [if_neg (by unfold ruleBase; omega)]
  rw [if_pos (by unfold ruleBase; omega), h1, h2, h3]

@[simp] theorem place_command : place commandWord = .command := by decide

@[simp] theorem place_journalTaken : place journalTakenWord = .journalTaken := by decide

@[simp] theorem place_argument : place argumentWord = .argument := by decide

/-- Outside INITIALISING a word that is not the command or argument word is the side's that the fixed map gives. -/
theorem sideNow_fixed (s : State) (a : Nat) (h : s.partState ≠ .initialising)
    (h' : s.working = none ∨ (a ≠ commandWord ∧ a ≠ argumentWord)) : s.sideNow a = sideOf (place a) := by
  unfold State.sideNow
  rw [if_neg h]
  rcases h' with h' | ⟨h1, h2⟩
  · simp [h']
  · simp [h1, h2]

theorem armWord_sub_ne (k : Fin 64) (off : Nat) : subBase k + off ≠ commandWord ∧ subBase k + off ≠ argumentWord := by
  unfold subBase commandWord argumentWord; omega

theorem armWord_pub_ne (k : Fin 32) (off : Nat) : pubBase k + off ≠ commandWord ∧ pubBase k + off ≠ argumentWord := by
  unfold pubBase commandWord argumentWord; omega

theorem armWord_rule_ne (k : Fin 16) (off : Nat) :
    ruleBase k + off ≠ commandWord ∧ ruleBase k + off ≠ argumentWord := by
  unfold ruleBase commandWord argumentWord; omega

/-! ## What a write to each trigger word does -/

/-- A write discarded: the part is INITIALISING (R2). -/
theorem hostWrite_initialising (a : Nat) (v : Word) (s : State) (h : s.partState = .initialising) :
    hostWrite a v s = s := by
  unfold hostWrite; rw [if_pos h]

/-- A write stored, and what it does. -/
theorem hostWrite_stored (a : Nat) (v : Word) (s : State) (h : s.partState ≠ .initialising) (hs : s.sideNow a = .host) :
    hostWrite a v s = written a v { s with mem := writeWord s.mem a v } := by
  unfold hostWrite; rw [if_neg h, hs]

/-- A write refused. -/
theorem hostWrite_refused (a : Nat) (v : Word) (s : State) (h : s.partState ≠ .initialising) (hs : s.sideNow a ≠ .host) :
    hostWrite a v s = refuseWrite a v s := by
  unfold hostWrite
  rw [if_neg h]
  cases hh : s.sideNow a
  · exact absurd hh hs
  · rfl
  · rfl

/-- A command given: the word stored, and the command taken. -/
theorem hostWrite_command (v : Word) (s : State) (h : s.partState ≠ .initialising) (hw : s.working = none) :
    hostWrite commandWord v s = takeCommand v { s with mem := writeWord s.mem commandWord v } := by
  rw [hostWrite_stored _ _ _ h (by rw [sideNow_fixed s _ h (Or.inl hw), place_command]; rfl)]
  unfold written
  rw [place_command]

/-- The journal taken word. -/
theorem hostWrite_journalTaken (t : Word) (s : State) (h : s.partState ≠ .initialising) :
    hostWrite journalTakenWord t s
      = { s with mem := writeWord s.mem journalTakenWord t, journal := s.journal.handWrite s.lineSettings t } := by
  rw [hostWrite_stored _ _ _ h (by rw [sideNow_fixed s _ h (Or.inr (by decide)), place_journalTaken]; rfl)]
  unfold written
  rw [place_journalTaken]; rfl

/-- A subscription slot's arm word. -/
theorem hostWrite_subArm (k : Fin 64) (v : Word) (s : State) (h : s.partState ≠ .initialising) :
    hostWrite (subBase k + 7) v s = armWritten (.subscription k) { s with mem := writeWord s.mem (subBase k + 7) v } := by
  rw [hostWrite_stored _ _ _ h (by rw [sideNow_fixed s _ h (Or.inr (armWord_sub_ne k 7)), place_sub k 7 (by omega)]; rfl)]
  unfold written
  rw [place_sub k 7 (by omega)]
  rfl

/-- A publication slot's arm word. -/
theorem hostWrite_pubArm (k : Fin 32) (v : Word) (s : State) (h : s.partState ≠ .initialising) :
    hostWrite (pubBase k + 12) v s = armWritten (.publication k) { s with mem := writeWord s.mem (pubBase k + 12) v } := by
  rw [hostWrite_stored _ _ _ h (by rw [sideNow_fixed s _ h (Or.inr (armWord_pub_ne k 12)), place_pub k 12 (by omega)]; rfl)]
  unfold written
  rw [place_pub k 12 (by omega)]
  rfl

/-- A link rule's arm word. -/
theorem hostWrite_ruleArm (k : Fin 16) (v : Word) (s : State) (h : s.partState ≠ .initialising) :
    hostWrite (ruleBase k + 11) v s = armWritten (.rule k) { s with mem := writeWord s.mem (ruleBase k + 11) v } := by
  rw [hostWrite_stored _ _ _ h (by rw [sideNow_fixed s _ h (Or.inr (armWord_rule_ne k 11)), place_rule k 11 (by omega)]; rfl)]
  unfold written
  rw [place_rule k 11 (by omega)]
  rfl

/-- A publication slot's edition word. -/
theorem hostWrite_edition (k : Fin 32) (v : Word) (s : State) (h : s.partState ≠ .initialising) :
    hostWrite (pubBase k + 11) v s = watchedWrite k 11 { s with mem := writeWord s.mem (pubBase k + 11) v } := by
  rw [hostWrite_stored _ _ _ h (by rw [sideNow_fixed s _ h (Or.inr (armWord_pub_ne k 11)), place_pub k 11 (by omega)]; rfl)]
  unfold written
  rw [place_pub k 11 (by omega)]
  rfl

/-- What an arm write does in RUNNING. -/
theorem armWritten_running (w : ArmWord) (s : State) (hr : s.partState = .running) : armWritten w s = takeArm w s := by
  unfold armWritten; rw [if_pos hr]

end Sys2Proof.Machine
end

