-- ==== Sys2Proof/Laws/State.lean ====
section
/-! SUPPORT. What each named operation leaves of the state, field by field, and what it makes of the field it changes: no proof
needs to unfold a record update. -/

namespace Sys2Proof.Machine

/-! ## What each operation leaves alone -/

/-- A claim changes the journal alone. -/
@[simp] theorem claim_frame (c : JournalClaim) (s : State) :
    (claim c s).pending = s.pending ∧ (claim c s).free = s.free ∧ (claim c s).partState = s.partState
      ∧ (claim c s).softReset = s.softReset ∧ (claim c s).clock = s.clock ∧ (claim c s).seconds = s.seconds
      ∧ (claim c s).nextTick = s.nextTick ∧ (claim c s).nextClockUpdate = s.nextClockUpdate
      ∧ (claim c s).clockGroup = s.clockGroup ∧ (claim c s).mem = s.mem ∧ (claim c s).result = s.result
      ∧ (claim c s).working = s.working ∧ (claim c s).heldArms = s.heldArms ∧ (claim c s).settings = s.settings
      ∧ (claim c s).counters = s.counters ∧ (claim c s).laneA = s.laneA ∧ (claim c s).laneB = s.laneB
      ∧ (claim c s).bays = s.bays ∧ (claim c s).bayGroup = s.bayGroup ∧ (claim c s).pins = s.pins
      ∧ (claim c s).lastServed = s.lastServed ∧ (claim c s).table = s.table ∧ (claim c s).imageCounts = s.imageCounts
      ∧ (claim c s).serial = s.serial ∧ (claim c s).bayEpoch = s.bayEpoch ∧ (claim c s).ageingDue = s.ageingDue
      ∧ (claim c s).reports = s.reports ∧ (claim c s).laneNotices = s.laneNotices
      ∧ (claim c s).watchList = s.watchList ∧ (claim c s).missNotes = s.missNotes
      ∧ (claim c s).twinClaims = s.twinClaims ∧ (claim c s).cleanups = s.cleanups
      ∧ (claim c s).loneChanges = s.loneChanges ∧ (claim c s).redundancy = s.redundancy
      ∧ (claim c s).bareRoute = s.bareRoute ∧ (claim c s).subs = s.subs ∧ (claim c s).pubs = s.pubs
      ∧ (claim c s).postTrip = s.postTrip ∧ (claim c s).postOther = s.postOther ∧ (claim c s).take = s.take
      ∧ (claim c s).calendar = s.calendar ∧ (claim c s).contactEdition = s.contactEdition
      ∧ (claim c s).filtering = s.filtering ∧ (claim c s).inputs = s.inputs ∧ (claim c s).outputs = s.outputs
      ∧ (claim c s).rules = s.rules ∧ (claim c s).events = s.events := by
  and_intros <;> rfl

/-- An offer changes the offered events alone. -/
@[simp] theorem offer_frame (e : RuleEvent) (s : State) :
    (offer e s).pending = s.pending ∧ (offer e s).free = s.free ∧ (offer e s).partState = s.partState
      ∧ (offer e s).softReset = s.softReset ∧ (offer e s).clock = s.clock ∧ (offer e s).seconds = s.seconds
      ∧ (offer e s).nextTick = s.nextTick ∧ (offer e s).nextClockUpdate = s.nextClockUpdate
      ∧ (offer e s).clockGroup = s.clockGroup ∧ (offer e s).mem = s.mem ∧ (offer e s).result = s.result
      ∧ (offer e s).working = s.working ∧ (offer e s).heldArms = s.heldArms ∧ (offer e s).settings = s.settings
      ∧ (offer e s).counters = s.counters ∧ (offer e s).journal = s.journal ∧ (offer e s).laneA = s.laneA
      ∧ (offer e s).laneB = s.laneB ∧ (offer e s).bays = s.bays ∧ (offer e s).bayGroup = s.bayGroup
      ∧ (offer e s).pins = s.pins ∧ (offer e s).lastServed = s.lastServed ∧ (offer e s).table = s.table
      ∧ (offer e s).imageCounts = s.imageCounts ∧ (offer e s).serial = s.serial ∧ (offer e s).bayEpoch = s.bayEpoch
      ∧ (offer e s).ageingDue = s.ageingDue ∧ (offer e s).reports = s.reports
      ∧ (offer e s).laneNotices = s.laneNotices ∧ (offer e s).watchList = s.watchList
      ∧ (offer e s).missNotes = s.missNotes ∧ (offer e s).twinClaims = s.twinClaims
      ∧ (offer e s).cleanups = s.cleanups ∧ (offer e s).loneChanges = s.loneChanges
      ∧ (offer e s).redundancy = s.redundancy ∧ (offer e s).bareRoute = s.bareRoute ∧ (offer e s).subs = s.subs
      ∧ (offer e s).pubs = s.pubs ∧ (offer e s).postTrip = s.postTrip ∧ (offer e s).postOther = s.postOther
      ∧ (offer e s).take = s.take ∧ (offer e s).calendar = s.calendar ∧ (offer e s).contactEdition = s.contactEdition
      ∧ (offer e s).filtering = s.filtering ∧ (offer e s).inputs = s.inputs ∧ (offer e s).outputs = s.outputs
      ∧ (offer e s).rules = s.rules := by
  unfold offer; split <;> (and_intros <;> rfl)

/-- A claim on Twin Watch changes the claims handed to it alone. -/
@[simp] theorem handTwin_frame (c : TwinClaim) (s : State) :
    (handTwin c s).pending = s.pending ∧ (handTwin c s).free = s.free ∧ (handTwin c s).partState = s.partState
      ∧ (handTwin c s).softReset = s.softReset ∧ (handTwin c s).clock = s.clock ∧ (handTwin c s).seconds = s.seconds
      ∧ (handTwin c s).nextTick = s.nextTick ∧ (handTwin c s).nextClockUpdate = s.nextClockUpdate
      ∧ (handTwin c s).clockGroup = s.clockGroup ∧ (handTwin c s).mem = s.mem ∧ (handTwin c s).result = s.result
      ∧ (handTwin c s).working = s.working ∧ (handTwin c s).heldArms = s.heldArms
      ∧ (handTwin c s).settings = s.settings ∧ (handTwin c s).counters = s.counters
      ∧ (handTwin c s).journal = s.journal ∧ (handTwin c s).laneA = s.laneA ∧ (handTwin c s).laneB = s.laneB
      ∧ (handTwin c s).bays = s.bays ∧ (handTwin c s).bayGroup = s.bayGroup ∧ (handTwin c s).pins = s.pins
      ∧ (handTwin c s).lastServed = s.lastServed ∧ (handTwin c s).table = s.table
      ∧ (handTwin c s).imageCounts = s.imageCounts ∧ (handTwin c s).serial = s.serial
      ∧ (handTwin c s).bayEpoch = s.bayEpoch ∧ (handTwin c s).ageingDue = s.ageingDue
      ∧ (handTwin c s).reports = s.reports ∧ (handTwin c s).laneNotices = s.laneNotices
      ∧ (handTwin c s).watchList = s.watchList ∧ (handTwin c s).missNotes = s.missNotes
      ∧ (handTwin c s).cleanups = s.cleanups ∧ (handTwin c s).loneChanges = s.loneChanges
      ∧ (handTwin c s).redundancy = s.redundancy ∧ (handTwin c s).bareRoute = s.bareRoute
      ∧ (handTwin c s).subs = s.subs ∧ (handTwin c s).pubs = s.pubs ∧ (handTwin c s).postTrip = s.postTrip
      ∧ (handTwin c s).postOther = s.postOther ∧ (handTwin c s).take = s.take ∧ (handTwin c s).calendar = s.calendar
      ∧ (handTwin c s).contactEdition = s.contactEdition ∧ (handTwin c s).filtering = s.filtering
      ∧ (handTwin c s).inputs = s.inputs ∧ (handTwin c s).outputs = s.outputs ∧ (handTwin c s).rules = s.rules
      ∧ (handTwin c s).events = s.events := by
  and_intros <;> rfl

/-- A lone count rise or fall changes those handed on alone. -/
@[simp] theorem handLone_frame (c : LoneChange) (s : State) :
    (handLone c s).pending = s.pending ∧ (handLone c s).free = s.free ∧ (handLone c s).partState = s.partState
      ∧ (handLone c s).softReset = s.softReset ∧ (handLone c s).clock = s.clock ∧ (handLone c s).seconds = s.seconds
      ∧ (handLone c s).nextTick = s.nextTick ∧ (handLone c s).nextClockUpdate = s.nextClockUpdate
      ∧ (handLone c s).clockGroup = s.clockGroup ∧ (handLone c s).mem = s.mem ∧ (handLone c s).result = s.result
      ∧ (handLone c s).working = s.working ∧ (handLone c s).heldArms = s.heldArms
      ∧ (handLone c s).settings = s.settings ∧ (handLone c s).counters = s.counters
      ∧ (handLone c s).journal = s.journal ∧ (handLone c s).laneA = s.laneA ∧ (handLone c s).laneB = s.laneB
      ∧ (handLone c s).bays = s.bays ∧ (handLone c s).bayGroup = s.bayGroup ∧ (handLone c s).pins = s.pins
      ∧ (handLone c s).lastServed = s.lastServed ∧ (handLone c s).table = s.table
      ∧ (handLone c s).imageCounts = s.imageCounts ∧ (handLone c s).serial = s.serial
      ∧ (handLone c s).bayEpoch = s.bayEpoch ∧ (handLone c s).ageingDue = s.ageingDue
      ∧ (handLone c s).reports = s.reports ∧ (handLone c s).laneNotices = s.laneNotices
      ∧ (handLone c s).watchList = s.watchList ∧ (handLone c s).missNotes = s.missNotes
      ∧ (handLone c s).twinClaims = s.twinClaims ∧ (handLone c s).cleanups = s.cleanups
      ∧ (handLone c s).redundancy = s.redundancy ∧ (handLone c s).bareRoute = s.bareRoute
      ∧ (handLone c s).subs = s.subs ∧ (handLone c s).pubs = s.pubs ∧ (handLone c s).postTrip = s.postTrip
      ∧ (handLone c s).postOther = s.postOther ∧ (handLone c s).take = s.take ∧ (handLone c s).calendar = s.calendar
      ∧ (handLone c s).contactEdition = s.contactEdition ∧ (handLone c s).filtering = s.filtering
      ∧ (handLone c s).inputs = s.inputs ∧ (handLone c s).outputs = s.outputs ∧ (handLone c s).rules = s.rules
      ∧ (handLone c s).events = s.events := by
  and_intros <;> rfl

/-- A change of a lane port changes the two lane ports alone. -/
@[simp] theorem modifyLane_frame (l : Lane) (f : LanePort → LanePort) (s : State) :
    (s.modifyLane l f).pending = s.pending ∧ (s.modifyLane l f).free = s.free
      ∧ (s.modifyLane l f).partState = s.partState ∧ (s.modifyLane l f).softReset = s.softReset
      ∧ (s.modifyLane l f).clock = s.clock ∧ (s.modifyLane l f).seconds = s.seconds
      ∧ (s.modifyLane l f).nextTick = s.nextTick ∧ (s.modifyLane l f).nextClockUpdate = s.nextClockUpdate
      ∧ (s.modifyLane l f).clockGroup = s.clockGroup ∧ (s.modifyLane l f).mem = s.mem
      ∧ (s.modifyLane l f).result = s.result ∧ (s.modifyLane l f).working = s.working
      ∧ (s.modifyLane l f).heldArms = s.heldArms ∧ (s.modifyLane l f).settings = s.settings
      ∧ (s.modifyLane l f).counters = s.counters ∧ (s.modifyLane l f).journal = s.journal
      ∧ (s.modifyLane l f).bays = s.bays ∧ (s.modifyLane l f).bayGroup = s.bayGroup
      ∧ (s.modifyLane l f).pins = s.pins ∧ (s.modifyLane l f).lastServed = s.lastServed
      ∧ (s.modifyLane l f).table = s.table ∧ (s.modifyLane l f).imageCounts = s.imageCounts
      ∧ (s.modifyLane l f).serial = s.serial ∧ (s.modifyLane l f).bayEpoch = s.bayEpoch
      ∧ (s.modifyLane l f).ageingDue = s.ageingDue ∧ (s.modifyLane l f).reports = s.reports
      ∧ (s.modifyLane l f).laneNotices = s.laneNotices ∧ (s.modifyLane l f).watchList = s.watchList
      ∧ (s.modifyLane l f).missNotes = s.missNotes ∧ (s.modifyLane l f).twinClaims = s.twinClaims
      ∧ (s.modifyLane l f).cleanups = s.cleanups ∧ (s.modifyLane l f).loneChanges = s.loneChanges
      ∧ (s.modifyLane l f).redundancy = s.redundancy ∧ (s.modifyLane l f).bareRoute = s.bareRoute
      ∧ (s.modifyLane l f).subs = s.subs ∧ (s.modifyLane l f).pubs = s.pubs
      ∧ (s.modifyLane l f).postTrip = s.postTrip ∧ (s.modifyLane l f).postOther = s.postOther
      ∧ (s.modifyLane l f).take = s.take ∧ (s.modifyLane l f).calendar = s.calendar
      ∧ (s.modifyLane l f).contactEdition = s.contactEdition ∧ (s.modifyLane l f).filtering = s.filtering
      ∧ (s.modifyLane l f).inputs = s.inputs ∧ (s.modifyLane l f).outputs = s.outputs
      ∧ (s.modifyLane l f).rules = s.rules ∧ (s.modifyLane l f).events = s.events := by
  cases l <;> (and_intros <;> rfl)

/-- An update of a lane status group changes the two lane ports alone. -/
@[simp] theorem updateLane_frame (l : Lane) (f : LaneGroup → LaneGroup) (s : State) :
    (updateLane l f s).pending = s.pending ∧ (updateLane l f s).free = s.free
      ∧ (updateLane l f s).partState = s.partState ∧ (updateLane l f s).softReset = s.softReset
      ∧ (updateLane l f s).clock = s.clock ∧ (updateLane l f s).seconds = s.seconds
      ∧ (updateLane l f s).nextTick = s.nextTick ∧ (updateLane l f s).nextClockUpdate = s.nextClockUpdate
      ∧ (updateLane l f s).clockGroup = s.clockGroup ∧ (updateLane l f s).mem = s.mem
      ∧ (updateLane l f s).result = s.result ∧ (updateLane l f s).working = s.working
      ∧ (updateLane l f s).heldArms = s.heldArms ∧ (updateLane l f s).settings = s.settings
      ∧ (updateLane l f s).counters = s.counters ∧ (updateLane l f s).journal = s.journal
      ∧ (updateLane l f s).bays = s.bays ∧ (updateLane l f s).bayGroup = s.bayGroup
      ∧ (updateLane l f s).pins = s.pins ∧ (updateLane l f s).lastServed = s.lastServed
      ∧ (updateLane l f s).table = s.table ∧ (updateLane l f s).imageCounts = s.imageCounts
      ∧ (updateLane l f s).serial = s.serial ∧ (updateLane l f s).bayEpoch = s.bayEpoch
      ∧ (updateLane l f s).ageingDue = s.ageingDue ∧ (updateLane l f s).reports = s.reports
      ∧ (updateLane l f s).laneNotices = s.laneNotices ∧ (updateLane l f s).watchList = s.watchList
      ∧ (updateLane l f s).missNotes = s.missNotes ∧ (updateLane l f s).twinClaims = s.twinClaims
      ∧ (updateLane l f s).cleanups = s.cleanups ∧ (updateLane l f s).loneChanges = s.loneChanges
      ∧ (updateLane l f s).redundancy = s.redundancy ∧ (updateLane l f s).bareRoute = s.bareRoute
      ∧ (updateLane l f s).subs = s.subs ∧ (updateLane l f s).pubs = s.pubs
      ∧ (updateLane l f s).postTrip = s.postTrip ∧ (updateLane l f s).postOther = s.postOther
      ∧ (updateLane l f s).take = s.take ∧ (updateLane l f s).calendar = s.calendar
      ∧ (updateLane l f s).contactEdition = s.contactEdition ∧ (updateLane l f s).filtering = s.filtering
      ∧ (updateLane l f s).inputs = s.inputs ∧ (updateLane l f s).outputs = s.outputs
      ∧ (updateLane l f s).rules = s.rules ∧ (updateLane l f s).events = s.events := by
  cases l <;> (and_intros <;> rfl)

/-- A change of a bay port's queues changes the bay ports alone. -/
@[simp] theorem modifyBay_frame (p : Fin 4) (f : BayPort → BayPort) (s : State) :
    (s.modifyBay p f).pending = s.pending ∧ (s.modifyBay p f).free = s.free
      ∧ (s.modifyBay p f).partState = s.partState ∧ (s.modifyBay p f).softReset = s.softReset
      ∧ (s.modifyBay p f).clock = s.clock ∧ (s.modifyBay p f).seconds = s.seconds
      ∧ (s.modifyBay p f).nextTick = s.nextTick ∧ (s.modifyBay p f).nextClockUpdate = s.nextClockUpdate
      ∧ (s.modifyBay p f).clockGroup = s.clockGroup ∧ (s.modifyBay p f).mem = s.mem
      ∧ (s.modifyBay p f).result = s.result ∧ (s.modifyBay p f).working = s.working
      ∧ (s.modifyBay p f).heldArms = s.heldArms ∧ (s.modifyBay p f).settings = s.settings
      ∧ (s.modifyBay p f).counters = s.counters ∧ (s.modifyBay p f).journal = s.journal
      ∧ (s.modifyBay p f).laneA = s.laneA ∧ (s.modifyBay p f).laneB = s.laneB
      ∧ (s.modifyBay p f).bayGroup = s.bayGroup ∧ (s.modifyBay p f).pins = s.pins
      ∧ (s.modifyBay p f).lastServed = s.lastServed ∧ (s.modifyBay p f).table = s.table
      ∧ (s.modifyBay p f).imageCounts = s.imageCounts ∧ (s.modifyBay p f).serial = s.serial
      ∧ (s.modifyBay p f).bayEpoch = s.bayEpoch ∧ (s.modifyBay p f).ageingDue = s.ageingDue
      ∧ (s.modifyBay p f).reports = s.reports ∧ (s.modifyBay p f).laneNotices = s.laneNotices
      ∧ (s.modifyBay p f).watchList = s.watchList ∧ (s.modifyBay p f).missNotes = s.missNotes
      ∧ (s.modifyBay p f).twinClaims = s.twinClaims ∧ (s.modifyBay p f).cleanups = s.cleanups
      ∧ (s.modifyBay p f).loneChanges = s.loneChanges ∧ (s.modifyBay p f).redundancy = s.redundancy
      ∧ (s.modifyBay p f).bareRoute = s.bareRoute ∧ (s.modifyBay p f).subs = s.subs ∧ (s.modifyBay p f).pubs = s.pubs
      ∧ (s.modifyBay p f).postTrip = s.postTrip ∧ (s.modifyBay p f).postOther = s.postOther
      ∧ (s.modifyBay p f).take = s.take ∧ (s.modifyBay p f).calendar = s.calendar
      ∧ (s.modifyBay p f).contactEdition = s.contactEdition ∧ (s.modifyBay p f).filtering = s.filtering
      ∧ (s.modifyBay p f).inputs = s.inputs ∧ (s.modifyBay p f).outputs = s.outputs
      ∧ (s.modifyBay p f).rules = s.rules ∧ (s.modifyBay p f).events = s.events := by
  and_intros <;> rfl

/-- An update of the bay port status group changes it alone. -/
@[simp] theorem updateBay_frame (p : Fin 4) (f : BayBlock → BayBlock) (s : State) :
    (updateBay p f s).pending = s.pending ∧ (updateBay p f s).free = s.free
      ∧ (updateBay p f s).partState = s.partState ∧ (updateBay p f s).softReset = s.softReset
      ∧ (updateBay p f s).clock = s.clock ∧ (updateBay p f s).seconds = s.seconds
      ∧ (updateBay p f s).nextTick = s.nextTick ∧ (updateBay p f s).nextClockUpdate = s.nextClockUpdate
      ∧ (updateBay p f s).clockGroup = s.clockGroup ∧ (updateBay p f s).mem = s.mem
      ∧ (updateBay p f s).result = s.result ∧ (updateBay p f s).working = s.working
      ∧ (updateBay p f s).heldArms = s.heldArms ∧ (updateBay p f s).settings = s.settings
      ∧ (updateBay p f s).counters = s.counters ∧ (updateBay p f s).journal = s.journal
      ∧ (updateBay p f s).laneA = s.laneA ∧ (updateBay p f s).laneB = s.laneB ∧ (updateBay p f s).bays = s.bays
      ∧ (updateBay p f s).pins = s.pins ∧ (updateBay p f s).lastServed = s.lastServed
      ∧ (updateBay p f s).table = s.table ∧ (updateBay p f s).imageCounts = s.imageCounts
      ∧ (updateBay p f s).serial = s.serial ∧ (updateBay p f s).bayEpoch = s.bayEpoch
      ∧ (updateBay p f s).ageingDue = s.ageingDue ∧ (updateBay p f s).reports = s.reports
      ∧ (updateBay p f s).laneNotices = s.laneNotices ∧ (updateBay p f s).watchList = s.watchList
      ∧ (updateBay p f s).missNotes = s.missNotes ∧ (updateBay p f s).twinClaims = s.twinClaims
      ∧ (updateBay p f s).cleanups = s.cleanups ∧ (updateBay p f s).loneChanges = s.loneChanges
      ∧ (updateBay p f s).redundancy = s.redundancy ∧ (updateBay p f s).bareRoute = s.bareRoute
      ∧ (updateBay p f s).subs = s.subs ∧ (updateBay p f s).pubs = s.pubs ∧ (updateBay p f s).postTrip = s.postTrip
      ∧ (updateBay p f s).postOther = s.postOther ∧ (updateBay p f s).take = s.take
      ∧ (updateBay p f s).calendar = s.calendar ∧ (updateBay p f s).contactEdition = s.contactEdition
      ∧ (updateBay p f s).filtering = s.filtering ∧ (updateBay p f s).inputs = s.inputs
      ∧ (updateBay p f s).outputs = s.outputs ∧ (updateBay p f s).rules = s.rules
      ∧ (updateBay p f s).events = s.events := by
  and_intros <;> rfl

/-- An update of the counters group changes it alone. -/
@[simp] theorem updateCounters_frame (f : Counters → Counters) (s : State) :
    (updateCounters f s).pending = s.pending ∧ (updateCounters f s).free = s.free
      ∧ (updateCounters f s).partState = s.partState ∧ (updateCounters f s).softReset = s.softReset
      ∧ (updateCounters f s).clock = s.clock ∧ (updateCounters f s).seconds = s.seconds
      ∧ (updateCounters f s).nextTick = s.nextTick ∧ (updateCounters f s).nextClockUpdate = s.nextClockUpdate
      ∧ (updateCounters f s).clockGroup = s.clockGroup ∧ (updateCounters f s).mem = s.mem
      ∧ (updateCounters f s).result = s.result ∧ (updateCounters f s).working = s.working
      ∧ (updateCounters f s).heldArms = s.heldArms ∧ (updateCounters f s).settings = s.settings
      ∧ (updateCounters f s).journal = s.journal ∧ (updateCounters f s).laneA = s.laneA
      ∧ (updateCounters f s).laneB = s.laneB ∧ (updateCounters f s).bays = s.bays
      ∧ (updateCounters f s).bayGroup = s.bayGroup ∧ (updateCounters f s).pins = s.pins
      ∧ (updateCounters f s).lastServed = s.lastServed ∧ (updateCounters f s).table = s.table
      ∧ (updateCounters f s).imageCounts = s.imageCounts ∧ (updateCounters f s).serial = s.serial
      ∧ (updateCounters f s).bayEpoch = s.bayEpoch ∧ (updateCounters f s).ageingDue = s.ageingDue
      ∧ (updateCounters f s).reports = s.reports ∧ (updateCounters f s).laneNotices = s.laneNotices
      ∧ (updateCounters f s).watchList = s.watchList ∧ (updateCounters f s).missNotes = s.missNotes
      ∧ (updateCounters f s).twinClaims = s.twinClaims ∧ (updateCounters f s).cleanups = s.cleanups
      ∧ (updateCounters f s).loneChanges = s.loneChanges ∧ (updateCounters f s).redundancy = s.redundancy
      ∧ (updateCounters f s).bareRoute = s.bareRoute ∧ (updateCounters f s).subs = s.subs
      ∧ (updateCounters f s).pubs = s.pubs ∧ (updateCounters f s).postTrip = s.postTrip
      ∧ (updateCounters f s).postOther = s.postOther ∧ (updateCounters f s).take = s.take
      ∧ (updateCounters f s).calendar = s.calendar ∧ (updateCounters f s).contactEdition = s.contactEdition
      ∧ (updateCounters f s).filtering = s.filtering ∧ (updateCounters f s).inputs = s.inputs
      ∧ (updateCounters f s).outputs = s.outputs ∧ (updateCounters f s).rules = s.rules
      ∧ (updateCounters f s).events = s.events := by
  and_intros <;> rfl

/-- A change of a contact input changes the inputs alone. -/
@[simp] theorem modifyInput_frame (n : Fin 8) (f : ContactInput → ContactInput) (s : State) :
    (s.modifyInput n f).pending = s.pending ∧ (s.modifyInput n f).free = s.free
      ∧ (s.modifyInput n f).partState = s.partState ∧ (s.modifyInput n f).softReset = s.softReset
      ∧ (s.modifyInput n f).clock = s.clock ∧ (s.modifyInput n f).seconds = s.seconds
      ∧ (s.modifyInput n f).nextTick = s.nextTick ∧ (s.modifyInput n f).nextClockUpdate = s.nextClockUpdate
      ∧ (s.modifyInput n f).clockGroup = s.clockGroup ∧ (s.modifyInput n f).mem = s.mem
      ∧ (s.modifyInput n f).result = s.result ∧ (s.modifyInput n f).working = s.working
      ∧ (s.modifyInput n f).heldArms = s.heldArms ∧ (s.modifyInput n f).settings = s.settings
      ∧ (s.modifyInput n f).counters = s.counters ∧ (s.modifyInput n f).journal = s.journal
      ∧ (s.modifyInput n f).laneA = s.laneA ∧ (s.modifyInput n f).laneB = s.laneB ∧ (s.modifyInput n f).bays = s.bays
      ∧ (s.modifyInput n f).bayGroup = s.bayGroup ∧ (s.modifyInput n f).pins = s.pins
      ∧ (s.modifyInput n f).lastServed = s.lastServed ∧ (s.modifyInput n f).table = s.table
      ∧ (s.modifyInput n f).imageCounts = s.imageCounts ∧ (s.modifyInput n f).serial = s.serial
      ∧ (s.modifyInput n f).bayEpoch = s.bayEpoch ∧ (s.modifyInput n f).ageingDue = s.ageingDue
      ∧ (s.modifyInput n f).reports = s.reports ∧ (s.modifyInput n f).laneNotices = s.laneNotices
      ∧ (s.modifyInput n f).watchList = s.watchList ∧ (s.modifyInput n f).missNotes = s.missNotes
      ∧ (s.modifyInput n f).twinClaims = s.twinClaims ∧ (s.modifyInput n f).cleanups = s.cleanups
      ∧ (s.modifyInput n f).loneChanges = s.loneChanges ∧ (s.modifyInput n f).redundancy = s.redundancy
      ∧ (s.modifyInput n f).bareRoute = s.bareRoute ∧ (s.modifyInput n f).subs = s.subs
      ∧ (s.modifyInput n f).pubs = s.pubs ∧ (s.modifyInput n f).postTrip = s.postTrip
      ∧ (s.modifyInput n f).postOther = s.postOther ∧ (s.modifyInput n f).take = s.take
      ∧ (s.modifyInput n f).calendar = s.calendar ∧ (s.modifyInput n f).contactEdition = s.contactEdition
      ∧ (s.modifyInput n f).filtering = s.filtering ∧ (s.modifyInput n f).outputs = s.outputs
      ∧ (s.modifyInput n f).rules = s.rules ∧ (s.modifyInput n f).events = s.events := by
  and_intros <;> rfl

/-- A change of a trip output changes the outputs alone. -/
@[simp] theorem modifyOutput_frame (n : Fin 4) (f : TripOutput → TripOutput) (s : State) :
    (s.modifyOutput n f).pending = s.pending ∧ (s.modifyOutput n f).free = s.free
      ∧ (s.modifyOutput n f).partState = s.partState ∧ (s.modifyOutput n f).softReset = s.softReset
      ∧ (s.modifyOutput n f).clock = s.clock ∧ (s.modifyOutput n f).seconds = s.seconds
      ∧ (s.modifyOutput n f).nextTick = s.nextTick ∧ (s.modifyOutput n f).nextClockUpdate = s.nextClockUpdate
      ∧ (s.modifyOutput n f).clockGroup = s.clockGroup ∧ (s.modifyOutput n f).mem = s.mem
      ∧ (s.modifyOutput n f).result = s.result ∧ (s.modifyOutput n f).working = s.working
      ∧ (s.modifyOutput n f).heldArms = s.heldArms ∧ (s.modifyOutput n f).settings = s.settings
      ∧ (s.modifyOutput n f).counters = s.counters ∧ (s.modifyOutput n f).journal = s.journal
      ∧ (s.modifyOutput n f).laneA = s.laneA ∧ (s.modifyOutput n f).laneB = s.laneB
      ∧ (s.modifyOutput n f).bays = s.bays ∧ (s.modifyOutput n f).bayGroup = s.bayGroup
      ∧ (s.modifyOutput n f).pins = s.pins ∧ (s.modifyOutput n f).lastServed = s.lastServed
      ∧ (s.modifyOutput n f).table = s.table ∧ (s.modifyOutput n f).imageCounts = s.imageCounts
      ∧ (s.modifyOutput n f).serial = s.serial ∧ (s.modifyOutput n f).bayEpoch = s.bayEpoch
      ∧ (s.modifyOutput n f).ageingDue = s.ageingDue ∧ (s.modifyOutput n f).reports = s.reports
      ∧ (s.modifyOutput n f).laneNotices = s.laneNotices ∧ (s.modifyOutput n f).watchList = s.watchList
      ∧ (s.modifyOutput n f).missNotes = s.missNotes ∧ (s.modifyOutput n f).twinClaims = s.twinClaims
      ∧ (s.modifyOutput n f).cleanups = s.cleanups ∧ (s.modifyOutput n f).loneChanges = s.loneChanges
      ∧ (s.modifyOutput n f).redundancy = s.redundancy ∧ (s.modifyOutput n f).bareRoute = s.bareRoute
      ∧ (s.modifyOutput n f).subs = s.subs ∧ (s.modifyOutput n f).pubs = s.pubs
      ∧ (s.modifyOutput n f).postTrip = s.postTrip ∧ (s.modifyOutput n f).postOther = s.postOther
      ∧ (s.modifyOutput n f).take = s.take ∧ (s.modifyOutput n f).calendar = s.calendar
      ∧ (s.modifyOutput n f).contactEdition = s.contactEdition ∧ (s.modifyOutput n f).filtering = s.filtering
      ∧ (s.modifyOutput n f).inputs = s.inputs ∧ (s.modifyOutput n f).rules = s.rules
      ∧ (s.modifyOutput n f).events = s.events := by
  and_intros <;> rfl

/-- A change of a subscription slot changes the slots alone. -/
@[simp] theorem modifySub_frame (k : Fin 64) (f : SubSlot → SubSlot) (s : State) :
    (s.modifySub k f).pending = s.pending ∧ (s.modifySub k f).free = s.free
      ∧ (s.modifySub k f).partState = s.partState ∧ (s.modifySub k f).softReset = s.softReset
      ∧ (s.modifySub k f).clock = s.clock ∧ (s.modifySub k f).seconds = s.seconds
      ∧ (s.modifySub k f).nextTick = s.nextTick ∧ (s.modifySub k f).nextClockUpdate = s.nextClockUpdate
      ∧ (s.modifySub k f).clockGroup = s.clockGroup ∧ (s.modifySub k f).mem = s.mem
      ∧ (s.modifySub k f).result = s.result ∧ (s.modifySub k f).working = s.working
      ∧ (s.modifySub k f).heldArms = s.heldArms ∧ (s.modifySub k f).settings = s.settings
      ∧ (s.modifySub k f).counters = s.counters ∧ (s.modifySub k f).journal = s.journal
      ∧ (s.modifySub k f).laneA = s.laneA ∧ (s.modifySub k f).laneB = s.laneB ∧ (s.modifySub k f).bays = s.bays
      ∧ (s.modifySub k f).bayGroup = s.bayGroup ∧ (s.modifySub k f).pins = s.pins
      ∧ (s.modifySub k f).lastServed = s.lastServed ∧ (s.modifySub k f).table = s.table
      ∧ (s.modifySub k f).imageCounts = s.imageCounts ∧ (s.modifySub k f).serial = s.serial
      ∧ (s.modifySub k f).bayEpoch = s.bayEpoch ∧ (s.modifySub k f).ageingDue = s.ageingDue
      ∧ (s.modifySub k f).reports = s.reports ∧ (s.modifySub k f).laneNotices = s.laneNotices
      ∧ (s.modifySub k f).watchList = s.watchList ∧ (s.modifySub k f).missNotes = s.missNotes
      ∧ (s.modifySub k f).twinClaims = s.twinClaims ∧ (s.modifySub k f).cleanups = s.cleanups
      ∧ (s.modifySub k f).loneChanges = s.loneChanges ∧ (s.modifySub k f).redundancy = s.redundancy
      ∧ (s.modifySub k f).bareRoute = s.bareRoute ∧ (s.modifySub k f).pubs = s.pubs
      ∧ (s.modifySub k f).postTrip = s.postTrip ∧ (s.modifySub k f).postOther = s.postOther
      ∧ (s.modifySub k f).take = s.take ∧ (s.modifySub k f).calendar = s.calendar
      ∧ (s.modifySub k f).contactEdition = s.contactEdition ∧ (s.modifySub k f).filtering = s.filtering
      ∧ (s.modifySub k f).inputs = s.inputs ∧ (s.modifySub k f).outputs = s.outputs
      ∧ (s.modifySub k f).rules = s.rules ∧ (s.modifySub k f).events = s.events := by
  and_intros <;> rfl

/-- An update of a slot's group changes the slots alone. -/
@[simp] theorem updateSlot_frame (k : Fin 64) (f : SlotStatus → SlotStatus) (s : State) :
    (updateSlot k f s).pending = s.pending ∧ (updateSlot k f s).free = s.free
      ∧ (updateSlot k f s).partState = s.partState ∧ (updateSlot k f s).softReset = s.softReset
      ∧ (updateSlot k f s).clock = s.clock ∧ (updateSlot k f s).seconds = s.seconds
      ∧ (updateSlot k f s).nextTick = s.nextTick ∧ (updateSlot k f s).nextClockUpdate = s.nextClockUpdate
      ∧ (updateSlot k f s).clockGroup = s.clockGroup ∧ (updateSlot k f s).mem = s.mem
      ∧ (updateSlot k f s).result = s.result ∧ (updateSlot k f s).working = s.working
      ∧ (updateSlot k f s).heldArms = s.heldArms ∧ (updateSlot k f s).settings = s.settings
      ∧ (updateSlot k f s).counters = s.counters ∧ (updateSlot k f s).journal = s.journal
      ∧ (updateSlot k f s).laneA = s.laneA ∧ (updateSlot k f s).laneB = s.laneB ∧ (updateSlot k f s).bays = s.bays
      ∧ (updateSlot k f s).bayGroup = s.bayGroup ∧ (updateSlot k f s).pins = s.pins
      ∧ (updateSlot k f s).lastServed = s.lastServed ∧ (updateSlot k f s).table = s.table
      ∧ (updateSlot k f s).imageCounts = s.imageCounts ∧ (updateSlot k f s).serial = s.serial
      ∧ (updateSlot k f s).bayEpoch = s.bayEpoch ∧ (updateSlot k f s).ageingDue = s.ageingDue
      ∧ (updateSlot k f s).reports = s.reports ∧ (updateSlot k f s).laneNotices = s.laneNotices
      ∧ (updateSlot k f s).watchList = s.watchList ∧ (updateSlot k f s).missNotes = s.missNotes
      ∧ (updateSlot k f s).twinClaims = s.twinClaims ∧ (updateSlot k f s).cleanups = s.cleanups
      ∧ (updateSlot k f s).loneChanges = s.loneChanges ∧ (updateSlot k f s).redundancy = s.redundancy
      ∧ (updateSlot k f s).bareRoute = s.bareRoute ∧ (updateSlot k f s).pubs = s.pubs
      ∧ (updateSlot k f s).postTrip = s.postTrip ∧ (updateSlot k f s).postOther = s.postOther
      ∧ (updateSlot k f s).take = s.take ∧ (updateSlot k f s).calendar = s.calendar
      ∧ (updateSlot k f s).contactEdition = s.contactEdition ∧ (updateSlot k f s).filtering = s.filtering
      ∧ (updateSlot k f s).inputs = s.inputs ∧ (updateSlot k f s).outputs = s.outputs
      ∧ (updateSlot k f s).rules = s.rules ∧ (updateSlot k f s).events = s.events := by
  and_intros <;> rfl

/-- An update of a publication's status changes the publications alone. -/
@[simp] theorem updatePub_frame (k : Fin 32) (f : PubSlot → PubSlot) (s : State) :
    (updatePub k f s).pending = s.pending ∧ (updatePub k f s).free = s.free
      ∧ (updatePub k f s).partState = s.partState ∧ (updatePub k f s).softReset = s.softReset
      ∧ (updatePub k f s).clock = s.clock ∧ (updatePub k f s).seconds = s.seconds
      ∧ (updatePub k f s).nextTick = s.nextTick ∧ (updatePub k f s).nextClockUpdate = s.nextClockUpdate
      ∧ (updatePub k f s).clockGroup = s.clockGroup ∧ (updatePub k f s).mem = s.mem
      ∧ (updatePub k f s).result = s.result ∧ (updatePub k f s).working = s.working
      ∧ (updatePub k f s).heldArms = s.heldArms ∧ (updatePub k f s).settings = s.settings
      ∧ (updatePub k f s).counters = s.counters ∧ (updatePub k f s).journal = s.journal
      ∧ (updatePub k f s).laneA = s.laneA ∧ (updatePub k f s).laneB = s.laneB ∧ (updatePub k f s).bays = s.bays
      ∧ (updatePub k f s).bayGroup = s.bayGroup ∧ (updatePub k f s).pins = s.pins
      ∧ (updatePub k f s).lastServed = s.lastServed ∧ (updatePub k f s).table = s.table
      ∧ (updatePub k f s).imageCounts = s.imageCounts ∧ (updatePub k f s).serial = s.serial
      ∧ (updatePub k f s).bayEpoch = s.bayEpoch ∧ (updatePub k f s).ageingDue = s.ageingDue
      ∧ (updatePub k f s).reports = s.reports ∧ (updatePub k f s).laneNotices = s.laneNotices
      ∧ (updatePub k f s).watchList = s.watchList ∧ (updatePub k f s).missNotes = s.missNotes
      ∧ (updatePub k f s).twinClaims = s.twinClaims ∧ (updatePub k f s).cleanups = s.cleanups
      ∧ (updatePub k f s).loneChanges = s.loneChanges ∧ (updatePub k f s).redundancy = s.redundancy
      ∧ (updatePub k f s).bareRoute = s.bareRoute ∧ (updatePub k f s).subs = s.subs
      ∧ (updatePub k f s).postTrip = s.postTrip ∧ (updatePub k f s).postOther = s.postOther
      ∧ (updatePub k f s).take = s.take ∧ (updatePub k f s).calendar = s.calendar
      ∧ (updatePub k f s).contactEdition = s.contactEdition ∧ (updatePub k f s).filtering = s.filtering
      ∧ (updatePub k f s).inputs = s.inputs ∧ (updatePub k f s).outputs = s.outputs
      ∧ (updatePub k f s).rules = s.rules ∧ (updatePub k f s).events = s.events := by
  and_intros <;> rfl

/-- A change of a link rule changes the rules alone. -/
@[simp] theorem modifyRule_frame (k : Fin 16) (f : LinkRule → LinkRule) (s : State) :
    (s.modifyRule k f).pending = s.pending ∧ (s.modifyRule k f).free = s.free
      ∧ (s.modifyRule k f).partState = s.partState ∧ (s.modifyRule k f).softReset = s.softReset
      ∧ (s.modifyRule k f).clock = s.clock ∧ (s.modifyRule k f).seconds = s.seconds
      ∧ (s.modifyRule k f).nextTick = s.nextTick ∧ (s.modifyRule k f).nextClockUpdate = s.nextClockUpdate
      ∧ (s.modifyRule k f).clockGroup = s.clockGroup ∧ (s.modifyRule k f).mem = s.mem
      ∧ (s.modifyRule k f).result = s.result ∧ (s.modifyRule k f).working = s.working
      ∧ (s.modifyRule k f).heldArms = s.heldArms ∧ (s.modifyRule k f).settings = s.settings
      ∧ (s.modifyRule k f).counters = s.counters ∧ (s.modifyRule k f).journal = s.journal
      ∧ (s.modifyRule k f).laneA = s.laneA ∧ (s.modifyRule k f).laneB = s.laneB ∧ (s.modifyRule k f).bays = s.bays
      ∧ (s.modifyRule k f).bayGroup = s.bayGroup ∧ (s.modifyRule k f).pins = s.pins
      ∧ (s.modifyRule k f).lastServed = s.lastServed ∧ (s.modifyRule k f).table = s.table
      ∧ (s.modifyRule k f).imageCounts = s.imageCounts ∧ (s.modifyRule k f).serial = s.serial
      ∧ (s.modifyRule k f).bayEpoch = s.bayEpoch ∧ (s.modifyRule k f).ageingDue = s.ageingDue
      ∧ (s.modifyRule k f).reports = s.reports ∧ (s.modifyRule k f).laneNotices = s.laneNotices
      ∧ (s.modifyRule k f).watchList = s.watchList ∧ (s.modifyRule k f).missNotes = s.missNotes
      ∧ (s.modifyRule k f).twinClaims = s.twinClaims ∧ (s.modifyRule k f).cleanups = s.cleanups
      ∧ (s.modifyRule k f).loneChanges = s.loneChanges ∧ (s.modifyRule k f).redundancy = s.redundancy
      ∧ (s.modifyRule k f).bareRoute = s.bareRoute ∧ (s.modifyRule k f).subs = s.subs
      ∧ (s.modifyRule k f).pubs = s.pubs ∧ (s.modifyRule k f).postTrip = s.postTrip
      ∧ (s.modifyRule k f).postOther = s.postOther ∧ (s.modifyRule k f).take = s.take
      ∧ (s.modifyRule k f).calendar = s.calendar ∧ (s.modifyRule k f).contactEdition = s.contactEdition
      ∧ (s.modifyRule k f).filtering = s.filtering ∧ (s.modifyRule k f).inputs = s.inputs
      ∧ (s.modifyRule k f).outputs = s.outputs ∧ (s.modifyRule k f).events = s.events := by
  and_intros <;> rfl

/-- A position given or freed changes the table alone. -/
@[simp] theorem putEntry_frame (p : Fin 512) (e : Option Entry) (s : State) :
    (s.putEntry p e).pending = s.pending ∧ (s.putEntry p e).free = s.free ∧ (s.putEntry p e).partState = s.partState
      ∧ (s.putEntry p e).softReset = s.softReset ∧ (s.putEntry p e).clock = s.clock
      ∧ (s.putEntry p e).seconds = s.seconds ∧ (s.putEntry p e).nextTick = s.nextTick
      ∧ (s.putEntry p e).nextClockUpdate = s.nextClockUpdate ∧ (s.putEntry p e).clockGroup = s.clockGroup
      ∧ (s.putEntry p e).mem = s.mem ∧ (s.putEntry p e).result = s.result ∧ (s.putEntry p e).working = s.working
      ∧ (s.putEntry p e).heldArms = s.heldArms ∧ (s.putEntry p e).settings = s.settings
      ∧ (s.putEntry p e).counters = s.counters ∧ (s.putEntry p e).journal = s.journal
      ∧ (s.putEntry p e).laneA = s.laneA ∧ (s.putEntry p e).laneB = s.laneB ∧ (s.putEntry p e).bays = s.bays
      ∧ (s.putEntry p e).bayGroup = s.bayGroup ∧ (s.putEntry p e).pins = s.pins
      ∧ (s.putEntry p e).lastServed = s.lastServed ∧ (s.putEntry p e).imageCounts = s.imageCounts
      ∧ (s.putEntry p e).serial = s.serial ∧ (s.putEntry p e).bayEpoch = s.bayEpoch
      ∧ (s.putEntry p e).ageingDue = s.ageingDue ∧ (s.putEntry p e).reports = s.reports
      ∧ (s.putEntry p e).laneNotices = s.laneNotices ∧ (s.putEntry p e).watchList = s.watchList
      ∧ (s.putEntry p e).missNotes = s.missNotes ∧ (s.putEntry p e).twinClaims = s.twinClaims
      ∧ (s.putEntry p e).cleanups = s.cleanups ∧ (s.putEntry p e).loneChanges = s.loneChanges
      ∧ (s.putEntry p e).redundancy = s.redundancy ∧ (s.putEntry p e).bareRoute = s.bareRoute
      ∧ (s.putEntry p e).subs = s.subs ∧ (s.putEntry p e).pubs = s.pubs ∧ (s.putEntry p e).postTrip = s.postTrip
      ∧ (s.putEntry p e).postOther = s.postOther ∧ (s.putEntry p e).take = s.take
      ∧ (s.putEntry p e).calendar = s.calendar ∧ (s.putEntry p e).contactEdition = s.contactEdition
      ∧ (s.putEntry p e).filtering = s.filtering ∧ (s.putEntry p e).inputs = s.inputs
      ∧ (s.putEntry p e).outputs = s.outputs ∧ (s.putEntry p e).rules = s.rules ∧ (s.putEntry p e).events = s.events := by
  and_intros <;> rfl

/-- Bringing the images up to date changes their counts alone. -/
@[simp] theorem asEngineClaim_frame (f : State → State) (s : State) :
    (asEngineClaim f s).pending = (f s).pending ∧ (asEngineClaim f s).free = (f s).free
      ∧ (asEngineClaim f s).partState = (f s).partState ∧ (asEngineClaim f s).softReset = (f s).softReset
      ∧ (asEngineClaim f s).clock = (f s).clock ∧ (asEngineClaim f s).seconds = (f s).seconds
      ∧ (asEngineClaim f s).nextTick = (f s).nextTick ∧ (asEngineClaim f s).nextClockUpdate = (f s).nextClockUpdate
      ∧ (asEngineClaim f s).clockGroup = (f s).clockGroup ∧ (asEngineClaim f s).mem = (f s).mem
      ∧ (asEngineClaim f s).result = (f s).result ∧ (asEngineClaim f s).working = (f s).working
      ∧ (asEngineClaim f s).heldArms = (f s).heldArms ∧ (asEngineClaim f s).settings = (f s).settings
      ∧ (asEngineClaim f s).counters = (f s).counters ∧ (asEngineClaim f s).journal = (f s).journal
      ∧ (asEngineClaim f s).laneA = (f s).laneA ∧ (asEngineClaim f s).laneB = (f s).laneB
      ∧ (asEngineClaim f s).bays = (f s).bays ∧ (asEngineClaim f s).bayGroup = (f s).bayGroup
      ∧ (asEngineClaim f s).pins = (f s).pins ∧ (asEngineClaim f s).lastServed = (f s).lastServed
      ∧ (asEngineClaim f s).table = (f s).table ∧ (asEngineClaim f s).serial = (f s).serial
      ∧ (asEngineClaim f s).bayEpoch = (f s).bayEpoch ∧ (asEngineClaim f s).ageingDue = (f s).ageingDue
      ∧ (asEngineClaim f s).reports = (f s).reports ∧ (asEngineClaim f s).laneNotices = (f s).laneNotices
      ∧ (asEngineClaim f s).watchList = (f s).watchList ∧ (asEngineClaim f s).missNotes = (f s).missNotes
      ∧ (asEngineClaim f s).twinClaims = (f s).twinClaims ∧ (asEngineClaim f s).cleanups = (f s).cleanups
      ∧ (asEngineClaim f s).loneChanges = (f s).loneChanges ∧ (asEngineClaim f s).redundancy = (f s).redundancy
      ∧ (asEngineClaim f s).bareRoute = (f s).bareRoute ∧ (asEngineClaim f s).subs = (f s).subs
      ∧ (asEngineClaim f s).pubs = (f s).pubs ∧ (asEngineClaim f s).postTrip = (f s).postTrip
      ∧ (asEngineClaim f s).postOther = (f s).postOther ∧ (asEngineClaim f s).take = (f s).take
      ∧ (asEngineClaim f s).calendar = (f s).calendar ∧ (asEngineClaim f s).contactEdition = (f s).contactEdition
      ∧ (asEngineClaim f s).filtering = (f s).filtering ∧ (asEngineClaim f s).inputs = (f s).inputs
      ∧ (asEngineClaim f s).outputs = (f s).outputs ∧ (asEngineClaim f s).rules = (f s).rules
      ∧ (asEngineClaim f s).events = (f s).events := by
  and_intros <;> rfl

/-- A lane's link indication is a level at the pins. -/
@[simp] theorem setLanePin_frame (l : Lane) (up : Bool) (s : State) :
    (s.setLanePin l up).pending = s.pending ∧ (s.setLanePin l up).free = s.free
      ∧ (s.setLanePin l up).partState = s.partState ∧ (s.setLanePin l up).softReset = s.softReset
      ∧ (s.setLanePin l up).clock = s.clock ∧ (s.setLanePin l up).seconds = s.seconds
      ∧ (s.setLanePin l up).nextTick = s.nextTick ∧ (s.setLanePin l up).nextClockUpdate = s.nextClockUpdate
      ∧ (s.setLanePin l up).clockGroup = s.clockGroup ∧ (s.setLanePin l up).mem = s.mem
      ∧ (s.setLanePin l up).result = s.result ∧ (s.setLanePin l up).working = s.working
      ∧ (s.setLanePin l up).heldArms = s.heldArms ∧ (s.setLanePin l up).settings = s.settings
      ∧ (s.setLanePin l up).counters = s.counters ∧ (s.setLanePin l up).journal = s.journal
      ∧ (s.setLanePin l up).laneA = s.laneA ∧ (s.setLanePin l up).laneB = s.laneB ∧ (s.setLanePin l up).bays = s.bays
      ∧ (s.setLanePin l up).bayGroup = s.bayGroup ∧ (s.setLanePin l up).lastServed = s.lastServed
      ∧ (s.setLanePin l up).table = s.table ∧ (s.setLanePin l up).imageCounts = s.imageCounts
      ∧ (s.setLanePin l up).serial = s.serial ∧ (s.setLanePin l up).bayEpoch = s.bayEpoch
      ∧ (s.setLanePin l up).ageingDue = s.ageingDue ∧ (s.setLanePin l up).reports = s.reports
      ∧ (s.setLanePin l up).laneNotices = s.laneNotices ∧ (s.setLanePin l up).watchList = s.watchList
      ∧ (s.setLanePin l up).missNotes = s.missNotes ∧ (s.setLanePin l up).twinClaims = s.twinClaims
      ∧ (s.setLanePin l up).cleanups = s.cleanups ∧ (s.setLanePin l up).loneChanges = s.loneChanges
      ∧ (s.setLanePin l up).redundancy = s.redundancy ∧ (s.setLanePin l up).bareRoute = s.bareRoute
      ∧ (s.setLanePin l up).subs = s.subs ∧ (s.setLanePin l up).pubs = s.pubs
      ∧ (s.setLanePin l up).postTrip = s.postTrip ∧ (s.setLanePin l up).postOther = s.postOther
      ∧ (s.setLanePin l up).take = s.take ∧ (s.setLanePin l up).calendar = s.calendar
      ∧ (s.setLanePin l up).contactEdition = s.contactEdition ∧ (s.setLanePin l up).filtering = s.filtering
      ∧ (s.setLanePin l up).inputs = s.inputs ∧ (s.setLanePin l up).outputs = s.outputs
      ∧ (s.setLanePin l up).rules = s.rules ∧ (s.setLanePin l up).events = s.events := by
  cases l <;> (and_intros <;> rfl)

/-- A bay port's link indication is a level at the pins. -/
@[simp] theorem setBayPin_frame (p : Fin 4) (up : Bool) (s : State) :
    (s.setBayPin p up).pending = s.pending ∧ (s.setBayPin p up).free = s.free
      ∧ (s.setBayPin p up).partState = s.partState ∧ (s.setBayPin p up).softReset = s.softReset
      ∧ (s.setBayPin p up).clock = s.clock ∧ (s.setBayPin p up).seconds = s.seconds
      ∧ (s.setBayPin p up).nextTick = s.nextTick ∧ (s.setBayPin p up).nextClockUpdate = s.nextClockUpdate
      ∧ (s.setBayPin p up).clockGroup = s.clockGroup ∧ (s.setBayPin p up).mem = s.mem
      ∧ (s.setBayPin p up).result = s.result ∧ (s.setBayPin p up).working = s.working
      ∧ (s.setBayPin p up).heldArms = s.heldArms ∧ (s.setBayPin p up).settings = s.settings
      ∧ (s.setBayPin p up).counters = s.counters ∧ (s.setBayPin p up).journal = s.journal
      ∧ (s.setBayPin p up).laneA = s.laneA ∧ (s.setBayPin p up).laneB = s.laneB ∧ (s.setBayPin p up).bays = s.bays
      ∧ (s.setBayPin p up).bayGroup = s.bayGroup ∧ (s.setBayPin p up).lastServed = s.lastServed
      ∧ (s.setBayPin p up).table = s.table ∧ (s.setBayPin p up).imageCounts = s.imageCounts
      ∧ (s.setBayPin p up).serial = s.serial ∧ (s.setBayPin p up).bayEpoch = s.bayEpoch
      ∧ (s.setBayPin p up).ageingDue = s.ageingDue ∧ (s.setBayPin p up).reports = s.reports
      ∧ (s.setBayPin p up).laneNotices = s.laneNotices ∧ (s.setBayPin p up).watchList = s.watchList
      ∧ (s.setBayPin p up).missNotes = s.missNotes ∧ (s.setBayPin p up).twinClaims = s.twinClaims
      ∧ (s.setBayPin p up).cleanups = s.cleanups ∧ (s.setBayPin p up).loneChanges = s.loneChanges
      ∧ (s.setBayPin p up).redundancy = s.redundancy ∧ (s.setBayPin p up).bareRoute = s.bareRoute
      ∧ (s.setBayPin p up).subs = s.subs ∧ (s.setBayPin p up).pubs = s.pubs
      ∧ (s.setBayPin p up).postTrip = s.postTrip ∧ (s.setBayPin p up).postOther = s.postOther
      ∧ (s.setBayPin p up).take = s.take ∧ (s.setBayPin p up).calendar = s.calendar
      ∧ (s.setBayPin p up).contactEdition = s.contactEdition ∧ (s.setBayPin p up).filtering = s.filtering
      ∧ (s.setBayPin p up).inputs = s.inputs ∧ (s.setBayPin p up).outputs = s.outputs
      ∧ (s.setBayPin p up).rules = s.rules ∧ (s.setBayPin p up).events = s.events := by
  and_intros <;> rfl

/-! ## What each operation makes of its field -/

@[simp] theorem claim_journal (c : JournalClaim) (s : State) :
    (claim c s).journal = { s.journal with claims := s.journal.claims ++ [c] } := rfl

theorem offer_events (e : RuleEvent) (s : State) :
    (offer e s).events = if s.partState = .running then s.events ++ [e] else s.events := by
  unfold offer; split <;> rfl

@[simp] theorem handTwin_twinClaims (c : TwinClaim) (s : State) : (handTwin c s).twinClaims = s.twinClaims ++ [c] := rfl

@[simp] theorem handLone_loneChanges (c : LoneChange) (s : State) : (handLone c s).loneChanges = s.loneChanges ++ [c] := rfl

@[simp] theorem modifyLane_lane_self (l : Lane) (f : LanePort → LanePort) (s : State) :
    (s.modifyLane l f).lane l = f (s.lane l) := by cases l <;> rfl

@[simp] theorem modifyLane_lane_other (l : Lane) (f : LanePort → LanePort) (s : State) :
    (s.modifyLane l f).lane l.other = s.lane l.other := by cases l <;> rfl

theorem modifyLane_lane (l m : Lane) (f : LanePort → LanePort) (s : State) :
    (s.modifyLane l f).lane m = if m = l then f (s.lane l) else s.lane m := by cases l <;> cases m <;> rfl

@[simp] theorem updateLane_lane_self (l : Lane) (f : LaneGroup → LaneGroup) (s : State) :
    (updateLane l f s).lane l = { s.lane l with group := (s.lane l).group.update f } := by cases l <;> rfl

@[simp] theorem updateLane_lane_other (l : Lane) (f : LaneGroup → LaneGroup) (s : State) :
    (updateLane l f s).lane l.other = s.lane l.other := by cases l <;> rfl

@[simp] theorem modifyBay_bays (p : Fin 4) (f : BayPort → BayPort) (s : State) :
    (s.modifyBay p f).bays = modifyAt s.bays p f := rfl

@[simp] theorem updateBay_bayGroup (p : Fin 4) (f : BayBlock → BayBlock) (s : State) :
    (updateBay p f s).bayGroup = s.bayGroup.update p f := rfl

@[simp] theorem updateCounters_counters (f : Counters → Counters) (s : State) :
    (updateCounters f s).counters = s.counters.update f := rfl

@[simp] theorem modifyInput_inputs (n : Fin 8) (f : ContactInput → ContactInput) (s : State) :
    (s.modifyInput n f).inputs = modifyAt s.inputs n f := rfl

@[simp] theorem modifyOutput_outputs (n : Fin 4) (f : TripOutput → TripOutput) (s : State) :
    (s.modifyOutput n f).outputs = modifyAt s.outputs n f := rfl

@[simp] theorem modifySub_subs (k : Fin 64) (f : SubSlot → SubSlot) (s : State) :
    (s.modifySub k f).subs = modifyAt s.subs k f := rfl

@[simp] theorem updateSlot_subs (k : Fin 64) (f : SlotStatus → SlotStatus) (s : State) :
    (updateSlot k f s).subs
      = modifyAt s.subs k (fun t => { t with status := { f t.status with edition := t.status.edition + 2 } }) := rfl

@[simp] theorem updatePub_pubs (k : Fin 32) (f : PubSlot → PubSlot) (s : State) :
    (updatePub k f s).pubs = modifyAt s.pubs k (fun p => { f p with count := p.count + 1 }) := rfl

@[simp] theorem modifyRule_rules (k : Fin 16) (f : LinkRule → LinkRule) (s : State) :
    (s.modifyRule k f).rules = modifyAt s.rules k f := rfl

@[simp] theorem putEntry_table (p : Fin 512) (e : Option Entry) (s : State) :
    (s.putEntry p e).table = s.table.set p.val e p.isLt := rfl

@[simp] theorem asEngineClaim_imageCounts (f : State → State) (s : State) :
    (asEngineClaim f s).imageCounts
      = zipAll (· + ·) (f s).imageCounts (zipAll imageUpdates (s.standing (f s).imageCounts) (f s).table) := rfl

/-! ## One of a fixed number of like things -/

@[simp] theorem modifyAt_get_self {α : Type} {n : Nat} (v : Vector α n) (i : Fin n) (f : α → α) :
    (modifyAt v i f)[i.val] = f v[i.val] := by
  simp [modifyAt]

theorem modifyAt_get_ne {α : Type} {n : Nat} (v : Vector α n) (i j : Fin n) (f : α → α) (h : i ≠ j) :
    (modifyAt v i f)[j.val] = v[j.val] := by
  have h' : (i : Nat) ≠ (j : Nat) := fun e => h (Fin.ext e)
  simp [modifyAt, h']

theorem modifyAt_get {α : Type} {n : Nat} (v : Vector α n) (i j : Fin n) (f : α → α) :
    (modifyAt v i f)[j] = if i = j then f v[i] else v[j] := by
  by_cases h : i = j
  · subst h; simp
  · simp [h, modifyAt_get_ne v i j f h]

@[simp] theorem mapAll_get {α β : Type} {n : Nat} (f : α → β) (v : Vector α n) (i : Nat) (h : i < n) :
    (mapAll f v)[i] = f v[i] := by
  simp [mapAll]

@[simp] theorem build_get {α : Type} (n : Nat) (f : Fin n → α) (i : Nat) (h : i < n) :
    (build n f)[i] = f ⟨i, h⟩ := by
  simp [build]

@[simp] theorem zipAll_get {α β γ : Type} {n : Nat} (f : α → β → γ) (v : Vector α n) (w : Vector β n) (i : Nat)
    (h : i < n) : (zipAll f v w)[i] = f v[i] w[i] := by
  simp [zipAll]

/-- The lowest index at which a search succeeds satisfies what was searched for. -/
theorem findAt?_holds {α : Type} {n : Nat} (p : α → Bool) (v : Vector α n) (i : Fin n) (h : findAt? p v = some i) :
    p v[i] = true := by
  unfold findAt? at h
  split at h
  · next k hk =>
    split at h
    · cases h
      have := List.findIdx?_eq_some_iff_getElem.mp hk
      simpa using this.2.1
    · cases h
  · cases h

theorem lane_other_ne (l : Lane) : l.other ≠ l := by cases l <;> decide

end Sys2Proof.Machine
end

