-- ==== Sys2Proof/Laws/Spine.lean ====
section
/-! SUPPORT. The spine of the state: what no block but the controller, the clock and the pins changes. One lemma for each
function says that it keeps the spine. -/

namespace Sys2Proof.Machine

/-- `t` has the spine of `s`: the commands waiting, the part state, the clocks, the host's words, the command in progress and
its result, the settings in force, the levels at the pins, and the journal's two words. -/
abbrev Spine (s t : State) : Prop :=
  t.pending = s.pending ∧ t.partState = s.partState ∧ t.softReset = s.softReset ∧ t.clock = s.clock
    ∧ t.seconds = s.seconds ∧ t.nextTick = s.nextTick ∧ t.nextClockUpdate = s.nextClockUpdate
    ∧ t.clockGroup = s.clockGroup ∧ t.mem = s.mem ∧ t.result = s.result ∧ t.working = s.working
    ∧ t.heldArms = s.heldArms ∧ t.settings = s.settings ∧ t.pins = s.pins
    ∧ t.journal.written = s.journal.written ∧ t.journal.taken = s.journal.taken

theorem Spine.refl (s : State) : Spine s s := by unfold Spine; simp

theorem Spine.trans {s t u : State} (h : Spine s t) (g : Spine t u) : Spine s u := by
  unfold Spine at *; simp_all

theorem foldl_spine {α : Type} (f : State → α → State) (h : ∀ s x, Spine s (f s x)) (l : List α) (s : State) :
    Spine s (l.foldl f s) := by
  induction l generalizing s with
  | nil => exact Spine.refl s
  | cons x l ih => exact (h s x).trans (ih (f s x))

/-! ## Operations -/

theorem claim_spine (c : JournalClaim) (s : State) : Spine s (claim c s) := by unfold Spine; simp

theorem offer_spine (e : RuleEvent) (s : State) : Spine s (offer e s) := by unfold Spine; simp

@[simp] theorem laneSentinel_spine (l : Lane) (c : LaneCounter) (g : LaneGroup) (t : Clock) (s : State) :
    Spine s (laneSentinel l c g t s) := by
  unfold laneSentinel
  split <;> (unfold Spine; simp)

@[simp] theorem countLane_spine (l : Lane) (f : LaneGroup → LaneGroup) (c : LaneCounter) (t : Clock) (s : State) :
    Spine s (countLane l f c t s) := by
  unfold Spine countLane
  simp

@[simp] theorem baySentinel_spine (p : Fin 4) (c : BayCounter) (b : BayBlock) (t : Clock) (s : State) :
    Spine s (baySentinel p c b t s) := by
  unfold baySentinel
  split <;> (unfold Spine; simp)

@[simp] theorem countBay_spine (p : Fin 4) (f : BayBlock → BayBlock) (c : BayCounter) (t : Clock) (s : State) :
    Spine s (countBay p f c t s) := by
  unfold Spine countBay
  simp

@[simp] theorem countEngine_spine (k : EngineCounter) (t : Clock) (s : State) : Spine s (countEngine k t s) := by
  unfold countEngine
  split <;> (unfold Spine; simp)

theorem updateContacts_spine (f : State → State) (s : State) (h : Spine s (f s)) : Spine s (updateContacts f s) := by
  unfold updateContacts
  dsimp only
  split
  · exact h
  · unfold Spine at *; simpa using h

theorem asEngineClaim_spine (f : State → State) (s : State) (h : Spine s (f s)) : Spine s (asEngineClaim f s) := by
  unfold Spine at *; simpa using h

/-! ## Transmit queues -/

@[simp] theorem offerLane_spine (l : Lane) (r : TxRecord) (s : State) : Spine s (offerLane l r s) := by
  unfold offerLane
  (repeat' split) <;> (unfold Spine; simp)

@[simp] theorem laneSent_spine (l : Lane) (s : State) : Spine s (laneSent l s) := by
  unfold laneSent
  split <;> (unfold Spine; simp)

@[simp] theorem offerBay_spine (p : Fin 4) (r : TxRecord) (s : State) : Spine s (offerBay p r s) := by
  unfold offerBay
  dsimp only
  (repeat' split) <;> (unfold Spine; simp)

@[simp] theorem offerBays_spine (set : PortSet) (r : TxRecord) (s : State) : Spine s (offerBays set r s) := by
  unfold offerBays
  refine foldl_spine _ (fun s p => ?_) _ _
  split
  · exact offerBay_spine p r s
  · exact Spine.refl s

@[simp] theorem baySent_spine (p : Fin 4) (s : State) : Spine s (baySent p s) := by
  unfold baySent
  split <;> (unfold Spine; simp)

/-! ## Lane Supervisor -/

@[simp] theorem enterState_spine (l : Lane) (n : LaneState) (f : LaneGroup → LaneGroup) (s : State) :
    Spine s (enterState l n f s) := by
  unfold enterState
  (repeat' split) <;> (unfold Spine; simp)

@[simp] theorem reroute_spine (l : Lane) (n : LaneState) (s : State) : Spine s (reroute l n s) := by
  unfold Spine reroute
  simp

@[simp] theorem deriveRedundancy_spine (l : Lane) (s : State) : Spine s (deriveRedundancy l s) := by
  unfold deriveRedundancy
  dsimp only
  split <;> (unfold Spine; simp)

@[simp] theorem announce_spine (l : Lane) (o n : LaneState) (c : Word) (d : LaneCause) (s : State) :
    Spine s (announce l o n c d s) := by
  unfold Spine announce
  simp

@[simp] theorem moveLane_spine (l : Lane) (n : LaneState) (c : LaneCause) (f : LaneGroup → LaneGroup) (s : State) :
    Spine s (moveLane l n c f s) := by
  unfold Spine moveLane
  simp

@[simp] theorem releaseLane_spine (l : Lane) (c : LaneCause) (s : State) : Spine s (releaseLane l c s) := by
  unfold releaseLane
  split <;> (unfold Spine; simp)

@[simp] theorem holdLane_spine (l : Lane) (s : State) : Spine s (holdLane l s) := by
  unfold holdLane
  split <;> (unfold Spine; simp)

@[simp] theorem releaseAtStart_spine (s : State) : Spine s (releaseAtStart s) := by
  unfold Spine releaseAtStart
  simp

@[simp] theorem applyLone_spine (c : LoneChange) (s : State) : Spine s (applyLone c s) := by
  unfold applyLone
  dsimp only
  (repeat' split) <;> (unfold Spine; simp)

@[simp] theorem takeLone_spine (r : Bool) (s : State) : Spine s (takeLone r s) := by
  unfold takeLone
  (repeat' split) <;> (unfold Spine; simp)

@[simp] theorem provingExpired_spine (l : Lane) (s : State) : Spine s (provingExpired l s) := by
  unfold provingExpired
  (repeat' split) <;> (unfold Spine; simp)

/-! ## Arrivals at the ports -/

@[simp] theorem bareFromLane_spine (l : Lane) (b : List Byte) (s : State) : Spine s (bareFromLane l b s) := by
  unfold bareFromLane
  split <;> (unfold Spine; simp)

@[simp] theorem joinLane_spine (l : Lane) (a : Arrival) (s : State) : Spine s (joinLane l a s) := by
  unfold joinLane
  split <;> (unfold Spine; simp)

@[simp] theorem classifyLane_spine (l : Lane) (f : List Byte) (s : State) : Spine s (classifyLane l f s) := by
  unfold classifyLane
  dsimp only
  (repeat' split) <;> (unfold Spine; simp)

@[simp] theorem receiveLane_spine (l : Lane) (f : List Byte) (s : State) : Spine s (receiveLane l f s) := by
  unfold receiveLane
  dsimp only
  (repeat' split) <;> (unfold Spine; simp)

@[simp] theorem bareFromBay_spine (p : Fin 4) (b : List Byte) (s : State) : Spine s (bareFromBay p b s) := by
  unfold bareFromBay
  split <;> (unfold Spine; simp)

@[simp] theorem joinBay_spine (p : Fin 4) (a : Arrival) (s : State) : Spine s (joinBay p a s) := by
  unfold joinBay
  split <;> (unfold Spine; simp)

@[simp] theorem classifyBay_spine (p : Fin 4) (f : List Byte) (s : State) : Spine s (classifyBay p f s) := by
  unfold classifyBay
  dsimp only
  (repeat' split) <;> (unfold Spine; simp)

@[simp] theorem receiveBay_spine (p : Fin 4) (f : List Byte) (s : State) : Spine s (receiveBay p f s) := by
  unfold receiveBay
  split <;> (unfold Spine; simp)

/-! ## Twin Watch -/

@[simp] theorem setWatch_spine (w : List WatchEntry) (f : Counters → Counters) (s : State) :
    Spine s (setWatch w f s) := by
  unfold Spine setWatch
  simp

@[simp] theorem watchAsked_spine (i r q : Word) (l : Lane) (t : Clock) (s : State) :
    Spine s (watchAsked i r q l t s) := by
  unfold watchAsked
  (repeat' split) <;> (unfold Spine; simp)

@[simp] theorem watchExpired_spine (w : WatchEntry) (r : List WatchEntry) (s : State) :
    Spine s (watchExpired w r s) := by
  unfold Spine watchExpired
  simp

@[simp] theorem twinJudged_spine (i r q : Word) (l : Lane) (t : Clock) (s : State) :
    Spine s (twinJudged i r q l t s) := by
  unfold twinJudged
  (repeat' split) <;> (unfold Spine; simp)

@[simp] theorem dropWatches_spine (e : WatchEntry → Bool) (n : MissNote → Bool) (s : State) :
    Spine s (dropWatches e n s) := by
  unfold Spine dropWatches
  simp

@[simp] theorem abandonStream_spine (i r : Word) (s : State) : Spine s (abandonStream i r s) := by
  unfold Spine abandonStream
  simp

@[simp] theorem cleanLane_spine (l : Lane) (s : State) : Spine s (cleanLane l s) := by
  unfold Spine cleanLane
  simp

/-! ## Delivery -/

@[simp] theorem flagClaim_spine (k : Fin 64) (m : Option MarkedBy) (b : Bool) (s : State) :
    Spine s (flagClaim k m b s) := by
  unfold flagClaim
  split <;> (unfold Spine; simp)

@[simp] theorem writeView_spine (k : Fin 64) (d : DueView) (s : State) : Spine s (writeView k d s) := by
  unfold Spine writeView
  simp

@[simp] theorem engineView_spine (k : Fin 64) (b : Bool) (s : State) : Spine s (engineView k b s) := by
  unfold engineView
  dsimp only
  (repeat' split) <;> (unfold Spine; simp)

@[simp] theorem beginDelivery_spine (k : Fin 64) (c : Copy) (s : State) : Spine s (beginDelivery k c s) := by
  unfold Spine beginDelivery
  simp

@[simp] theorem notifyClaim_spine (k : Fin 64) (d : InProgress) (e : Word) (s : State) :
    Spine s (notifyClaim k d e s) := by
  unfold notifyClaim
  (repeat' split) <;> (unfold Spine; simp)

@[simp] theorem applyOutcome_spine (k : Fin 64) (o : SlotOutcome) (s : State) : Spine s (applyOutcome k o s) := by
  unfold applyOutcome
  (repeat' split) <;> (unfold Spine; simp)

@[simp] theorem giveOutcome_spine (k : Fin 64) (o : SlotOutcome) (s : State) : Spine s (giveOutcome k o s) := by
  unfold giveOutcome
  split <;> (unfold Spine; simp)

@[simp] theorem detachDelivery_spine (k : Fin 64) (s : State) : Spine s (detachDelivery k s) := by
  unfold Spine detachDelivery
  simp

@[simp] theorem armDelivery_spine (k : Fin 64) (c : SlotConfig) (s : State) : Spine s (armDelivery k c s) := by
  unfold Spine armDelivery
  simp

@[simp] theorem disarmDelivery_spine (k : Fin 64) (s : State) : Spine s (disarmDelivery k s) := by
  unfold Spine disarmDelivery
  simp

@[simp] theorem refuseDelivery_spine (k : Fin 64) (r : Reason) (i d : Word) (s : State) :
    Spine s (refuseDelivery k r i d s) := by
  unfold Spine refuseDelivery
  simp

@[simp] theorem placeCopy_spine (k : Fin 64) (c : Copy) (s : State) : Spine s (placeCopy k c s) := by
  unfold placeCopy
  split <;> (unfold Spine; simp)

@[simp] theorem showFlag_spine (k : Fin 64) (s : State) : Spine s (showFlag k s) := by
  unfold showFlag
  dsimp only
  split <;> (unfold Spine; simp)

@[simp] theorem handCopy_spine (k : Fin 64) (c : Copy) (s : State) : Spine s (handCopy k c s) := by
  unfold handCopy
  dsimp only
  (repeat' split) <;> (unfold Spine; simp)

@[simp] theorem updatesAndDelivery_spine (k : Fin 64) (c : Copy) (dues : List DueView) (s : State) :
    Spine s (updatesAndDelivery k c dues s) := by
  induction dues generalizing s with
  | nil => exact beginDelivery_spine k c s
  | cons d rest ih =>
    unfold updatesAndDelivery
    dsimp only
    split
    · exact Spine.trans (by unfold Spine; simp) (ih _)
    · unfold Spine; simp

@[simp] theorem afterDelivery_spine (k : Fin 64) (s : State) : Spine s (afterDelivery k s) := by
  unfold afterDelivery
  dsimp only
  have h : Spine s (s.modifySub k (fun t => { t with viewsDue := [] })) := by unfold Spine; simp
  split
  · exact h.trans (foldl_spine _ (fun s d => writeView_spine k d s) _ _)
  · exact h.trans (updatesAndDelivery_spine ..)

@[simp] theorem writeDelivery_spine (k : Fin 64) (d : InProgress) (s : State) : Spine s (writeDelivery k d s) := by
  unfold writeDelivery
  dsimp only
  (repeat' split) <;> (unfold Spine; simp)

@[simp] theorem completeDelivery_spine (k : Fin 64) (d : InProgress) (s : State) :
    Spine s (completeDelivery k d s) := by
  unfold completeDelivery
  have h : Spine s (s.subs[k].outcomes.foldl (fun s o => applyOutcome k o s)
      ((writeDelivery k d s).modifySub k (fun t => { t with outcomes := [] }))) :=
    Spine.trans (by unfold Spine; simp) (foldl_spine _ (fun s o => applyOutcome_spine k o s) _ _)
  dsimp only
  split
  · exact h.trans (afterDelivery_spine k _)
  · exact (h.trans (afterDelivery_spine k _)).trans (showFlag_spine k _)

/-! ## Stream table -/

@[simp] theorem makeEntry_spine (p : Fin 512) (e : Entry) (s : State) : Spine s (makeEntry p e s) := by
  unfold Spine makeEntry
  simp

@[simp] theorem removeEntry_spine (p : Fin 512) (s : State) : Spine s (removeEntry p s) := by
  unfold removeEntry raiseImage
  split <;> (unfold Spine; simp)

@[simp] theorem makeRoom_spine (s : State) : Spine s (makeRoom s) := by
  unfold makeRoom
  (repeat' split) <;> (unfold Spine; simp)

@[simp] theorem ageEntries_spine (s : State) : Spine s (ageEntries s) := by
  unfold Spine ageEntries
  simp

@[simp] theorem expireAge_spine (p : Fin 512) (s : State) : Spine s (expireAge p s) := by
  unfold expireAge
  split <;> (unfold Spine; simp)

@[simp] theorem settleAgeing_spine (s : State) : Spine s (settleAgeing s) := by
  exact foldl_spine _ (fun s p => expireAge_spine p s) _ _

@[simp] theorem detachEntry_spine (k : Fin 64) (s : State) : Spine s (detachEntry k s) := by
  unfold detachEntry
  (repeat' split) <;> (unfold Spine; simp)

@[simp] theorem detach_spine (k : Fin 64) (s : State) : Spine s (detach k s) := by
  unfold detach
  split <;> (unfold Spine; simp)

@[simp] theorem attach_spine (k : Fin 64) (r : SlotRequest) (s : State) : Spine s (attach k r s) := by
  unfold attach
  dsimp only
  (repeat' split) <;> (unfold Spine; simp)

@[simp] theorem armSlot_spine (k : Fin 64) (s : State) : Spine s (armSlot k s) := by
  unfold armSlot
  split <;> (unfold Spine; simp)

@[simp] theorem subscriptionClaim_spine (k : Fin 64) (s : State) : Spine s (subscriptionClaim k s) := by
  unfold subscriptionClaim
  dsimp only
  (repeat' split) <;> (unfold Spine; simp)

@[simp] theorem takeSubscription_spine (k : Fin 64) (s : State) : Spine s (takeSubscription k s) := by
  unfold Spine takeSubscription
  simp

@[simp] theorem removeHostEntry_spine (k : Fin 32) (s : State) : Spine s (removeHostEntry k s) := by
  unfold removeHostEntry
  generalize findAt? _ s.table = r
  cases r <;> (unfold Spine; simp)

theorem makeHostEntry_spine (k : Fin 32) (c : PubConfig) (e : Byte) (s t : State) (h : makeHostEntry k c e s = some t) :
    Spine s t := by
  unfold makeHostEntry at h
  split at h
  · cases h
  · dsimp only at h
    split at h
    · cases h
      unfold Spine; simp
    · cases h

@[simp] theorem showSendState_spine (k : Fin 32) (e : Byte) (n : Word) (s : State) :
    Spine s (showSendState k e n s) := by
  unfold Spine showSendState
  simp

@[simp] theorem goStale_spine (p : Fin 512) (e : Entry) (t : Clock) (q m : Word) (s : State) :
    Spine s (goStale p e t q m s) := by
  unfold goStale
  (repeat' split) <;> (unfold Spine; simp)

@[simp] theorem expireFreshness_spine (i : Word) (s : State) : Spine s (expireFreshness i s) := by
  unfold expireFreshness
  (repeat' split) <;> (unfold Spine; simp)

@[simp] theorem writeEntry_spine (p : Fin 512) (e : Entry) (s : State) : Spine s (writeEntry p e s) := by
  unfold writeEntry
  split <;> (unfold Spine; simp)

@[simp] theorem applyMiss_spine (i r : Word) (l : Lane) (c : Word) (s : State) : Spine s (applyMiss i r l c s) := by
  unfold applyMiss
  dsimp only
  (repeat' split) <;> (unfold Spine; simp)

@[simp] theorem applyCredit_spine (i r : Word) (l : Lane) (s : State) : Spine s (applyCredit i r l s) := by
  unfold applyCredit
  dsimp only
  (repeat' split) <;> (unfold Spine; simp)

@[simp] theorem noticeLane_spine (l : Lane) (s : State) : Spine s (noticeLane l s) := by
  unfold noticeLane
  dsimp only
  generalize List.finRange 64 = slots
  refine Spine.trans ?_ (foldl_spine _ (fun s k => ?_) slots _)
  · unfold Spine; and_intros <;> rfl
  · split
    · exact engineView_spine k false s
    · exact Spine.refl s

@[simp] theorem clearNoted_spine (s : State) : Spine s (clearNoted s) := by
  unfold Spine clearNoted
  simp

/-! ## Arrivals taken -/

@[simp] theorem freshClaim_spine (e : Entry) (a : Arrival) (s : State) : Spine s (freshClaim e a s) := by
  unfold freshClaim
  split <;> (unfold Spine; simp)

@[simp] theorem deliver_spine (e : Entry) (c : Copy) (s : State) : Spine s (deliver e c s) := by
  unfold deliver
  split <;> (unfold Spine; simp)

@[simp] theorem changeEpoch_spine (e : Entry) (o : Byte) (a : Arrival) (l : Lane) (s : State) :
    Spine s (changeEpoch e o a l s) := by
  unfold Spine changeEpoch
  simp

@[simp] theorem askWatch_spine (e : Entry) (a : Arrival) (q : Word) (l : Lane) (s : State) :
    Spine s (askWatch e a q l s) := by
  unfold askWatch
  split <;> (unfold Spine; simp)

@[simp] theorem acceptFirst_spine (p : Fin 512) (e : Entry) (j : Judgement) (w : Option Window) (a : Arrival) (q : Word) (l : Lane) (s : State) :
    Spine s (acceptFirst p e j w a q l s) := by
  unfold acceptFirst
  dsimp only
  (repeat' split) <;> (unfold Spine; simp)

@[simp] theorem judgeRemote_spine (p : Fin 512) (e : Entry) (a : Arrival) (q : Word) (l : Lane) (s : State) :
    Spine s (judgeRemote p e a q l s) := by
  unfold judgeRemote
  (repeat' split) <;> (unfold Spine; simp)

@[simp] theorem acceptBay_spine (p : Fin 512) (e : Entry) (a : Arrival) (q : Fin 4) (s : State) :
    Spine s (acceptBay p e a q s) := by
  unfold Spine acceptBay
  simp

@[simp] theorem echo_spine (p : Fin 512) (e : Entry) (a : Arrival) (s : State) : Spine s (echo p e a s) := by
  unfold echo
  split <;> (unfold Spine; simp)

@[simp] theorem clash_spine (p : Fin 512) (e : Entry) (a : Arrival) (s : State) : Spine s (clash p e a s) := by
  unfold clash
  split <;> (unfold Spine; simp)

@[simp] theorem unplaced_spine (a : Arrival) (s : State) : Spine s (unplaced a s) := by
  unfold unplaced
  dsimp only
  (repeat' split) <;> (unfold Spine; simp)

@[simp] theorem takeLaneCopy_spine (a : Arrival) (l : Lane) (s : State) : Spine s (takeLaneCopy a l s) := by
  unfold takeLaneCopy
  dsimp only
  (repeat' split) <;> (unfold Spine; simp)

@[simp] theorem takeBayCopy_spine (a : Arrival) (q : Fin 4) (s : State) : Spine s (takeBayCopy a q s) := by
  unfold takeBayCopy
  (repeat' split) <;> (unfold Spine; simp)

@[simp] theorem takeArrival_spine (a : Arrival) (s : State) : Spine s (takeArrival a s) := by
  unfold takeArrival
  split <;> (unfold Spine; simp)

@[simp] theorem popArrival_spine (p : Port) (s : State) : Spine s (popArrival p s) := by
  unfold popArrival
  split <;> (unfold Spine; simp)

@[simp] theorem judgeArrival_spine (a : Arrival) (s : State) : Spine s (judgeArrival a s) := by
  have h : Spine s (asEngineClaim (takeArrival a) s) := asEngineClaim_spine _ s (takeArrival_spine a s)
  unfold judgeArrival
  dsimp only
  split
  · exact h.trans (expireFreshness_spine ..)
  · exact h

@[simp] theorem arrivalTaken_spine (s : State) : Spine s (arrivalTaken s) := by
  unfold arrivalTaken
  (repeat' split) <;> (unfold Spine; simp)

/-! ## Publication Scheduler -/

@[simp] theorem uncalendar_spine (k : Fin 32) (s : State) : Spine s (uncalendar k s) := by
  unfold Spine uncalendar
  simp

@[simp] theorem sendPub_spine (k : Fin 32) (s : State) : Spine s (sendPub k s) := by
  unfold sendPub
  dsimp only
  split <;> (unfold Spine; simp)

@[simp] theorem completeTake_spine (k : Fin 32) (p : Poster) (e : Word) (c : List Byte) (s : State) :
    Spine s (completeTake k p e c s) := by
  unfold completeTake
  split <;> (unfold Spine; simp)

@[simp] theorem beginTake_spine (p : Post) (s : State) : Spine s (beginTake p s) := by
  unfold beginTake
  split <;> (unfold Spine; simp)

@[simp] theorem beginTakes_spine (n : Nat) (s : State) : Spine s (beginTakes n s) := by
  induction n generalizing s with
  | zero => exact Spine.refl s
  | succ n ih =>
    unfold beginTakes
    split
    · exact Spine.refl s
    · split
      · exact Spine.trans (by unfold Spine; simp) (ih _)
      · exact Spine.trans (by unfold Spine; simp) (ih _)
      · exact Spine.refl s

@[simp] theorem runTakes_spine (s : State) : Spine s (runTakes s) := by
  unfold Spine runTakes
  simp

@[simp] theorem takeCompletes_spine (t : Take) (s : State) : Spine s (takeCompletes t s) := by
  unfold Spine takeCompletes
  simp

@[simp] theorem joinPosts_spine (k : Fin 32) (p : Poster) (s : State) : Spine s (joinPosts k p s) := by
  unfold joinPosts
  (repeat' split) <;> (unfold Spine; simp)

@[simp] theorem post_spine (k : Fin 32) (p : Poster) (s : State) : Spine s (post k p s) := by
  unfold post
  split <;> (unfold Spine; simp)

@[simp] theorem abandonByCollision_spine (t : Take) (s : State) : Spine s (abandonByCollision t s) := by
  unfold Spine abandonByCollision
  simp

@[simp] theorem collideAndPost_spine (t : Take) (s : State) : Spine s (collideAndPost t s) := by
  unfold collideAndPost
  split <;> (unfold Spine; simp)

@[simp] theorem watchedWrite_spine (k : Fin 32) (o : Nat) (s : State) : Spine s (watchedWrite k o s) := by
  unfold watchedWrite
  (repeat' split) <;> (unfold Spine; simp)

@[simp] theorem dropPub_spine (k : Fin 32) (s : State) : Spine s (dropPub k s) := by
  unfold Spine dropPub
  simp

@[simp] theorem dropIfArmed_spine (k : Fin 32) (s : State) : Spine s (dropIfArmed k s) := by
  unfold dropIfArmed
  split <;> (unfold Spine; simp)

@[simp] theorem refusePub_spine (k : Fin 32) (r : Reason) (d : Word) (s : State) : Spine s (refusePub k r d s) := by
  unfold Spine refusePub
  simp

@[simp] theorem armPub_spine (k : Fin 32) (s : State) : Spine s (armPub k s) := by
  unfold armPub
  split
  · exact refusePub_spine ..
  · dsimp only
    split
    · next t h => exact (makeHostEntry_spine _ _ _ _ _ h).trans (by unfold Spine; simp)
    · exact refusePub_spine ..

@[simp] theorem publicationClaim_spine (k : Fin 32) (s : State) : Spine s (publicationClaim k s) := by
  unfold publicationClaim
  dsimp only
  (repeat' split) <;> (unfold Spine; simp)

@[simp] theorem takePublication_spine (k : Fin 32) (s : State) : Spine s (takePublication k s) := by
  unfold Spine takePublication
  simp

@[simp] theorem sendDue_spine (e : CalendarEntry) (r : List CalendarEntry) (s : State) : Spine s (sendDue e r s) := by
  unfold sendDue
  split <;> (unfold Spine; simp)

@[simp] theorem expirePub_spine (k : Fin 32) (t : Clock) (s : State) : Spine s (expirePub k t s) := by
  unfold Spine expirePub
  simp

/-! ## Contacts, outputs and rules -/

@[simp] theorem outputClaim_spine (n : Fin 4) (d : Bool) (c : OutputCause) (s : State) :
    Spine s (outputClaim n d c s) := by
  unfold Spine outputClaim
  simp

@[simp] theorem driveOutput_spine (n : Fin 4) (c : OutputCause) (s : State) : Spine s (driveOutput n c s) := by
  unfold driveOutput
  have h := updateContacts_spine (·.modifyOutput n (TripOutput.drive s.settings.outputs[n] s.clock)) s (by unfold Spine; simp)
  dsimp only
  split
  · split
    · exact h
    · exact h.trans (outputClaim_spine ..)
  · exact Spine.refl s

@[simp] theorem releaseOutput_spine (n : Fin 4) (c : OutputCause) (s : State) : Spine s (releaseOutput n c s) := by
  unfold releaseOutput
  split
  · exact (updateContacts_spine _ s (by unfold Spine; simp)).trans (outputClaim_spine ..)
  · exact Spine.refl s

@[simp] theorem pulseExpired_spine (n : Fin 4) (s : State) : Spine s (pulseExpired n s) := by
  unfold pulseExpired
  (repeat' split) <;> (unfold Spine; simp)

@[simp] theorem beginFiltering_spine (s : State) : Spine s (beginFiltering s) := by
  unfold beginFiltering
  exact updateContacts_spine _ s (by unfold Spine; simp)

@[simp] theorem announceChange_spine (n : Fin 8) (o : Option Bool) (l : Bool) (t : Clock) (s : State) :
    Spine s (announceChange n o l t s) := by
  unfold announceChange
  split <;> (unfold Spine; simp)

@[simp] theorem firstSettle_spine (n : Fin 8) (l : Bool) (s : State) : Spine s (firstSettle n l s) := by
  unfold firstSettle
  exact Spine.trans (updateContacts_spine _ s (by unfold Spine; simp)) (claim_spine ..)

@[simp] theorem blockInput_spine (n : Fin 8) (t : Clock) (c : Nat) (s : State) : Spine s (blockInput n t c s) := by
  unfold blockInput
  exact Spine.trans (updateContacts_spine _ s (by unfold Spine; simp)) (claim_spine ..)

@[simp] theorem acceptChange_spine (n : Fin 8) (l : Bool) (t : Clock) (c : Nat) (s : State) :
    Spine s (acceptChange n l t c s) := by
  unfold acceptChange
  exact (updateContacts_spine _ s (by unfold Spine; simp)).trans (announceChange_spine ..)

@[simp] theorem filterExpired_spine (n : Fin 8) (s : State) : Spine s (filterExpired n s) := by
  unfold filterExpired
  dsimp only
  (repeat' split) <;> (unfold Spine; simp)

@[simp] theorem countBlocks_spine (s : State) : Spine s (countBlocks s) := by
  unfold Spine countBlocks
  simp

@[simp] theorem unblockInput_spine (n : Fin 8) (s : State) : Spine s (unblockInput n s) := by
  unfold unblockInput
  dsimp only
  split
  · exact (updateContacts_spine _ s (by unfold Spine; simp)).trans ((claim_spine ..).trans (announceChange_spine ..))
  · exact (updateContacts_spine _ s (by unfold Spine; simp)).trans (claim_spine ..)

@[simp] theorem blockRunOut_spine (n : Fin 8) (s : State) : Spine s (blockRunOut n s) := by
  unfold blockRunOut
  dsimp only
  (repeat' split) <;> (unfold Spine; simp)

@[simp] theorem unblockWaiting_spine (n : Fin 8) (s : State) : Spine s (unblockWaiting n s) := by
  unfold unblockWaiting
  split <;> (unfold Spine; simp)

@[simp] theorem refuseRule_spine (k : Fin 16) (r : Reason) (d : Word) (s : State) : Spine s (refuseRule k r d s) := by
  unfold Spine refuseRule
  simp

@[simp] theorem ruleClaim_spine (k : Fin 16) (s : State) : Spine s (ruleClaim k s) := by
  unfold ruleClaim
  dsimp only
  (repeat' split) <;> (unfold Spine; simp)

theorem act_spine (k : Fin 16) (a : Action) (s : State) : Spine s (act k a s).1 := by
  unfold act
  (repeat' split) <;> (unfold Spine; simp)

@[simp] theorem fire_spine (k : Fin 16) (c : RuleCopy) (e : RuleEvent) (s : State) : Spine s (fire k c e s) := by
  unfold fire
  dsimp only
  split <;> split <;> exact Spine.trans (by unfold Spine; simp) (act_spine k c.action _)

@[simp] theorem judgeRule_spine (e : RuleEvent) (s : State) (k : Fin 16) : Spine s (judgeRule e s k) := by
  unfold judgeRule
  dsimp only
  (repeat' split) <;> (unfold Spine; simp)

@[simp] theorem takeEvent_spine (e : RuleEvent) (s : State) : Spine s (takeEvent e s) := by
  unfold takeEvent
  exact foldl_spine _ (fun s k => judgeRule_spine e s k) _ _

/-! ## Controller -/

@[simp] theorem startedClaim_spine (s : State) : Spine s (startedClaim s) := by
  unfold Spine startedClaim
  simp

@[simp] theorem takeArm_spine (w : ArmWord) (s : State) : Spine s (takeArm w s) := by
  unfold takeArm
  split <;> (unfold Spine; simp)

@[simp] theorem clearGroups_spine (s : State) : Spine s (clearGroups s) := by
  unfold Spine clearGroups
  simp

@[simp] theorem refuseWrite_spine (a : Nat) (v : Word) (s : State) : Spine s (refuseWrite a v s) := by
  unfold refuseWrite
  dsimp only
  split <;> (unfold Spine; simp)

end Sys2Proof.Machine
end

