-- ==== Sys2Proof/Laws/Control.lean ====
section
/-! SUPPORT. What the controller's own functions keep: the commands waiting, the host's words, the clock, the pins and the
journal's two words; what the journal's functions do to those and to the INT line. -/

namespace Sys2Proof.Machine

/-- What every function of the controller keeps but a host write's store and a reset. -/
abbrev Kept (s t : State) : Prop :=
  t.pending = s.pending ∧ t.mem = s.mem ∧ t.clock = s.clock ∧ t.pins = s.pins
    ∧ t.journal.written = s.journal.written ∧ t.journal.taken = s.journal.taken

theorem Kept.refl (s : State) : Kept s s := by unfold Kept; simp

theorem Kept.trans {s t u : State} (h : Kept s t) (g : Kept t u) : Kept s u := by
  unfold Kept at *; simp_all

theorem Spine.kept {s t : State} (h : Spine s t) : Kept s t := by
  unfold Spine at h; unfold Kept; simp_all

/-! ## The journal's two words -/

@[simp] theorem follow_written (old new : Settings) (j : Journal) :
    (j.follow old new).written = j.written ∧ (j.follow old new).taken = j.taken := by
  unfold Journal.follow; (repeat' split) <;> exact ⟨rfl, rfl⟩

@[simp] theorem write_written (set : Settings) (now : Clock) (c : JournalClaim) (j : Journal) :
    (j.write set now c).written = j.written + 1 ∧ (j.write set now c).taken = j.taken := by
  unfold Journal.write; dsimp only; (repeat' split) <;> exact ⟨rfl, rfl⟩

@[simp] theorem lose_written (now : Clock) (j : Journal) :
    (j.lose now).written = j.written ∧ (j.lose now).taken = j.taken := ⟨rfl, rfl⟩

theorem giveBack_written (set : Settings) (t : Word) (j : Journal) :
    (j.giveBack set t).written = j.written
      ∧ (j.giveBack set t).taken = if (j.written - t).toNat ≤ 128 then t else j.taken := by
  unfold Journal.giveBack; dsimp only; (repeat' split) <;> exact ⟨rfl, rfl⟩

/-- A taken write changes the taken number and the INT line alone. -/
@[simp] theorem giveBack_frame (set : Settings) (t : Word) (j : Journal) :
    (j.giveBack set t).ring = j.ring ∧ (j.giveBack set t).lost = j.lost ∧ (j.giveBack set t).firstLoss = j.firstLoss
      ∧ (j.giveBack set t).overflowPending = j.overflowPending ∧ (j.giveBack set t).claims = j.claims
      ∧ (j.giveBack set t).writes = j.writes ∧ (j.giveBack set t).pulseEnds = j.pulseEnds := by
  unfold Journal.giveBack; dsimp only; (repeat' split) <;> exact ⟨rfl, rfl, rfl, rfl, rfl, rfl, rfl⟩

/-- A taken write keeps the outstanding entries within the journal's room. -/
theorem giveBack_outstanding (set : Settings) (t : Word) (j : Journal) (h : j.outstanding ≤ 128) :
    (j.giveBack set t).outstanding ≤ 128 := by
  have hw := giveBack_written set t j
  unfold Journal.outstanding at *
  rw [hw.1, hw.2]
  split <;> assumption

/-- What holds of the journal and is kept by each taken write is kept by the taking of the waiting writes, if it does not
speak of those. -/
theorem takeWrites_keeps (P : Journal → Prop) (set : Settings) (j : Journal) (h : P j)
    (hw : ∀ (j : Journal) (w : List WaitingWrite), P j → P { j with writes := w })
    (hg : ∀ (j : Journal) (t : Word), P j → P (j.giveBack set t)) : P (j.takeWrites set) := by
  have run : ∀ (l : List WaitingWrite) (j : Journal), P j → P (l.foldl (fun j w => j.giveBack set w.value) j) := by
    intro l
    induction l with
    | nil => exact fun _ h => h
    | cons w l ih => exact fun j h => ih _ (hg j w.value h)
  exact run _ _ (hw j _ h)

/-- The taking of the waiting writes changes the taken number, the INT line and the writes that wait alone. -/
@[simp] theorem takeWrites_frame (set : Settings) (j : Journal) :
    (j.takeWrites set).ring = j.ring ∧ (j.takeWrites set).written = j.written ∧ (j.takeWrites set).lost = j.lost
      ∧ (j.takeWrites set).firstLoss = j.firstLoss ∧ (j.takeWrites set).overflowPending = j.overflowPending
      ∧ (j.takeWrites set).claims = j.claims ∧ (j.takeWrites set).pulseEnds = j.pulseEnds := by
  refine takeWrites_keeps (fun k => k.ring = j.ring ∧ k.written = j.written ∧ k.lost = j.lost
    ∧ k.firstLoss = j.firstLoss ∧ k.overflowPending = j.overflowPending ∧ k.claims = j.claims
    ∧ k.pulseEnds = j.pulseEnds) set j ⟨rfl, rfl, rfl, rfl, rfl, rfl, rfl⟩ (fun _ _ h => h) (fun k t h => ?_)
  rw [(giveBack_written set t k).1]
  simpa using h

/-- The writes that still have a claim before them go on waiting. -/
@[simp] theorem takeWrites_writes (set : Settings) (j : Journal) :
    (j.takeWrites set).writes = j.writes.filter (·.behind != 0) := by
  have run : ∀ (l : List WaitingWrite) (j : Journal),
      (l.foldl (fun j w => j.giveBack set w.value) j).writes = j.writes := by
    intro l
    induction l with
    | nil => exact fun _ => rfl
    | cons w l ih => exact fun j => (ih _).trans (giveBack_frame ..).2.2.2.2.2.1
  exact run _ _

/-- Where no write of the journal taken word waits, none is taken. -/
@[simp] theorem takeWrites_none (set : Settings) (j : Journal) (h : j.writes = []) : j.takeWrites set = j := by
  unfold Journal.takeWrites
  cases j
  simp only at h
  subst h
  rfl

/-- The taking of a claim leaves the claims and the writes that wait. -/
@[simp] theorem take_waiting (set : Settings) (now : Clock) (c : JournalClaim) (j : Journal) :
    (j.take set now c).claims = j.claims ∧ (j.take set now c).writes = j.writes ∧ (j.take set now c).taken = j.taken := by
  unfold Journal.take Journal.write Journal.lose
  dsimp only
  (repeat' split) <;> exact ⟨rfl, rfl, rfl⟩

/-- The writing of an entry does not look at the writes that wait. -/
theorem write_writes (set : Settings) (now : Clock) (c : JournalClaim) (w : List WaitingWrite) (j : Journal) :
    ({ j with writes := w } : Journal).write set now c = { j.write set now c with writes := w } := by
  unfold Journal.write
  dsimp only
  (repeat' split) <;> rfl

/-- The taking of a claim does not look at the writes that wait. -/
theorem take_writes (set : Settings) (now : Clock) (c : JournalClaim) (w : List WaitingWrite) (j : Journal) :
    ({ j with writes := w } : Journal).take set now c = { j.take set now c with writes := w } := by
  have room : ∀ k : Journal, ({ k with writes := w } : Journal).outstanding = k.outstanding := fun _ => rfl
  have overflow : ({ j with writes := w } : Journal).overflowClaim now = j.overflowClaim now := rfl
  have cleared : ({ ({ j with writes := w } : Journal).write set now (j.overflowClaim now) with
        lost := 0, firstLoss := 0, overflowPending := false } : Journal)
      = { ({ j.write set now (j.overflowClaim now) with lost := 0, firstLoss := 0, overflowPending := false } : Journal) with
          writes := w } := by rw [write_writes]
  unfold Journal.take
  dsimp only
  rw [room, overflow, cleared, room]
  generalize ({ j.write set now (j.overflowClaim now) with
    lost := 0, firstLoss := 0, overflowPending := false } : Journal) = k
  rw [write_writes set now c w k, write_writes set now c w j]
  (repeat' split) <;> rfl

/-- A claim at the head with no write of the journal taken word behind it is taken as R168 and R170 say. -/
theorem takeHead_none (set : Settings) (now : Clock) (c : JournalClaim) (rest : List JournalClaim) (j : Journal)
    (h : j.writes = []) : j.takeHead set now c rest = { j with claims := rest }.take set now c := by
  unfold Journal.takeHead
  rw [takeWrites_none]
  · rw [h]
    cases j
    simp only at h
    subst h
    rfl
  · simp [h]

/-- A write handed to the writer while no claim waits is taken at once. -/
theorem handWrite_idle (set : Settings) (t : Word) (j : Journal) (h : j.claims = []) :
    j.handWrite set t = j.giveBack set t := by
  unfold Journal.handWrite; rw [h]; rfl

/-- A write handed to the writer while claims wait stands behind them. -/
theorem handWrite_waits (set : Settings) (t : Word) (j : Journal) (h : j.claims ≠ []) :
    j.handWrite set t = { j with writes := j.writes ++ [{ value := t, behind := j.claims.length }] } := by
  unfold Journal.handWrite; simp [h]

/-- A claim taken with room writes one entry more: the outstanding entries rise by 1. -/
theorem write_outstanding (set : Settings) (now : Clock) (c : JournalClaim) (j : Journal) (h : j.outstanding < 0xFFFF) :
    (j.write set now c).outstanding = j.outstanding + 1 := by
  unfold Journal.outstanding at *
  have hw := write_written set now c j
  rw [hw.1, hw.2]
  bv_omega

/-! ## The INT line -/

/-- R171, R172. INT stands where the settings `set` put it. -/
def Journal.lineFollows (set : Settings) (j : Journal) : Prop :=
  j.int = (if set.intEnable then if set.intPulse then j.pulseEnds.isSome else decide (0 < j.outstanding) else false)
    ∧ ((set.intEnable && set.intPulse) = false → j.pulseEnds = none)

/-- In RUNNING INT obeys the settings in force. -/
@[simp] theorem lineSettings_running {s : State} (h : s.partState = .running) : s.lineSettings = s.settings := if_pos h

/-- Outside RUNNING INT is disabled. -/
@[simp] theorem lineSettings_off {s : State} (h : s.partState ≠ .running) :
    s.lineSettings = { s.settings with intEnable := false } := if_neg h

/-- A line that follows disabled settings is inactive, with no pulse. -/
theorem lineFollows_off {set : Settings} {j : Journal} (h : set.intEnable = false) :
    j.lineFollows set ↔ j.int = false ∧ j.pulseEnds = none := by
  simp [Journal.lineFollows, h]

/-- New settings put the line where they say. -/
theorem follow_line (old new : Settings) (j : Journal) (h : j.lineFollows old) : (j.follow old new).lineFollows new := by
  obtain ⟨h1, h2⟩ := h
  unfold Journal.follow
  by_cases he : new.intEnable = true <;> by_cases hp : new.intPulse = true
  · simp only [he, hp, if_true]
    split
    · next ho => exact ⟨by simp_all, fun hf => by simp [he, hp] at hf⟩
    · exact ⟨by simp [he, hp], fun _ => rfl⟩
  · simp only [he, hp, if_true]
    exact ⟨by simp only [he, hp, if_true]; rfl, fun _ => rfl⟩
  all_goals
    simp only [he]
    exact ⟨by simp [he], fun _ => rfl⟩

/-- R172. What an enabling makes of the line: asserted in LEVEL mode if entries are outstanding, and no pulse. -/
theorem follow_enabling (set : Settings) (j : Journal) :
    j.follow { set with intEnable := false } set
      = { j with int := set.intEnable && !set.intPulse && decide (j.written ≠ j.taken), pulseEnds := none } := by
  have h : decide (0 < j.outstanding) = decide (j.written ≠ j.taken) := by
    refine decide_eq_decide.2 ?_
    unfold Journal.outstanding
    constructor
    · rintro h e; rw [e] at h; simp at h
    · intro h; bv_omega
  unfold Journal.follow
  rw [h]
  by_cases he : set.intEnable = true <;> by_cases hp : set.intPulse = true <;> simp [he, hp]

/-- With the interrupt disabled no claim, taken write or waiting write moves the line. -/
theorem take_off {set : Settings} (h : set.intEnable = false) (now : Clock) (c : JournalClaim) (j : Journal) :
    (j.take set now c).int = j.int ∧ (j.take set now c).pulseEnds = j.pulseEnds := by
  have hw : ∀ (d : JournalClaim) (k : Journal), (k.write set now d).int = k.int ∧ (k.write set now d).pulseEnds = k.pulseEnds := by
    intro d k
    unfold Journal.write
    simp [h]
  unfold Journal.take
  split
  · exact ⟨rfl, rfl⟩
  · split
    · dsimp only
      split
      · exact hw _ j
      · exact ⟨(hw _ _).1.trans (hw _ j).1, (hw _ _).2.trans (hw _ j).2⟩
    · exact hw _ j

/-- A taken write leaves the line where the settings put it. -/
theorem giveBack_line (set : Settings) (t : Word) (j : Journal) (h : j.lineFollows set) : (j.giveBack set t).lineFollows set := by
  obtain ⟨h1, h2⟩ := h
  unfold Journal.giveBack
  split
  · by_cases he : set.intEnable = true <;> by_cases hp : set.intPulse = true
    · exact ⟨by simpa [he, hp] using h1, by simp [he, hp]⟩
    · simp only [he, hp]
      exact ⟨by simp only [he, hp]; rfl, fun _ => h2 (by simp [hp])⟩
    all_goals exact ⟨by simpa [he] using h1, by simpa [he] using h2⟩
  · exact ⟨h1, h2⟩

/-- The waiting writes leave it there. -/
theorem takeWrites_line (set : Settings) (j : Journal) (h : j.lineFollows set) : (j.takeWrites set).lineFollows set :=
  takeWrites_keeps (Journal.lineFollows set) set j h (fun _ _ h => h) (fun _ t h => giveBack_line set t _ h)

/-- An entry written with room leaves the line where the settings put it. -/
theorem write_line (set : Settings) (now : Clock) (c : JournalClaim) (j : Journal) (hb : j.outstanding < 128)
    (h : j.lineFollows set) : (j.write set now c).lineFollows set := by
  obtain ⟨h1, h2⟩ := h
  have ho := write_outstanding set now c j (by omega)
  unfold Journal.lineFollows
  rw [ho]
  unfold Journal.write
  by_cases he : set.intEnable = true <;> by_cases hp : set.intPulse = true
  · rcases hj : j.pulseEnds with _ | d <;> simp_all
  · simp_all
  all_goals simp_all

/-- A claim taken leaves the line where the settings put it. -/
theorem take_line (set : Settings) (now : Clock) (c : JournalClaim) (j : Journal) (h : j.lineFollows set) :
    (j.take set now c).lineFollows set := by
  have lose : ∀ k : Journal, k.lineFollows set → (k.lose now).lineFollows set := fun _ h => h
  unfold Journal.take
  split
  · exact lose j h
  · next hb =>
    have hw : ∀ d, (j.write set now d).lineFollows set := fun d => write_line set now d j (by omega) h
    split
    · dsimp only
      split
      · exact lose _ (hw _)
      · next hk => exact write_line set now c _ (by omega) (hw _)
    · exact hw c

/-- R15 step 5, R171. The journal as the part enters RUNNING. -/
theorem enterRunning_journal (s : State) : (enterRunning s).journal =
    { s.journal with
      int := s.settings.intEnable && !s.settings.intPulse && decide (s.journal.written ≠ s.journal.taken)
      pulseEnds := none } := follow_enabling ..

/-! ## The controller -/

theorem updateContacts_kept (f : State → State) (s : State) (h : Kept s (f s)) : Kept s (updateContacts f s) := by
  unfold updateContacts
  dsimp only
  split
  · exact h
  · unfold Kept at *; simpa using h

theorem takeSettings_kept (new : Settings) (s : State) : Kept s (takeSettings new s) := by
  unfold takeSettings
  dsimp only
  generalize List.finRange 4 = outs
  refine Kept.trans (updateContacts_kept _ s ?_) (Spine.kept (foldl_spine _ (fun t n => ?_) outs _))
  · unfold Kept; simp
  · split
    · exact outputClaim_spine ..
    · exact Spine.refl t

/-- The settings in force after they have been taken. -/
theorem takeSettings_settings (new : Settings) (s : State) : (takeSettings new s).settings = new := by
  unfold takeSettings
  dsimp only
  generalize List.finRange 4 = outs
  have hf := foldl_spine
    (fun (t : State) (n : Fin 4) =>
      if s.outputs[n].driven && !t.outputs[n].driven then outputClaim n false .apply t else t)
    (fun t n => by
      split
      · exact outputClaim_spine ..
      · exact Spine.refl t) outs
  have hs := fun t => (hf t).2.2.2.2.2.2.2.2.2.2.2.2.1
  rw [hs]
  unfold updateContacts
  dsimp only
  split <;> rfl

theorem putInForce_kept (new : Settings) (s : State) : Kept s (putInForce new s) := by
  have h := takeSettings_kept new s
  unfold putInForce
  unfold Kept at *
  simpa using h

theorem putInForce_settings (new : Settings) (s : State) : (putInForce new s).settings = new :=
  takeSettings_settings new s

theorem takeStartSettings_kept (read : List Host.Cell) (s : State) : Kept s (takeStartSettings read s) := by
  have h := putInForce_kept (readSettings read) s
  unfold takeStartSettings
  unfold Kept at *
  simpa using h

theorem working_kept (e : Word) (c : ResultCode) (d : Word) (f : Finish) (s : State) : Kept s (working e c d f s) := by
  unfold Kept working; simp

/-! ## The work of START -/

theorem doPiece_kept (p : StartPiece) (left : List StartPiece) (read : List Host.Cell) (w : Working) (s : State) :
    Kept s (doPiece p left read w s) := by
  have goOn : ∀ read, Kept s { s with working := some { w with finish := .starting left read } } := fun read => by
    unfold Kept; simp
  unfold doPiece
  cases p with
  | read a => exact goOn _
  | settings =>
    dsimp only
    split
    · unfold Kept; simp
    · exact (goOn read).trans (takeStartSettings_kept ..)
  | visit arm => exact (goOn read).trans (takeArm_spine ..).kept
  | lanes => exact (goOn read).trans ((releaseAtStart_spine _).trans (beginFiltering_spine _)).kept
  | started => exact (goOn read).trans (startedClaim_spine _).kept

theorem workOnce_kept (s : State) : Kept s (workOnce s) := by
  unfold workOnce
  split
  · split
    · exact doPiece_kept ..
    · exact Kept.refl s
  · exact Kept.refl s

theorem work_kept (n : Nat) (s : State) : Kept s (work n s) := by
  induction n generalizing s with
  | zero => exact Kept.refl s
  | succ n ih => exact (workOnce_kept s).trans (ih _)

theorem goOnStarting_kept (s : State) : Kept s (goOnStarting s) := by
  unfold goOnStarting
  split
  · exact Kept.trans (by unfold Kept; simp) (work_kept ..)
  · exact Kept.refl s

/-- A command other than SOFT-RESET keeps the host's words, the clock and the pins. -/
theorem takeCommand_kept (v : Word) (s : State) (h : v ≠ 4) : Kept s (takeCommand v s) := by
  have h4 : v.toNat ≠ 4 := fun e => h (by bv_omega)
  unfold takeCommand
  split
  · unfold commandStart
    split
    · exact (working_kept ..).trans (goOnStarting_kept _)
    · exact working_kept ..
  · unfold commandApply inRunning
    split
    · dsimp only
      split <;> exact working_kept ..
    · exact working_kept ..
  · exact ((clearGroups_spine s).kept.trans (clearNoted_spine _).kept).trans (working_kept ..)
  · exact absurd ‹_› h4
  · unfold commandLaneHold laneCommand inRunning
    split
    · dsimp only
      split
      · exact (holdLane_spine ..).kept.trans (working_kept ..)
      · exact working_kept ..
    · exact working_kept ..
  · unfold commandLaneRelease laneCommand inRunning
    split
    · dsimp only
      split
      · exact (releaseLane_spine ..).kept.trans (working_kept ..)
      · exact working_kept ..
    · exact working_kept ..
  · unfold commandOutputDrive inRunning
    split
    · dsimp only
      split
      · split
        · exact (driveOutput_spine ..).kept.trans (working_kept ..)
        · exact working_kept ..
      · exact working_kept ..
    · exact working_kept ..
  · unfold commandOutputRelease inRunning
    split
    · dsimp only
      split
      · exact (releaseOutput_spine ..).kept.trans (working_kept ..)
      · exact working_kept ..
    · exact working_kept ..
  · exact working_kept ..

theorem finishCommand_kept (f : Finish) (s : State) : Kept s (finishCommand f s) := by
  unfold finishCommand
  split
  · exact Kept.refl s
  · refine Kept.trans ?_ (Spine.kept (foldl_spine _ (fun s w => takeArm_spine w s) _ _))
    unfold Kept enterRunning; simp
  · exact putInForce_kept ..

theorem complete_kept (w : Working) (s : State) : Kept s (complete w s) := by
  have h := finishCommand_kept w.finish s
  unfold complete
  unfold Kept at *
  simpa using h

theorem completeCommand_kept (s : State) : Kept s (completeCommand s) := by
  unfold completeCommand
  dsimp only
  have h : Kept s (match s.startLeft with | some left => work left.length s | none => s) := by
    split
    · exact work_kept ..
    · exact Kept.refl s
  split
  · exact h.trans (complete_kept ..)
  · exact h

theorem armWritten_kept (w : ArmWord) (s : State) : Kept s (armWritten w s) := by
  unfold armWritten
  split
  · exact (takeArm_spine w s).kept
  · split
    · split
      · exact Kept.refl s
      · unfold Kept; simp
    · exact Kept.refl s

/-- What a stored write does keeps the host's words, but for SOFT-RESET and the journal taken word. -/
theorem written_mem (a : Nat) (v : Word) (s : State) : (written a v s).mem = s.mem ∧ (written a v s).pending = s.pending := by
  unfold written
  split
  · by_cases h : v = 4
    · subst h; exact ⟨rfl, rfl⟩
    · have := takeCommand_kept v s h
      exact ⟨this.2.1, this.1⟩
  · exact ⟨rfl, rfl⟩
  · split
    · have := armWritten_kept (.publication ‹_›) s
      exact ⟨this.2.1, this.1⟩
    · simp
  · split
    · have := armWritten_kept (.subscription ‹_›) s
      exact ⟨this.2.1, this.1⟩
    · simp
  · split
    · have := armWritten_kept (.rule ‹_›) s
      exact ⟨this.2.1, this.1⟩
    · simp
  · exact ⟨rfl, rfl⟩

/-- The host's words after a host write: as they were, or with the one word written. -/
theorem hostWrite_mem (a : Nat) (v : Word) (s : State) :
    (hostWrite a v s).mem = s.mem ∨ (hostWrite a v s).mem = writeWord s.mem a v := by
  unfold hostWrite
  split
  · exact Or.inl rfl
  · split
    · exact Or.inr (written_mem ..).1
    · exact Or.inl (refuseWrite_spine ..).2.2.2.2.2.2.2.2.1
    · exact Or.inl (refuseWrite_spine ..).2.2.2.2.2.2.2.2.1

/-- A host write leaves the commands waiting. -/
theorem hostWrite_pending (a : Nat) (v : Word) (s : State) : (hostWrite a v s).pending = s.pending := by
  unfold hostWrite
  split
  · rfl
  · split
    · exact (written_mem ..).2
    · exact (refuseWrite_spine ..).1
    · exact (refuseWrite_spine ..).1

end Sys2Proof.Machine
end

