-- ==== Sys2Proof/Laws/Frames.lean ====
section
/-! SUPPORT. What each shared operation leaves of the state, field by field, in terms of the operations it is built from. -/

namespace Sys2Proof.Machine

/-- A fold keeps what each of its steps keeps. -/
theorem foldl_keeps {α β : Type} (g : State → β) (f : State → α → State) (h : ∀ s x, g (f s x) = g s) (l : List α)
    (s : State) : g (l.foldl f s) = g s := by
  induction l generalizing s with
  | nil => rfl
  | cons x l ih => exact (ih (f s x)).trans (h s x)

/-! ## Counted events -/

/-- What `laneSentinel` changes: journal. -/
@[simp] theorem laneSentinel_frame (l : Lane) (c : LaneCounter) (g : LaneGroup) (t : Clock) (s : State) :
    (laneSentinel l c g t s).pending = s.pending ∧ (laneSentinel l c g t s).free = s.free
      ∧ (laneSentinel l c g t s).partState = s.partState ∧ (laneSentinel l c g t s).softReset = s.softReset
      ∧ (laneSentinel l c g t s).clock = s.clock ∧ (laneSentinel l c g t s).seconds = s.seconds
      ∧ (laneSentinel l c g t s).nextTick = s.nextTick ∧ (laneSentinel l c g t s).nextClockUpdate = s.nextClockUpdate
      ∧ (laneSentinel l c g t s).clockGroup = s.clockGroup ∧ (laneSentinel l c g t s).mem = s.mem
      ∧ (laneSentinel l c g t s).result = s.result ∧ (laneSentinel l c g t s).working = s.working
      ∧ (laneSentinel l c g t s).heldArms = s.heldArms ∧ (laneSentinel l c g t s).settings = s.settings
      ∧ (laneSentinel l c g t s).counters = s.counters ∧ (laneSentinel l c g t s).laneA = s.laneA
      ∧ (laneSentinel l c g t s).laneB = s.laneB ∧ (laneSentinel l c g t s).bays = s.bays
      ∧ (laneSentinel l c g t s).bayGroup = s.bayGroup ∧ (laneSentinel l c g t s).pins = s.pins
      ∧ (laneSentinel l c g t s).lastServed = s.lastServed ∧ (laneSentinel l c g t s).table = s.table
      ∧ (laneSentinel l c g t s).imageCounts = s.imageCounts ∧ (laneSentinel l c g t s).serial = s.serial
      ∧ (laneSentinel l c g t s).bayEpoch = s.bayEpoch ∧ (laneSentinel l c g t s).ageingDue = s.ageingDue
      ∧ (laneSentinel l c g t s).reports = s.reports ∧ (laneSentinel l c g t s).laneNotices = s.laneNotices
      ∧ (laneSentinel l c g t s).watchList = s.watchList ∧ (laneSentinel l c g t s).missNotes = s.missNotes
      ∧ (laneSentinel l c g t s).twinClaims = s.twinClaims ∧ (laneSentinel l c g t s).cleanups = s.cleanups
      ∧ (laneSentinel l c g t s).loneChanges = s.loneChanges ∧ (laneSentinel l c g t s).redundancy = s.redundancy
      ∧ (laneSentinel l c g t s).bareRoute = s.bareRoute ∧ (laneSentinel l c g t s).subs = s.subs
      ∧ (laneSentinel l c g t s).pubs = s.pubs ∧ (laneSentinel l c g t s).postTrip = s.postTrip
      ∧ (laneSentinel l c g t s).postOther = s.postOther ∧ (laneSentinel l c g t s).take = s.take
      ∧ (laneSentinel l c g t s).calendar = s.calendar ∧ (laneSentinel l c g t s).contactEdition = s.contactEdition
      ∧ (laneSentinel l c g t s).filtering = s.filtering ∧ (laneSentinel l c g t s).inputs = s.inputs
      ∧ (laneSentinel l c g t s).outputs = s.outputs ∧ (laneSentinel l c g t s).rules = s.rules
      ∧ (laneSentinel l c g t s).events = s.events := by
  unfold laneSentinel
  split <;> simp

/-- What `countLane` changes: laneA, laneB, journal. -/
@[simp] theorem countLane_frame (l : Lane) (f : LaneGroup → LaneGroup) (c : LaneCounter) (t : Clock) (s : State) :
    (countLane l f c t s).pending = s.pending ∧ (countLane l f c t s).free = s.free
      ∧ (countLane l f c t s).partState = s.partState ∧ (countLane l f c t s).softReset = s.softReset
      ∧ (countLane l f c t s).clock = s.clock ∧ (countLane l f c t s).seconds = s.seconds
      ∧ (countLane l f c t s).nextTick = s.nextTick ∧ (countLane l f c t s).nextClockUpdate = s.nextClockUpdate
      ∧ (countLane l f c t s).clockGroup = s.clockGroup ∧ (countLane l f c t s).mem = s.mem
      ∧ (countLane l f c t s).result = s.result ∧ (countLane l f c t s).working = s.working
      ∧ (countLane l f c t s).heldArms = s.heldArms ∧ (countLane l f c t s).settings = s.settings
      ∧ (countLane l f c t s).counters = s.counters ∧ (countLane l f c t s).bays = s.bays
      ∧ (countLane l f c t s).bayGroup = s.bayGroup ∧ (countLane l f c t s).pins = s.pins
      ∧ (countLane l f c t s).lastServed = s.lastServed ∧ (countLane l f c t s).table = s.table
      ∧ (countLane l f c t s).imageCounts = s.imageCounts ∧ (countLane l f c t s).serial = s.serial
      ∧ (countLane l f c t s).bayEpoch = s.bayEpoch ∧ (countLane l f c t s).ageingDue = s.ageingDue
      ∧ (countLane l f c t s).reports = s.reports ∧ (countLane l f c t s).laneNotices = s.laneNotices
      ∧ (countLane l f c t s).watchList = s.watchList ∧ (countLane l f c t s).missNotes = s.missNotes
      ∧ (countLane l f c t s).twinClaims = s.twinClaims ∧ (countLane l f c t s).cleanups = s.cleanups
      ∧ (countLane l f c t s).loneChanges = s.loneChanges ∧ (countLane l f c t s).redundancy = s.redundancy
      ∧ (countLane l f c t s).bareRoute = s.bareRoute ∧ (countLane l f c t s).subs = s.subs
      ∧ (countLane l f c t s).pubs = s.pubs ∧ (countLane l f c t s).postTrip = s.postTrip
      ∧ (countLane l f c t s).postOther = s.postOther ∧ (countLane l f c t s).take = s.take
      ∧ (countLane l f c t s).calendar = s.calendar ∧ (countLane l f c t s).contactEdition = s.contactEdition
      ∧ (countLane l f c t s).filtering = s.filtering ∧ (countLane l f c t s).inputs = s.inputs
      ∧ (countLane l f c t s).outputs = s.outputs ∧ (countLane l f c t s).rules = s.rules
      ∧ (countLane l f c t s).events = s.events := by
  unfold countLane
  simp

/-- What `baySentinel` changes: journal. -/
@[simp] theorem baySentinel_frame (p : Fin 4) (c : BayCounter) (b : BayBlock) (t : Clock) (s : State) :
    (baySentinel p c b t s).pending = s.pending ∧ (baySentinel p c b t s).free = s.free
      ∧ (baySentinel p c b t s).partState = s.partState ∧ (baySentinel p c b t s).softReset = s.softReset
      ∧ (baySentinel p c b t s).clock = s.clock ∧ (baySentinel p c b t s).seconds = s.seconds
      ∧ (baySentinel p c b t s).nextTick = s.nextTick ∧ (baySentinel p c b t s).nextClockUpdate = s.nextClockUpdate
      ∧ (baySentinel p c b t s).clockGroup = s.clockGroup ∧ (baySentinel p c b t s).mem = s.mem
      ∧ (baySentinel p c b t s).result = s.result ∧ (baySentinel p c b t s).working = s.working
      ∧ (baySentinel p c b t s).heldArms = s.heldArms ∧ (baySentinel p c b t s).settings = s.settings
      ∧ (baySentinel p c b t s).counters = s.counters ∧ (baySentinel p c b t s).laneA = s.laneA
      ∧ (baySentinel p c b t s).laneB = s.laneB ∧ (baySentinel p c b t s).bays = s.bays
      ∧ (baySentinel p c b t s).bayGroup = s.bayGroup ∧ (baySentinel p c b t s).pins = s.pins
      ∧ (baySentinel p c b t s).lastServed = s.lastServed ∧ (baySentinel p c b t s).table = s.table
      ∧ (baySentinel p c b t s).imageCounts = s.imageCounts ∧ (baySentinel p c b t s).serial = s.serial
      ∧ (baySentinel p c b t s).bayEpoch = s.bayEpoch ∧ (baySentinel p c b t s).ageingDue = s.ageingDue
      ∧ (baySentinel p c b t s).reports = s.reports ∧ (baySentinel p c b t s).laneNotices = s.laneNotices
      ∧ (baySentinel p c b t s).watchList = s.watchList ∧ (baySentinel p c b t s).missNotes = s.missNotes
      ∧ (baySentinel p c b t s).twinClaims = s.twinClaims ∧ (baySentinel p c b t s).cleanups = s.cleanups
      ∧ (baySentinel p c b t s).loneChanges = s.loneChanges ∧ (baySentinel p c b t s).redundancy = s.redundancy
      ∧ (baySentinel p c b t s).bareRoute = s.bareRoute ∧ (baySentinel p c b t s).subs = s.subs
      ∧ (baySentinel p c b t s).pubs = s.pubs ∧ (baySentinel p c b t s).postTrip = s.postTrip
      ∧ (baySentinel p c b t s).postOther = s.postOther ∧ (baySentinel p c b t s).take = s.take
      ∧ (baySentinel p c b t s).calendar = s.calendar ∧ (baySentinel p c b t s).contactEdition = s.contactEdition
      ∧ (baySentinel p c b t s).filtering = s.filtering ∧ (baySentinel p c b t s).inputs = s.inputs
      ∧ (baySentinel p c b t s).outputs = s.outputs ∧ (baySentinel p c b t s).rules = s.rules
      ∧ (baySentinel p c b t s).events = s.events := by
  unfold baySentinel
  split <;> simp

/-- What `countBay` changes: bayGroup, journal. -/
@[simp] theorem countBay_frame (p : Fin 4) (f : BayBlock → BayBlock) (c : BayCounter) (t : Clock) (s : State) :
    (countBay p f c t s).pending = s.pending ∧ (countBay p f c t s).free = s.free
      ∧ (countBay p f c t s).partState = s.partState ∧ (countBay p f c t s).softReset = s.softReset
      ∧ (countBay p f c t s).clock = s.clock ∧ (countBay p f c t s).seconds = s.seconds
      ∧ (countBay p f c t s).nextTick = s.nextTick ∧ (countBay p f c t s).nextClockUpdate = s.nextClockUpdate
      ∧ (countBay p f c t s).clockGroup = s.clockGroup ∧ (countBay p f c t s).mem = s.mem
      ∧ (countBay p f c t s).result = s.result ∧ (countBay p f c t s).working = s.working
      ∧ (countBay p f c t s).heldArms = s.heldArms ∧ (countBay p f c t s).settings = s.settings
      ∧ (countBay p f c t s).counters = s.counters ∧ (countBay p f c t s).laneA = s.laneA
      ∧ (countBay p f c t s).laneB = s.laneB ∧ (countBay p f c t s).bays = s.bays
      ∧ (countBay p f c t s).pins = s.pins ∧ (countBay p f c t s).lastServed = s.lastServed
      ∧ (countBay p f c t s).table = s.table ∧ (countBay p f c t s).imageCounts = s.imageCounts
      ∧ (countBay p f c t s).serial = s.serial ∧ (countBay p f c t s).bayEpoch = s.bayEpoch
      ∧ (countBay p f c t s).ageingDue = s.ageingDue ∧ (countBay p f c t s).reports = s.reports
      ∧ (countBay p f c t s).laneNotices = s.laneNotices ∧ (countBay p f c t s).watchList = s.watchList
      ∧ (countBay p f c t s).missNotes = s.missNotes ∧ (countBay p f c t s).twinClaims = s.twinClaims
      ∧ (countBay p f c t s).cleanups = s.cleanups ∧ (countBay p f c t s).loneChanges = s.loneChanges
      ∧ (countBay p f c t s).redundancy = s.redundancy ∧ (countBay p f c t s).bareRoute = s.bareRoute
      ∧ (countBay p f c t s).subs = s.subs ∧ (countBay p f c t s).pubs = s.pubs
      ∧ (countBay p f c t s).postTrip = s.postTrip ∧ (countBay p f c t s).postOther = s.postOther
      ∧ (countBay p f c t s).take = s.take ∧ (countBay p f c t s).calendar = s.calendar
      ∧ (countBay p f c t s).contactEdition = s.contactEdition ∧ (countBay p f c t s).filtering = s.filtering
      ∧ (countBay p f c t s).inputs = s.inputs ∧ (countBay p f c t s).outputs = s.outputs
      ∧ (countBay p f c t s).rules = s.rules ∧ (countBay p f c t s).events = s.events := by
  unfold countBay
  simp

/-- What `countEngine` changes: counters, journal. -/
@[simp] theorem countEngine_frame (k : EngineCounter) (t : Clock) (s : State) :
    (countEngine k t s).pending = s.pending ∧ (countEngine k t s).free = s.free
      ∧ (countEngine k t s).partState = s.partState ∧ (countEngine k t s).softReset = s.softReset
      ∧ (countEngine k t s).clock = s.clock ∧ (countEngine k t s).seconds = s.seconds
      ∧ (countEngine k t s).nextTick = s.nextTick ∧ (countEngine k t s).nextClockUpdate = s.nextClockUpdate
      ∧ (countEngine k t s).clockGroup = s.clockGroup ∧ (countEngine k t s).mem = s.mem
      ∧ (countEngine k t s).result = s.result ∧ (countEngine k t s).working = s.working
      ∧ (countEngine k t s).heldArms = s.heldArms ∧ (countEngine k t s).settings = s.settings
      ∧ (countEngine k t s).laneA = s.laneA ∧ (countEngine k t s).laneB = s.laneB ∧ (countEngine k t s).bays = s.bays
      ∧ (countEngine k t s).bayGroup = s.bayGroup ∧ (countEngine k t s).pins = s.pins
      ∧ (countEngine k t s).lastServed = s.lastServed ∧ (countEngine k t s).table = s.table
      ∧ (countEngine k t s).imageCounts = s.imageCounts ∧ (countEngine k t s).serial = s.serial
      ∧ (countEngine k t s).bayEpoch = s.bayEpoch ∧ (countEngine k t s).ageingDue = s.ageingDue
      ∧ (countEngine k t s).reports = s.reports ∧ (countEngine k t s).laneNotices = s.laneNotices
      ∧ (countEngine k t s).watchList = s.watchList ∧ (countEngine k t s).missNotes = s.missNotes
      ∧ (countEngine k t s).twinClaims = s.twinClaims ∧ (countEngine k t s).cleanups = s.cleanups
      ∧ (countEngine k t s).loneChanges = s.loneChanges ∧ (countEngine k t s).redundancy = s.redundancy
      ∧ (countEngine k t s).bareRoute = s.bareRoute ∧ (countEngine k t s).subs = s.subs
      ∧ (countEngine k t s).pubs = s.pubs ∧ (countEngine k t s).postTrip = s.postTrip
      ∧ (countEngine k t s).postOther = s.postOther ∧ (countEngine k t s).take = s.take
      ∧ (countEngine k t s).calendar = s.calendar ∧ (countEngine k t s).contactEdition = s.contactEdition
      ∧ (countEngine k t s).filtering = s.filtering ∧ (countEngine k t s).inputs = s.inputs
      ∧ (countEngine k t s).outputs = s.outputs ∧ (countEngine k t s).rules = s.rules
      ∧ (countEngine k t s).events = s.events := by
  unfold countEngine
  split <;> simp

/-! ## Transmit queues -/

/-- What `offerLane` changes: laneA, laneB, journal. -/
@[simp] theorem offerLane_frame (l : Lane) (r : TxRecord) (s : State) :
    (offerLane l r s).pending = s.pending ∧ (offerLane l r s).free = s.free
      ∧ (offerLane l r s).partState = s.partState ∧ (offerLane l r s).softReset = s.softReset
      ∧ (offerLane l r s).clock = s.clock ∧ (offerLane l r s).seconds = s.seconds
      ∧ (offerLane l r s).nextTick = s.nextTick ∧ (offerLane l r s).nextClockUpdate = s.nextClockUpdate
      ∧ (offerLane l r s).clockGroup = s.clockGroup ∧ (offerLane l r s).mem = s.mem
      ∧ (offerLane l r s).result = s.result ∧ (offerLane l r s).working = s.working
      ∧ (offerLane l r s).heldArms = s.heldArms ∧ (offerLane l r s).settings = s.settings
      ∧ (offerLane l r s).counters = s.counters ∧ (offerLane l r s).bays = s.bays
      ∧ (offerLane l r s).bayGroup = s.bayGroup ∧ (offerLane l r s).pins = s.pins
      ∧ (offerLane l r s).lastServed = s.lastServed ∧ (offerLane l r s).table = s.table
      ∧ (offerLane l r s).imageCounts = s.imageCounts ∧ (offerLane l r s).serial = s.serial
      ∧ (offerLane l r s).bayEpoch = s.bayEpoch ∧ (offerLane l r s).ageingDue = s.ageingDue
      ∧ (offerLane l r s).reports = s.reports ∧ (offerLane l r s).laneNotices = s.laneNotices
      ∧ (offerLane l r s).watchList = s.watchList ∧ (offerLane l r s).missNotes = s.missNotes
      ∧ (offerLane l r s).twinClaims = s.twinClaims ∧ (offerLane l r s).cleanups = s.cleanups
      ∧ (offerLane l r s).loneChanges = s.loneChanges ∧ (offerLane l r s).redundancy = s.redundancy
      ∧ (offerLane l r s).bareRoute = s.bareRoute ∧ (offerLane l r s).subs = s.subs ∧ (offerLane l r s).pubs = s.pubs
      ∧ (offerLane l r s).postTrip = s.postTrip ∧ (offerLane l r s).postOther = s.postOther
      ∧ (offerLane l r s).take = s.take ∧ (offerLane l r s).calendar = s.calendar
      ∧ (offerLane l r s).contactEdition = s.contactEdition ∧ (offerLane l r s).filtering = s.filtering
      ∧ (offerLane l r s).inputs = s.inputs ∧ (offerLane l r s).outputs = s.outputs
      ∧ (offerLane l r s).rules = s.rules ∧ (offerLane l r s).events = s.events := by
  unfold offerLane
  (repeat' split) <;> simp

/-- What `offerBay` changes: bays, bayGroup, journal. -/
@[simp] theorem offerBay_frame (p : Fin 4) (r : TxRecord) (s : State) :
    (offerBay p r s).pending = s.pending ∧ (offerBay p r s).free = s.free ∧ (offerBay p r s).partState = s.partState
      ∧ (offerBay p r s).softReset = s.softReset ∧ (offerBay p r s).clock = s.clock
      ∧ (offerBay p r s).seconds = s.seconds ∧ (offerBay p r s).nextTick = s.nextTick
      ∧ (offerBay p r s).nextClockUpdate = s.nextClockUpdate ∧ (offerBay p r s).clockGroup = s.clockGroup
      ∧ (offerBay p r s).mem = s.mem ∧ (offerBay p r s).result = s.result ∧ (offerBay p r s).working = s.working
      ∧ (offerBay p r s).heldArms = s.heldArms ∧ (offerBay p r s).settings = s.settings
      ∧ (offerBay p r s).counters = s.counters ∧ (offerBay p r s).laneA = s.laneA ∧ (offerBay p r s).laneB = s.laneB
      ∧ (offerBay p r s).pins = s.pins ∧ (offerBay p r s).lastServed = s.lastServed
      ∧ (offerBay p r s).table = s.table ∧ (offerBay p r s).imageCounts = s.imageCounts
      ∧ (offerBay p r s).serial = s.serial ∧ (offerBay p r s).bayEpoch = s.bayEpoch
      ∧ (offerBay p r s).ageingDue = s.ageingDue ∧ (offerBay p r s).reports = s.reports
      ∧ (offerBay p r s).laneNotices = s.laneNotices ∧ (offerBay p r s).watchList = s.watchList
      ∧ (offerBay p r s).missNotes = s.missNotes ∧ (offerBay p r s).twinClaims = s.twinClaims
      ∧ (offerBay p r s).cleanups = s.cleanups ∧ (offerBay p r s).loneChanges = s.loneChanges
      ∧ (offerBay p r s).redundancy = s.redundancy ∧ (offerBay p r s).bareRoute = s.bareRoute
      ∧ (offerBay p r s).subs = s.subs ∧ (offerBay p r s).pubs = s.pubs ∧ (offerBay p r s).postTrip = s.postTrip
      ∧ (offerBay p r s).postOther = s.postOther ∧ (offerBay p r s).take = s.take
      ∧ (offerBay p r s).calendar = s.calendar ∧ (offerBay p r s).contactEdition = s.contactEdition
      ∧ (offerBay p r s).filtering = s.filtering ∧ (offerBay p r s).inputs = s.inputs
      ∧ (offerBay p r s).outputs = s.outputs ∧ (offerBay p r s).rules = s.rules ∧ (offerBay p r s).events = s.events := by
  unfold offerBay
  dsimp only
  (repeat' split) <;> simp

/-- What `offerBays` changes: bays, bayGroup, journal. -/
@[simp] theorem offerBays_frame (set : PortSet) (r : TxRecord) (s : State) :
    (offerBays set r s).pending = s.pending ∧ (offerBays set r s).free = s.free
      ∧ (offerBays set r s).partState = s.partState ∧ (offerBays set r s).softReset = s.softReset
      ∧ (offerBays set r s).clock = s.clock ∧ (offerBays set r s).seconds = s.seconds
      ∧ (offerBays set r s).nextTick = s.nextTick ∧ (offerBays set r s).nextClockUpdate = s.nextClockUpdate
      ∧ (offerBays set r s).clockGroup = s.clockGroup ∧ (offerBays set r s).mem = s.mem
      ∧ (offerBays set r s).result = s.result ∧ (offerBays set r s).working = s.working
      ∧ (offerBays set r s).heldArms = s.heldArms ∧ (offerBays set r s).settings = s.settings
      ∧ (offerBays set r s).counters = s.counters ∧ (offerBays set r s).laneA = s.laneA
      ∧ (offerBays set r s).laneB = s.laneB ∧ (offerBays set r s).pins = s.pins
      ∧ (offerBays set r s).lastServed = s.lastServed ∧ (offerBays set r s).table = s.table
      ∧ (offerBays set r s).imageCounts = s.imageCounts ∧ (offerBays set r s).serial = s.serial
      ∧ (offerBays set r s).bayEpoch = s.bayEpoch ∧ (offerBays set r s).ageingDue = s.ageingDue
      ∧ (offerBays set r s).reports = s.reports ∧ (offerBays set r s).laneNotices = s.laneNotices
      ∧ (offerBays set r s).watchList = s.watchList ∧ (offerBays set r s).missNotes = s.missNotes
      ∧ (offerBays set r s).twinClaims = s.twinClaims ∧ (offerBays set r s).cleanups = s.cleanups
      ∧ (offerBays set r s).loneChanges = s.loneChanges ∧ (offerBays set r s).redundancy = s.redundancy
      ∧ (offerBays set r s).bareRoute = s.bareRoute ∧ (offerBays set r s).subs = s.subs
      ∧ (offerBays set r s).pubs = s.pubs ∧ (offerBays set r s).postTrip = s.postTrip
      ∧ (offerBays set r s).postOther = s.postOther ∧ (offerBays set r s).take = s.take
      ∧ (offerBays set r s).calendar = s.calendar ∧ (offerBays set r s).contactEdition = s.contactEdition
      ∧ (offerBays set r s).filtering = s.filtering ∧ (offerBays set r s).inputs = s.inputs
      ∧ (offerBays set r s).outputs = s.outputs ∧ (offerBays set r s).rules = s.rules
      ∧ (offerBays set r s).events = s.events := by
  unfold offerBays
  and_intros <;> (refine foldl_keeps _ _ (fun s p => ?_) _ _; split <;> simp)

/-! ## Lane Supervisor -/

/-- What `enterState` changes: laneA, laneB, counters, cleanups, laneNotices. -/
@[simp] theorem enterState_frame (l : Lane) (n : LaneState) (f : LaneGroup → LaneGroup) (s : State) :
    (enterState l n f s).pending = s.pending ∧ (enterState l n f s).free = s.free
      ∧ (enterState l n f s).partState = s.partState ∧ (enterState l n f s).softReset = s.softReset
      ∧ (enterState l n f s).clock = s.clock ∧ (enterState l n f s).seconds = s.seconds
      ∧ (enterState l n f s).nextTick = s.nextTick ∧ (enterState l n f s).nextClockUpdate = s.nextClockUpdate
      ∧ (enterState l n f s).clockGroup = s.clockGroup ∧ (enterState l n f s).mem = s.mem
      ∧ (enterState l n f s).result = s.result ∧ (enterState l n f s).working = s.working
      ∧ (enterState l n f s).heldArms = s.heldArms ∧ (enterState l n f s).settings = s.settings
      ∧ (enterState l n f s).journal = s.journal ∧ (enterState l n f s).bays = s.bays
      ∧ (enterState l n f s).bayGroup = s.bayGroup ∧ (enterState l n f s).pins = s.pins
      ∧ (enterState l n f s).lastServed = s.lastServed ∧ (enterState l n f s).table = s.table
      ∧ (enterState l n f s).imageCounts = s.imageCounts ∧ (enterState l n f s).serial = s.serial
      ∧ (enterState l n f s).bayEpoch = s.bayEpoch ∧ (enterState l n f s).ageingDue = s.ageingDue
      ∧ (enterState l n f s).reports = s.reports ∧ (enterState l n f s).watchList = s.watchList
      ∧ (enterState l n f s).missNotes = s.missNotes ∧ (enterState l n f s).twinClaims = s.twinClaims
      ∧ (enterState l n f s).loneChanges = s.loneChanges ∧ (enterState l n f s).redundancy = s.redundancy
      ∧ (enterState l n f s).bareRoute = s.bareRoute ∧ (enterState l n f s).subs = s.subs
      ∧ (enterState l n f s).pubs = s.pubs ∧ (enterState l n f s).postTrip = s.postTrip
      ∧ (enterState l n f s).postOther = s.postOther ∧ (enterState l n f s).take = s.take
      ∧ (enterState l n f s).calendar = s.calendar ∧ (enterState l n f s).contactEdition = s.contactEdition
      ∧ (enterState l n f s).filtering = s.filtering ∧ (enterState l n f s).inputs = s.inputs
      ∧ (enterState l n f s).outputs = s.outputs ∧ (enterState l n f s).rules = s.rules
      ∧ (enterState l n f s).events = s.events := by
  unfold enterState
  (repeat' split) <;> simp

/-- What `reroute` changes: bareRoute. -/
@[simp] theorem reroute_frame (l : Lane) (n : LaneState) (s : State) :
    (reroute l n s).pending = s.pending ∧ (reroute l n s).free = s.free ∧ (reroute l n s).partState = s.partState
      ∧ (reroute l n s).softReset = s.softReset ∧ (reroute l n s).clock = s.clock
      ∧ (reroute l n s).seconds = s.seconds ∧ (reroute l n s).nextTick = s.nextTick
      ∧ (reroute l n s).nextClockUpdate = s.nextClockUpdate ∧ (reroute l n s).clockGroup = s.clockGroup
      ∧ (reroute l n s).mem = s.mem ∧ (reroute l n s).result = s.result ∧ (reroute l n s).working = s.working
      ∧ (reroute l n s).heldArms = s.heldArms ∧ (reroute l n s).settings = s.settings
      ∧ (reroute l n s).counters = s.counters ∧ (reroute l n s).journal = s.journal ∧ (reroute l n s).laneA = s.laneA
      ∧ (reroute l n s).laneB = s.laneB ∧ (reroute l n s).bays = s.bays ∧ (reroute l n s).bayGroup = s.bayGroup
      ∧ (reroute l n s).pins = s.pins ∧ (reroute l n s).lastServed = s.lastServed ∧ (reroute l n s).table = s.table
      ∧ (reroute l n s).imageCounts = s.imageCounts ∧ (reroute l n s).serial = s.serial
      ∧ (reroute l n s).bayEpoch = s.bayEpoch ∧ (reroute l n s).ageingDue = s.ageingDue
      ∧ (reroute l n s).reports = s.reports ∧ (reroute l n s).laneNotices = s.laneNotices
      ∧ (reroute l n s).watchList = s.watchList ∧ (reroute l n s).missNotes = s.missNotes
      ∧ (reroute l n s).twinClaims = s.twinClaims ∧ (reroute l n s).cleanups = s.cleanups
      ∧ (reroute l n s).loneChanges = s.loneChanges ∧ (reroute l n s).redundancy = s.redundancy
      ∧ (reroute l n s).subs = s.subs ∧ (reroute l n s).pubs = s.pubs ∧ (reroute l n s).postTrip = s.postTrip
      ∧ (reroute l n s).postOther = s.postOther ∧ (reroute l n s).take = s.take
      ∧ (reroute l n s).calendar = s.calendar ∧ (reroute l n s).contactEdition = s.contactEdition
      ∧ (reroute l n s).filtering = s.filtering ∧ (reroute l n s).inputs = s.inputs
      ∧ (reroute l n s).outputs = s.outputs ∧ (reroute l n s).rules = s.rules ∧ (reroute l n s).events = s.events := by
  unfold reroute
  simp

/-- What `announce` changes: journal, events. -/
@[simp] theorem announce_frame (l : Lane) (o n : LaneState) (c : Word) (d : LaneCause) (s : State) :
    (announce l o n c d s).pending = s.pending ∧ (announce l o n c d s).free = s.free
      ∧ (announce l o n c d s).partState = s.partState ∧ (announce l o n c d s).softReset = s.softReset
      ∧ (announce l o n c d s).clock = s.clock ∧ (announce l o n c d s).seconds = s.seconds
      ∧ (announce l o n c d s).nextTick = s.nextTick ∧ (announce l o n c d s).nextClockUpdate = s.nextClockUpdate
      ∧ (announce l o n c d s).clockGroup = s.clockGroup ∧ (announce l o n c d s).mem = s.mem
      ∧ (announce l o n c d s).result = s.result ∧ (announce l o n c d s).working = s.working
      ∧ (announce l o n c d s).heldArms = s.heldArms ∧ (announce l o n c d s).settings = s.settings
      ∧ (announce l o n c d s).counters = s.counters ∧ (announce l o n c d s).laneA = s.laneA
      ∧ (announce l o n c d s).laneB = s.laneB ∧ (announce l o n c d s).bays = s.bays
      ∧ (announce l o n c d s).bayGroup = s.bayGroup ∧ (announce l o n c d s).pins = s.pins
      ∧ (announce l o n c d s).lastServed = s.lastServed ∧ (announce l o n c d s).table = s.table
      ∧ (announce l o n c d s).imageCounts = s.imageCounts ∧ (announce l o n c d s).serial = s.serial
      ∧ (announce l o n c d s).bayEpoch = s.bayEpoch ∧ (announce l o n c d s).ageingDue = s.ageingDue
      ∧ (announce l o n c d s).reports = s.reports ∧ (announce l o n c d s).laneNotices = s.laneNotices
      ∧ (announce l o n c d s).watchList = s.watchList ∧ (announce l o n c d s).missNotes = s.missNotes
      ∧ (announce l o n c d s).twinClaims = s.twinClaims ∧ (announce l o n c d s).cleanups = s.cleanups
      ∧ (announce l o n c d s).loneChanges = s.loneChanges ∧ (announce l o n c d s).redundancy = s.redundancy
      ∧ (announce l o n c d s).bareRoute = s.bareRoute ∧ (announce l o n c d s).subs = s.subs
      ∧ (announce l o n c d s).pubs = s.pubs ∧ (announce l o n c d s).postTrip = s.postTrip
      ∧ (announce l o n c d s).postOther = s.postOther ∧ (announce l o n c d s).take = s.take
      ∧ (announce l o n c d s).calendar = s.calendar ∧ (announce l o n c d s).contactEdition = s.contactEdition
      ∧ (announce l o n c d s).filtering = s.filtering ∧ (announce l o n c d s).inputs = s.inputs
      ∧ (announce l o n c d s).outputs = s.outputs ∧ (announce l o n c d s).rules = s.rules := by
  unfold announce
  simp

/-- What `deriveRedundancy` changes: redundancy, journal, events. -/
@[simp] theorem deriveRedundancy_frame (l : Lane) (s : State) :
    (deriveRedundancy l s).pending = s.pending ∧ (deriveRedundancy l s).free = s.free
      ∧ (deriveRedundancy l s).partState = s.partState ∧ (deriveRedundancy l s).softReset = s.softReset
      ∧ (deriveRedundancy l s).clock = s.clock ∧ (deriveRedundancy l s).seconds = s.seconds
      ∧ (deriveRedundancy l s).nextTick = s.nextTick ∧ (deriveRedundancy l s).nextClockUpdate = s.nextClockUpdate
      ∧ (deriveRedundancy l s).clockGroup = s.clockGroup ∧ (deriveRedundancy l s).mem = s.mem
      ∧ (deriveRedundancy l s).result = s.result ∧ (deriveRedundancy l s).working = s.working
      ∧ (deriveRedundancy l s).heldArms = s.heldArms ∧ (deriveRedundancy l s).settings = s.settings
      ∧ (deriveRedundancy l s).counters = s.counters ∧ (deriveRedundancy l s).laneA = s.laneA
      ∧ (deriveRedundancy l s).laneB = s.laneB ∧ (deriveRedundancy l s).bays = s.bays
      ∧ (deriveRedundancy l s).bayGroup = s.bayGroup ∧ (deriveRedundancy l s).pins = s.pins
      ∧ (deriveRedundancy l s).lastServed = s.lastServed ∧ (deriveRedundancy l s).table = s.table
      ∧ (deriveRedundancy l s).imageCounts = s.imageCounts ∧ (deriveRedundancy l s).serial = s.serial
      ∧ (deriveRedundancy l s).bayEpoch = s.bayEpoch ∧ (deriveRedundancy l s).ageingDue = s.ageingDue
      ∧ (deriveRedundancy l s).reports = s.reports ∧ (deriveRedundancy l s).laneNotices = s.laneNotices
      ∧ (deriveRedundancy l s).watchList = s.watchList ∧ (deriveRedundancy l s).missNotes = s.missNotes
      ∧ (deriveRedundancy l s).twinClaims = s.twinClaims ∧ (deriveRedundancy l s).cleanups = s.cleanups
      ∧ (deriveRedundancy l s).loneChanges = s.loneChanges ∧ (deriveRedundancy l s).bareRoute = s.bareRoute
      ∧ (deriveRedundancy l s).subs = s.subs ∧ (deriveRedundancy l s).pubs = s.pubs
      ∧ (deriveRedundancy l s).postTrip = s.postTrip ∧ (deriveRedundancy l s).postOther = s.postOther
      ∧ (deriveRedundancy l s).take = s.take ∧ (deriveRedundancy l s).calendar = s.calendar
      ∧ (deriveRedundancy l s).contactEdition = s.contactEdition ∧ (deriveRedundancy l s).filtering = s.filtering
      ∧ (deriveRedundancy l s).inputs = s.inputs ∧ (deriveRedundancy l s).outputs = s.outputs
      ∧ (deriveRedundancy l s).rules = s.rules := by
  unfold deriveRedundancy
  dsimp only
  split <;> simp

/-- What `moveLane` changes: laneA, laneB, counters, cleanups, laneNotices, bareRoute, redundancy, journal, events. -/
@[simp] theorem moveLane_frame (l : Lane) (n : LaneState) (c : LaneCause) (f : LaneGroup → LaneGroup) (s : State) :
    (moveLane l n c f s).pending = s.pending ∧ (moveLane l n c f s).free = s.free
      ∧ (moveLane l n c f s).partState = s.partState ∧ (moveLane l n c f s).softReset = s.softReset
      ∧ (moveLane l n c f s).clock = s.clock ∧ (moveLane l n c f s).seconds = s.seconds
      ∧ (moveLane l n c f s).nextTick = s.nextTick ∧ (moveLane l n c f s).nextClockUpdate = s.nextClockUpdate
      ∧ (moveLane l n c f s).clockGroup = s.clockGroup ∧ (moveLane l n c f s).mem = s.mem
      ∧ (moveLane l n c f s).result = s.result ∧ (moveLane l n c f s).working = s.working
      ∧ (moveLane l n c f s).heldArms = s.heldArms ∧ (moveLane l n c f s).settings = s.settings
      ∧ (moveLane l n c f s).bays = s.bays ∧ (moveLane l n c f s).bayGroup = s.bayGroup
      ∧ (moveLane l n c f s).pins = s.pins ∧ (moveLane l n c f s).lastServed = s.lastServed
      ∧ (moveLane l n c f s).table = s.table ∧ (moveLane l n c f s).imageCounts = s.imageCounts
      ∧ (moveLane l n c f s).serial = s.serial ∧ (moveLane l n c f s).bayEpoch = s.bayEpoch
      ∧ (moveLane l n c f s).ageingDue = s.ageingDue ∧ (moveLane l n c f s).reports = s.reports
      ∧ (moveLane l n c f s).watchList = s.watchList ∧ (moveLane l n c f s).missNotes = s.missNotes
      ∧ (moveLane l n c f s).twinClaims = s.twinClaims ∧ (moveLane l n c f s).loneChanges = s.loneChanges
      ∧ (moveLane l n c f s).subs = s.subs ∧ (moveLane l n c f s).pubs = s.pubs
      ∧ (moveLane l n c f s).postTrip = s.postTrip ∧ (moveLane l n c f s).postOther = s.postOther
      ∧ (moveLane l n c f s).take = s.take ∧ (moveLane l n c f s).calendar = s.calendar
      ∧ (moveLane l n c f s).contactEdition = s.contactEdition ∧ (moveLane l n c f s).filtering = s.filtering
      ∧ (moveLane l n c f s).inputs = s.inputs ∧ (moveLane l n c f s).outputs = s.outputs
      ∧ (moveLane l n c f s).rules = s.rules := by
  unfold moveLane
  simp

/-! ## Twin Watch -/

/-- What `setWatch` changes: watchList, counters. -/
@[simp] theorem setWatch_frame (w : List WatchEntry) (f : Counters → Counters) (s : State) :
    (setWatch w f s).pending = s.pending ∧ (setWatch w f s).free = s.free ∧ (setWatch w f s).partState = s.partState
      ∧ (setWatch w f s).softReset = s.softReset ∧ (setWatch w f s).clock = s.clock
      ∧ (setWatch w f s).seconds = s.seconds ∧ (setWatch w f s).nextTick = s.nextTick
      ∧ (setWatch w f s).nextClockUpdate = s.nextClockUpdate ∧ (setWatch w f s).clockGroup = s.clockGroup
      ∧ (setWatch w f s).mem = s.mem ∧ (setWatch w f s).result = s.result ∧ (setWatch w f s).working = s.working
      ∧ (setWatch w f s).heldArms = s.heldArms ∧ (setWatch w f s).settings = s.settings
      ∧ (setWatch w f s).journal = s.journal ∧ (setWatch w f s).laneA = s.laneA ∧ (setWatch w f s).laneB = s.laneB
      ∧ (setWatch w f s).bays = s.bays ∧ (setWatch w f s).bayGroup = s.bayGroup ∧ (setWatch w f s).pins = s.pins
      ∧ (setWatch w f s).lastServed = s.lastServed ∧ (setWatch w f s).table = s.table
      ∧ (setWatch w f s).imageCounts = s.imageCounts ∧ (setWatch w f s).serial = s.serial
      ∧ (setWatch w f s).bayEpoch = s.bayEpoch ∧ (setWatch w f s).ageingDue = s.ageingDue
      ∧ (setWatch w f s).reports = s.reports ∧ (setWatch w f s).laneNotices = s.laneNotices
      ∧ (setWatch w f s).missNotes = s.missNotes ∧ (setWatch w f s).twinClaims = s.twinClaims
      ∧ (setWatch w f s).cleanups = s.cleanups ∧ (setWatch w f s).loneChanges = s.loneChanges
      ∧ (setWatch w f s).redundancy = s.redundancy ∧ (setWatch w f s).bareRoute = s.bareRoute
      ∧ (setWatch w f s).subs = s.subs ∧ (setWatch w f s).pubs = s.pubs ∧ (setWatch w f s).postTrip = s.postTrip
      ∧ (setWatch w f s).postOther = s.postOther ∧ (setWatch w f s).take = s.take
      ∧ (setWatch w f s).calendar = s.calendar ∧ (setWatch w f s).contactEdition = s.contactEdition
      ∧ (setWatch w f s).filtering = s.filtering ∧ (setWatch w f s).inputs = s.inputs
      ∧ (setWatch w f s).outputs = s.outputs ∧ (setWatch w f s).rules = s.rules ∧ (setWatch w f s).events = s.events := by
  unfold setWatch
  simp

/-- What `dropWatches` changes: watchList, counters, missNotes. -/
@[simp] theorem dropWatches_frame (e : WatchEntry → Bool) (n : MissNote → Bool) (s : State) :
    (dropWatches e n s).pending = s.pending ∧ (dropWatches e n s).free = s.free
      ∧ (dropWatches e n s).partState = s.partState ∧ (dropWatches e n s).softReset = s.softReset
      ∧ (dropWatches e n s).clock = s.clock ∧ (dropWatches e n s).seconds = s.seconds
      ∧ (dropWatches e n s).nextTick = s.nextTick ∧ (dropWatches e n s).nextClockUpdate = s.nextClockUpdate
      ∧ (dropWatches e n s).clockGroup = s.clockGroup ∧ (dropWatches e n s).mem = s.mem
      ∧ (dropWatches e n s).result = s.result ∧ (dropWatches e n s).working = s.working
      ∧ (dropWatches e n s).heldArms = s.heldArms ∧ (dropWatches e n s).settings = s.settings
      ∧ (dropWatches e n s).journal = s.journal ∧ (dropWatches e n s).laneA = s.laneA
      ∧ (dropWatches e n s).laneB = s.laneB ∧ (dropWatches e n s).bays = s.bays
      ∧ (dropWatches e n s).bayGroup = s.bayGroup ∧ (dropWatches e n s).pins = s.pins
      ∧ (dropWatches e n s).lastServed = s.lastServed ∧ (dropWatches e n s).table = s.table
      ∧ (dropWatches e n s).imageCounts = s.imageCounts ∧ (dropWatches e n s).serial = s.serial
      ∧ (dropWatches e n s).bayEpoch = s.bayEpoch ∧ (dropWatches e n s).ageingDue = s.ageingDue
      ∧ (dropWatches e n s).reports = s.reports ∧ (dropWatches e n s).laneNotices = s.laneNotices
      ∧ (dropWatches e n s).twinClaims = s.twinClaims ∧ (dropWatches e n s).cleanups = s.cleanups
      ∧ (dropWatches e n s).loneChanges = s.loneChanges ∧ (dropWatches e n s).redundancy = s.redundancy
      ∧ (dropWatches e n s).bareRoute = s.bareRoute ∧ (dropWatches e n s).subs = s.subs
      ∧ (dropWatches e n s).pubs = s.pubs ∧ (dropWatches e n s).postTrip = s.postTrip
      ∧ (dropWatches e n s).postOther = s.postOther ∧ (dropWatches e n s).take = s.take
      ∧ (dropWatches e n s).calendar = s.calendar ∧ (dropWatches e n s).contactEdition = s.contactEdition
      ∧ (dropWatches e n s).filtering = s.filtering ∧ (dropWatches e n s).inputs = s.inputs
      ∧ (dropWatches e n s).outputs = s.outputs ∧ (dropWatches e n s).rules = s.rules
      ∧ (dropWatches e n s).events = s.events := by
  unfold dropWatches
  simp

/-! ## Delivery -/

/-- What `flagClaim` changes: journal. -/
@[simp] theorem flagClaim_frame (k : Fin 64) (m : Option MarkedBy) (b : Bool) (s : State) :
    (flagClaim k m b s).pending = s.pending ∧ (flagClaim k m b s).free = s.free
      ∧ (flagClaim k m b s).partState = s.partState ∧ (flagClaim k m b s).softReset = s.softReset
      ∧ (flagClaim k m b s).clock = s.clock ∧ (flagClaim k m b s).seconds = s.seconds
      ∧ (flagClaim k m b s).nextTick = s.nextTick ∧ (flagClaim k m b s).nextClockUpdate = s.nextClockUpdate
      ∧ (flagClaim k m b s).clockGroup = s.clockGroup ∧ (flagClaim k m b s).mem = s.mem
      ∧ (flagClaim k m b s).result = s.result ∧ (flagClaim k m b s).working = s.working
      ∧ (flagClaim k m b s).heldArms = s.heldArms ∧ (flagClaim k m b s).settings = s.settings
      ∧ (flagClaim k m b s).counters = s.counters ∧ (flagClaim k m b s).laneA = s.laneA
      ∧ (flagClaim k m b s).laneB = s.laneB ∧ (flagClaim k m b s).bays = s.bays
      ∧ (flagClaim k m b s).bayGroup = s.bayGroup ∧ (flagClaim k m b s).pins = s.pins
      ∧ (flagClaim k m b s).lastServed = s.lastServed ∧ (flagClaim k m b s).table = s.table
      ∧ (flagClaim k m b s).imageCounts = s.imageCounts ∧ (flagClaim k m b s).serial = s.serial
      ∧ (flagClaim k m b s).bayEpoch = s.bayEpoch ∧ (flagClaim k m b s).ageingDue = s.ageingDue
      ∧ (flagClaim k m b s).reports = s.reports ∧ (flagClaim k m b s).laneNotices = s.laneNotices
      ∧ (flagClaim k m b s).watchList = s.watchList ∧ (flagClaim k m b s).missNotes = s.missNotes
      ∧ (flagClaim k m b s).twinClaims = s.twinClaims ∧ (flagClaim k m b s).cleanups = s.cleanups
      ∧ (flagClaim k m b s).loneChanges = s.loneChanges ∧ (flagClaim k m b s).redundancy = s.redundancy
      ∧ (flagClaim k m b s).bareRoute = s.bareRoute ∧ (flagClaim k m b s).subs = s.subs
      ∧ (flagClaim k m b s).pubs = s.pubs ∧ (flagClaim k m b s).postTrip = s.postTrip
      ∧ (flagClaim k m b s).postOther = s.postOther ∧ (flagClaim k m b s).take = s.take
      ∧ (flagClaim k m b s).calendar = s.calendar ∧ (flagClaim k m b s).contactEdition = s.contactEdition
      ∧ (flagClaim k m b s).filtering = s.filtering ∧ (flagClaim k m b s).inputs = s.inputs
      ∧ (flagClaim k m b s).outputs = s.outputs ∧ (flagClaim k m b s).rules = s.rules
      ∧ (flagClaim k m b s).events = s.events := by
  unfold flagClaim
  split <;> simp

/-- What `writeView` changes: subs. -/
@[simp] theorem writeView_frame (k : Fin 64) (d : DueView) (s : State) :
    (writeView k d s).pending = s.pending ∧ (writeView k d s).free = s.free ∧ (writeView k d s).partState = s.partState
      ∧ (writeView k d s).softReset = s.softReset ∧ (writeView k d s).clock = s.clock
      ∧ (writeView k d s).seconds = s.seconds ∧ (writeView k d s).nextTick = s.nextTick
      ∧ (writeView k d s).nextClockUpdate = s.nextClockUpdate ∧ (writeView k d s).clockGroup = s.clockGroup
      ∧ (writeView k d s).mem = s.mem ∧ (writeView k d s).result = s.result ∧ (writeView k d s).working = s.working
      ∧ (writeView k d s).heldArms = s.heldArms ∧ (writeView k d s).settings = s.settings
      ∧ (writeView k d s).counters = s.counters ∧ (writeView k d s).journal = s.journal
      ∧ (writeView k d s).laneA = s.laneA
      ∧ (writeView k d s).laneB = s.laneB ∧ (writeView k d s).bays = s.bays ∧ (writeView k d s).bayGroup = s.bayGroup
      ∧ (writeView k d s).pins = s.pins ∧ (writeView k d s).lastServed = s.lastServed
      ∧ (writeView k d s).table = s.table
      ∧ (writeView k d s).imageCounts = s.imageCounts ∧ (writeView k d s).serial = s.serial
      ∧ (writeView k d s).bayEpoch = s.bayEpoch ∧ (writeView k d s).ageingDue = s.ageingDue
      ∧ (writeView k d s).reports = s.reports ∧ (writeView k d s).laneNotices = s.laneNotices
      ∧ (writeView k d s).watchList = s.watchList ∧ (writeView k d s).missNotes = s.missNotes
      ∧ (writeView k d s).twinClaims = s.twinClaims ∧ (writeView k d s).cleanups = s.cleanups
      ∧ (writeView k d s).loneChanges = s.loneChanges ∧ (writeView k d s).redundancy = s.redundancy
      ∧ (writeView k d s).bareRoute = s.bareRoute ∧ (writeView k d s).pubs = s.pubs
      ∧ (writeView k d s).postTrip = s.postTrip ∧ (writeView k d s).postOther = s.postOther
      ∧ (writeView k d s).take = s.take ∧ (writeView k d s).calendar = s.calendar
      ∧ (writeView k d s).contactEdition = s.contactEdition ∧ (writeView k d s).filtering = s.filtering
      ∧ (writeView k d s).inputs = s.inputs ∧ (writeView k d s).outputs = s.outputs ∧ (writeView k d s).rules = s.rules
      ∧ (writeView k d s).events = s.events := by
  unfold writeView
  simp

/-- What `engineView` changes: subs. -/
@[simp] theorem engineView_frame (k : Fin 64) (b : Bool) (s : State) :
    (engineView k b s).pending = s.pending ∧ (engineView k b s).free = s.free
      ∧ (engineView k b s).partState = s.partState ∧ (engineView k b s).softReset = s.softReset
      ∧ (engineView k b s).clock = s.clock ∧ (engineView k b s).seconds = s.seconds
      ∧ (engineView k b s).nextTick = s.nextTick ∧ (engineView k b s).nextClockUpdate = s.nextClockUpdate
      ∧ (engineView k b s).clockGroup = s.clockGroup ∧ (engineView k b s).mem = s.mem
      ∧ (engineView k b s).result = s.result ∧ (engineView k b s).working = s.working
      ∧ (engineView k b s).heldArms = s.heldArms ∧ (engineView k b s).settings = s.settings
      ∧ (engineView k b s).counters = s.counters ∧ (engineView k b s).journal = s.journal
      ∧ (engineView k b s).laneA = s.laneA ∧ (engineView k b s).laneB = s.laneB ∧ (engineView k b s).bays = s.bays
      ∧ (engineView k b s).bayGroup = s.bayGroup ∧ (engineView k b s).pins = s.pins
      ∧ (engineView k b s).lastServed = s.lastServed ∧ (engineView k b s).table = s.table
      ∧ (engineView k b s).imageCounts = s.imageCounts ∧ (engineView k b s).serial = s.serial
      ∧ (engineView k b s).bayEpoch = s.bayEpoch ∧ (engineView k b s).ageingDue = s.ageingDue
      ∧ (engineView k b s).reports = s.reports ∧ (engineView k b s).laneNotices = s.laneNotices
      ∧ (engineView k b s).watchList = s.watchList ∧ (engineView k b s).missNotes = s.missNotes
      ∧ (engineView k b s).twinClaims = s.twinClaims ∧ (engineView k b s).cleanups = s.cleanups
      ∧ (engineView k b s).loneChanges = s.loneChanges ∧ (engineView k b s).redundancy = s.redundancy
      ∧ (engineView k b s).bareRoute = s.bareRoute ∧ (engineView k b s).pubs = s.pubs
      ∧ (engineView k b s).postTrip = s.postTrip ∧ (engineView k b s).postOther = s.postOther
      ∧ (engineView k b s).take = s.take ∧ (engineView k b s).calendar = s.calendar
      ∧ (engineView k b s).contactEdition = s.contactEdition ∧ (engineView k b s).filtering = s.filtering
      ∧ (engineView k b s).inputs = s.inputs ∧ (engineView k b s).outputs = s.outputs
      ∧ (engineView k b s).rules = s.rules ∧ (engineView k b s).events = s.events := by
  unfold engineView
  dsimp only
  (repeat' split) <;> simp

/-- What `beginDelivery` changes: subs. -/
@[simp] theorem beginDelivery_frame (k : Fin 64) (c : Copy) (s : State) :
    (beginDelivery k c s).pending = s.pending ∧ (beginDelivery k c s).free = s.free
      ∧ (beginDelivery k c s).partState = s.partState ∧ (beginDelivery k c s).softReset = s.softReset
      ∧ (beginDelivery k c s).clock = s.clock ∧ (beginDelivery k c s).seconds = s.seconds
      ∧ (beginDelivery k c s).nextTick = s.nextTick ∧ (beginDelivery k c s).nextClockUpdate = s.nextClockUpdate
      ∧ (beginDelivery k c s).clockGroup = s.clockGroup ∧ (beginDelivery k c s).mem = s.mem
      ∧ (beginDelivery k c s).result = s.result ∧ (beginDelivery k c s).working = s.working
      ∧ (beginDelivery k c s).heldArms = s.heldArms ∧ (beginDelivery k c s).settings = s.settings
      ∧ (beginDelivery k c s).counters = s.counters ∧ (beginDelivery k c s).journal = s.journal
      ∧ (beginDelivery k c s).laneA = s.laneA ∧ (beginDelivery k c s).laneB = s.laneB
      ∧ (beginDelivery k c s).bays = s.bays ∧ (beginDelivery k c s).bayGroup = s.bayGroup
      ∧ (beginDelivery k c s).pins = s.pins ∧ (beginDelivery k c s).lastServed = s.lastServed
      ∧ (beginDelivery k c s).table = s.table ∧ (beginDelivery k c s).imageCounts = s.imageCounts
      ∧ (beginDelivery k c s).serial = s.serial ∧ (beginDelivery k c s).bayEpoch = s.bayEpoch
      ∧ (beginDelivery k c s).ageingDue = s.ageingDue ∧ (beginDelivery k c s).reports = s.reports
      ∧ (beginDelivery k c s).laneNotices = s.laneNotices ∧ (beginDelivery k c s).watchList = s.watchList
      ∧ (beginDelivery k c s).missNotes = s.missNotes ∧ (beginDelivery k c s).twinClaims = s.twinClaims
      ∧ (beginDelivery k c s).cleanups = s.cleanups ∧ (beginDelivery k c s).loneChanges = s.loneChanges
      ∧ (beginDelivery k c s).redundancy = s.redundancy ∧ (beginDelivery k c s).bareRoute = s.bareRoute
      ∧ (beginDelivery k c s).pubs = s.pubs ∧ (beginDelivery k c s).postTrip = s.postTrip
      ∧ (beginDelivery k c s).postOther = s.postOther ∧ (beginDelivery k c s).take = s.take
      ∧ (beginDelivery k c s).calendar = s.calendar ∧ (beginDelivery k c s).contactEdition = s.contactEdition
      ∧ (beginDelivery k c s).filtering = s.filtering ∧ (beginDelivery k c s).inputs = s.inputs
      ∧ (beginDelivery k c s).outputs = s.outputs ∧ (beginDelivery k c s).rules = s.rules
      ∧ (beginDelivery k c s).events = s.events := by
  unfold beginDelivery
  simp

/-- What `placeCopy` changes: subs. -/
@[simp] theorem placeCopy_frame (k : Fin 64) (c : Copy) (s : State) :
    (placeCopy k c s).pending = s.pending ∧ (placeCopy k c s).free = s.free
      ∧ (placeCopy k c s).partState = s.partState ∧ (placeCopy k c s).softReset = s.softReset
      ∧ (placeCopy k c s).clock = s.clock ∧ (placeCopy k c s).seconds = s.seconds
      ∧ (placeCopy k c s).nextTick = s.nextTick ∧ (placeCopy k c s).nextClockUpdate = s.nextClockUpdate
      ∧ (placeCopy k c s).clockGroup = s.clockGroup ∧ (placeCopy k c s).mem = s.mem
      ∧ (placeCopy k c s).result = s.result ∧ (placeCopy k c s).working = s.working
      ∧ (placeCopy k c s).heldArms = s.heldArms ∧ (placeCopy k c s).settings = s.settings
      ∧ (placeCopy k c s).counters = s.counters ∧ (placeCopy k c s).journal = s.journal
      ∧ (placeCopy k c s).laneA = s.laneA ∧ (placeCopy k c s).laneB = s.laneB ∧ (placeCopy k c s).bays = s.bays
      ∧ (placeCopy k c s).bayGroup = s.bayGroup ∧ (placeCopy k c s).pins = s.pins
      ∧ (placeCopy k c s).lastServed = s.lastServed ∧ (placeCopy k c s).table = s.table
      ∧ (placeCopy k c s).imageCounts = s.imageCounts ∧ (placeCopy k c s).serial = s.serial
      ∧ (placeCopy k c s).bayEpoch = s.bayEpoch ∧ (placeCopy k c s).ageingDue = s.ageingDue
      ∧ (placeCopy k c s).reports = s.reports ∧ (placeCopy k c s).laneNotices = s.laneNotices
      ∧ (placeCopy k c s).watchList = s.watchList ∧ (placeCopy k c s).missNotes = s.missNotes
      ∧ (placeCopy k c s).twinClaims = s.twinClaims ∧ (placeCopy k c s).cleanups = s.cleanups
      ∧ (placeCopy k c s).loneChanges = s.loneChanges ∧ (placeCopy k c s).redundancy = s.redundancy
      ∧ (placeCopy k c s).bareRoute = s.bareRoute ∧ (placeCopy k c s).pubs = s.pubs
      ∧ (placeCopy k c s).postTrip = s.postTrip ∧ (placeCopy k c s).postOther = s.postOther
      ∧ (placeCopy k c s).take = s.take ∧ (placeCopy k c s).calendar = s.calendar
      ∧ (placeCopy k c s).contactEdition = s.contactEdition ∧ (placeCopy k c s).filtering = s.filtering
      ∧ (placeCopy k c s).inputs = s.inputs ∧ (placeCopy k c s).outputs = s.outputs
      ∧ (placeCopy k c s).rules = s.rules ∧ (placeCopy k c s).events = s.events := by
  unfold placeCopy
  split <;> simp

/-- What `showFlag` changes: subs, journal. -/
@[simp] theorem showFlag_frame (k : Fin 64) (s : State) :
    (showFlag k s).pending = s.pending ∧ (showFlag k s).free = s.free ∧ (showFlag k s).partState = s.partState
      ∧ (showFlag k s).softReset = s.softReset ∧ (showFlag k s).clock = s.clock ∧ (showFlag k s).seconds = s.seconds
      ∧ (showFlag k s).nextTick = s.nextTick ∧ (showFlag k s).nextClockUpdate = s.nextClockUpdate
      ∧ (showFlag k s).clockGroup = s.clockGroup ∧ (showFlag k s).mem = s.mem ∧ (showFlag k s).result = s.result
      ∧ (showFlag k s).working = s.working ∧ (showFlag k s).heldArms = s.heldArms
      ∧ (showFlag k s).settings = s.settings ∧ (showFlag k s).counters = s.counters ∧ (showFlag k s).laneA = s.laneA
      ∧ (showFlag k s).laneB = s.laneB ∧ (showFlag k s).bays = s.bays ∧ (showFlag k s).bayGroup = s.bayGroup
      ∧ (showFlag k s).pins = s.pins ∧ (showFlag k s).lastServed = s.lastServed ∧ (showFlag k s).table = s.table
      ∧ (showFlag k s).imageCounts = s.imageCounts ∧ (showFlag k s).serial = s.serial
      ∧ (showFlag k s).bayEpoch = s.bayEpoch ∧ (showFlag k s).ageingDue = s.ageingDue
      ∧ (showFlag k s).reports = s.reports ∧ (showFlag k s).laneNotices = s.laneNotices
      ∧ (showFlag k s).watchList = s.watchList ∧ (showFlag k s).missNotes = s.missNotes
      ∧ (showFlag k s).twinClaims = s.twinClaims ∧ (showFlag k s).cleanups = s.cleanups
      ∧ (showFlag k s).loneChanges = s.loneChanges ∧ (showFlag k s).redundancy = s.redundancy
      ∧ (showFlag k s).bareRoute = s.bareRoute ∧ (showFlag k s).pubs = s.pubs ∧ (showFlag k s).postTrip = s.postTrip
      ∧ (showFlag k s).postOther = s.postOther ∧ (showFlag k s).take = s.take ∧ (showFlag k s).calendar = s.calendar
      ∧ (showFlag k s).contactEdition = s.contactEdition ∧ (showFlag k s).filtering = s.filtering
      ∧ (showFlag k s).inputs = s.inputs ∧ (showFlag k s).outputs = s.outputs ∧ (showFlag k s).rules = s.rules
      ∧ (showFlag k s).events = s.events := by
  unfold showFlag
  dsimp only
  split <;> simp

/-- What `handCopy` changes: subs, journal. -/
@[simp] theorem handCopy_frame (k : Fin 64) (c : Copy) (s : State) :
    (handCopy k c s).pending = s.pending ∧ (handCopy k c s).free = s.free ∧ (handCopy k c s).partState = s.partState
      ∧ (handCopy k c s).softReset = s.softReset ∧ (handCopy k c s).clock = s.clock
      ∧ (handCopy k c s).seconds = s.seconds ∧ (handCopy k c s).nextTick = s.nextTick
      ∧ (handCopy k c s).nextClockUpdate = s.nextClockUpdate ∧ (handCopy k c s).clockGroup = s.clockGroup
      ∧ (handCopy k c s).mem = s.mem ∧ (handCopy k c s).result = s.result ∧ (handCopy k c s).working = s.working
      ∧ (handCopy k c s).heldArms = s.heldArms ∧ (handCopy k c s).settings = s.settings
      ∧ (handCopy k c s).counters = s.counters ∧ (handCopy k c s).laneA = s.laneA ∧ (handCopy k c s).laneB = s.laneB
      ∧ (handCopy k c s).bays = s.bays ∧ (handCopy k c s).bayGroup = s.bayGroup ∧ (handCopy k c s).pins = s.pins
      ∧ (handCopy k c s).lastServed = s.lastServed ∧ (handCopy k c s).table = s.table
      ∧ (handCopy k c s).imageCounts = s.imageCounts ∧ (handCopy k c s).serial = s.serial
      ∧ (handCopy k c s).bayEpoch = s.bayEpoch ∧ (handCopy k c s).ageingDue = s.ageingDue
      ∧ (handCopy k c s).reports = s.reports ∧ (handCopy k c s).laneNotices = s.laneNotices
      ∧ (handCopy k c s).watchList = s.watchList ∧ (handCopy k c s).missNotes = s.missNotes
      ∧ (handCopy k c s).twinClaims = s.twinClaims ∧ (handCopy k c s).cleanups = s.cleanups
      ∧ (handCopy k c s).loneChanges = s.loneChanges ∧ (handCopy k c s).redundancy = s.redundancy
      ∧ (handCopy k c s).bareRoute = s.bareRoute ∧ (handCopy k c s).pubs = s.pubs
      ∧ (handCopy k c s).postTrip = s.postTrip ∧ (handCopy k c s).postOther = s.postOther
      ∧ (handCopy k c s).take = s.take ∧ (handCopy k c s).calendar = s.calendar
      ∧ (handCopy k c s).contactEdition = s.contactEdition ∧ (handCopy k c s).filtering = s.filtering
      ∧ (handCopy k c s).inputs = s.inputs ∧ (handCopy k c s).outputs = s.outputs ∧ (handCopy k c s).rules = s.rules
      ∧ (handCopy k c s).events = s.events := by
  unfold handCopy
  dsimp only
  (repeat' split) <;> simp

/-- What `deliver` changes: subs, journal. -/
@[simp] theorem deliver_frame (e : Entry) (c : Copy) (s : State) :
    (deliver e c s).pending = s.pending ∧ (deliver e c s).free = s.free ∧ (deliver e c s).partState = s.partState
      ∧ (deliver e c s).softReset = s.softReset ∧ (deliver e c s).clock = s.clock
      ∧ (deliver e c s).seconds = s.seconds ∧ (deliver e c s).nextTick = s.nextTick
      ∧ (deliver e c s).nextClockUpdate = s.nextClockUpdate ∧ (deliver e c s).clockGroup = s.clockGroup
      ∧ (deliver e c s).mem = s.mem ∧ (deliver e c s).result = s.result ∧ (deliver e c s).working = s.working
      ∧ (deliver e c s).heldArms = s.heldArms ∧ (deliver e c s).settings = s.settings
      ∧ (deliver e c s).counters = s.counters ∧ (deliver e c s).laneA = s.laneA ∧ (deliver e c s).laneB = s.laneB
      ∧ (deliver e c s).bays = s.bays ∧ (deliver e c s).bayGroup = s.bayGroup ∧ (deliver e c s).pins = s.pins
      ∧ (deliver e c s).lastServed = s.lastServed ∧ (deliver e c s).table = s.table
      ∧ (deliver e c s).imageCounts = s.imageCounts ∧ (deliver e c s).serial = s.serial
      ∧ (deliver e c s).bayEpoch = s.bayEpoch ∧ (deliver e c s).ageingDue = s.ageingDue
      ∧ (deliver e c s).reports = s.reports ∧ (deliver e c s).laneNotices = s.laneNotices
      ∧ (deliver e c s).watchList = s.watchList ∧ (deliver e c s).missNotes = s.missNotes
      ∧ (deliver e c s).twinClaims = s.twinClaims ∧ (deliver e c s).cleanups = s.cleanups
      ∧ (deliver e c s).loneChanges = s.loneChanges ∧ (deliver e c s).redundancy = s.redundancy
      ∧ (deliver e c s).bareRoute = s.bareRoute ∧ (deliver e c s).pubs = s.pubs
      ∧ (deliver e c s).postTrip = s.postTrip ∧ (deliver e c s).postOther = s.postOther
      ∧ (deliver e c s).take = s.take ∧ (deliver e c s).calendar = s.calendar
      ∧ (deliver e c s).contactEdition = s.contactEdition ∧ (deliver e c s).filtering = s.filtering
      ∧ (deliver e c s).inputs = s.inputs ∧ (deliver e c s).outputs = s.outputs ∧ (deliver e c s).rules = s.rules
      ∧ (deliver e c s).events = s.events := by
  unfold deliver
  split <;> simp

/-- What `applyOutcome` changes: subs, journal. -/
@[simp] theorem applyOutcome_frame (k : Fin 64) (o : SlotOutcome) (s : State) :
    (applyOutcome k o s).pending = s.pending ∧ (applyOutcome k o s).free = s.free
      ∧ (applyOutcome k o s).partState = s.partState ∧ (applyOutcome k o s).softReset = s.softReset
      ∧ (applyOutcome k o s).clock = s.clock ∧ (applyOutcome k o s).seconds = s.seconds
      ∧ (applyOutcome k o s).nextTick = s.nextTick ∧ (applyOutcome k o s).nextClockUpdate = s.nextClockUpdate
      ∧ (applyOutcome k o s).clockGroup = s.clockGroup ∧ (applyOutcome k o s).mem = s.mem
      ∧ (applyOutcome k o s).result = s.result ∧ (applyOutcome k o s).working = s.working
      ∧ (applyOutcome k o s).heldArms = s.heldArms ∧ (applyOutcome k o s).settings = s.settings
      ∧ (applyOutcome k o s).counters = s.counters ∧ (applyOutcome k o s).laneA = s.laneA
      ∧ (applyOutcome k o s).laneB = s.laneB ∧ (applyOutcome k o s).bays = s.bays
      ∧ (applyOutcome k o s).bayGroup = s.bayGroup ∧ (applyOutcome k o s).pins = s.pins
      ∧ (applyOutcome k o s).lastServed = s.lastServed ∧ (applyOutcome k o s).table = s.table
      ∧ (applyOutcome k o s).imageCounts = s.imageCounts ∧ (applyOutcome k o s).serial = s.serial
      ∧ (applyOutcome k o s).bayEpoch = s.bayEpoch ∧ (applyOutcome k o s).ageingDue = s.ageingDue
      ∧ (applyOutcome k o s).reports = s.reports ∧ (applyOutcome k o s).laneNotices = s.laneNotices
      ∧ (applyOutcome k o s).watchList = s.watchList ∧ (applyOutcome k o s).missNotes = s.missNotes
      ∧ (applyOutcome k o s).twinClaims = s.twinClaims ∧ (applyOutcome k o s).cleanups = s.cleanups
      ∧ (applyOutcome k o s).loneChanges = s.loneChanges ∧ (applyOutcome k o s).redundancy = s.redundancy
      ∧ (applyOutcome k o s).bareRoute = s.bareRoute ∧ (applyOutcome k o s).pubs = s.pubs
      ∧ (applyOutcome k o s).postTrip = s.postTrip ∧ (applyOutcome k o s).postOther = s.postOther
      ∧ (applyOutcome k o s).take = s.take ∧ (applyOutcome k o s).calendar = s.calendar
      ∧ (applyOutcome k o s).contactEdition = s.contactEdition ∧ (applyOutcome k o s).filtering = s.filtering
      ∧ (applyOutcome k o s).inputs = s.inputs ∧ (applyOutcome k o s).outputs = s.outputs
      ∧ (applyOutcome k o s).rules = s.rules ∧ (applyOutcome k o s).events = s.events := by
  unfold applyOutcome
  (repeat' split) <;> simp

/-- What `giveOutcome` changes: subs, journal. -/
@[simp] theorem giveOutcome_frame (k : Fin 64) (o : SlotOutcome) (s : State) :
    (giveOutcome k o s).pending = s.pending ∧ (giveOutcome k o s).free = s.free
      ∧ (giveOutcome k o s).partState = s.partState ∧ (giveOutcome k o s).softReset = s.softReset
      ∧ (giveOutcome k o s).clock = s.clock ∧ (giveOutcome k o s).seconds = s.seconds
      ∧ (giveOutcome k o s).nextTick = s.nextTick ∧ (giveOutcome k o s).nextClockUpdate = s.nextClockUpdate
      ∧ (giveOutcome k o s).clockGroup = s.clockGroup ∧ (giveOutcome k o s).mem = s.mem
      ∧ (giveOutcome k o s).result = s.result ∧ (giveOutcome k o s).working = s.working
      ∧ (giveOutcome k o s).heldArms = s.heldArms ∧ (giveOutcome k o s).settings = s.settings
      ∧ (giveOutcome k o s).counters = s.counters ∧ (giveOutcome k o s).laneA = s.laneA
      ∧ (giveOutcome k o s).laneB = s.laneB ∧ (giveOutcome k o s).bays = s.bays
      ∧ (giveOutcome k o s).bayGroup = s.bayGroup ∧ (giveOutcome k o s).pins = s.pins
      ∧ (giveOutcome k o s).lastServed = s.lastServed ∧ (giveOutcome k o s).table = s.table
      ∧ (giveOutcome k o s).imageCounts = s.imageCounts ∧ (giveOutcome k o s).serial = s.serial
      ∧ (giveOutcome k o s).bayEpoch = s.bayEpoch ∧ (giveOutcome k o s).ageingDue = s.ageingDue
      ∧ (giveOutcome k o s).reports = s.reports ∧ (giveOutcome k o s).laneNotices = s.laneNotices
      ∧ (giveOutcome k o s).watchList = s.watchList ∧ (giveOutcome k o s).missNotes = s.missNotes
      ∧ (giveOutcome k o s).twinClaims = s.twinClaims ∧ (giveOutcome k o s).cleanups = s.cleanups
      ∧ (giveOutcome k o s).loneChanges = s.loneChanges ∧ (giveOutcome k o s).redundancy = s.redundancy
      ∧ (giveOutcome k o s).bareRoute = s.bareRoute ∧ (giveOutcome k o s).pubs = s.pubs
      ∧ (giveOutcome k o s).postTrip = s.postTrip ∧ (giveOutcome k o s).postOther = s.postOther
      ∧ (giveOutcome k o s).take = s.take ∧ (giveOutcome k o s).calendar = s.calendar
      ∧ (giveOutcome k o s).contactEdition = s.contactEdition ∧ (giveOutcome k o s).filtering = s.filtering
      ∧ (giveOutcome k o s).inputs = s.inputs ∧ (giveOutcome k o s).outputs = s.outputs
      ∧ (giveOutcome k o s).rules = s.rules ∧ (giveOutcome k o s).events = s.events := by
  unfold giveOutcome
  split <;> simp

/-- What `detachDelivery` changes: subs. -/
@[simp] theorem detachDelivery_frame (k : Fin 64) (s : State) :
    (detachDelivery k s).pending = s.pending ∧ (detachDelivery k s).free = s.free
      ∧ (detachDelivery k s).partState = s.partState ∧ (detachDelivery k s).softReset = s.softReset
      ∧ (detachDelivery k s).clock = s.clock ∧ (detachDelivery k s).seconds = s.seconds
      ∧ (detachDelivery k s).nextTick = s.nextTick ∧ (detachDelivery k s).nextClockUpdate = s.nextClockUpdate
      ∧ (detachDelivery k s).clockGroup = s.clockGroup ∧ (detachDelivery k s).mem = s.mem
      ∧ (detachDelivery k s).result = s.result ∧ (detachDelivery k s).working = s.working
      ∧ (detachDelivery k s).heldArms = s.heldArms ∧ (detachDelivery k s).settings = s.settings
      ∧ (detachDelivery k s).counters = s.counters ∧ (detachDelivery k s).journal = s.journal
      ∧ (detachDelivery k s).laneA = s.laneA ∧ (detachDelivery k s).laneB = s.laneB
      ∧ (detachDelivery k s).bays = s.bays ∧ (detachDelivery k s).bayGroup = s.bayGroup
      ∧ (detachDelivery k s).pins = s.pins ∧ (detachDelivery k s).lastServed = s.lastServed
      ∧ (detachDelivery k s).table = s.table ∧ (detachDelivery k s).imageCounts = s.imageCounts
      ∧ (detachDelivery k s).serial = s.serial ∧ (detachDelivery k s).bayEpoch = s.bayEpoch
      ∧ (detachDelivery k s).ageingDue = s.ageingDue ∧ (detachDelivery k s).reports = s.reports
      ∧ (detachDelivery k s).laneNotices = s.laneNotices ∧ (detachDelivery k s).watchList = s.watchList
      ∧ (detachDelivery k s).missNotes = s.missNotes ∧ (detachDelivery k s).twinClaims = s.twinClaims
      ∧ (detachDelivery k s).cleanups = s.cleanups ∧ (detachDelivery k s).loneChanges = s.loneChanges
      ∧ (detachDelivery k s).redundancy = s.redundancy ∧ (detachDelivery k s).bareRoute = s.bareRoute
      ∧ (detachDelivery k s).pubs = s.pubs ∧ (detachDelivery k s).postTrip = s.postTrip
      ∧ (detachDelivery k s).postOther = s.postOther ∧ (detachDelivery k s).take = s.take
      ∧ (detachDelivery k s).calendar = s.calendar ∧ (detachDelivery k s).contactEdition = s.contactEdition
      ∧ (detachDelivery k s).filtering = s.filtering ∧ (detachDelivery k s).inputs = s.inputs
      ∧ (detachDelivery k s).outputs = s.outputs ∧ (detachDelivery k s).rules = s.rules
      ∧ (detachDelivery k s).events = s.events := by
  unfold detachDelivery
  simp

/-- What `armDelivery` changes: subs, journal. -/
@[simp] theorem armDelivery_frame (k : Fin 64) (c : SlotConfig) (s : State) :
    (armDelivery k c s).pending = s.pending ∧ (armDelivery k c s).free = s.free
      ∧ (armDelivery k c s).partState = s.partState ∧ (armDelivery k c s).softReset = s.softReset
      ∧ (armDelivery k c s).clock = s.clock ∧ (armDelivery k c s).seconds = s.seconds
      ∧ (armDelivery k c s).nextTick = s.nextTick ∧ (armDelivery k c s).nextClockUpdate = s.nextClockUpdate
      ∧ (armDelivery k c s).clockGroup = s.clockGroup ∧ (armDelivery k c s).mem = s.mem
      ∧ (armDelivery k c s).result = s.result ∧ (armDelivery k c s).working = s.working
      ∧ (armDelivery k c s).heldArms = s.heldArms ∧ (armDelivery k c s).settings = s.settings
      ∧ (armDelivery k c s).counters = s.counters ∧ (armDelivery k c s).laneA = s.laneA
      ∧ (armDelivery k c s).laneB = s.laneB ∧ (armDelivery k c s).bays = s.bays
      ∧ (armDelivery k c s).bayGroup = s.bayGroup ∧ (armDelivery k c s).pins = s.pins
      ∧ (armDelivery k c s).lastServed = s.lastServed ∧ (armDelivery k c s).table = s.table
      ∧ (armDelivery k c s).imageCounts = s.imageCounts ∧ (armDelivery k c s).serial = s.serial
      ∧ (armDelivery k c s).bayEpoch = s.bayEpoch ∧ (armDelivery k c s).ageingDue = s.ageingDue
      ∧ (armDelivery k c s).reports = s.reports ∧ (armDelivery k c s).laneNotices = s.laneNotices
      ∧ (armDelivery k c s).watchList = s.watchList ∧ (armDelivery k c s).missNotes = s.missNotes
      ∧ (armDelivery k c s).twinClaims = s.twinClaims ∧ (armDelivery k c s).cleanups = s.cleanups
      ∧ (armDelivery k c s).loneChanges = s.loneChanges ∧ (armDelivery k c s).redundancy = s.redundancy
      ∧ (armDelivery k c s).bareRoute = s.bareRoute ∧ (armDelivery k c s).pubs = s.pubs
      ∧ (armDelivery k c s).postTrip = s.postTrip ∧ (armDelivery k c s).postOther = s.postOther
      ∧ (armDelivery k c s).take = s.take ∧ (armDelivery k c s).calendar = s.calendar
      ∧ (armDelivery k c s).contactEdition = s.contactEdition ∧ (armDelivery k c s).filtering = s.filtering
      ∧ (armDelivery k c s).inputs = s.inputs ∧ (armDelivery k c s).outputs = s.outputs
      ∧ (armDelivery k c s).rules = s.rules ∧ (armDelivery k c s).events = s.events := by
  unfold armDelivery
  simp

/-- What `disarmDelivery` changes: subs, journal. -/
@[simp] theorem disarmDelivery_frame (k : Fin 64) (s : State) :
    (disarmDelivery k s).pending = s.pending ∧ (disarmDelivery k s).free = s.free
      ∧ (disarmDelivery k s).partState = s.partState ∧ (disarmDelivery k s).softReset = s.softReset
      ∧ (disarmDelivery k s).clock = s.clock ∧ (disarmDelivery k s).seconds = s.seconds
      ∧ (disarmDelivery k s).nextTick = s.nextTick ∧ (disarmDelivery k s).nextClockUpdate = s.nextClockUpdate
      ∧ (disarmDelivery k s).clockGroup = s.clockGroup ∧ (disarmDelivery k s).mem = s.mem
      ∧ (disarmDelivery k s).result = s.result ∧ (disarmDelivery k s).working = s.working
      ∧ (disarmDelivery k s).heldArms = s.heldArms ∧ (disarmDelivery k s).settings = s.settings
      ∧ (disarmDelivery k s).counters = s.counters ∧ (disarmDelivery k s).laneA = s.laneA
      ∧ (disarmDelivery k s).laneB = s.laneB ∧ (disarmDelivery k s).bays = s.bays
      ∧ (disarmDelivery k s).bayGroup = s.bayGroup ∧ (disarmDelivery k s).pins = s.pins
      ∧ (disarmDelivery k s).lastServed = s.lastServed ∧ (disarmDelivery k s).table = s.table
      ∧ (disarmDelivery k s).imageCounts = s.imageCounts ∧ (disarmDelivery k s).serial = s.serial
      ∧ (disarmDelivery k s).bayEpoch = s.bayEpoch ∧ (disarmDelivery k s).ageingDue = s.ageingDue
      ∧ (disarmDelivery k s).reports = s.reports ∧ (disarmDelivery k s).laneNotices = s.laneNotices
      ∧ (disarmDelivery k s).watchList = s.watchList ∧ (disarmDelivery k s).missNotes = s.missNotes
      ∧ (disarmDelivery k s).twinClaims = s.twinClaims ∧ (disarmDelivery k s).cleanups = s.cleanups
      ∧ (disarmDelivery k s).loneChanges = s.loneChanges ∧ (disarmDelivery k s).redundancy = s.redundancy
      ∧ (disarmDelivery k s).bareRoute = s.bareRoute ∧ (disarmDelivery k s).pubs = s.pubs
      ∧ (disarmDelivery k s).postTrip = s.postTrip ∧ (disarmDelivery k s).postOther = s.postOther
      ∧ (disarmDelivery k s).take = s.take ∧ (disarmDelivery k s).calendar = s.calendar
      ∧ (disarmDelivery k s).contactEdition = s.contactEdition ∧ (disarmDelivery k s).filtering = s.filtering
      ∧ (disarmDelivery k s).inputs = s.inputs ∧ (disarmDelivery k s).outputs = s.outputs
      ∧ (disarmDelivery k s).rules = s.rules ∧ (disarmDelivery k s).events = s.events := by
  unfold disarmDelivery
  simp

/-- What `refuseDelivery` changes: subs, journal. -/
@[simp] theorem refuseDelivery_frame (k : Fin 64) (r : Reason) (i d : Word) (s : State) :
    (refuseDelivery k r i d s).pending = s.pending ∧ (refuseDelivery k r i d s).free = s.free
      ∧ (refuseDelivery k r i d s).partState = s.partState ∧ (refuseDelivery k r i d s).softReset = s.softReset
      ∧ (refuseDelivery k r i d s).clock = s.clock ∧ (refuseDelivery k r i d s).seconds = s.seconds
      ∧ (refuseDelivery k r i d s).nextTick = s.nextTick
      ∧ (refuseDelivery k r i d s).nextClockUpdate = s.nextClockUpdate
      ∧ (refuseDelivery k r i d s).clockGroup = s.clockGroup ∧ (refuseDelivery k r i d s).mem = s.mem
      ∧ (refuseDelivery k r i d s).result = s.result ∧ (refuseDelivery k r i d s).working = s.working
      ∧ (refuseDelivery k r i d s).heldArms = s.heldArms ∧ (refuseDelivery k r i d s).settings = s.settings
      ∧ (refuseDelivery k r i d s).counters = s.counters ∧ (refuseDelivery k r i d s).laneA = s.laneA
      ∧ (refuseDelivery k r i d s).laneB = s.laneB ∧ (refuseDelivery k r i d s).bays = s.bays
      ∧ (refuseDelivery k r i d s).bayGroup = s.bayGroup ∧ (refuseDelivery k r i d s).pins = s.pins
      ∧ (refuseDelivery k r i d s).lastServed = s.lastServed ∧ (refuseDelivery k r i d s).table = s.table
      ∧ (refuseDelivery k r i d s).imageCounts = s.imageCounts ∧ (refuseDelivery k r i d s).serial = s.serial
      ∧ (refuseDelivery k r i d s).bayEpoch = s.bayEpoch ∧ (refuseDelivery k r i d s).ageingDue = s.ageingDue
      ∧ (refuseDelivery k r i d s).reports = s.reports ∧ (refuseDelivery k r i d s).laneNotices = s.laneNotices
      ∧ (refuseDelivery k r i d s).watchList = s.watchList ∧ (refuseDelivery k r i d s).missNotes = s.missNotes
      ∧ (refuseDelivery k r i d s).twinClaims = s.twinClaims ∧ (refuseDelivery k r i d s).cleanups = s.cleanups
      ∧ (refuseDelivery k r i d s).loneChanges = s.loneChanges ∧ (refuseDelivery k r i d s).redundancy = s.redundancy
      ∧ (refuseDelivery k r i d s).bareRoute = s.bareRoute ∧ (refuseDelivery k r i d s).pubs = s.pubs
      ∧ (refuseDelivery k r i d s).postTrip = s.postTrip ∧ (refuseDelivery k r i d s).postOther = s.postOther
      ∧ (refuseDelivery k r i d s).take = s.take ∧ (refuseDelivery k r i d s).calendar = s.calendar
      ∧ (refuseDelivery k r i d s).contactEdition = s.contactEdition
      ∧ (refuseDelivery k r i d s).filtering = s.filtering ∧ (refuseDelivery k r i d s).inputs = s.inputs
      ∧ (refuseDelivery k r i d s).outputs = s.outputs ∧ (refuseDelivery k r i d s).rules = s.rules
      ∧ (refuseDelivery k r i d s).events = s.events := by
  unfold refuseDelivery
  simp

/-! ## The stream table -/

/-- What `makeEntry` changes: table, serial. -/
@[simp] theorem makeEntry_frame (p : Fin 512) (e : Entry) (s : State) :
    (makeEntry p e s).pending = s.pending ∧ (makeEntry p e s).free = s.free
      ∧ (makeEntry p e s).partState = s.partState ∧ (makeEntry p e s).softReset = s.softReset
      ∧ (makeEntry p e s).clock = s.clock ∧ (makeEntry p e s).seconds = s.seconds
      ∧ (makeEntry p e s).nextTick = s.nextTick ∧ (makeEntry p e s).nextClockUpdate = s.nextClockUpdate
      ∧ (makeEntry p e s).clockGroup = s.clockGroup ∧ (makeEntry p e s).mem = s.mem
      ∧ (makeEntry p e s).result = s.result ∧ (makeEntry p e s).working = s.working
      ∧ (makeEntry p e s).heldArms = s.heldArms ∧ (makeEntry p e s).settings = s.settings
      ∧ (makeEntry p e s).counters = s.counters ∧ (makeEntry p e s).journal = s.journal
      ∧ (makeEntry p e s).laneA = s.laneA ∧ (makeEntry p e s).laneB = s.laneB ∧ (makeEntry p e s).bays = s.bays
      ∧ (makeEntry p e s).bayGroup = s.bayGroup ∧ (makeEntry p e s).pins = s.pins
      ∧ (makeEntry p e s).lastServed = s.lastServed ∧ (makeEntry p e s).imageCounts = s.imageCounts
      ∧ (makeEntry p e s).bayEpoch = s.bayEpoch ∧ (makeEntry p e s).ageingDue = s.ageingDue
      ∧ (makeEntry p e s).reports = s.reports ∧ (makeEntry p e s).laneNotices = s.laneNotices
      ∧ (makeEntry p e s).watchList = s.watchList ∧ (makeEntry p e s).missNotes = s.missNotes
      ∧ (makeEntry p e s).twinClaims = s.twinClaims ∧ (makeEntry p e s).cleanups = s.cleanups
      ∧ (makeEntry p e s).loneChanges = s.loneChanges ∧ (makeEntry p e s).redundancy = s.redundancy
      ∧ (makeEntry p e s).bareRoute = s.bareRoute ∧ (makeEntry p e s).subs = s.subs ∧ (makeEntry p e s).pubs = s.pubs
      ∧ (makeEntry p e s).postTrip = s.postTrip ∧ (makeEntry p e s).postOther = s.postOther
      ∧ (makeEntry p e s).take = s.take ∧ (makeEntry p e s).calendar = s.calendar
      ∧ (makeEntry p e s).contactEdition = s.contactEdition ∧ (makeEntry p e s).filtering = s.filtering
      ∧ (makeEntry p e s).inputs = s.inputs ∧ (makeEntry p e s).outputs = s.outputs
      ∧ (makeEntry p e s).rules = s.rules ∧ (makeEntry p e s).events = s.events := by
  unfold makeEntry
  simp

/-- R43. One update of a record image, counted. -/
@[simp] theorem raiseImage_imageCounts (p : Fin 512) (s : State) :
    (raiseImage p s).imageCounts = modifyAt s.imageCounts p (· + 1) := rfl

/-- What `removeEntry` changes: table, twinClaims, loneChanges, ageingDue, imageCounts. -/
@[simp] theorem removeEntry_frame (p : Fin 512) (s : State) :
    (removeEntry p s).pending = s.pending ∧ (removeEntry p s).free = s.free
      ∧ (removeEntry p s).partState = s.partState ∧ (removeEntry p s).softReset = s.softReset
      ∧ (removeEntry p s).clock = s.clock ∧ (removeEntry p s).seconds = s.seconds
      ∧ (removeEntry p s).nextTick = s.nextTick ∧ (removeEntry p s).nextClockUpdate = s.nextClockUpdate
      ∧ (removeEntry p s).clockGroup = s.clockGroup ∧ (removeEntry p s).mem = s.mem
      ∧ (removeEntry p s).result = s.result ∧ (removeEntry p s).working = s.working
      ∧ (removeEntry p s).heldArms = s.heldArms ∧ (removeEntry p s).settings = s.settings
      ∧ (removeEntry p s).counters = s.counters ∧ (removeEntry p s).journal = s.journal
      ∧ (removeEntry p s).laneA = s.laneA ∧ (removeEntry p s).laneB = s.laneB ∧ (removeEntry p s).bays = s.bays
      ∧ (removeEntry p s).bayGroup = s.bayGroup ∧ (removeEntry p s).pins = s.pins
      ∧ (removeEntry p s).lastServed = s.lastServed
      ∧ (removeEntry p s).serial = s.serial ∧ (removeEntry p s).bayEpoch = s.bayEpoch
      ∧ (removeEntry p s).reports = s.reports ∧ (removeEntry p s).laneNotices = s.laneNotices
      ∧ (removeEntry p s).watchList = s.watchList ∧ (removeEntry p s).missNotes = s.missNotes
      ∧ (removeEntry p s).cleanups = s.cleanups ∧ (removeEntry p s).redundancy = s.redundancy
      ∧ (removeEntry p s).bareRoute = s.bareRoute ∧ (removeEntry p s).subs = s.subs ∧ (removeEntry p s).pubs = s.pubs
      ∧ (removeEntry p s).postTrip = s.postTrip ∧ (removeEntry p s).postOther = s.postOther
      ∧ (removeEntry p s).take = s.take ∧ (removeEntry p s).calendar = s.calendar
      ∧ (removeEntry p s).contactEdition = s.contactEdition ∧ (removeEntry p s).filtering = s.filtering
      ∧ (removeEntry p s).inputs = s.inputs ∧ (removeEntry p s).outputs = s.outputs
      ∧ (removeEntry p s).rules = s.rules ∧ (removeEntry p s).events = s.events := by
  unfold removeEntry raiseImage
  split <;> simp

/-- What `makeRoom` changes: table, twinClaims, loneChanges, ageingDue, imageCounts. -/
@[simp] theorem makeRoom_frame (s : State) :
    (makeRoom s).pending = s.pending ∧ (makeRoom s).free = s.free ∧ (makeRoom s).partState = s.partState
      ∧ (makeRoom s).softReset = s.softReset ∧ (makeRoom s).clock = s.clock ∧ (makeRoom s).seconds = s.seconds
      ∧ (makeRoom s).nextTick = s.nextTick ∧ (makeRoom s).nextClockUpdate = s.nextClockUpdate
      ∧ (makeRoom s).clockGroup = s.clockGroup ∧ (makeRoom s).mem = s.mem ∧ (makeRoom s).result = s.result
      ∧ (makeRoom s).working = s.working ∧ (makeRoom s).heldArms = s.heldArms ∧ (makeRoom s).settings = s.settings
      ∧ (makeRoom s).counters = s.counters ∧ (makeRoom s).journal = s.journal ∧ (makeRoom s).laneA = s.laneA
      ∧ (makeRoom s).laneB = s.laneB ∧ (makeRoom s).bays = s.bays ∧ (makeRoom s).bayGroup = s.bayGroup
      ∧ (makeRoom s).pins = s.pins ∧ (makeRoom s).lastServed = s.lastServed
      ∧ (makeRoom s).serial = s.serial
      ∧ (makeRoom s).bayEpoch = s.bayEpoch ∧ (makeRoom s).reports = s.reports
      ∧ (makeRoom s).laneNotices = s.laneNotices ∧ (makeRoom s).watchList = s.watchList
      ∧ (makeRoom s).missNotes = s.missNotes ∧ (makeRoom s).cleanups = s.cleanups
      ∧ (makeRoom s).redundancy = s.redundancy ∧ (makeRoom s).bareRoute = s.bareRoute ∧ (makeRoom s).subs = s.subs
      ∧ (makeRoom s).pubs = s.pubs ∧ (makeRoom s).postTrip = s.postTrip ∧ (makeRoom s).postOther = s.postOther
      ∧ (makeRoom s).take = s.take ∧ (makeRoom s).calendar = s.calendar
      ∧ (makeRoom s).contactEdition = s.contactEdition ∧ (makeRoom s).filtering = s.filtering
      ∧ (makeRoom s).inputs = s.inputs ∧ (makeRoom s).outputs = s.outputs ∧ (makeRoom s).rules = s.rules
      ∧ (makeRoom s).events = s.events := by
  unfold makeRoom
  (repeat' split) <;> simp

/-- What `expireAge` changes: table, twinClaims, loneChanges, ageingDue, imageCounts. -/
@[simp] theorem expireAge_frame (p : Fin 512) (s : State) :
    (expireAge p s).pending = s.pending ∧ (expireAge p s).free = s.free ∧ (expireAge p s).partState = s.partState
      ∧ (expireAge p s).softReset = s.softReset ∧ (expireAge p s).clock = s.clock
      ∧ (expireAge p s).seconds = s.seconds ∧ (expireAge p s).nextTick = s.nextTick
      ∧ (expireAge p s).nextClockUpdate = s.nextClockUpdate ∧ (expireAge p s).clockGroup = s.clockGroup
      ∧ (expireAge p s).mem = s.mem ∧ (expireAge p s).result = s.result ∧ (expireAge p s).working = s.working
      ∧ (expireAge p s).heldArms = s.heldArms ∧ (expireAge p s).settings = s.settings
      ∧ (expireAge p s).counters = s.counters ∧ (expireAge p s).journal = s.journal ∧ (expireAge p s).laneA = s.laneA
      ∧ (expireAge p s).laneB = s.laneB ∧ (expireAge p s).bays = s.bays ∧ (expireAge p s).bayGroup = s.bayGroup
      ∧ (expireAge p s).pins = s.pins ∧ (expireAge p s).lastServed = s.lastServed ∧ (expireAge p s).serial = s.serial
      ∧ (expireAge p s).bayEpoch = s.bayEpoch ∧ (expireAge p s).reports = s.reports
      ∧ (expireAge p s).laneNotices = s.laneNotices ∧ (expireAge p s).watchList = s.watchList
      ∧ (expireAge p s).missNotes = s.missNotes ∧ (expireAge p s).cleanups = s.cleanups
      ∧ (expireAge p s).redundancy = s.redundancy ∧ (expireAge p s).bareRoute = s.bareRoute
      ∧ (expireAge p s).subs = s.subs ∧ (expireAge p s).pubs = s.pubs ∧ (expireAge p s).postTrip = s.postTrip
      ∧ (expireAge p s).postOther = s.postOther ∧ (expireAge p s).take = s.take
      ∧ (expireAge p s).calendar = s.calendar ∧ (expireAge p s).contactEdition = s.contactEdition
      ∧ (expireAge p s).filtering = s.filtering ∧ (expireAge p s).inputs = s.inputs
      ∧ (expireAge p s).outputs = s.outputs ∧ (expireAge p s).rules = s.rules ∧ (expireAge p s).events = s.events := by
  unfold expireAge
  split <;> simp

/-- What `settleAgeing` changes: table, twinClaims, loneChanges, ageingDue, imageCounts. -/
@[simp] theorem settleAgeing_frame (s : State) :
    (settleAgeing s).pending = s.pending ∧ (settleAgeing s).free = s.free ∧ (settleAgeing s).partState = s.partState
      ∧ (settleAgeing s).softReset = s.softReset ∧ (settleAgeing s).clock = s.clock
      ∧ (settleAgeing s).seconds = s.seconds ∧ (settleAgeing s).nextTick = s.nextTick
      ∧ (settleAgeing s).nextClockUpdate = s.nextClockUpdate ∧ (settleAgeing s).clockGroup = s.clockGroup
      ∧ (settleAgeing s).mem = s.mem ∧ (settleAgeing s).result = s.result ∧ (settleAgeing s).working = s.working
      ∧ (settleAgeing s).heldArms = s.heldArms ∧ (settleAgeing s).settings = s.settings
      ∧ (settleAgeing s).counters = s.counters ∧ (settleAgeing s).journal = s.journal
      ∧ (settleAgeing s).laneA = s.laneA ∧ (settleAgeing s).laneB = s.laneB ∧ (settleAgeing s).bays = s.bays
      ∧ (settleAgeing s).bayGroup = s.bayGroup ∧ (settleAgeing s).pins = s.pins
      ∧ (settleAgeing s).lastServed = s.lastServed ∧ (settleAgeing s).serial = s.serial
      ∧ (settleAgeing s).bayEpoch = s.bayEpoch ∧ (settleAgeing s).reports = s.reports
      ∧ (settleAgeing s).laneNotices = s.laneNotices ∧ (settleAgeing s).watchList = s.watchList
      ∧ (settleAgeing s).missNotes = s.missNotes ∧ (settleAgeing s).cleanups = s.cleanups
      ∧ (settleAgeing s).redundancy = s.redundancy ∧ (settleAgeing s).bareRoute = s.bareRoute
      ∧ (settleAgeing s).subs = s.subs ∧ (settleAgeing s).pubs = s.pubs ∧ (settleAgeing s).postTrip = s.postTrip
      ∧ (settleAgeing s).postOther = s.postOther ∧ (settleAgeing s).take = s.take
      ∧ (settleAgeing s).calendar = s.calendar ∧ (settleAgeing s).contactEdition = s.contactEdition
      ∧ (settleAgeing s).filtering = s.filtering ∧ (settleAgeing s).inputs = s.inputs
      ∧ (settleAgeing s).outputs = s.outputs ∧ (settleAgeing s).rules = s.rules ∧ (settleAgeing s).events = s.events := by
  unfold settleAgeing
  and_intros <;> (refine foldl_keeps _ _ (fun s p => ?_) _ _; simp)

/-- What `detachEntry` changes: table, twinClaims, loneChanges, ageingDue, imageCounts. -/
@[simp] theorem detachEntry_frame (k : Fin 64) (s : State) :
    (detachEntry k s).pending = s.pending ∧ (detachEntry k s).free = s.free
      ∧ (detachEntry k s).partState = s.partState ∧ (detachEntry k s).softReset = s.softReset
      ∧ (detachEntry k s).clock = s.clock ∧ (detachEntry k s).seconds = s.seconds
      ∧ (detachEntry k s).nextTick = s.nextTick ∧ (detachEntry k s).nextClockUpdate = s.nextClockUpdate
      ∧ (detachEntry k s).clockGroup = s.clockGroup ∧ (detachEntry k s).mem = s.mem
      ∧ (detachEntry k s).result = s.result ∧ (detachEntry k s).working = s.working
      ∧ (detachEntry k s).heldArms = s.heldArms ∧ (detachEntry k s).settings = s.settings
      ∧ (detachEntry k s).counters = s.counters ∧ (detachEntry k s).journal = s.journal
      ∧ (detachEntry k s).laneA = s.laneA ∧ (detachEntry k s).laneB = s.laneB ∧ (detachEntry k s).bays = s.bays
      ∧ (detachEntry k s).bayGroup = s.bayGroup ∧ (detachEntry k s).pins = s.pins
      ∧ (detachEntry k s).lastServed = s.lastServed
      ∧ (detachEntry k s).serial = s.serial ∧ (detachEntry k s).bayEpoch = s.bayEpoch
      ∧ (detachEntry k s).reports = s.reports ∧ (detachEntry k s).laneNotices = s.laneNotices
      ∧ (detachEntry k s).watchList = s.watchList ∧ (detachEntry k s).missNotes = s.missNotes
      ∧ (detachEntry k s).cleanups = s.cleanups ∧ (detachEntry k s).redundancy = s.redundancy
      ∧ (detachEntry k s).bareRoute = s.bareRoute ∧ (detachEntry k s).subs = s.subs ∧ (detachEntry k s).pubs = s.pubs
      ∧ (detachEntry k s).postTrip = s.postTrip ∧ (detachEntry k s).postOther = s.postOther
      ∧ (detachEntry k s).take = s.take ∧ (detachEntry k s).calendar = s.calendar
      ∧ (detachEntry k s).contactEdition = s.contactEdition ∧ (detachEntry k s).filtering = s.filtering
      ∧ (detachEntry k s).inputs = s.inputs ∧ (detachEntry k s).outputs = s.outputs
      ∧ (detachEntry k s).rules = s.rules ∧ (detachEntry k s).events = s.events := by
  unfold detachEntry
  (repeat' split) <;> simp

/-- What `removeHostEntry` changes: table, twinClaims, loneChanges, ageingDue, imageCounts. -/
@[simp] theorem removeHostEntry_frame (k : Fin 32) (s : State) :
    (removeHostEntry k s).pending = s.pending ∧ (removeHostEntry k s).free = s.free
      ∧ (removeHostEntry k s).partState = s.partState ∧ (removeHostEntry k s).softReset = s.softReset
      ∧ (removeHostEntry k s).clock = s.clock ∧ (removeHostEntry k s).seconds = s.seconds
      ∧ (removeHostEntry k s).nextTick = s.nextTick ∧ (removeHostEntry k s).nextClockUpdate = s.nextClockUpdate
      ∧ (removeHostEntry k s).clockGroup = s.clockGroup ∧ (removeHostEntry k s).mem = s.mem
      ∧ (removeHostEntry k s).result = s.result ∧ (removeHostEntry k s).working = s.working
      ∧ (removeHostEntry k s).heldArms = s.heldArms ∧ (removeHostEntry k s).settings = s.settings
      ∧ (removeHostEntry k s).counters = s.counters ∧ (removeHostEntry k s).journal = s.journal
      ∧ (removeHostEntry k s).laneA = s.laneA ∧ (removeHostEntry k s).laneB = s.laneB
      ∧ (removeHostEntry k s).bays = s.bays ∧ (removeHostEntry k s).bayGroup = s.bayGroup
      ∧ (removeHostEntry k s).pins = s.pins ∧ (removeHostEntry k s).lastServed = s.lastServed
      ∧ (removeHostEntry k s).serial = s.serial
      ∧ (removeHostEntry k s).bayEpoch = s.bayEpoch ∧ (removeHostEntry k s).reports = s.reports
      ∧ (removeHostEntry k s).laneNotices = s.laneNotices ∧ (removeHostEntry k s).watchList = s.watchList
      ∧ (removeHostEntry k s).missNotes = s.missNotes ∧ (removeHostEntry k s).cleanups = s.cleanups
      ∧ (removeHostEntry k s).redundancy = s.redundancy ∧ (removeHostEntry k s).bareRoute = s.bareRoute
      ∧ (removeHostEntry k s).subs = s.subs ∧ (removeHostEntry k s).pubs = s.pubs
      ∧ (removeHostEntry k s).postTrip = s.postTrip ∧ (removeHostEntry k s).postOther = s.postOther
      ∧ (removeHostEntry k s).take = s.take ∧ (removeHostEntry k s).calendar = s.calendar
      ∧ (removeHostEntry k s).contactEdition = s.contactEdition ∧ (removeHostEntry k s).filtering = s.filtering
      ∧ (removeHostEntry k s).inputs = s.inputs ∧ (removeHostEntry k s).outputs = s.outputs
      ∧ (removeHostEntry k s).rules = s.rules ∧ (removeHostEntry k s).events = s.events := by
  unfold removeHostEntry
  split <;> simp

/-- What `showSendState` changes: table, imageCounts. -/
@[simp] theorem showSendState_frame (k : Fin 32) (e : Byte) (n : Word) (s : State) :
    (showSendState k e n s).pending = s.pending ∧ (showSendState k e n s).free = s.free
      ∧ (showSendState k e n s).partState = s.partState ∧ (showSendState k e n s).softReset = s.softReset
      ∧ (showSendState k e n s).clock = s.clock ∧ (showSendState k e n s).seconds = s.seconds
      ∧ (showSendState k e n s).nextTick = s.nextTick ∧ (showSendState k e n s).nextClockUpdate = s.nextClockUpdate
      ∧ (showSendState k e n s).clockGroup = s.clockGroup ∧ (showSendState k e n s).mem = s.mem
      ∧ (showSendState k e n s).result = s.result ∧ (showSendState k e n s).working = s.working
      ∧ (showSendState k e n s).heldArms = s.heldArms ∧ (showSendState k e n s).settings = s.settings
      ∧ (showSendState k e n s).counters = s.counters ∧ (showSendState k e n s).journal = s.journal
      ∧ (showSendState k e n s).laneA = s.laneA ∧ (showSendState k e n s).laneB = s.laneB
      ∧ (showSendState k e n s).bays = s.bays ∧ (showSendState k e n s).bayGroup = s.bayGroup
      ∧ (showSendState k e n s).pins = s.pins ∧ (showSendState k e n s).lastServed = s.lastServed
      ∧ (showSendState k e n s).serial = s.serial ∧ (showSendState k e n s).bayEpoch = s.bayEpoch
      ∧ (showSendState k e n s).ageingDue = s.ageingDue ∧ (showSendState k e n s).reports = s.reports
      ∧ (showSendState k e n s).laneNotices = s.laneNotices ∧ (showSendState k e n s).watchList = s.watchList
      ∧ (showSendState k e n s).missNotes = s.missNotes ∧ (showSendState k e n s).twinClaims = s.twinClaims
      ∧ (showSendState k e n s).cleanups = s.cleanups ∧ (showSendState k e n s).loneChanges = s.loneChanges
      ∧ (showSendState k e n s).redundancy = s.redundancy ∧ (showSendState k e n s).bareRoute = s.bareRoute
      ∧ (showSendState k e n s).subs = s.subs ∧ (showSendState k e n s).pubs = s.pubs
      ∧ (showSendState k e n s).postTrip = s.postTrip ∧ (showSendState k e n s).postOther = s.postOther
      ∧ (showSendState k e n s).take = s.take ∧ (showSendState k e n s).calendar = s.calendar
      ∧ (showSendState k e n s).contactEdition = s.contactEdition ∧ (showSendState k e n s).filtering = s.filtering
      ∧ (showSendState k e n s).inputs = s.inputs ∧ (showSendState k e n s).outputs = s.outputs
      ∧ (showSendState k e n s).rules = s.rules ∧ (showSendState k e n s).events = s.events := by
  unfold showSendState
  simp

/-- What `writeEntry` changes: table, subs. -/
@[simp] theorem writeEntry_frame (p : Fin 512) (e : Entry) (s : State) :
    (writeEntry p e s).pending = s.pending ∧ (writeEntry p e s).free = s.free
      ∧ (writeEntry p e s).partState = s.partState ∧ (writeEntry p e s).softReset = s.softReset
      ∧ (writeEntry p e s).clock = s.clock ∧ (writeEntry p e s).seconds = s.seconds
      ∧ (writeEntry p e s).nextTick = s.nextTick ∧ (writeEntry p e s).nextClockUpdate = s.nextClockUpdate
      ∧ (writeEntry p e s).clockGroup = s.clockGroup ∧ (writeEntry p e s).mem = s.mem
      ∧ (writeEntry p e s).result = s.result ∧ (writeEntry p e s).working = s.working
      ∧ (writeEntry p e s).heldArms = s.heldArms ∧ (writeEntry p e s).settings = s.settings
      ∧ (writeEntry p e s).counters = s.counters ∧ (writeEntry p e s).journal = s.journal
      ∧ (writeEntry p e s).laneA = s.laneA ∧ (writeEntry p e s).laneB = s.laneB ∧ (writeEntry p e s).bays = s.bays
      ∧ (writeEntry p e s).bayGroup = s.bayGroup ∧ (writeEntry p e s).pins = s.pins
      ∧ (writeEntry p e s).lastServed = s.lastServed ∧ (writeEntry p e s).imageCounts = s.imageCounts
      ∧ (writeEntry p e s).serial = s.serial ∧ (writeEntry p e s).bayEpoch = s.bayEpoch
      ∧ (writeEntry p e s).ageingDue = s.ageingDue ∧ (writeEntry p e s).reports = s.reports
      ∧ (writeEntry p e s).laneNotices = s.laneNotices ∧ (writeEntry p e s).watchList = s.watchList
      ∧ (writeEntry p e s).missNotes = s.missNotes ∧ (writeEntry p e s).twinClaims = s.twinClaims
      ∧ (writeEntry p e s).cleanups = s.cleanups ∧ (writeEntry p e s).loneChanges = s.loneChanges
      ∧ (writeEntry p e s).redundancy = s.redundancy ∧ (writeEntry p e s).bareRoute = s.bareRoute
      ∧ (writeEntry p e s).pubs = s.pubs ∧ (writeEntry p e s).postTrip = s.postTrip
      ∧ (writeEntry p e s).postOther = s.postOther ∧ (writeEntry p e s).take = s.take
      ∧ (writeEntry p e s).calendar = s.calendar ∧ (writeEntry p e s).contactEdition = s.contactEdition
      ∧ (writeEntry p e s).filtering = s.filtering ∧ (writeEntry p e s).inputs = s.inputs
      ∧ (writeEntry p e s).outputs = s.outputs ∧ (writeEntry p e s).rules = s.rules
      ∧ (writeEntry p e s).events = s.events := by
  unfold writeEntry
  split <;> simp

/-! ## Arrivals -/

/-- What `freshClaim` changes: journal. -/
@[simp] theorem freshClaim_frame (e : Entry) (a : Arrival) (s : State) :
    (freshClaim e a s).pending = s.pending ∧ (freshClaim e a s).free = s.free
      ∧ (freshClaim e a s).partState = s.partState ∧ (freshClaim e a s).softReset = s.softReset
      ∧ (freshClaim e a s).clock = s.clock ∧ (freshClaim e a s).seconds = s.seconds
      ∧ (freshClaim e a s).nextTick = s.nextTick ∧ (freshClaim e a s).nextClockUpdate = s.nextClockUpdate
      ∧ (freshClaim e a s).clockGroup = s.clockGroup ∧ (freshClaim e a s).mem = s.mem
      ∧ (freshClaim e a s).result = s.result ∧ (freshClaim e a s).working = s.working
      ∧ (freshClaim e a s).heldArms = s.heldArms ∧ (freshClaim e a s).settings = s.settings
      ∧ (freshClaim e a s).counters = s.counters ∧ (freshClaim e a s).laneA = s.laneA
      ∧ (freshClaim e a s).laneB = s.laneB ∧ (freshClaim e a s).bays = s.bays
      ∧ (freshClaim e a s).bayGroup = s.bayGroup ∧ (freshClaim e a s).pins = s.pins
      ∧ (freshClaim e a s).lastServed = s.lastServed ∧ (freshClaim e a s).table = s.table
      ∧ (freshClaim e a s).imageCounts = s.imageCounts ∧ (freshClaim e a s).serial = s.serial
      ∧ (freshClaim e a s).bayEpoch = s.bayEpoch ∧ (freshClaim e a s).ageingDue = s.ageingDue
      ∧ (freshClaim e a s).reports = s.reports ∧ (freshClaim e a s).laneNotices = s.laneNotices
      ∧ (freshClaim e a s).watchList = s.watchList ∧ (freshClaim e a s).missNotes = s.missNotes
      ∧ (freshClaim e a s).twinClaims = s.twinClaims ∧ (freshClaim e a s).cleanups = s.cleanups
      ∧ (freshClaim e a s).loneChanges = s.loneChanges ∧ (freshClaim e a s).redundancy = s.redundancy
      ∧ (freshClaim e a s).bareRoute = s.bareRoute ∧ (freshClaim e a s).subs = s.subs
      ∧ (freshClaim e a s).pubs = s.pubs ∧ (freshClaim e a s).postTrip = s.postTrip
      ∧ (freshClaim e a s).postOther = s.postOther ∧ (freshClaim e a s).take = s.take
      ∧ (freshClaim e a s).calendar = s.calendar ∧ (freshClaim e a s).contactEdition = s.contactEdition
      ∧ (freshClaim e a s).filtering = s.filtering ∧ (freshClaim e a s).inputs = s.inputs
      ∧ (freshClaim e a s).outputs = s.outputs ∧ (freshClaim e a s).rules = s.rules
      ∧ (freshClaim e a s).events = s.events := by
  unfold freshClaim
  split <;> simp

/-- What `changeEpoch` changes: counters, twinClaims, journal. -/
@[simp] theorem changeEpoch_frame (e : Entry) (o : Byte) (a : Arrival) (l : Lane) (s : State) :
    (changeEpoch e o a l s).pending = s.pending ∧ (changeEpoch e o a l s).free = s.free
      ∧ (changeEpoch e o a l s).partState = s.partState ∧ (changeEpoch e o a l s).softReset = s.softReset
      ∧ (changeEpoch e o a l s).clock = s.clock ∧ (changeEpoch e o a l s).seconds = s.seconds
      ∧ (changeEpoch e o a l s).nextTick = s.nextTick ∧ (changeEpoch e o a l s).nextClockUpdate = s.nextClockUpdate
      ∧ (changeEpoch e o a l s).clockGroup = s.clockGroup ∧ (changeEpoch e o a l s).mem = s.mem
      ∧ (changeEpoch e o a l s).result = s.result ∧ (changeEpoch e o a l s).working = s.working
      ∧ (changeEpoch e o a l s).heldArms = s.heldArms ∧ (changeEpoch e o a l s).settings = s.settings
      ∧ (changeEpoch e o a l s).laneA = s.laneA ∧ (changeEpoch e o a l s).laneB = s.laneB
      ∧ (changeEpoch e o a l s).bays = s.bays ∧ (changeEpoch e o a l s).bayGroup = s.bayGroup
      ∧ (changeEpoch e o a l s).pins = s.pins ∧ (changeEpoch e o a l s).lastServed = s.lastServed
      ∧ (changeEpoch e o a l s).table = s.table ∧ (changeEpoch e o a l s).imageCounts = s.imageCounts
      ∧ (changeEpoch e o a l s).serial = s.serial ∧ (changeEpoch e o a l s).bayEpoch = s.bayEpoch
      ∧ (changeEpoch e o a l s).ageingDue = s.ageingDue ∧ (changeEpoch e o a l s).reports = s.reports
      ∧ (changeEpoch e o a l s).laneNotices = s.laneNotices ∧ (changeEpoch e o a l s).watchList = s.watchList
      ∧ (changeEpoch e o a l s).missNotes = s.missNotes ∧ (changeEpoch e o a l s).cleanups = s.cleanups
      ∧ (changeEpoch e o a l s).loneChanges = s.loneChanges ∧ (changeEpoch e o a l s).redundancy = s.redundancy
      ∧ (changeEpoch e o a l s).bareRoute = s.bareRoute ∧ (changeEpoch e o a l s).subs = s.subs
      ∧ (changeEpoch e o a l s).pubs = s.pubs ∧ (changeEpoch e o a l s).postTrip = s.postTrip
      ∧ (changeEpoch e o a l s).postOther = s.postOther ∧ (changeEpoch e o a l s).take = s.take
      ∧ (changeEpoch e o a l s).calendar = s.calendar ∧ (changeEpoch e o a l s).contactEdition = s.contactEdition
      ∧ (changeEpoch e o a l s).filtering = s.filtering ∧ (changeEpoch e o a l s).inputs = s.inputs
      ∧ (changeEpoch e o a l s).outputs = s.outputs ∧ (changeEpoch e o a l s).rules = s.rules
      ∧ (changeEpoch e o a l s).events = s.events := by
  unfold changeEpoch
  simp

/-- What `askWatch` changes: twinClaims. -/
@[simp] theorem askWatch_frame (e : Entry) (a : Arrival) (q : Word) (l : Lane) (s : State) :
    (askWatch e a q l s).pending = s.pending ∧ (askWatch e a q l s).free = s.free
      ∧ (askWatch e a q l s).partState = s.partState ∧ (askWatch e a q l s).softReset = s.softReset
      ∧ (askWatch e a q l s).clock = s.clock ∧ (askWatch e a q l s).seconds = s.seconds
      ∧ (askWatch e a q l s).nextTick = s.nextTick ∧ (askWatch e a q l s).nextClockUpdate = s.nextClockUpdate
      ∧ (askWatch e a q l s).clockGroup = s.clockGroup ∧ (askWatch e a q l s).mem = s.mem
      ∧ (askWatch e a q l s).result = s.result ∧ (askWatch e a q l s).working = s.working
      ∧ (askWatch e a q l s).heldArms = s.heldArms ∧ (askWatch e a q l s).settings = s.settings
      ∧ (askWatch e a q l s).counters = s.counters ∧ (askWatch e a q l s).journal = s.journal
      ∧ (askWatch e a q l s).laneA = s.laneA ∧ (askWatch e a q l s).laneB = s.laneB
      ∧ (askWatch e a q l s).bays = s.bays ∧ (askWatch e a q l s).bayGroup = s.bayGroup
      ∧ (askWatch e a q l s).pins = s.pins ∧ (askWatch e a q l s).lastServed = s.lastServed
      ∧ (askWatch e a q l s).table = s.table ∧ (askWatch e a q l s).imageCounts = s.imageCounts
      ∧ (askWatch e a q l s).serial = s.serial ∧ (askWatch e a q l s).bayEpoch = s.bayEpoch
      ∧ (askWatch e a q l s).ageingDue = s.ageingDue ∧ (askWatch e a q l s).reports = s.reports
      ∧ (askWatch e a q l s).laneNotices = s.laneNotices ∧ (askWatch e a q l s).watchList = s.watchList
      ∧ (askWatch e a q l s).missNotes = s.missNotes ∧ (askWatch e a q l s).cleanups = s.cleanups
      ∧ (askWatch e a q l s).loneChanges = s.loneChanges ∧ (askWatch e a q l s).redundancy = s.redundancy
      ∧ (askWatch e a q l s).bareRoute = s.bareRoute ∧ (askWatch e a q l s).subs = s.subs
      ∧ (askWatch e a q l s).pubs = s.pubs ∧ (askWatch e a q l s).postTrip = s.postTrip
      ∧ (askWatch e a q l s).postOther = s.postOther ∧ (askWatch e a q l s).take = s.take
      ∧ (askWatch e a q l s).calendar = s.calendar ∧ (askWatch e a q l s).contactEdition = s.contactEdition
      ∧ (askWatch e a q l s).filtering = s.filtering ∧ (askWatch e a q l s).inputs = s.inputs
      ∧ (askWatch e a q l s).outputs = s.outputs ∧ (askWatch e a q l s).rules = s.rules
      ∧ (askWatch e a q l s).events = s.events := by
  unfold askWatch
  split <;> simp

/-- What `acceptFirst` changes: table, counters, twinClaims, loneChanges, journal, events, subs, bays, bayGroup. -/
@[simp] theorem acceptFirst_frame (p : Fin 512) (e : Entry) (j : Judgement) (w : Option Window) (a : Arrival)
    (q : Word) (l : Lane) (s : State) :
    (acceptFirst p e j w a q l s).pending = s.pending ∧ (acceptFirst p e j w a q l s).free = s.free
      ∧ (acceptFirst p e j w a q l s).partState = s.partState ∧ (acceptFirst p e j w a q l s).softReset = s.softReset
      ∧ (acceptFirst p e j w a q l s).clock = s.clock ∧ (acceptFirst p e j w a q l s).seconds = s.seconds
      ∧ (acceptFirst p e j w a q l s).nextTick = s.nextTick
      ∧ (acceptFirst p e j w a q l s).nextClockUpdate = s.nextClockUpdate
      ∧ (acceptFirst p e j w a q l s).clockGroup = s.clockGroup ∧ (acceptFirst p e j w a q l s).mem = s.mem
      ∧ (acceptFirst p e j w a q l s).result = s.result ∧ (acceptFirst p e j w a q l s).working = s.working
      ∧ (acceptFirst p e j w a q l s).heldArms = s.heldArms ∧ (acceptFirst p e j w a q l s).settings = s.settings
      ∧ (acceptFirst p e j w a q l s).laneA = s.laneA ∧ (acceptFirst p e j w a q l s).laneB = s.laneB
      ∧ (acceptFirst p e j w a q l s).pins = s.pins ∧ (acceptFirst p e j w a q l s).lastServed = s.lastServed
      ∧ (acceptFirst p e j w a q l s).imageCounts = s.imageCounts ∧ (acceptFirst p e j w a q l s).serial = s.serial
      ∧ (acceptFirst p e j w a q l s).bayEpoch = s.bayEpoch ∧ (acceptFirst p e j w a q l s).ageingDue = s.ageingDue
      ∧ (acceptFirst p e j w a q l s).reports = s.reports ∧ (acceptFirst p e j w a q l s).laneNotices = s.laneNotices
      ∧ (acceptFirst p e j w a q l s).watchList = s.watchList ∧ (acceptFirst p e j w a q l s).missNotes = s.missNotes
      ∧ (acceptFirst p e j w a q l s).cleanups = s.cleanups ∧ (acceptFirst p e j w a q l s).redundancy = s.redundancy
      ∧ (acceptFirst p e j w a q l s).bareRoute = s.bareRoute ∧ (acceptFirst p e j w a q l s).pubs = s.pubs
      ∧ (acceptFirst p e j w a q l s).postTrip = s.postTrip ∧ (acceptFirst p e j w a q l s).postOther = s.postOther
      ∧ (acceptFirst p e j w a q l s).take = s.take ∧ (acceptFirst p e j w a q l s).calendar = s.calendar
      ∧ (acceptFirst p e j w a q l s).contactEdition = s.contactEdition
      ∧ (acceptFirst p e j w a q l s).filtering = s.filtering ∧ (acceptFirst p e j w a q l s).inputs = s.inputs
      ∧ (acceptFirst p e j w a q l s).outputs = s.outputs ∧ (acceptFirst p e j w a q l s).rules = s.rules := by
  unfold acceptFirst
  dsimp only
  (repeat' split) <;> simp

/-- What `judgeRemote` changes: table, counters, twinClaims, loneChanges, journal, events, subs, bays, bayGroup. -/
@[simp] theorem judgeRemote_frame (p : Fin 512) (e : Entry) (a : Arrival) (q : Word) (l : Lane) (s : State) :
    (judgeRemote p e a q l s).pending = s.pending ∧ (judgeRemote p e a q l s).free = s.free
      ∧ (judgeRemote p e a q l s).partState = s.partState ∧ (judgeRemote p e a q l s).softReset = s.softReset
      ∧ (judgeRemote p e a q l s).clock = s.clock ∧ (judgeRemote p e a q l s).seconds = s.seconds
      ∧ (judgeRemote p e a q l s).nextTick = s.nextTick
      ∧ (judgeRemote p e a q l s).nextClockUpdate = s.nextClockUpdate
      ∧ (judgeRemote p e a q l s).clockGroup = s.clockGroup ∧ (judgeRemote p e a q l s).mem = s.mem
      ∧ (judgeRemote p e a q l s).result = s.result ∧ (judgeRemote p e a q l s).working = s.working
      ∧ (judgeRemote p e a q l s).heldArms = s.heldArms ∧ (judgeRemote p e a q l s).settings = s.settings
      ∧ (judgeRemote p e a q l s).laneA = s.laneA ∧ (judgeRemote p e a q l s).laneB = s.laneB
      ∧ (judgeRemote p e a q l s).pins = s.pins ∧ (judgeRemote p e a q l s).lastServed = s.lastServed
      ∧ (judgeRemote p e a q l s).imageCounts = s.imageCounts ∧ (judgeRemote p e a q l s).serial = s.serial
      ∧ (judgeRemote p e a q l s).bayEpoch = s.bayEpoch ∧ (judgeRemote p e a q l s).ageingDue = s.ageingDue
      ∧ (judgeRemote p e a q l s).reports = s.reports ∧ (judgeRemote p e a q l s).laneNotices = s.laneNotices
      ∧ (judgeRemote p e a q l s).watchList = s.watchList ∧ (judgeRemote p e a q l s).missNotes = s.missNotes
      ∧ (judgeRemote p e a q l s).cleanups = s.cleanups ∧ (judgeRemote p e a q l s).redundancy = s.redundancy
      ∧ (judgeRemote p e a q l s).bareRoute = s.bareRoute ∧ (judgeRemote p e a q l s).pubs = s.pubs
      ∧ (judgeRemote p e a q l s).postTrip = s.postTrip ∧ (judgeRemote p e a q l s).postOther = s.postOther
      ∧ (judgeRemote p e a q l s).take = s.take ∧ (judgeRemote p e a q l s).calendar = s.calendar
      ∧ (judgeRemote p e a q l s).contactEdition = s.contactEdition
      ∧ (judgeRemote p e a q l s).filtering = s.filtering ∧ (judgeRemote p e a q l s).inputs = s.inputs
      ∧ (judgeRemote p e a q l s).outputs = s.outputs ∧ (judgeRemote p e a q l s).rules = s.rules := by
  unfold judgeRemote
  (repeat' split) <;> simp

/-- What `acceptBay` changes: table, journal, events, subs, laneA, laneB, bays, bayGroup. -/
@[simp] theorem acceptBay_frame (p : Fin 512) (e : Entry) (a : Arrival) (q : Fin 4) (s : State) :
    (acceptBay p e a q s).pending = s.pending ∧ (acceptBay p e a q s).free = s.free
      ∧ (acceptBay p e a q s).partState = s.partState ∧ (acceptBay p e a q s).softReset = s.softReset
      ∧ (acceptBay p e a q s).clock = s.clock ∧ (acceptBay p e a q s).seconds = s.seconds
      ∧ (acceptBay p e a q s).nextTick = s.nextTick ∧ (acceptBay p e a q s).nextClockUpdate = s.nextClockUpdate
      ∧ (acceptBay p e a q s).clockGroup = s.clockGroup ∧ (acceptBay p e a q s).mem = s.mem
      ∧ (acceptBay p e a q s).result = s.result ∧ (acceptBay p e a q s).working = s.working
      ∧ (acceptBay p e a q s).heldArms = s.heldArms ∧ (acceptBay p e a q s).settings = s.settings
      ∧ (acceptBay p e a q s).counters = s.counters ∧ (acceptBay p e a q s).pins = s.pins
      ∧ (acceptBay p e a q s).lastServed = s.lastServed ∧ (acceptBay p e a q s).imageCounts = s.imageCounts
      ∧ (acceptBay p e a q s).serial = s.serial ∧ (acceptBay p e a q s).bayEpoch = s.bayEpoch
      ∧ (acceptBay p e a q s).ageingDue = s.ageingDue ∧ (acceptBay p e a q s).reports = s.reports
      ∧ (acceptBay p e a q s).laneNotices = s.laneNotices ∧ (acceptBay p e a q s).watchList = s.watchList
      ∧ (acceptBay p e a q s).missNotes = s.missNotes ∧ (acceptBay p e a q s).twinClaims = s.twinClaims
      ∧ (acceptBay p e a q s).cleanups = s.cleanups ∧ (acceptBay p e a q s).loneChanges = s.loneChanges
      ∧ (acceptBay p e a q s).redundancy = s.redundancy ∧ (acceptBay p e a q s).bareRoute = s.bareRoute
      ∧ (acceptBay p e a q s).pubs = s.pubs ∧ (acceptBay p e a q s).postTrip = s.postTrip
      ∧ (acceptBay p e a q s).postOther = s.postOther ∧ (acceptBay p e a q s).take = s.take
      ∧ (acceptBay p e a q s).calendar = s.calendar ∧ (acceptBay p e a q s).contactEdition = s.contactEdition
      ∧ (acceptBay p e a q s).filtering = s.filtering ∧ (acceptBay p e a q s).inputs = s.inputs
      ∧ (acceptBay p e a q s).outputs = s.outputs ∧ (acceptBay p e a q s).rules = s.rules := by
  unfold acceptBay
  simp

/-- What `echo` changes: counters, journal, table. -/
@[simp] theorem echo_frame (p : Fin 512) (e : Entry) (a : Arrival) (s : State) :
    (echo p e a s).pending = s.pending ∧ (echo p e a s).free = s.free ∧ (echo p e a s).partState = s.partState
      ∧ (echo p e a s).softReset = s.softReset ∧ (echo p e a s).clock = s.clock ∧ (echo p e a s).seconds = s.seconds
      ∧ (echo p e a s).nextTick = s.nextTick ∧ (echo p e a s).nextClockUpdate = s.nextClockUpdate
      ∧ (echo p e a s).clockGroup = s.clockGroup ∧ (echo p e a s).mem = s.mem ∧ (echo p e a s).result = s.result
      ∧ (echo p e a s).working = s.working ∧ (echo p e a s).heldArms = s.heldArms
      ∧ (echo p e a s).settings = s.settings ∧ (echo p e a s).laneA = s.laneA ∧ (echo p e a s).laneB = s.laneB
      ∧ (echo p e a s).bays = s.bays ∧ (echo p e a s).bayGroup = s.bayGroup ∧ (echo p e a s).pins = s.pins
      ∧ (echo p e a s).lastServed = s.lastServed ∧ (echo p e a s).imageCounts = s.imageCounts
      ∧ (echo p e a s).serial = s.serial ∧ (echo p e a s).bayEpoch = s.bayEpoch
      ∧ (echo p e a s).ageingDue = s.ageingDue ∧ (echo p e a s).reports = s.reports
      ∧ (echo p e a s).laneNotices = s.laneNotices ∧ (echo p e a s).watchList = s.watchList
      ∧ (echo p e a s).missNotes = s.missNotes ∧ (echo p e a s).twinClaims = s.twinClaims
      ∧ (echo p e a s).cleanups = s.cleanups ∧ (echo p e a s).loneChanges = s.loneChanges
      ∧ (echo p e a s).redundancy = s.redundancy ∧ (echo p e a s).bareRoute = s.bareRoute
      ∧ (echo p e a s).subs = s.subs ∧ (echo p e a s).pubs = s.pubs ∧ (echo p e a s).postTrip = s.postTrip
      ∧ (echo p e a s).postOther = s.postOther ∧ (echo p e a s).take = s.take ∧ (echo p e a s).calendar = s.calendar
      ∧ (echo p e a s).contactEdition = s.contactEdition ∧ (echo p e a s).filtering = s.filtering
      ∧ (echo p e a s).inputs = s.inputs ∧ (echo p e a s).outputs = s.outputs ∧ (echo p e a s).rules = s.rules
      ∧ (echo p e a s).events = s.events := by
  unfold echo
  split <;> simp

/-- What `clash` changes: counters, journal, table. -/
@[simp] theorem clash_frame (p : Fin 512) (e : Entry) (a : Arrival) (s : State) :
    (clash p e a s).pending = s.pending ∧ (clash p e a s).free = s.free ∧ (clash p e a s).partState = s.partState
      ∧ (clash p e a s).softReset = s.softReset ∧ (clash p e a s).clock = s.clock
      ∧ (clash p e a s).seconds = s.seconds ∧ (clash p e a s).nextTick = s.nextTick
      ∧ (clash p e a s).nextClockUpdate = s.nextClockUpdate ∧ (clash p e a s).clockGroup = s.clockGroup
      ∧ (clash p e a s).mem = s.mem ∧ (clash p e a s).result = s.result ∧ (clash p e a s).working = s.working
      ∧ (clash p e a s).heldArms = s.heldArms ∧ (clash p e a s).settings = s.settings
      ∧ (clash p e a s).laneA = s.laneA ∧ (clash p e a s).laneB = s.laneB ∧ (clash p e a s).bays = s.bays
      ∧ (clash p e a s).bayGroup = s.bayGroup ∧ (clash p e a s).pins = s.pins
      ∧ (clash p e a s).lastServed = s.lastServed ∧ (clash p e a s).imageCounts = s.imageCounts
      ∧ (clash p e a s).serial = s.serial ∧ (clash p e a s).bayEpoch = s.bayEpoch
      ∧ (clash p e a s).ageingDue = s.ageingDue ∧ (clash p e a s).reports = s.reports
      ∧ (clash p e a s).laneNotices = s.laneNotices ∧ (clash p e a s).watchList = s.watchList
      ∧ (clash p e a s).missNotes = s.missNotes ∧ (clash p e a s).twinClaims = s.twinClaims
      ∧ (clash p e a s).cleanups = s.cleanups ∧ (clash p e a s).loneChanges = s.loneChanges
      ∧ (clash p e a s).redundancy = s.redundancy ∧ (clash p e a s).bareRoute = s.bareRoute
      ∧ (clash p e a s).subs = s.subs ∧ (clash p e a s).pubs = s.pubs ∧ (clash p e a s).postTrip = s.postTrip
      ∧ (clash p e a s).postOther = s.postOther ∧ (clash p e a s).take = s.take
      ∧ (clash p e a s).calendar = s.calendar ∧ (clash p e a s).contactEdition = s.contactEdition
      ∧ (clash p e a s).filtering = s.filtering ∧ (clash p e a s).inputs = s.inputs
      ∧ (clash p e a s).outputs = s.outputs ∧ (clash p e a s).rules = s.rules ∧ (clash p e a s).events = s.events := by
  unfold clash
  split <;> simp

/-- What `unplaced` changes: counters, journal, laneA, laneB, bays, bayGroup. -/
@[simp] theorem unplaced_frame (a : Arrival) (s : State) :
    (unplaced a s).pending = s.pending ∧ (unplaced a s).free = s.free ∧ (unplaced a s).partState = s.partState
      ∧ (unplaced a s).softReset = s.softReset ∧ (unplaced a s).clock = s.clock ∧ (unplaced a s).seconds = s.seconds
      ∧ (unplaced a s).nextTick = s.nextTick ∧ (unplaced a s).nextClockUpdate = s.nextClockUpdate
      ∧ (unplaced a s).clockGroup = s.clockGroup ∧ (unplaced a s).mem = s.mem ∧ (unplaced a s).result = s.result
      ∧ (unplaced a s).working = s.working ∧ (unplaced a s).heldArms = s.heldArms
      ∧ (unplaced a s).settings = s.settings ∧ (unplaced a s).pins = s.pins
      ∧ (unplaced a s).lastServed = s.lastServed ∧ (unplaced a s).table = s.table
      ∧ (unplaced a s).imageCounts = s.imageCounts ∧ (unplaced a s).serial = s.serial
      ∧ (unplaced a s).bayEpoch = s.bayEpoch ∧ (unplaced a s).ageingDue = s.ageingDue
      ∧ (unplaced a s).reports = s.reports ∧ (unplaced a s).laneNotices = s.laneNotices
      ∧ (unplaced a s).watchList = s.watchList ∧ (unplaced a s).missNotes = s.missNotes
      ∧ (unplaced a s).twinClaims = s.twinClaims ∧ (unplaced a s).cleanups = s.cleanups
      ∧ (unplaced a s).loneChanges = s.loneChanges ∧ (unplaced a s).redundancy = s.redundancy
      ∧ (unplaced a s).bareRoute = s.bareRoute ∧ (unplaced a s).subs = s.subs ∧ (unplaced a s).pubs = s.pubs
      ∧ (unplaced a s).postTrip = s.postTrip ∧ (unplaced a s).postOther = s.postOther ∧ (unplaced a s).take = s.take
      ∧ (unplaced a s).calendar = s.calendar ∧ (unplaced a s).contactEdition = s.contactEdition
      ∧ (unplaced a s).filtering = s.filtering ∧ (unplaced a s).inputs = s.inputs
      ∧ (unplaced a s).outputs = s.outputs ∧ (unplaced a s).rules = s.rules ∧ (unplaced a s).events = s.events := by
  unfold unplaced
  dsimp only
  (repeat' split) <;> simp

/-- What `takeLaneCopy` changes: table, serial, bayEpoch, counters, twinClaims, loneChanges, journal, events, subs,
laneA, laneB, bays, bayGroup. -/
@[simp] theorem takeLaneCopy_frame (a : Arrival) (l : Lane) (s : State) :
    (takeLaneCopy a l s).pending = s.pending ∧ (takeLaneCopy a l s).free = s.free
      ∧ (takeLaneCopy a l s).partState = s.partState ∧ (takeLaneCopy a l s).softReset = s.softReset
      ∧ (takeLaneCopy a l s).clock = s.clock ∧ (takeLaneCopy a l s).seconds = s.seconds
      ∧ (takeLaneCopy a l s).nextTick = s.nextTick ∧ (takeLaneCopy a l s).nextClockUpdate = s.nextClockUpdate
      ∧ (takeLaneCopy a l s).clockGroup = s.clockGroup ∧ (takeLaneCopy a l s).mem = s.mem
      ∧ (takeLaneCopy a l s).result = s.result ∧ (takeLaneCopy a l s).working = s.working
      ∧ (takeLaneCopy a l s).heldArms = s.heldArms ∧ (takeLaneCopy a l s).settings = s.settings
      ∧ (takeLaneCopy a l s).pins = s.pins ∧ (takeLaneCopy a l s).lastServed = s.lastServed
      ∧ (takeLaneCopy a l s).imageCounts = s.imageCounts ∧ (takeLaneCopy a l s).ageingDue = s.ageingDue
      ∧ (takeLaneCopy a l s).reports = s.reports ∧ (takeLaneCopy a l s).laneNotices = s.laneNotices
      ∧ (takeLaneCopy a l s).watchList = s.watchList ∧ (takeLaneCopy a l s).missNotes = s.missNotes
      ∧ (takeLaneCopy a l s).cleanups = s.cleanups ∧ (takeLaneCopy a l s).redundancy = s.redundancy
      ∧ (takeLaneCopy a l s).bareRoute = s.bareRoute ∧ (takeLaneCopy a l s).pubs = s.pubs
      ∧ (takeLaneCopy a l s).postTrip = s.postTrip ∧ (takeLaneCopy a l s).postOther = s.postOther
      ∧ (takeLaneCopy a l s).take = s.take ∧ (takeLaneCopy a l s).calendar = s.calendar
      ∧ (takeLaneCopy a l s).contactEdition = s.contactEdition ∧ (takeLaneCopy a l s).filtering = s.filtering
      ∧ (takeLaneCopy a l s).inputs = s.inputs ∧ (takeLaneCopy a l s).outputs = s.outputs
      ∧ (takeLaneCopy a l s).rules = s.rules := by
  unfold takeLaneCopy
  dsimp only
  (repeat' split) <;> simp

/-- What `takeBayCopy` changes: table, serial, bayEpoch, counters, twinClaims, loneChanges, journal, events, subs,
laneA, laneB, bays, bayGroup. -/
@[simp] theorem takeBayCopy_frame (a : Arrival) (q : Fin 4) (s : State) :
    (takeBayCopy a q s).pending = s.pending ∧ (takeBayCopy a q s).free = s.free
      ∧ (takeBayCopy a q s).partState = s.partState ∧ (takeBayCopy a q s).softReset = s.softReset
      ∧ (takeBayCopy a q s).clock = s.clock ∧ (takeBayCopy a q s).seconds = s.seconds
      ∧ (takeBayCopy a q s).nextTick = s.nextTick ∧ (takeBayCopy a q s).nextClockUpdate = s.nextClockUpdate
      ∧ (takeBayCopy a q s).clockGroup = s.clockGroup ∧ (takeBayCopy a q s).mem = s.mem
      ∧ (takeBayCopy a q s).result = s.result ∧ (takeBayCopy a q s).working = s.working
      ∧ (takeBayCopy a q s).heldArms = s.heldArms ∧ (takeBayCopy a q s).settings = s.settings
      ∧ (takeBayCopy a q s).pins = s.pins ∧ (takeBayCopy a q s).lastServed = s.lastServed
      ∧ (takeBayCopy a q s).imageCounts = s.imageCounts ∧ (takeBayCopy a q s).ageingDue = s.ageingDue
      ∧ (takeBayCopy a q s).reports = s.reports ∧ (takeBayCopy a q s).laneNotices = s.laneNotices
      ∧ (takeBayCopy a q s).watchList = s.watchList ∧ (takeBayCopy a q s).missNotes = s.missNotes
      ∧ (takeBayCopy a q s).cleanups = s.cleanups ∧ (takeBayCopy a q s).redundancy = s.redundancy
      ∧ (takeBayCopy a q s).bareRoute = s.bareRoute ∧ (takeBayCopy a q s).pubs = s.pubs
      ∧ (takeBayCopy a q s).postTrip = s.postTrip ∧ (takeBayCopy a q s).postOther = s.postOther
      ∧ (takeBayCopy a q s).take = s.take ∧ (takeBayCopy a q s).calendar = s.calendar
      ∧ (takeBayCopy a q s).contactEdition = s.contactEdition ∧ (takeBayCopy a q s).filtering = s.filtering
      ∧ (takeBayCopy a q s).inputs = s.inputs ∧ (takeBayCopy a q s).outputs = s.outputs
      ∧ (takeBayCopy a q s).rules = s.rules := by
  unfold takeBayCopy
  (repeat' split) <;> simp

/-- What `takeArrival` changes: table, serial, bayEpoch, counters, twinClaims, loneChanges, journal, events, subs,
laneA, laneB, bays, bayGroup. -/
@[simp] theorem takeArrival_frame (a : Arrival) (s : State) :
    (takeArrival a s).pending = s.pending ∧ (takeArrival a s).free = s.free
      ∧ (takeArrival a s).partState = s.partState ∧ (takeArrival a s).softReset = s.softReset
      ∧ (takeArrival a s).clock = s.clock ∧ (takeArrival a s).seconds = s.seconds
      ∧ (takeArrival a s).nextTick = s.nextTick ∧ (takeArrival a s).nextClockUpdate = s.nextClockUpdate
      ∧ (takeArrival a s).clockGroup = s.clockGroup ∧ (takeArrival a s).mem = s.mem
      ∧ (takeArrival a s).result = s.result ∧ (takeArrival a s).working = s.working
      ∧ (takeArrival a s).heldArms = s.heldArms ∧ (takeArrival a s).settings = s.settings
      ∧ (takeArrival a s).pins = s.pins ∧ (takeArrival a s).lastServed = s.lastServed
      ∧ (takeArrival a s).imageCounts = s.imageCounts ∧ (takeArrival a s).ageingDue = s.ageingDue
      ∧ (takeArrival a s).reports = s.reports ∧ (takeArrival a s).laneNotices = s.laneNotices
      ∧ (takeArrival a s).watchList = s.watchList ∧ (takeArrival a s).missNotes = s.missNotes
      ∧ (takeArrival a s).cleanups = s.cleanups ∧ (takeArrival a s).redundancy = s.redundancy
      ∧ (takeArrival a s).bareRoute = s.bareRoute ∧ (takeArrival a s).pubs = s.pubs
      ∧ (takeArrival a s).postTrip = s.postTrip ∧ (takeArrival a s).postOther = s.postOther
      ∧ (takeArrival a s).take = s.take ∧ (takeArrival a s).calendar = s.calendar
      ∧ (takeArrival a s).contactEdition = s.contactEdition ∧ (takeArrival a s).filtering = s.filtering
      ∧ (takeArrival a s).inputs = s.inputs ∧ (takeArrival a s).outputs = s.outputs
      ∧ (takeArrival a s).rules = s.rules := by
  unfold takeArrival
  split <;> simp

/-! ## Contacts and outputs -/

/-- What `outputClaim` changes: journal. -/
@[simp] theorem outputClaim_frame (n : Fin 4) (b : Bool) (c : OutputCause) (s : State) :
    (outputClaim n b c s).pending = s.pending ∧ (outputClaim n b c s).free = s.free
      ∧ (outputClaim n b c s).partState = s.partState ∧ (outputClaim n b c s).softReset = s.softReset
      ∧ (outputClaim n b c s).clock = s.clock ∧ (outputClaim n b c s).seconds = s.seconds
      ∧ (outputClaim n b c s).nextTick = s.nextTick ∧ (outputClaim n b c s).nextClockUpdate = s.nextClockUpdate
      ∧ (outputClaim n b c s).clockGroup = s.clockGroup ∧ (outputClaim n b c s).mem = s.mem
      ∧ (outputClaim n b c s).result = s.result ∧ (outputClaim n b c s).working = s.working
      ∧ (outputClaim n b c s).heldArms = s.heldArms ∧ (outputClaim n b c s).settings = s.settings
      ∧ (outputClaim n b c s).counters = s.counters ∧ (outputClaim n b c s).laneA = s.laneA
      ∧ (outputClaim n b c s).laneB = s.laneB ∧ (outputClaim n b c s).bays = s.bays
      ∧ (outputClaim n b c s).bayGroup = s.bayGroup ∧ (outputClaim n b c s).pins = s.pins
      ∧ (outputClaim n b c s).lastServed = s.lastServed ∧ (outputClaim n b c s).table = s.table
      ∧ (outputClaim n b c s).imageCounts = s.imageCounts ∧ (outputClaim n b c s).serial = s.serial
      ∧ (outputClaim n b c s).bayEpoch = s.bayEpoch ∧ (outputClaim n b c s).ageingDue = s.ageingDue
      ∧ (outputClaim n b c s).reports = s.reports ∧ (outputClaim n b c s).laneNotices = s.laneNotices
      ∧ (outputClaim n b c s).watchList = s.watchList ∧ (outputClaim n b c s).missNotes = s.missNotes
      ∧ (outputClaim n b c s).twinClaims = s.twinClaims ∧ (outputClaim n b c s).cleanups = s.cleanups
      ∧ (outputClaim n b c s).loneChanges = s.loneChanges ∧ (outputClaim n b c s).redundancy = s.redundancy
      ∧ (outputClaim n b c s).bareRoute = s.bareRoute ∧ (outputClaim n b c s).subs = s.subs
      ∧ (outputClaim n b c s).pubs = s.pubs ∧ (outputClaim n b c s).postTrip = s.postTrip
      ∧ (outputClaim n b c s).postOther = s.postOther ∧ (outputClaim n b c s).take = s.take
      ∧ (outputClaim n b c s).calendar = s.calendar ∧ (outputClaim n b c s).contactEdition = s.contactEdition
      ∧ (outputClaim n b c s).filtering = s.filtering ∧ (outputClaim n b c s).inputs = s.inputs
      ∧ (outputClaim n b c s).outputs = s.outputs ∧ (outputClaim n b c s).rules = s.rules
      ∧ (outputClaim n b c s).events = s.events := by
  unfold outputClaim
  simp

/-- What `driveOutput` changes: outputs, contactEdition, journal. -/
@[simp] theorem driveOutput_frame (n : Fin 4) (c : OutputCause) (s : State) :
    (driveOutput n c s).pending = s.pending ∧ (driveOutput n c s).free = s.free
      ∧ (driveOutput n c s).partState = s.partState ∧ (driveOutput n c s).softReset = s.softReset
      ∧ (driveOutput n c s).clock = s.clock ∧ (driveOutput n c s).seconds = s.seconds
      ∧ (driveOutput n c s).nextTick = s.nextTick ∧ (driveOutput n c s).nextClockUpdate = s.nextClockUpdate
      ∧ (driveOutput n c s).clockGroup = s.clockGroup ∧ (driveOutput n c s).mem = s.mem
      ∧ (driveOutput n c s).result = s.result ∧ (driveOutput n c s).working = s.working
      ∧ (driveOutput n c s).heldArms = s.heldArms ∧ (driveOutput n c s).settings = s.settings
      ∧ (driveOutput n c s).counters = s.counters ∧ (driveOutput n c s).laneA = s.laneA
      ∧ (driveOutput n c s).laneB = s.laneB ∧ (driveOutput n c s).bays = s.bays
      ∧ (driveOutput n c s).bayGroup = s.bayGroup ∧ (driveOutput n c s).pins = s.pins
      ∧ (driveOutput n c s).lastServed = s.lastServed ∧ (driveOutput n c s).table = s.table
      ∧ (driveOutput n c s).imageCounts = s.imageCounts ∧ (driveOutput n c s).serial = s.serial
      ∧ (driveOutput n c s).bayEpoch = s.bayEpoch ∧ (driveOutput n c s).ageingDue = s.ageingDue
      ∧ (driveOutput n c s).reports = s.reports ∧ (driveOutput n c s).laneNotices = s.laneNotices
      ∧ (driveOutput n c s).watchList = s.watchList ∧ (driveOutput n c s).missNotes = s.missNotes
      ∧ (driveOutput n c s).twinClaims = s.twinClaims ∧ (driveOutput n c s).cleanups = s.cleanups
      ∧ (driveOutput n c s).loneChanges = s.loneChanges ∧ (driveOutput n c s).redundancy = s.redundancy
      ∧ (driveOutput n c s).bareRoute = s.bareRoute ∧ (driveOutput n c s).subs = s.subs
      ∧ (driveOutput n c s).pubs = s.pubs ∧ (driveOutput n c s).postTrip = s.postTrip
      ∧ (driveOutput n c s).postOther = s.postOther ∧ (driveOutput n c s).take = s.take
      ∧ (driveOutput n c s).calendar = s.calendar ∧ (driveOutput n c s).filtering = s.filtering
      ∧ (driveOutput n c s).inputs = s.inputs ∧ (driveOutput n c s).rules = s.rules
      ∧ (driveOutput n c s).events = s.events := by
  unfold driveOutput updateContacts
  dsimp only
  (repeat' split) <;> simp

/-- R161. Outside RUNNING a DRIVE claim changes nothing. -/
theorem driveOutput_off (n : Fin 4) (c : OutputCause) {s : State} (h : s.partState ≠ .running) : driveOutput n c s = s := if_neg h

/-- What `releaseOutput` changes: outputs, contactEdition, journal. -/
@[simp] theorem releaseOutput_frame (n : Fin 4) (c : OutputCause) (s : State) :
    (releaseOutput n c s).pending = s.pending ∧ (releaseOutput n c s).free = s.free
      ∧ (releaseOutput n c s).partState = s.partState ∧ (releaseOutput n c s).softReset = s.softReset
      ∧ (releaseOutput n c s).clock = s.clock ∧ (releaseOutput n c s).seconds = s.seconds
      ∧ (releaseOutput n c s).nextTick = s.nextTick ∧ (releaseOutput n c s).nextClockUpdate = s.nextClockUpdate
      ∧ (releaseOutput n c s).clockGroup = s.clockGroup ∧ (releaseOutput n c s).mem = s.mem
      ∧ (releaseOutput n c s).result = s.result ∧ (releaseOutput n c s).working = s.working
      ∧ (releaseOutput n c s).heldArms = s.heldArms ∧ (releaseOutput n c s).settings = s.settings
      ∧ (releaseOutput n c s).counters = s.counters ∧ (releaseOutput n c s).laneA = s.laneA
      ∧ (releaseOutput n c s).laneB = s.laneB ∧ (releaseOutput n c s).bays = s.bays
      ∧ (releaseOutput n c s).bayGroup = s.bayGroup ∧ (releaseOutput n c s).pins = s.pins
      ∧ (releaseOutput n c s).lastServed = s.lastServed ∧ (releaseOutput n c s).table = s.table
      ∧ (releaseOutput n c s).imageCounts = s.imageCounts ∧ (releaseOutput n c s).serial = s.serial
      ∧ (releaseOutput n c s).bayEpoch = s.bayEpoch ∧ (releaseOutput n c s).ageingDue = s.ageingDue
      ∧ (releaseOutput n c s).reports = s.reports ∧ (releaseOutput n c s).laneNotices = s.laneNotices
      ∧ (releaseOutput n c s).watchList = s.watchList ∧ (releaseOutput n c s).missNotes = s.missNotes
      ∧ (releaseOutput n c s).twinClaims = s.twinClaims ∧ (releaseOutput n c s).cleanups = s.cleanups
      ∧ (releaseOutput n c s).loneChanges = s.loneChanges ∧ (releaseOutput n c s).redundancy = s.redundancy
      ∧ (releaseOutput n c s).bareRoute = s.bareRoute ∧ (releaseOutput n c s).subs = s.subs
      ∧ (releaseOutput n c s).pubs = s.pubs ∧ (releaseOutput n c s).postTrip = s.postTrip
      ∧ (releaseOutput n c s).postOther = s.postOther ∧ (releaseOutput n c s).take = s.take
      ∧ (releaseOutput n c s).calendar = s.calendar ∧ (releaseOutput n c s).filtering = s.filtering
      ∧ (releaseOutput n c s).inputs = s.inputs ∧ (releaseOutput n c s).rules = s.rules
      ∧ (releaseOutput n c s).events = s.events := by
  unfold releaseOutput updateContacts
  dsimp only
  (repeat' split) <;> simp

/-! ## Publications -/

/-- What `uncalendar` changes: calendar. -/
@[simp] theorem uncalendar_frame (k : Fin 32) (s : State) :
    (uncalendar k s).pending = s.pending ∧ (uncalendar k s).free = s.free ∧ (uncalendar k s).partState = s.partState
      ∧ (uncalendar k s).softReset = s.softReset ∧ (uncalendar k s).clock = s.clock
      ∧ (uncalendar k s).seconds = s.seconds ∧ (uncalendar k s).nextTick = s.nextTick
      ∧ (uncalendar k s).nextClockUpdate = s.nextClockUpdate ∧ (uncalendar k s).clockGroup = s.clockGroup
      ∧ (uncalendar k s).mem = s.mem ∧ (uncalendar k s).result = s.result ∧ (uncalendar k s).working = s.working
      ∧ (uncalendar k s).heldArms = s.heldArms ∧ (uncalendar k s).settings = s.settings
      ∧ (uncalendar k s).counters = s.counters ∧ (uncalendar k s).journal = s.journal
      ∧ (uncalendar k s).laneA = s.laneA ∧ (uncalendar k s).laneB = s.laneB ∧ (uncalendar k s).bays = s.bays
      ∧ (uncalendar k s).bayGroup = s.bayGroup ∧ (uncalendar k s).pins = s.pins
      ∧ (uncalendar k s).lastServed = s.lastServed ∧ (uncalendar k s).table = s.table
      ∧ (uncalendar k s).imageCounts = s.imageCounts ∧ (uncalendar k s).serial = s.serial
      ∧ (uncalendar k s).bayEpoch = s.bayEpoch ∧ (uncalendar k s).ageingDue = s.ageingDue
      ∧ (uncalendar k s).reports = s.reports ∧ (uncalendar k s).laneNotices = s.laneNotices
      ∧ (uncalendar k s).watchList = s.watchList ∧ (uncalendar k s).missNotes = s.missNotes
      ∧ (uncalendar k s).twinClaims = s.twinClaims ∧ (uncalendar k s).cleanups = s.cleanups
      ∧ (uncalendar k s).loneChanges = s.loneChanges ∧ (uncalendar k s).redundancy = s.redundancy
      ∧ (uncalendar k s).bareRoute = s.bareRoute ∧ (uncalendar k s).subs = s.subs ∧ (uncalendar k s).pubs = s.pubs
      ∧ (uncalendar k s).postTrip = s.postTrip ∧ (uncalendar k s).postOther = s.postOther
      ∧ (uncalendar k s).take = s.take ∧ (uncalendar k s).contactEdition = s.contactEdition
      ∧ (uncalendar k s).filtering = s.filtering ∧ (uncalendar k s).inputs = s.inputs
      ∧ (uncalendar k s).outputs = s.outputs ∧ (uncalendar k s).rules = s.rules ∧ (uncalendar k s).events = s.events := by
  unfold uncalendar
  simp

/-- What `sendPub` changes: laneA, laneB, bays, bayGroup, journal, pubs, table, imageCounts. -/
@[simp] theorem sendPub_frame (k : Fin 32) (s : State) :
    (sendPub k s).pending = s.pending ∧ (sendPub k s).free = s.free ∧ (sendPub k s).partState = s.partState
      ∧ (sendPub k s).softReset = s.softReset ∧ (sendPub k s).clock = s.clock ∧ (sendPub k s).seconds = s.seconds
      ∧ (sendPub k s).nextTick = s.nextTick ∧ (sendPub k s).nextClockUpdate = s.nextClockUpdate
      ∧ (sendPub k s).clockGroup = s.clockGroup ∧ (sendPub k s).mem = s.mem ∧ (sendPub k s).result = s.result
      ∧ (sendPub k s).working = s.working ∧ (sendPub k s).heldArms = s.heldArms ∧ (sendPub k s).settings = s.settings
      ∧ (sendPub k s).counters = s.counters ∧ (sendPub k s).pins = s.pins ∧ (sendPub k s).lastServed = s.lastServed
      ∧ (sendPub k s).serial = s.serial ∧ (sendPub k s).bayEpoch = s.bayEpoch ∧ (sendPub k s).ageingDue = s.ageingDue
      ∧ (sendPub k s).reports = s.reports ∧ (sendPub k s).laneNotices = s.laneNotices
      ∧ (sendPub k s).watchList = s.watchList ∧ (sendPub k s).missNotes = s.missNotes
      ∧ (sendPub k s).twinClaims = s.twinClaims ∧ (sendPub k s).cleanups = s.cleanups
      ∧ (sendPub k s).loneChanges = s.loneChanges ∧ (sendPub k s).redundancy = s.redundancy
      ∧ (sendPub k s).bareRoute = s.bareRoute ∧ (sendPub k s).subs = s.subs ∧ (sendPub k s).postTrip = s.postTrip
      ∧ (sendPub k s).postOther = s.postOther ∧ (sendPub k s).take = s.take ∧ (sendPub k s).calendar = s.calendar
      ∧ (sendPub k s).contactEdition = s.contactEdition ∧ (sendPub k s).filtering = s.filtering
      ∧ (sendPub k s).inputs = s.inputs ∧ (sendPub k s).outputs = s.outputs ∧ (sendPub k s).rules = s.rules
      ∧ (sendPub k s).events = s.events := by
  unfold sendPub
  dsimp only
  split <;> simp

/-- What `completeTake` changes: laneA, laneB, bays, bayGroup, journal, pubs, table, imageCounts, calendar. -/
@[simp] theorem completeTake_frame (k : Fin 32) (w : Poster) (n : Word) (c : List Byte) (s : State) :
    (completeTake k w n c s).pending = s.pending ∧ (completeTake k w n c s).free = s.free
      ∧ (completeTake k w n c s).partState = s.partState ∧ (completeTake k w n c s).softReset = s.softReset
      ∧ (completeTake k w n c s).clock = s.clock ∧ (completeTake k w n c s).seconds = s.seconds
      ∧ (completeTake k w n c s).nextTick = s.nextTick ∧ (completeTake k w n c s).nextClockUpdate = s.nextClockUpdate
      ∧ (completeTake k w n c s).clockGroup = s.clockGroup ∧ (completeTake k w n c s).mem = s.mem
      ∧ (completeTake k w n c s).result = s.result ∧ (completeTake k w n c s).working = s.working
      ∧ (completeTake k w n c s).heldArms = s.heldArms ∧ (completeTake k w n c s).settings = s.settings
      ∧ (completeTake k w n c s).counters = s.counters ∧ (completeTake k w n c s).pins = s.pins
      ∧ (completeTake k w n c s).lastServed = s.lastServed ∧ (completeTake k w n c s).serial = s.serial
      ∧ (completeTake k w n c s).bayEpoch = s.bayEpoch ∧ (completeTake k w n c s).ageingDue = s.ageingDue
      ∧ (completeTake k w n c s).reports = s.reports ∧ (completeTake k w n c s).laneNotices = s.laneNotices
      ∧ (completeTake k w n c s).watchList = s.watchList ∧ (completeTake k w n c s).missNotes = s.missNotes
      ∧ (completeTake k w n c s).twinClaims = s.twinClaims ∧ (completeTake k w n c s).cleanups = s.cleanups
      ∧ (completeTake k w n c s).loneChanges = s.loneChanges ∧ (completeTake k w n c s).redundancy = s.redundancy
      ∧ (completeTake k w n c s).bareRoute = s.bareRoute ∧ (completeTake k w n c s).subs = s.subs
      ∧ (completeTake k w n c s).postTrip = s.postTrip ∧ (completeTake k w n c s).postOther = s.postOther
      ∧ (completeTake k w n c s).take = s.take ∧ (completeTake k w n c s).contactEdition = s.contactEdition
      ∧ (completeTake k w n c s).filtering = s.filtering ∧ (completeTake k w n c s).inputs = s.inputs
      ∧ (completeTake k w n c s).outputs = s.outputs ∧ (completeTake k w n c s).rules = s.rules
      ∧ (completeTake k w n c s).events = s.events := by
  unfold completeTake
  split <;> simp

/-- What `beginTake` changes: laneA, laneB, bays, bayGroup, journal, pubs, table, imageCounts, calendar, take. -/
@[simp] theorem beginTake_frame (p : Post) (s : State) :
    (beginTake p s).pending = s.pending ∧ (beginTake p s).free = s.free ∧ (beginTake p s).partState = s.partState
      ∧ (beginTake p s).softReset = s.softReset ∧ (beginTake p s).clock = s.clock
      ∧ (beginTake p s).seconds = s.seconds ∧ (beginTake p s).nextTick = s.nextTick
      ∧ (beginTake p s).nextClockUpdate = s.nextClockUpdate ∧ (beginTake p s).clockGroup = s.clockGroup
      ∧ (beginTake p s).mem = s.mem ∧ (beginTake p s).result = s.result ∧ (beginTake p s).working = s.working
      ∧ (beginTake p s).heldArms = s.heldArms ∧ (beginTake p s).settings = s.settings
      ∧ (beginTake p s).counters = s.counters ∧ (beginTake p s).pins = s.pins
      ∧ (beginTake p s).lastServed = s.lastServed ∧ (beginTake p s).serial = s.serial
      ∧ (beginTake p s).bayEpoch = s.bayEpoch ∧ (beginTake p s).ageingDue = s.ageingDue
      ∧ (beginTake p s).reports = s.reports ∧ (beginTake p s).laneNotices = s.laneNotices
      ∧ (beginTake p s).watchList = s.watchList ∧ (beginTake p s).missNotes = s.missNotes
      ∧ (beginTake p s).twinClaims = s.twinClaims ∧ (beginTake p s).cleanups = s.cleanups
      ∧ (beginTake p s).loneChanges = s.loneChanges ∧ (beginTake p s).redundancy = s.redundancy
      ∧ (beginTake p s).bareRoute = s.bareRoute ∧ (beginTake p s).subs = s.subs
      ∧ (beginTake p s).postTrip = s.postTrip ∧ (beginTake p s).postOther = s.postOther
      ∧ (beginTake p s).contactEdition = s.contactEdition ∧ (beginTake p s).filtering = s.filtering
      ∧ (beginTake p s).inputs = s.inputs ∧ (beginTake p s).outputs = s.outputs ∧ (beginTake p s).rules = s.rules
      ∧ (beginTake p s).events = s.events := by
  unfold beginTake
  split <;> simp

/-- What `beginTakes` changes: laneA, laneB, bays, bayGroup, journal, pubs, table, imageCounts, calendar, take,
postTrip, postOther. -/
@[simp] theorem beginTakes_frame (n : Nat) (s : State) :
    (beginTakes n s).pending = s.pending ∧ (beginTakes n s).free = s.free ∧ (beginTakes n s).partState = s.partState
      ∧ (beginTakes n s).softReset = s.softReset ∧ (beginTakes n s).clock = s.clock
      ∧ (beginTakes n s).seconds = s.seconds ∧ (beginTakes n s).nextTick = s.nextTick
      ∧ (beginTakes n s).nextClockUpdate = s.nextClockUpdate ∧ (beginTakes n s).clockGroup = s.clockGroup
      ∧ (beginTakes n s).mem = s.mem ∧ (beginTakes n s).result = s.result ∧ (beginTakes n s).working = s.working
      ∧ (beginTakes n s).heldArms = s.heldArms ∧ (beginTakes n s).settings = s.settings
      ∧ (beginTakes n s).counters = s.counters ∧ (beginTakes n s).pins = s.pins
      ∧ (beginTakes n s).lastServed = s.lastServed ∧ (beginTakes n s).serial = s.serial
      ∧ (beginTakes n s).bayEpoch = s.bayEpoch ∧ (beginTakes n s).ageingDue = s.ageingDue
      ∧ (beginTakes n s).reports = s.reports ∧ (beginTakes n s).laneNotices = s.laneNotices
      ∧ (beginTakes n s).watchList = s.watchList ∧ (beginTakes n s).missNotes = s.missNotes
      ∧ (beginTakes n s).twinClaims = s.twinClaims ∧ (beginTakes n s).cleanups = s.cleanups
      ∧ (beginTakes n s).loneChanges = s.loneChanges ∧ (beginTakes n s).redundancy = s.redundancy
      ∧ (beginTakes n s).bareRoute = s.bareRoute ∧ (beginTakes n s).subs = s.subs
      ∧ (beginTakes n s).contactEdition = s.contactEdition ∧ (beginTakes n s).filtering = s.filtering
      ∧ (beginTakes n s).inputs = s.inputs ∧ (beginTakes n s).outputs = s.outputs ∧ (beginTakes n s).rules = s.rules
      ∧ (beginTakes n s).events = s.events := by
  induction n generalizing s with
  | zero => unfold beginTakes; simp
  | succ n ih =>
    unfold beginTakes
    (repeat' split) <;> simp [ih]

/-- What `runTakes` changes: laneA, laneB, bays, bayGroup, journal, pubs, table, imageCounts, calendar, take,
postTrip, postOther. -/
@[simp] theorem runTakes_frame (s : State) :
    (runTakes s).pending = s.pending ∧ (runTakes s).free = s.free ∧ (runTakes s).partState = s.partState
      ∧ (runTakes s).softReset = s.softReset ∧ (runTakes s).clock = s.clock ∧ (runTakes s).seconds = s.seconds
      ∧ (runTakes s).nextTick = s.nextTick ∧ (runTakes s).nextClockUpdate = s.nextClockUpdate
      ∧ (runTakes s).clockGroup = s.clockGroup ∧ (runTakes s).mem = s.mem ∧ (runTakes s).result = s.result
      ∧ (runTakes s).working = s.working ∧ (runTakes s).heldArms = s.heldArms ∧ (runTakes s).settings = s.settings
      ∧ (runTakes s).counters = s.counters ∧ (runTakes s).pins = s.pins ∧ (runTakes s).lastServed = s.lastServed
      ∧ (runTakes s).serial = s.serial ∧ (runTakes s).bayEpoch = s.bayEpoch ∧ (runTakes s).ageingDue = s.ageingDue
      ∧ (runTakes s).reports = s.reports ∧ (runTakes s).laneNotices = s.laneNotices
      ∧ (runTakes s).watchList = s.watchList ∧ (runTakes s).missNotes = s.missNotes
      ∧ (runTakes s).twinClaims = s.twinClaims ∧ (runTakes s).cleanups = s.cleanups
      ∧ (runTakes s).loneChanges = s.loneChanges ∧ (runTakes s).redundancy = s.redundancy
      ∧ (runTakes s).bareRoute = s.bareRoute ∧ (runTakes s).subs = s.subs
      ∧ (runTakes s).contactEdition = s.contactEdition ∧ (runTakes s).filtering = s.filtering
      ∧ (runTakes s).inputs = s.inputs ∧ (runTakes s).outputs = s.outputs ∧ (runTakes s).rules = s.rules
      ∧ (runTakes s).events = s.events := by
  unfold runTakes
  simp

/-- What `joinPosts` changes: postTrip, postOther. -/
@[simp] theorem joinPosts_frame (k : Fin 32) (w : Poster) (s : State) :
    (joinPosts k w s).pending = s.pending ∧ (joinPosts k w s).free = s.free
      ∧ (joinPosts k w s).partState = s.partState ∧ (joinPosts k w s).softReset = s.softReset
      ∧ (joinPosts k w s).clock = s.clock ∧ (joinPosts k w s).seconds = s.seconds
      ∧ (joinPosts k w s).nextTick = s.nextTick ∧ (joinPosts k w s).nextClockUpdate = s.nextClockUpdate
      ∧ (joinPosts k w s).clockGroup = s.clockGroup ∧ (joinPosts k w s).mem = s.mem
      ∧ (joinPosts k w s).result = s.result ∧ (joinPosts k w s).working = s.working
      ∧ (joinPosts k w s).heldArms = s.heldArms ∧ (joinPosts k w s).settings = s.settings
      ∧ (joinPosts k w s).counters = s.counters ∧ (joinPosts k w s).journal = s.journal
      ∧ (joinPosts k w s).laneA = s.laneA ∧ (joinPosts k w s).laneB = s.laneB ∧ (joinPosts k w s).bays = s.bays
      ∧ (joinPosts k w s).bayGroup = s.bayGroup ∧ (joinPosts k w s).pins = s.pins
      ∧ (joinPosts k w s).lastServed = s.lastServed ∧ (joinPosts k w s).table = s.table
      ∧ (joinPosts k w s).imageCounts = s.imageCounts ∧ (joinPosts k w s).serial = s.serial
      ∧ (joinPosts k w s).bayEpoch = s.bayEpoch ∧ (joinPosts k w s).ageingDue = s.ageingDue
      ∧ (joinPosts k w s).reports = s.reports ∧ (joinPosts k w s).laneNotices = s.laneNotices
      ∧ (joinPosts k w s).watchList = s.watchList ∧ (joinPosts k w s).missNotes = s.missNotes
      ∧ (joinPosts k w s).twinClaims = s.twinClaims ∧ (joinPosts k w s).cleanups = s.cleanups
      ∧ (joinPosts k w s).loneChanges = s.loneChanges ∧ (joinPosts k w s).redundancy = s.redundancy
      ∧ (joinPosts k w s).bareRoute = s.bareRoute ∧ (joinPosts k w s).subs = s.subs ∧ (joinPosts k w s).pubs = s.pubs
      ∧ (joinPosts k w s).take = s.take ∧ (joinPosts k w s).calendar = s.calendar
      ∧ (joinPosts k w s).contactEdition = s.contactEdition ∧ (joinPosts k w s).filtering = s.filtering
      ∧ (joinPosts k w s).inputs = s.inputs ∧ (joinPosts k w s).outputs = s.outputs
      ∧ (joinPosts k w s).rules = s.rules ∧ (joinPosts k w s).events = s.events := by
  unfold joinPosts
  (repeat' split) <;> simp

/-- What `post` changes: laneA, laneB, bays, bayGroup, journal, pubs, table, imageCounts, calendar, take, postTrip,
postOther. -/
@[simp] theorem post_frame (k : Fin 32) (w : Poster) (s : State) :
    (post k w s).pending = s.pending ∧ (post k w s).free = s.free ∧ (post k w s).partState = s.partState
      ∧ (post k w s).softReset = s.softReset ∧ (post k w s).clock = s.clock ∧ (post k w s).seconds = s.seconds
      ∧ (post k w s).nextTick = s.nextTick ∧ (post k w s).nextClockUpdate = s.nextClockUpdate
      ∧ (post k w s).clockGroup = s.clockGroup ∧ (post k w s).mem = s.mem ∧ (post k w s).result = s.result
      ∧ (post k w s).working = s.working ∧ (post k w s).heldArms = s.heldArms ∧ (post k w s).settings = s.settings
      ∧ (post k w s).counters = s.counters ∧ (post k w s).pins = s.pins ∧ (post k w s).lastServed = s.lastServed
      ∧ (post k w s).serial = s.serial ∧ (post k w s).bayEpoch = s.bayEpoch ∧ (post k w s).ageingDue = s.ageingDue
      ∧ (post k w s).reports = s.reports ∧ (post k w s).laneNotices = s.laneNotices
      ∧ (post k w s).watchList = s.watchList ∧ (post k w s).missNotes = s.missNotes
      ∧ (post k w s).twinClaims = s.twinClaims ∧ (post k w s).cleanups = s.cleanups
      ∧ (post k w s).loneChanges = s.loneChanges ∧ (post k w s).redundancy = s.redundancy
      ∧ (post k w s).bareRoute = s.bareRoute ∧ (post k w s).subs = s.subs
      ∧ (post k w s).contactEdition = s.contactEdition ∧ (post k w s).filtering = s.filtering
      ∧ (post k w s).inputs = s.inputs ∧ (post k w s).outputs = s.outputs ∧ (post k w s).rules = s.rules
      ∧ (post k w s).events = s.events := by
  unfold post
  split <;> simp

/-! ## Link rules -/

/-- What `act` changes: laneA, laneB, bays, bayGroup, journal, pubs, table, imageCounts, calendar, take, postTrip,
postOther, outputs, contactEdition. -/
@[simp] theorem act_frame (k : Fin 16) (a : Action) (s : State) :
    ((act k a s).1).pending = s.pending ∧ ((act k a s).1).free = s.free ∧ ((act k a s).1).partState = s.partState
      ∧ ((act k a s).1).softReset = s.softReset ∧ ((act k a s).1).clock = s.clock
      ∧ ((act k a s).1).seconds = s.seconds ∧ ((act k a s).1).nextTick = s.nextTick
      ∧ ((act k a s).1).nextClockUpdate = s.nextClockUpdate ∧ ((act k a s).1).clockGroup = s.clockGroup
      ∧ ((act k a s).1).mem = s.mem ∧ ((act k a s).1).result = s.result ∧ ((act k a s).1).working = s.working
      ∧ ((act k a s).1).heldArms = s.heldArms ∧ ((act k a s).1).settings = s.settings
      ∧ ((act k a s).1).counters = s.counters ∧ ((act k a s).1).pins = s.pins
      ∧ ((act k a s).1).lastServed = s.lastServed ∧ ((act k a s).1).serial = s.serial
      ∧ ((act k a s).1).bayEpoch = s.bayEpoch ∧ ((act k a s).1).ageingDue = s.ageingDue
      ∧ ((act k a s).1).reports = s.reports ∧ ((act k a s).1).laneNotices = s.laneNotices
      ∧ ((act k a s).1).watchList = s.watchList ∧ ((act k a s).1).missNotes = s.missNotes
      ∧ ((act k a s).1).twinClaims = s.twinClaims ∧ ((act k a s).1).cleanups = s.cleanups
      ∧ ((act k a s).1).loneChanges = s.loneChanges ∧ ((act k a s).1).redundancy = s.redundancy
      ∧ ((act k a s).1).bareRoute = s.bareRoute ∧ ((act k a s).1).subs = s.subs
      ∧ ((act k a s).1).filtering = s.filtering ∧ ((act k a s).1).inputs = s.inputs ∧ ((act k a s).1).rules = s.rules
      ∧ ((act k a s).1).events = s.events := by
  unfold act
  (repeat' split) <;> simp

/-- What `fire` changes: laneA, laneB, bays, bayGroup, journal, pubs, table, imageCounts, calendar, take, postTrip,
postOther, outputs, contactEdition, rules. -/
@[simp] theorem fire_frame (k : Fin 16) (c : RuleCopy) (e : RuleEvent) (s : State) :
    (fire k c e s).pending = s.pending ∧ (fire k c e s).free = s.free ∧ (fire k c e s).partState = s.partState
      ∧ (fire k c e s).softReset = s.softReset ∧ (fire k c e s).clock = s.clock ∧ (fire k c e s).seconds = s.seconds
      ∧ (fire k c e s).nextTick = s.nextTick ∧ (fire k c e s).nextClockUpdate = s.nextClockUpdate
      ∧ (fire k c e s).clockGroup = s.clockGroup ∧ (fire k c e s).mem = s.mem ∧ (fire k c e s).result = s.result
      ∧ (fire k c e s).working = s.working ∧ (fire k c e s).heldArms = s.heldArms
      ∧ (fire k c e s).settings = s.settings ∧ (fire k c e s).counters = s.counters ∧ (fire k c e s).pins = s.pins
      ∧ (fire k c e s).lastServed = s.lastServed ∧ (fire k c e s).serial = s.serial
      ∧ (fire k c e s).bayEpoch = s.bayEpoch ∧ (fire k c e s).ageingDue = s.ageingDue
      ∧ (fire k c e s).reports = s.reports ∧ (fire k c e s).laneNotices = s.laneNotices
      ∧ (fire k c e s).watchList = s.watchList ∧ (fire k c e s).missNotes = s.missNotes
      ∧ (fire k c e s).twinClaims = s.twinClaims ∧ (fire k c e s).cleanups = s.cleanups
      ∧ (fire k c e s).loneChanges = s.loneChanges ∧ (fire k c e s).redundancy = s.redundancy
      ∧ (fire k c e s).bareRoute = s.bareRoute ∧ (fire k c e s).subs = s.subs
      ∧ (fire k c e s).filtering = s.filtering ∧ (fire k c e s).inputs = s.inputs ∧ (fire k c e s).events = s.events := by
  unfold fire
  dsimp only
  (repeat' split) <;> simp

/-- What `judgeRule` changes: laneA, laneB, bays, bayGroup, journal, pubs, table, imageCounts, calendar, take,
postTrip, postOther, outputs, contactEdition, rules. -/
@[simp] theorem judgeRule_frame (e : RuleEvent) (s : State) (k : Fin 16) :
    (judgeRule e s k).pending = s.pending ∧ (judgeRule e s k).free = s.free
      ∧ (judgeRule e s k).partState = s.partState ∧ (judgeRule e s k).softReset = s.softReset
      ∧ (judgeRule e s k).clock = s.clock ∧ (judgeRule e s k).seconds = s.seconds
      ∧ (judgeRule e s k).nextTick = s.nextTick ∧ (judgeRule e s k).nextClockUpdate = s.nextClockUpdate
      ∧ (judgeRule e s k).clockGroup = s.clockGroup ∧ (judgeRule e s k).mem = s.mem
      ∧ (judgeRule e s k).result = s.result ∧ (judgeRule e s k).working = s.working
      ∧ (judgeRule e s k).heldArms = s.heldArms ∧ (judgeRule e s k).settings = s.settings
      ∧ (judgeRule e s k).counters = s.counters ∧ (judgeRule e s k).pins = s.pins
      ∧ (judgeRule e s k).lastServed = s.lastServed ∧ (judgeRule e s k).serial = s.serial
      ∧ (judgeRule e s k).bayEpoch = s.bayEpoch ∧ (judgeRule e s k).ageingDue = s.ageingDue
      ∧ (judgeRule e s k).reports = s.reports ∧ (judgeRule e s k).laneNotices = s.laneNotices
      ∧ (judgeRule e s k).watchList = s.watchList ∧ (judgeRule e s k).missNotes = s.missNotes
      ∧ (judgeRule e s k).twinClaims = s.twinClaims ∧ (judgeRule e s k).cleanups = s.cleanups
      ∧ (judgeRule e s k).loneChanges = s.loneChanges ∧ (judgeRule e s k).redundancy = s.redundancy
      ∧ (judgeRule e s k).bareRoute = s.bareRoute ∧ (judgeRule e s k).subs = s.subs
      ∧ (judgeRule e s k).filtering = s.filtering ∧ (judgeRule e s k).inputs = s.inputs
      ∧ (judgeRule e s k).events = s.events := by
  unfold judgeRule
  dsimp only
  (repeat' split) <;> simp

/-- What `takeEvent` changes: laneA, laneB, bays, bayGroup, journal, pubs, table, imageCounts, calendar, take,
postTrip, postOther, outputs, contactEdition, rules. -/
@[simp] theorem takeEvent_frame (e : RuleEvent) (s : State) :
    (takeEvent e s).pending = s.pending ∧ (takeEvent e s).free = s.free ∧ (takeEvent e s).partState = s.partState
      ∧ (takeEvent e s).softReset = s.softReset ∧ (takeEvent e s).clock = s.clock
      ∧ (takeEvent e s).seconds = s.seconds ∧ (takeEvent e s).nextTick = s.nextTick
      ∧ (takeEvent e s).nextClockUpdate = s.nextClockUpdate ∧ (takeEvent e s).clockGroup = s.clockGroup
      ∧ (takeEvent e s).mem = s.mem ∧ (takeEvent e s).result = s.result ∧ (takeEvent e s).working = s.working
      ∧ (takeEvent e s).heldArms = s.heldArms ∧ (takeEvent e s).settings = s.settings
      ∧ (takeEvent e s).counters = s.counters ∧ (takeEvent e s).pins = s.pins
      ∧ (takeEvent e s).lastServed = s.lastServed ∧ (takeEvent e s).serial = s.serial
      ∧ (takeEvent e s).bayEpoch = s.bayEpoch ∧ (takeEvent e s).ageingDue = s.ageingDue
      ∧ (takeEvent e s).reports = s.reports ∧ (takeEvent e s).laneNotices = s.laneNotices
      ∧ (takeEvent e s).watchList = s.watchList ∧ (takeEvent e s).missNotes = s.missNotes
      ∧ (takeEvent e s).twinClaims = s.twinClaims ∧ (takeEvent e s).cleanups = s.cleanups
      ∧ (takeEvent e s).loneChanges = s.loneChanges ∧ (takeEvent e s).redundancy = s.redundancy
      ∧ (takeEvent e s).bareRoute = s.bareRoute ∧ (takeEvent e s).subs = s.subs
      ∧ (takeEvent e s).filtering = s.filtering ∧ (takeEvent e s).inputs = s.inputs
      ∧ (takeEvent e s).events = s.events := by
  unfold takeEvent
  and_intros <;> (refine foldl_keeps _ _ (fun s p => ?_) _ _; simp)

end Sys2Proof.Machine
end

