-- ==== Sys2Proof/Laws/Table.lean ====
section
/-! SUPPORT. The stream table: what a search of it finds, what a claim of the engine that leaves it alone does; how a slot joins
the post set and which take begins next. -/

namespace Sys2Proof.Machine

/-! ## Searches -/

/-- A search that fails fails at every index. -/
theorem findAt?_none {α : Type} {n : Nat} {p : α → Bool} {v : Vector α n} (h : findAt? p v = none) (i : Fin n) :
    p v[i] = false := by
  unfold findAt? at h
  split at h
  · next k hk =>
    split at h
    · cases h
    · next hn =>
      have hl : v.toList.length = n := by simp
      exact absurd (by rw [← hl]; exact (List.findIdx?_eq_some_iff_getElem.mp hk).1) hn
  · next hk =>
    have := List.findIdx?_eq_none_iff.mp hk v[i] (by simp)
    simpa using this

/-- A search finds something if it succeeds anywhere. -/
theorem findAt?_isSome {α : Type} {n : Nat} {p : α → Bool} {v : Vector α n} (i : Fin n) (h : p v[i] = true) :
    ∃ j, findAt? p v = some j ∧ p v[j] = true := by
  rcases hf : findAt? p v with _ | j
  · rw [findAt?_none hf i] at h; cases h
  · exact ⟨j, rfl, findAt?_holds p v j hf⟩

/-- A search finds the first index at which it succeeds. -/
theorem findAt?_iff {α : Type} {n : Nat} {p : α → Bool} {v : Vector α n} {i : Fin n} :
    findAt? p v = some i ↔ p v[i] = true ∧ ∀ j : Fin n, j.val < i.val → p v[j] = false := by
  have hl : v.toList.length = n := by simp
  constructor
  · intro h
    refine ⟨findAt?_holds p v i h, fun j hj => ?_⟩
    unfold findAt? at h
    split at h
    · next k hk =>
      split at h
      · cases h
        have := (List.findIdx?_eq_some_iff_getElem.mp hk).2.2 j.val hj
        simpa using this
      · cases h
    · cases h
  · rintro ⟨h1, h2⟩
    obtain ⟨k, hk, hp⟩ := findAt?_isSome i h1
    rw [hk]
    unfold findAt? at hk
    split at hk
    · next m hm =>
      split at hk
      · next hmn =>
        cases hk
        have hfirst := (List.findIdx?_eq_some_iff_getElem.mp hm).2.2
        have hlt : ¬m < i.val := fun hlt => by have := h2 ⟨m, hmn⟩ hlt; rw [hp] at this; cases this
        have hgt : ¬i.val < m := fun hgt => by
          have := hfirst i.val hgt
          rw [Vector.getElem_toList] at this
          exact absurd h1 (by simpa using this)
        congr 1
        exact Fin.ext (by simp only; omega)
      · cases hk
    · cases hk

/-- R44. A stream looked up: its entry stands at the position. -/
theorem lookup_some {s : State} {id : Word} {p : Fin 512} {e : Entry} (h : s.lookup id = some (p, e)) :
    s.table[p] = some e ∧ e.id = id := by
  unfold State.lookup at h
  split at h
  · next q hq =>
    have hp := findAt?_holds _ _ _ hq
    rcases he : s.table[q] with _ | f <;> rw [he] at h
    · cases h
    · cases h
      rw [he] at hp
      exact ⟨he, by simpa using hp⟩
  · cases h

/-- R44. A stream that is not found has no entry. -/
theorem lookup_none {s : State} {id : Word} (h : s.lookup id = none) (p : Fin 512) (e : Entry) (he : s.table[p] = some e) :
    e.id ≠ id := by
  unfold State.lookup at h
  split at h
  · next q hq =>
    have hp := findAt?_holds _ _ _ hq
    rcases hf : s.table[q] with _ | f <;> rw [hf] at h hp
    · cases hp
    · cases h
  · next hq =>
    have := findAt?_none hq p
    rw [he] at this
    simpa using this

/-- R44. The one entry of a stream is the entry found. -/
theorem lookup_unique {s : State} {p : Fin 512} {e : Entry} (he : s.table[p] = some e)
    (hu : ∀ (q : Fin 512) (f : Entry), s.table[q] = some f → f.id = e.id → q = p) : s.lookup e.id = some (p, e) := by
  cases hl : s.lookup e.id with
  | none => exact absurd rfl (lookup_none hl p e he)
  | some r =>
    obtain ⟨h1, h2⟩ := lookup_some (p := r.1) (e := r.2) hl
    have hp := hu _ _ h1 h2
    rw [hp, he] at h1
    exact congrArg some (Prod.ext hp (Option.some.inj h1).symm)

/-- R42. A free position is free. -/
theorem freePosition_some {s : State} {p : Fin 512} (h : s.freePosition = some p) : s.table[p] = none := by
  simpa using findAt?_holds _ _ _ h

/-- R42. With no free position, every position holds an entry. -/
theorem freePosition_none {s : State} (h : s.freePosition = none) (p : Fin 512) : s.table[p].isSome = true := by
  have := findAt?_none h p
  rcases hp : s.table[p] with _ | e
  · rw [hp] at this; cases this
  · rfl

theorem slotEntry_some {s : State} {k : Fin 64} {p : Fin 512} (h : s.slotEntry k = some p) :
    ∃ e, s.table[p] = some e ∧ e.slot = some k := by
  have hp := findAt?_holds _ _ _ h
  rcases he : s.table[p] with _ | e <;> rw [he] at hp
  · cases hp
  · exact ⟨e, rfl, by simpa using hp⟩

theorem slotEntry_none {s : State} {k : Fin 64} (h : s.slotEntry k = none) (p : Fin 512) (e : Entry)
    (he : s.table[p] = some e) : e.slot ≠ some k := by
  have := findAt?_none h p
  rw [he] at this
  simpa using this

/-- R42. The free position is the lowest. -/
theorem freePosition_iff (s : State) (p : Fin 512) :
    s.freePosition = some p ↔ s.table[p] = none ∧ ∀ q : Fin 512, q.val < p.val → s.table[q].isSome = true := by
  unfold State.freePosition
  rw [findAt?_iff]
  simp [Option.isSome_iff_ne_none]

/-- The position of a slot's entry is the lowest whose entry holds the slot. -/
theorem slotEntry_iff (s : State) (k : Fin 64) (p : Fin 512) :
    s.slotEntry k = some p ↔ (∃ e, s.table[p] = some e ∧ e.slot = some k)
      ∧ ∀ (q : Fin 512) (f : Entry), q.val < p.val → s.table[q] = some f → f.slot ≠ some k := by
  have h : ∀ q : Fin 512, ((match s.table[q] with | some e => e.slot == some k | none => false) = true)
      ↔ ∃ e, s.table[q] = some e ∧ e.slot = some k := fun q => by
    cases s.table[q] <;> simp
  unfold State.slotEntry
  refine findAt?_iff.trans (and_congr (h p) ⟨fun hq q f hlt hf hs => ?_, fun hq q hlt => ?_⟩)
  · exact Bool.eq_false_iff.mp (hq q hlt) ((h q).mpr ⟨f, hf, hs⟩)
  · refine Bool.eq_false_iff.mpr fun hc => ?_
    obtain ⟨f, hf, hs⟩ := (h q).mp hc
    exact hq q f hlt hf hs

/-- R58. An entry named by its serial: it stands at the position. -/
theorem lookupNamed_some {s : State} {id serial : Word} {p : Fin 512} {e : Entry} (h : s.lookupNamed id serial = some (p, e)) :
    s.table[p] = some e ∧ e.id = id ∧ e.serial = serial := by
  unfold State.lookupNamed at h
  split at h
  · next q hq =>
    have hp := findAt?_holds _ _ _ hq
    rcases he : s.table[q] with _ | f <;> rw [he] at h
    · cases h
    · cases h
      rw [he] at hp
      exact ⟨he, by simpa using hp⟩
  · cases h

/-- R58. An entry that is not found under its serial is not there. -/
theorem lookupNamed_none {s : State} {id serial : Word} (h : s.lookupNamed id serial = none) (p : Fin 512) (e : Entry)
    (he : s.table[p] = some e) : ¬(e.id = id ∧ e.serial = serial) := by
  unfold State.lookupNamed at h
  split at h
  · next q hq =>
    have hp := findAt?_holds _ _ _ hq
    rcases hf : s.table[q] with _ | f <;> rw [hf] at h hp
    · cases hp
    · cases h
  · next hq =>
    have := findAt?_none hq p
    rw [he] at this
    simpa using this

/-- A position after `putEntry`. -/
theorem putEntry_get (p q : Fin 512) (e : Option Entry) (s : State) :
    (s.putEntry p e).table[q] = if p = q then e else s.table[q] := by
  rw [putEntry_table, Fin.getElem_fin, Vector.getElem_set]
  simp only [Fin.ext_iff]
  rfl

/-- A position after an entry is made (R42). -/
theorem makeEntry_get (p q : Fin 512) (e : Entry) (s : State) :
    (makeEntry p e s).table[q] = if p = q then some { e with serial := s.serial + 1 } else s.table[q] :=
  putEntry_get p q _ _

/-! ## Record images -/

@[simp] theorem imageUpdates_self (o : Option Entry) : imageUpdates o o = 0 := by
  cases o <;> simp [imageUpdates]

/-- R43. With no removal, every entry stands over the claim. -/
@[simp] theorem standing_self (s : State) : s.standing s.imageCounts = s.table := by
  ext i hi
  simp [State.standing]

/-- R43. A claim of the engine that leaves the table and the images alone moves no record image. -/
theorem asEngineClaim_same (f : State → State) (s : State) (ht : (f s).table = s.table)
    (hi : (f s).imageCounts = s.imageCounts) : asEngineClaim f s = f s := by
  have key : zipAll (· + ·) (f s).imageCounts (zipAll imageUpdates (s.standing (f s).imageCounts) (f s).table)
      = (f s).imageCounts := by
    rw [hi, standing_self, ht]
    ext i hi
    simp
  unfold asEngineClaim
  dsimp only
  rw [key]

/-- R43. A claim that makes an entry at a free position moves that record alone, by one update. -/
theorem asEngineClaim_made (f : State → State) (s : State) (p : Fin 512) (e : Entry) (hp : s.table[p] = none)
    (ht : (f s).table = s.table.set p (some e)) (hi : (f s).imageCounts = s.imageCounts) :
    ∃ counts, asEngineClaim f s = { f s with imageCounts := counts } ∧ counts[p] = s.imageCounts[p] + 1
      ∧ ∀ q : Fin 512, q ≠ p → counts[q] = s.imageCounts[q] := by
  have get : ∀ (u v : Vector (Option Entry) 512) (q : Fin 512),
      (zipAll (· + ·) s.imageCounts (zipAll imageUpdates u v))[q] = s.imageCounts[q] + imageUpdates u[q] v[q] := by
    intro u v q; simp [zipAll]
  refine ⟨zipAll (· + ·) s.imageCounts (zipAll imageUpdates s.table (s.table.set p (some e))), ?_, ?_, fun q hq => ?_⟩
  · unfold asEngineClaim
    simp only [hi, standing_self, ht]
  · rw [get, hp]; simp [imageUpdates]
  · have hq' : ¬p.val = q.val := fun h => hq (Fin.ext h.symm)
    have hget : (s.table.set p (some e))[q] = s.table[q] := by simp [hq']
    rw [get, hget]
    simp

/-- R55. With no removal due, none is made. -/
theorem settleAgeing_none {s : State} (h : s.ageingDue = []) : settleAgeing s = s := by simp [settleAgeing, h]

/-- R134. With nothing posted, no take begins. -/
theorem runTakes_none {s : State} (h : s.postTrip = []) (h' : s.postOther = []) : runTakes s = s := by
  simp [runTakes, h, h', beginTakes]

/-- R134. With a take in progress, no other begins. -/
theorem runTakes_busy {s : State} (h : s.take.isSome = true) : runTakes s = s := by
  unfold runTakes
  rcases s.postTrip.length + s.postOther.length with _ | n
  · rfl
  · simp [beginTakes, h]

/-- R134. With no take in progress and a slot posted, the next take begins; that of a CONTACT-SNAPSHOT slot completes at once. -/
theorem runTakes_next {s : State} {p : Post} {c : PubConfig} {trip' other' : List Post} (h : s.take = none)
    (hp : (s.postTrip = p :: trip' ∧ other' = s.postOther) ∨ (s.postTrip = [] ∧ trip' = [] ∧ s.postOther = p :: other'))
    (hc : s.pubs[p.slot].config = some c) :
    runTakes s =
      (let t := { s with postTrip := trip', postOther := other' }
       let edition := readWord s.mem (pubBase p.slot + 11)
       if c.snapshot then runTakes (completeTake p.slot p.poster edition (contactSnapshot s.inputs) t)
       else { t with take := some { slot := p.slot, poster := p.poster, edition := edition
                                    staged := readStaged s.mem p.slot } }) := by
  have key : runTakes s
      = beginTakes (trip'.length + other'.length) (beginTake p { s with postTrip := trip', postOther := other' }) := by
    obtain ⟨h1, rfl⟩ | ⟨h1, rfl, h3⟩ := hp
    · unfold runTakes
      rw [h1, List.length_cons, Nat.add_right_comm, beginTakes, h]
      simp [h1]
    · unfold runTakes
      rw [h1, h3, List.length_cons, List.length_nil, Nat.zero_add, beginTakes, h]
      simp [h1, h3]
  rw [key]
  unfold beginTake
  rw [hc]
  by_cases hs : c.snapshot = true
  · simp only [hs, Option.map, Option.getD, if_true]
    unfold runTakes
    simp
  · have hb : ∀ (n : Nat) (t : State), t.take.isSome = true → beginTakes n t = t := by
      intro n t ht
      cases n <;> simp [beginTakes, ht]
    simp only [hs, Option.map, Option.getD]
    exact hb _ _ rfl

/-- R133. A slot that is posted already keeps its place. -/
theorem joinPosts_posted {k : Fin 32} {w : Poster} {s : State} (h : posted k s = true) : joinPosts k w s = s := by
  unfold joinPosts
  rw [if_pos h]

/-- R133. A slot that is not joins the tail of its class group. -/
theorem joinPosts_new {k : Fin 32} {w : Poster} {s : State} {c : PubConfig} (h : posted k s = false)
    (hc : s.pubs[k].config = some c) :
    joinPosts k w s =
      { s with postTrip := s.postTrip ++ (if c.cls = .trip then [{ slot := k, poster := w }] else [])
               postOther := s.postOther ++ (if c.cls = .trip then [] else [{ slot := k, poster := w }]) } := by
  unfold joinPosts
  rw [hc, h]
  by_cases h : c.cls = .trip <;> simp [h]

end Sys2Proof.Machine
end

