-- ==== Sys2Proof/Laws/Delivery.lean ====
section
/-! SUPPORT. Delivery: what each of its operations makes of one slot and of the journal's claims, said over `withSlot`, the state with
that slot and those claims replaced; and what a slot is shown of its entry (R112). -/

namespace Sys2Proof.Machine

/-- `s` with `x` as slot `k` and `cs` as the claims that wait at the Journal Writer. -/
def State.withSlot (s : State) (k : Fin 64) (x : SubSlot) (cs : List JournalClaim) : State :=
  { s with journal := { s.journal with claims := cs }, subs := s.subs.set k x }

/-- A state is itself with its own slot and claims. -/
theorem withSlot_self (s : State) (k : Fin 64) : s.withSlot k s.subs[k] s.journal.claims = s := by
  simp [State.withSlot]

@[simp] theorem withSlot_sub (s : State) (k : Fin 64) (x : SubSlot) (cs : List JournalClaim) :
    (s.withSlot k x cs).subs[k] = x := by
  simp [State.withSlot]

theorem modifySub_withSlot (s : State) (k : Fin 64) (x : SubSlot) (cs : List JournalClaim) (f : SubSlot → SubSlot) :
    (s.withSlot k x cs).modifySub k f = s.withSlot k (f x) cs := by
  simp [State.withSlot, State.modifySub, modifyAt]

theorem updateSlot_withSlot (s : State) (k : Fin 64) (x : SubSlot) (cs : List JournalClaim)
    (f : SlotStatus → SlotStatus) :
    updateSlot k f (s.withSlot k x cs)
      = s.withSlot k { x with status := { f x.status with edition := x.status.edition + 2 } } cs :=
  modifySub_withSlot s k x cs _

theorem claim_withSlot (s : State) (k : Fin 64) (x : SubSlot) (cs : List JournalClaim) (c : JournalClaim) :
    claim c (s.withSlot k x cs) = s.withSlot k x (cs ++ [c]) := rfl

theorem slotView_withSlot (s : State) (k : Fin 64) (x : SubSlot) (cs : List JournalClaim) {p : Fin 512} {e : Entry}
    (hp : s.slotEntry k = some p) (he : s.table[p] = some e) : slotView k (s.withSlot k x cs) = s.viewOf e := by
  have h1 : (s.withSlot k x cs).slotEntry k = some p := hp
  have h2 : (s.withSlot k x cs).table[p] = some e := he
  unfold slotView
  rw [h1]
  dsimp only
  rw [h2]
  rfl

/-! ## Counts -/

theorem satAdd_eq (w : Word) (n : Nat) : satAdd w n = BitVec.ofNat 16 (min 0xFFFF (w.toNat + n)) := by
  unfold satAdd
  split
  · next h => rw [Nat.min_eq_right h]
  · next h => rw [Nat.min_eq_left (by omega)]; rfl

theorem satInc_eq (w : Word) : satInc w = BitVec.ofNat 16 (min 0xFFFF (w.toNat + 1)) := by
  unfold satInc
  split
  · next h => subst h; rfl
  · next h =>
    have hn : w.toNat ≠ 0xFFFF := fun e => h (BitVec.eq_of_toNat_eq e)
    have hl := w.isLt
    rw [Nat.min_eq_right (by omega)]
    apply BitVec.eq_of_toNat_eq
    simp

/-! ## Claims -/

/-- R122. The TEST-MISMATCH entry of an update that has written `flag`. -/
def mismatchEntries (k : Fin 64) (flag : Bool) : Option MarkedBy → List JournalClaim
  | some m =>
    [{ kind := .testMismatch, subject := .subscription k, time := m.time, d1 := m.id, d2 := bit flag, d3 := m.seq }]
  | none => []

theorem flagClaim_withSlot (s : State) (k : Fin 64) (x : SubSlot) (cs : List JournalClaim) (marked : Option MarkedBy)
    (flag : Bool) :
    flagClaim k marked flag (s.withSlot k x cs) = s.withSlot k x (cs ++ mismatchEntries k flag marked) := by
  unfold flagClaim mismatchEntries
  cases marked
  · simp
  · rfl

/-- R123, R124. The notify entry of a delivery. -/
def notifyEntries (k : Fin 64) (d : InProgress) (edition : Word) : List JournalClaim :=
  let entry : JournalKind → JournalClaim := fun kind =>
    { kind := kind, subject := .subscription k, time := d.copy.time, d1 := d.copy.id, d2 := d.copy.seq, d3 := edition }
  match d.notify with
  | .none => []
  | .onChange => if d.differs then [entry .deliveryChanged] else []
  | .onEvery => [entry .delivery]

theorem notifyClaim_withSlot (s : State) (k : Fin 64) (x : SubSlot) (cs : List JournalClaim) (d : InProgress)
    (edition : Word) :
    notifyClaim k d edition (s.withSlot k x cs) = s.withSlot k x (cs ++ notifyEntries k d edition) := by
  unfold notifyClaim notifyEntries
  rcases d.notify with _ | _ | _
  · simp
  · by_cases h : d.differs = true <;> simp [h, claim_withSlot]
  · rfl

/-! ## Deliveries, outcomes and updates -/

theorem beginDelivery_withSlot (s : State) (k : Fin 64) (x : SubSlot) (cs : List JournalClaim) (c : Copy) :
    beginDelivery k c (s.withSlot k x cs) = s.withSlot k
      { x with
        status := { x.status with edition := x.status.edition + 1 }
        waiting := none
        inProgress := some
          { copy := c, view := slotView k (s.withSlot k x cs), mismatch := x.marker, markedBy := x.markedBy
            notify := (x.config.map (·.notify)).getD .none
            differs := x.differs (c.content.take Config.contentRoom) } } cs := by
  unfold beginDelivery
  rw [modifySub_withSlot]

theorem writeDelivery_withSlot (s : State) (k : Fin 64) (x : SubSlot) (cs : List JournalClaim) (d : InProgress) :
    writeDelivery k d (s.withSlot k x cs) = s.withSlot k
      { x with
        status := x.status.delivered d x.supersededDue x.staleDue
        inProgress := none, previous := some (d.copy.content.take Config.contentRoom), supersededDue := 0, staleDue := 0 }
      (cs ++ (if d.mismatch = x.status.mismatch then [] else mismatchEntries k d.mismatch d.markedBy)
        ++ notifyEntries k d (x.status.edition + 1)) := by
  unfold writeDelivery
  rw [withSlot_sub]
  dsimp only
  rw [modifySub_withSlot]
  have h : ∀ y : SubSlot,
      (if d.mismatch = x.status.mismatch then s.withSlot k y cs
        else flagClaim k d.markedBy d.mismatch (s.withSlot k y cs))
      = s.withSlot k y (cs ++ (if d.mismatch = x.status.mismatch then [] else mismatchEntries k d.mismatch d.markedBy)) := by
    intro y
    split
    · simp
    · rw [flagClaim_withSlot]
  rw [h, notifyClaim_withSlot]
  rfl

/-- R115 to R118. A status and the claims so far, after the update of one outcome. -/
def outcomeWritten (k : Fin 64) (w : SlotStatus × List JournalClaim) : SlotOutcome → SlotStatus × List JournalClaim
  | .disarmed => ({ w.1 with edition := w.1.edition + 2, state := .disarmed, reason := .none }, w.2)
  | .refused reason c => ({ w.1 with edition := w.1.edition + 2, state := .refused, reason := reason }, w.2 ++ [c])
  | .armed v marked =>
    ({ slotStatusAtReset with edition := w.1.edition + 2, state := .armed, view := v },
      w.2 ++ (if w.1.mismatch then mismatchEntries k false marked else []))

/-- R117. An arm leaves no previous content. -/
def SlotOutcome.previous (old : Option (List Byte)) : SlotOutcome → Option (List Byte)
  | .armed _ _ => none
  | .disarmed | .refused _ _ => old

theorem applyOutcome_withSlot (s : State) (k : Fin 64) (x : SubSlot) (cs : List JournalClaim) (o : SlotOutcome) :
    applyOutcome k o (s.withSlot k x cs) = s.withSlot k
      { x with status := (outcomeWritten k (x.status, cs) o).1, previous := o.previous x.previous }
      (outcomeWritten k (x.status, cs) o).2 := by
  rcases o with _ | ⟨r, c⟩ | ⟨v, marked⟩ <;> unfold applyOutcome
  · exact updateSlot_withSlot ..
  · dsimp only
    rw [updateSlot_withSlot, claim_withSlot]
    rfl
  · dsimp only
    rw [updateSlot_withSlot, modifySub_withSlot, withSlot_sub]
    unfold outcomeWritten
    by_cases h : x.status.mismatch = true
    · rw [if_pos h, flagClaim_withSlot]
      simp [h, SlotStatus.armed, SlotOutcome.previous]
    · simp [h, SlotStatus.armed, SlotOutcome.previous]

/-- The outcomes that waited for a delivery, each written in an update of its own. -/
theorem applyOutcomes_withSlot (s : State) (k : Fin 64) (os : List SlotOutcome) (x : SubSlot) (cs : List JournalClaim) :
    os.foldl (fun s o => applyOutcome k o s) (s.withSlot k x cs) = s.withSlot k
      { x with status := (os.foldl (outcomeWritten k) (x.status, cs)).1
               previous := os.foldl SlotOutcome.previous x.previous }
      (os.foldl (outcomeWritten k) (x.status, cs)).2 := by
  induction os generalizing x cs with
  | nil => rfl
  | cons o os ih =>
    simp only [List.foldl_cons]
    rw [applyOutcome_withSlot, ih]

/-- The engine's updates that waited for a delivery, each made by itself. -/
theorem writeViews_withSlot (s : State) (k : Fin 64) (ds : List DueView) (x : SubSlot) (cs : List JournalClaim) :
    ds.foldl (fun s d => writeView k d s) (s.withSlot k x cs) = s.withSlot k
      { x with
        status :=
          { x.status with
            edition := x.status.edition + BitVec.ofNat 16 (2 * ds.length)
            view := (ds.getLast?.map (·.view)).getD x.status.view
            stale := BitVec.ofNat 16 (min 0xFFFF (x.status.stale.toNat + (ds.filter (·.stale)).length)) } } cs := by
  induction ds generalizing x with
  | nil =>
    simp
    congr
    rw [Nat.min_eq_right (by have := x.status.stale.isLt; omega)]
    simp
  | cons d ds ih =>
    have e1 : x.status.edition + 2 + BitVec.ofNat 16 (2 * ds.length)
        = x.status.edition + BitVec.ofNat 16 (2 * (d :: ds).length) := by
      apply BitVec.eq_of_toNat_eq; simp; omega
    have e2 : (ds.getLast?.map (·.view)).getD d.view = ((d :: ds).getLast?.map (·.view)).getD x.status.view := by
      cases ds with
      | nil => rfl
      | cons a b => simp [List.getLast?_eq_some_getLast]
    have e3 : BitVec.ofNat 16 (min 0xFFFF
          ((if d.stale then satInc x.status.stale else x.status.stale).toNat + (ds.filter (·.stale)).length))
        = BitVec.ofNat 16 (min 0xFFFF (x.status.stale.toNat + ((d :: ds).filter (·.stale)).length)) := by
      have := x.status.stale.isLt
      by_cases hd : d.stale = true
      · simp only [hd, if_true, satInc_eq, List.filter_cons]
        apply BitVec.eq_of_toNat_eq
        simp
        omega
      · simp [hd]
    have h := ih { x with status := { x.status with
      edition := x.status.edition + 2, view := d.view
      stale := if d.stale then satInc x.status.stale else x.status.stale } }
    dsimp only at h
    rw [e1, e2, e3] at h
    rw [← h, List.foldl_cons, writeView, updateSlot_withSlot]

theorem showFlag_withSlot (s : State) (k : Fin 64) (x : SubSlot) (cs : List JournalClaim) :
    showFlag k (s.withSlot k x cs) = s.withSlot k
      { x with
        status :=
          { x.status with
            edition := x.status.edition + (if x.marker = x.status.mismatch then 0 else 2), mismatch := x.marker } }
      (cs ++ (if x.marker = x.status.mismatch then [] else mismatchEntries k x.marker x.markedBy)) := by
  unfold showFlag
  rw [withSlot_sub]
  dsimp only
  by_cases h : x.marker = x.status.mismatch
  · simp only [h, if_true]
    cases x
    simp_all
  · rw [if_neg h, updateSlot_withSlot, flagClaim_withSlot]
    simp [h]

/-! ## What a slot is shown of its entry (R112) -/

/-- R112. The slot shown the view `v`: nothing where that is what it was last told; else in one update, behind a delivery in progress
after its completion. -/
def SubSlot.shown (v : EntryView) (x : SubSlot) : SubSlot :=
  if v = x.told then x
  else if x.inProgress.isSome then { x with told := v, viewsDue := x.viewsDue ++ [{ view := v, stale := false }] }
  else { x with told := v, status := { x.status with edition := x.status.edition + 2, view := v } }

/-- R112. What the engine's update makes of its slot. -/
theorem engineView_withSlot (s : State) (k : Fin 64) (x : SubSlot) (cs : List JournalClaim) :
    engineView k false (s.withSlot k x cs) = s.withSlot k (x.shown (slotView k (s.withSlot k x cs))) cs := by
  unfold engineView SubSlot.shown
  simp only [withSlot_sub, Bool.not_false, Bool.true_and, decide_eq_true_eq]
  split
  · rfl
  · simp only [modifySub_withSlot, writeView, updateSlot_withSlot]
    split <;> rfl

/-- R112. The engine's update of the slot of an entry, and of nothing else. -/
theorem engineView_eq (s : State) (k : Fin 64) {p : Fin 512} {e : Entry} (hp : s.slotEntry k = some p)
    (he : s.table[p] = some e) :
    engineView k false s = { s with subs := s.subs.set k (s.subs[k].shown (s.viewOf e)) } := by
  have h := engineView_withSlot s k s.subs[k] s.journal.claims
  rw [slotView_withSlot s k _ _ hp he, withSlot_self] at h
  exact h

/-- The slots `ks`, each shown its entry, in that order. -/
theorem engineViews_eq (ks : List (Fin 64)) (hn : ks.Nodup) (s : State) :
    ∃ subs, ks.foldl (fun s k => if (s.slotEntry k).isSome then engineView k false s else s) s = { s with subs := subs }
      ∧ ∀ k : Fin 64, subs[k] = (match (if k ∈ ks then s.slotEntry k else none) with
        | some p => match s.table[p] with
          | some e => s.subs[k].shown (s.viewOf e)
          | none => s.subs[k]
        | none => s.subs[k]) := by
  induction ks generalizing s with
  | nil => exact ⟨s.subs, rfl, fun k => by simp⟩
  | cons j ks ih =>
    obtain ⟨hj, hn⟩ := List.nodup_cons.mp hn
    simp only [List.foldl_cons]
    rcases hp : s.slotEntry j with _ | p
    · obtain ⟨subs, h1, h2⟩ := ih hn s
      refine ⟨subs, by simpa using h1, fun k => ?_⟩
      rw [h2 k]
      by_cases hk : k = j
      · subst hk; simp [hp, hj]
      · simp [hk]
    · have hh := findAt?_holds _ _ _ hp
      rcases he : s.table[p] with _ | e
      · rw [he] at hh; cases hh
      · rw [Option.isSome_some, if_pos rfl, engineView_eq s j hp he]
        obtain ⟨subs, h1, h2⟩ := ih hn { s with subs := s.subs.set j (s.subs[j].shown (s.viewOf e)) }
        refine ⟨subs, h1, fun k => ?_⟩
        rw [h2 k]
        have hs : ∀ t : State, t.table = s.table → t.slotEntry k = s.slotEntry k := fun t ht => by
          unfold State.slotEntry; rw [ht]
        rw [hs _ rfl]
        by_cases hk : k = j
        · subst hk
          simp only [hj, if_false, List.mem_cons, true_or, if_true, hp, he]
          simp
        · have hk' : (s.subs.set j (s.subs[j].shown (s.viewOf e)))[k] = s.subs[k] := by
            simp [Fin.ext_iff] at hk ⊢
            rw [Vector.getElem_set_ne]
            omega
          simp only [List.mem_cons, hk, false_or, hk']
          rfl

/-- An entry with another lane record holds the slot it held. -/
@[simp] theorem setRecord_slot (l : Lane) (r : LaneRecord) (e : Entry) : (e.setRecord l r).slot = e.slot := by
  cases l <;> rfl

/-- R112. The entry at `p` changed to `e`, which alone holds its slot, if it holds one: what becomes of the table and the slots. -/
theorem writeEntry_shows (s : State) (p : Fin 512) (e : Entry) :
    writeEntry p e s = { s with table := s.table.set p (some e), subs := (writeEntry p e s).subs }
      ∧ (e.slot = none → (writeEntry p e s).subs = s.subs)
      ∧ ∀ k, e.slot = some k → (∀ m : Fin 64, m ≠ k → (writeEntry p e s).subs[m] = s.subs[m])
        ∧ ((∀ (q : Fin 512) (f : Entry), s.table[q] = some f → f.slot = some k → q = p) →
          (writeEntry p e s).subs[k] = s.subs[k].shown (s.viewOf e)) := by
  refine ⟨?_, fun hs => by rw [writeEntry, hs]; rfl, fun k hs => ⟨fun m hm => ?_, fun ha => ?_⟩⟩
  · unfold writeEntry engineView
    dsimp only
    split
    · split
      · rfl
      · split <;> rfl
    · rfl
  · have hne : k.val ≠ m.val := fun h => hm (Fin.ext h.symm)
    have hx : ∀ (t : State) f, (t.modifySub k f).subs[m] = t.subs[m] := fun t f => by
      simp [State.modifySub, modifyAt, Vector.getElem_set_ne, hne]
    rw [writeEntry, hs]
    simp only [engineView]
    split
    · rfl
    · split <;> simp only [writeView, updateSlot, hx] <;> rfl
  · have hk : (s.putEntry p (some e)).slotEntry k = some p := by
      rw [slotEntry_iff]
      refine ⟨⟨e, by simp [State.putEntry], hs⟩, fun q f hlt hf hq => ?_⟩
      rw [putEntry_get, if_neg (by rintro rfl; omega)] at hf
      exact absurd hlt (by rw [ha q f hf hq]; omega)
    rw [writeEntry, hs]
    dsimp only
    rw [engineView_eq _ k hk (e := e) (by simp [State.putEntry])]
    simp only [Fin.getElem_fin, Vector.getElem_set_self]
    rfl

/-- R87. A miss of the lane's present cycle against an entry the table holds. -/
theorem applyMiss_eq {s : State} {id serial : Word} {p : Fin 512} {e : Entry} (l : Lane)
    (h : s.lookupNamed id serial = some (p, e)) :
    applyMiss id serial l (s.lane l).cycle s =
      { writeEntry p (e.setRecord l ((e.record l).missed (s.lane l).cycle s.settings.loneThreshold).1) s with
        loneChanges := s.loneChanges ++ (if ((e.record l).missed (s.lane l).cycle s.settings.loneThreshold).2 then
          [{ rise := true, lane := l, cycle := (s.lane l).cycle }] else []) } := by
  have hl : ∀ e', (writeEntry p e' s).loneChanges = s.loneChanges := fun e' => by simp
  unfold applyMiss
  rw [h]
  simp only [ne_eq, not_true_eq_false, if_false]
  split
  · simp only [handLone, hl]
  · rw [List.append_nil, ← hl]

/-- R88. A credit of an entry the table holds. -/
theorem applyCredit_eq {s : State} {id serial : Word} {p : Fin 512} {e : Entry} (l : Lane)
    (h : s.lookupNamed id serial = some (p, e)) :
    applyCredit id serial l s =
      { writeEntry p (e.setRecord l ((e.record l).credited (s.lane l).cycle).1) s with
        loneChanges := s.loneChanges ++ (if ((e.record l).credited (s.lane l).cycle).2 then
          [{ rise := false, lane := l, cycle := (s.lane l).cycle }] else []) } := by
  have hl : ∀ e', (writeEntry p e' s).loneChanges = s.loneChanges := fun e' => by simp
  unfold applyCredit
  rw [h]
  simp only
  split
  · simp only [handLone, hl]
  · rw [List.append_nil, ← hl]

end Sys2Proof.Machine
end

