-- ==== Sys2Proof/Laws/Fcs.lean ====
section
/-! SUPPORT. The frame check sequence that closes a frame is the one its reader accepts (R26). -/

namespace Sys2Proof.Machine

theorem fcs_length (b : List Byte) : (fcs b).length = 4 := rfl

/-- What a port closes with its FCS, a reader takes off again. -/
theorem withoutFcs_withFcs (b : List Byte) : withoutFcs (withFcs b) = b := by
  unfold withoutFcs withFcs
  rw [List.length_append, fcs_length, Nat.add_sub_cancel, List.take_left]

/-- A frame of 64 to 1,522 bytes closed by its FCS is good. -/
theorem frameGood_withFcs (b : List Byte) (h1 : 60 ≤ b.length) (h2 : b.length ≤ 1518) : frameGood (withFcs b) = true := by
  unfold frameGood
  rw [withoutFcs_withFcs]
  unfold withFcs
  rw [List.length_append, fcs_length, Nat.add_sub_cancel, List.drop_left]
  simp
  omega

end Sys2Proof.Machine
end

