-- ==== Sys2Proof/Laws/Lanes.lean ====
section
/-! SUPPORT. What an update makes of a group; what the operations on a lane make of its port, of the other lane's, and of the
claims handed to the journal. -/

namespace Sys2Proof.Machine

/-! ## Edition-guarded updates -/

/-- An update of a lane status group gives it the words it was given, the edition word apart. -/
@[simp] theorem laneUpdate_words (f : LaneGroup → LaneGroup) (g : LaneGroup) :
    (g.update f).state = (f g).state ∧ (g.update f).link = (f g).link ∧ (g.update f).lone = (f g).lone
      ∧ (g.update f).frameErrors = (f g).frameErrors ∧ (g.update f).overruns = (f g).overruns
      ∧ (g.update f).damaged = (f g).damaged ∧ (g.update f).crossLane = (f g).crossLane
      ∧ (g.update f).foreignTag = (f g).foreignTag ∧ (g.update f).heldDiscards = (f g).heldDiscards
      ∧ (g.update f).bareDiscards = (f g).bareDiscards ∧ (g.update f).drops = (f g).drops
      ∧ (g.update f).arrival = (f g).arrival ∧ (g.update f).sent = (f g).sent ∧ (g.update f).notSent = (f g).notSent
      ∧ (g.update f).flushed = (f g).flushed := by
  unfold LaneGroup.update
  split
  · next h => rw [h]; and_intros <;> rfl
  · and_intros <;> rfl

/-- An update that changes a lane status group raises its edition word by 2. -/
theorem laneUpdate_ne (f : LaneGroup → LaneGroup) (g : LaneGroup) (h : f g ≠ g) :
    g.update f = { f g with edition := g.edition + 2 } := if_neg h

/-- An update of the counters group gives it the words it was given, the edition word apart. -/
@[simp] theorem countersUpdate_words (f : Counters → Counters) (c : Counters) :
    (c.update f).refused = (f c).refused ∧ (c.update f).firstRefused = (f c).firstRefused
      ∧ (c.update f).echo = (f c).echo ∧ (c.update f).originClash = (f c).originClash
      ∧ (c.update f).unplaced = (f c).unplaced ∧ (c.update f).epochChanges = (f c).epochChanges
      ∧ (c.update f).repeatsA = (f c).repeatsA ∧ (c.update f).repeatsB = (f c).repeatsB
      ∧ (c.update f).watchCount = (f c).watchCount ∧ (c.update f).watchMost = (f c).watchMost
      ∧ (c.update f).unwatched = (f c).unwatched ∧ (c.update f).missesA = (f c).missesA
      ∧ (c.update f).missesB = (f c).missesB ∧ (c.update f).lateTwinsA = (f c).lateTwinsA
      ∧ (c.update f).lateTwinsB = (f c).lateTwinsB ∧ (c.update f).abandoned = (f c).abandoned
      ∧ (c.update f).longestA = (f c).longestA ∧ (c.update f).longestB = (f c).longestB := by
  unfold Counters.update
  split
  · next h => rw [h]; and_intros <;> rfl
  · and_intros <;> rfl

/-- An update of one port's block gives it the words it was given. -/
@[simp] theorem bayUpdate_self (p : Fin 4) (f : BayBlock → BayBlock) (g : BayGroup) :
    (g.update p f).ports[p.val] = f g.ports[p.val] := by
  unfold BayGroup.update
  split
  · next h => exact h.symm
  · simp

/-- An update of one port's block leaves the others. -/
theorem bayUpdate_ne (p q : Fin 4) (f : BayBlock → BayBlock) (g : BayGroup) (h : q ≠ p) :
    (g.update p f).ports[q.val] = g.ports[q.val] := by
  unfold BayGroup.update
  split
  · rfl
  · exact modifyAt_get_ne _ _ _ _ h.symm

/-- What a raise makes of the words of a lane status group that count nothing. -/
@[simp] theorem laneBump_words (c : LaneCounter) (g : LaneGroup) :
    (g.bump c).edition = g.edition ∧ (g.bump c).state = g.state ∧ (g.bump c).link = g.link ∧ (g.bump c).lone = g.lone
      ∧ (g.bump c).arrival = g.arrival ∧ (g.bump c).sent = g.sent ∧ (g.bump c).notSent = g.notSent
      ∧ (g.bump c).flushed = g.flushed := by
  cases c <;> (and_intros <;> rfl)

/-- What a raise makes of the words of a bay port's block that count nothing. -/
@[simp] theorem bayBump_words (c : BayCounter) (b : BayBlock) :
    (b.bump c).link = b.link ∧ (b.bump c).arrival = b.arrival ∧ (b.bump c).sent = b.sent
      ∧ (b.bump c).notSent = b.notSent ∧ (b.bump c).flushed = b.flushed := by
  cases c <;> (and_intros <;> rfl)

/-! ## Counted events -/

@[simp] theorem laneSentinel_lane (l m : Lane) (c : LaneCounter) (g : LaneGroup) (t : Clock) (s : State) :
    (laneSentinel l c g t s).lane m = s.lane m := by cases m <;> simp [State.lane]

@[simp] theorem countLane_lane_self (l : Lane) (f : LaneGroup → LaneGroup) (c : LaneCounter) (t : Clock) (s : State) :
    (countLane l f c t s).lane l = { s.lane l with group := (s.lane l).group.update (fun g => (f g).bump c) } := by
  unfold countLane; simp

@[simp] theorem countLane_lane_other (l : Lane) (f : LaneGroup → LaneGroup) (c : LaneCounter) (t : Clock) (s : State) :
    (countLane l f c t s).lane l.other = s.lane l.other := by
  unfold countLane; simp

theorem countLane_claims (l : Lane) (f : LaneGroup → LaneGroup) (c : LaneCounter) (t : Clock) (s : State) :
    (countLane l f c t s).journal.claims = s.journal.claims ++ (if (s.lane l).group.count c = 0 then
      [{ kind := .counterFirst, subject := .lane l, time := t, d1 := laneCounterCode c, d2 := 0, d3 := 0 }] else []) := by
  unfold countLane laneSentinel
  split <;> simp

theorem countBay_claims (p : Fin 4) (f : BayBlock → BayBlock) (c : BayCounter) (t : Clock) (s : State) :
    (countBay p f c t s).journal.claims = s.journal.claims ++ (if s.bayGroup.ports[p].count c = 0 then
      [{ kind := .counterFirst, subject := .bayPort p, time := t, d1 := bayCounterCode c, d2 := 0, d3 := 0 }] else []) := by
  unfold countBay baySentinel
  split <;> simp

/-- What a raise makes of each counter of a lane port. -/
theorem bump_count (c d : LaneCounter) (g : LaneGroup) :
    (g.bump c).count d = if d = c then satInc (g.count c) else g.count d := by
  cases c <;> cases d <;> rfl

/-! ## Transmit queues -/

@[simp] theorem offerLane_lane_other (l : Lane) (r : TxRecord) (s : State) :
    (offerLane l r s).lane l.other = s.lane l.other := by
  unfold offerLane
  (repeat' split) <;> simp

/-- A port that begins to send changes its queues and the frame on the wire alone. -/
@[simp] theorem begin_frame (l : Lane) (p : LanePort) :
    (p.begin l).group = p.group ∧ (p.begin l).arrivals = p.arrivals ∧ (p.begin l).cycle = p.cycle
      ∧ (p.begin l).provingEnds = p.provingEnds := by
  unfold LanePort.begin LanePort.next
  split
  · split
    · next h => split at h <;> cases h <;> exact ⟨rfl, rfl, rfl, rfl⟩
    · exact ⟨rfl, rfl, rfl, rfl⟩
  · exact ⟨rfl, rfl, rfl, rfl⟩

/-! ## Changes of lane state -/

@[simp] theorem enterState_lane_self (l : Lane) (n : LaneState) (f : LaneGroup → LaneGroup) (s : State) :
    (enterState l n f s).lane l = (s.lane l).entered n f s.clock s.settings.provingPeriod := by
  unfold enterState
  (repeat' split) <;> cases l <;> rfl

@[simp] theorem enterState_lane_other (l : Lane) (n : LaneState) (f : LaneGroup → LaneGroup) (s : State) :
    (enterState l n f s).lane l.other = s.lane l.other := by
  unfold enterState
  (repeat' split) <;> cases l <;> rfl

@[simp] theorem deriveRedundancy_lane (l m : Lane) (s : State) : (deriveRedundancy l s).lane m = s.lane m := by
  cases m <;> simp [State.lane]

@[simp] theorem announce_lane (l m : Lane) (o n : LaneState) (c : Word) (d : LaneCause) (s : State) :
    (announce l o n c d s).lane m = s.lane m := by
  cases m <;> simp [State.lane]

@[simp] theorem reroute_lane (l m : Lane) (n : LaneState) (s : State) : (reroute l n s).lane m = s.lane m := by
  cases m <;> simp [State.lane]

@[simp] theorem moveLane_lane_self (l : Lane) (n : LaneState) (c : LaneCause) (f : LaneGroup → LaneGroup) (s : State) :
    (moveLane l n c f s).lane l = (s.lane l).entered n f s.clock s.settings.provingPeriod := by
  unfold moveLane; simp

@[simp] theorem moveLane_lane_other (l : Lane) (n : LaneState) (c : LaneCause) (f : LaneGroup → LaneGroup) (s : State) :
    (moveLane l n c f s).lane l.other = s.lane l.other := by
  unfold moveLane; simp

/-- A change of lane state claims its LANE-VERDICT and, where the redundancy state changes with it, REDUNDANCY. -/
theorem moveLane_claims (l : Lane) (n : LaneState) (c : LaneCause) (f : LaneGroup → LaneGroup) (s : State) :
    (moveLane l n c f s).journal.claims = s.journal.claims
      ++ [verdictClaim l (s.lane l).group.state n (f (s.lane l).group).lone c s.clock]
      ++ (if (moveLane l n c f s).redundancy = s.redundancy then [] else
          [{ kind := .redundancy, subject := .lane l, time := s.clock, d1 := redundancyCode s.redundancy
             d2 := redundancyCode (moveLane l n c f s).redundancy, d3 := 0 }]) := by
  unfold moveLane deriveRedundancy announce
  dsimp only
  split
  · simp
  · next h =>
    have h' : redundancyOf (enterState l n f s).laneA.group.state (enterState l n f s).laneB.group.state
        ≠ s.redundancy := by simpa using h
    simp [h']

/-- A change of lane state in RUNNING offers its LANE event and, where the redundancy state changes with it, the REDUNDANCY
event; outside RUNNING nothing is offered. -/
theorem moveLane_events (l : Lane) (n : LaneState) (c : LaneCause) (f : LaneGroup → LaneGroup) (s : State) :
    (moveLane l n c f s).events = s.events ++ (if s.partState = .running then
        [.lane l n] ++ (if (moveLane l n c f s).redundancy = s.redundancy then []
          else [.redundancy (moveLane l n c f s).redundancy])
      else []) := by
  unfold moveLane deriveRedundancy announce offer
  by_cases h : s.partState = .running <;> simp [h] <;> split <;> simp_all

/-- After a change of lane state the redundancy state is the one of the two lanes. -/
theorem moveLane_redundancy (l : Lane) (n : LaneState) (c : LaneCause) (f : LaneGroup → LaneGroup) (s : State) :
    (moveLane l n c f s).redundancy
      = redundancyOf (moveLane l n c f s).laneA.group.state (moveLane l n c f s).laneB.group.state := by
  unfold moveLane
  generalize announce _ _ _ _ _ _ = t
  unfold deriveRedundancy
  dsimp only
  split
  · next h => exact h.symm
  · simp

/-! ## Counted events -/

/-- R37. A counted event is its update of the group and, of a counter that stood at 0, one claim. -/
theorem countLane_eq (l : Lane) (also : LaneGroup → LaneGroup) (c : LaneCounter) (time : Clock) (s : State) :
    countLane l also c time s =
      { updateLane l (fun g => (also g).bump c) s with
        journal := { s.journal with claims := s.journal.claims ++ (if (s.lane l).group.count c = 0 then
          [{ kind := .counterFirst, subject := .lane l, time := time, d1 := laneCounterCode c, d2 := 0, d3 := 0 }] else []) } } := by
  unfold countLane laneSentinel
  split <;> cases l <;> simp [claim, updateLane, State.modifyLane]

/-- R145. A drop counted leaves the group's other words as they are. -/
theorem update_drops (g : LaneGroup) :
    g.update (fun g => (id g).bump .drops) = { g with
      edition := (g.update (fun g => (id g).bump .drops)).edition
      drops := if g.drops = 0xFFFF then 0xFFFF else g.drops + 1 } := by
  have h : satInc g.drops = if g.drops = 0xFFFF then 0xFFFF else g.drops + 1 := by
    unfold satInc
    split <;> simp_all
  rw [← h]
  unfold LaneGroup.update
  by_cases h' : (id g).bump .drops = g
  · rw [if_pos h']
    exact h'.symm
  · rw [if_neg h']
    rfl

end Sys2Proof.Machine
end

