-- ==== Sys2Proof/Laws/Map.lean ====
section
/-! SUPPORT. What a host read finds: the words of each PART-owned region by their place, and what a write of a host word changes. -/

namespace Sys2Proof.Machine

/-! ## Places -/

theorem place_directory (a : Nat) (h : a < 0x0040) : place a = .directory a := by
  unfold place; rw [if_pos h]

theorem place_status (a : Nat) (h : 0x0100 ≤ a) (h' : a < 0x0200) : place a = .status a := by
  unfold place
  repeat rw [if_neg (by omega)]
  rw [if_pos h']

theorem place_journal (p : Fin 128) (off : Nat) (h : off < 8) : place (0x4200 + 8 * p.val + off) = .journal p off := by
  have hp := p.isLt
  have h1 : (0x4200 + 8 * p.val + off - 0x4200) / 8 = p.val := by omega
  have h2 : (0x4200 + 8 * p.val + off - 0x4200) % 8 = off := by omega
  have h3 : Fin.ofNat 128 p.val = p := by ext; simp [Fin.ofNat]
  unfold place
  repeat rw [if_neg (by omega)]
  rw [if_pos (by omega), h1, h2, h3]

theorem place_streamTable (p : Fin 512) (off : Nat) (h : off < 16) :
    place (0x4800 + 16 * p.val + off) = .streamTable p off := by
  have hp := p.isLt
  have h1 : (0x4800 + 16 * p.val + off - 0x4800) / 16 = p.val := by omega
  have h2 : (0x4800 + 16 * p.val + off - 0x4800) % 16 = off := by omega
  have h3 : Fin.ofNat 512 p.val = p := by ext; simp [Fin.ofNat]
  unfold place
  repeat rw [if_neg (by omega)]
  rw [if_pos (by omega), h1, h2, h3]

theorem sideOf_hostSettings (a : Nat) (h : 0x0040 ≤ a) (h' : a < 0x0100) : sideOf (place a) = .host := by
  unfold place
  rw [if_neg (by omega)]
  split
  · rfl
  split
  · rfl
  split <;> rfl

theorem sideOf_settingsRecords (a : Nat) (h : 0x4700 ≤ a) (h' : a < 0x4730) : sideOf (place a) = .host := by
  unfold place
  repeat rw [if_neg (by omega)]
  split <;> rfl

theorem place_nobody (a : Nat) (h : (0x4730 ≤ a ∧ a < 0x4800) ∨ 0x6800 ≤ a) : place a = .nobody := by
  unfold place
  repeat rw [if_neg (by omega)]
  split
  · rfl
  rw [if_neg (by omega)]

/-! ## Reads -/

/-- Outside INITIALISING the host reads a HOST-owned word as it was last stored. -/
theorem hostRead_stored (s : State) (a : Addr) (hs : s.partState ≠ .initialising) (h : sideOf (place a.toNat) = .host) :
    hostRead s a = readWord s.mem a.toNat := by
  unfold hostRead; rw [if_neg hs, h]

/-- Outside INITIALISING the host reads a word that is not HOST-owned as what the blocks show in its place. -/
theorem hostRead_shown (s : State) (a : Addr) (hs : s.partState ≠ .initialising) (h : sideOf (place a.toNat) ≠ .host) :
    hostRead s a = partWord s (place a.toNat) := by
  unfold hostRead
  rw [if_neg hs]
  generalize place a.toNat = p at h
  cases p with
  | subscription k off =>
    unfold sideOf partWord at *
    by_cases h1 : off ≤ 15
    · simp [h1] at h
    · by_cases h2 : off ≤ 167
      · simp [h1, h2]
      · simp [h1, h2, show ¬ off < 40 by omega, show ¬ off < 168 by omega]
  | publication k off =>
    unfold sideOf at *
    by_cases h1 : off ≤ 140
    · simp [h1] at h
    · simp [h1]
  | rule k off =>
    unfold sideOf at *
    by_cases h1 : off ≤ 11
    · simp [h1] at h
    · simp [h1]
  | command => exact absurd rfl h
  | argument => exact absurd rfl h
  | journalTaken => exact absurd rfl h
  | hostSettings => exact absurd rfl h
  | contactSettings => exact absurd rfl h
  | outputSettings => exact absurd rfl h
  | directory _ => rfl
  | status _ => rfl
  | journal _ _ => rfl
  | streamTable _ _ => rfl
  | nobody => rfl

/-- What the blocks show in place of the words of `ws` is what the host reads. -/
theorem readsFrom_of_shown (s : State) (a : Nat) (ws : List Word) (hs : s.partState ≠ .initialising)
    (ha : a + ws.length ≤ 0x8000)
    (h : ∀ i, i < ws.length → sideOf (place (a + i)) ≠ .host ∧ partWord s (place (a + i)) = ws.getD i 0) :
    ReadsFrom s a ws := by
  intro i hi
  have e : (BitVec.ofNat 15 (a + i)).toNat = a + i := by
    rw [BitVec.toNat_ofNat]; exact Nat.mod_eq_of_lt (by omega)
  rw [hostRead_shown s _ hs (by rw [e]; exact (h i hi).1), e]
  rw [(h i hi).2, List.getD_eq_getElem _ _ hi]

/-- A word of the host's stored: it is what the host reads there, and every other read is as before. -/
theorem hostRead_writeWord (s : State) (a : Addr) (v : Word) (hm : Memory.wf s.mem) (hs : s.partState ≠ .initialising)
    (ha : s.sideNow a.toNat = .host) (b : Addr) :
    hostRead { s with mem := writeWord s.mem a.toNat v } b = if b = a then v else hostRead s b := by
  have hside : sideOf (place a.toNat) = .host := by
    unfold State.sideNow at ha
    rw [if_neg hs] at ha
    split at ha
    · cases ha
    · exact ha
  have ht : ({ s with mem := writeWord s.mem a.toNat v } : State).partState ≠ .initialising := hs
  by_cases hb : b = a
  · subst hb
    rw [if_pos rfl, hostRead_stored _ b ht hside]
    exact readWord_writeWord_self hm _ _
  · rw [if_neg hb]
    by_cases h : sideOf (place b.toNat) = .host
    · rw [hostRead_stored _ b ht h, hostRead_stored s b hs h]
      exact readWord_writeWord_ne _ _ _ _ (fun e => hb (BitVec.eq_of_toNat_eq e))
    · rw [hostRead_shown _ b ht h, hostRead_shown s b hs h]
      rfl

/-! ## Whose a region is (section 1.2) -/

theorem sideOf_settings (a : Nat) (h : 0x0040 ≤ a) (h' : a < 0x0100) : sideOf (place a) = .host := by
  rcases Nat.lt_or_ge a 0x0043 with hl | hl
  · have : a = 0x0040 ∨ a = 0x0041 ∨ a = 0x0042 := by omega
    rcases this with rfl | rfl | rfl <;> rfl
  · unfold place
    iterate 4 rw [if_neg (by omega)]
    rw [if_pos h']
    rfl

theorem sideOf_ioSettings (a : Nat) (h : 0x4700 ≤ a) (h' : a < 0x4730) : sideOf (place a) = .host := by
  rcases Nat.lt_or_ge a 0x4720 with hl | hl <;> unfold place
  · iterate 10 rw [if_neg (by omega)]
    rw [if_pos hl]
    rfl
  · iterate 11 rw [if_neg (by omega)]
    rw [if_pos h']
    rfl

theorem sideOf_journal (a : Nat) (h : 0x4200 ≤ a) (h' : a < 0x4600) : sideOf (place a) = .part := by
  unfold place
  iterate 8 rw [if_neg (by omega)]
  rw [if_pos h']
  rfl

theorem sideOf_streamTable (a : Nat) (h : 0x4800 ≤ a) (h' : a < 0x6800) : sideOf (place a) = .part := by
  unfold place
  iterate 13 rw [if_neg (by omega)]
  rw [if_pos h']
  rfl

end Sys2Proof.Machine
end

