-- ==== Sys2Proof/Laws/Operands.lean ====
section
/-! SUPPORT. What the checks of the host-written fields say and what is read from them (R175, sections 1.9, 12.2, 12.4, 12.5): one lemma
for each check and each reading; what an argument names (R14) and what a take reads (R135). -/

namespace Sys2Proof.Machine

/-! ## The first check that fails -/

theorem firstBad_eq_some {l : List (Nat × Bool)} (hs : l.Pairwise (fun x y => x.1 < y.1)) (a : Nat) :
    firstBad l = some a ↔ (a, false) ∈ l ∧ ∀ x ∈ l, x.1 < a → x.2 = true := by
  induction l with
  | nil => simp [firstBad]
  | cons y rest ih =>
    obtain ⟨b, ok⟩ := y
    obtain ⟨hb, hr⟩ := List.pairwise_cons.mp hs
    cases ok with
    | true =>
      simp [firstBad, ih hr]
    | false =>
      simp only [firstBad, Bool.false_eq_true, if_false, Option.some.injEq]
      constructor
      · rintro rfl
        exact ⟨List.mem_cons_self, fun x hx hlt => by
          rcases List.mem_cons.mp hx with rfl | hx
          · exact absurd hlt (lt_irrefl _)
          · exact absurd (hb x hx) (Nat.lt_asymm hlt)⟩
      · rintro ⟨hm, hall⟩
        rcases List.mem_cons.mp hm with h | h
        · exact (congrArg Prod.fst h).symm
        · exact absurd (hall (b, false) List.mem_cons_self (hb _ h)) (by simp)

/-- A list of checks in ascending order finds the first word out of range, if each check, those before it passed, says whether its word
is in range and every word without a check is. -/
theorem firstBad_first {l : List (Nat × Bool)} {ok : Nat → Prop} (hs : l.Pairwise (fun x y => x.1 < y.1))
    (hok : ∀ x ∈ l, (∀ y ∈ l, y.1 < x.1 → y.2 = true) → (x.2 = true ↔ ok x.1))
    (hno : ∀ a, (∀ x ∈ l, x.1 ≠ a) → ok a) : FirstOutOfRange ok (firstBad l) := by
  intro a
  rw [firstBad_eq_some hs]
  constructor
  · rintro ⟨hm, hall⟩
    refine ⟨fun h => absurd ((hok _ hm hall).mpr h) (by simp), fun b hb => ?_⟩
    by_cases h : ∃ x ∈ l, x.1 = b
    · obtain ⟨x, hx, rfl⟩ := h
      exact (hok x hx (fun y hy hlt => hall y hy (hlt.trans hb))).mp (hall x hx hb)
    · exact hno b (fun x hx he => h ⟨x, hx, he⟩)
  · rintro ⟨ha, hall⟩
    have before : ∀ n x, x ∈ l → x.1 = n → n < a → x.2 = true := by
      intro n
      induction n using Nat.strong_induction_on with
      | _ n ih =>
        rintro x hx rfl hlt
        exact (hok x hx (fun y hy hyx => ih _ hyx y hy rfl (hyx.trans hlt))).mpr (hall _ hlt)
    have hall' : ∀ x ∈ l, x.1 < a → x.2 = true := fun x hx => before _ x hx rfl
    by_cases h : ∃ x ∈ l, x.1 = a
    · obtain ⟨⟨b, v⟩, hx, rfl⟩ := h
      cases v with
      | true => exact absurd ((hok _ hx hall').mp rfl) ha
      | false => exact ⟨hx, hall'⟩
    · exact absurd (hno a (fun x hx he => h ⟨x, hx, he⟩)) ha

/-! ## Settings -/

theorem within_iff (lo hi : Nat) (w : Word) : within lo hi w = true ↔ lo ≤ w.toNat ∧ w.toNat ≤ hi := by
  simp [within]

theorem isDivisor_iff (w : Word) : isDivisor w = true ↔ w.toNat = 1 ∨ w.toNat = 2 ∨ w.toNat = 4 ∨ w.toNat = 8 ∨ w.toNat = 16
    ∨ w.toNat = 32 ∨ w.toNat = 64 := by
  simp [isDivisor]

theorem laneOf_isSome (w : Word) : (laneOf w).isSome = true ↔ w = 0x000A ∨ w = 0x000B := by
  unfold laneOf
  split_ifs <;> simp_all

theorem readAddress_toNat (m : List Host.Cell) (a : Nat) :
    (readAddress m a).toNat
      = (readWord m a).toNat * 2 ^ 32 + (readWord m (a + 1)).toNat * 2 ^ 16 + (readWord m (a + 2)).toNat := by
  have h1 := (readWord m (a + 1)).isLt
  have h2 := (readWord m (a + 2)).isLt
  rw [readAddress, BitVec.toNat_append, BitVec.toNat_append, ← Nat.shiftLeft_add_eq_or_of_lt h2,
    ← Nat.shiftLeft_add_eq_or_of_lt h1]
  simp only [Nat.shiftLeft_eq]
  ring

theorem applyChecks_first (m : List Host.Cell) : ∀ x ∈ applyChecks m, (x.2 = true ↔ ApplyInRange m x.1) := by
  simp [applyChecks, ApplyInRange, isSet, within_iff, isDivisor_iff]

theorem ioChecks_mem (m : List Host.Cell) (x : Nat × Bool) : x ∈ ioChecks m ↔
    (∃ n : Fin 8, x ∈ contactChecks m n) ∨ ∃ n : Fin 4, x ∈ outputChecks m n := by
  simp [ioChecks]

theorem ioChecks_range (m : List Host.Cell) : ∀ x ∈ ioChecks m, (x.2 = true ↔ ApplyInRange m x.1) := by
  intro x hx
  rcases (ioChecks_mem m x).mp hx with ⟨n, h⟩ | ⟨n, h⟩
  · have hn := n.isLt
    simp only [contactChecks, contactBase, List.mem_cons, List.not_mem_nil, or_false] at h
    rcases h with rfl | rfl | rfl | rfl <;>
      simp only [within_iff, ApplyInRange] <;>
      constructor <;> intro h <;> (try refine ⟨?_, ?_, ?_, ?_, ?_, ?_, ?_, ?_, ?_, ?_, ?_, ?_, ?_⟩) <;> omega
  · have hn := n.isLt
    simp only [outputChecks, outputBase, List.mem_cons, List.not_mem_nil, or_false] at h
    rcases h with rfl | rfl | rfl <;>
      simp only [within_iff, ApplyInRange] <;>
      constructor <;> intro h <;> (try refine ⟨?_, ?_, ?_, ?_, ?_, ?_, ?_, ?_, ?_, ?_, ?_, ?_, ?_⟩) <;> omega

theorem applyChecks_rest (m : List Host.Cell) (a : Nat) (h : ∀ x ∈ applyChecks m ++ ioChecks m, x.1 ≠ a) : ApplyInRange m a := by
  have hc : ¬(0x4700 ≤ a ∧ a ≤ 0x471F) := fun ⟨h1, h2⟩ => by
    have := fun x (hx : x ∈ contactChecks m ⟨(a - 0x4700) / 4, by omega⟩) =>
      h x (List.mem_append_right _ ((ioChecks_mem m x).mpr (.inl ⟨_, hx⟩)))
    simp only [contactChecks, contactBase, List.mem_cons, List.not_mem_nil, or_false, forall_eq_or_imp, forall_eq] at this
    omega
  have ho : ¬(0x4720 ≤ a ∧ a ≤ 0x472F ∧ a % 4 ≠ 3) := fun ⟨h1, h2, h3⟩ => by
    have := fun x (hx : x ∈ outputChecks m ⟨(a - 0x4720) / 4, by omega⟩) =>
      h x (List.mem_append_right _ ((ioChecks_mem m x).mpr (.inr ⟨_, hx⟩)))
    simp only [outputChecks, outputBase, List.mem_cons, List.not_mem_nil, or_false, forall_eq_or_imp, forall_eq] at this
    omega
  have ha := fun x hx => h x (List.mem_append_left _ hx)
  simp only [applyChecks, List.mem_cons, List.not_mem_nil, or_false, forall_eq_or_imp, forall_eq] at ha
  simp only [ApplyInRange]
  refine ⟨?_, ?_, ?_, ?_, ?_, ?_, ?_, ?_, ?_, ?_, ?_, ?_, ?_⟩ <;> omega

theorem settingChecks_ascend (m : List Host.Cell) :
    (startOnlyChecks m ++ applyChecks m ++ ioChecks m).Pairwise (fun x y => x.1 < y.1) := by
  have h : (startOnlyChecks m ++ applyChecks m ++ ioChecks m).map Prod.fst
      = [0x0043, 0x0044, 0x0047, 0x0048] ++ List.range' 0x0049 14
        ++ (List.range' 0x4700 32 ++ (List.range 4).flatMap (fun n => List.range' (0x4720 + 4 * n) 3)) := rfl
  have := (List.pairwise_map (f := Prod.fst) (R := fun a b : Nat => a < b)
    (l := startOnlyChecks m ++ applyChecks m ++ ioChecks m)).mp (by rw [h]; decide)
  exact this

/-- R16. -/
theorem badApply_first (m : List Host.Cell) : FirstOutOfRange (ApplyInRange m) (badApply m) := by
  refine firstBad_first ?_ (fun x hx _ => ?_) (applyChecks_rest m)
  · have := settingChecks_ascend m
    rw [List.append_assoc] at this
    exact (List.pairwise_append.mp this).2.1
  · rcases List.mem_append.mp hx with h | h
    · exact applyChecks_first m x h
    · exact ioChecks_range m x h

theorem startOnlyChecks_range (m : List Host.Cell) : ∀ x ∈ startOnlyChecks m, (x.2 = true ↔ StartOnlyInRange m x.1) := by
  have hz : readAddress m 0x0044 = 0 ↔ readWord m 0x0044 = 0 ∧ readWord m 0x0045 = 0 ∧ readWord m 0x0046 = 0 := by
    simp only [← BitVec.toNat_inj, readAddress_toNat]
    simp
    omega
  have hm := (readWord m 0x0043).isLt
  intro x hx
  simp only [startOnlyChecks, List.mem_cons, List.not_mem_nil, or_false] at hx
  rcases hx with rfl | rfl | rfl | rfl
  · simp only [StartOnlyInRange, within_iff]
    simp
    omega
  · refine (bne_iff_ne.trans (not_congr hz)).trans ?_
    simp only [StartOnlyInRange]
    generalize readWord m 0x0044 = u, readWord m 0x0045 = v, readWord m 0x0046 = w
    simp [not_and_or, -not_and]
  · simp [StartOnlyInRange, laneOf_isSome]
  · simp [StartOnlyInRange, within_iff]

/-- R15. -/
theorem badStart_first (m : List Host.Cell) :
    FirstOutOfRange (fun a => StartOnlyInRange m a ∧ ApplyInRange m a) (badStart m) := by
  refine firstBad_first (settingChecks_ascend m) (fun x hx _ => ?_) (fun a h => ⟨?_, applyChecks_rest m a fun x hx =>
    h x (by rw [List.append_assoc]; exact List.mem_append_right _ hx)⟩)
  · have hge : ∀ y ∈ applyChecks m ++ ioChecks m, StartOnlyInRange m y.1 := by
      intro y hy
      have := (List.pairwise_append.mp (by have := settingChecks_ascend m; rwa [List.append_assoc] at this)).2.2
        (0x0048, within 0 255 (readWord m 0x0048)) (by simp [startOnlyChecks]) y hy
      simp only [StartOnlyInRange]
      simp only at this
      refine ⟨?_, ?_, ?_, ?_⟩ <;> intro h <;> omega
    rw [List.append_assoc] at hx
    rcases List.mem_append.mp hx with h | h
    · refine (startOnlyChecks_range m x h).trans (iff_self_and.mpr fun _ => ?_)
      simp only [startOnlyChecks, List.mem_cons, List.not_mem_nil, or_false] at h
      rcases h with rfl | rfl | rfl | rfl <;> simp [ApplyInRange]
    · refine Iff.trans ?_ (iff_and_self.mpr fun _ => hge x h)
      rcases List.mem_append.mp h with h | h
      · exact applyChecks_first m x h
      · exact ioChecks_range m x h
  · have := fun x hx => h x (List.mem_append_left _ (List.mem_append_left _ hx))
    simp only [startOnlyChecks, List.mem_cons, List.not_mem_nil, or_false, forall_eq_or_imp, forall_eq] at this
    refine ⟨?_, ?_, ?_, ?_⟩ <;> intro h <;> omega

/-- R16. -/
theorem startOnlyDiffers_first (m : List Host.Cell) (set : Settings) :
    FirstOutOfRange (StartOnlyKept m set) (startOnlyDiffers m set) := by
  refine firstBad_first ?_ (fun x hx _ => ?_) (fun a h => ?_)
  · simp
  · simp only [List.mem_cons, List.not_mem_nil, or_false] at hx
    have := set.station.isLt
    rcases hx with rfl | rfl | rfl | rfl | rfl | rfl
    · simp [StartOnlyKept]
    · simp [StartOnlyKept, ← BitVec.toNat_inj, BitVec.extractLsb'_toNat, Nat.shiftRight_eq_div_pow]
      omega
    · simp [StartOnlyKept, ← BitVec.toNat_inj, BitVec.extractLsb'_toNat, Nat.shiftRight_eq_div_pow]
    · simp [StartOnlyKept, ← BitVec.toNat_inj, BitVec.extractLsb'_toNat]
    · cases hb : set.bareLane <;> simp [StartOnlyKept, hb, laneWord, laneCode]
    · have := set.bayEpoch.isLt
      simp [StartOnlyKept, ← BitVec.toNat_inj]
      omega
  · simp only [List.mem_cons, List.not_mem_nil, or_false, forall_eq_or_imp, forall_eq] at h
    refine ⟨?_, ?_, ?_, ?_, ?_, ?_⟩ <;> intro h <;> omega

/-- Section 12.2. -/
theorem readSettings_held (m : List Host.Cell) : SettingsHeld m (readSettings m) := by
  refine ⟨rfl, readAddress_toNat m 0x0044, fun h => ?_, fun h => ?_, ?_, rfl, rfl, rfl, rfl, rfl, rfl, fun p => ?_, rfl, rfl, rfl, rfl,
    fun p => ?_, rfl, rfl, rfl, fun n => ?_, fun n => ?_⟩
  · simp only [readSettings, laneOf, h]; rfl
  · simp only [readSettings, laneOf, h]; rfl
  · simp [readSettings]
  · have := p.isLt
    simp [readSettings, setOf]
  · simp [readSettings, setOf]
  · simp only [readSettings, Fin.getElem_fin, build_get, readContact, contactBase]
    rw [Nat.add_right_comm _ _ 1, Nat.add_right_comm _ _ 2, Nat.add_right_comm _ _ 3]
  · simp only [readSettings, Fin.getElem_fin, build_get, readOutput, outputBase]
    rw [Nat.add_right_comm _ _ 1, Nat.add_right_comm _ _ 2]

theorem isSet_iff (w : Word) : isSet w = true ↔ w.toNat ≤ 15 := by simp [isSet, within]

theorem setOf_bit (w : Word) (p : Fin 4) : (setOf w).getLsbD p.val = w.getLsbD p.val := by simp [setOf]

theorem word_eq_iff (w : Word) (n : Nat) (h : n < 65536) : w = BitVec.ofNat 16 n ↔ w.toNat = n := by
  rw [← BitVec.toNat_inj, BitVec.toNat_ofNat, Nat.mod_eq_of_lt h]

/-! ## Subscription slots -/

/-- R114. -/
theorem badSlot_first (m : List Host.Cell) (k : Fin 64) : FirstOutOfRange (SlotInRange m k) (badSlot m k) := by
  refine firstBad_first (by simp) (fun x hx _ => ?_) (fun a h => ?_)
  · have hb : 0x1600 + 176 * k.val = subBase k := rfl
    simp only [List.mem_cons, List.not_mem_nil, or_false] at hx
    simp only [SlotInRange, hb]
    have e2 := word_eq_iff (readWord m (subBase k + 2)) 1 (by decide)
    have e5 := word_eq_iff (readWord m (subBase k + 5)) 0x8000 (by decide)
    rcases hx with rfl | rfl | rfl | rfl | rfl | rfl | rfl <;>
      simp [within_iff, isSet_iff, e2, e5, imp_iff_not_or, and_assoc]
  · simp only [List.mem_cons, List.not_mem_nil, or_false, forall_eq_or_imp, forall_eq] at h
    refine ⟨?_, ?_, ?_, ?_, ?_, ?_, ?_⟩ <;> intro h <;> omega

/-- R114. -/
theorem readSlot_held (m : List Host.Cell) (k : Fin 64) : SlotHeld m k (readSlot m k) := by
  have hb : 0x1600 + 176 * k.val = subBase k := rfl
  simp only [SlotHeld, readSlot, hb]
  generalize readWord m (subBase k + 1) = w1, readWord m (subBase k + 2) = w2,
    readWord m (subBase k + 5) = w5
  refine ⟨trivial, trivial, trivial, trivial, ?_, ?_, ?_, ?_, ?_, ?_, ?_, ?_⟩
  all_goals first
    | (rintro rfl; rfl)
    | exact fun h => ⟨_, by rw [if_neg h], setOf_bit w5⟩

/-! ## Publication slots -/

theorem pubMode_low : ∀ l < 256, (l &&& 0xE8 = 0 ↔ l = l % 8 + 16 * (l / 16 % 2)) := by decide +kernel

theorem pubMode_high : ∀ h < 256, (h &&& 0xFE = 0 ↔ h = h % 2) := by decide +kernel

theorem pubMode_iff (w : Word) :
    w &&& 0xFEE8 = 0 ↔ w.toNat = w.toNat % 8 + 16 * (w.toNat / 16 % 2) + 256 * (w.toNat / 256 % 2) := by
  have h : w &&& 0xFEE8 = 0 ↔ w.toNat % 256 &&& 0xE8 = 0 ∧ w.toNat / 256 &&& 0xFE = 0 := by
    rw [← BitVec.toNat_inj, BitVec.toNat_and]
    have hs := Nat.div_add_mod (w.toNat &&& 0xFEE8) 256
    rw [Nat.and_mod_two_pow (n := 8), Nat.and_div_two_pow (n := 8)] at hs
    simp at hs ⊢
    omega
  rw [h, pubMode_low _ (Nat.mod_lt _ (by decide)), pubMode_high _ (by have := w.isLt; omega)]
  omega

theorem isPubMode_iff (w : Word) : isPubMode w = true
    ↔ ∃ c t x, 1 ≤ c ∧ c ≤ 4 ∧ t ≤ 1 ∧ x ≤ 1 ∧ w.toNat = c + 16 * t + 256 * x := by
  have hc : (classOf (w.toNat % 8)).isSome = true ↔ 1 ≤ w.toNat % 8 ∧ w.toNat % 8 ≤ 4 := by
    have : w.toNat % 8 < 8 := Nat.mod_lt _ (by decide)
    generalize w.toNat % 8 = n at this ⊢
    interval_cases n <;> simp [classOf]
  simp only [isPubMode, Bool.and_eq_true, beq_iff_eq, pubMode_iff, hc]
  constructor
  · rintro ⟨h, h1, h2⟩
    exact ⟨_, _, _, h1, h2, by omega, by omega, h⟩
  · rintro ⟨c, t, x, h1, h2, h3, h4, h⟩
    omega

/-- R130. -/
theorem badPub_first (m : List Host.Cell) (k : Fin 32) : FirstOutOfRange (PubInRange m k) (badPub m k) := by
  refine firstBad_first (by simp) (fun x hx _ => ?_) (fun a h => ?_)
  · have hb : 0x0200 + 160 * k.val = pubBase k := rfl
    simp only [List.mem_cons, List.not_mem_nil, or_false] at hx
    simp only [PubInRange, hb, ← isPubMode_iff]
    rcases hx with rfl | rfl | rfl | rfl | rfl | rfl | rfl <;>
      simp [within_iff, isSet_iff, and_assoc]
  · simp only [List.mem_cons, List.not_mem_nil, or_false, forall_eq_or_imp, forall_eq] at h
    refine ⟨?_, ?_, ?_, ?_, ?_, ?_, ?_⟩ <;> intro h <;> omega

/-- R127. -/
theorem readPub_held (m : List Host.Cell) (k : Fin 32) : PubHeld m k (readPub m k) := by
  refine ⟨rfl, fun x hx => ?_, rfl, rfl, ?_, rfl, rfl, rfl, setOf_bit _, readAddress_toNat m _⟩
  · simp only [readPub, pubBase]
    rw [hx]
    cases x <;> rfl
  · simp [readPub, pubBase]

/-! ## Link rules -/

/-- R162. -/
theorem badRule_first (m : List Host.Cell) (k : Fin 16) : FirstOutOfRange (RuleInRange m k) (badRule m k) := by
  refine firstBad_first (by simp) (fun x hx before => ?_) (fun a h => ?_)
  · have h0 := before (0, within 1 6 (readWord m (ruleBase k + 0))) (by simp)
    have h8 := before (8, within 1 4 (readWord m (ruleBase k + 8))) (by simp)
    clear before
    have hb : 0x4600 + 16 * k.val = ruleBase k := rfl
    simp only [List.mem_cons, List.not_mem_nil, or_false] at hx
    simp only [RuleInRange, hb]
    generalize readWord m (ruleBase k + 0) = w0, readWord m (ruleBase k + 1) = w1,
      readWord m (ruleBase k + 2) = w2, readWord m (ruleBase k + 7) = w7,
      readWord m (ruleBase k + 8) = w8, readWord m (ruleBase k + 9) = w9,
      readWord m (ruleBase k + 10) = w10 at hx h0 h8 ⊢
    have ea := word_eq_iff w1 0x000A (by decide)
    have eb := word_eq_iff w1 0x000B (by decide)
    simp only [within_iff] at h0 h8
    rcases hx with rfl | rfl | rfl | rfl | rfl | rfl | rfl
    · simp [within_iff]
    · have h0 := h0 (by simp)
      generalize w0.toNat = n at h0 ⊢
      have : n = 1 ∨ n = 2 ∨ n = 3 ∨ n = 4 ∨ n = 5 ∨ n = 6 := by omega
      rcases this with rfl | rfl | rfl | rfl | rfl | rfl <;> simp [within_iff, laneOf_isSome, ea, eb]
    · have h0 := h0 (by simp)
      generalize w0.toNat = n at h0 ⊢
      have : n = 1 ∨ n = 2 ∨ n = 3 ∨ n = 4 ∨ n = 5 ∨ n = 6 := by omega
      rcases this with rfl | rfl | rfl | rfl | rfl | rfl <;> simp [within_iff]
    · simp [within_iff]
    · simp [within_iff]
    · have h8 := h8 (by simp)
      generalize w8.toNat = n at h8 ⊢
      have : n = 1 ∨ n = 2 ∨ n = 3 ∨ n = 4 := by omega
      rcases this with rfl | rfl | rfl | rfl <;> simp [within_iff]
    · simp [within_iff]
  · simp only [List.mem_cons, List.not_mem_nil, or_false, forall_eq_or_imp, forall_eq] at h
    refine ⟨?_, ?_, ?_, ?_, ?_, ?_, ?_⟩ <;> intro h <;> omega

/-- R162, R163. -/
theorem readRule_held (m : List Host.Cell) (k : Fin 16) : RuleHeld m k (readRule m k) := by
  have hs : ∀ n, (readWord m (ruleBase k + 0)).toNat = n → (readRule m k).source = match n with
      | 1 => .contactOn (Fin.ofNat 8 ((readWord m (ruleBase k + 1)).toNat - 1))
      | 2 => .contactOff (Fin.ofNat 8 ((readWord m (ruleBase k + 1)).toNat - 1))
      | 3 => .streamMatch (readWord m (ruleBase k + 1)) (readWord m (ruleBase k + 2)).toNat (readContent m (ruleBase k + 3) 4)
          (readContent m (ruleBase k + 5) 4)
      | 4 => .streamStale (readWord m (ruleBase k + 1))
      | 5 => .lane ((laneOf (readWord m (ruleBase k + 1))).getD .a) ((laneStateOf (readWord m (ruleBase k + 2)).toNat).getD .held)
      | _ => .redundancy (if readWord m (ruleBase k + 1) = 0 then .none else .single) := by
    rintro n rfl; rfl
  have ha : ∀ n, (readWord m (ruleBase k + 8)).toNat = n → (readRule m k).action = match n with
      | 1 => .driveOutput (Fin.ofNat 4 ((readWord m (ruleBase k + 9)).toNat - 1))
      | 2 => .releaseOutput (Fin.ofNat 4 ((readWord m (ruleBase k + 9)).toNat - 1))
      | 3 => .post (Fin.ofNat 32 (readWord m (ruleBase k + 9)).toNat)
      | _ => .journalOnly := by
    rintro n rfl; rfl
  have num : ∀ (w : Word) (n : Nat), w = BitVec.ofNat 16 n → n < 65536 → w.toNat = n := fun w n h hn => (word_eq_iff w n hn).mp h
  have hb : 0x4600 + 16 * k.val = ruleBase k := rfl
  simp only [RuleHeld, hb]
  refine ⟨fun n hn => ⟨fun h => ?_, fun h => ?_⟩, fun h => ?_, fun h => ?_, fun verdict h h2 => ⟨fun h1 => ?_, fun h1 => ?_⟩,
    fun h => ⟨fun h1 => ?_, fun h1 => ?_⟩, rfl, rfl, fun n hn => ⟨fun h => ?_, fun h => ?_⟩, fun n hn h => ?_, fun h => ?_⟩
  · rw [hs 1 (num _ 1 h (by decide))]
    simp only [hn]; congr 1; exact Fin.ext (Nat.mod_eq_of_lt n.isLt)
  · rw [hs 2 (num _ 2 h (by decide))]
    simp only [hn]; congr 1; exact Fin.ext (Nat.mod_eq_of_lt n.isLt)
  · exact ⟨_, _, hs 3 (num _ 3 h (by decide)), rfl, rfl, rfl, rfl, rfl, rfl⟩
  · exact hs 4 (num _ 4 h (by decide))
  · rw [hs 5 (num _ 5 h (by decide))]
    simp only [h1, h2]; cases verdict <;> rfl
  · rw [hs 5 (num _ 5 h (by decide))]
    simp only [h1, h2]; cases verdict <;> rfl
  · rw [hs 6 (num _ 6 h (by decide))]
    simp only [h1]; rfl
  · rw [hs 6 (num _ 6 h (by decide))]
    simp only [h1]; rfl
  · rw [ha 1 (num _ 1 h (by decide))]
    simp only [hn]; congr 1; exact Fin.ext (Nat.mod_eq_of_lt n.isLt)
  · rw [ha 2 (num _ 2 h (by decide))]
    simp only [hn]; congr 1; exact Fin.ext (Nat.mod_eq_of_lt n.isLt)
  · rw [ha 3 (num _ 3 h (by decide))]
    simp only [hn]; congr 1; exact Fin.ext (Nat.mod_eq_of_lt n.isLt)
  · exact ha 4 (num _ 4 h (by decide))

/-! ## Arguments, divisors and content -/

/-- R14. The lane an argument names. -/
theorem laneOf_iff (w : Word) (l : Lane) : laneOf w = some l ↔ w = laneWord l := by
  unfold laneOf
  cases l <;> split <;> simp_all [laneWord, laneCode]

/-- R14. The output an argument names. -/
theorem outputOf_iff (w : Word) (n : Fin 4) : outputOf w = some n ↔ w.toNat = n.val + 1 := by
  unfold outputOf
  have := n.isLt
  split
  · next h =>
    have := (within_iff ..).mp h
    simp only [Option.some.injEq, Fin.ext_iff, Fin.ofNat]
    omega
  · next h =>
    rw [within_iff] at h
    simp only [reduceCtorEq, false_iff]
    omega

/-- R79, section 12.2. The divisors of the four classes stand in four settings words. -/
theorem readSettings_divisor (m : List Host.Cell) :
    [Cls.trip, .status, .sample, .service].map (readSettings m).divisor
      = [readWord m 0x0050, readWord m 0x0051, readWord m 0x0052, readWord m 0x0053] := rfl

/-- R135. As many bytes as the content length word gives, at most 256. -/
theorem readStaged_length (m : List Host.Cell) (k : Fin 32) :
    (readStaged m k).length = min 256 (readWord m (pubBase k + 10)).toNat := by
  unfold readStaged readContent
  rw [List.length_map, List.length_range]

/-- Section 12.4. The more significant byte of each content word first. -/
theorem readStaged_byte (m : List Host.Cell) (k : Fin 32) (i : Nat) (h : i < (readStaged m k).length) :
    (readStaged m k)[i]? = some (if i % 2 = 0 then (readWord m (pubBase k + 13 + i / 2)).extractLsb' 8 8
      else (readWord m (pubBase k + 13 + i / 2)).extractLsb' 0 8) := by
  rw [readStaged_length] at h
  unfold readStaged readContent
  rw [List.getElem?_map, List.getElem?_range h, Option.map_some, (readWord_halves m _).1, (readWord_halves m _).2]
  have e : 2 * (pubBase k + 13) + i = 2 * (pubBase k + 13 + i / 2) + i % 2 := by omega
  rw [e]
  rcases Nat.mod_two_eq_zero_or_one i with h0 | h0 <;> simp [h0]

end Sys2Proof.Machine
end

