-- ==== Sys2Proof/Laws/Order.lean ====
section
/-! SUPPORT. The lists kept in order of a clock value: where a new watch entry (R78) or calendar entry (R141) stands. -/

namespace Sys2Proof.Machine

/-- R9. `due` is reached while the signed difference from it is not negative. -/
theorem reached_iff (now due : Clock) : reached now due = true ↔ (now - due).toNat < 0x80000000 := by
  simp only [reached, Bool.not_eq_true', BitVec.msb_eq_decide, decide_eq_false_iff_not]
  omega

/-- A list parts at `now` into the values that are due at or before it and, from the first later one on, the others. -/
theorem reached_parts {α : Type} (due : α → Clock) (now : Clock) (before after : List α)
    (hb : ∀ v ∈ before, (now - due v).toNat < 0x80000000)
    (ha : ∀ v, after.head? = some v → 0x80000000 ≤ (now - due v).toNat) :
    (before ++ after).takeWhile (fun v => reached now (due v)) = before
      ∧ (before ++ after).dropWhile (fun v => reached now (due v)) = after := by
  have hb' : ∀ v ∈ before, reached now (due v) = true := fun v h => (reached_iff ..).mpr (hb v h)
  have hl : ∀ v, after.head? = some v → reached now (due v) = false := fun v h => by
    have := ha v h
    rw [Bool.eq_false_iff, ne_eq, reached_iff]
    omega
  constructor
  · rw [List.takeWhile_append_of_pos hb']
    cases after with
    | nil => simp
    | cons v rest => simp [hl v rfl]
  · rw [List.dropWhile_append_of_pos hb']
    cases after with
    | nil => simp
    | cons v rest => simp [hl v rfl]

/-- R78. A new watch entry stands behind the entries due at or before it, ahead of the first that is due later. -/
theorem insertWatch_parts (w : WatchEntry) (before after : List WatchEntry)
    (hb : ∀ v ∈ before, (w.deadline - v.deadline).toNat < 0x80000000)
    (ha : ∀ v, after.head? = some v → 0x80000000 ≤ (w.deadline - v.deadline).toNat) :
    insertWatch w (before ++ after) = before ++ w :: after := by
  obtain ⟨h1, h2⟩ := reached_parts WatchEntry.deadline w.deadline before after hb ha
  rw [insertWatch, h1, h2]
  simp

/-- R141. A new calendar entry stands behind the entries due at or before it, ahead of the first that is due later. -/
theorem insertCalendar_parts (c : CalendarEntry) (before after : List CalendarEntry)
    (hb : ∀ d ∈ before, (c.due - d.due).toNat < 0x80000000)
    (ha : ∀ d, after.head? = some d → 0x80000000 ≤ (c.due - d.due).toNat) :
    insertCalendar c (before ++ after) = before ++ c :: after := by
  obtain ⟨h1, h2⟩ := reached_parts CalendarEntry.due c.due before after hb ha
  rw [insertCalendar, h1, h2]
  simp

end Sys2Proof.Machine
end

