-- ==== Sys2Proof/Laws/Publication.lean ====
section
/-! SUPPORT. What a send of a publication slot does (R139), the send state its entry shows included (R43, R54). -/

namespace Sys2Proof.Machine

/-- R43, R54. The record of a LOCAL-HOST entry shows its send state. -/
theorem showSend_shows (f : Entry) (h : f.origin.isHost = true) (x : Byte) (n : Word) :
    entryWords { f with sendEpoch := x, sendNext := n } = entryWords f ↔ { f with sendEpoch := x, sendNext := n } = f := by
  constructor
  · intro he
    have hr : (f.origin == Origin.remote) = false := by cases ho : f.origin <;> simp_all [Origin.isHost]
    simp only [entryWords, hr, List.cons.injEq, Bool.false_eq_true, if_false, Bool.false_and] at he
    obtain ⟨-, -, h2, -, -, h5, -⟩ := he
    have hx : x = f.sendEpoch := by
      apply BitVec.eq_of_getLsbD_eq
      intro i hi
      have := congrArg (fun w : Word => w.getLsbD i) h2
      have h9 : i < 9 := by omega
      have h12 : i < 12 := by omega
      have hb : (bitAt 15 f.clashNoted).getLsbD i = false :=
        (by decide : ∀ (b : Bool) (i : Nat), i < 8 → (bitAt 15 b).getLsbD i = false) _ _ hi
      simp only [BitVec.getLsbD_or, BitVec.getLsbD_setWidth, BitVec.getLsbD_shiftLeft, hb, h9, h12] at this
      have h16 : i < 16 := by omega
      simpa [h16, bitAt] using this
    obtain ⟨⟩ := f
    simp_all
  · intro h; rw [h]

theorem showSend_state (k : Fin 32) (x : Byte) (n : Word) (s : State) : showSendState k x n s =
    { s with table := (showSendState k x n s).table, imageCounts := (showSendState k x n s).imageCounts } := by
  unfold showSendState asEngineClaim; rfl

/-- R54, R139. -/
theorem showSend_table (k : Fin 32) (x : Byte) (n : Word) (s : State) (p : Fin 512) :
    (showSendState k x n s).table[p] = s.table[p].map (fun (f : Entry) =>
      if f.origin = .localHost k then { f with sendEpoch := x, sendNext := n } else f) := by
  unfold showSendState asEngineClaim
  simp

/-- R43. -/
theorem showSend_images (k : Fin 32) (x : Byte) (n : Word) (s : State) (p : Fin 512) :
    (showSendState k x n s).imageCounts[p]
      = s.imageCounts[p] + (if (showSendState k x n s).table[p] = s.table[p] then 0 else 1) := by
  rw [showSend_table]
  unfold showSendState asEngineClaim
  simp only [standing_self]
  have h : ∀ u v : Vector (Option Entry) 512,
      (zipAll (· + ·) s.imageCounts (zipAll imageUpdates u v))[p] = s.imageCounts[p] + imageUpdates u[p] v[p] := by
    intro u v; simp [zipAll]
  rw [h]
  simp only [Fin.getElem_fin, mapAll_get]
  congr 1
  cases he : s.table[p.val] with
  | none => simp [imageUpdates]
  | some f =>
    simp only [Option.map_some, imageUpdates, Option.some.injEq]
    by_cases ho : f.origin = .localHost k
    · rw [if_pos ho]
      have := showSend_shows f (by rw [ho]; rfl) x n
      by_cases hx : ({ f with sendEpoch := x, sendNext := n } : Entry) = f
      · rw [if_pos hx, if_pos (this.mpr hx).symm]
      · rw [if_neg hx, if_neg (fun h => hx (this.mp h.symm))]
    · simp [ho]

/-- R139. What a send of an armed slot does. -/
theorem sendPub_spec (k : Fin 32) (s : State) (c : PubConfig) (content : List Byte) (hc : s.pubs[k].config = some c)
    (hb : s.pubs[k].buffer = some content) (u : State) (copy : Option Word → TxRecord)
    (hcopy : ∀ seq, copy seq =
      { frame := s.pubs[k].message c content s.settings, stream := true, trip := c.cls == .trip, seq := seq })
    (hu : u = offerBays c.forward (copy none)
      (offerLane .b (copy (some s.pubs[k].nextSeq)) (offerLane .a (copy (some s.pubs[k].nextSeq)) s))) :
    ∃ tbl counts, sendPub k s = { s with
        laneA := u.laneA, laneB := u.laneB, bays := u.bays, bayGroup := u.bayGroup, journal := u.journal
        pubs := modifyAt s.pubs k PubSlot.sent, table := tbl, imageCounts := counts }
      ∧ (∀ p : Fin 512, tbl[p] = s.table[p].map (fun (f : Entry) =>
          if f.origin = .localHost k then { f with sendEpoch := s.pubs[k].epoch, sendNext := s.pubs[k].nextSeq + 1 } else f))
      ∧ ∀ p : Fin 512, counts[p] = s.imageCounts[p] + (if tbl[p] = s.table[p] then 0 else 1) := by
  have h1 : sendPub k s
      = showSendState k s.pubs[k].epoch (s.pubs[k].nextSeq + 1) { u with pubs := modifyAt u.pubs k PubSlot.sent } := by
    unfold sendPub
    simp only [hc, hb, hu, hcopy]
  have hs := showSend_state k s.pubs[k].epoch (s.pubs[k].nextSeq + 1) { u with pubs := modifyAt u.pubs k PubSlot.sent }
  have ht := showSend_table k s.pubs[k].epoch (s.pubs[k].nextSeq + 1) { u with pubs := modifyAt u.pubs k PubSlot.sent }
  have hi := showSend_images k s.pubs[k].epoch (s.pubs[k].nextSeq + 1) { u with pubs := modifyAt u.pubs k PubSlot.sent }
  rw [← h1] at hs ht hi
  refine ⟨(sendPub k s).table, (sendPub k s).imageCounts, ?_, fun p => (ht p).trans (by rw [hu]; simp),
    fun p => (hi p).trans (by rw [hu]; simp)⟩
  rw [hs, State.mk.injEq]
  and_intros <;> simp [hu]

end Sys2Proof.Machine
end

