-- ==== Sys2Proof/Laws/Queues.lean ====
section
/-! SUPPORT. The transmit queues: what an offer, a beginning to send and a flush do to their lengths. -/

namespace Sys2Proof.Machine

/-- A record placed by class is one record more (R149). -/
theorem placeBay_length (r : TxRecord) (q : List TxRecord) : (placeBay r q).length = q.length + 1 := by
  unfold placeBay
  split
  · have := congrArg List.length (List.takeWhile_append_dropWhile (p := (·.trip)) (l := q))
    simp only [List.length_append, List.length_cons, List.length_nil] at *
    omega
  · simp

/-- An offer never takes a bay port's queue past its room (R149, R150). -/
theorem bayEnqueue_length (r : TxRecord) (q : List TxRecord) (h : q.length ≤ Config.bayRoom) :
    (BayPort.enqueue r q).1.length ≤ Config.bayRoom := by
  unfold BayPort.enqueue
  split
  · rw [placeBay_length]; omega
  · split
    · rw [placeBay_length, List.length_dropLast]
      have : Config.bayRoom = 32 := rfl
      omega
    · exact h

/-- A bay port that begins to send takes at most the head of its queue (R151). -/
theorem bayBegin_length (link : Bool) (p : BayPort) :
    (BayPort.begin link p).queue.length ≤ p.queue.length ∧ (BayPort.begin link p).arrivals = p.arrivals := by
  unfold BayPort.begin
  split
  · split
    · next h => rw [h]; simp
    · simp
  · simp

/-- A lane port that begins to send takes at most one record from a queue (R146). -/
theorem laneBegin_length (l : Lane) (p : LanePort) :
    (LanePort.begin l p).urgent.length ≤ p.urgent.length ∧ (LanePort.begin l p).normal.length ≤ p.normal.length
      ∧ (LanePort.begin l p).arrivals = p.arrivals ∧ (LanePort.begin l p).group = p.group := by
  unfold LanePort.begin LanePort.next
  rcases hu : p.urgent with _ | ⟨r, u⟩
  · rcases hn : p.normal with _ | ⟨r, n⟩ <;> split <;> simp_all
  · split <;> simp_all

/-- A record that a lane port takes joins one queue that has room for it (R145). -/
theorem laneEnqueue_length (r : TxRecord) (p q : LanePort) (h : p.enqueue r = some q)
    (hu : p.urgent.length ≤ Config.urgentRoom) (hn : p.normal.length ≤ Config.normalRoom) :
    q.urgent.length ≤ Config.urgentRoom ∧ q.normal.length ≤ Config.normalRoom ∧ q.arrivals = p.arrivals := by
  unfold LanePort.enqueue at h
  split at h
  · next hc =>
    cases h
    have : p.urgent.length < Config.urgentRoom := by simp_all
    refine ⟨?_, hn, rfl⟩
    simpa using this
  · split at h
    · next hc =>
      cases h
      refine ⟨hu, ?_, rfl⟩
      simpa using hc
    · cases h

/-- A lane that enters a state keeps its arrivals; its queues are kept or emptied (R96, R97). -/
theorem entered_queues (n : LaneState) (f : LaneGroup → LaneGroup) (t : Clock) (w : Word) (p : LanePort) :
    (p.entered n f t w).arrivals = p.arrivals ∧ (p.entered n f t w).urgent.length ≤ p.urgent.length
      ∧ (p.entered n f t w).normal.length ≤ p.normal.length := by
  unfold LanePort.entered
  split <;> simp

end Sys2Proof.Machine
end

