-- ==== Sys2Proof/Laws/Start.lean ====
section
/-! SUPPORT. START's work, piece by piece: what one piece does, that its reads make the snapshot of the settings words, and that the
completion ends alike whatever part of the work was done before it. -/

namespace Sys2Proof.Machine

/-- The settings that come into force move the outputs that follow them, with the claims of that, and nothing else. -/
theorem takeSettings_shape (new : Settings) (s : State) :
    ∃ j o c, takeSettings new s = { s with settings := new, journal := j, outputs := o, contactEdition := c } := by
  have claims : ∀ (g : State → Fin 4 → Bool) (l : List (Fin 4)) (t : State),
      ∃ j, l.foldl (fun t n => if g t n then outputClaim n false .apply t else t) t = { t with journal := j } := by
    intro g l
    induction l with
    | nil => exact fun t => ⟨t.journal, rfl⟩
    | cons n l ih =>
      intro t
      obtain ⟨j, hj⟩ := ih (if g t n then outputClaim n false .apply t else t)
      refine ⟨j, ?_⟩
      rw [List.foldl_cons, hj]
      split <;> rfl
  unfold takeSettings
  dsimp only
  obtain ⟨j, hj⟩ := claims (fun t n => s.outputs[n].driven && !t.outputs[n].driven) (List.finRange 4) _
  rw [hj]
  unfold updateContacts
  dsimp only
  split <;> exact ⟨_, _, _, rfl⟩

/-! ## A START in progress -/

theorem startLeft_some {s : State} {left : List StartPiece} (h : s.startLeft = some left) :
    ∃ w read, s.working = some w ∧ w.finish = .starting left read := by
  unfold State.startLeft at h
  split at h
  · split at h
    · cases h; exact ⟨_, _, ‹_›, ‹_›⟩
    · cases h
    · cases h
  · cases h

theorem startLeft_of {s : State} {w : Working} {left : List StartPiece} {read : List Host.Cell} (hw : s.working = some w)
    (hf : w.finish = .starting left read) : s.startLeft = some left := by
  simp [State.startLeft, hw, hf]

/-- With no START in progress, nothing goes on. -/
theorem goOnStarting_idle {s : State} (h : s.startLeft = none) : goOnStarting s = s := by simp [goOnStarting, h]

/-- With a START in progress, it goes on by a free choice. -/
theorem goOnStarting_some {s : State} {left : List StartPiece} (h : s.startLeft = some left) :
    goOnStarting s = work (Config.startPace s.free) { s with free := s.free + 1 } := by simp [goOnStarting, h]

/-- The next piece is made. -/
theorem workOnce_piece {s : State} {w : Working} {p : StartPiece} {left : List StartPiece} {read : List Host.Cell}
    (hw : s.working = some w) (hf : w.finish = .starting (p :: left) read) : workOnce s = doPiece p left read w s := by
  simp [workOnce, hw, hf]

/-- With nothing of START's work to do, no piece is made. -/
theorem workOnce_idle {s : State} (h : s.startLeft = none ∨ s.startLeft = some []) : workOnce s = s := by
  unfold workOnce
  split
  · next w hw =>
    split
    · next hf => rw [startLeft_of hw hf] at h; simp at h
    · rfl
  · rfl

theorem work_idle {s : State} (h : s.startLeft = none ∨ s.startLeft = some []) (n : Nat) : work n s = s := by
  induction n with
  | zero => rfl
  | succ n ih => rw [work, workOnce_idle h]; exact ih

theorem work_add (m n : Nat) (s : State) : work (m + n) s = work n (work m s) := by
  induction m generalizing s with
  | zero => rw [Nat.zero_add, work]
  | succ m ih => rw [Nat.succ_add]; exact ih (workOnce s)

/-- A piece leaves what is behind it to do, or ends the work. -/
theorem doPiece_startLeft (p : StartPiece) (left : List StartPiece) (read : List Host.Cell) (w : Working) (s : State) :
    (doPiece p left read w s).startLeft = some left ∨ (doPiece p left read w s).startLeft = none := by
  have keep : ∀ (t : State) (r : List Host.Cell), t.working = some { w with finish := .starting left r } →
      t.startLeft = some left := fun t r h => startLeft_of h rfl
  unfold doPiece
  cases p with
  | read a => exact Or.inl (keep _ _ rfl)
  | settings =>
    dsimp only
    split
    · exact Or.inr rfl
    · refine Or.inl (keep _ read ?_)
      obtain ⟨j, o, c, h⟩ := takeSettings_shape (readSettings read) { s with working := some { w with finish := .starting left read } }
      rw [takeStartSettings, putInForce, h]
  | visit arm => exact Or.inl (keep _ read (takeArm_spine ..).2.2.2.2.2.2.2.2.2.2.1)
  | lanes =>
    refine Or.inl (keep _ read ?_)
    have h := (releaseAtStart_spine { s with working := some { w with finish := .starting left read } }).trans (beginFiltering_spine _)
    exact h.2.2.2.2.2.2.2.2.2.2.1
  | started => exact Or.inl (keep _ read (startedClaim_spine _).2.2.2.2.2.2.2.2.2.2.1)

/-! ## The completion -/

/-- All that is left of START's work. -/
def State.workedOut (s : State) : State :=
  match s.startLeft with
  | some left => work left.length s
  | none => s

/-- A piece made early leaves the rest to the same end. -/
theorem workedOut_workOnce (s : State) : (workOnce s).workedOut = s.workedOut := by
  rcases hl : s.startLeft with _ | left
  · rw [workOnce_idle (Or.inl hl)]
  · rcases left with _ | ⟨p, left⟩
    · rw [workOnce_idle (Or.inr hl)]
    · obtain ⟨w, read, hw, hf⟩ := startLeft_some hl
      have h1 : s.workedOut = work left.length (workOnce s) := by simp [State.workedOut, hl, work]
      rw [h1]
      rcases doPiece_startLeft p left read w s with h | h <;> rw [← workOnce_piece hw hf] at h
      · simp [State.workedOut, h]
      · rw [work_idle (Or.inl h)]; simp [State.workedOut, h]

theorem workedOut_work (n : Nat) (s : State) : (work n s).workedOut = s.workedOut := by
  induction n generalizing s with
  | zero => rfl
  | succ n ih => rw [work, ih, workedOut_workOnce]

/-- R13. A completion does what is left, then writes the result. -/
theorem completeCommand_workedOut (s : State) :
    completeCommand s = match s.workedOut.working with | some w => complete w s.workedOut | none => s.workedOut := rfl

/-- However much of START's work was done before, the completion ends alike. -/
theorem completeCommand_work (n : Nat) (s : State) : completeCommand (work n s) = completeCommand s := by
  rw [completeCommand_workedOut, completeCommand_workedOut, workedOut_work]

/-! ## The reads -/

/-- The words of `m` at the addresses `as`, in a memory of their own. -/
def snapshot (m : List Host.Cell) (as : List Nat) : List Host.Cell := as.foldl (fun r a => writeWord r a (readWord m a)) []

/-- The reads before a piece put the words they find into what has been read. -/
theorem work_reads (as : List Nat) (left : List StartPiece) (read : List Host.Cell) (w : Working) (s : State)
    (hw : s.working = some w) (hf : w.finish = .starting (as.map .read ++ left) read) :
    work as.length s
      = { s with working := some { w with
            finish := .starting left (as.foldl (fun r a => writeWord r a (readWord s.mem a)) read) } } := by
  induction as generalizing read w s with
  | nil =>
    have hf' : w.finish = .starting left read := hf
    have : w = { w with finish := .starting left read } := by rw [← hf']
    rw [List.length_nil, work, List.foldl_nil, ← this, ← hw]
  | cons a as ih =>
    have hf' : w.finish = .starting (.read a :: (as.map .read ++ left)) read := hf
    rw [List.length_cons, work, workOnce_piece hw hf']
    exact ih _ { w with finish := .starting (as.map .read ++ left) (writeWord read a (readWord s.mem a)) } _ rfl rfl

theorem snapshot_wf (m : List Host.Cell) (as : List Nat) : Memory.wf (snapshot m as) := by
  have : ∀ (r : List Host.Cell), Memory.wf r → Memory.wf (as.foldl (fun r a => writeWord r a (readWord m a)) r) := by
    induction as with
    | nil => exact fun r h => h
    | cons a as ih => exact fun r h => ih _ (writeWord_wf h _ _)
  exact this [] empty_wf

/-- A snapshot reads as the memory it was made of, at each of its addresses. -/
theorem readWord_snapshot (m : List Host.Cell) (as : List Nat) (a : Nat) (h : a ∈ as) :
    readWord (snapshot m as) a = readWord m a := by
  have : ∀ (r : List Host.Cell), Memory.wf r → (a ∈ as ∨ readWord r a = readWord m a) →
      readWord (as.foldl (fun r a => writeWord r a (readWord m a)) r) a = readWord m a := by
    clear h
    induction as with
    | nil => intro r _ h; rcases h with h | h; cases h; exact h
    | cons b as ih =>
      intro r hr h
      refine ih _ (writeWord_wf hr _ _) ?_
      by_cases hab : a = b
      · subst hab; exact Or.inr (readWord_writeWord_self hr _ _)
      · rw [readWord_writeWord_ne _ _ _ _ hab]
        rcases h with h | h
        · exact Or.inl ((List.mem_cons.1 h).resolve_left hab)
        · exact Or.inr h
  exact this [] empty_wf (Or.inl h)

/-- The settings words of two memories that agree at them are the same settings, in range or not alike. -/
theorem settings_agree {m n : List Host.Cell} (h : ∀ a ∈ settingsAddrs, readWord m a = readWord n a) :
    badStart m = badStart n ∧ readSettings m = readSettings n := by
  have key : ∀ a, a ∈ settingsAddrs → readWord m a = readWord n a := h
  have hc : ∀ (k : Fin 8) (i : Nat), i < 4 → readWord m (contactBase k + i) = readWord n (contactBase k + i) := by
    intro k i hi; refine key _ ?_
    have hk := k.isLt
    simp only [settingsAddrs, List.mem_append, List.mem_range'_1, contactBase]
    left; right; simp; omega
  have ho : ∀ (k : Fin 4) (i : Nat), i < 3 → readWord m (outputBase k + i) = readWord n (outputBase k + i) := by
    intro k i hi; refine key _ ?_
    simp only [settingsAddrs, List.mem_append, List.mem_range'_1, List.mem_flatMap]
    exact Or.inr ⟨k, List.mem_finRange _, by omega⟩
  have hg : ∀ a, 0x0043 ≤ a → a ≤ 0x0056 → readWord m a = readWord n a := by
    intro a h1 h2; refine key _ ?_
    simp only [settingsAddrs, List.mem_append, List.mem_range'_1]
    left; left; omega
  have hc0 : ∀ k : Fin 8, readWord m (contactBase k) = readWord n (contactBase k) := fun k => hc k 0 (by omega)
  have ho0 : ∀ k : Fin 4, readWord m (outputBase k) = readWord n (outputBase k) := fun k => ho k 0 (by omega)
  have g49 := hg 0x0049 (by decide) (by decide)
  have g4A := hg 0x004A (by decide) (by decide)
  have g4B := hg 0x004B (by decide) (by decide)
  have g4C := hg 0x004C (by decide) (by decide)
  have g4D := hg 0x004D (by decide) (by decide)
  have g4E := hg 0x004E (by decide) (by decide)
  have g4F := hg 0x004F (by decide) (by decide)
  have g50 := hg 0x0050 (by decide) (by decide)
  have g51 := hg 0x0051 (by decide) (by decide)
  have g52 := hg 0x0052 (by decide) (by decide)
  have g53 := hg 0x0053 (by decide) (by decide)
  have g54 := hg 0x0054 (by decide) (by decide)
  have g55 := hg 0x0055 (by decide) (by decide)
  have g56 := hg 0x0056 (by decide) (by decide)
  have h1 : startOnlyChecks m = startOnlyChecks n := by
    simp only [startOnlyChecks, readAddress, hg 0x0043 (by decide) (by decide), hg 0x0044 (by decide) (by decide),
      hg (0x0044 + 1) (by decide) (by decide), hg (0x0044 + 2) (by decide) (by decide), hg 0x0047 (by decide) (by decide),
      hg 0x0048 (by decide) (by decide)]
  have h2 : applyChecks m = applyChecks n := by
    simp only [applyChecks, g49, g4A, g4B, g4C, g4D, g4E, g4F, g50, g51, g52, g53, g54, g55, g56]
  have h3 : ioChecks m = ioChecks n := by
    have : contactChecks m = contactChecks n := funext fun k => by
      simp only [contactChecks, hc0, hc k 1 (by decide), hc k 2 (by decide), hc k 3 (by decide)]
    have : outputChecks m = outputChecks n := funext fun k => by
      simp only [outputChecks, ho0, ho k 1 (by decide), ho k 2 (by decide)]
    simp only [ioChecks, *]
  have h4 : readContact m = readContact n := funext fun k => by
    simp only [readContact, hc0, hc k 1 (by decide), hc k 2 (by decide), hc k 3 (by decide)]
  have h5 : readOutput m = readOutput n := funext fun k => by
    simp only [readOutput, ho0, ho k 1 (by decide), ho k 2 (by decide)]
  refine ⟨by rw [badStart, badStart, h1, h2, h3], ?_⟩
  simp only [readSettings, readAddress, h4, h5, hg 0x0043 (by decide) (by decide), hg 0x0044 (by decide) (by decide),
    hg (0x0044 + 1) (by decide) (by decide), hg (0x0044 + 2) (by decide) (by decide), hg 0x0047 (by decide) (by decide),
    hg 0x0048 (by decide) (by decide), g49, g4A, g4B, g4C, g4D, g4E, g4F, g50, g51, g52, g53, g54, g55, g56]

end Sys2Proof.Machine
end

