-- ==== Sys2Proof/Laws/Transmit.lean ====
section
/-! SUPPORT. What an offer to the ports reads, and what it adds to the journal (R37, R145, R149); what a drop at a lane is, and the order of a set of ports. -/

namespace Sys2Proof.Machine

/-- Two states show an offer the same: the part state, the clock, the ports and the journal. -/
def SendView (s t : State) : Prop :=
  s.partState = t.partState ∧ s.clock = t.clock ∧ s.laneA = t.laneA ∧ s.laneB = t.laneB ∧ s.bays = t.bays ∧ s.bayGroup = t.bayGroup
    ∧ s.journal = t.journal

/-- An offer to a lane reads and changes nothing else. -/
theorem offerLane_view (l : Lane) (r : TxRecord) {s t : State} (h : SendView s t) : SendView (offerLane l r s) (offerLane l r t) := by
  obtain ⟨h1, h2, h3, h4, h5, h6, h7⟩ := h
  have hl : s.lane l = t.lane l := by cases l; exacts [h3, h4]
  unfold offerLane
  simp only [hl, h2]
  split
  · cases l <;> simp [SendView, updateLane, State.modifyLane, *]
  · split
    · cases l <;> simp [SendView, State.modifyLane, *]
    · simp only [countLane, laneSentinel, hl]
      split <;> cases l <;> simp [SendView, updateLane, State.modifyLane, claim, *]

theorem countBay_view (p : Fin 4) (f : BayBlock → BayBlock) (c : BayCounter) (x : Clock) {s t : State} (h : SendView s t) :
    SendView (countBay p f c x s) (countBay p f c x t) := by
  obtain ⟨h1, h2, h3, h4, h5, h6, h7⟩ := h
  have hb : s.bayGroup.ports[p] = t.bayGroup.ports[p] := by rw [h6]
  simp only [countBay, hb, baySentinel]
  split <;> simp [SendView, updateBay, claim, *]

theorem offerBay_view (p : Fin 4) (r : TxRecord) {s t : State} (h : SendView s t) : SendView (offerBay p r s) (offerBay p r t) := by
  obtain ⟨h1, h2, h3, h4, h5, h6, h7⟩ := h
  have hm : ∀ f, SendView (s.modifyBay p f) (t.modifyBay p f) := fun f => by simp [SendView, State.modifyBay, *]
  unfold offerBay
  simp only [h1, h2, h5, h6]
  split
  · exact ⟨h1, h2, h3, h4, h5, h6, h7⟩
  · split
    · simp [SendView, updateBay, *]
    · split
      · exact countBay_view p _ _ _ (hm _)
      · exact hm _

/-- An offer to a set of bay ports reads and changes nothing else. -/
theorem offerBays_view (set : PortSet) (r : TxRecord) {s t : State} (h : SendView s t) :
    SendView (offerBays set r s) (offerBays set r t) := by
  unfold offerBays
  generalize List.finRange 4 = l
  induction l generalizing s t with
  | nil => exact h
  | cons p l ih =>
    simp only [List.foldl_cons]
    apply ih
    split
    · exact offerBay_view p r h
    · exact h

/-- What an offer adds to the journal is COUNTER-FIRST. -/
def AddsFirsts (s t : State) : Prop :=
  ∃ later, t.journal = { s.journal with claims := s.journal.claims ++ later } ∧ ∀ c ∈ later, c.kind = .counterFirst

theorem AddsFirsts.refl (s : State) : AddsFirsts s s := ⟨[], by simp⟩

theorem AddsFirsts.trans {s t u : State} (h : AddsFirsts s t) (g : AddsFirsts t u) : AddsFirsts s u := by
  obtain ⟨a, ha, ha'⟩ := h
  obtain ⟨b, hb, hb'⟩ := g
  exact ⟨a ++ b, by rw [hb, ha]; simp, fun c hc => (List.mem_append.mp hc).elim (ha' c) (hb' c)⟩

theorem offerLane_claims (l : Lane) (r : TxRecord) (s : State) : AddsFirsts s (offerLane l r s) := by
  unfold offerLane
  split
  · exact ⟨[], by cases l <;> simp [updateLane, State.modifyLane]⟩
  · split
    · exact ⟨[], by cases l <;> simp [State.modifyLane]⟩
    · simp only [countLane, laneSentinel]
      split
      · cases l <;> exact ⟨_, rfl, by simp⟩
      · exact ⟨[], by cases l <;> simp [updateLane, State.modifyLane]⟩

theorem offerBay_claims (p : Fin 4) (r : TxRecord) (s : State) : AddsFirsts s (offerBay p r s) := by
  unfold offerBay
  dsimp only
  split
  · exact .refl s
  · split
    · exact ⟨[], by simp [updateBay]⟩
    · split
      · simp only [countBay, baySentinel]
        split
        · exact ⟨_, rfl, by simp⟩
        · exact ⟨[], by simp [updateBay, State.modifyBay]⟩
      · exact ⟨[], by simp [State.modifyBay]⟩

theorem offerBays_claims (set : PortSet) (r : TxRecord) (s : State) : AddsFirsts s (offerBays set r s) := by
  unfold offerBays
  generalize List.finRange 4 = l
  induction l generalizing s with
  | nil => exact .refl s
  | cons p l ih =>
    refine AddsFirsts.trans ?_ (ih _)
    dsimp only
    split
    · exact offerBay_claims p r s
    · exact .refl s

/-! ## Drops, and the order of a set's ports -/

/-- R37, R145. A record that finds the queues it may join full. -/
theorem offerLane_drop (l : Lane) (r : TxRecord) (s : State) (hc : (s.lane l).group.state.carries = true)
    (hu : (r.stream && r.trip) = false ∨ 16 ≤ (s.lane l).urgent.length) (hn : 64 ≤ (s.lane l).normal.length) :
    offerLane l r s =
      { s.modifyLane l (fun p => { p with group := { p.group with
          edition := ((offerLane l r s).lane l).group.edition
          drops := if p.group.drops = 0xFFFF then 0xFFFF else p.group.drops + 1 } }) with
        journal := { s.journal with claims := s.journal.claims ++ (if (s.lane l).group.drops = 0 then
          [{ kind := .counterFirst, subject := .lane l, time := s.clock, d1 := laneCounterCode .drops, d2 := 0, d3 := 0 }]
          else []) } } := by
  have he : (s.lane l).enqueue r = none := by
    unfold LanePort.enqueue
    rw [if_neg, if_neg]
    · simp only [Config.normalRoom]; omega
    · rcases hu with h | h
      · simp [h]
      · intro hx
        have := of_decide_eq_true (Bool.and_eq_true_iff.mp hx).2
        simp only [Config.urgentRoom] at this
        omega
  have ho : offerLane l r s = countLane l id .drops s.clock s := by
    unfold offerLane
    rw [hc, he]
    rfl
  rw [ho, countLane_lane_self, countLane_eq]
  cases l <;> simp only [updateLane, State.modifyLane, State.lane] <;> rw [update_drops] <;> rfl

/-- An offer to a set is one to each of its ports, in ascending number (log entry 18). -/
theorem offerBays_ascending (set : PortSet) (r : TxRecord) (s : State) :
    offerBays set r s = ((List.finRange 4).filter (fun p => set.getLsbD p.val)).foldl (fun t p => offerBay p r t) s := by
  rw [List.foldl_filter]
  rfl

end Sys2Proof.Machine
end

