-- ==== Sys2Proof/Laws/Wire.lean ====
section
/-! SUPPORT. What frames are as bytes: the two check sequences as remainders (R23, R26), the trailer (R22, R24, R25), the stream header
(R20, R21, R176) and the frames the ports build; one lemma for each function. -/

namespace Sys2Proof.Machine

open Polynomial

/-! ## Check sequences as remainders -/

/-- The bits of a register, most significant first. -/
def regBits {w : Nat} (r : BitVec w) : List Bool := (List.range w).map r.getMsbD

theorem polyOf_concat (l : List Bool) (b : Bool) : polyOf (l ++ [b]) = polyOf l * X + (if b then 1 else 0) := by
  induction l with
  | nil => cases b <;> simp [polyOf]
  | cons c l ih =>
    simp only [List.cons_append, polyOf, ih, List.length_append, List.length_singleton]
    cases c <;> simp [pow_succ]
    all_goals ring

theorem polyOf_zipWith : ∀ (l m : List Bool), l.length = m.length → polyOf (List.zipWith xor l m) = polyOf l + polyOf m
  | [], [], _ => by simp [polyOf]
  | b :: l, c :: m, h => by
    have h' : l.length = m.length := by simpa using h
    have two : (X : (ZMod 2)[X]) ^ m.length + X ^ m.length = 0 := CharTwo.add_self_eq_zero _
    simp only [List.zipWith_cons_cons, polyOf, polyOf_zipWith l m h', List.length_zipWith, h', min_self]
    cases b <;> cases c <;>
      simp only [Bool.xor_self, Bool.xor_true, Bool.xor_false, Bool.not_false, Bool.false_eq_true, if_true, if_false]
    · ring
    · ring
    · ring
    · linear_combination -two

/-- One bit into a register: the register moved up by one power with the bit added, modulo the generator. -/
theorem crcBit_poly {w : Nat} (poly reg : BitVec (w + 1)) (b : Bool) :
    X ^ (w + 1) + polyOf (regBits poly)
      ∣ polyOf (regBits reg) * X + (if b then X ^ (w + 1) else 0) - polyOf (regBits (crcBit poly reg b)) := by
  have hr : regBits reg = reg.msb :: (List.range w).map (fun i => reg.getMsbD (i + 1)) := by
    simp [regBits, List.range_succ_eq_map, BitVec.msb, Function.comp_def]
  have hs : regBits (reg <<< 1) = (List.range w).map (fun i => reg.getMsbD (i + 1)) ++ [false] := by
    refine List.ext_getElem (by simp [regBits]) (fun i h _ => ?_)
    have hi : i < w + 1 := by simpa [regBits] using h
    rcases Nat.lt_or_ge i w with hw | hw
    · rw [List.getElem_append_left (by simpa using hw)]
      simp [regBits]
    · obtain rfl : i = w := by omega
      simp [regBits]
  have hx : regBits ((reg <<< 1) ^^^ poly) = List.zipWith xor (regBits (reg <<< 1)) (regBits poly) := by
    refine List.ext_getElem (by simp [regBits]) (fun i h _ => ?_)
    simp [regBits]
  have two : ∀ p : (ZMod 2)[X], p + p = 0 := CharTwo.add_self_eq_zero
  have hp : polyOf (regBits (reg <<< 1)) = polyOf (regBits reg) * X - (if reg.msb then X ^ (w + 1) else 0) := by
    rw [hs, polyOf_concat, hr]
    simp only [polyOf, List.length_map, List.length_range]
    cases reg.msb <;> simp [pow_succ]
    all_goals ring
  have hq : polyOf (regBits ((reg <<< 1) ^^^ poly)) = polyOf (regBits (reg <<< 1)) + polyOf (regBits poly) := by
    rw [hx, polyOf_zipWith _ _ (by simp [regBits])]
  unfold crcBit
  have t1 := two (X ^ (w + 1))
  have t2 := two (polyOf (regBits poly))
  cases hm : reg.msb <;> cases b <;>
    simp only [hm, bne_self_eq_false, Bool.false_eq_true, if_false, if_true, hq, hp, bne_iff_ne, ne_eq, not_false_eq_true,
      reduceCtorEq]
  · exact ⟨0, by ring⟩
  · exact ⟨1, by linear_combination -t2⟩
  · exact ⟨1, by linear_combination -t2⟩
  · exact ⟨0, by linear_combination t1⟩

/-- A register run over a message holds the remainder of what it held and of the message. -/
theorem crc_poly {w : Nat} (poly : BitVec (w + 1)) (message : List Bool) (reg : BitVec (w + 1)) :
    X ^ (w + 1) + polyOf (regBits poly) ∣ polyOf message * X ^ (w + 1) + polyOf (regBits reg) * X ^ message.length
      - polyOf (regBits (message.foldl (crcBit poly) reg)) := by
  induction message generalizing reg with
  | nil => simp [polyOf]
  | cons b rest ih =>
    refine (dvd_add (ih (crcBit poly reg b)) ((crcBit_poly poly reg b).mul_left (X ^ rest.length))).trans (dvd_of_eq ?_)
    simp only [polyOf, List.foldl_cons, List.length_cons]
    cases b <;> simp
    all_goals ring

/-- R23, R26. A register that begins with all ones ends with the CRC of the message. -/
theorem crcOf {w : Nat} (poly : BitVec (w + 1)) (message : List Bool) :
    CrcOf (X ^ (w + 1) + polyOf (regBits poly)) (w + 1) message
      (regBits (message.foldl (crcBit poly) (BitVec.allOnes (w + 1)))) := by
  have h : regBits (BitVec.allOnes (w + 1)) = List.replicate (w + 1) true := by
    refine List.ext_getElem (by simp [regBits]) (fun i h _ => ?_)
    have hi : i < w + 1 := by simpa [regBits] using h
    simp [regBits, hi, BitVec.getMsbD]
  exact ⟨by simp [regBits], by simpa only [h] using crc_poly poly message (BitVec.allOnes (w + 1))⟩

theorem flatMap_bitsFromBottom (bytes : List Byte) : bytes.flatMap bitsFromBottom = bitsUp bytes := rfl

theorem flatMap_bitsFromTop (bytes : List Byte) : bytes.flatMap bitsFromTop = bitsDown bytes := rfl

/-- R23. -/
theorem trailerCheck_crc (span : List Byte) : TrailerCheckOf span (trailerCheck span) := by
  have h := crcOf (w := 15) 0x1021 (bitsDown span)
  have hg : (X ^ (15 + 1) + polyOf (regBits (0x1021 : BitVec 16)) : (ZMod 2)[X]) = X ^ 16 + X ^ 12 + X ^ 5 + 1 := by
    have : regBits (0x1021 : BitVec 16) = [false, false, false, true, false, false, false, false,
      false, false, true, false, false, false, false, true] := by decide
    rw [this]
    simp [polyOf]
    ring
  rw [hg] at h
  exact h

/-- R26. -/
theorem fcs_crc (bytes : List Byte) : FcsOf bytes (fcs bytes) := by
  have h := crcOf (w := 31) 0x04C11DB7 (bitsUp bytes)
  have hg : (X ^ (31 + 1) + polyOf (regBits (0x04C11DB7 : BitVec 32)) : (ZMod 2)[X])
      = X ^ 32 + X ^ 26 + X ^ 23 + X ^ 22 + X ^ 16 + X ^ 12 + X ^ 11 + X ^ 10 + X ^ 8 + X ^ 7 + X ^ 5 + X ^ 4 + X ^ 2 + X + 1 := by
    have : regBits (0x04C11DB7 : BitVec 32) = [false, false, false, false, false, true, false, false, true, true, false,
      false, false, false, false, true, false, false, false, true, true, true, false, true, true, false, true, true, false, true, true,
      true] := by decide
    rw [this]
    simp [polyOf]
    ring
  rw [hg] at h
  refine ⟨_, h, rfl, ?_⟩
  have e : fcsValue bytes = ~~~ ((bitsUp bytes).foldl (crcBit 0x04C11DB7) (BitVec.allOnes 32)) := rfl
  generalize (bitsUp bytes).foldl (crcBit 0x04C11DB7) (BitVec.allOnes 32) = r at e ⊢
  have byte : ∀ k, k + 7 < 32 → (List.range 8).map ((~~~r).extractLsb' k 8).reverse.getLsbD
      = (List.range 8).map (fun i => !r.getMsbD (24 - k + i)) := by
    intro k hk
    refine List.map_congr_left (fun i hi => ?_)
    have hi : i < 8 := List.mem_range.mp hi
    rw [BitVec.getLsbD_reverse, BitVec.getMsbD_eq_getLsbD, BitVec.getLsbD_extractLsb', BitVec.getLsbD_not,
      BitVec.getMsbD_eq_getLsbD]
    have h1 : k + (8 - 1 - i) = 32 - 1 - (24 - k + i) := by omega
    have h2 : 24 - k + i < 32 := by omega
    have h3 : k + (8 - 1 - i) < 32 := by omega
    have h4 : (32 - 1 - (24 - k + i)) < 32 := by omega
    have h5 : 8 - 1 - i < 8 := by omega
    simp only [h1, h2, hi, h4, h5, decide_true, Bool.true_and]
  simp only [fcs, e, bitsUp, List.flatMap_cons, List.flatMap_nil, byte 24 (by decide), byte 16 (by decide), byte 8 (by decide),
    byte 0 (by decide)]
  rfl

/-! ## Frames and trailers -/

/-- R26. -/
theorem frameGood_iff (f : List Byte) :
    frameGood f = true ↔ ∃ body, f = body ++ fcs body ∧ 60 ≤ body.length ∧ body.length ≤ 1518 := by
  constructor
  · intro h
    simp only [frameGood, Bool.and_eq_true, decide_eq_true_eq, beq_iff_eq] at h
    obtain ⟨⟨h1, h2⟩, h3⟩ := h
    refine ⟨withoutFcs f, ?_, ?_, ?_⟩
    · rw [← h3]; exact (List.take_append_drop _ _).symm
    · simp only [withoutFcs, List.length_take]; omega
    · simp only [withoutFcs, List.length_take]; omega
  · rintro ⟨body, rfl, h1, h2⟩
    exact frameGood_withFcs body h1 h2

theorem getD_append (l r : List Byte) (k i : Nat) (h : l.length = k) : (l ++ r).getD (k + i) 0 = r.getD i 0 := by
  subst h
  simp [List.getD_eq_getElem?_getD, List.getElem?_append_right]

/-- R22, R23. What the eight bytes after a message are. -/
theorem trailer_bytes (msg : List Byte) (a b c d m n x y : Byte) :
    ∀ body, body = msg ++ [a, b, c, d, m, n, x, y] →
      hasTrailer body = (m ++ n == (0xA6E1 : Word)) ∧ trailerSeq body = a ++ b ∧ trailerLane body = c ∧ trailerVersion body = d
        ∧ stripTrailer body = msg
        ∧ trailerPasses body = (trailerCheck ((msg ++ [a, b, c, d, m, n]).drop 12) == x ++ y && d == 1) := by
  rintro _ rfl
  have hl : (msg ++ [a, b, c, d, m, n, x, y]).length = msg.length + 8 := by simp
  have g : ∀ i, (msg ++ [a, b, c, d, m, n, x, y]).getD (msg.length + i) 0 = [a, b, c, d, m, n, x, y].getD i 0 :=
    fun i => getD_append _ _ _ _ rfl
  have ht : (msg ++ [a, b, c, d, m, n, x, y]).take (msg.length + 6) = msg ++ [a, b, c, d, m, n] := by
    rw [List.take_length_add_append]; rfl
  have e4 : msg.length + 8 - 4 = msg.length + 4 := by omega
  have e8 : msg.length + 8 - 8 = msg.length + 0 := by omega
  have e6 : msg.length + 8 - 6 = msg.length + 2 := by omega
  have e5 : msg.length + 8 - 5 = msg.length + 3 := by omega
  have e2 : msg.length + 8 - 2 = msg.length + 6 := by omega
  simp only [hasTrailer, trailerSeq, trailerLane, trailerVersion, stripTrailer, trailerPasses, wordAt, byteAt, wordOf, hl, e2, e4, e5, e6,
    e8, Nat.add_assoc, g, ht]
  refine ⟨by simp, rfl, rfl, rfl, by simp, rfl⟩

theorem append_toNat (m n : Byte) : (m ++ n : Word).toNat = m.toNat * 256 + n.toNat := by
  rw [BitVec.toNat_append, ← Nat.shiftLeft_add_eq_or_of_lt n.isLt, Nat.shiftLeft_eq]

/-- R22. The marker alone says that a trailer is present. -/
theorem hasTrailer_iff (body : List Byte) :
    hasTrailer body = true ↔ ∃ msg a b c d x y, body = msg ++ [a, b, c, d, 0xA6, 0xE1, x, y] := by
  constructor
  · intro h
    have hl : 8 ≤ body.length := by
      simp only [hasTrailer, Bool.and_eq_true, decide_eq_true_eq] at h
      exact h.1
    obtain ⟨a, b, c, d, m, n, x, y, he⟩ : ∃ a b c d m n x y, body.drop (body.length - 8) = [a, b, c, d, m, n, x, y] := by
      have : (body.drop (body.length - 8)).length = 8 := by rw [List.length_drop]; omega
      generalize body.drop (body.length - 8) = l at this
      match l, this with
      | [a, b, c, d, m, n, x, y], _ => exact ⟨a, b, c, d, m, n, x, y, rfl⟩
    have hb : body = body.take (body.length - 8) ++ [a, b, c, d, m, n, x, y] := by rw [← he, List.take_append_drop]
    have hm := (trailer_bytes _ a b c d m n x y body hb).1
    rw [h] at hm
    have hm : m ++ n = (0xA6E1 : Word) := by simpa using hm.symm
    have hn := congrArg BitVec.toNat hm
    rw [append_toNat] at hn
    have h1 : m = 0xA6 := by have := m.isLt; have := n.isLt; apply BitVec.eq_of_toNat_eq; simp at hn ⊢; omega
    have h2 : n = 0xE1 := by have := m.isLt; have := n.isLt; apply BitVec.eq_of_toNat_eq; simp at hn ⊢; omega
    exact ⟨_, a, b, c, d, x, y, by rw [h1, h2] at hb; exact hb⟩
  · rintro ⟨msg, a, b, c, d, x, y, h⟩
    rw [(trailer_bytes msg a b c d 0xA6 0xE1 x y body h).1]
    rfl

/-- R24. A STREAM record within the limits is sent as a good frame whose trailer passes. -/
theorem laneBytes_stream (l : Lane) (r : TxRecord) (hs : r.stream = true) (hl : r.frame.length ≤ 1510) :
    ∃ msg body, msg = r.frame ++ List.replicate (52 - r.frame.length) 0 ∧ laneBytes l r = body ++ fcs body
      ∧ body.length = msg.length + 8
      ∧ frameGood (laneBytes l r) = true ∧ hasTrailer body = true ∧ trailerPasses body = true ∧ trailerLane body = laneCode l
      ∧ trailerSeq body = r.seq.getD 0 ∧ stripTrailer body = msg := by
  obtain ⟨msg, hm⟩ : ∃ msg, msg = r.frame ++ List.replicate (52 - r.frame.length) (0 : Byte) := ⟨_, rfl⟩
  obtain ⟨body, hb⟩ : ∃ body, body = msg ++ trailerOf l (r.seq.getD 0) msg := ⟨_, rfl⟩
  have he : laneBytes l r = body ++ fcs body := by rw [hb, hm, laneBytes, hs]; rfl
  have hlen : body.length = msg.length + 8 := by rw [hb, List.length_append]; rfl
  have hmsg : msg.length = r.frame.length + (52 - r.frame.length) := by rw [hm]; simp
  obtain ⟨h1, h2, h3, h4, h5, h6⟩ := trailer_bytes msg _ _ _ _ _ _ _ _ body hb
  have hc : trailerPasses body = true := by
    rw [h6, Bool.and_eq_true, beq_iff_eq, beq_iff_eq]
    refine ⟨?_, rfl⟩
    rw [show _ ++ _ = _ from wordOf_halves _, List.drop_append_of_le_length (by omega)]
    rfl
  refine ⟨msg, body, hm, he, hlen, he ▸ frameGood_withFcs body (by omega) (by omega), by rw [h1]; rfl, hc, h3, ?_, h5⟩
  exact h2.trans (wordOf_halves _)

theorem laneBytes_bare (l : Lane) (r : TxRecord) (hs : r.stream = false) : laneBytes l r = r.frame ++ fcs r.frame := by
  rw [laneBytes, hs]; rfl

/-- R151. -/
theorem bayBytes_good (r : TxRecord) (hl : r.frame.length ≤ 1518) :
    ∃ body, body = r.frame ++ List.replicate (60 - r.frame.length) 0 ∧ bayBytes r = body ++ fcs body
      ∧ frameGood (bayBytes r) = true := by
  refine ⟨_, rfl, rfl, frameGood_withFcs _ ?_ ?_⟩ <;> simp [padTo] <;> omega

/-! ## The stream header -/

theorem classOf_iff (n : Nat) (c : Cls) : classOf n = some c ↔ (classCode c).toNat = n := by
  unfold classOf
  split <;> cases c <;> simp_all [classCode] <;> omega

/-- R20, R21, R176. The header of a message of at least 22 bytes: its fields, and when it is well-formed. -/
theorem readHeader_bytes (addresses rest msg : List Byte) (t0 t1 w0 w1 e h0 h1 n l0 l1 : Byte) (h12 : addresses.length = 12)
    (hm : msg = addresses ++ [t0, t1, w0, w1, e, h0, h1, n, l0, l1] ++ rest) :
    typeWord msg = t0 ++ t1
    ∧ (∀ h : Header, readHeader msg = some h ↔
        h.id.toNat = (w0 ++ w1).toNat % 4096 ∧ (classCode h.cls).toNat = (w0 ++ w1).toNat / 4096 % 8
        ∧ h.test = w0.getLsbD 7 ∧ h.epoch = e ∧ h.hold = h0 ++ h1 ∧ h.repeatNo = n ∧ h.length = l0 ++ l1
        ∧ 1 ≤ h.id.toNat ∧ h.hold.toNat ≤ 60000 ∧ h.length.toNat ≤ 480 ∧ h.length.toNat ≤ rest.length) := by
  subst hm
  have g : ∀ i, (addresses ++ [t0, t1, w0, w1, e, h0, h1, n, l0, l1] ++ rest).getD (12 + i) 0
      = ([t0, t1, w0, w1, e, h0, h1, n, l0, l1] ++ rest).getD i 0 := by
    intro i
    rw [List.append_assoc]
    exact getD_append _ _ _ _ h12
  have hl : (addresses ++ [t0, t1, w0, w1, e, h0, h1, n, l0, l1] ++ rest).length = 22 + rest.length := by simp [h12]; omega
  have w12 : wordAt (addresses ++ [t0, t1, w0, w1, e, h0, h1, n, l0, l1] ++ rest) 12 = t0 ++ t1 := by
    rw [wordAt, byteAt, byteAt]; exact congrArg₂ wordOf (g 0) (g 1)
  have w14 : wordAt (addresses ++ [t0, t1, w0, w1, e, h0, h1, n, l0, l1] ++ rest) 14 = w0 ++ w1 := by
    rw [wordAt, byteAt, byteAt]; exact congrArg₂ wordOf (g 2) (g 3)
  have b16 : byteAt (addresses ++ [t0, t1, w0, w1, e, h0, h1, n, l0, l1] ++ rest) 16 = e := g 4
  have w17 : wordAt (addresses ++ [t0, t1, w0, w1, e, h0, h1, n, l0, l1] ++ rest) 17 = h0 ++ h1 := by
    rw [wordAt, byteAt, byteAt]; exact congrArg₂ wordOf (g 5) (g 6)
  have b19 : byteAt (addresses ++ [t0, t1, w0, w1, e, h0, h1, n, l0, l1] ++ rest) 19 = n := g 7
  have w20 : wordAt (addresses ++ [t0, t1, w0, w1, e, h0, h1, n, l0, l1] ++ rest) 20 = l0 ++ l1 := by
    rw [wordAt, byteAt, byteAt]; exact congrArg₂ wordOf (g 8) (g 9)
  have ht : (w0 ++ w1 : Word).getLsbD 15 = w0.getLsbD 7 := by
    rw [BitVec.getLsbD_append]; rfl
  have hid : ((w0 ++ w1 : Word) &&& 0x0FFF).toNat = (w0 ++ w1 : Word).toNat % 4096 := by
    rw [BitVec.toNat_and]; exact Nat.and_two_pow_sub_one_eq_mod _ 12
  have hne : ∀ x : Word, x ≠ 0 ↔ 1 ≤ x.toNat := fun x => by
    rw [← BitVec.toNat_inj.ne]; simp; omega
  refine ⟨w12, fun h => ?_⟩
  simp only [readHeader, w14, b16, w17, b19, w20, hl, ht]
  have hc := fun c => classOf_iff ((w0 ++ w1 : Word).toNat / 4096 % 8) c
  cases hx : classOf ((w0 ++ w1 : Word).toNat / 4096 % 8) with
  | none =>
    rw [hx] at hc
    simp only [reduceCtorEq, false_iff] at hc ⊢
    exact fun hh => hc _ hh.2.1
  | some c =>
    have hcc := (hc c).mp hx
    have hinj : ∀ d, (classCode d).toNat = (w0 ++ w1 : Word).toNat / 4096 % 8 ↔ d = c := fun d => by
      rw [← hc d, hx, Option.some.injEq, eq_comm]
    obtain ⟨id, cls, test, epoch, hold, repeatNo, length⟩ := h
    simp only [hinj]
    rw [← hid]
    constructor
    · intro hh
      split at hh
      · rename_i hg
        simp only [Bool.and_eq_true, bne_iff_ne, decide_eq_true_eq, hne] at hg
        simp only [Option.some.injEq, Header.mk.injEq] at hh
        obtain ⟨rfl, rfl, rfl, rfl, rfl, rfl, rfl⟩ := hh
        exact ⟨rfl, rfl, rfl, rfl, rfl, rfl, rfl, by omega, by omega, by omega, by omega⟩
      · cases hh
    · rintro ⟨h1, rfl, rfl, rfl, rfl, rfl, rfl, h8, h9, h10, h11⟩
      obtain rfl : id = (w0 ++ w1 : Word) &&& 0x0FFF := BitVec.eq_of_toNat_eq h1
      rw [if_pos]
      simp only [Bool.and_eq_true, bne_iff_ne, decide_eq_true_eq, hne]
      exact ⟨⟨⟨h8, h9⟩, h10⟩, by omega⟩

theorem readHeader_short (msg : List Byte) (h : msg.length < 22) : readHeader msg = none := by
  unfold readHeader
  simp only
  split
  · rfl
  · rw [if_neg]
    simp only [Bool.and_eq_true, decide_eq_true_eq]
    omega

theorem contentOf_bytes (a : Arrival) (head rest : List Byte) (h22 : head.length = 22) (hf : a.frame = head ++ rest) :
    contentOf a = rest.take a.header.length.toNat := by
  rw [contentOf, hf, List.drop_left' h22]

theorem addressBytes_length (x : BitVec 48) : (addressBytes x).length = 6 := rfl

theorem addressBytes_number (x : BitVec 48) : numberOf (addressBytes x) = x.toNat := by
  have h := x.isLt
  simp only [numberOf, addressBytes, bytesOf, List.cons_append, List.nil_append, List.foldl_cons, List.foldl_nil,
    BitVec.extractLsb'_toNat, Nat.shiftRight_eq_div_pow]
  omega

/-- R139, R176. What a message built holds is what a reader reads, whatever padding follows it. -/
theorem buildMessage_header (dest station : BitVec 48) (type : Word) (h : Header) (content : List Byte) (n : Nat)
    (h1 : 1 ≤ h.id.toNat) (h2 : h.id.toNat ≤ 4095) (h3 : h.hold.toNat ≤ 60000) (h4 : h.length.toNat = content.length)
    (h5 : content.length ≤ 480) (msg : List Byte)
    (hm : msg = buildMessage dest station type h content ++ List.replicate n 0) :
    readHeader msg = some h ∧ typeWord msg = type ∧ numberOf (msg.take 6) = dest.toNat
      ∧ numberOf ((msg.drop 6).take 6) = station.toNat ∧ (msg.drop 22).take content.length = content
      ∧ (buildMessage dest station type h content).length = 22 + content.length := by
  have hs : msg = (addressBytes dest ++ addressBytes station)
      ++ [type.extractLsb' 8 8, type.extractLsb' 0 8,
        (h.id ||| (classCode h.cls <<< 12) ||| bitAt 15 h.test).extractLsb' 8 8,
        (h.id ||| (classCode h.cls <<< 12) ||| bitAt 15 h.test).extractLsb' 0 8, h.epoch, h.hold.extractLsb' 8 8,
        h.hold.extractLsb' 0 8, h.repeatNo, h.length.extractLsb' 8 8, h.length.extractLsb' 0 8]
      ++ (content ++ List.replicate n 0) := by rw [hm]; simp [buildMessage, bytesOf]
  have halves : ∀ w : Word, w.extractLsb' 8 8 ++ w.extractLsb' 0 8 = w := wordOf_halves
  obtain ⟨ht, hh⟩ := readHeader_bytes _ _ msg _ _ _ _ _ _ _ _ _ _ (by rfl) hs
  have hw : (h.id ||| (classCode h.cls <<< 12) ||| bitAt 15 h.test).toNat
      = h.id.toNat + (classCode h.cls).toNat * 4096 + (if h.test then 32768 else 0) := by
    have hk : ((classCode h.cls <<< 12) ||| bitAt 15 h.test).toNat
        = 2 ^ 12 * ((classCode h.cls).toNat + if h.test then 8 else 0) := by
      cases h.cls <;> cases h.test <;> rfl
    rw [BitVec.or_assoc, BitVec.toNat_or, hk, Nat.or_comm, ← Nat.two_pow_add_eq_or_of_lt (by omega)]
    split <;> omega
  have hc : 1 ≤ (classCode h.cls).toNat ∧ (classCode h.cls).toNat ≤ 4 := by cases h.cls <;> decide
  refine ⟨(hh h).mpr ⟨?_, ?_, ?_, rfl, (halves _).symm, rfl, (halves _).symm, h1, h3, by omega, by simp; omega⟩, by rw [ht, halves],
    ?_, ?_, ?_, ?_⟩
  · rw [halves, hw]; split <;> omega
  · rw [halves, hw]; split <;> omega
  · have hb : (h.id ||| (classCode h.cls <<< 12) ||| bitAt 15 h.test).getLsbD 15 = h.test := by
      rw [← BitVec.testBit_toNat, hw, Nat.testBit_eq_decide_div_mod_eq]
      cases h.test <;> simp <;> omega
    rw [BitVec.getLsbD_extractLsb']
    exact hb.symm
  · rw [hs]; exact addressBytes_number dest
  · rw [hs]; exact addressBytes_number station
  · rw [hs, List.drop_left' (by rfl), List.take_left]
  · simp [buildMessage, bytesOf, addressBytes]; omega

/-- R61, R176. The stamped frame is the frame with the epoch at offset 16. -/
theorem stampEpoch_bytes (frame : List Byte) (epoch : Byte) :
    (stampEpoch frame epoch).length = frame.length
      ∧ (16 < frame.length → (stampEpoch frame epoch)[16]? = some epoch)
      ∧ ∀ i, i ≠ 16 → (stampEpoch frame epoch)[i]? = frame[i]? := by
  refine ⟨by simp [stampEpoch], fun h => by simp [stampEpoch, h], fun i h => ?_⟩
  unfold stampEpoch
  rw [List.getElem?_set_ne (Ne.symm h)]

end Sys2Proof.Machine
end

