-- ==== Sys2Proof/Tests/Slice0.lean ====
section
/-! SUPPORT. Checks of the model on small states: ill-formed commands, the manual's own worked points, and, for every statement
with hypotheses, states and operands that meet them together, clause by clause. -/

namespace Sys2Proof.Tests

open Sys2Proof Sys2Proof.Machine

set_option Elab.async false

set_option maxRecDepth 1000000

/-! ## Small states -/

/-- A part just in RUNNING, everything else as reset left it. -/
def running : State := { State.reset with partState := .running }

/-- A part just in CONFIG. -/
def config : State := { State.reset with partState := .config }

/-- Host words at their hardware-reset values, with a station address and the words given. -/
def wordsWith (l : List (Nat × Word)) : List Host.Cell :=
  l.foldl (fun m p => writeWord m p.1 p.2) (writeWord defaultMem 0x0044 1)

/-- `running` with the words given. -/
def runningWith (l : List (Nat × Word)) : State := { running with mem := wordsWith l }

/-- Lane A's port in a state, its link as given. -/
def withLaneA (state : LaneState) (link : Bool) (s : State) : State :=
  { s with laneA := { s.laneA with group := { s.laneA.group with state := state, link := link } } }

/-- A REMOTE LEARNED entry of stream 5. -/
def remoteEntry : Entry :=
  { State.reset.blankEntry 5 .remote with cls := some .status, fresh := some .fresh, serial := 1, lastAccept := some 0 }

/-- `running` with one entry at position 1. -/
def withEntry (e : Entry) (s : State) : State := s.putEntry 1 (some e)

/-- A stream message of stream 5, class STATUS, with three content bytes. -/
def message : List Byte :=
  buildMessage 0x010203040506 0x0A0B0C0D0E0F 0x7A51
    { id := 5, cls := .status, test := false, epoch := 9, hold := 40, repeatNo := 0, length := 3 } [1, 2, 3]

/-- The record of `message` in a transmit queue. -/
def record : TxRecord := { frame := message, stream := true, trip := false, seq := some 100 }

/-- The arrival record of `message` on Lane A. -/
def arrival : Arrival :=
  { frame := padTo 52 message, port := .lane .a, seq := some 100, time := 7
    header := { id := 5, cls := .status, test := false, epoch := 9, hold := 40, repeatNo := 0, length := 3 } }

/-- `arrival` alone waits on Lane A, for a part whose table holds `e`. -/
def arrivalAt (e : Entry) : State :=
  withEntry e { running with laneA := { lanePortAtReset with arrivals := [arrival] } }

/-- A publication's arm-time fields. -/
def pubConfig : PubConfig :=
  { id := 5, cls := .status, test := false, epoch := 0, first := 2, heartbeat := 1000, refresh := 30, snapshot := false
    forward := 1, dest := 0 }

/-- A slot of the publications in a state, with its fields and buffer. -/
def pubIn (state : PubState) (interval : Word) : PubSlot :=
  { pubSlotAtReset with state := state, config := some pubConfig, buffer := some [1], interval := interval
                        refreshAt := some 0 }

/-- `running` with publication slot 0 as given. -/
def withPub (p : PubSlot) (s : State) : State := { s with pubs := s.pubs.set 0 p }

/-- `running` with subscription slot 0 as given. -/
def withSub (t : SubSlot) (s : State) : State := { s with subs := s.subs.set 0 t }

/-- Slot 0 asks for stream 5 with an expected first arrival of 1,000 ms. -/
def slotWords (arm : Word) : List (Nat × Word) := [(0x1600, 5), (0x1605, 0x8000), (0x1606, 1000), (0x1607, arm)]

/-- Slot 0 publishes stream 5, class STATUS, first interval 2 ms, heartbeat 1,000 ms. -/
def pubWords : List (Nat × Word) := [(0x0200, 5), (0x0201, 1), (0x0203, 2), (0x0204, 1000), (0x0205, 30), (0x0206, 1)]

/-- The one entry of a table with one entry. -/
theorem table_withEntry (e f : Entry) (p : Fin 512) (s : State) (hs : s.table = State.reset.table)
    (h : (withEntry e s).table[p] = some f) : p = 1 ∧ f = e := by
  unfold withEntry at h
  rw [putEntry_get] at h
  split at h
  · next hp => exact ⟨hp.symm, (Option.some.inj h).symm⟩
  · rw [hs] at h
    simp [State.reset] at h

/-- A table with one entry is sound if the slot and the publication it names are armed. -/
theorem tableSound_withEntry (e : Entry) (s : State) (hs : s.table = State.reset.table)
    (h1 : ∀ k : Fin 64, e.slot = some k → s.subs[k].state = .armed)
    (h2 : ∀ k : Fin 32, e.origin = .localHost k → s.pubs[k].state.armed = true) : TableSound (withEntry e s) := by
  intro p f hf
  obtain ⟨rfl, rfl⟩ := table_withEntry e f p s hs hf
  exact ⟨h1, h2, fun q g hg _ => (table_withEntry _ g q s hs hg).1.symm⟩

/-- A START in progress in CONFIG, with the host's words at their defaults but for the station address. -/
def starting (left : List StartPiece) (read : List Host.Cell) : State :=
  { config with mem := wordsWith []
                working := some { echo := 1, code := .done, detail := 0, finish := .starting left read } }

/-- A delivered copy. -/
def copy : Copy :=
  { id := 5, seq := 100, epoch := 9, port := .lane .a, time := 7, cls := .status, test := false, hold := 40, repeatNo := 0
    length := 3, content := [1, 2, 3] }

/-- A delivery in progress. -/
def delivery : InProgress :=
  { copy := copy, view := viewAtReset, mismatch := false, markedBy := none, notify := .onEvery, differs := true }

/-- A window at 65,530 in epoch 9, holding that copy on Lane A. -/
def window : Window := Window.start 65530 9 .a

/-- A watch entry of stream 5. -/
def watch : WatchEntry := { id := 5, serial := 1, seq := 100, absent := .b, cycle := 0, first := 0, deadline := 0 }

/-- A miss note of the same message. -/
def note : MissNote := { id := 5, serial := 1, seq := 100, absent := .b }

/-- An armed rule that drives output 1 at CI1 going ON. -/
def rule : LinkRule :=
  { linkRuleAtReset with state := .armed
                         copy := some { source := .contactOn 0, edge := true, action := .driveOutput 0, journal := true } }

/-- `running` with output 1 permitted, in LATCH mode. -/
def permitted (s : State) : State :=
  { s with settings := { s.settings with outputs := s.settings.outputs.set 0 { permitted := true, latch := true, width := 200 } } }

/-- A claim. -/
def claimed : JournalClaim := { kind := .started, subject := .part, time := 0, d1 := 0, d2 := 0, d3 := 0 }

/-- A journal with 128 outstanding entries, the claim `claimed` waiting. -/
def fullJournal : Journal := { journalAtReset with written := 128, claims := [claimed] }

/-- `s` with the interrupt enabled, in PULSE mode or in LEVEL mode. -/
def interrupting (pulse : Bool) (s : State) : State :=
  { s with settings := { s.settings with intEnable := true, intPulse := pulse } }

/-- The configuration of slot 0 with the test acceptance given. -/
def slotConfig (acceptance : TestAcceptance) : SlotConfig :=
  { acceptance := acceptance, offset := 0, length := 0, notify := .onEvery }

/-- A slot with a delivery in progress. -/
def delivering : SubSlot := { subSlotAtReset with inProgress := some delivery }

/-- An update of the engine that waits for the delivery. -/
def due : DueView := { view := viewAtReset, stale := true }

/-! ## Ill-formed commands (WellFormed) -/

theorem test_hostWrite_to_trigger : (Instr.hostWrite 0x0040 1).wellFormed = false ∧ (Instr.hostWrite 0x0042 1).wellFormed = false
    ∧ (Instr.hostWrite 0x020B 1).wellFormed = false ∧ (Instr.hostWrite 0x020C 1).wellFormed = false
    ∧ (Instr.hostWrite 0x1607 1).wellFormed = false ∧ (Instr.hostWrite 0x460B 1).wellFormed = false := by decide

theorem test_hostWrite_plain : (Instr.hostWrite 0x0043 1).wellFormed = true ∧ (Instr.hostWrite 0x020A 1).wellFormed = true := by
  decide

theorem test_unknownCommand_recognised : (Instr.unknownCommand 1).wellFormed = false
    ∧ (Instr.unknownCommand 8).wellFormed = false ∧ (Instr.unknownCommand 0).wellFormed = true
    ∧ (Instr.unknownCommand 9).wellFormed = true := by decide

theorem test_freshnessExpiry_identifier : (Instr.freshnessExpiry 0).wellFormed = false
    ∧ (Instr.freshnessExpiry 4096).wellFormed = false ∧ (Instr.freshnessExpiry 4095).wellFormed = true := by decide

theorem test_empty_frames : (Instr.laneFrameReceived .a []).wellFormed = false
    ∧ (Instr.bayFrameReceived 0 []).wellFormed = false := by decide

/-! ## The manual's own points -/

/-- No row of the table gives bits, so no word spells a command and the queue is left as it is. -/
theorem test_no_word_spells_a_command : decodeTableWord 16 0x1234 = none
    ∧ State.reset.withFetchWord 16 0x1234 = State.reset := ⟨rfl, rfl⟩

/-- R67's own points: H at 65,530 and s = 3; H at 4 and s = 65,534. -/
theorem test_window_wraps : (window.judgeSeq 3 .b).1 = .firstAhead
    ∧ ((Window.start 4 9 .a).judgeSeq 65534 .b).1 = .firstFilled
    ∧ (((Window.start 4 9 .a).judgeSeq 65534 .b).2.marks[6]) = .b := by decide +kernel

/-- R67's own points: 32,768 behind is LATE, 32,769 behind is AHEAD. -/
theorem test_window_far_behind : ((Window.start 40000 9 .a).judgeSeq 7232 .b).1 = .late
    ∧ ((Window.start 40000 9 .a).judgeSeq 7231 .b).1 = .firstAhead := by decide +kernel

/-- R140's own pattern: a burst from 2 ms under a heartbeat of 1,000 ms. -/
theorem test_burst_doubles : (PubSlot.advanced pubConfig (pubIn .burst 256)).interval = 512
    ∧ (PubSlot.advanced pubConfig (pubIn .burst 512)).interval = 1000
    ∧ (PubSlot.advanced pubConfig (pubIn .burst 512)).state = .steady := by decide +kernel

/-- R38: after bay port 4 the cycle begins at Lane A; after Lane A, at Lane B. -/
theorem test_cycle : (cycleAfter (.bay 3)).head? = some (.lane .a) ∧ (cycleAfter (.lane .a)).head? = some (.lane .b) := by
  decide

/-- R26: the FCS that closes a frame is the one its reader accepts, and one flipped bit is refused. -/
theorem test_fcs : frameGood (bayBytes record) = true
    ∧ frameGood ((bayBytes record).set 20 0xFF) = false := by decide +kernel

/-- R23, R26: the published check values of the two CRCs, over the digits 1 to 9. -/
theorem test_crc_check_values :
    let digits : List Byte := [0x31, 0x32, 0x33, 0x34, 0x35, 0x36, 0x37, 0x38, 0x39]
    fcs digits = [0x26, 0x39, 0xF4, 0xCB] ∧ trailerCheck digits = 0x29B1 := by decide +kernel

/-- R26: a frame of 63 bytes and one of 1,523 are too short and too long; 64 is enough. -/
theorem test_frame_lengths : frameGood (withFcs (padTo 59 message)) = false ∧ frameGood (withFcs (padTo 60 message)) = true
    ∧ frameGood (withFcs (padTo 1519 message)) = false := by decide +kernel

/-- R21: a header at its bounds is well-formed, and one past any of them is not. -/
theorem test_header_bounds :
    (∀ c ∈ [(14, [0x2F, 0xFF]), (14, [0xA0, 0x01]), (14, [0x10, 0x05]), (14, [0x40, 0x05]), (17, [0xEA, 0x60]), (20, [0, 3]),
        (20, [0, 0])],
      (readHeader (message.take c.1 ++ c.2 ++ message.drop (c.1 + 2))).isSome = true)
    ∧ (∀ c ∈ [(14, [0x20, 0x00]), (14, [0x00, 0x05]), (14, [0x50, 0x05]), (17, [0xEA, 0x61]), (20, [0, 4])],
      readHeader (message.take c.1 ++ c.2 ++ message.drop (c.1 + 2)) = none)
    ∧ (readHeader (message.take 20 ++ [0x01, 0xE0] ++ List.replicate 480 7)).isSome = true
    ∧ readHeader (message.take 20 ++ [0x01, 0xE0] ++ List.replicate 479 7) = none
    ∧ readHeader (message.take 20 ++ [0x01, 0xE1] ++ List.replicate 481 7) = none ∧ readHeader (message.take 21) = none := by
  decide +kernel

/-- R22, R23: the trailer a lane port adds is the one its reader takes off. -/
theorem test_trailer : trailerPasses (withoutFcs (laneBytes .a record)) = true
    ∧ trailerLane (withoutFcs (laneBytes .a record)) = laneCode .a
    ∧ trailerSeq (withoutFcs (laneBytes .a record)) = 100
    ∧ stripTrailer (withoutFcs (laneBytes .a record)) = arrival.frame
    ∧ readHeader arrival.frame = some arrival.header := by decide +kernel

/-- R169's own points: 128 behind the written number is taken, 129 behind and 1 ahead are not. -/
theorem test_journal_taken : (({ journalAtReset with written := 300, taken := 290 } : Journal).giveBack settingsAtReset 172).taken = 172
    ∧ (({ journalAtReset with written := 300, taken := 290 } : Journal).giveBack settingsAtReset 171).taken = 290
    ∧ (({ journalAtReset with written := 300, taken := 290 } : Journal).giveBack settingsAtReset 301).taken = 290 := by
  decide +kernel

/-- R15: START on the hardware-reset words stops at the station address. -/
theorem test_start_needs_a_station : badStart defaultMem = some 0x0044 ∧ badStart (wordsWith []) = none := by decide +kernel

/-- A word of `m` at both its bounds, which `check` accepts, and one past each, which it finds at `found`. -/
def bounded (check : List Host.Cell → Option Nat) (m : List Host.Cell) (a found lo hi : Nat) : Bool :=
  let at' (v : Nat) := check (writeWord m a (BitVec.ofNat 16 v))
  at' lo == none && at' hi == none && (lo == 0 || at' (lo - 1) == some found) && (hi == 0xFFFF || at' (hi + 1) == some found)

/-- Sections 1.9, 12.2 and 12.5: the settings at the bounds of their ranges. -/
theorem test_setting_bounds :
    ([(0x0043, 0x0600, 0xFFFF), (0x0047, 0x000A, 0x000B), (0x0048, 0, 255)].all
      (fun c => bounded badStart (wordsWith []) c.1 c.1 c.2.1 c.2.2)) = true
    ∧ ([(0x0049, 1, 200), (0x004A, 1, 15), (0x004B, 1, 64), (0x004C, 1, 60), (0x004D, 0, 255), (0x004E, 10, 3600), (0x004F, 0, 15),
        (0x0050, 1, 2), (0x0053, 64, 64), (0x0054, 0, 15), (0x0055, 0, 3), (0x0056, 0, 1), (0x4700, 1, 100), (0x4701, 2, 60),
        (0x4702, 1, 300), (0x4703, 0, 1), (0x471C, 1, 100), (0x471F, 0, 1), (0x4720, 0, 1), (0x4721, 0, 1), (0x4722, 10, 5000),
        (0x472E, 10, 5000)].all (fun c => bounded badApply (wordsWith []) c.1 c.1 c.2.1 c.2.2
          && bounded badStart (wordsWith []) c.1 c.1 c.2.1 c.2.2)) = true
    ∧ badApply (wordsWith [(0x472F, 0xFFFF)]) = none := by decide +kernel

/-- R114, section 12.4: the words of a subscription slot at the bounds of their ranges, and what is read from their codes. -/
theorem test_slot_bounds :
    ([(0, 1, 4095), (1, 0, 2), (2, 0, 2), (5, 0, 15), (5, 0x8000, 0x8000), (6, 1, 60000)].all
      (fun c => bounded (badSlot · 0) (wordsWith (slotWords 1)) (subBase 0 + c.1) c.1 c.2.1 c.2.2)) = true
    ∧ ([(3, 0, 255), (4, 1, 256)].all
      (fun c => bounded (badSlot · 0) (wordsWith ((0x1602, 1) :: (0x1604, 1) :: slotWords 1)) (subBase 0 + c.1) c.1 c.2.1 c.2.2)) = true
    ∧ badSlot (wordsWith ((0x1602, 1) :: (0x1603, 1) :: (0x1604, 256) :: slotWords 1)) 0 = some 4
    ∧ badSlot (wordsWith ((0x1603, 256) :: (0x1604, 257) :: slotWords 1)) 0 = none
    ∧ ([0, 1, 2].map (fun v => (readSlot (wordsWith [(0x1601, v), (0x1602, v), (0x1605, 0x8000)]) 0).config.acceptance))
        = [.normalOnly, .testOnly, .both]
    ∧ ([0, 1, 2].map (fun v => (readSlot (wordsWith [(0x1602, v)]) 0).config.notify)) = [.none, .onChange, .onEvery]
    ∧ (readSlot (wordsWith [(0x1605, 0x8000)]) 0).forward = .default ∧ (readSlot (wordsWith [(0x1605, 5)]) 0).forward = .explicit 5 := by
  decide +kernel

/-- R130, section 12.4: the words of a publication slot at the bounds of their ranges, the packed word's fields among them. -/
theorem test_publication_bounds :
    ([(0, 1, 4095), (2, 0, 255), (3, 1, 1000), (4, 10, 60000), (5, 0, 600), (6, 0, 15)].all
      (fun c => bounded (badPub · 0) (wordsWith pubWords) (pubBase 0 + c.1) c.1 c.2.1 c.2.2)) = true
    ∧ ([0x0001, 0x0004, 0x0011, 0x0101, 0x0114].all (fun v => badPub (wordsWith (pubWords ++ [(0x0201, v)])) 0 == none)) = true
    ∧ ([0x0000, 0x0005, 0x0009, 0x0021, 0x0081, 0x0201, 0x8001].all
        (fun v => badPub (wordsWith (pubWords ++ [(0x0201, v)])) 0 == some 1)) = true
    ∧ badPub (wordsWith (pubWords ++ [(0x0203, 20), (0x0204, 20)])) 0 = none
    ∧ badPub (wordsWith (pubWords ++ [(0x0203, 20), (0x0204, 19)])) 0 = some 4
    ∧ ([1, 2, 3, 4].map (fun v => (readPub (wordsWith [(0x0201, v)]) 0).cls)) = [.trip, .status, .sample, .service] := by
  decide +kernel

/-- R15: a word read before a write to it counts as it stood, and one read after counts as written. -/
theorem test_start_reads_once :
    readWord ((({ starting [.read 0x0049, .read 0x004A] [] with mem := wordsWith [(0x0049, 60)] } |> workOnce
        |> fun s => { s with mem := writeWord (writeWord s.mem 0x0049 70) 0x004A 7 } |> workOnce).working.map (fun w =>
          match w.finish with | .starting _ read => read | _ => [])).getD []) 0x0049 = 60
      ∧ readWord ((({ starting [.read 0x0049, .read 0x004A] [] with mem := wordsWith [(0x0049, 60)] } |> workOnce
        |> fun s => { s with mem := writeWord (writeWord s.mem 0x0049 70) 0x004A 7 } |> workOnce).working.map (fun w =>
          match w.finish with | .starting _ read => read | _ => [])).getD []) 0x004A = 7 := by decide +kernel

/-- R15: a START that finds a word out of range takes nothing; one that finds none takes the words it has read. -/
theorem test_start_takes_what_it_read :
    ((workOnce (starting [.settings] (wordsWith [(0x0049, 201)]))).working.map (fun w => (w.code, w.detail)))
        = some (.badSetting, 0x0049)
      ∧ (workOnce (starting [.settings] (wordsWith [(0x0049, 60)]))).settings.twinWait = 60 := by decide +kernel

/-- R15: START with nothing left completes into RUNNING; with its last piece left it makes that first. -/
theorem test_start_completes :
    (completeCommand (starting [] [])).partState = .running
      ∧ ((completeCommand (starting [.started] [])).journal.claims.map (·.kind)) = [.started] := by decide +kernel

/-- R15: an arm word written in CONFIG is held only behind the visit of its record. -/
theorem test_held_arms :
    (hostWrite (subBase 0 + 7) 1 (starting [.visit (.subscription 0), .lanes] [])).heldArms = []
      ∧ (hostWrite (subBase 0 + 7) 1 (starting [.lanes] [])).heldArms = [.subscription 0]
      ∧ (hostWrite (subBase 0 + 7) 1 config).heldArms = [] := by decide +kernel

/-- R26: a reception that a link loss cuts on a HELD lane is a frame error. -/
theorem test_cut_on_a_held_lane :
    (laneDown .a true (withLaneA .held true running)).laneA.group.frameErrors = 1 := by decide +kernel

/-- R26: a reception that a link loss cuts at a bay port is a frame error before RUNNING too. -/
theorem test_cut_on_a_bay_port_in_config :
    (bayDown 0 true { config with bayGroup :=
        { edition := 0, ports := config.bayGroup.ports.set 0 { bayBlockAtReset with link := true } } }).bayGroup.ports[0].frameErrors
      = 1 := by decide +kernel

/-- R169's own order: on a full journal a claim that waits before the write of T is lost, and the write then frees the room; with no
claim before it the write acts at once. -/
theorem test_a_taken_write_waits_its_turn :
    ((fullJournal.handWrite settingsAtReset 100).taken, (fullJournal.handWrite settingsAtReset 100).writes)
        = (0, [{ value := 100, behind := 1 }])
      ∧ ((fullJournal.handWrite settingsAtReset 100).takeHead settingsAtReset 7 claimed []).lost = 1
      ∧ ((fullJournal.handWrite settingsAtReset 100).takeHead settingsAtReset 7 claimed []).taken = 100
      ∧ ((fullJournal.handWrite settingsAtReset 100).takeHead settingsAtReset 7 claimed []).writes = []
      ∧ (({ fullJournal with claims := [] } : Journal).handWrite settingsAtReset 100).taken = 100 := by decide +kernel

/-- R171: with the interrupt in force in LEVEL mode, an entry written in CONFIG leaves INT inactive; INT is asserted as RUNNING begins. In
PULSE mode the entry gives no pulse then. -/
theorem test_int_waits_for_running :
    let journal := (claim claimed config).journal.takeHead (interrupting false config).lineSettings 7 claimed []
    (journal.written, journal.int) = (1, false)
      ∧ (enterRunning (interrupting false { config with journal := journal })).journal.int = true
      ∧ (enterRunning (interrupting true { config with journal := journal })).journal.int = false
      ∧ (workOnce (starting [.settings] (wordsWith [(0x0055, 1), (0x0056, 0)]))).journal.int = false := by decide +kernel

/-- R161: a DRIVE claim is acted on in RUNNING alone. -/
theorem test_no_drive_outside_running :
    (driveOutput 0 (.rule 0) (permitted running)).outputs[0].driven = true
      ∧ (driveOutput 0 (.rule 0) (permitted config)).outputs[0].driven = false := by decide +kernel

/-! ## What the statements' hypotheses are met by -/

theorem witness_StepTakesTheFrontCommand :
    ({ config with pending := [.start, .apply] } : State).pending = .start :: [.apply] ∧ config.pending = []
      ∧ config.startLeft = none ∧ (starting [.started] []).pending = [] ∧ (starting [.started] []).startLeft = some [.started] := by
  decide +kernel

theorem witness_ResetsStartOver :
    config.partState ≠ .initialising ∧ config.working = none ∧ State.reset.partState = .initialising
      ∧ State.reset.softReset = false := by decide +kernel

theorem witness_HostWriteStoresWord :
    Memory.wf config.mem ∧ config.partState ≠ .initialising ∧ config.sideNow (0x0043#15).toNat = .host
      ∧ Addr.isTrigger 0x0043 = false ∧ config.take = none := by decide +kernel

/-- One journal entry, one position that holds none, and a part in RUNNING with one stream. -/
def readable : State :=
  { withEntry remoteEntry running with
    journal := { journalAtReset with ring := journalAtReset.ring.set 1 (some { number := 1, claim := claimed }) } }

theorem witness_HostWriteStoresWord_reads :
    readable.partState ≠ .initialising ∧ readable.table[1] = some remoteEntry ∧ readable.table[0] = none
      ∧ readable.journal.ring[0] = none ∧ readable.journal.ring[1] = some { number := 1, claim := claimed }
      ∧ remoteEntry.origin = .remote ∧ (0x0040 ≤ (0x0040#15).toNat ∧ (0x00FF#15).toNat ≤ 0x00FF)
      ∧ (0x028C#15).toNat = 0x0200 + 160 * (0 : Fin 32).val + 140 ∧ (0x41FF#15).toNat = 0x1600 + 176 * (63 : Fin 64).val + 175
      ∧ (0x460B#15).toNat = 0x4600 + 16 * (0 : Fin 16).val + 11 ∧ 0x6800 ≤ (0x6800#15).toNat := by decide +kernel

/-- R10, R174, chapter 12: some words as the host reads them, at the edges of their regions. -/
theorem test_host_reads :
    hostRead readable 0x0000 = 0x0240 ∧ hostRead readable 0x001E = 16 ∧ hostRead readable 0x001F = 0
      ∧ hostRead readable 0x0100 = 2 ∧ hostRead (starting [] []) 0x0100 = 0x0101 ∧ hostRead readable 0x4209 = 1
      ∧ hostRead readable 0x420A = 0x9000 ∧ hostRead readable 0x4811 = 5 ∧ hostRead readable 0x4812 = 0x4000
      ∧ hostRead readable 0x481D = 0xFFFF ∧ hostRead readable 0x4800 = 0 ∧ hostRead readable 0x41FF = 0
      ∧ hostRead { readable with mem := defaultMem } 0x0043 = 0x7A51 := by decide +kernel

theorem witness_HostWriteRefused :
    config.partState ≠ .initialising ∧ config.sideNow (0x0000#15).toNat ≠ .host ∧ config.sideNow (0x7FFF#15).toNat = .nobody
      ∧ ({ config with working := some { echo := 1, code := .done, detail := 0, finish := .nothing } } : State).sideNow
          (0x0040#15).toNat ≠ .host
      ∧ config.counters.refused = 0 ∧ config.working = none
      ∧ (starting [] []).partState ≠ .initialising ∧ (starting [] []).working.isSome = true := by decide +kernel

/-- The words at the edges of the regions of section 1.2, by the offset of each record's words, and whose they are. -/
theorem witness_HostWriteRefused_map :
    config.partState ≠ .initialising ∧ config.working = none ∧ (0x0042#15 ≠ 0x0040 ∧ 0x0042#15 ≠ 0x0041)
      ∧ (∀ a ∈ [0x0040, 0x00FF, 0x0200, 0x028C, 0x15EC, 0x1600, 0x160F, 0x415F, 0x4600, 0x46FB, 0x4700, 0x472F],
          config.sideNow a = .host)
      ∧ (∀ a ∈ [0x0000, 0x003F, 0x0100, 0x01FF, 0x028D, 0x029F, 0x15FF, 0x1610, 0x16A7, 0x41F7, 0x4200, 0x45FF, 0x460C, 0x46FF,
          0x4800, 0x67FF], config.sideNow a = .part)
      ∧ (∀ a ∈ [0x16A8, 0x16AF, 0x41F8, 0x41FF, 0x4730, 0x47FF, 0x6800, 0x7FFF], config.sideNow a = .nobody)
      ∧ (starting [] []).sideNow 0x0040 = .part ∧ (starting [] []).sideNow 0x0041 = .part
      ∧ (starting [] []).sideNow 0x0042 = .host := by decide +kernel

theorem witness_InitialisingIsDeafToTheHost :
    State.reset.partState = .initialising ∧ config.partState ≠ .initialising ∧ config.working = none := by decide +kernel

theorem witness_StartReadsThenTakes :
    config.partState = .config ∧ config.working = none
      ∧ (starting [.read 0x0043, .settings] []).working
          = some { echo := 1, code := .done, detail := 0, finish := .starting [.read 0x0043, .settings] [] }
      ∧ (starting [.settings] (wordsWith [])).working
          = some { echo := 1, code := .done, detail := 0, finish := .starting [.settings] (wordsWith []) }
      ∧ badStart (wordsWith []) = none ∧ badStart (wordsWith [(0x0056, 2)]) = some 0x0056
      ∧ (starting [.settings] (wordsWith [])).partState = .config
      ∧ badStart (wordsWith [(0x4700, 0)]) = some 0x4700 ∧ (starting [] []).partState = .config
      ∧ config.startLeft = none ∧ (starting [.visit (.rule 15)] []).startLeft = some [.visit (.rule 15)]
      ∧ .visit (.rule 15) ∈ [StartPiece.visit (.rule 15)] ∧ .visit (.rule 0) ∉ [StartPiece.visit (.rule 15)] := by decide +kernel

theorem witness_StartArmsThenReleases :
    (starting [.visit (.rule 0), .started] []).working
        = some { echo := 1, code := .done, detail := 0, finish := .starting [.visit (.rule 0), .started] [] }
      ∧ (starting [] []).partState = .config ∧ Memory.wf (starting [] []).mem ∧ config.ageingDue = [] ∧ config.postTrip = []
      ∧ config.postOther = []
      ∧ readWord (wordsWith [(0x460B, 1), (0x4600, 1), (0x4601, 1), (0x4608, 1), (0x4609, 1)]) (ruleBase 0 + 11) = 1
      ∧ badRule (wordsWith [(0x460B, 1), (0x4600, 1), (0x4601, 1), (0x4608, 1), (0x4609, 1)]) 0 = none
      ∧ readWord (wordsWith []) (ruleBase 15 + 11) = 0 ∧ config.rules[15].state = .disarmed
      ∧ readWord (wordsWith [(0x460B, 2)]) (ruleBase 0 + 11) = 2
      ∧ config.pubs[0].state = .disarmed ∧ config.lookup 5 = none ∧ config.freePosition = some 0
      ∧ readWord (wordsWith ((0x020C, 1) :: pubWords)) (pubBase 0 + 12) = 1
      ∧ badPub (wordsWith ((0x020C, 1) :: pubWords)) 0 = none
      ∧ readWord (wordsWith ((0x020C, 1) :: pubWords)) (pubBase 0) = 5
      ∧ readWord (wordsWith []) (pubBase 31 + 12) = 0 ∧ readWord (wordsWith [(0x020C, 2)]) (pubBase 0 + 12) = 2
      ∧ config.subs[0].state = .disarmed ∧ config.subs[0].inProgress = none ∧ config.subs[0].status.mismatch = false
      ∧ readWord (wordsWith (slotWords 1)) (subBase 0 + 7) = 1 ∧ badSlot (wordsWith (slotWords 1)) 0 = none
      ∧ readWord (wordsWith (slotWords 1)) (subBase 0) = 5
      ∧ readWord (wordsWith []) (subBase 63 + 7) = 0 ∧ readWord (wordsWith (slotWords 2)) (subBase 0 + 7) = 2
      ∧ readWord (wordsWith [(0x460B, 1)]) (ruleBase 0 + 11) = 1 ∧ badRule (wordsWith [(0x460B, 1)]) 0 = some 0
      ∧ readWord (wordsWith [(0x020C, 1)]) (pubBase 0 + 12) = 1 ∧ badPub (wordsWith [(0x020C, 1)]) 0 = some 0
      ∧ ((withEntry remoteEntry config).lookup 5).isSome = true
      ∧ readWord (wordsWith [(0x1607, 1)]) (subBase 0 + 7) = 1 ∧ badSlot (wordsWith [(0x1607, 1)]) 0 = some 0
      ∧ (withEntry { remoteEntry with origin := .localHost 3 } config).lookup 5
          = some (1, { remoteEntry with origin := .localHost 3 })
      ∧ (withEntry { remoteEntry with slot := some 9 } config).lookup 5 = some (1, { remoteEntry with slot := some 9 })
      ∧ (∀ l, (config.lane l).group.state = .held) ∧ ((withLaneA .held true config).lane .a).group.link = true
      ∧ (config.lane .a).group.link = false := by
  and_intros
  all_goals first | decide +kernel | (intro l; cases l <;> decide +kernel)

theorem witness_StartEndsInRunning :
    (starting [] []).partState = .config ∧ config.working = none ∧ config.heldArms = [] ∧ Memory.wf (starting [] []).mem
      ∧ (∀ l, (config.lane l).group.state = .held) ∧ (∀ k : Fin 64, config.subs[k].status.mismatch = false)
      ∧ (∀ n : Fin 4, config.outputs[n].driven = false) ∧ config.postTrip = [] ∧ config.postOther = []
      ∧ badStart (writeWord (wordsWith []) commandWord 1) = none
      ∧ badStart (writeWord defaultMem commandWord 1) = some 0x0044 := by
  refine ⟨?_, ?_, ?_, ?_, fun l => ?_, ?_, ?_, ?_, ?_, ?_, ?_⟩
  case refine_5 => cases l <;> decide +kernel
  all_goals decide +kernel

theorem witness_CompletionWritesTheResult :
    (starting [.lanes, .started] []).working
        = some { echo := 1, code := .done, detail := 0, finish := .starting [.lanes, .started] [] }
      ∧ (starting [] []).working = some { echo := 1, code := .done, detail := 0, finish := .starting [] [] }
      ∧ ({ running with working := some { echo := 2, code := .done, detail := 0, finish := .takeSettings settingsAtReset } }
          : State).working = some { echo := 2, code := .done, detail := 0, finish := .takeSettings settingsAtReset }
      ∧ ({ running with working := some { echo := 9, code := .unknown, detail := 0, finish := .nothing } } : State).working
          = some { echo := 9, code := .unknown, detail := 0, finish := .nothing }
      ∧ running.partState = .running := by decide +kernel

theorem witness_CommandsThatFailTheirChecks :
    config.working = none ∧ config.partState = .config ∧ running.partState = .running ∧ running.working = none
      ∧ laneOf (readWord running.mem argumentWord) = none ∧ outputOf (readWord running.mem argumentWord) = none
      ∧ outputOf (readWord (wordsWith [(argumentWord, 5)]) argumentWord) = none
      ∧ (Instr.unknownCommand 9).wellFormed = true ∧ (Instr.unknownCommand 0).wellFormed = true
      ∧ running.partState ≠ .initialising ∧ config.partState ≠ .initialising
      ∧ startOnlyDiffers (writeWord (wordsWith []) commandWord 2) (readSettings (wordsWith [])) = none
      ∧ badApply (writeWord (wordsWith []) commandWord 2) = none
      ∧ badApply (writeWord (wordsWith [(0x0049, 201)]) commandWord 2) = some 0x0049
      ∧ startOnlyDiffers (writeWord (wordsWith [(0x0048, 1)]) commandWord 2) (readSettings (wordsWith [])) = some 0x0048 := by
  decide +kernel

/-- Section 12.2: what is read from the two lane codes of the preferred lane, and what a START-only word that has changed is found at. -/
theorem witness_CommandsThatFailTheirChecks_settings :
    (readSettings (wordsWith [(0x0047, 0x000A)])).bareLane = .a ∧ (readSettings (wordsWith [(0x0047, 0x000B)])).bareLane = .b
      ∧ startOnlyDiffers (wordsWith []) (readSettings (wordsWith [])) = none
      ∧ ([(0x0043, 0x7A52), (0x0044, 0), (0x0045, 1), (0x0046, 1), (0x0047, 0x000B), (0x0048, 1)].all (fun (c : Nat × Word) =>
          startOnlyDiffers (wordsWith [c]) (readSettings (wordsWith [])) == some c.1)) = true := by decide +kernel

theorem witness_ClearCountsClearsTheCounts :
    config.partState ≠ .initialising ∧ config.working = none ∧ config.ageingDue = [] := by decide +kernel

theorem witness_LaneCommandsMoveTheLane :
    (runningWith [(argumentWord, 0x000A)]).partState = .running ∧ (runningWith [(argumentWord, 0x000A)]).working = none
      ∧ laneOf (readWord (runningWith [(argumentWord, 0x000A)]).mem argumentWord) = some .a
      ∧ ((runningWith [(argumentWord, 0x000A)]).lane .a).group.state = .held
      ∧ ((withLaneA .held true running).lane .a).group.link = true
      ∧ ((withLaneA .healthy true running).lane .a).group.state ≠ .held := by decide +kernel

/-- R14. The arguments beside those that name a lane, or an output, name none. -/
theorem test_arguments :
    [(0x0009 : Word), 0x000A, 0x000B, 0x000C].map laneOf = [none, some .a, some .b, none]
      ∧ [(0 : Word), 1, 2, 3, 4, 5, 0x0101].map outputOf = [none, some 0, some 1, some 2, some 3, none, none] := by
  decide +kernel

/-- What a change of lane state tells, as the statement names it. -/
theorem witness_LaneCommandsMoveTheLane_announced (s : State) (l : Lane) :
    ∃ announced : State → LaneState → LaneState → LaneCause → Prop, ∀ t old new cause, announced t old new cause ↔
      t.redundancy = redundancyOf t.laneA.group.state t.laneB.group.state
      ∧ t.journal.claims = s.journal.claims
          ++ [{ kind := .laneVerdict, subject := .lane l, time := s.clock
                d1 := (laneStateCode old <<< 8) ||| laneStateCode new, d2 := (s.lane l).group.lone, d3 := laneCauseCode cause }]
          ++ (if t.redundancy = s.redundancy then [] else
              [{ kind := .redundancy, subject := .lane l, time := s.clock, d1 := redundancyCode s.redundancy
                 d2 := redundancyCode t.redundancy, d3 := 0 }])
      ∧ t.events = s.events ++ [.lane l new] ++ (if t.redundancy = s.redundancy then [] else [.redundancy t.redundancy]) :=
  ⟨_, fun _ _ _ _ => Iff.rfl⟩

theorem witness_OutputsAreDrivenAndReleased :
    (runningWith [(argumentWord, 1)]).partState = .running ∧ (runningWith [(argumentWord, 1)]).working = none
      ∧ outputOf (readWord (runningWith [(argumentWord, 1)]).mem argumentWord) = some 0
      ∧ outputOf (readWord (runningWith [(argumentWord, 4)]).mem argumentWord) = some 3
      ∧ (runningWith [(argumentWord, 1)]).settings.outputs[0].permitted = false
      ∧ (permitted running).settings.outputs[0].permitted = true
      ∧ ({ running with outputs := running.outputs.set 0 { driven := true, pulseEnds := some 0 } } : State).outputs[0]
          = { driven := true, pulseEnds := some 0 } ∧ reached running.clock 0 = true := by decide +kernel

theorem witness_JournalTakenGivesBack :
    config.partState ≠ .initialising ∧ (config.journal.written - 0xFF80).toNat ≤ 128
      ∧ ¬ (config.journal.written - 0xFF7F).toNat ≤ 128 ∧ config.journal.claims = []
      ∧ ({ config with journal := fullJournal } : State).journal.claims = claimed :: []
      ∧ ({ config with journal := fullJournal } : State).partState ≠ .initialising
      ∧ ({ value := 0, behind := 1 } : WaitingWrite).behind ≤ 1 ∧ 1 < ({ value := 0, behind := 2 } : WaitingWrite).behind := by
  decide +kernel

/-- The giving back that the last clause names. -/
theorem witness_JournalTakenGivesBack_give (s : State) : ∃ give : Journal → Word → Journal, ∀ j v,
    give j v = if (j.written - v).toNat ≤ 128 then
        { j with
          taken := v
          int := if s.partState = .running ∧ s.settings.intEnable = true ∧ s.settings.intPulse = false then
              decide (j.written ≠ v) else j.int }
      else j := ⟨_, fun _ _ => rfl⟩

theorem witness_SubscriptionArmHoldsAnEntry :
    Memory.wf (runningWith (slotWords 0)).mem ∧ (runningWith (slotWords 0)).partState = .running
      ∧ running.subs[0].state ≠ .armed ∧ running.subs[0].inProgress = none
      ∧ running.slotEntry 0 = none ∧ running.ageingDue = []
      ∧ badSlot (writeWord (runningWith (slotWords 0)).mem (subBase 0 + 7) 1) 0 = none
      ∧ (readSlot (writeWord (runningWith (slotWords 0)).mem (subBase 0 + 7) 1) 0).id = 5
      ∧ readWord (writeWord (runningWith (slotWords 0)).mem (subBase 0 + 7) 1) (subBase 0) = 5
      ∧ running.lookup 5 = none ∧ running.freePosition = some 0
      ∧ (withEntry remoteEntry running).lookup 5 = some (1, remoteEntry) ∧ remoteEntry.origin.isHost = false
      ∧ remoteEntry.slot = none ∧ (withEntry remoteEntry running).slotEntry 0 = none := by decide +kernel

/-- An AWAITING entry of stream 5 that slot 0 holds. -/
def awaited : Entry := { remoteEntry with configured := true, slot := some 0, fresh := some .awaiting, lastAccept := none }

/-- `runningWith (slotWords 1)` with slot 0 armed, holding `e`. -/
def holding (e : Entry) : State := withEntry e (withSub { subSlotAtReset with state := .armed } (runningWith (slotWords 1)))

/-- Slot 0 armed for the stream it asks for or for another one, the entry it holds with or without an acceptance. -/
theorem witness_SubscriptionArmHoldsAnEntry_again :
    (∀ e ∈ [awaited, { awaited with lastAccept := some 0 }, { awaited with id := 7 },
        { awaited with id := 7, lastAccept := some 0 }],
      (holding e).subs[0].state = .armed ∧ (holding e).ageingDue = [] ∧ (holding e).table[1] = some e
        ∧ e.slot = some 0 ∧ e.origin = .remote ∧ e.origin.isHost = false
        ∧ badSlot (writeWord (holding e).mem (subBase 0 + 7) 1) 0 = none
        ∧ (e.id = readWord (writeWord (holding e).mem (subBase 0 + 7) 1) (subBase 0) ↔ e.id = 5)) := by
  decide +kernel

theorem witness_SubscriptionArmHoldsAnEntry_sound :
    (∀ e, e.slot = some 0 → e.origin = .remote → TableSound (holding e))
      ∧ TableSound (withEntry remoteEntry (runningWith (slotWords 0)))
      ∧ ∀ (p : Fin 512) (e : Entry), (withEntry remoteEntry (runningWith (slotWords 0))).table[p] = some e →
        e.slot ≠ some 0 := by
  refine ⟨fun e h h' => ?_, ?_, fun p e h => ?_⟩
  · exact tableSound_withEntry _ _ rfl (fun k hk => by rw [h] at hk; cases hk; decide +kernel)
      (fun k hk => by rw [h'] at hk; cases hk)
  · exact tableSound_withEntry _ _ rfl (fun k h => by cases h) (fun k h => by cases h)
  · obtain ⟨-, rfl⟩ := table_withEntry _ _ p _ rfl h
    decide

/-- R118, R125: a re-arm to another stream behind a delivery drops the waiting copy; the stale rise that waited counts in the
delivery's update, and the arm, which comes after it, zeroes the count. A disarm in its place leaves the count. -/
theorem test_outcomes_behind_a_delivery :
    let busy := { delivering with state := .armed, config := some (slotConfig .both), waiting := some copy, viewsDue := [due] }
    let s := withSub busy (holding { awaited with id := 7, lastAccept := some 0 })
    let rearmed := takeSubscription 0 s
    let disarmed := takeSubscription 0 { s with mem := wordsWith (slotWords 0) }
    let after := (completeDelivery 0 delivery rearmed).subs[0]
    let left := (completeDelivery 0 delivery disarmed).subs[0]
    (rearmed.table[0].map (·.id), rearmed.table[1].map (·.configured)) = (some 5, some false)
      ∧ (rearmed.subs[0].outcomes.length, rearmed.subs[0].waiting, rearmed.subs[0].staleDue) = (1, none, 1)
      ∧ rearmed.subs[0].status = busy.status
      ∧ (after.status.state, after.status.edition, after.status.stale, after.status.deliveries) = (.armed, 3, 0, 0)
      ∧ (left.status.state, left.status.edition, left.status.stale, left.status.deliveries) = (.disarmed, 3, 1, 1) := by
  decide +kernel

/-- R43: the removal of an entry and the making of another at its position are two updates, whatever their serials. -/
theorem test_removal_and_making_are_two_updates :
    (asEngineClaim (fun s => makeEntry 1 remoteEntry (removeEntry 1 s)) (withEntry remoteEntry running)).table[1]
        = some remoteEntry
      ∧ (asEngineClaim (fun s => makeEntry 1 remoteEntry (removeEntry 1 s)) (withEntry remoteEntry running)).imageCounts[1]
        = 2 := by decide +kernel

theorem witness_SubscriptionArmRefusesOrDisarms :
    Memory.wf running.mem ∧ running.subs[0].inProgress = none ∧ running.ageingDue = []
      ∧ running.subs[0].state ≠ .armed ∧ badSlot (writeWord running.mem (subBase 0 + 7) 1) 0 = some 0
      ∧ badSlot (writeWord (runningWith (slotWords 0)).mem (subBase 0 + 7) 1) 0 = none
      ∧ (withEntry { remoteEntry with origin := .localHost 3 } running).lookup 5
          = some (1, { remoteEntry with origin := .localHost 3 })
      ∧ (withEntry { remoteEntry with slot := some 9 } running).lookup 5 = some (1, { remoteEntry with slot := some 9 })
      ∧ (withEntry { remoteEntry with slot := some 0 } running).slotEntry 0 = some 1
      ∧ (withSub { subSlotAtReset with state := .armed } running).subs[0].state = .armed
      ∧ (withSub { subSlotAtReset with state := .refused } running).subs[0].state ≠ .disarmed
      ∧ running.subs[0].state = .disarmed ∧ (withSub delivering running).subs[0].inProgress = some delivery := by
  decide +kernel

/-- R115: an ARMED slot is detached before it is refused (a bad field, or a stream another slot holds, or a bad arm word), and an
ARM-REFUSED one is disarmed. -/
theorem test_an_armed_slot_refused :
    let s := holding { awaited with id := 7, lastAccept := some 0 }
    let other := s.putEntry 2 (some { remoteEntry with slot := some 9, configured := true })
    ((takeSubscription 0 { s with mem := wordsWith [(0x1607, 1)] }).subs[0].status.reason,
        (takeSubscription 0 other).subs[0].status.reason,
        (takeSubscription 0 { s with mem := wordsWith (slotWords 2) }).subs[0].status.reason)
        = (.badSetting, .duplicate, .badArmCode)
      ∧ ((takeSubscription 0 other).table[1].map (·.slot), (takeSubscription 0 other).subs[0].state) = (some none, .refused)
      ∧ (takeSubscription 0 (withSub { subSlotAtReset with state := .refused } running)).subs[0].state = .disarmed := by
  decide +kernel

/-- Rule 0: CONTACT-ON of CI1 drives output 1. -/
def ruleWords : List (Nat × Word) := [(0x4600, 1), (0x4601, 1), (0x4608, 1), (0x4609, 1)]

/-- R162, section 12.5: the words of a link rule at the bounds of their ranges, word 1, 2 and 9 by source and action. -/
theorem test_rule_bounds :
    ([(0, 1, 6), (7, 0, 1), (8, 1, 4), (10, 0, 1), (1, 1, 8), (9, 1, 4)].all
      (fun c => bounded (badRule · 0) (wordsWith ruleWords) (ruleBase 0 + c.1) c.1 c.2.1 c.2.2)) = true
    ∧ ([(2, 1, 1, 8), (3, 1, 1, 4095), (3, 2, 0, 252), (4, 1, 1, 4095), (6, 1, 0, 1)].all
      (fun c => bounded (badRule · 0) (wordsWith (ruleWords ++ [(0x4600, c.1)])) (ruleBase 0 + c.2.1) c.2.1 c.2.2.1 c.2.2.2)) = true
    ∧ bounded (badRule · 0) (wordsWith (ruleWords ++ [(0x4600, 5)])) (ruleBase 0 + 1) 1 0x000A 0x000B = true
    ∧ bounded (badRule · 0) (wordsWith (ruleWords ++ [(0x4600, 5), (0x4601, 0x000A)])) (ruleBase 0 + 2) 2 0 5 = true
    ∧ bounded (badRule · 0) (wordsWith (ruleWords ++ [(0x4608, 2)])) (ruleBase 0 + 9) 9 1 4 = true
    ∧ bounded (badRule · 0) (wordsWith (ruleWords ++ [(0x4608, 3)])) (ruleBase 0 + 9) 9 0 31 = true
    ∧ badRule (wordsWith (ruleWords ++ [(0x4608, 4), (0x4609, 99)])) 0 = none := by decide +kernel

/-- Section 12.5: what is read from each source and action code, the numbers at their bounds. -/
theorem witness_LinkRuleArmOutcomes_fields :
    (readRule (wordsWith [(0x4600, 1), (0x4601, 8)]) 0).source = .contactOn 7
    ∧ (readRule (wordsWith [(0x4600, 2), (0x4601, 1)]) 0).source = .contactOff 0
    ∧ (readRule (wordsWith [(0x4600, 3), (0x4601, 5), (0x4602, 252), (0x4603, 0x0102), (0x4604, 0x0304), (0x4605, 0x0506),
        (0x4606, 0x0708)]) 0).source = .streamMatch 5 252 [1, 2, 3, 4] [5, 6, 7, 8]
    ∧ (readRule (wordsWith [(0x4600, 4), (0x4601, 5)]) 0).source = .streamStale 5
    ∧ (readRule (wordsWith [(0x4600, 5), (0x4601, 0x000B), (0x4602, 5)]) 0).source = .lane .b .degraded
    ∧ (readRule (wordsWith [(0x4600, 5), (0x4601, 0x000A), (0x4602, 0)]) 0).source = .lane .a .held
    ∧ (readRule (wordsWith [(0x4600, 6), (0x4601, 0)]) 0).source = .redundancy .none
    ∧ (readRule (wordsWith [(0x4600, 6), (0x4601, 1)]) 0).source = .redundancy .single
    ∧ (readRule (wordsWith [(0x4608, 1), (0x4609, 4)]) 0).action = .driveOutput 3
    ∧ (readRule (wordsWith [(0x4608, 2), (0x4609, 1)]) 0).action = .releaseOutput 0
    ∧ (readRule (wordsWith [(0x4608, 3), (0x4609, 31)]) 0).action = .post 31
    ∧ (readRule (wordsWith [(0x4608, 4)]) 0).action = .journalOnly := by decide +kernel

theorem witness_PublicationArmOutcomes :
    Memory.wf (runningWith pubWords).mem ∧ running.partState = .running ∧ running.postTrip = [] ∧ running.postOther = []
      ∧ running.ageingDue = [] ∧ running.pubs[0].state.armed = false
      ∧ badPub (writeWord (runningWith pubWords).mem (pubBase 0 + 12) 1) 0 = none
      ∧ readWord (writeWord (runningWith pubWords).mem (pubBase 0 + 12) 1) (pubBase 0) = 5
      ∧ running.lookup 5 = none ∧ running.freePosition = some 0
      ∧ badPub (writeWord running.mem (pubBase 0 + 12) 1) 0 = some 0
      ∧ (withPub (pubIn .steady 1000) running).pubs[0].state.armed = true ∧ running.take = none
      ∧ (withEntry remoteEntry running).pubs[0].state.armed = false
      ∧ ((withEntry remoteEntry running).lookup
          (readWord (writeWord (runningWith pubWords).mem (pubBase 0 + 12) 1) (pubBase 0))).isSome = true
      ∧ (2 : Word) ≠ 0 ∧ (2 : Word) ≠ 1 ∧ running.pubs[0].state = .disarmed
      ∧ (withPub (pubIn .refused 0) running).pubs[0].state = .refused
      ∧ (withPub (pubIn .refused 0) running).pubs[0].state.armed = false := by decide +kernel

/-- `runningWith pubWords` with publication slot 0 in STEADY and its entry at position 1. -/
def publishing : State :=
  withEntry { remoteEntry with origin := .localHost 0, configured := true }
    (withPub (pubIn .steady 1000) (runningWith pubWords))

theorem witness_PublicationArmOutcomes_again :
    publishing.pubs[0].state.armed = true ∧ publishing.take = none ∧ publishing.postTrip = [] ∧ publishing.postOther = []
      ∧ badPub (writeWord publishing.mem (pubBase 0 + 12) 1) 0 = none
      ∧ publishing.table[1] = some { remoteEntry with origin := .localHost 0, configured := true }
      ∧ remoteEntry.id = readWord (writeWord publishing.mem (pubBase 0 + 12) 1) (pubBase 0) := by decide +kernel

theorem witness_PublicationArmOutcomes_sound : TableSound publishing :=
  tableSound_withEntry _ _ rfl (fun k h => by cases h) (fun k h => by cases h; decide +kernel)

/-- An armed slot: its re-arm refused, for a bad field and for another's stream; its take in progress; armed for another stream. -/
theorem witness_PublicationArmOutcomes_armed :
    badPub (writeWord ({ publishing with mem := [] } : State).mem (pubBase 0 + 12) 1) 0 = some 0
      ∧ (publishing.putEntry 2 (some { remoteEntry with id := 7 })).table[2] = some { remoteEntry with id := 7 }
      ∧ remoteEntry.origin ≠ .localHost 0
      ∧ readWord (writeWord (wordsWith (pubWords ++ [(0x0200, 7)])) (pubBase 0 + 12) 1) (pubBase 0) = 7
      ∧ badPub (writeWord (wordsWith (pubWords ++ [(0x0200, 7)])) (pubBase 0 + 12) 1) 0 = none
      ∧ publishing.lookup 7 = none
      ∧ ({ publishing with take := some { slot := 0, poster := .host, edition := 1, staged := [] } } : State).take
          = some { slot := 0, poster := .host, edition := 1, staged := [] } := by decide +kernel

/-- Slots behind one that is armed: none left once it is out, or slot 2 first, with or without a take of another slot. -/
theorem witness_PublicationArmOutcomes_posts :
    [({ slot := 0, poster := .host } : Post)].filter (fun p => p.slot != 0) = []
      ∧ [({ slot := 0, poster := .host } : Post), { slot := 2, poster := .host }].filter (fun p => p.slot != 0)
          = { slot := 2, poster := .host } :: []
      ∧ (∃ r, exec (.publicationArm 0 0) publishing = .next r ∧ r.take = none)
      ∧ ∃ r, exec (.publicationArm 0 0) { publishing with take := some { slot := 2, poster := .host, edition := 1, staged := [] } }
          = .next r ∧ r.take.isSome = true := by
  refine ⟨by decide, by decide, ⟨_, rfl, ?_⟩, _, rfl, ?_⟩ <;> decide +kernel

/-- A full table of LEARNED entries of the ages and last acceptance times given. -/
def full (age : Fin 512 → Word) (last : Fin 512 → Clock) (s : State) : State :=
  { s with table := build 512 (fun q =>
      some { remoteEntry with id := BitVec.ofNat 16 (q.val + 100), age := age q, lastAccept := some (last q) }) }

/-- Position 3 gives way: by its age, by its last acceptance among equal ages, and by its position among equal both. -/
theorem witness_ArmsEvictTheOldest_order :
    ∀ c ∈ [((fun q => if q = 3 then 6 else 5 : Fin 512 → Word), (fun _ => 0 : Fin 512 → Clock)),
        (fun _ => 5, fun q => if q = 3 then 0 else 1), (fun q => if q.val < 3 then 4 else 5, fun _ => 0)],
      ∀ (q : Fin 512) (e f : Entry), (full c.1 c.2 running).table[(3 : Fin 512)] = some e →
        (full c.1 c.2 running).table[q] = some f → f.configured = false → q ≠ 3 →
        f.age.toNat < e.age.toNat
        ∨ (f.age = e.age ∧ ((f.lastAccept.getD 0 - e.lastAccept.getD 0).toNat ≠ 0
            ∧ (f.lastAccept.getD 0 - e.lastAccept.getD 0).toNat < 0x80000000))
        ∨ (f.age = e.age ∧ (3 : Fin 512).val < q.val ∧ f.lastAccept.getD 0 = e.lastAccept.getD 0) := by
  intro c hc q e f he hf _ hq
  simp only [full, Fin.getElem_fin, build_get, Option.some.injEq] at he hf
  subst he hf
  simp only [List.mem_cons, List.not_mem_nil, or_false] at hc
  rcases hc with rfl | rfl | rfl
  · left; simp [hq]
  · right; left; simp [hq]
  · by_cases h : q.val < 3
    · left; simp [h]
    · right; right
      have : q.val ≠ 3 := fun h => hq (Fin.ext h)
      simp [h]; omega

theorem witness_ArmsEvictTheOldest :
    Memory.wf (runningWith (slotWords 0)).mem ∧ running.partState = .running ∧ running.ageingDue = [] ∧ running.postTrip = []
      ∧ running.postOther = []
      ∧ (full (fun _ => 0) (fun _ => 0) running).lookup 5 = none
      ∧ (full (fun _ => 0) (fun _ => 0) running).table.toList.all (·.isSome) = true
      ∧ running.subs[0].state ≠ .armed ∧ badSlot (writeWord (runningWith (slotWords 0)).mem (subBase 0 + 7) 1) 0 = none
      ∧ (5 : Word) = readWord (writeWord (runningWith (slotWords 0)).mem (subBase 0 + 7) 1) (subBase 0)
      ∧ running.pubs[0].state.armed = false ∧ badPub (writeWord (runningWith pubWords).mem (pubBase 0 + 12) 1) 0 = none
      ∧ (5 : Word) = readWord (writeWord (runningWith pubWords).mem (pubBase 0 + 12) 1) (pubBase 0) := by decide +kernel

theorem witness_LinkRuleArmOutcomes :
    Memory.wf (runningWith ruleWords).mem ∧ running.partState = .running
      ∧ badRule (writeWord (runningWith ruleWords).mem (ruleBase 0 + 11) 1) 0 = none
      ∧ badRule (writeWord running.mem (ruleBase 0 + 11) 1) 0 = some 0
      ∧ running.rules[0].state = .disarmed
      ∧ ({ running with rules := running.rules.set 0 rule } : State).rules[0].state ≠ .disarmed := by decide +kernel

theorem witness_EditionWritesAndCollisions :
    running.partState = .running ∧ running.take = none ∧ running.pubs[0].state.armed = false ∧ Memory.wf running.mem
      ∧ (withPub (pubIn .armedIdle 0) running).pubs[0].state.armed = true
      ∧ (withPub (pubIn .armedIdle 0) running).pubs[0].config = some pubConfig ∧ pubConfig.snapshot = false
      ∧ running.postTrip = [] ∧ running.postOther = []
      ∧ (0x0200#15).toNat = pubBase 0 + 0 ∧ (0x028C#15).toNat = pubBase 0 + 140 ∧ (140 ≤ 140 ∧ 140 ≠ 12)
      ∧ (0x020B#15).toNat = pubBase 0 + 11
      ∧ ({ running with take := some { slot := 0, poster := .host, edition := 1, staged := [] } } : State).take
          = some { slot := 0, poster := .host, edition := 1, staged := [] } := by decide +kernel

/-- Slot 0's content words hold 0x0102 and 0x0304, its content length word a number. -/
def contentOfLength (n : Word) : List Host.Cell := wordsWith [(0x020A, n), (0x020D, 0x0102), (0x020E, 0x0304), (0x028C, 0x0506)]

/-- R135, section 12.4. No content, one of an odd length, and the longest, which a length word above 256 gives too. -/
theorem witness_EditionWritesAndCollisions_content :
    readStaged (contentOfLength 0) 0 = [] ∧ readStaged (contentOfLength 3) 0 = [1, 2, 3]
      ∧ (readStaged (contentOfLength 256) 0).length = 256 ∧ (readStaged (contentOfLength 256) 0).drop 254 = [5, 6]
      ∧ readStaged (contentOfLength 257) 0 = readStaged (contentOfLength 256) 0
      ∧ (readWord (contentOfLength 257) (0x0200 + 160 * (0 : Fin 32).val + 10)).toNat = 257
      ∧ readWord (contentOfLength 3) (0x0200 + 160 * (0 : Fin 32).val + 13 + 2 / 2) = 0x0304 := by decide +kernel

/-- Slots 1 and 2 posted behind a take of slot 0: slot 2 publishes TRIP and is first; slot 1 is a snapshot's. -/
def posts : State :=
  { running with
    pubs := ((running.pubs.set 0 (pubIn .armedIdle 0)).set 1
      { pubIn .armedIdle 0 with config := some { pubConfig with snapshot := true } }).set 2
      { pubIn .armedIdle 0 with config := some { pubConfig with cls := .trip } }
    take := some { slot := 0, poster := .host, edition := 1, staged := [1] }
    postTrip := [{ slot := 2, poster := .rule 3 }], postOther := [{ slot := 1, poster := .host }] }

theorem witness_EditionWritesAndCollisions_posts :
    (0 : Fin 32) ≠ 1 ∧ posts.take = some { slot := 0, poster := .host, edition := 1, staged := [1] }
      ∧ (∀ k : Fin 32, k.val < 3 → posts.pubs[k].state.armed = true ∧ posts.pubs[k].config.isSome = true)
      ∧ (posts.postTrip ++ posts.postOther).any (fun x => x.slot == 0) = false
      ∧ (posts.postTrip ++ posts.postOther).any (fun x => x.slot == 1) = true
      ∧ (({ posts with postTrip := [] } : State).postTrip ++ posts.postOther).any (fun x => x.slot == 2) = false
      ∧ posts.postTrip = { slot := 2, poster := .rule 3 } :: []
      ∧ posts.postOther ++ [{ slot := 0, poster := .host }] = { slot := 1, poster := .host } :: [{ slot := 0, poster := .host }] := by
  decide +kernel

/-- `posts` with the take of slot 0 posted by link rule 9. -/
def ruleTake : State := { posts with take := some { slot := 0, poster := .rule 9, edition := 1, staged := [1] } }

/-- The collision clause at the edition word, whose command is EDITION_WRITE, for both values of the free choice. -/
theorem witness_EditionWritesAndCollisions_edition (first : Bool) (h : Config.collisionFirst ruleTake.free = first) :
    ruleTake.partState = .running ∧ ruleTake.take = some { slot := 0, poster := .rule 9, edition := 1, staged := [1] }
      ∧ ruleTake.pubs[0].config = some pubConfig ∧ pubConfig.snapshot = false
      ∧ (0x020B#15).toNat = pubBase 0 + 11 ∧ (11 ≤ 140 ∧ 11 ≠ 12) ∧ (Instr.editionWrite 0 5).wellFormed = true
      ∧ (if (ruleTake.postTrip ++ ruleTake.postOther).any (fun x => x.slot == 0) then [] else
          [({ slot := 0, poster := if 11 = 11 ∧ Config.collisionFirst ruleTake.free = false then .host else .rule 9 } : Post)])
        = [{ slot := 0, poster := if first then .rule 9 else .host }]
      ∧ ruleTake.postTrip = { slot := 2, poster := .rule 3 } :: [] ∧ ruleTake.pubs[2].config.isSome = true := by
  rw [h]
  cases first <;> decide +kernel

/-- R136: what EDITION_WRITE into the slot being taken comes to, under both values of the free choice. -/
theorem test_edition_write_during_the_take (first : Bool) (h : Config.collisionFirst ruleTake.free = first) :
    (hostWrite (pubBase 0 + 11) 5 ruleTake).postOther
        = [{ slot := 1, poster := .host }, { slot := 0, poster := if first then .rule 9 else .host }]
      ∧ (hostWrite (pubBase 0 + 11) 5 ruleTake).pubs[0].collisions = 1 := by
  rw [hostWrite_edition 0 5 ruleTake (by decide +kernel), watchedWrite, if_neg (by decide +kernel)]
  dsimp only [ruleTake]
  rw [if_pos rfl, if_pos rfl, collideAndPost]
  dsimp only
  rw [show Config.collisionFirst posts.free = first from h]
  cases first <;> decide +kernel

/-- R134, R136: a write into slot 0 ends its take; the TRIP slot is taken next, slot 0 stands last; with no TRIP slot posted the
snapshot is taken and completes, and slot 0 is taken again. -/
theorem test_the_next_take :
    let t := hostWrite 0x020D 5 posts
    let u := hostWrite 0x020D 5 { posts with postTrip := [] }
    (t.take.map (·.slot), t.postTrip, t.postOther.map (·.slot), t.pubs[0].collisions) = (some 2, [], [1, 0], 1)
      ∧ (u.take.map (·.slot), u.postTrip, u.postOther, u.pubs[1].sends) = (some 0, [], [], 1) := by decide +kernel

/-- R132, R137: 0 in the arm word of slot 0 abandons its take with no collision, and slot 2 is taken next; in that of slot 2 it takes the
slot out of the post set. -/
theorem test_an_arm_word_against_a_take :
    let t := takePublication 0 posts
    let u := takePublication 2 posts
    (t.take.map (·.slot), t.postTrip, t.postOther.map (·.slot), t.pubs[0].collisions, t.pubs[0].state)
        = (some 2, [], [1], 0, .disarmed)
      ∧ (u.take.map (·.slot), u.postTrip, u.postOther.map (·.slot)) = (some 0, [], [1]) := by decide +kernel

theorem witness_TakeCompletes :
    ({ withPub (pubIn .armedIdle 0) running with take := some { slot := 0, poster := .host, edition := 1, staged := [1] } }
        : State).take = some { slot := 0, poster := .host, edition := 1, staged := [1] }
      ∧ (withPub (pubIn .armedIdle 0) running).pubs[0].config = some pubConfig
      ∧ running.postTrip = [] ∧ running.postOther = []
      ∧ posts.take.isSome = true ∧ posts.postTrip = { slot := 2, poster := .rule 3 } :: []
      ∧ posts.pubs[2].config.isSome = true ∧ ({ posts with postTrip := [] } : State).postTrip = []
      ∧ posts.postOther = { slot := 1, poster := .host } :: [] ∧ posts.pubs[1].config.isSome = true := by decide +kernel

/-- A header and content at the lower and at the upper bounds of what a message may hold, with padding and with none. -/
theorem witness_TakeCompletes_message :
    ∀ c ∈ [((1 : Word), (0 : Word), (0 : Word), 0), (4095, 60000, 480, 480)],
      1 ≤ c.1.toNat ∧ c.1.toNat ≤ 4095 ∧ c.2.1.toNat ≤ 60000 ∧ c.2.2.1.toNat = (List.replicate c.2.2.2 (0 : Byte)).length
        ∧ (List.replicate c.2.2.2 (0 : Byte)).length ≤ 480 := by decide +kernel

theorem witness_CalendarSendKeepsTheRhythm :
    ({ running with calendar := [{ slot := 0, due := 0 }] } : State).calendar = { slot := 0, due := 0 } :: []
      ∧ reached running.clock 0 = true ∧ (pubIn .burst 499).config = some pubConfig
      ∧ (pubIn .burst 499).buffer = some [1] ∧ (pubIn .burst 499).state.scheduled = true
      ∧ 2 * (pubIn .burst 499).interval.toNat < pubConfig.heartbeat.toNat
      ∧ pubConfig.heartbeat.toNat ≤ 2 * (pubIn .burst 500).interval.toNat
      ∧ (pubIn .steady 1000).state = .steady ∧ (pubIn .steady 1000).state.scheduled = true := by decide +kernel

/-- R141. Entries due at the same time and 0x7FFFFFFF before stand ahead of a new one, one due 0x80000000 after it behind; one due a
tick after it too. -/
theorem witness_CalendarSendKeepsTheRhythm_place :
    (∀ d ∈ [({ slot := 1, due := 0x80000011 } : CalendarEntry), { slot := 2, due := 0x10 }],
        (((0x10 : Clock)) - d.due).toNat < 0x80000000)
      ∧ (∀ d ∈ [({ slot := 3, due := 0x80000010 } : CalendarEntry), { slot := 3, due := 0x11 }],
        0x80000000 ≤ (((0x10 : Clock)) - d.due).toNat)
      ∧ insertCalendar { slot := 0, due := 0x10 } [{ slot := 1, due := 0x80000011 }, { slot := 2, due := 0x10 },
          { slot := 3, due := 0x11 }]
        = [{ slot := 1, due := 0x80000011 }, { slot := 2, due := 0x10 }, { slot := 0, due := 0x10 }, { slot := 3, due := 0x11 }]
      ∧ insertCalendar { slot := 0, due := 0x10 } [{ slot := 3, due := 0x80000010 }]
        = [{ slot := 0, due := 0x10 }, { slot := 3, due := 0x80000010 }] := by decide +kernel

theorem witness_CalendarSendKeepsTheRhythm_refresh :
    (withPub (pubIn .steady 1000) running).pubs[0].refreshAt = some 0 ∧ reached running.clock 0 = true := by decide +kernel

theorem witness_ClockEventsFallDue :
    config.partState ≠ .initialising ∧ reached config.clock config.nextClockUpdate = true
      ∧ reached (1000000 : Clock) config.nextTick = true ∧ config.ageingDue = []
      ∧ (1 : Fin 512) ∈ ({ withEntry remoteEntry running with ageingDue := [1] } : State).ageingDue
      ∧ (withEntry remoteEntry running).table[1] = some remoteEntry := by decide +kernel

/-- A value is reached at its own time and up to 2,147,483,647 ticks after it, across a wrap. -/
theorem test_reached :
    reached 5 5 = true ∧ reached 5 6 = false ∧ reached 0x7FFFFFFF 0 = true ∧ reached 0x80000000 0 = false
      ∧ reached 3 0xFFFFFFFF = true := by decide +kernel

/-- A frame of 64 bytes and its FCS, with the trailer given in place of its last eight bytes. -/
def withTrailer (msg trailer : List Byte) : List Byte := withFcs (padTo 52 msg ++ trailer)

/-- `message` under another type word. -/
def foreign : List Byte := (message.set 12 0x7A).set 13 0x52

theorem witness_LaneFrameReceived_discards :
    ((withLaneA .healthy true running).lane .a).group.link = true
      ∧ ((withLaneA .healthy true running).lane .a).group.state.carries = true
      ∧ ((withLaneA .held true running).lane .a).group.state = .held
      ∧ frameGood [1, 2, 3] = false
      ∧ frameGood (withTrailer message (bytesOf 100 ++ [0x0A, 1] ++ bytesOf 0xA6E1 ++ [0, 0])) = true
      ∧ hasTrailer (withoutFcs (withTrailer message (bytesOf 100 ++ [0x0A, 1] ++ bytesOf 0xA6E1 ++ [0, 0]))) = true
      ∧ trailerPasses (withoutFcs (withTrailer message (bytesOf 100 ++ [0x0A, 1] ++ bytesOf 0xA6E1 ++ [0, 0]))) = false := by
  decide +kernel

theorem witness_LaneFrameReceived_later_checks :
    frameGood (laneBytes .b record) = true ∧ hasTrailer (withoutFcs (laneBytes .b record)) = true
      ∧ trailerPasses (withoutFcs (laneBytes .b record)) = true ∧ trailerLane (withoutFcs (laneBytes .b record)) ≠ laneCode .a
      ∧ frameGood (laneBytes .a { record with frame := foreign }) = true
      ∧ trailerPasses (withoutFcs (laneBytes .a { record with frame := foreign })) = true
      ∧ typeWord (withoutFcs (laneBytes .a { record with frame := foreign })) ≠ running.settings.messageType
      ∧ trailerPasses (withoutFcs (laneBytes .a { record with frame := message.set 15 0 })) = true
      ∧ readHeader (stripTrailer (withoutFcs (laneBytes .a { record with frame := message.set 15 0 }))) = none := by
  decide +kernel

theorem witness_LaneFrameReceived_joins :
    frameGood (laneBytes .a record) = true ∧ hasTrailer (withoutFcs (laneBytes .a record)) = true
      ∧ trailerPasses (withoutFcs (laneBytes .a record)) = true ∧ trailerLane (withoutFcs (laneBytes .a record)) = laneCode .a
      ∧ typeWord (withoutFcs (laneBytes .a record)) = running.settings.messageType
      ∧ readHeader (stripTrailer (withoutFcs (laneBytes .a record))) = some arrival.header
      ∧ ((withLaneA .healthy true running).lane .a).arrivals.length < 8
      ∧ (List.replicate 7 arrival).length < 8 := by decide +kernel

/-- A STREAM record of 1,510 bytes, the longest a lane sends with its trailer and FCS, and one of none; a BARE one. -/
theorem witness_LaneFrameReceived_records :
    (∀ f ∈ [padTo 1510 message, []], ({ record with frame := f } : TxRecord).stream = true
      ∧ ({ record with frame := f } : TxRecord).frame.length ≤ 1510 ∧ ({ record with frame := f } : TxRecord).seq = some 100)
    ∧ ({ record with stream := false } : TxRecord).stream = false
    ∧ (withoutFcs (laneBytes .b record)) = arrival.frame ++ [0x00, 0x64, 0x0B, 0x01, 0xA6, 0xE1]
        ++ (withoutFcs (laneBytes .b record)).drop 58 := by decide +kernel

/-- A bare frame: `foreign`, filled to 60 bytes and closed by its FCS. -/
def bare : List Byte := withFcs (padTo 60 foreign)

theorem witness_LaneFrameReceived_bare_and_overrun :
    frameGood bare = true ∧ hasTrailer (withoutFcs bare) = false ∧ running.bareRoute = .a ∧ running.settings.passBare = 0
      ∧ ({ running with bareRoute := .b } : State).bareRoute ≠ .a
      ∧ ({ running with settings := { running.settings with passBare := 8 } } : State).settings.passBare ≠ 0
      ∧ (readHeader (stripTrailer (withoutFcs (laneBytes .a record)))).isSome = true
      ∧ 8 ≤ (List.replicate 8 arrival).length := by decide +kernel

/-- `running` with the link of bay port 1 UP. -/
def bayUp0 : State :=
  { running with bayGroup := { edition := 0, ports := running.bayGroup.ports.set 0 { bayBlockAtReset with link := true } } }

theorem witness_BayFrameReceived :
    bayUp0.partState = .running ∧ bayUp0.bayGroup.ports[0].link = true ∧ frameGood (bayBytes record) = true
      ∧ hasTrailer (withoutFcs (bayBytes record)) = false
      ∧ typeWord (withoutFcs (bayBytes record)) = bayUp0.settings.messageType
      ∧ readHeader (withoutFcs (bayBytes record)) = some arrival.header ∧ (bayBytes record).length ≤ 1514
      ∧ bayUp0.bays[0].arrivals.length < 8 ∧ frameGood [1, 2, 3] = false
      ∧ frameGood (laneBytes .a record) = true ∧ hasTrailer (withoutFcs (laneBytes .a record)) = true := by decide +kernel

/-- `message` byte by byte: its addresses, type word, header and content. -/
theorem witness_BayFrameReceived_bytes :
    (message.take 12).length = 12
      ∧ message = message.take 12 ++ [0x7A, 0x51, 0x20, 0x05, 9, 0, 40, 0, 0, 3] ++ [1, 2, 3] ∧ (message.take 21).length < 22
      ∧ arrival.frame = padTo 52 message ∧ contentOf arrival = [1, 2, 3] ∧ (padTo 1518 message).length ≤ 1518 := by decide +kernel

/-- `message`, filled so that its FCS makes it 1,515 bytes in all, one more than a bay port takes. -/
def long : List Byte := padTo 1511 message

theorem witness_BayFrameReceived_bare_and_late_checks :
    (typeWord (withoutFcs bare) ≠ bayUp0.settings.messageType) ∧ bayUp0.settings.passBare.getLsbD 0 = false
      ∧ ((8 : BitVec 4).getLsbD 3) = true
      ∧ readHeader (withoutFcs (withFcs (padTo 60 (message.set 15 0)))) = none
      ∧ typeWord (withoutFcs (withFcs (padTo 60 (message.set 15 0)))) = bayUp0.settings.messageType
      ∧ frameGood (withFcs (padTo 60 (message.set 15 0))) = true
      ∧ 8 ≤ (List.replicate 8 arrival).length := by decide +kernel

theorem witness_BayFrameReceived_long :
    1514 < (withFcs long).length ∧ frameGood (withFcs long) = true ∧ hasTrailer (withoutFcs (withFcs long)) = false
      ∧ typeWord (withoutFcs (withFcs long)) = bayUp0.settings.messageType
      ∧ (readHeader (withoutFcs (withFcs long))).isSome = true := by
  have h : long.length = 1511 := by decide +kernel
  refine ⟨by rw [withFcs, List.length_append, fcs_length, h]; decide, frameGood_withFcs _ (by omega) (by omega), ?_⟩
  rw [withoutFcs_withFcs]
  decide +kernel

theorem witness_LaneLinkMovesTheLane :
    running.partState ≠ .initialising ∧ ((withLaneA .down false running).lane .a).group.link = false
      ∧ ((withLaneA .down false running).lane .a).group.state = .down
      ∧ ((withLaneA .proving true running).lane .a).group.link = true
      ∧ ((withLaneA .proving true running).lane .a).group.state.carries = true
      ∧ ((withLaneA .held true running).lane .a).group.state = .held
      ∧ ((withLaneA .held true running).lane .a).group.link = true
      ∧ ((withLaneA .held false running).lane .a).group.link = false
      ∧ ((withLaneA .held false running).lane .a).group.state ≠ .down := by decide +kernel

/-- Lane A as given and Lane B PROVING, the bare route on Lane A, the argument word naming Lane A. -/
def lanes (state : LaneState) (link : Bool) : State :=
  let s := withLaneA state link (runningWith [(argumentWord, 0x000A)])
  { s with laneB := { s.laneB with group := { s.laneB.group with state := .proving, link := true } } }

/-- R100, R101: a route leaves a lane that goes DOWN or HELD, is taken by a lane that enters PROVING while its carrier is DOWN, and by the
preferred lane as it enters HEALTHY. -/
theorem witness_BareRouteFollowsTheLanes :
    (laneDown .a false (lanes .healthy true)).laneA.group.state = .down
      ∧ (laneDown .a false (lanes .healthy true)).bareRoute = .b
      ∧ (hostWrite commandWord 5 (lanes .healthy true)).laneA.group.state = .held
      ∧ (hostWrite commandWord 5 (lanes .healthy true)).bareRoute = .b
      ∧ (laneUp .a (lanes .down false)).laneA.group.state = .proving ∧ (laneUp .a (lanes .down false)).bareRoute = .a
      ∧ (laneUp .a { lanes .down false with bareRoute := .b }).bareRoute = .b
      ∧ (provingExpired .a { lanes .proving true with
            bareRoute := .b, laneA := { (lanes .proving true).laneA with provingEnds := some 0 } }).bareRoute = .a
      ∧ State.reset.partState = .initialising ∧ running.partState ≠ .initialising ∧ running.working = none := by decide +kernel

theorem witness_BayLinkFollowsThePin : bayUp0.partState ≠ .initialising ∧ bayUp0.bayGroup.ports[0].link = true := by
  decide +kernel

/-- Lane A sending, with one record in each queue. -/
def sending : LanePort :=
  { lanePortAtReset with
    group := { laneGroupAtReset with state := .healthy, link := true }
    urgent := [{ record with trip := true }], normal := [record], wire := some { record := record, bytes := [] } }

theorem witness_RecordsArePlacedAndSent :
    ({ running with laneA := sending } : State).laneA.wire.isSome = true
      ∧ (sending.group.state.carries && sending.group.link) = true ∧ sending.urgent = { record with trip := true } :: []
      ∧ ({ sending with urgent := [] } : LanePort).normal = record :: []
      ∧ (({ sending.group with state := .held } : LaneGroup).state.carries && sending.group.link) = false
      ∧ ({ bayPortAtReset with queue := [record], wire := some { record := record, bytes := [] } } : BayPort).wire.isSome = true
      ∧ lanePortAtReset.group.state.carries = false ∧ sending.group.state.carries = true ∧ sending.wire.isSome = true
      ∧ (({ record with trip := true } : TxRecord).stream && ({ record with trip := true } : TxRecord).trip) = true
      ∧ (List.replicate 15 record).length < 16 ∧ 16 ≤ (List.replicate 16 record).length
      ∧ (List.replicate 63 record).length < 64 ∧ 64 ≤ (List.replicate 64 record).length
      ∧ (∀ x ∈ [({ record with trip := true } : TxRecord)], x.trip = true) ∧ (∀ x ∈ [record], x.trip = false)
      ∧ ([({ record with trip := true } : TxRecord)] ++ List.replicate 30 record).length < 32
      ∧ ([({ record with trip := true } : TxRecord)] ++ List.replicate 31 record).length = 32
      ∧ List.replicate 31 record = List.replicate 30 record ++ [record] := by decide +kernel

theorem witness_RecordsArePlacedAndSent_idle :
    ((withLaneA .healthy true running).lane .a).group.state.carries = true ∧ ((withLaneA .healthy true running).lane .a).wire = none
      ∧ ((withLaneA .healthy true running).lane .a).group.link = true
      ∧ [record] = ((withLaneA .healthy true running).lane .a).normal ++ [record]
      ∧ ((withLaneA .healthy false running).lane .a).group.link = false
      ∧ bayUp0.partState = .running ∧ bayUp0.bayGroup.ports[0].link = true ∧ bayUp0.bayGroup.ports[1].link = false
      ∧ bayUp0.bays[0].wire = none ∧ BayPort.enqueue record bayUp0.bays[0].queue = ([record], false)
      ∧ BayPort.enqueue record (List.replicate 32 record) = (List.replicate 32 record, true) := by decide +kernel

/-- Lane A in HEALTHY with both queues full, its drops count as given. -/
def fullLane (drops : Word) : State :=
  { running with laneA :=
    { sending with
      group := { sending.group with drops := drops }
      urgent := List.replicate 16 { record with trip := true }, normal := List.replicate 64 record } }

/-- R37, R145. A drop at a lane port: the first is claimed, one at 65,535 is not counted. -/
theorem witness_RecordsArePlacedAndSent_drop :
    ((fullLane 0).lane .a).group.state.carries = true ∧ 16 ≤ ((fullLane 0).lane .a).urgent.length
      ∧ 64 ≤ ((fullLane 0).lane .a).normal.length
      ∧ (record.stream && record.trip) = false
      ∧ ((offerLane .a record (fullLane 0)).lane .a).group.drops = 1
      ∧ (offerLane .a record (fullLane 0)).journal.claims.map (fun c => (c.kind, c.d1)) = [(.counterFirst, 9)]
      ∧ ((offerLane .a { record with trip := true } (fullLane 1)).lane .a).group.drops = 2
      ∧ (offerLane .a record (fullLane 1)).journal.claims = []
      ∧ ((offerLane .a record (fullLane 0xFFFF)).lane .a).group.drops = 0xFFFF := by decide +kernel

/-- A set of bay ports is offered a record in ascending number, the other ports nothing. -/
theorem test_offer_order :
    (List.finRange 4).filter (fun p => (0xB#4 : PortSet).getLsbD p.val) = [0, 1, 3]
      ∧ (offerBays 0x1 record bayUp0).bays[0].wire.isSome = true ∧ (offerBays 0x0 record bayUp0).bays = bayUp0.bays := by decide +kernel

theorem witness_CopiesAreJudgedByTheWindow :
    ((136#8) - 9).toNat = 127 ∧ ((137#8) - 9).toNat = 128 ∧ window.epoch = 9
      ∧ ((65531#16) - window.high).toNat = 1 ∧ ((32761#16) - window.high).toNat = 32767
      ∧ ((32762#16) - window.high).toNat = 32768 ∧ ((65498#16) - window.high).toNat = 65504
      ∧ (65505 + 31) % 65536 = 0 ∧ ((65530#16) - window.high).toNat = 0
      ∧ window.marks[0] = Mark.ofLane .a ∧ window.marks[0] = Mark.ofLane (Lane.other .b) ∧ window.marks[31] = .empty := by
  decide +kernel

/-- Behind a copy of sequence 3 another of sequence 4 is judged; a window at 40,000 is 39,997 beyond it. -/
theorem witness_NoMessageIsFirstTwice :
    let w := (judge (some window) 9 3 .b).2
    (∀ old, (judge w 9 4 .a).1 ≠ .firstNewEpoch old)
      ∧ (∀ v ∈ [w, (judge w 9 4 .a).2], ∀ x ∈ v, x.epoch = 9 ∧ (x.high - 3).toNat ≤ 32768)
      ∧ (Window.start 40000 9 .a).epoch = 9 ∧ 32768 < ((Window.start 40000 9 .a).high - 3).toNat := by decide +kernel

/-- `arrival` of class TRIP, on bay port 4. -/
def bayTrip : Arrival := { arrival with port := .bay 3, seq := none, header := { arrival.header with cls := .trip } }

theorem witness_ArrivalTakenServesTheCycle :
    engineReady (arrivalAt remoteEntry) = true ∧ (arrivalAt remoteEntry).arrivals (.lane .a) ≠ []
      ∧ ({ arrivalAt remoteEntry with bays := (arrivalAt remoteEntry).bays.set 3 { bayPortAtReset with arrivals := [bayTrip] } }
          : State).arrivals (.bay 3) = [bayTrip]
      ∧ bayTrip.header.cls = .trip ∧ arrival.header.cls ≠ .trip
      ∧ Port.turn (.bay 3) (.lane .a) = 0 ∧ Port.turn (.lane .a) (.lane .a) = 5 ∧ Port.turn (.lane .b) (.bay 0) = 0 := by
  decide +kernel

/-- `arrivalAt` an entry whose window is given. -/
def judgedAt (w : Option Window) : State := arrivalAt { remoteEntry with window := w }

theorem witness_CopiesNotFirstAreDiscarded :
    (∀ c ∈ [(Window.start 100 9 .b, Judgement.twin), (Window.start 100 9 .a, .repeated), (Window.start 132 9 .a, .late),
        (Window.start 100 10 .a, .oldEpoch)],
      engineReady (judgedAt (some c.1)) = true ∧ chosenPort (judgedAt (some c.1)) = some (.lane .a)
      ∧ ((judgedAt (some c.1)).lane .a).arrivals = arrival :: [] ∧ arrival.port = .lane .a
      ∧ (judgedAt (some c.1)).lookup arrival.header.id = some (1, { remoteEntry with window := some c.1 })
      ∧ remoteEntry.origin = .remote ∧ (judge (some c.1) arrival.header.epoch (arrival.seq.getD 0) .a).1 = c.2) := by
  decide +kernel

/-- The clock at which the deadline of `arrival` is reached is not reached at reset, and one in the past is. -/
theorem witness_FirstIsAccepted :
    (∀ c ∈ [(none, Judgement.firstFromEmpty), (some (Window.start 99 9 .a), .firstAhead),
        (some (Window.start 101 9 .a), .firstFilled), (some (Window.start 100 8 .a), .firstNewEpoch 8)],
      engineReady (judgedAt c.1) = true ∧ chosenPort (judgedAt c.1) = some (.lane .a)
      ∧ ((judgedAt c.1).lane .a).arrivals = arrival :: [] ∧ arrival.port = .lane .a
      ∧ (judgedAt c.1).lookup arrival.header.id = some (1, { remoteEntry with window := c.1 })
      ∧ remoteEntry.origin = .remote ∧ remoteEntry.slot = none ∧ remoteEntry.lastAccept = some 0
      ∧ remoteEntry.age.toNat ≤ 599 ∧ remoteEntry.fresh = some .fresh
      ∧ (judge c.1 arrival.header.epoch (arrival.seq.getD 0) .a).1 = c.2 ∧ c.2.isFirst = true)
    ∧ reached running.clock (arrival.time + millis arrival.header.hold + millis running.settings.freshMargin) = false
    ∧ reached (arrival.time + millis arrival.header.hold + millis running.settings.freshMargin)
        (arrival.time + millis arrival.header.hold + millis running.settings.freshMargin) = true := by decide +kernel

/-- `arrival` waits for the entry that slot 0 holds, the slot as given. -/
def arrivalFor (t : SubSlot) : State := withSub t (arrivalAt { remoteEntry with slot := some 0 })

/-- Slot 0 armed under `slotConfig`. -/
def armedSlot (acceptance : TestAcceptance) : SubSlot :=
  { subSlotAtReset with state := .armed, config := some (slotConfig acceptance) }

theorem witness_FirstReachesItsSlot :
    (∀ t ∈ [armedSlot .both, armedSlot .normalOnly, armedSlot .testOnly,
        { armedSlot .both with inProgress := some delivery },
        { armedSlot .testOnly with inProgress := some delivery, waiting := some copy, marker := true }],
      engineReady (arrivalFor t) = true ∧ chosenPort (arrivalFor t) = some (.lane .a)
      ∧ ((arrivalFor t).lane .a).arrivals = arrival :: [] ∧ arrival.port = .lane .a
      ∧ (arrivalFor t).lookup arrival.header.id = some (1, { remoteEntry with slot := some 0 })
      ∧ remoteEntry.origin = .remote ∧ (judge remoteEntry.window 9 100 .a).1.isFirst = true
      ∧ (arrivalFor t).slotEntry 0 = some 1 ∧ (arrivalFor t).subs[0] = t ∧ t.config.isSome = true)
    ∧ (slotConfig .testOnly).acceptance = (if copy.test then .normalOnly else .testOnly)
    ∧ (slotConfig .normalOnly).acceptance = (if copy.test then .testOnly else .normalOnly) := by decide +kernel

/-- R58, R85, R112. What a slot shows of an entry that is REMOTE, its Lane A record of the present cycle and its Lane B record of
another, and of one that is not REMOTE. -/
theorem witness_FirstReachesItsSlot_view :
    (∀ e ∈ [{ remoteEntry with recordA := { lone := true, run := 3, cycle := 0 }, recordB := { lone := true, run := 4, cycle := 1 } }],
      e.origin = .remote
      ∧ running.viewOf e = { fresh := some .fresh, loneA := true, runA := 3, loneB := false, runB := 0 }
      ∧ ({ e with origin := .localBay 0 } : Entry).origin ≠ .remote
      ∧ running.viewOf { e with origin := .localBay 0 }
        = { fresh := some .fresh, loneA := false, runA := 0, loneB := false, runB := 0 })
    ∧ (withEntry { remoteEntry with slot := some 0 } running).slotEntry 0 = some 1 ∧ running.slotEntry 0 = none := by
  decide +kernel

/-- `arrival` as a bay port takes it, waiting alone on bay port 1. -/
def bayArrival : Arrival := { arrival with port := .bay 0, seq := none }

/-- `bayArrival` waits for a part whose table is that of `s`. -/
def bayArrivalAt (s : State) : State :=
  { s with bays := running.bays.set 0 { bayPortAtReset with arrivals := [bayArrival] } }

theorem witness_UnknownStreamsAreLearned :
    (∀ c ∈ [({ running with laneA := { lanePortAtReset with arrivals := [arrival] } }, Port.lane .a, arrival),
        (bayArrivalAt running, .bay 0, bayArrival)],
      engineReady c.1 = true ∧ chosenPort c.1 = some c.2.1 ∧ c.1.arrivals c.2.1 = c.2.2 :: [] ∧ c.2.2.port = c.2.1
      ∧ c.1.lookup c.2.2.header.id = none ∧ c.1.freePosition = some 0)
    ∧ (∀ c ∈ [({ full (fun _ => 0) (fun _ => 0) running with laneA := { lanePortAtReset with arrivals := [arrival] } },
          Port.lane .a, arrival),
        (bayArrivalAt (full (fun _ => 0) (fun _ => 0) running), .bay 0, bayArrival)],
      engineReady c.1 = true ∧ chosenPort c.1 = some c.2.1 ∧ c.1.arrivals c.2.1 = c.2.2 :: [] ∧ c.2.2.port = c.2.1
      ∧ c.1.lookup c.2.2.header.id = none ∧ c.1.freePosition = none) := by decide +kernel

/-- A lane copy 64 behind the next sequence of the port's own stream is an ECHO, one 65 behind or of the next sequence is not. -/
theorem witness_EchoesAndClashesAreCounted :
    (∀ e ∈ [{ remoteEntry with origin := .localBay 0, sendEpoch := 9, sendNext := 164 },
        { remoteEntry with origin := .localHost 0 }],
      engineReady (arrivalAt e) = true ∧ chosenPort (arrivalAt e) = some (.lane .a)
      ∧ (arrivalAt e).arrivals (.lane .a) = arrival :: [] ∧ (arrivalAt e).lookup arrival.header.id = some (1, e)
      ∧ e.origin ≠ .remote)
    ∧ (((164 : Word) - 100).toNat ≤ 64) ∧ ¬(((165 : Word) - 100).toNat ≤ 64) ∧ ¬(1 ≤ ((100 : Word) - 100).toNat)
    ∧ engineReady (bayArrivalAt (withEntry remoteEntry running)) = true
    ∧ chosenPort (bayArrivalAt (withEntry remoteEntry running)) = some (.bay 0)
    ∧ (bayArrivalAt (withEntry remoteEntry running)).lookup bayArrival.header.id = some (1, remoteEntry)
    ∧ remoteEntry.origin ≠ .localBay 0 := by decide +kernel

theorem witness_BayCopiesAreStamped :
    (∀ e ∈ [{ remoteEntry with origin := .localBay 0 }, { remoteEntry with origin := .localBay 0, slot := some 0 },
        { remoteEntry with origin := .localBay 0, configured := true, slot := some 0, fresh := some .stale }],
      engineReady (bayArrivalAt (withSub (armedSlot .normalOnly) (withEntry e running))) = true
      ∧ chosenPort (bayArrivalAt (withSub (armedSlot .normalOnly) (withEntry e running))) = some (.bay 0)
      ∧ (bayArrivalAt (withSub (armedSlot .normalOnly) (withEntry e running))).bays[0].arrivals = bayArrival :: []
      ∧ (bayArrivalAt (withSub (armedSlot .normalOnly) (withEntry e running))).lookup bayArrival.header.id = some (1, e)
      ∧ e.origin = .localBay 0)
    ∧ (armedSlot .normalOnly).inProgress = none ∧ bayArrival.port = .bay 0 := by decide +kernel

/-- Stamping changes the epoch of the header a message is read with, and nothing else of it. -/
theorem test_stamped :
    16 < message.length ∧ (stampEpoch message 77).getD 16 0 = 77 ∧ (stampEpoch message 77).set 16 9 = message
      ∧ (readHeader (stampEpoch message 77)).map (fun h => { h with epoch := 9 }) = readHeader message
      ∧ stampEpoch (message.take 16) 77 = message.take 16 := by decide +kernel

theorem witness_WatchesAreMadeAndAbandoned :
    ({ running with twinClaims := [.watch 5 1 100 .b 0] } : State).twinClaims = .watch 5 1 100 .b 0 :: []
      ∧ (running.lane (Lane.other .b)).group.state.carries = false
      ∧ ((withLaneA .healthy true running).lane (Lane.other .b)).group.state.carries = true
      ∧ 256 ≤ (List.replicate 256 watch).length
      ∧ (List.replicate 255 { watch with id := 6 }).length < 256
      ∧ (∀ w ∈ [{ watch with id := 6 }], ¬(w.id = 5 ∧ w.seq = 100))
      ∧ ({ running with twinClaims := [.abandon 5 1] } : State).twinClaims = .abandon 5 1 :: []
      ∧ ({ running with cleanups := [.a] } : State).cleanups = .a :: [] := by decide +kernel

/-- R78. Entries due at the same time and 0x7FFFFFFF before stand ahead of a new one, one due a tick after it behind, and one due
0x80000000 after it too. -/
theorem witness_WatchesAreMadeAndAbandoned_place :
    (∀ v ∈ [{ watch with deadline := 0x80000011 }, { watch with deadline := 0x10 }],
        (((0x10 : Clock)) - v.deadline).toNat < 0x80000000)
      ∧ (∀ v ∈ [{ watch with deadline := 0x11 }, { watch with deadline := 0x80000010 }],
        0x80000000 ≤ (((0x10 : Clock)) - v.deadline).toNat)
      ∧ insertWatch { watch with id := 6, deadline := 0x10 }
          [{ watch with deadline := 0x80000011 }, { watch with deadline := 0x10 }, { watch with deadline := 0x11 }]
        = [{ watch with deadline := 0x80000011 }, { watch with deadline := 0x10 }, { watch with id := 6, deadline := 0x10 },
          { watch with deadline := 0x11 }]
      ∧ insertWatch { watch with id := 6, deadline := 0x10 } [{ watch with deadline := 0x80000010 }]
        = [{ watch with id := 6, deadline := 0x10 }, { watch with deadline := 0x80000010 }] := by decide +kernel

theorem witness_WatchExpiryCountsAMiss :
    ({ running with watchList := [watch] } : State).watchList = watch :: [] ∧ reached running.clock watch.deadline = true
      ∧ reached running.clock ({ watch with deadline := 1 } : WatchEntry).deadline = false
      ∧ 64 ≤ (List.replicate 64 note).length := by decide +kernel

theorem witness_TwinTakenIsJudged :
    ({ running with twinClaims := [.twin 5 1 100 .b 0] } : State).twinClaims = .twin 5 1 100 .b 0 :: []
      ∧ [watch].find? (fun v => v.id == 5 && v.serial == 1 && v.seq == 100) = some watch
      ∧ (∃ n ∈ [note], n.id = 5 ∧ n.serial = 1 ∧ n.seq = 100) ∧ running.watchList = [] ∧ running.missNotes = [] := by
  decide +kernel

theorem witness_ReportsMoveTheLaneRecord :
    running.ageingDue = [] ∧ ({ running with reports := [.miss 5 1 .a 0] } : State).reports = .miss 5 1 .a 0 :: []
      ∧ ({ running with reports := [.credit 5 1 .a] } : State).reports = .credit 5 1 .a :: []
      ∧ running.lookupNamed 5 1 = none ∧ (withEntry remoteEntry running).lookupNamed 5 1 = some (1, remoteEntry)
      ∧ (0 : Word) = (running.lane .a).cycle ∧ (1 : Word) ≠ (running.lane .a).cycle := by decide +kernel

theorem witness_ReportsMoveTheLaneRecord_notice :
    ({ running with laneNotices := [.a] } : State).laneNotices = .a :: [] ∧ running.ageingDue = [] := by decide +kernel

/-- What a slot is shown of its entry, and that a position alone holds a slot, as the statement names them. -/
theorem witness_ReportsMoveTheLaneRecord_shown :
    ∃ (shown : SubSlot → EntryView → SubSlot) (alone : State → Fin 64 → Fin 512 → Prop), (∀ x view, shown x view =
      if view = x.told then x
      else match x.inProgress with
        | none => { x with told := view, status := { x.status with edition := x.status.edition + 2, view := view } }
        | some _ => { x with told := view, viewsDue := x.viewsDue ++ [{ view := view, stale := false }] })
      ∧ ∀ s k p, alone s k p ↔ ∀ (q : Fin 512) (f : Entry), s.table[q] = some f → f.slot = some k → q = p :=
  ⟨_, _, fun _ _ => rfl, fun _ _ _ => Iff.rfl⟩

/-- Slot 0 with the entry of stream 5, a report or a notice waiting. -/
def reporting (e : Entry) (t : SubSlot) (r : List TwinReport) (n : List Lane) : State :=
  { withSub t (withEntry { e with slot := some 0 } running) with reports := r, laneNotices := n }

theorem witness_ReportsMoveTheLaneRecord_alone (q : Fin 512) (f : Entry)
    (h : (reporting remoteEntry (armedSlot .both) [] []).table[q] = some f) : q = 1 ∧ f.slot = some 0 := by
  obtain ⟨rfl, rfl⟩ := table_withEntry { remoteEntry with slot := some 0 } f q running rfl h
  exact ⟨rfl, rfl⟩

/-- Slot 0 told what the entry of stream 5 shows, with a delivery in progress or with none. -/
def told (d : Option InProgress) : SubSlot := { armedSlot .both with told := running.viewOf remoteEntry, inProgress := d }

/-- The state after a command that answers one. -/
def afterStep (i : Instr) (s : State) : Option State := match exec i s with | .next t => some t | _ => none

/-- R112. A miss that moves the record is shown in one update, or behind a delivery waits; a notice that leaves the record reading as it
read is not shown. -/
theorem test_reports_shown :
    (afterStep .missReport (reporting remoteEntry (told none) [.miss 5 1 .a 0] [])).map
        (fun u => (u.subs[0].status.edition, u.subs[0].status.view.runA, u.subs[0].told.runA)) = some (2, 1, 1)
      ∧ (afterStep .missReport (reporting remoteEntry (told (some delivery)) [.miss 5 1 .a 0] [])).map
        (fun u => (u.subs[0].status.edition, u.subs[0].viewsDue.map (·.view.runA))) = some (0, [1])
      ∧ (afterStep .laneNotice (reporting { remoteEntry with recordA := { lone := true, run := 3, cycle := 9 } } (told none) [] [.a])).map
        (fun u => (u.subs[0], u.table[1].map (·.recordA)))
        = some (told none, some { lone := false, run := 0, cycle := 0 }) := by decide +kernel

theorem witness_LoneChangesEvaluateTheLane :
    ({ running with loneChanges := [{ rise := true, lane := .a, cycle := 0 }] } : State).loneChanges
        = { rise := true, lane := .a, cycle := 0 } :: []
      ∧ ({ running with loneChanges := [{ rise := false, lane := .a, cycle := 1 }] } : State).loneChanges
        = { rise := false, lane := .a, cycle := 1 } :: []
      ∧ (0 : Word) = (running.lane .a).cycle ∧ (1 : Word) ≠ (running.lane .a).cycle
      ∧ ((withLaneA .healthy true running).lane .a).group.state.judged = true := by decide +kernel

theorem witness_ProvingTimerEvaluatesTheLane :
    ({ withLaneA .proving true running with
        laneA := { (withLaneA .proving true running).laneA with provingEnds := some 0 } } : State).laneA.provingEnds = some 0
      ∧ reached running.clock 0 = true ∧ (withLaneA .proving true running).laneA.group.state = .proving := by decide +kernel

theorem witness_ProvingTimerEvaluatesTheLane_evaluation :
    (1 ≤ (1#16).toNat ∧ (1#16).toNat < (2#16).toNat) ∧ (1 ≤ (1#16).toNat ∧ (1#16).toNat ≤ (1#16).toNat) := by decide

theorem witness_DeliveryShowsTheCopy :
    (withSub delivering running).subs[0].inProgress = some delivery
      ∧ delivering.waiting = none ∧ delivering.viewsDue = [] ∧ delivery.mismatch = delivering.status.mismatch
      ∧ delivering.marker = delivery.mismatch
      ∧ (withSub { delivering with waiting := some copy } running).subs[0].waiting = some copy
      ∧ (withSub { delivering with waiting := some copy, viewsDue := [due] } running).subs[0].viewsDue = [due]
      ∧ (withSub { delivering with outcomes := [.disarmed, .refused .badSetting claimed, .armed viewAtReset none] }
          running).subs[0].outcomes.length = 3 := by
  decide +kernel

/-- Two entries of STALE behind one delivery are two updates after it (R112). -/
theorem test_two_updates_behind_a_delivery :
    (completeDelivery 0 delivery (withSub { delivering with viewsDue := [due, due] } running)).subs[0].status.edition = 5
      ∧ (completeDelivery 0 delivery (withSub { delivering with viewsDue := [due, due] } running)).subs[0].status.stale = 2 := by
  decide +kernel

/-- `remoteEntry` with a deadline reached at reset, shown by slot 0. -/
def expiring : Entry := { remoteEntry with deadline := .at 0 40 2, slot := some 0 }

theorem witness_FreshnessExpiryMakesStale :
    (withEntry expiring running).partState = .running ∧ (withEntry expiring running).lookup expiring.id = some (1, expiring)
      ∧ expiring.deadline = .at 0 40 2 ∧ reached running.clock 0 = true ∧ running.ageingDue = []
      ∧ (withEntry expiring running).slotEntry 0 = some 1 ∧ running.subs[0].inProgress = none
      ∧ ({ subSlotAtReset with inProgress := some delivery } : SubSlot).inProgress.isSome = true := by decide +kernel

/-- `running` with rule 0 armed and CI1 going ON offered. -/
def ruleState : State := { running with rules := running.rules.set 0 rule, events := [.contact 0 true 0] }

theorem witness_EventsAreJudgedByTheRules :
    ruleState.events = .contact 0 true 0 :: [] ∧ ruleState.rules[0].state = .armed ∧ ruleState.rules[0].copy = rule.copy
      ∧ (Source.contactOn 0).concerns (.contact 0 true 0) = true
      ∧ (Source.contactOn 1).concerns (.contact 0 true 0) = false
      ∧ ((Source.contactOn 0).matches (.contact 0 true 0) && (!true || !ruleState.rules[0].matching)) = true
      ∧ ((Source.contactOn 0).matches (.contact 0 false 0) && (!true || !ruleState.rules[0].matching)) = false
      ∧ ruleState.rules[1].state ≠ .armed ∧ (permitted ruleState).settings.outputs[0].permitted = true
      ∧ ruleState.partState = .running ∧ (∀ j : Fin 16, j ≠ 0 → ruleState.rules[j].state ≠ .armed)
      ∧ rule.copy.map (·.journal) = some true ∧ ruleState.outputs[0].driven = false
      ∧ ruleState.pubs[0].state.armed = false ∧ posts.take.isSome = true ∧ ruleState.take = none
      ∧ (withPub (pubIn .armedIdle 0) ruleState).pubs[0].state.armed = true := by decide +kernel

/-- A contact input settling toward ON, its filter timer at 0. -/
def settling (accepted : Option Bool) : ContactInput :=
  { contactInputAtReset with accepted := accepted, settling := some true, filterEnds := some 0 }

theorem witness_RawChangesAreFiltered :
    running.filtering = false ∧ ({ running with filtering := true } : State).filtering = true
      ∧ ({ contactInputAtReset with blocked := true } : ContactInput).blocked = true
      ∧ (settling (some true)).accepted = some (!running.pins.raw[0]) ∧ (settling none).accepted ≠ some (!running.pins.raw[0])
      ∧ (settling none).filterEnds = some 0 ∧ (settling none).settling = some true ∧ (settling none).accepted = none
      ∧ reached running.clock 0 = true := by decide +kernel

theorem witness_ChangesAreAcceptedOrBlocked :
    (settling (some false)).filterEnds = some 0 ∧ (settling (some false)).accepted = some false
      ∧ (settling (some false)).windowStart = none ∧ reached running.clock 0 = true
      ∧ 1000000 ≤ ((0 : Clock) - (0 - 1000000)).toNat ∧ ((0 : Clock) - (0 - 999999)).toNat < 1000000
      ∧ 20 ≤ running.settings.contacts[0].limit.toNat ∧ running.settings.contacts[0].limit.toNat < 21 := by decide +kernel

theorem witness_ChangesAreAcceptedOrBlocked_unblock :
    ({ contactInputAtReset with blocked := true } : ContactInput).blockCount = 0
      ∧ ({ contactInputAtReset with blocked := true } : ContactInput).waiting = false
      ∧ ({ contactInputAtReset with blocked := true, waiting := true } : ContactInput).waiting = true
      ∧ ((3999 : Clock) - 0).toNat < (halfMillis running.settings.contacts[0].filter).toNat
      ∧ (halfMillis running.settings.contacts[0].filter).toNat ≤ ((4000 : Clock) - 0).toNat := by decide +kernel

theorem witness_ClaimsAreWrittenOrLost :
    (claim claimed running).journal.claims = claimed :: [] ∧ (claim claimed running).journal.writes = []
      ∧ 128 ≤ ({ journalAtReset with written := 128 } : Journal).outstanding
      ∧ ({ journalAtReset with written := 127 } : Journal).outstanding = 127
      ∧ ({ journalAtReset with written := 126, overflowPending := true } : Journal).outstanding < 127
      ∧ journalAtReset.overflowPending = false
      ∧ ({ journalAtReset with int := true, pulseEnds := some 0 } : Journal).pulseEnds = some 0
      ∧ reached running.clock 0 = true
      ∧ (interrupting true running).partState = .running ∧ (interrupting true running).settings.intEnable = true
      ∧ (interrupting true running).settings.intPulse = true ∧ (interrupting false running).settings.intPulse = false
      ∧ config.partState ≠ .running ∧ running.settings.intEnable = false := by decide +kernel

theorem witness_StepsKeepMemoryCanonical :
    Memory.wf running.mem ∧ ∃ t, step running = .next t := ⟨by decide +kernel, _, rfl⟩

theorem witness_OnlyHostWritesChangeHostWords :
    ({ running with pending := [.start] } : State).pending.head? ≠ some .hardwareReset
      ∧ ({ running with pending := [.start] } : State).pending.head? ≠ some .initialisingComplete := by decide +kernel

theorem witness_StepsKeepTheJournalSound :
    running.journal.bounded ∧ InterruptSound running ∧ ∃ t, step running = .next t :=
  ⟨by unfold Journal.bounded; decide +kernel, by unfold InterruptSound; decide +kernel, _, rfl⟩

theorem witness_StepsDriveOnlyPermittedOutputs : OutputsSafe running ∧ ∃ t, step running = .next t :=
  ⟨by unfold OutputsSafe; decide +kernel, _, rfl⟩

theorem witness_StepsKeepEntriesUnique :
    TableSound publishing ∧ (∃ t, step publishing = .next t)
      ∧ WatchesUnique { running with watchList := [watch, { watch with seq := 101 }] }
      ∧ ∃ t, step { running with watchList := [watch, { watch with seq := 101 }] } = .next t :=
  ⟨witness_PublicationArmOutcomes_sound, ⟨_, rfl⟩, by unfold WatchesUnique; decide +kernel, _, rfl⟩

/-- An entry whose Lane A record reads as LONE, its rise taken, and a step that stays in the cycle; one that begins a cycle. -/
theorem witness_StepsKeepEntriesUnique_lone :
    let s := withEntry { remoteEntry with recordA := { lone := true, run := 3, cycle := 0 } }
      (updateLane .a (fun g => { g with lone := 1 }) (withLaneA .suspect true running))
    LoneCountSound .a s ∧ (∃ t, step s = .next t ∧ (t.lane .a).cycle = (s.lane .a).cycle)
      ∧ ∃ t, step { s with pending := [.laneLinkDown .a false] } = .next t ∧ (t.lane .a).cycle ≠ (s.lane .a).cycle := by
  refine ⟨?_, ⟨_, rfl, ?_⟩, _, rfl, ?_⟩
  · unfold LoneCountSound; decide +kernel
  all_goals decide +kernel

theorem witness_StepsKeepEditionsEven :
    EditionsEven (withSub { delivering with status := { slotStatusAtReset with edition := 1 } } running)
      ∧ ∃ t, step (withSub { delivering with status := { slotStatusAtReset with edition := 1 } } running) = .next t :=
  ⟨⟨fun l => by cases l <;> decide +kernel, by decide +kernel, by decide +kernel, by decide +kernel, by decide +kernel,
    by decide +kernel⟩, _, rfl⟩

/-- Publication slot 0 in BURST on the calendar, its take in progress. -/
def scheduled : State :=
  { withPub (pubIn .burst 2) running with
    calendar := [{ slot := 0, due := 0 }], take := some { slot := 0, poster := .host, edition := 1, staged := [] } }

theorem witness_StepsKeepTheSchedulerSound : SchedulerSound scheduled ∧ ∃ t, step scheduled = .next t := by
  refine ⟨⟨List.Pairwise.nil, ?_, ?_, ?_, ?_, ?_, ?_⟩, _, rfl⟩
  · exact fun p h => by cases h
  · exact fun p h => by cases h
  · exact fun h => by cases h
  · intro t h; cases h; decide +kernel
  · exact List.pairwise_singleton _ _
  · intro k
    have hs : ∀ k : Fin 32, scheduled.pubs[k].state.scheduled = true ↔ k = 0 := by decide +kernel
    refine ⟨?_, ?_, ?_⟩
    · rw [hs]; simp [scheduled, eq_comm]
    · revert k; decide +kernel
    · revert k; decide +kernel

theorem witness_StepsKeepQueuesBounded : QueuesBounded running ∧ ∃ t, step running = .next t :=
  ⟨⟨fun l => by cases l <;> decide +kernel, by decide +kernel, by decide +kernel, by decide +kernel⟩, _, rfl⟩

end Sys2Proof.Tests
end

section
/-! What a step does to the host's words: only a host write, a reset and the completion of INITIALISING change them (R3, R18, R19). -/

namespace Sys2Proof.Machine

/-! ## Commands that are host writes -/

/-- The host write that a command is: the word address and the value written there. -/
def hostWriteOf : Instr → Option (Nat × Word)
  | .hostWrite a v => some (a.toNat, v)
  | .start => some (commandWord, 1)
  | .apply => some (commandWord, 2)
  | .clearCounts => some (commandWord, 3)
  | .softReset => some (commandWord, 4)
  | .laneHold => some (commandWord, 5)
  | .laneRelease => some (commandWord, 6)
  | .outputDrive => some (commandWord, 7)
  | .outputRelease => some (commandWord, 8)
  | .unknownCommand v => some (commandWord, v)
  | .journalTakenWrite t => some (journalTakenWord, t)
  | .subscriptionArm k v => some (subBase k + 7, v)
  | .publicationArm k v => some (pubBase k + 12, v)
  | .linkRuleArm k v => some (ruleBase k + 11, v)
  | .editionWrite k v => some (pubBase k + 11, v)
  | _ => none

/-- A command that is a host write runs it. -/
theorem exec_of_hostWriteOf {c : Instr} {a : Nat} {v : Word} (h : hostWriteOf c = some (a, v)) (s : State) :
    exec c s = .next (hostWrite a v s) := by
  cases c <;> cases h <;> rfl

/-! ## The host's words over one command -/

theorem Spine.keeps_mem {s t : State} (h : Spine s t) : t.mem = s.mem := by
  obtain ⟨-, -, -, -, -, -, -, -, hm, -⟩ := h
  exact hm

theorem Kept.keeps_mem {s t : State} (h : Kept s t) : t.mem = s.mem := by
  obtain ⟨-, hm, -⟩ := h
  exact hm

/-- The outcome, if it is a next state, is one that `P` holds of. -/
def Leads (P : State → Prop) (o : Host.Outcome State Fault Refusal) : Prop := ∀ t, o = .next t → P t

theorem leads_next {P : State → Prop} {u : State} : Leads P (.next u) ↔ P u :=
  ⟨fun h => h u rfl, fun h t e => by injection e with e; exact e ▸ h⟩

theorem rawChange_mem (n : Fin 8) (s : State) : (rawChange n s).mem = s.mem := by
  unfold rawChange
  dsimp only
  split
  · exact (updateContacts_spine _ { s with pins := _ } (by unfold Spine; simp)).keeps_mem
  · rfl

/-- The completion of INITIALISING leaves the host's words, or gives them their defaults (R18, R19). -/
theorem initialisingComplete_mem {s t : State} (h : exec .initialisingComplete s = .next t) :
    t.mem = s.mem ∨ t.mem = defaultMem := by
  have links (u : State) : (takeLinks u).mem = u.mem := by
    unfold takeLinks
    dsimp only
    rw [foldl_keeps State.mem _ (fun t p => by simp)]
    simp
  change execInitialisingComplete s = _ at h
  unfold execInitialisingComplete at h
  split at h <;> cases h
  · unfold enterConfig
    rw [links]
    dsimp only
    split
    · exact .inl rfl
    · exact .inr rfl
  · exact .inl rfl

/-- A command that is no host write, no HARDWARE_RESET and no completion of INITIALISING keeps the host's words. -/
theorem exec_keeps_mem {c : Instr} (s : State) (hw : hostWriteOf c = none) (hr : c ≠ .hardwareReset)
    (hi : c ≠ .initialisingComplete) : Leads (fun t => t.mem = s.mem) (exec c s) := by
  cases c with
  | hardwareReset => exact absurd rfl hr
  | initialisingComplete => exact absurd rfl hi
  | hostWrite | start | apply | clearCounts | softReset | laneHold | laneRelease | outputDrive | outputRelease
  | unknownCommand | journalTakenWrite | subscriptionArm | publicationArm | linkRuleArm | editionWrite => cases hw
  | commandCompletion => exact leads_next.2 (completeCommand_kept s).keeps_mem
  | takeComplete =>
    simp only [exec, execTakeComplete]
    split
    · exact leads_next.2 (takeCompletes_spine ..).keeps_mem
    · exact leads_next.2 rfl
  | calendarSend =>
    simp only [exec, execCalendarSend]
    repeat' split
    · exact leads_next.2 (sendDue_spine ..).keeps_mem
    all_goals exact leads_next.2 rfl
  | refreshExpiry k =>
    simp only [exec, execRefreshExpiry]
    repeat' split
    · exact leads_next.2 (expirePub_spine ..).keeps_mem
    all_goals exact leads_next.2 rfl
  | clockGroupUpdate =>
    simp only [exec, execClockGroupUpdate]
    split <;> exact leads_next.2 rfl
  | secondsTick =>
    simp only [exec, execSecondsTick]
    split
    · exact leads_next.2 ((countBlocks_spine _).trans (ageEntries_spine _)).keeps_mem
    · exact leads_next.2 rfl
  | ageingExpiry p => exact leads_next.2 (expireAge_spine ..).keeps_mem
  | laneFrameReceived l f => exact leads_next.2 (receiveLane_spine ..).keeps_mem
  | bayFrameReceived p f => exact leads_next.2 (receiveBay_spine ..).keeps_mem
  | laneLinkUp l => exact leads_next.2 (by unfold laneUp; dsimp only; (repeat' split) <;> simp)
  | laneLinkDown l cut => exact leads_next.2 (by unfold laneDown; dsimp only; (repeat' split) <;> simp)
  | bayLinkUp p => exact leads_next.2 (by unfold bayUp; dsimp only; split <;> simp)
  | bayLinkDown p cut => exact leads_next.2 (by unfold bayDown; dsimp only; (repeat' split) <;> simp)
  | laneTransmitEnd l => exact leads_next.2 (laneSent_spine ..).keeps_mem
  | bayTransmitEnd p => exact leads_next.2 (baySent_spine ..).keeps_mem
  | arrivalTaken => exact leads_next.2 (arrivalTaken_spine s).keeps_mem
  | deliveryComplete k =>
    simp only [exec, execDeliveryComplete]
    split
    · exact leads_next.2 (completeDelivery_spine ..).keeps_mem
    · exact leads_next.2 rfl
  | watchRequest =>
    simp only [exec, execWatchRequest]
    split
    · exact leads_next.2 (watchAsked_spine _ _ _ _ _ { s with twinClaims := _ }).keeps_mem
    · exact leads_next.2 rfl
  | twinTaken =>
    simp only [exec, execTwinTaken]
    split
    · exact leads_next.2 (twinJudged_spine _ _ _ _ _ { s with twinClaims := _ }).keeps_mem
    · exact leads_next.2 rfl
  | abandon =>
    simp only [exec, execAbandon]
    split
    · exact leads_next.2 (abandonStream_spine _ _ { s with twinClaims := _ }).keeps_mem
    · exact leads_next.2 rfl
  | laneCleanup =>
    simp only [exec, execLaneCleanup]
    split
    · exact leads_next.2 (cleanLane_spine _ { s with cleanups := _ }).keeps_mem
    · exact leads_next.2 rfl
  | watchExpiry =>
    simp only [exec, execWatchExpiry]
    repeat' split
    · exact leads_next.2 (watchExpired_spine ..).keeps_mem
    all_goals exact leads_next.2 rfl
  | missReport =>
    simp only [exec, execMissReport]
    repeat' split
    · exact leads_next.2 (asEngineClaim_spine _ { s with reports := _ } (applyMiss_spine ..)).keeps_mem
    all_goals exact leads_next.2 rfl
  | creditReport =>
    simp only [exec, execCreditReport]
    repeat' split
    · exact leads_next.2 (asEngineClaim_spine _ { s with reports := _ } (applyCredit_spine ..)).keeps_mem
    all_goals exact leads_next.2 rfl
  | laneNotice =>
    simp only [exec, execLaneNotice]
    repeat' split
    · exact leads_next.2 (asEngineClaim_spine _ { s with laneNotices := _ } (noticeLane_spine ..)).keeps_mem
    all_goals exact leads_next.2 rfl
  | loneCountRise => exact leads_next.2 (takeLone_spine ..).keeps_mem
  | loneCountFall => exact leads_next.2 (takeLone_spine ..).keeps_mem
  | provingTimerExpiry l => exact leads_next.2 (provingExpired_spine ..).keeps_mem
  | freshnessExpiry id => exact leads_next.2 (expireFreshness_spine ..).keeps_mem
  | eventOffer =>
    simp only [exec, execEventOffer]
    split
    · exact leads_next.2 (takeEvent_spine _ { s with events := _ }).keeps_mem
    · exact leads_next.2 rfl
  | pulseExpiry n => exact leads_next.2 (pulseExpired_spine ..).keeps_mem
  | rawChange n => exact leads_next.2 (rawChange_mem n s)
  | filterTimerExpiry n => exact leads_next.2 (filterExpired_spine ..).keeps_mem
  | blockCountExpiry n => exact leads_next.2 (blockRunOut_spine ..).keeps_mem
  | unblock n => exact leads_next.2 (unblockWaiting_spine ..).keeps_mem
  | journalClaim =>
    simp only [exec, execJournalClaim]
    split <;> exact leads_next.2 rfl
  | intPulseEnd =>
    simp only [exec, execIntPulseEnd]
    (repeat' split) <;> exact leads_next.2 rfl

/-- A time step keeps the host's words, START's work included. -/
theorem tick_mem (s : State) : (tick s).mem = s.mem := (goOnStarting_kept { s with clock := s.clock + 1 }).keeps_mem

/-! ## The host's words over one step -/

/-- Settles O53: a store keeps the canonical form, and so do the memories that the resets leave. -/
theorem stepsKeepMemoryCanonical : Obligations.StepsKeepMemoryCanonical := by
  intro s t hwf h
  unfold step at h
  split at h
  case h_1 c rest _ =>
    cases hw : hostWriteOf c with
    | some w =>
      obtain ⟨a, v⟩ := w
      rw [exec_of_hostWriteOf hw] at h
      cases h
      obtain hm | hm := hostWrite_mem a v { s with pending := rest }
      · rw [hm]; exact hwf
      · rw [hm]; exact writeWord_wf hwf a v
    | none =>
      by_cases hr : c = .hardwareReset
      · subst hr; cases h; exact empty_wf
      by_cases hi : c = .initialisingComplete
      · subst hi
        obtain hm | hm := initialisingComplete_mem h
        · rw [hm]; exact hwf
        · rw [hm]; exact defaultMem_wf
      · rw [exec_keeps_mem _ hw hr hi t h]; exact hwf
  case h_2 =>
    cases h
    rw [tick_mem]; exact hwf

/-- Settles O54: a command that is no host write keeps the host's words, and one that is stores at most the word it goes to. -/
theorem onlyHostWritesChangeHostWords : Obligations.OnlyHostWritesChangeHostWords := by
  intro s t h hr hi b hb
  unfold step at h
  split at h
  case h_1 c rest hp =>
    rw [hp, List.head?_cons] at hr hi hb
    cases hw : hostWriteOf c with
    | some w =>
      obtain ⟨a, v⟩ := w
      have hne : b ≠ a := by cases c <;> cases hw <;> exact hb
      rw [exec_of_hostWriteOf hw] at h
      cases h
      obtain hm | hm := hostWrite_mem a v { s with pending := rest }
      · rw [hm]
      · rw [hm, readWord_writeWord_ne _ _ _ _ hne]
    | none => rw [exec_keeps_mem _ hw (fun e => hr (congrArg some e)) (fun e => hi (congrArg some e)) t h]
  case h_2 =>
    cases h
    rw [tick_mem]

end Sys2Proof.Machine
end

section
/-! The parities of the edition words (R8, R119): every operation of the part keeps them, so every step does. -/

namespace Sys2Proof.Machine

/-! ## What the evenness of the edition words is about -/

/-- The edition word of the slot is even, or a delivery to it is in progress and it is odd. -/
def SubSlot.evenOrOpen (t : SubSlot) : Bool := isEven t.status.edition == !t.inProgress.isSome

/-- What `EditionsEven` reads of a state. -/
structure Parities where
  laneA : Bool
  laneB : Bool
  bays : Bool
  contacts : Bool
  clock : Bool
  counters : Bool
  slots : Fin 64 → Bool

/-- The parities of the state's edition words. -/
def State.parities (s : State) : Parities :=
  { laneA := isEven s.laneA.group.edition, laneB := isEven s.laneB.group.edition, bays := isEven s.bayGroup.edition
    contacts := isEven s.contactEdition, clock := isEven s.clockGroup.edition, counters := isEven s.counters.edition
    slots := fun k => s.subs[k].evenOrOpen }

/-- The parities of a state whose edition words are as they should be. -/
def Parities.allEven : Parities :=
  { laneA := true, laneB := true, bays := true, contacts := true, clock := true, counters := true, slots := fun _ => true }

theorem editionsEven_iff (s : State) : EditionsEven s ↔ s.parities = Parities.allEven := by
  have hl : (∀ l : Lane, isEven (s.lane l).group.edition = true)
      ↔ isEven s.laneA.group.edition = true ∧ isEven s.laneB.group.edition = true :=
    ⟨fun h => ⟨h .a, h .b⟩, fun ⟨ha, hb⟩ l => by cases l <;> assumption⟩
  simp [EditionsEven, hl, State.parities, Parities.allEven, SubSlot.evenOrOpen, funext_iff, and_assoc]

theorem isEven_iff (w : Word) : isEven w = true ↔ w.toNat % 2 = 0 := by
  simp [isEven, BitVec.getLsbD, Nat.testBit_zero]

theorem isEven_add_one (w : Word) : isEven (w + 1#16) = !isEven w := by
  rw [Bool.eq_iff_iff, Bool.not_eq_true', ← Bool.not_eq_true, isEven_iff, isEven_iff]
  bv_omega

@[simp] theorem isEven_add_two (w : Word) : isEven (w + 2#16) = isEven w := by
  rw [Bool.eq_iff_iff, isEven_iff, isEven_iff]
  bv_omega

@[simp] theorem laneUpdate_even (f : LaneGroup → LaneGroup) (g : LaneGroup) :
    isEven (g.update f).edition = isEven g.edition := by
  unfold LaneGroup.update
  split <;> simp

@[simp] theorem bayGroupUpdate_even (p : Fin 4) (f : BayBlock → BayBlock) (g : BayGroup) :
    isEven (g.update p f).edition = isEven g.edition := by
  unfold BayGroup.update
  split <;> simp

@[simp] theorem countersUpdate_even (f : Counters → Counters) (c : Counters) :
    isEven (c.update f).edition = isEven c.edition := by
  unfold Counters.update
  split <;> simp

/-! ## The state's own operations -/

@[simp] theorem claim_parities (c : JournalClaim) (s : State) : (claim c s).parities = s.parities := rfl

@[simp] theorem offer_parities (e : RuleEvent) (s : State) : (offer e s).parities = s.parities := by
  simp [State.parities]

@[simp] theorem handTwin_parities (c : TwinClaim) (s : State) : (handTwin c s).parities = s.parities := rfl

@[simp] theorem handLone_parities (c : LoneChange) (s : State) : (handLone c s).parities = s.parities := rfl

@[simp] theorem putEntry_parities (p : Fin 512) (e : Option Entry) (s : State) : (s.putEntry p e).parities = s.parities := rfl

@[simp] theorem asEngineClaim_parities (f : State → State) (s : State) :
    (asEngineClaim f s).parities = (f s).parities := rfl

@[simp] theorem updatePub_parities (k : Fin 32) (f : PubSlot → PubSlot) (s : State) :
    (updatePub k f s).parities = s.parities := rfl

@[simp] theorem modifyRule_parities (k : Fin 16) (f : LinkRule → LinkRule) (s : State) :
    (s.modifyRule k f).parities = s.parities := rfl

@[simp] theorem modifyInput_parities (n : Fin 8) (f : ContactInput → ContactInput) (s : State) :
    (s.modifyInput n f).parities = s.parities := rfl

@[simp] theorem modifyOutput_parities (n : Fin 4) (f : TripOutput → TripOutput) (s : State) :
    (s.modifyOutput n f).parities = s.parities := rfl

@[simp] theorem modifyBay_parities (p : Fin 4) (f : BayPort → BayPort) (s : State) :
    (s.modifyBay p f).parities = s.parities := rfl

@[simp] theorem setLanePin_parities (l : Lane) (up : Bool) (s : State) : (s.setLanePin l up).parities = s.parities := by
  cases l <;> rfl

@[simp] theorem setBayPin_parities (p : Fin 4) (up : Bool) (s : State) : (s.setBayPin p up).parities = s.parities := rfl

theorem modifyLane_parities (l : Lane) (f : LanePort → LanePort) (s : State)
    (h : isEven (f (s.lane l)).group.edition = isEven (s.lane l).group.edition) :
    (s.modifyLane l f).parities = s.parities := by
  cases l <;> simp_all [State.parities, State.modifyLane, State.lane]

@[simp] theorem updateLane_parities (l : Lane) (f : LaneGroup → LaneGroup) (s : State) :
    (updateLane l f s).parities = s.parities := modifyLane_parities l _ s (by simp)

@[simp] theorem laneSentinel_parities (l : Lane) (c : LaneCounter) (g : LaneGroup) (t : Clock) (s : State) :
    (laneSentinel l c g t s).parities = s.parities := by
  unfold laneSentinel
  split <;> simp

@[simp] theorem countLane_parities (l : Lane) (f : LaneGroup → LaneGroup) (c : LaneCounter) (t : Clock) (s : State) :
    (countLane l f c t s).parities = s.parities := by simp [countLane]

@[simp] theorem updateBay_parities (p : Fin 4) (f : BayBlock → BayBlock) (s : State) :
    (updateBay p f s).parities = s.parities := by simp [State.parities]

@[simp] theorem baySentinel_parities (p : Fin 4) (c : BayCounter) (b : BayBlock) (t : Clock) (s : State) :
    (baySentinel p c b t s).parities = s.parities := by
  unfold baySentinel
  split <;> simp

@[simp] theorem countBay_parities (p : Fin 4) (f : BayBlock → BayBlock) (c : BayCounter) (t : Clock) (s : State) :
    (countBay p f c t s).parities = s.parities := by simp [countBay]

@[simp] theorem updateCounters_parities (f : Counters → Counters) (s : State) :
    (updateCounters f s).parities = s.parities := by simp [State.parities]

@[simp] theorem countEngine_parities (k : EngineCounter) (t : Clock) (s : State) :
    (countEngine k t s).parities = s.parities := by
  unfold countEngine
  dsimp only
  split <;> simp

theorem updateContacts_parities (f : State → State) (s : State) (h : (f s).parities = s.parities) :
    (updateContacts f s).parities = s.parities := by
  unfold updateContacts
  dsimp only
  split
  · exact h
  · simp_all [State.parities]

theorem modifySub_parities (k : Fin 64) (f : SubSlot → SubSlot) (s : State)
    (h : (f s.subs[k]).evenOrOpen = s.subs[k].evenOrOpen) : (s.modifySub k f).parities = s.parities := by
  have hk (j : Fin 64) : (modifyAt s.subs k f)[j].evenOrOpen = s.subs[j].evenOrOpen := by
    rw [modifyAt_get]
    split
    · subst_vars; exact h
    · rfl
  simpa [State.parities, funext_iff] using hk

/-- A change of a slot that leaves its status and the delivery in progress keeps the parities. -/
@[simp] theorem modifySub_parities_kept (k : Fin 64) (f : SubSlot → SubSlot) (s : State)
    (hs : ∀ t, (f t).status = t.status) (hi : ∀ t, (f t).inProgress = t.inProgress) :
    (s.modifySub k f).parities = s.parities := modifySub_parities k f s (by simp only [SubSlot.evenOrOpen, hs, hi])

@[simp] theorem updateSlot_parities (k : Fin 64) (f : SlotStatus → SlotStatus) (s : State) :
    (updateSlot k f s).parities = s.parities := modifySub_parities k _ s (by simp [SubSlot.evenOrOpen])

/-! ## Transmit queues and reception -/

theorem laneEnqueue_group {r : TxRecord} {p q : LanePort} (h : p.enqueue r = some q) : q.group = p.group := by
  unfold LanePort.enqueue at h
  (repeat' split at h) <;> cases h <;> rfl

@[simp] theorem offerLane_parities (l : Lane) (r : TxRecord) (s : State) : (offerLane l r s).parities = s.parities := by
  unfold offerLane
  split
  · simp
  · split
    · next q hq => exact modifyLane_parities l _ s (by simp [laneEnqueue_group hq])
    · simp

@[simp] theorem laneSent_parities (l : Lane) (s : State) : (laneSent l s).parities = s.parities := by
  unfold laneSent
  split
  · rfl
  · rw [modifyLane_parities, updateLane_parities]
    simp

@[simp] theorem offerBay_parities (p : Fin 4) (r : TxRecord) (s : State) : (offerBay p r s).parities = s.parities := by
  unfold offerBay
  dsimp only
  (repeat' split) <;> simp

@[simp] theorem offerBays_parities (set : PortSet) (r : TxRecord) (s : State) : (offerBays set r s).parities = s.parities := by
  unfold offerBays
  refine foldl_keeps State.parities _ (fun s p => ?_) _ _
  split <;> simp

@[simp] theorem baySent_parities (p : Fin 4) (s : State) : (baySent p s).parities = s.parities := by
  unfold baySent
  split <;> simp

@[simp] theorem receiveLane_parities (l : Lane) (f : List Byte) (s : State) : (receiveLane l f s).parities = s.parities := by
  have join (a : Arrival) : (joinLane l a s).parities = s.parities := by
    unfold joinLane
    split
    · rw [modifyLane_parities _ _ _ rfl, updateLane_parities]
    · simp
  have bare (b : List Byte) : (bareFromLane l b s).parities = s.parities := by
    unfold bareFromLane
    split <;> simp
  unfold receiveLane classifyLane
  dsimp only
  (repeat' split) <;> simp [join, bare]

@[simp] theorem receiveBay_parities (p : Fin 4) (f : List Byte) (s : State) : (receiveBay p f s).parities = s.parities := by
  have join (a : Arrival) : (joinBay p a s).parities = s.parities := by
    unfold joinBay
    split <;> simp
  have bare (b : List Byte) : (bareFromBay p b s).parities = s.parities := by
    unfold bareFromBay
    split <;> simp
  unfold receiveBay classifyBay
  dsimp only
  (repeat' split) <;> simp [join, bare]

/-! ## Lane Supervisor and links -/

@[simp] theorem entered_even (new : LaneState) (also : LaneGroup → LaneGroup) (now : Clock) (period : Word) (p : LanePort) :
    isEven (p.entered new also now period).group.edition = isEven p.group.edition := by
  unfold LanePort.entered
  split <;> simp

@[simp] theorem enterState_parities (l : Lane) (new : LaneState) (also : LaneGroup → LaneGroup) (s : State) :
    (enterState l new also s).parities = s.parities := by
  have h := modifyLane_parities l (LanePort.entered new also s.clock s.settings.provingPeriod) s (by simp)
  unfold enterState
  dsimp only
  split
  · rw [updateCounters_parities, h]
  · split
    · exact h
    · exact h

@[simp] theorem announce_parities (l : Lane) (o n : LaneState) (c : Word) (d : LaneCause) (s : State) :
    (announce l o n c d s).parities = s.parities := by simp [announce]

@[simp] theorem deriveRedundancy_parities (l : Lane) (s : State) : (deriveRedundancy l s).parities = s.parities := by
  simp [State.parities]

@[simp] theorem moveLane_parities (l : Lane) (n : LaneState) (c : LaneCause) (f : LaneGroup → LaneGroup) (s : State) :
    (moveLane l n c f s).parities = s.parities := by
  unfold moveLane
  dsimp only
  rw [deriveRedundancy_parities, announce_parities]
  exact enterState_parities l n f s

@[simp] theorem releaseLane_parities (l : Lane) (c : LaneCause) (s : State) : (releaseLane l c s).parities = s.parities := by
  unfold releaseLane
  split <;> simp

@[simp] theorem holdLane_parities (l : Lane) (s : State) : (holdLane l s).parities = s.parities := by
  unfold holdLane
  split <;> simp

@[simp] theorem releaseAtStart_parities (s : State) : (releaseAtStart s).parities = s.parities := by
  have route (t : State) (r : Lane) : ({ t with bareRoute := r } : State).parities = t.parities := rfl
  unfold releaseAtStart
  dsimp only
  rw [route]
  simp

@[simp] theorem applyLone_parities (c : LoneChange) (s : State) : (applyLone c s).parities = s.parities := by
  unfold applyLone
  dsimp only
  (repeat' split) <;> simp

@[simp] theorem takeLone_parities (rise : Bool) (s : State) : (takeLone rise s).parities = s.parities := by
  have rest (r : List LoneChange) : ({ s with loneChanges := r } : State).parities = s.parities := rfl
  unfold takeLone
  (repeat' split) <;> simp [rest]

@[simp] theorem provingExpired_parities (l : Lane) (s : State) : (provingExpired l s).parities = s.parities := by
  unfold provingExpired
  (repeat' split) <;> simp

@[simp] theorem laneUp_parities (l : Lane) (s : State) : (laneUp l s).parities = s.parities := by
  unfold laneUp
  dsimp only
  (repeat' split)
  · simp
  · simp
  · rw [modifyLane_parities, updateLane_parities, setLanePin_parities]
    simp

@[simp] theorem laneDown_parities (l : Lane) (cut : Bool) (s : State) : (laneDown l cut s).parities = s.parities := by
  have cutHeld (u : State) : (u.modifyLane l LanePort.cutHeld).parities = u.parities := modifyLane_parities l _ u rfl
  unfold laneDown
  dsimp only
  (repeat' split) <;> simp [cutHeld]

@[simp] theorem bayUp_parities (p : Fin 4) (s : State) : (bayUp p s).parities = s.parities := by
  unfold bayUp
  dsimp only
  split <;> simp

@[simp] theorem bayDown_parities (p : Fin 4) (cut : Bool) (s : State) : (bayDown p cut s).parities = s.parities := by
  unfold bayDown
  dsimp only
  (repeat' split) <;> simp

end Sys2Proof.Machine
end

section
/-! The parities of the edition words over Delivery, the stream table, the engine, the scheduler, the contact unit, the rules and the
controller, and so over a step (R8, R119). -/

namespace Sys2Proof.Machine

/-! ## Twin Watch -/

@[simp] theorem setWatch_parities (w : List WatchEntry) (f : Counters → Counters) (s : State) :
    (setWatch w f s).parities = s.parities := by
  unfold setWatch
  rw [updateCounters_parities]
  rfl

@[simp] theorem watchAsked_parities (i r q : Word) (l : Lane) (t : Clock) (s : State) :
    (watchAsked i r q l t s).parities = s.parities := by
  have notes (n : List MissNote) : ({ s with missNotes := n } : State).parities = s.parities := rfl
  unfold watchAsked
  (repeat' split) <;> simp [notes]

@[simp] theorem watchExpired_parities (w : WatchEntry) (r : List WatchEntry) (s : State) :
    (watchExpired w r s).parities = s.parities := by
  unfold watchExpired
  rw [setWatch_parities]
  rfl

@[simp] theorem twinJudged_parities (i r q : Word) (l : Lane) (t : Clock) (s : State) :
    (twinJudged i r q l t s).parities = s.parities := by
  unfold twinJudged
  dsimp only
  split
  · next w _ => exact (setWatch_parities (s.watchList.filter (fun v => !v.isFor i r q)) (·.noteDelay l (t - w.first)) s :)
  · split
    · exact (updateCounters_parities _ { s with missNotes := _ } :)
    · rfl

@[simp] theorem dropWatches_parities (e : WatchEntry → Bool) (n : MissNote → Bool) (s : State) :
    (dropWatches e n s).parities = s.parities := by
  unfold dropWatches
  rw [setWatch_parities]
  rfl

/-! ## Delivery -/

@[simp] theorem flagClaim_parities (k : Fin 64) (m : Option MarkedBy) (b : Bool) (s : State) :
    (flagClaim k m b s).parities = s.parities := by
  unfold flagClaim
  split <;> simp

@[simp] theorem writeView_parities (k : Fin 64) (d : DueView) (s : State) : (writeView k d s).parities = s.parities :=
  updateSlot_parities ..

@[simp] theorem engineView_parities (k : Fin 64) (b : Bool) (s : State) : (engineView k b s).parities = s.parities := by
  unfold engineView
  dsimp only
  (repeat' split) <;> simp

/-- A delivery that begins where none is in progress makes the edition word odd. -/
theorem beginDelivery_parities {k : Fin 64} {s : State} (c : Copy) (h : s.subs[k].inProgress = none) :
    (beginDelivery k c s).parities = s.parities :=
  modifySub_parities k _ s (by simp only [SubSlot.evenOrOpen, h]; simp [isEven_add_one])

@[simp] theorem notifyClaim_parities (k : Fin 64) (d : InProgress) (e : Word) (s : State) :
    (notifyClaim k d e s).parities = s.parities := by
  unfold notifyClaim
  dsimp only
  (repeat' split) <;> simp

@[simp] theorem applyOutcome_parities (k : Fin 64) (o : SlotOutcome) (s : State) :
    (applyOutcome k o s).parities = s.parities := by
  cases o with
  | disarmed => exact updateSlot_parities ..
  | refused reason c => simp [applyOutcome]
  | armed v marked =>
    simp only [applyOutcome]
    split <;> simp

@[simp] theorem giveOutcome_parities (k : Fin 64) (o : SlotOutcome) (s : State) :
    (giveOutcome k o s).parities = s.parities := by
  unfold giveOutcome
  split <;> simp

@[simp] theorem detachDelivery_parities (k : Fin 64) (s : State) : (detachDelivery k s).parities = s.parities := by
  simp [detachDelivery]

@[simp] theorem armDelivery_parities (k : Fin 64) (c : SlotConfig) (s : State) : (armDelivery k c s).parities = s.parities := by
  simp [armDelivery]

@[simp] theorem disarmDelivery_parities (k : Fin 64) (s : State) : (disarmDelivery k s).parities = s.parities := by
  simp [disarmDelivery]

@[simp] theorem refuseDelivery_parities (k : Fin 64) (r : Reason) (i d : Word) (s : State) :
    (refuseDelivery k r i d s).parities = s.parities := by
  simp [refuseDelivery]

@[simp] theorem showFlag_parities (k : Fin 64) (s : State) : (showFlag k s).parities = s.parities := by
  unfold showFlag
  dsimp only
  split <;> simp

theorem placeCopy_parities (k : Fin 64) (c : Copy) (s : State) : (placeCopy k c s).parities = s.parities := by
  unfold placeCopy
  split
  · next hp => exact beginDelivery_parities c hp
  · simp
  · simp

@[simp] theorem modifySub_marked_parities (k : Fin 64) (c : Copy) (b : Bool) (s : State) :
    (s.modifySub k (SubSlot.marked c b)).parities = s.parities :=
  modifySub_parities_kept k (SubSlot.marked c b) s (fun _ => rfl) (fun _ => rfl)

@[simp] theorem handCopy_parities (k : Fin 64) (c : Copy) (s : State) : (handCopy k c s).parities = s.parities := by
  have told (v : EntryView) : (s.modifySub k (fun t => { t.marked c false with told := v })).parities = s.parities :=
    modifySub_parities_kept k _ s (fun _ => rfl) (fun _ => rfl)
  unfold handCopy
  dsimp only
  (repeat' split) <;> simp [placeCopy_parities, told]

/-- An update of a slot's view leaves it without a delivery in progress. -/
theorem writeView_inProgress (k : Fin 64) (d : DueView) (s : State) :
    (writeView k d s).subs[k].inProgress = s.subs[k].inProgress := by
  simp [writeView, updateSlot]

theorem applyOutcome_inProgress (k : Fin 64) (o : SlotOutcome) (s : State) :
    (applyOutcome k o s).subs[k].inProgress = s.subs[k].inProgress := by
  cases o with
  | disarmed => simp [applyOutcome]
  | refused reason c => simp [applyOutcome]
  | armed v marked => simp only [applyOutcome]; split <;> simp

theorem updatesAndDelivery_parities (k : Fin 64) (c : Copy) (dues : List DueView) (s : State)
    (h : s.subs[k].inProgress = none) : (updatesAndDelivery k c dues s).parities = s.parities := by
  induction dues generalizing s with
  | nil => exact beginDelivery_parities c h
  | cons d rest ih =>
    unfold updatesAndDelivery
    dsimp only
    split
    · rw [ih _ ((writeView_inProgress k d { s with free := s.free + 1 }).trans h), writeView_parities]
      rfl
    · rw [modifySub_parities_kept _ _ _ (fun _ => by rfl) (fun _ => by rfl)]
      exact beginDelivery_parities (s := { s with free := s.free + 1 }) c h

theorem afterDelivery_parities (k : Fin 64) (s : State) (h : s.subs[k].inProgress = none) :
    (afterDelivery k s).parities = s.parities := by
  have hv : (s.modifySub k (fun t => { t with viewsDue := [] })).parities = s.parities := by simp
  unfold afterDelivery
  dsimp only
  split
  · rw [foldl_keeps State.parities _ (fun s d => writeView_parities k d s), hv]
  · rw [updatesAndDelivery_parities _ _ _ _ (by simpa using h), hv]

/-- The second raise of the edition word ends the delivery in progress. -/
theorem writeDelivery_parities {k : Fin 64} {d : InProgress} {s : State} (h : s.subs[k].inProgress = some d) :
    (writeDelivery k d s).parities = s.parities := by
  have hw (p : Option (List Byte)) := modifySub_parities k (fun t => { t with
      status := s.subs[k].status.delivered d s.subs[k].supersededDue s.subs[k].staleDue
      inProgress := none, previous := p, supersededDue := 0, staleDue := 0 }) s
    (by simp only [SubSlot.evenOrOpen, h, SlotStatus.delivered]; simp [isEven_add_one])
  unfold writeDelivery
  dsimp only
  rw [notifyClaim_parities]
  split
  · exact hw _
  · rw [flagClaim_parities, hw]

theorem writeDelivery_inProgress (k : Fin 64) (d : InProgress) (s : State) :
    (writeDelivery k d s).subs[k].inProgress = none := by
  rw [← withSlot_self s k, writeDelivery_withSlot, withSlot_sub]

theorem completeDelivery_parities {k : Fin 64} {d : InProgress} {s : State} (h : s.subs[k].inProgress = some d) :
    (completeDelivery k d s).parities = s.parities := by
  have outcomes (os : List SlotOutcome) (u : State) (hu : u.subs[k].inProgress = none) :
      (afterDelivery k (os.foldl (fun s o => applyOutcome k o s) u)).parities = u.parities := by
    rw [afterDelivery_parities, foldl_keeps State.parities _ (fun s o => applyOutcome_parities k o s)]
    rw [foldl_keeps (fun s : State => s.subs[k].inProgress) _ (fun s o => applyOutcome_inProgress k o s), hu]
  have hu : ((writeDelivery k d s).modifySub k (fun t => { t with outcomes := [] })).parities = s.parities := by
    simp [writeDelivery_parities h]
  unfold completeDelivery
  dsimp only
  split
  · rw [outcomes _ _ (by simpa using writeDelivery_inProgress k d s), hu]
  · rw [showFlag_parities, outcomes _ _ (by simpa using writeDelivery_inProgress k d s), hu]

/-! ## Stream table -/

@[simp] theorem makeEntry_parities (p : Fin 512) (e : Entry) (s : State) : (makeEntry p e s).parities = s.parities := rfl

@[simp] theorem removeEntry_parities (p : Fin 512) (s : State) : (removeEntry p s).parities = s.parities := by
  simp [State.parities]

@[simp] theorem makeRoom_parities (s : State) : (makeRoom s).parities = s.parities := by simp [State.parities]

@[simp] theorem expireAge_parities (p : Fin 512) (s : State) : (expireAge p s).parities = s.parities := by
  simp [State.parities]

@[simp] theorem settleAgeing_parities (s : State) : (settleAgeing s).parities = s.parities := by simp [State.parities]

@[simp] theorem detach_parities (k : Fin 64) (s : State) : (detach k s).parities = s.parities := by
  have h : (detachEntry k s).parities = s.parities := by simp [State.parities]
  unfold detach
  split
  · rw [detachDelivery_parities, h]
  · rfl

@[simp] theorem armSlot_parities (k : Fin 64) (s : State) : (armSlot k s).parities = s.parities := by
  unfold armSlot attach
  dsimp only
  (repeat' split) <;> simp

@[simp] theorem takeSubscription_parities (k : Fin 64) (s : State) : (takeSubscription k s).parities = s.parities := by
  unfold takeSubscription subscriptionClaim
  dsimp only
  rw [asEngineClaim_parities]
  (repeat' split) <;> simp

@[simp] theorem removeHostEntry_parities (k : Fin 32) (s : State) : (removeHostEntry k s).parities = s.parities := by
  simp [State.parities]

theorem makeHostEntry_parities {k : Fin 32} {c : PubConfig} {e : Byte} {s t : State} (h : makeHostEntry k c e s = some t) :
    t.parities = s.parities := by
  unfold makeHostEntry at h
  dsimp only at h
  (repeat' split at h) <;> simp at h
  subst h
  simp

@[simp] theorem showSendState_parities (k : Fin 32) (e : Byte) (n : Word) (s : State) :
    (showSendState k e n s).parities = s.parities := rfl

@[simp] theorem goStale_parities (p : Fin 512) (e : Entry) (t : Clock) (q m : Word) (s : State) :
    (goStale p e t q m s).parities = s.parities := by
  unfold goStale
  dsimp only
  (repeat' split) <;> simp

@[simp] theorem expireFreshness_parities (i : Word) (s : State) : (expireFreshness i s).parities = s.parities := by
  unfold expireFreshness
  (repeat' split) <;> simp

@[simp] theorem writeEntry_parities (p : Fin 512) (e : Entry) (s : State) : (writeEntry p e s).parities = s.parities := by
  unfold writeEntry
  split <;> simp

@[simp] theorem applyMiss_parities (i r : Word) (l : Lane) (c : Word) (s : State) :
    (applyMiss i r l c s).parities = s.parities := by
  unfold applyMiss
  dsimp only
  (repeat' split) <;> simp

@[simp] theorem applyCredit_parities (i r : Word) (l : Lane) (s : State) : (applyCredit i r l s).parities = s.parities := by
  unfold applyCredit
  dsimp only
  (repeat' split) <;> simp

@[simp] theorem noticeLane_parities (l : Lane) (s : State) : (noticeLane l s).parities = s.parities := by
  unfold noticeLane
  dsimp only
  refine (foldl_keeps State.parities _ (fun s k => ?_) _ _).trans rfl
  split <;> simp

@[simp] theorem clearNoted_parities (s : State) : (clearNoted s).parities = s.parities :=
  (settleAgeing_parities s : (settleAgeing s).parities = _)

/-! ## The engine's arrivals -/

@[simp] theorem freshClaim_parities (e : Entry) (a : Arrival) (s : State) : (freshClaim e a s).parities = s.parities := by
  simp [State.parities]

@[simp] theorem deliver_parities (e : Entry) (c : Copy) (s : State) : (deliver e c s).parities = s.parities := by
  unfold deliver
  split <;> simp

@[simp] theorem changeEpoch_parities (e : Entry) (o : Byte) (a : Arrival) (l : Lane) (s : State) :
    (changeEpoch e o a l s).parities = s.parities := by simp [changeEpoch]

@[simp] theorem askWatch_parities (e : Entry) (a : Arrival) (q : Word) (l : Lane) (s : State) :
    (askWatch e a q l s).parities = s.parities := by simp [State.parities]

@[simp] theorem acceptFirst_parities (p : Fin 512) (e : Entry) (j : Judgement) (w : Option Window) (a : Arrival) (q : Word)
    (l : Lane) (s : State) : (acceptFirst p e j w a q l s).parities = s.parities := by
  unfold acceptFirst
  dsimp only
  (repeat' split) <;> simp

@[simp] theorem judgeRemote_parities (p : Fin 512) (e : Entry) (a : Arrival) (q : Word) (l : Lane) (s : State) :
    (judgeRemote p e a q l s).parities = s.parities := by
  unfold judgeRemote
  dsimp only
  (repeat' split) <;> simp

@[simp] theorem acceptBay_parities (p : Fin 512) (e : Entry) (a : Arrival) (q : Fin 4) (s : State) :
    (acceptBay p e a q s).parities = s.parities := by simp [acceptBay]

@[simp] theorem echo_parities (p : Fin 512) (e : Entry) (a : Arrival) (s : State) : (echo p e a s).parities = s.parities := by
  unfold echo
  dsimp only
  split <;> simp

@[simp] theorem clash_parities (p : Fin 512) (e : Entry) (a : Arrival) (s : State) : (clash p e a s).parities = s.parities := by
  unfold clash
  dsimp only
  split <;> simp

@[simp] theorem unplaced_parities (a : Arrival) (s : State) : (unplaced a s).parities = s.parities := by
  unfold unplaced
  dsimp only
  (repeat' split) <;> simp

@[simp] theorem takeArrival_parities (a : Arrival) (s : State) : (takeArrival a s).parities = s.parities := by
  have made (p : Fin 512) (e : Entry) (n : Byte) : ({ makeEntry p e s with bayEpoch := n } : State).parities = s.parities := rfl
  unfold takeArrival takeLaneCopy takeBayCopy
  dsimp only
  (repeat' split) <;> simp only [judgeRemote_parities, acceptBay_parities, echo_parities, clash_parities, unplaced_parities,
    made]

@[simp] theorem popArrival_parities (p : Port) (s : State) : (popArrival p s).parities = s.parities := by
  cases p with
  | lane l => exact (modifyLane_parities l _ _ rfl).trans rfl
  | bay q => rfl

@[simp] theorem arrivalTaken_parities (s : State) : (arrivalTaken s).parities = s.parities := by
  unfold arrivalTaken judgeArrival
  dsimp only
  (repeat' split) <;> simp

/-! ## The scheduler -/

@[simp] theorem uncalendar_parities (k : Fin 32) (s : State) : (uncalendar k s).parities = s.parities := rfl

@[simp] theorem sendPub_parities (k : Fin 32) (s : State) : (sendPub k s).parities = s.parities := by
  have pubs (u : State) (v : Vector PubSlot 32) : ({ u with pubs := v } : State).parities = u.parities := rfl
  unfold sendPub
  dsimp only
  split
  · rw [showSendState_parities, pubs]
    simp
  · rfl

@[simp] theorem completeTake_parities (k : Fin 32) (p : Poster) (e : Word) (c : List Byte) (s : State) :
    (completeTake k p e c s).parities = s.parities := by
  have calendar (u : State) (x : List CalendarEntry) : ({ u with calendar := x } : State).parities = u.parities := rfl
  unfold completeTake
  dsimp only
  split
  · rfl
  · rw [calendar]
    simp

@[simp] theorem beginTake_parities (p : Post) (s : State) : (beginTake p s).parities = s.parities := by
  unfold beginTake
  dsimp only
  split
  · simp
  · rfl

theorem beginTakes_parities (n : Nat) (s : State) : (beginTakes n s).parities = s.parities := by
  induction n generalizing s with
  | zero => rfl
  | succ n ih =>
    unfold beginTakes
    (repeat' split)
    · rfl
    · rw [ih, beginTake_parities]; rfl
    · rw [ih, beginTake_parities]; rfl
    · rfl

@[simp] theorem runTakes_parities (s : State) : (runTakes s).parities = s.parities := beginTakes_parities ..

@[simp] theorem takeCompletes_parities (t : Take) (s : State) : (takeCompletes t s).parities = s.parities := by
  have done : ({ s with take := none } : State).parities = s.parities := rfl
  simp [takeCompletes, done]

@[simp] theorem joinPosts_parities (k : Fin 32) (p : Poster) (s : State) : (joinPosts k p s).parities = s.parities := by
  simp [State.parities]

@[simp] theorem post_parities (k : Fin 32) (p : Poster) (s : State) : (post k p s).parities = s.parities := by
  unfold post
  split <;> simp

@[simp] theorem abandonByCollision_parities (t : Take) (s : State) : (abandonByCollision t s).parities = s.parities := by
  have none : ({ s with take := .none } : State).parities = s.parities := rfl
  simp [abandonByCollision, none]

@[simp] theorem collideAndPost_parities (t : Take) (s : State) : (collideAndPost t s).parities = s.parities := by
  have counted : ({ s with free := s.free + 1 } : State).parities = s.parities := rfl
  unfold collideAndPost
  dsimp only
  split <;> simp [counted]

@[simp] theorem watchedWrite_parities (k : Fin 32) (o : Nat) (s : State) : (watchedWrite k o s).parities = s.parities := by
  unfold watchedWrite
  (repeat' split) <;> simp

@[simp] theorem dropIfArmed_parities (k : Fin 32) (s : State) : (dropIfArmed k s).parities = s.parities := by
  unfold dropIfArmed dropPub
  dsimp only
  split
  · rw [removeHostEntry_parities]; rfl
  · rfl

@[simp] theorem refusePub_parities (k : Fin 32) (r : Reason) (d : Word) (s : State) :
    (refusePub k r d s).parities = s.parities := by simp [refusePub]

@[simp] theorem armPub_parities (k : Fin 32) (s : State) : (armPub k s).parities = s.parities := by
  unfold armPub
  dsimp only
  split
  · simp
  · split
    · next h => rw [updatePub_parities, makeHostEntry_parities h]
    · simp

@[simp] theorem takePublication_parities (k : Fin 32) (s : State) : (takePublication k s).parities = s.parities := by
  unfold takePublication publicationClaim
  dsimp only
  rw [runTakes_parities, asEngineClaim_parities]
  (repeat' split) <;> simp

@[simp] theorem sendDue_parities (e : CalendarEntry) (r : List CalendarEntry) (s : State) :
    (sendDue e r s).parities = s.parities := by
  have calendar (u : State) (x : List CalendarEntry) : ({ u with calendar := x } : State).parities = u.parities := rfl
  unfold sendDue
  dsimp only
  split
  · rfl
  · rw [calendar, sendPub_parities, updatePub_parities, calendar]

@[simp] theorem expirePub_parities (k : Fin 32) (t : Clock) (s : State) : (expirePub k t s).parities = s.parities := by
  simp [expirePub]

/-! ## Contacts, outputs and rules -/

@[simp] theorem outputClaim_parities (n : Fin 4) (d : Bool) (c : OutputCause) (s : State) :
    (outputClaim n d c s).parities = s.parities := claim_parities ..

@[simp] theorem updateOutput_parities (n : Fin 4) (f : TripOutput → TripOutput) (s : State) :
    (updateContacts (·.modifyOutput n f) s).parities = s.parities := updateContacts_parities _ _ rfl

@[simp] theorem updateInput_parities (n : Fin 8) (f : ContactInput → ContactInput) (s : State) :
    (updateContacts (·.modifyInput n f) s).parities = s.parities := updateContacts_parities _ _ rfl

@[simp] theorem driveOutput_parities (n : Fin 4) (c : OutputCause) (s : State) :
    (driveOutput n c s).parities = s.parities := by
  unfold driveOutput
  dsimp only
  (repeat' split) <;> simp

@[simp] theorem releaseOutput_parities (n : Fin 4) (c : OutputCause) (s : State) :
    (releaseOutput n c s).parities = s.parities := by
  unfold releaseOutput
  split <;> simp

@[simp] theorem pulseExpired_parities (n : Fin 4) (s : State) : (pulseExpired n s).parities = s.parities := by
  unfold pulseExpired
  (repeat' split) <;> simp

@[simp] theorem takeSettings_parities (new : Settings) (s : State) : (takeSettings new s).parities = s.parities := by
  unfold takeSettings
  dsimp only
  rw [foldl_keeps State.parities _ (fun t n => by split <;> simp), updateContacts_parities]
  rfl

@[simp] theorem beginFiltering_parities (s : State) : (beginFiltering s).parities = s.parities :=
  updateContacts_parities _ _ rfl

@[simp] theorem rawChange_parities (n : Fin 8) (s : State) : (rawChange n s).parities = s.parities := by
  unfold rawChange
  dsimp only
  split
  · rw [updateInput_parities]; rfl
  · rfl

@[simp] theorem announceChange_parities (n : Fin 8) (o : Option Bool) (l : Bool) (t : Clock) (s : State) :
    (announceChange n o l t s).parities = s.parities := by
  unfold announceChange
  dsimp only
  split <;> simp

@[simp] theorem filterExpired_parities (n : Fin 8) (s : State) : (filterExpired n s).parities = s.parities := by
  unfold filterExpired firstSettle blockInput acceptChange
  dsimp only
  (repeat' split) <;> simp

@[simp] theorem unblockInput_parities (n : Fin 8) (s : State) : (unblockInput n s).parities = s.parities := by
  unfold unblockInput
  dsimp only
  split <;> simp

@[simp] theorem blockRunOut_parities (n : Fin 8) (s : State) : (blockRunOut n s).parities = s.parities := by
  unfold blockRunOut
  dsimp only
  (repeat' split) <;> simp

@[simp] theorem unblockWaiting_parities (n : Fin 8) (s : State) : (unblockWaiting n s).parities = s.parities := by
  unfold unblockWaiting
  split <;> simp

@[simp] theorem ruleClaim_parities (k : Fin 16) (s : State) : (ruleClaim k s).parities = s.parities := by
  unfold ruleClaim refuseRule
  dsimp only
  (repeat' split) <;> simp

@[simp] theorem act_parities (k : Fin 16) (a : Action) (s : State) : (act k a s).1.parities = s.parities := by
  unfold act
  (repeat' split) <;> simp

@[simp] theorem fire_parities (k : Fin 16) (c : RuleCopy) (e : RuleEvent) (s : State) : (fire k c e s).parities = s.parities := by
  unfold fire
  dsimp only
  (repeat' split) <;> simp

@[simp] theorem takeEvent_parities (e : RuleEvent) (s : State) : (takeEvent e s).parities = s.parities := by
  unfold takeEvent
  refine foldl_keeps State.parities _ (fun s k => ?_) _ _
  unfold judgeRule
  dsimp only
  (repeat' split) <;> simp

end Sys2Proof.Machine
end

section
/-! The parities of the edition words over the controller's functions, and so over a step (R8, R119). -/

namespace Sys2Proof.Machine

/-! ## START and the other commands -/

@[simp] theorem takeArm_parities (w : ArmWord) (s : State) : (takeArm w s).parities = s.parities := by
  cases w with
  | subscription k => exact takeSubscription_parities k s
  | publication k => exact takePublication_parities k s
  | rule k => exact ruleClaim_parities k s

@[simp] theorem putInForce_parities (new : Settings) (s : State) : (putInForce new s).parities = s.parities :=
  takeSettings_parities new s

@[simp] theorem takeStartSettings_parities (read : List Host.Cell) (s : State) :
    (takeStartSettings read s).parities = s.parities := putInForce_parities (readSettings read) s

@[simp] theorem startedClaim_parities (s : State) : (startedClaim s).parities = s.parities := claim_parities ..

theorem doPiece_parities (p : StartPiece) (left : List StartPiece) (read : List Host.Cell) (w : Working) (s : State) :
    (doPiece p left read w s).parities = s.parities := by
  have goOn (w : Option Working) : ({ s with working := w } : State).parities = s.parities := rfl
  cases p with
  | read a => rfl
  | settings =>
    simp only [doPiece]
    split
    · rfl
    · rw [takeStartSettings_parities, goOn]
  | visit arm => simp only [doPiece, takeArm_parities, goOn]
  | lanes => simp only [doPiece, beginFiltering_parities, releaseAtStart_parities, goOn]
  | started => simp only [doPiece, startedClaim_parities, goOn]

theorem work_parities (n : Nat) (s : State) : (work n s).parities = s.parities := by
  have once (u : State) : (workOnce u).parities = u.parities := by
    unfold workOnce
    (repeat' split)
    · exact doPiece_parities ..
    all_goals rfl
  induction n generalizing s with
  | zero => rfl
  | succ n ih => exact (ih _).trans (once s)

@[simp] theorem goOnStarting_parities (s : State) : (goOnStarting s).parities = s.parities := by
  unfold goOnStarting
  split
  · exact work_parities _ { s with free := s.free + 1 }
  · rfl

@[simp] theorem working_parities (e : Word) (c : ResultCode) (d : Word) (f : Finish) (s : State) :
    (working e c d f s).parities = s.parities := rfl

@[simp] theorem clearGroups_parities (s : State) : (clearGroups s).parities = s.parities := by
  simp [clearGroups, State.parities]

@[simp] theorem laneCommand_parities (e : Word) (run : Lane → State → State) (s : State)
    (h : ∀ l u, (run l u).parities = u.parities) : (laneCommand e run s).parities = s.parities := by
  unfold laneCommand inRunning
  dsimp only
  (repeat' split) <;> simp [h]

/-- A command word taken keeps the parities, but for SOFT-RESET. -/
theorem takeCommand_parities (v : Word) (s : State) (h : v.toNat ≠ 4) : (takeCommand v s).parities = s.parities := by
  unfold takeCommand
  split
  · unfold commandStart
    split <;> simp
  · unfold commandApply inRunning
    dsimp only
    (repeat' split) <;> simp
  · simp [commandClearCounts]
  · exact absurd ‹_› h
  · exact laneCommand_parities _ _ _ (fun l u => holdLane_parities l u)
  · exact laneCommand_parities _ _ _ (fun l u => releaseLane_parities l _ u)
  · unfold commandOutputDrive inRunning
    dsimp only
    (repeat' split) <;> simp
  · unfold commandOutputRelease inRunning
    dsimp only
    (repeat' split) <;> simp
  · simp

@[simp] theorem completeCommand_parities (s : State) : (completeCommand s).parities = s.parities := by
  have done (u : State) (r : ResultGroup) : ({ u with result := r, working := none } : State).parities = u.parities := rfl
  have finish (f : Finish) (u : State) : (finishCommand f u).parities = u.parities := by
    cases f with
    | nothing => rfl
    | starting left read =>
      simp only [finishCommand]
      rw [foldl_keeps State.parities _ (fun s w => takeArm_parities w s)]
      rfl
    | takeSettings new => exact putInForce_parities new u
  have worked : (match s.startLeft with | some left => work left.length s | none => s).parities = s.parities := by
    split
    · exact work_parities ..
    · rfl
  unfold completeCommand
  dsimp only
  split
  · exact ((done _ _).trans (finish _ _)).trans worked
  · exact worked

/-! ## Host writes and resets -/

/-- What the part keeps at a reset has every edition word 0. -/
theorem resetTo_parities (soft : Bool) (mem : List Host.Cell) (s : State) : (resetTo soft mem s).parities = Parities.allEven := by
  have slots : (fun k : Fin 64 => State.reset.subs[k].evenOrOpen) = fun _ => true := by
    funext k
    simp [State.reset, SubSlot.evenOrOpen, subSlotAtReset, slotStatusAtReset, isEven]
  have zero : isEven 0 = true := by decide
  exact Parities.mk.injEq .. ▸ ⟨zero, zero, zero, zero, zero, zero, slots⟩

@[simp] theorem refuseWrite_parities (a : Nat) (v : Word) (s : State) : (refuseWrite a v s).parities = s.parities := by
  unfold refuseWrite
  dsimp only
  split <;> simp

@[simp] theorem armWritten_parities (w : ArmWord) (s : State) : (armWritten w s).parities = s.parities := by
  unfold armWritten
  (repeat' split)
  · simp
  all_goals rfl

theorem written_even (a : Nat) (v : Word) {s : State} (h : s.parities = Parities.allEven) :
    (written a v s).parities = Parities.allEven := by
  unfold written
  split
  · by_cases hv : v.toNat = 4
    · unfold takeCommand
      rw [hv]
      exact resetTo_parities ..
    · rw [takeCommand_parities v s hv, h]
  · exact h
  · split <;> simp [h]
  · split <;> simp [h]
  · split <;> simp [h]
  · exact h

theorem hostWrite_even (a : Nat) (v : Word) {s : State} (h : s.parities = Parities.allEven) :
    (hostWrite a v s).parities = Parities.allEven := by
  unfold hostWrite
  split
  · exact h
  · split
    · exact written_even a v (s := { s with mem := writeWord s.mem a v }) h
    all_goals rw [refuseWrite_parities, h]

theorem enterConfig_parities (s : State) : (enterConfig s).parities = s.parities := by
  unfold enterConfig takeLinks
  dsimp only
  rw [foldl_keeps State.parities _ (fun t p => updateBay_parities ..), updateLane_parities, updateLane_parities]
  rfl

/-! ## One step -/

/-- Every command keeps the edition words even, and that of a slot odd exactly while a delivery to it is in progress. -/
theorem exec_even (c : Instr) {s : State} (h : s.parities = Parities.allEven) :
    Leads (fun t => t.parities = Parities.allEven) (exec c s) := by
  have keeps {u : State} (hu : u.parities = s.parities) : Leads (fun t => t.parities = Parities.allEven) (.next u) :=
    leads_next.2 (hu.trans h)
  cases c with
  | hardwareReset => exact leads_next.2 (resetTo_parities ..)
  | initialisingComplete =>
    simp only [exec, execInitialisingComplete]
    split
    · exact keeps (enterConfig_parities s)
    · exact keeps rfl
  | hostWrite | start | apply | clearCounts | softReset | laneHold | laneRelease | outputDrive | outputRelease
  | unknownCommand | journalTakenWrite | subscriptionArm | publicationArm | linkRuleArm | editionWrite =>
    exact leads_next.2 (hostWrite_even _ _ h)
  | commandCompletion => exact keeps (completeCommand_parities s)
  | takeComplete =>
    simp only [exec, execTakeComplete]
    split
    · exact keeps (takeCompletes_parities ..)
    · exact keeps rfl
  | calendarSend =>
    simp only [exec, execCalendarSend]
    repeat' split
    · exact keeps (sendDue_parities ..)
    all_goals exact keeps rfl
  | refreshExpiry k =>
    simp only [exec, execRefreshExpiry]
    repeat' split
    · exact keeps (expirePub_parities ..)
    all_goals exact keeps rfl
  | clockGroupUpdate =>
    simp only [exec, execClockGroupUpdate]
    split
    · exact keeps (by simp [updateClockGroup, State.parities])
    · exact keeps rfl
  | secondsTick =>
    simp only [exec, execSecondsTick]
    split <;> exact keeps rfl
  | ageingExpiry p => exact keeps (expireAge_parities ..)
  | laneFrameReceived l f => exact keeps (receiveLane_parities ..)
  | bayFrameReceived p f => exact keeps (receiveBay_parities ..)
  | laneLinkUp l => exact keeps (laneUp_parities ..)
  | laneLinkDown l cut => exact keeps (laneDown_parities ..)
  | bayLinkUp p => exact keeps (bayUp_parities ..)
  | bayLinkDown p cut => exact keeps (bayDown_parities ..)
  | laneTransmitEnd l => exact keeps (laneSent_parities ..)
  | bayTransmitEnd p => exact keeps (baySent_parities ..)
  | arrivalTaken => exact keeps (arrivalTaken_parities s)
  | deliveryComplete k =>
    simp only [exec, execDeliveryComplete]
    split
    · next hd => exact keeps (completeDelivery_parities hd)
    · exact keeps rfl
  | watchRequest =>
    simp only [exec, execWatchRequest]
    split
    · exact keeps (watchAsked_parities _ _ _ _ _ { s with twinClaims := _ })
    · exact keeps rfl
  | twinTaken =>
    simp only [exec, execTwinTaken]
    split
    · exact keeps (twinJudged_parities _ _ _ _ _ { s with twinClaims := _ })
    · exact keeps rfl
  | abandon =>
    simp only [exec, execAbandon]
    split
    · exact keeps (dropWatches_parities _ _ { s with twinClaims := _ })
    · exact keeps rfl
  | laneCleanup =>
    simp only [exec, execLaneCleanup]
    split
    · exact keeps (dropWatches_parities _ _ { s with cleanups := _ })
    · exact keeps rfl
  | watchExpiry =>
    simp only [exec, execWatchExpiry]
    repeat' split
    · exact keeps (watchExpired_parities ..)
    all_goals exact keeps rfl
  | missReport =>
    simp only [exec, execMissReport]
    repeat' split
    · exact keeps ((asEngineClaim_parities ..).trans (applyMiss_parities _ _ _ _ { s with reports := _ }))
    all_goals exact keeps rfl
  | creditReport =>
    simp only [exec, execCreditReport]
    repeat' split
    · exact keeps ((asEngineClaim_parities ..).trans (applyCredit_parities _ _ _ { s with reports := _ }))
    all_goals exact keeps rfl
  | laneNotice =>
    simp only [exec, execLaneNotice]
    repeat' split
    · exact keeps ((asEngineClaim_parities ..).trans (noticeLane_parities _ { s with laneNotices := _ }))
    all_goals exact keeps rfl
  | loneCountRise => exact keeps (takeLone_parities ..)
  | loneCountFall => exact keeps (takeLone_parities ..)
  | provingTimerExpiry l => exact keeps (provingExpired_parities ..)
  | freshnessExpiry id => exact keeps (expireFreshness_parities ..)
  | eventOffer =>
    simp only [exec, execEventOffer]
    split
    · exact keeps (takeEvent_parities _ { s with events := _ })
    · exact keeps rfl
  | pulseExpiry n => exact keeps (pulseExpired_parities ..)
  | rawChange n => exact keeps (rawChange_parities ..)
  | filterTimerExpiry n => exact keeps (filterExpired_parities ..)
  | blockCountExpiry n => exact keeps (blockRunOut_parities ..)
  | unblock n => exact keeps (unblockWaiting_parities ..)
  | journalClaim =>
    simp only [exec, execJournalClaim]
    split <;> exact keeps rfl
  | intPulseEnd =>
    simp only [exec, execIntPulseEnd]
    (repeat' split) <;> exact keeps rfl

/-- Settles O59: every operation keeps the parities of the edition words, and a reset leaves every edition word 0. -/
theorem stepsKeepEditionsEven : Obligations.StepsKeepEditionsEven := by
  intro s t hs h
  rw [editionsEven_iff] at hs ⊢
  unfold step at h
  split at h
  · refine exec_even _ ?_ t h
    exact hs
  · injection h with h
    rw [← h, tick, goOnStarting_parities]
    exact hs

end Sys2Proof.Machine
end

section
/-! The front command of a step, the state right after reset, and the resets (R2, R9, R11, R18, R19). -/

namespace Sys2Proof.Machine

theorem step_idle {s : State} (h : s.pending = []) : step s = .next (tick s) := by simp [step, h]

/-- Settles O1: the step function has one case for each shape of the queue. -/
theorem stepTakesTheFrontCommand : Obligations.StepTakesTheFrontCommand := by
  refine fun s => ⟨fun c rest h => ?_, fun h hl => ?_, fun left h hl => ?_⟩
  · simp [step, h]
  · rw [step_idle h]
    exact congrArg _ (goOnStarting_idle (s := { s with clock := s.clock + 1 }) hl)
  · rw [step_idle h]
    exact congrArg _ (goOnStarting_some (s := { s with clock := s.clock + 1 }) hl)

/-! ## The state right after reset -/

theorem hostRead_initialising (s : State) (a : Addr) (h : s.partState = .initialising) : hostRead s a = 0 := if_pos h

theorem reset_tableSound : TableSound State.reset := by
  intro p e h
  simp [State.reset] at h

theorem reset_queuesBounded : QueuesBounded State.reset := by
  refine ⟨fun l => ?_, fun p => ?_, Nat.zero_le _, Nat.zero_le _⟩
  · cases l <;> exact ⟨Nat.zero_le _, Nat.zero_le _, Nat.zero_le _⟩
  · simp [State.reset, bayPortAtReset]

theorem reset_schedulerSound : SchedulerSound State.reset := by
  refine ⟨List.Pairwise.nil, fun p h => ?_, fun p h => ?_, fun _ => ⟨rfl, rfl⟩, fun t h => ?_, List.Pairwise.nil, fun k => ?_⟩
  · cases h
  · cases h
  · cases h
  · simp [State.reset, pubSlotAtReset, PubState.scheduled, PubState.armed]

theorem reset_outputsSafe : OutputsSafe State.reset := by
  intro n h
  simp [State.reset, tripOutputAtReset] at h

theorem reset_loneCountSound (l : Lane) : LoneCountSound l State.reset := by
  have none (P : Option Entry → Bool) (hP : P .none = false) : State.reset.table.toList.countP P = 0 := by
    rw [show State.reset.table = Vector.replicate 512 .none from rfl, Vector.toList_replicate, List.countP_replicate, hP]
    simp
  unfold LoneCountSound
  rw [none _ rfl]
  cases l <;> rfl

/-- Settles O3: each field as State.reset gives it, each invariant by its lemma. -/
theorem resetLeavesNothing : Obligations.ResetLeavesNothing := by
  have even : EditionsEven State.reset := (editionsEven_iff _).2 (resetTo_parities false [] State.reset)
  refine ⟨rfl, rfl, rfl, rfl, rfl, rfl, rfl, rfl, rfl, fun a => hostRead_initialising _ a rfl, fun l => by cases l <;> rfl, rfl,
    fun p => ?_, rfl, rfl, rfl, fun p => ?_, rfl, rfl, rfl, rfl, rfl, rfl, rfl, rfl, rfl, rfl, rfl, fun k => ?_, fun k => ?_,
    rfl, rfl, rfl, rfl, fun k => ?_, fun n => ?_, rfl, rfl, fun n => ?_, fun p => ?_, rfl, rfl, rfl, rfl, rfl, rfl, rfl, rfl,
    rfl, empty_wf, ?_, ?_, reset_outputsSafe, reset_queuesBounded, reset_tableSound, List.Pairwise.nil, even,
    reset_schedulerSound, reset_loneCountSound⟩
  · simp [State.reset, bayPortAtReset, bayBlockAtReset]
  · simp [State.reset]
  · simp [State.reset, subSlotAtReset, slotStatusAtReset, viewAtReset]
  · simp [State.reset, pubSlotAtReset]
  · simp [State.reset, linkRuleAtReset]
  · simp [State.reset, tripOutputAtReset]
  · simp [State.reset, contactInputAtReset]
  · simp [State.reset, journalAtReset]
  · unfold Journal.bounded; decide
  · unfold InterruptSound; decide

/-! ## The resets -/

/-- R27. The fold of `takeLinks` over bay ports: each port met shows its pin, and only the bay port group changes. -/
theorem takeBayLinks_spec (pins : Vector Bool 4) (ps : List (Fin 4)) (s : State) :
    ∃ g, ps.foldl (fun t p => updateBay p (fun b => { b with link := pins[p] }) t) s = { s with bayGroup := g }
      ∧ ∀ p : Fin 4, g.ports[p].link = if p ∈ ps then pins[p] else s.bayGroup.ports[p].link := by
  induction ps generalizing s with
  | nil => exact ⟨s.bayGroup, rfl, fun p => by simp⟩
  | cons q ps ih =>
    obtain ⟨g, hg, hlink⟩ := ih (updateBay q (fun b => { b with link := pins[q] }) s)
    refine ⟨g, hg, fun p => ?_⟩
    rw [hlink p]
    by_cases hp : p = q
    · subst hp; simp
    · simp [hp, bayUpdate_ne q p _ _ hp]

/-- R27. A port's group takes the level at its pin; the link states alone are taken, and only lane and bay groups change. -/
theorem takeLinks_spec (s : State) :
    ∃ t, takeLinks s = t ∧ t = { s with laneA := t.laneA, laneB := t.laneB, bayGroup := t.bayGroup }
      ∧ (t.lane .a).group.link = s.pins.linkA ∧ (t.lane .b).group.link = s.pins.linkB
      ∧ (∀ p : Fin 4, t.bayGroup.ports[p].link = s.pins.bays[p])
      ∧ ∀ l, (t.lane l).group.state = (s.lane l).group.state := by
  obtain ⟨g, hg, hlink⟩ := takeBayLinks_spec s.pins.bays (List.finRange 4)
    (updateLane .b (fun g => { g with link := s.pins.linkB }) (updateLane .a (fun g => { g with link := s.pins.linkA }) s))
  refine ⟨_, hg, rfl, ?_, ?_, fun p => by simpa using hlink p, fun l => ?_⟩
  · simp [State.lane, updateLane, State.modifyLane]
  · simp [State.lane, updateLane, State.modifyLane]
  · cases l <;> simp [State.lane, updateLane, State.modifyLane]

theorem readSettings_defaultMem : readSettings defaultMem = settingsAtReset := by decide +kernel

/-- Settles O4: a reset is `resetTo`, and the completion of INITIALISING sets its own fields and takes the links. -/
theorem resetsStartOver : Obligations.ResetsStartOver := by
  refine ⟨fun s => ⟨rfl, fun hp hw => ?_⟩, fun s hp => ?_⟩
  · exact congrArg _ (hostWrite_command 4 s hp hw)
  · obtain ⟨t, ht, hs, ha, hb, hbay, hstate⟩ := takeLinks_spec
      { s with partState := .config
               nextClockUpdate := s.clock + 100
               mem := if s.softReset then s.mem else defaultMem
               result := if s.softReset then { echo := 4, code := some .done, detail := 0 } else s.result
               softReset := false }
    refine ⟨t, ?_, ?_⟩
    · simp only [exec, execInitialisingComplete, hp, if_true]
      exact congrArg _ ht
    · have hmem : t.mem = if s.softReset then s.mem else defaultMem := by rw [hs]
      refine ⟨by rw [hs], by rw [hs]; rfl, by rw [hs], by rw [hs], hmem, fun h => ?_, by rw [hs], ha, hb, hbay, hstate,
        by rw [hs], by rw [hs], by rw [hs], by rw [hs], by rw [hs], by rw [hs], by rw [hs], by rw [hs], by rw [hs]⟩
      rw [hmem, h]
      exact readSettings_defaultMem

end Sys2Proof.Machine
end

section
/-! Host writes that are discarded or refused, commands that fail their checks, and the journal taken word (R2 to R6, R14, R169). -/

namespace Sys2Proof.Machine

/-- A command that is a host write is discarded while INITIALISING (R2). -/
theorem exec_initialising {c : Instr} {a : Nat} {v : Word} (h : hostWriteOf c = some (a, v)) {s : State}
    (hs : s.partState = .initialising) : exec c s = .next s := by
  rw [exec_of_hostWriteOf h, hostWrite_initialising a v s hs]

/-- A command taken outside INITIALISING with no command in progress: its word is stored, and it is taken. -/
theorem exec_command {c : Instr} {v : Word} (hc : hostWriteOf c = some (commandWord, v)) {s : State}
    (h : s.partState ≠ .initialising) (hw : s.working = none) :
    exec c s = .next (takeCommand v { s with mem := writeWord s.mem commandWord v }) := by
  rw [exec_of_hostWriteOf hc, hostWrite_command v s h hw]

/-- Settles O7: READY is read off the part state, and every command that writes a host word is discarded. -/
theorem initialisingIsDeafToTheHost : Obligations.InitialisingIsDeafToTheHost := by
  refine ⟨fun s => ⟨by simp [State.ready], ⟨_, rfl, rfl⟩, fun hp hw => ⟨_, exec_command rfl hp hw, rfl⟩, fun hp => ?_⟩,
    fun s hs => ⟨fun a => hostRead_initialising s a hs, fun a v => exec_initialising rfl hs, exec_initialising rfl hs,
      exec_initialising rfl hs, exec_initialising rfl hs, exec_initialising rfl hs, exec_initialising rfl hs,
      exec_initialising rfl hs, exec_initialising rfl hs, exec_initialising rfl hs, fun v => exec_initialising rfl hs,
      fun t => exec_initialising rfl hs, fun k v => exec_initialising rfl hs, fun k v => exec_initialising rfl hs,
      fun k v => exec_initialising rfl hs, fun k v => exec_initialising rfl hs⟩⟩
  obtain ⟨t, he, hc, hr, -⟩ := resetsStartOver.2 s hp
  exact ⟨t, he, hr, hc⟩

/-! ## Whose each word is (section 1.2) -/

/-- The words that section 1.2 gives the host. -/
def HostWord (a : Nat) : Prop :=
  (0x0040 ≤ a ∧ a ≤ 0x00FF)
    ∨ (∃ k : Fin 32, ∃ off, off ≤ 140 ∧ a = 0x0200 + 160 * k.val + off)
    ∨ (∃ k : Fin 64, ∃ off, off ≤ 15 ∧ a = 0x1600 + 176 * k.val + off)
    ∨ (∃ k : Fin 16, ∃ off, off ≤ 11 ∧ a = 0x4600 + 16 * k.val + off)
    ∨ (0x4700 ≤ a ∧ a ≤ 0x472F)

/-- The words that section 1.2 gives the part. -/
def PartWord (a : Nat) : Prop :=
  a ≤ 0x003F ∨ (0x0100 ≤ a ∧ a ≤ 0x01FF)
    ∨ (∃ k : Fin 32, ∃ off, 141 ≤ off ∧ off ≤ 159 ∧ a = 0x0200 + 160 * k.val + off)
    ∨ (∃ k : Fin 64, ∃ off, 16 ≤ off ∧ off ≤ 167 ∧ a = 0x1600 + 176 * k.val + off)
    ∨ (0x4200 ≤ a ∧ a ≤ 0x45FF)
    ∨ (∃ k : Fin 16, ∃ off, 12 ≤ off ∧ off ≤ 15 ∧ a = 0x4600 + 16 * k.val + off)
    ∨ (0x4800 ≤ a ∧ a ≤ 0x67FF)

theorem place_pubWord (k : Fin 32) {off : Nat} (h : off < 160) : place (0x0200 + 160 * k.val + off) = .publication k off :=
  place_pub k off h

theorem place_subWord (k : Fin 64) {off : Nat} (h : off < 176) : place (0x1600 + 176 * k.val + off) = .subscription k off :=
  place_sub k off h

theorem place_ruleWord (k : Fin 16) {off : Nat} (h : off < 16) : place (0x4600 + 16 * k.val + off) = .rule k off :=
  place_rule k off h

theorem HostWord.side {a : Nat} (h : HostWord a) : sideOf (place a) = .host := by
  obtain ⟨h1, h2⟩ | ⟨k, off, ho, rfl⟩ | ⟨k, off, ho, rfl⟩ | ⟨k, off, ho, rfl⟩ | ⟨h1, h2⟩ := h
  · exact sideOf_settings a h1 (by omega)
  · rw [place_pubWord k (by omega)]; exact if_pos ho
  · rw [place_subWord k (by omega)]; exact if_pos ho
  · rw [place_ruleWord k (by omega)]; exact if_pos ho
  · exact sideOf_ioSettings a h1 (by omega)

theorem PartWord.side {a : Nat} (h : PartWord a) : sideOf (place a) = .part := by
  obtain h | ⟨h1, h2⟩ | ⟨k, off, h1, h2, rfl⟩ | ⟨k, off, h1, h2, rfl⟩ | ⟨h1, h2⟩ | ⟨k, off, h1, h2, rfl⟩ | ⟨h1, h2⟩ := h
  · rw [place_directory a (by omega)]; rfl
  · rw [place_status a h1 (by omega)]; rfl
  · rw [place_pubWord k (by omega)]; exact if_neg (by omega)
  · rw [place_subWord k (by omega), sideOf, if_neg (by omega), if_pos h2]
  · exact sideOf_journal a h1 (by omega)
  · rw [place_ruleWord k (by omega)]; exact if_neg (by omega)
  · exact sideOf_streamTable a h1 (by omega)

theorem sideOf_nobody {a : Nat} (h : (∃ k : Fin 64, ∃ off, 168 ≤ off ∧ off ≤ 175 ∧ a = 0x1600 + 176 * k.val + off)
    ∨ (0x4730 ≤ a ∧ a ≤ 0x47FF) ∨ 0x6800 ≤ a) : sideOf (place a) = .nobody := by
  obtain ⟨k, off, h1, h2, rfl⟩ | h := h
  · rw [place_subWord k (by omega), sideOf, if_neg (by omega), if_neg (by omega)]
  · rw [place_nobody a (by omega)]; rfl

theorem sideNow_working {s : State} (h : s.partState ≠ .initialising) (hw : s.working.isSome = true) {a : Nat}
    (ha : a = commandWord ∨ a = argumentWord) : s.sideNow a = .part := by
  unfold State.sideNow
  rw [if_neg h, if_pos (by rw [hw]; simpa using ha)]

/-! ## A refused write (R4) -/

theorem countersUpdate_eq (f : Counters → Counters) (c : Counters) :
    c.update f = { f c with edition := (c.update f).edition } := by
  unfold Counters.update
  split
  · next h => rw [h]
  · rfl

theorem satInc_stays (w : Word) : satInc w = if w = 0xFFFF then 0xFFFF else w + 1 := by
  unfold satInc
  split <;> simp_all

/-- R4. What a refused write counts, latches and claims. -/
theorem refuseWrite_eq (a : Nat) (v : Word) (s : State) : refuseWrite a v s =
    { s with
      counters := s.counters.update (fun c => { c with
        refused := satInc c.refused
        firstRefused := if s.counters.refused = 0 then BitVec.ofNat 16 a else c.firstRefused })
      journal := { s.journal with claims := s.journal.claims ++ (if s.counters.refused = 0 then
        [{ kind := .refusedWrite, subject := .part, time := s.clock, d1 := BitVec.ofNat 16 a, d2 := v, d3 := stateWord s }]
        else []) } } := by
  unfold refuseWrite
  dsimp only
  by_cases h : s.counters.refused = 0
  · rw [if_pos h, if_pos h]; rfl
  · rw [if_neg h, if_neg h, List.append_nil]; rfl

/-- What the commands that a write of the command word gives write there. -/
theorem hostWriteOf_refused {c : Instr} {a : Addr} {v : Word} {s : State} (hs : s.partState ≠ .initialising)
    (h : (c = .hostWrite a v ∧ s.sideNow a.toNat ≠ .host)
      ∨ (a = 0x0040 ∧ s.working.isSome = true
        ∧ ((c = .start ∧ v = 1) ∨ (c = .apply ∧ v = 2) ∨ (c = .clearCounts ∧ v = 3) ∨ (c = .softReset ∧ v = 4)
          ∨ (c = .laneHold ∧ v = 5) ∨ (c = .laneRelease ∧ v = 6) ∨ (c = .outputDrive ∧ v = 7) ∨ (c = .outputRelease ∧ v = 8)
          ∨ c = .unknownCommand v))) :
    hostWriteOf c = some (a.toNat, v) ∧ s.sideNow a.toNat ≠ .host := by
  obtain ⟨rfl, hside⟩ | ⟨rfl, hw, hc⟩ := h
  · exact ⟨rfl, hside⟩
  · refine ⟨?_, ?_⟩
    · obtain ⟨rfl, rfl⟩ | ⟨rfl, rfl⟩ | ⟨rfl, rfl⟩ | ⟨rfl, rfl⟩ | ⟨rfl, rfl⟩ | ⟨rfl, rfl⟩ | ⟨rfl, rfl⟩ | ⟨rfl, rfl⟩ | rfl := hc
        <;> rfl
    · rw [sideNow_working hs hw (.inl (by decide))]
      exact Side.noConfusion

/-- R17. The counters group after CLEAR-COUNTS. -/
theorem commandClearCounts_counters (s : State) :
    (commandClearCounts s).counters = { s.counters.cleared with edition := s.counters.edition + 2 } := by
  simp [commandClearCounts, working, clearNoted, clearGroups]

/-- Settles O6: a refused write is `refuseWrite`, the map is that of section 1.2, and the resets and CLEAR_COUNTS clear the counts. -/
theorem hostWriteRefused : Obligations.HostWriteRefused := by
  refine ⟨fun s c a v hs h => ?_, fun s a h => ?_, fun s a hs => ⟨fun hw ha => ?_, fun hfix => ⟨fun h => ?_, fun h => ?_, fun h => ?_⟩⟩,
    fun s c h => ?_⟩
  · obtain ⟨hc, hside⟩ := hostWriteOf_refused hs h
    refine ⟨_, exec_of_hostWriteOf hc s, ?_⟩
    rw [hostWrite_refused _ _ _ hs hside, refuseWrite_eq]
    refine ⟨rfl, ?_, ?_, rfl⟩
    · dsimp only
      rw [countersUpdate_eq, satInc_stays, BitVec.ofNat_toNat]
    · rw [BitVec.ofNat_toNat]
  · by_cases hi : s.partState = .initialising
    · exact hostRead_initialising s a hi
    · have hp : sideOf (place a.toNat) = .nobody := by
        unfold State.sideNow at h
        rw [if_neg hi] at h
        split at h
        · cases h
        · exact h
      unfold hostRead
      rw [if_neg hi, hp]
  · refine sideNow_working hs hw ?_
    obtain rfl | rfl := ha
    · exact .inl rfl
    · exact .inr rfl
  on_goal 4 =>
    obtain rfl | ⟨hs, hw, rfl | rfl⟩ := h
    · exact ⟨_, rfl, rfl, rfl⟩
    · exact ⟨_, exec_command rfl hs hw, rfl, rfl⟩
    · have cleared := commandClearCounts_counters { s with mem := writeWord s.mem commandWord 3 }
      exact ⟨commandClearCounts { s with mem := writeWord s.mem commandWord 3 }, exec_command (v := 3) rfl hs hw,
        congrArg Counters.refused cleared, congrArg Counters.firstRefused cleared⟩
  all_goals
    have fixed : s.sideNow a.toNat = sideOf (place a.toNat) :=
      sideNow_fixed s _ hs (hfix.imp_right fun ⟨h1, h2⟩ =>
        ⟨fun e => h1 (BitVec.eq_of_toNat_eq e), fun e => h2 (BitVec.eq_of_toNat_eq e)⟩)
    rw [fixed]
  · exact HostWord.side h
  · exact PartWord.side h
  · exact sideOf_nobody h

end Sys2Proof.Machine
end

section
/-! Commands that fail their checks, and APPLY's checks at its taking (R13, R14, R16). -/

namespace Sys2Proof.Machine

theorem inRunning_running {echo : Word} {s : State} (h : s.partState = .running) (run : State → State) :
    inRunning echo s run = run s := if_pos h

theorem inRunning_config {echo : Word} {s : State} (h : s.partState = .config) (run : State → State) :
    inRunning echo s run = working echo .wrongState 0 .nothing s := if_neg (by rw [h]; exact PartState.noConfusion)

theorem laneCommand_config {echo : Word} {run : Lane → State → State} {s : State} (h : s.partState = .config) :
    laneCommand echo run s = working echo .wrongState 0 .nothing s := inRunning_config h _

theorem commandLaneHold_config {s : State} (h : s.partState = .config) : commandLaneHold s = working 5 .wrongState 0 .nothing s :=
  laneCommand_config h

theorem commandLaneRelease_config {s : State} (h : s.partState = .config) : commandLaneRelease s = working 6 .wrongState 0 .nothing s :=
  laneCommand_config h

theorem commandOutputDrive_config {s : State} (h : s.partState = .config) : commandOutputDrive s = working 7 .wrongState 0 .nothing s :=
  inRunning_config h _

theorem commandOutputRelease_config {s : State} (h : s.partState = .config) : commandOutputRelease s = working 8 .wrongState 0 .nothing s :=
  inRunning_config h _

/-! ## Each command, as it is taken -/

section
variable {s : State} (h : s.partState ≠ .initialising) (hw : s.working = none)
include h hw

theorem exec_start : exec .start s = .next (commandStart { s with mem := writeWord s.mem commandWord 1 }) :=
  exec_command (v := 1) rfl h hw

theorem exec_apply : exec .apply s = .next (commandApply { s with mem := writeWord s.mem commandWord 2 }) :=
  exec_command (v := 2) rfl h hw

theorem exec_clearCounts : exec .clearCounts s = .next (commandClearCounts { s with mem := writeWord s.mem commandWord 3 }) :=
  exec_command (v := 3) rfl h hw

theorem exec_laneHold : exec .laneHold s = .next (commandLaneHold { s with mem := writeWord s.mem commandWord 5 }) :=
  exec_command (v := 5) rfl h hw

theorem exec_laneRelease : exec .laneRelease s = .next (commandLaneRelease { s with mem := writeWord s.mem commandWord 6 }) :=
  exec_command (v := 6) rfl h hw

theorem exec_outputDrive : exec .outputDrive s = .next (commandOutputDrive { s with mem := writeWord s.mem commandWord 7 }) :=
  exec_command (v := 7) rfl h hw

theorem exec_outputRelease : exec .outputRelease s = .next (commandOutputRelease { s with mem := writeWord s.mem commandWord 8 }) :=
  exec_command (v := 8) rfl h hw

theorem exec_unknown (v : Word) :
    exec (.unknownCommand v) s = .next (takeCommand v { s with mem := writeWord s.mem commandWord v }) :=
  exec_command rfl h hw

end

/-- The store of the command word leaves the argument word. -/
theorem readArgument_command (m : List Host.Cell) (v : Word) :
    readWord (writeWord m commandWord v) argumentWord = readWord m argumentWord :=
  readWord_writeWord_ne m _ _ _ (by decide)

theorem laneCommand_named {echo : Word} {run : Lane → State → State} {s : State} {l : Lane} (h : s.partState = .running)
    (hl : laneOf (readWord s.mem argumentWord) = some l) :
    laneCommand echo run s = working echo .done 0 .nothing (run l s) := by
  rw [laneCommand, inRunning_running h]
  rw [hl]

theorem laneCommand_unnamed {echo : Word} {run : Lane → State → State} {s : State} (h : s.partState = .running)
    (hl : laneOf (readWord s.mem argumentWord) = none) : laneCommand echo run s = working echo .badArgument 0 .nothing s := by
  rw [laneCommand, inRunning_running h]
  rw [hl]

theorem commandLaneHold_unnamed {s : State} (h : s.partState = .running) (hl : laneOf (readWord s.mem argumentWord) = none) :
    commandLaneHold s = working 5 .badArgument 0 .nothing s := laneCommand_unnamed h hl

theorem commandLaneRelease_unnamed {s : State} (h : s.partState = .running) (hl : laneOf (readWord s.mem argumentWord) = none) :
    commandLaneRelease s = working 6 .badArgument 0 .nothing s := laneCommand_unnamed h hl

theorem outputDrive_unnamed {s : State} (h : s.partState = .running) (hn : outputOf (readWord s.mem argumentWord) = none) :
    commandOutputDrive s = working 7 .badArgument 0 .nothing s := by
  rw [commandOutputDrive, inRunning_running h]
  rw [hn]

theorem outputRelease_unnamed {s : State} (h : s.partState = .running) (hn : outputOf (readWord s.mem argumentWord) = none) :
    commandOutputRelease s = working 8 .badArgument 0 .nothing s := by
  rw [commandOutputRelease, inRunning_running h]
  rw [hn]

theorem commandStart_running {s : State} (h : s.partState = .running) : commandStart s = working 1 .wrongState 0 .nothing s :=
  if_neg (by rw [h]; exact PartState.noConfusion)

/-- R16. APPLY is WORKING towards the result of its checks. -/
theorem commandApply_eq (s : State) : commandApply s = { s with
    working := some
      (if s.partState = .running then
        match startOnlyDiffers s.mem s.settings, badApply s.mem with
        | some a, _ => { echo := 2, code := .startOnly, detail := BitVec.ofNat 16 a, finish := .nothing }
        | none, some a => { echo := 2, code := .badSetting, detail := BitVec.ofNat 16 a, finish := .nothing }
        | none, none => { echo := 2, code := .done, detail := 0, finish := .takeSettings (readSettings s.mem) }
      else { echo := 2, code := .wrongState, detail := 0, finish := .nothing }) } := by
  unfold commandApply inRunning
  by_cases h : s.partState = .running
  · rw [if_pos h, if_pos h]
    dsimp only
    cases startOnlyDiffers s.mem s.settings <;> cases badApply s.mem <;> rfl
  · rw [if_neg h, if_neg h]
    rfl

theorem takeCommand_unknown {v : Word} (h : (Instr.unknownCommand v).wellFormed = true) (s : State) :
    takeCommand v s = working v .unknown 0 .nothing s := by
  obtain hv | hv : v = 0 ∨ 8 < v.toNat := by
    simpa only [Instr.wellFormed, Bool.or_eq_true, beq_iff_eq, decide_eq_true_eq] using h
  · subst hv
    rfl
  · unfold takeCommand
    split
    case h_9 => rfl
    all_goals omega

/-- Settles O12: the checks find the first word out of range, and each command whose check fails is WORKING towards its result. -/
theorem commandsThatFailTheirChecks : Obligations.CommandsThatFailTheirChecks := by
  refine ⟨fun m set => ⟨startOnlyDiffers_first m set, badApply_first m, readSettings_held m⟩,
    fun s hw => ⟨fun hc c v hcv => ?_, fun hr => ?_, fun hr hl c v hcv => ?_, fun hr hn c v hcv => ?_, fun v hwf hi => ?_, fun hi => ?_⟩⟩
  · have hi : s.partState ≠ .initialising := by rw [hc]; exact PartState.noConfusion
    simp only [List.mem_cons, Prod.mk.injEq, List.not_mem_nil, or_false] at hcv
    obtain ⟨rfl, rfl⟩ | ⟨rfl, rfl⟩ | ⟨rfl, rfl⟩ | ⟨rfl, rfl⟩ := hcv
    · exact (exec_laneHold hi hw).trans (congrArg _ (commandLaneHold_config hc))
    · exact (exec_laneRelease hi hw).trans (congrArg _ (commandLaneRelease_config hc))
    · exact (exec_outputDrive hi hw).trans (congrArg _ (commandOutputDrive_config hc))
    · exact (exec_outputRelease hi hw).trans (congrArg _ (commandOutputRelease_config hc))
  · have hi : s.partState ≠ .initialising := by rw [hr]; exact PartState.noConfusion
    exact (exec_start hi hw).trans (congrArg _ (commandStart_running hr))
  · have hi : s.partState ≠ .initialising := by rw [hr]; exact PartState.noConfusion
    have named (v : Word) : laneOf (readWord (writeWord s.mem commandWord v) argumentWord) = none := by
      rw [readArgument_command, hl]
    simp only [List.mem_cons, Prod.mk.injEq, List.not_mem_nil, or_false] at hcv
    obtain ⟨rfl, rfl⟩ | ⟨rfl, rfl⟩ := hcv
    · exact (exec_laneHold hi hw).trans (congrArg _ (commandLaneHold_unnamed hr (named 5)))
    · exact (exec_laneRelease hi hw).trans (congrArg _ (commandLaneRelease_unnamed hr (named 6)))
  · have hi : s.partState ≠ .initialising := by rw [hr]; exact PartState.noConfusion
    have named (v : Word) : outputOf (readWord (writeWord s.mem commandWord v) argumentWord) = none := by
      rw [readArgument_command, hn]
    simp only [List.mem_cons, Prod.mk.injEq, List.not_mem_nil, or_false] at hcv
    obtain ⟨rfl, rfl⟩ | ⟨rfl, rfl⟩ := hcv
    · exact (exec_outputDrive hi hw).trans (congrArg _ (outputDrive_unnamed hr (named 7)))
    · exact (exec_outputRelease hi hw).trans (congrArg _ (outputRelease_unnamed hr (named 8)))
  · exact (exec_unknown hi hw v).trans (congrArg _ (takeCommand_unknown hwf _))
  · exact (exec_apply hi hw).trans (congrArg _ (commandApply_eq _))

end Sys2Proof.Machine
end

section
/-! The journal taken word (R6, R169, R171). -/

namespace Sys2Proof.Machine

/-- R169, R171. A write of the journal taken word, as it is taken: INT follows in RUNNING in LEVEL mode alone. -/
theorem giveBack_lineSettings (s : State) (j : Journal) (t : Word) :
    j.giveBack s.lineSettings t =
      if (j.written - t).toNat ≤ 128 then
        { j with
          taken := t
          int := if s.partState = .running ∧ s.settings.intEnable = true ∧ s.settings.intPulse = false then
              decide (j.written ≠ t) else j.int }
      else j := by
  have outstanding : decide (0 < ({ j with taken := t } : Journal).outstanding) = decide (j.written ≠ t) :=
    decide_eq_decide.2 (show 0 < (j.written - t).toNat ↔ j.written ≠ t by bv_omega)
  unfold Journal.giveBack
  by_cases h : (j.written - t).toNat ≤ 128
  · rw [if_pos h, if_pos h]
    by_cases hr : s.partState = .running
    · rw [lineSettings_running hr]
      dsimp only
      rw [outstanding]
      cases he : s.settings.intEnable <;> cases hp : s.settings.intPulse <;> simp [hr]
    · simp [hr]
  · rw [if_neg h, if_neg h]

/-- R168, R169. The claim at the head is taken as it is with no write waiting; the writes then reached are taken, the others come
nearer. -/
theorem takeHead_eq (set : Settings) (now : Clock) (c : JournalClaim) (rest : List JournalClaim) (j : Journal) :
    j.takeHead set now c rest = (j.writes.filter (fun w => w.behind ≤ 1)).foldl (fun k w => k.giveBack set w.value)
      { ({ j with writes := [] } : Journal).takeHead set now c rest with
        writes := (j.writes.filter (fun w => 1 < w.behind)).map (fun w => { w with behind := w.behind - 1 }) } := by
  have reached : (·.behind == 0) ∘ WaitingWrite.nearer = fun w => decide (w.behind ≤ 1) := by
    funext w
    rw [Bool.eq_iff_iff]
    simp [WaitingWrite.nearer, Nat.sub_eq_zero_iff_le]
  have waiting : (·.behind != 0) ∘ WaitingWrite.nearer = fun w => decide (1 < w.behind) := by
    funext w
    rw [Bool.eq_iff_iff]
    simp [WaitingWrite.nearer, Nat.sub_eq_zero_iff_le]
  rw [takeHead_none set now c rest ({ j with writes := [] } : Journal) rfl]
  unfold Journal.takeHead Journal.takeWrites
  have head := take_writes set now c (j.writes.map WaitingWrite.nearer) { j with claims := rest, writes := [] }
  rw [show ({ j with claims := rest, writes := j.writes.map WaitingWrite.nearer } : Journal).take set now c = _ from head]
  dsimp only
  rw [List.filter_map, List.filter_map, List.foldl_map, reached, waiting]
  rfl

theorem exec_journalClaim {s : State} {c : JournalClaim} {rest : List JournalClaim} (h : s.journal.claims = c :: rest) :
    exec .journalClaim s = .next { s with journal := s.journal.takeHead s.lineSettings s.clock c rest } := by
  simp only [exec, execJournalClaim, h]

/-- Settles O16: the store, and the three ways in which the Journal Writer takes the write. -/
theorem journalTakenGivesBack : Obligations.JournalTakenGivesBack := by
  refine fun s t => ⟨fun hi hc => ?_, fun hi hc => ?_, fun c rest give hc hgive => ?_⟩
  · rw [exec_of_hostWriteOf rfl, hostWrite_journalTaken t s hi, handWrite_idle _ _ _ hc, giveBack_lineSettings]
  · rw [exec_of_hostWriteOf rfl, hostWrite_journalTaken t s hi, handWrite_waits _ _ _ hc]
  · have agree : give = fun j v => j.giveBack s.lineSettings v := by
      funext j v
      rw [hgive, giveBack_lineSettings]
    subst agree
    refine ⟨({ s.journal with writes := [] } : Journal).takeHead s.lineSettings s.clock c rest, ?_, ?_⟩
    · exact exec_journalClaim (s := { s with journal := { s.journal with writes := [] } }) hc
    · rw [exec_journalClaim hc, takeHead_eq]

end Sys2Proof.Machine
end

section
/-! CLEAR-COUNTS (R17, R51). -/

namespace Sys2Proof.Machine

/-- R51. What clearing the noted flags leaves, beside the removals that an earlier tick has made due. -/
theorem clearNoted_frame (s : State) :
    (clearNoted s).working = s.working ∧ (clearNoted s).laneA = s.laneA ∧ (clearNoted s).laneB = s.laneB
      ∧ (clearNoted s).bayGroup = s.bayGroup ∧ (clearNoted s).counters = s.counters ∧ (clearNoted s).subs = s.subs
      ∧ (clearNoted s).pubs = s.pubs ∧ (clearNoted s).rules = s.rules ∧ (clearNoted s).journal = s.journal
      ∧ (clearNoted s).outputs = s.outputs ∧ (clearNoted s).inputs = s.inputs ∧ (clearNoted s).watchList = s.watchList
      ∧ (clearNoted s).mem = s.mem := by
  unfold clearNoted
  simp

/-- R51. With no removal due, both noted flags of every entry clear. -/
theorem clearNoted_table {s : State} (h : s.ageingDue = []) (p : Fin 512) :
    (clearNoted s).table[p] = s.table[p].map (fun (e : Entry) => { e with echoNoted := false, clashNoted := false }) := by
  unfold clearNoted
  rw [settleAgeing_none h]
  simp

/-- Settles O13: the groups are cleared by `clearGroups`, the noted flags by `clearNoted`. -/
theorem clearCountsClearsTheCounts : Obligations.ClearCountsClearsTheCounts := by
  intro s hi hw
  obtain ⟨-, hA, hB, hbay, hcnt, hsubs, hpubs, hrules, hj, hout, hin, hwatch, hmem⟩ :=
    clearNoted_frame (clearGroups { s with mem := writeWord s.mem commandWord 3 })
  refine ⟨_, exec_clearCounts hi hw, rfl, fun l => ?_, congrArg BayGroup.edition hbay, fun p => ?_, hcnt, fun h p => ?_, hsubs,
    hpubs, hrules, hj, hout, hin, hwatch, hmem⟩
  · cases l
    · exact congrArg LanePort.group hA
    · exact congrArg LanePort.group hB
  · refine (congrArg (fun g : BayGroup => g.ports[p]) hbay).trans ?_
    simp [clearGroups, BayBlock.cleared]
  · exact clearNoted_table (s := clearGroups { s with mem := writeWord s.mem commandWord 3 }) h p

end Sys2Proof.Machine
end

section
/-! The codes of chapter 12, as the host reads them. -/

namespace Sys2Proof.Machine

theorem high_low (x : Long) : (high x ++ low x : Long) = x := by
  unfold high low
  ext i hi
  simp only [BitVec.getElem_append, BitVec.getElem_extractLsb']
  split <;> simp_all [BitVec.getLsbD_eq_getElem]

/-- Section 12.5. A stream's subject word is its identifier under the type code 1. -/
theorem subjectWord_stream {id : Word} (h : id.toNat < 4096) : subjectWord (.stream id) = 0x1000 + id := by
  have kept : id &&& 0x0FFF = id := BitVec.eq_of_toNat_eq (Nat.and_two_pow_sub_one_of_lt_two_pow (n := 12) h)
  refine BitVec.eq_of_toNat_eq ?_
  rw [subjectWord, kept, BitVec.toNat_or, BitVec.toNat_add, Nat.mod_eq_of_lt]
  · exact (Nat.two_pow_add_eq_or_of_lt (i := 12) h 1).symm
  · exact Nat.lt_of_lt_of_le (Nat.add_lt_add_left h 4096) (by decide)

/-! ## Bits and pairs of words -/

theorem getD_append_zeros (ws : List Word) (n i : Nat) : (ws ++ List.replicate n 0).getD i 0 = ws.getD i 0 := by
  rcases Nat.lt_or_ge i ws.length with h | h
  · rw [List.getD_append _ _ _ _ h]
  · rw [List.getD_append_right _ _ _ _ h, List.getD_eq_default _ _ h]
    simp

/-! ## What the host reads, region by region -/

/-- Section 12.3. The words 0x0100 to 0x01FF, as they are laid out. -/
theorem readsFrom_status {s : State} {a : Nat} {ws : List Word} (hs : s.partState ≠ .initialising) (ha : 0x0100 ≤ a)
    (hb : a + ws.length ≤ 0x0200) (hws : ∀ i, i < ws.length → statusWord s (a + i) = ws.getD i 0) : ReadsFrom s a ws := by
  refine readsFrom_of_shown s a ws hs (by omega) fun i hi => ?_
  rw [place_status (a + i) (by omega) (by omega)]
  exact ⟨Side.noConfusion, hws i hi⟩

/-- The same, for a short range of words, given together. -/
theorem readsFrom_statusList {s : State} {a : Nat} {ws : List Word} (hs : s.partState ≠ .initialising) (ha : 0x0100 ≤ a)
    (hb : a + ws.length ≤ 0x0200) (hws : (List.range ws.length).map (fun i => statusWord s (a + i)) = ws) :
    ReadsFrom s a ws := by
  refine readsFrom_status hs ha hb fun i hi => ?_
  rw [List.getD_eq_getElem _ _ hi]
  calc statusWord s (a + i) = ((List.range ws.length).map (fun i => statusWord s (a + i)))[i]'(by simpa using hi) := by simp
    _ = ws[i] := by simp only [hws]

theorem statusWord_counters (s : State) {i : Nat} (h : i < 40) :
    statusWord s (0x0118 + i) = (counterWords s.counters).getD i 0 := by
  unfold statusWord
  simp only [Bool.and_eq_true, decide_eq_true_eq]
  iterate 10 rw [if_neg (by omega)]
  split
  · rw [Nat.add_sub_cancel_left]
  · next hi =>
    iterate 6 rw [if_neg (by omega)]
    exact (List.getD_eq_default _ _ (show 30 ≤ i by omega)).symm

theorem statusWord_laneA (s : State) {i : Nat} (h : i < 32) :
    statusWord s (0x0140 + i) = (laneWords s.laneA.group).getD i 0 := by
  unfold statusWord
  simp only [Bool.and_eq_true, decide_eq_true_eq]
  iterate 11 rw [if_neg (by omega)]
  split
  · rw [Nat.add_sub_cancel_left]
  · next hi =>
    iterate 5 rw [if_neg (by omega)]
    exact (List.getD_eq_default _ _ (show 20 ≤ i by omega)).symm

theorem statusWord_laneB (s : State) {i : Nat} (h : i < 32) :
    statusWord s (0x0160 + i) = (laneWords s.laneB.group).getD i 0 := by
  unfold statusWord
  simp only [Bool.and_eq_true, decide_eq_true_eq]
  iterate 12 rw [if_neg (by omega)]
  split
  · rw [Nat.add_sub_cancel_left]
  · next hi =>
    iterate 4 rw [if_neg (by omega)]
    exact (List.getD_eq_default _ _ (show 20 ≤ i by omega)).symm

theorem statusWord_bay (s : State) (p : Fin 4) {i : Nat} (h : i < 16) :
    statusWord s (0x0190 + 16 * p.val + i) = (bayWords s.bayGroup.ports[p]).getD i 0 := by
  have hp := p.isLt
  generalize ha : 0x0190 + 16 * p.val + i = a
  have port : Fin.ofNat 4 ((a - 0x0190) / 16) = p := by
    rw [show (a - 0x0190) / 16 = p.val by omega]
    exact Fin.ofNat_val_eq_self p
  have word : (a - 0x0190) % 16 = i := by omega
  have within : 0x0190 ≤ a ∧ a ≤ 0x01CF := by omega
  unfold statusWord
  simp only [Bool.and_eq_true, decide_eq_true_eq]
  iterate 14 rw [if_neg (by omega)]
  rw [if_pos within, word]
  exact congrArg (fun q : Fin 4 => (bayWords s.bayGroup.ports[q]).getD i 0) port

theorem statusWord_contact (s : State) {i : Nat} (h : i < 28) : statusWord s (0x01E1 + i) = (contactWords s).getD i 0 := by
  unfold statusWord
  simp only [Bool.and_eq_true, decide_eq_true_eq]
  iterate 16 rw [if_neg (by omega)]
  rw [if_pos (by omega), Nat.add_sub_cancel_left]

/-- Where `f` gives `c` words for each thing, those of the thing at `i` begin at `c * i`. -/
theorem getD_flatMap {α : Type} {c : Nat} (f : α → List Word) (hf : ∀ x, (f x).length = c) (l : List α) (i : Nat)
    (hi : i < l.length) {j : Nat} (hj : j < c) : (l.flatMap f).getD (c * i + j) 0 = (f l[i]).getD j 0 := by
  induction l generalizing i with
  | nil => exact absurd hi (Nat.not_lt_zero i)
  | cons x l ih =>
    rw [List.flatMap_cons]
    cases i with
    | zero =>
      rw [Nat.mul_zero, Nat.zero_add, List.getD_append _ _ _ _ (by rw [hf]; exact hj)]
      rfl
    | succ i =>
      have here : c * (i + 1) + j = c + (c * i + j) := by rw [Nat.mul_succ]; omega
      rw [here, List.getD_append_right _ _ _ _ (by rw [hf]; omega), hf, Nat.add_sub_cancel_left,
        ih i (Nat.lt_of_succ_lt_succ hi)]
      rfl

theorem inputWords_length (i : ContactInput) : (inputWords i).length = 3 := rfl

theorem contactWords_input (s : State) (n : Fin 8) {j : Nat} (hj : j < 3) :
    (contactWords s).getD (3 * n.val + j) 0 = (inputWords s.inputs[n]).getD j 0 := by
  have hn := n.isLt
  have hlen : (s.inputs.toList.flatMap inputWords).length = 24 := by
    simp [List.length_flatMap, inputWords_length]
  rw [contactWords, List.getD_append _ _ _ _ (by omega),
    getD_flatMap inputWords inputWords_length s.inputs.toList n.val (by simp) hj]
  simp

theorem contactWords_output (s : State) (n : Fin 4) :
    (contactWords s).getD (24 + n.val) 0 = outputWord s.outputs[n] s.settings.outputs[n] := by
  have hlen : (s.inputs.toList.flatMap inputWords).length = 24 := by
    simp [List.length_flatMap, inputWords_length]
  rw [contactWords, List.getD_append_right _ _ _ _ (by omega), hlen, Nat.add_sub_cancel_left,
    List.getD_eq_getElem _ _ (by simp)]
  simp

theorem reads_directory {s : State} (hs : s.partState ≠ .initialising) :
    ReadsFrom s 0x0000 (directoryWords ++ List.replicate 33 0) := by
  have at_place (i : Nat) (hi : i < (directoryWords ++ List.replicate 33 0).length) : place (0 + i) = .directory i := by
    rw [Nat.zero_add]; exact place_directory i hi
  refine readsFrom_of_shown s 0 _ hs (by decide) fun i hi => ?_
  rw [at_place i hi, getD_append_zeros]
  exact ⟨Side.noConfusion, rfl⟩

theorem reads_control {s : State} (hs : s.partState ≠ .initialising) :
    ReadsFrom s 0x0100 ([stateWord s, s.result.echo, optResultCode s.result.code, s.result.detail, redundancyWord s,
      s.journal.written, s.journal.taken, s.journal.lost, bit s.journal.overflowPending] ++ List.replicate 7 0) :=
  readsFrom_statusList hs (by decide) (by simp) (by simp [List.range, List.range.loop, statusWord])

theorem reads_clock {s : State} (hs : s.partState ≠ .initialising) :
    ReadsFrom s 0x0110 ([s.clockGroup.edition, high s.clockGroup.clock, low s.clockGroup.clock, high s.clockGroup.seconds,
      low s.clockGroup.seconds] ++ List.replicate 3 0) :=
  readsFrom_statusList hs (by decide) (by simp) (by simp [List.range, List.range.loop, statusWord])

theorem reads_counters {s : State} (hs : s.partState ≠ .initialising) :
    ReadsFrom s 0x0118 (counterWords s.counters ++ List.replicate 10 0) := by
  have hlen : (counterWords s.counters ++ List.replicate 10 0).length = 40 := rfl
  refine readsFrom_status hs (by decide) (by omega) fun i hi => ?_
  rw [statusWord_counters s (by omega), getD_append_zeros]

theorem reads_lane {s : State} (hs : s.partState ≠ .initialising) (l : Lane) :
    ReadsFrom s (match l with | .a => 0x0140 | .b => 0x0160) (laneWords (s.lane l).group ++ List.replicate 12 0) := by
  have hlen : (laneWords (s.lane l).group ++ List.replicate 12 0).length = 32 := rfl
  cases l with
  | a =>
    refine readsFrom_status hs (by decide) (by dsimp only; omega) fun i hi => ?_
    rw [getD_append_zeros]
    exact statusWord_laneA s (by omega)
  | b =>
    refine readsFrom_status hs (by decide) (by dsimp only; omega) fun i hi => ?_
    rw [getD_append_zeros]
    exact statusWord_laneB s (by omega)

theorem reads_bayEdition {s : State} (hs : s.partState ≠ .initialising) :
    ReadsFrom s 0x0180 (s.bayGroup.edition :: List.replicate 15 0) :=
  readsFrom_statusList hs (by decide) (by simp) (by simp [List.range, List.range.loop, statusWord])

theorem reads_bay {s : State} (hs : s.partState ≠ .initialising) (p : Fin 4) :
    ReadsFrom s (0x0190 + 16 * p.val) (bayWords s.bayGroup.ports[p] ++ List.replicate 1 0) := by
  have hp := p.isLt
  have hlen : (bayWords s.bayGroup.ports[p] ++ List.replicate 1 0).length = 16 := rfl
  refine readsFrom_status hs (by omega) (by omega) fun i hi => ?_
  rw [getD_append_zeros]
  exact statusWord_bay s p (by omega)

theorem reads_contactEdition {s : State} (hs : s.partState ≠ .initialising) :
    ReadsFrom s 0x01D0 (List.replicate 16 0 ++ [s.contactEdition]) :=
  readsFrom_statusList hs (by decide) (by simp) (by simp [List.range, List.range.loop, statusWord])

theorem reads_input {s : State} (hs : s.partState ≠ .initialising) (n : Fin 8) :
    ReadsFrom s (0x01E1 + 3 * n.val) (inputWords s.inputs[n]) := by
  have hn := n.isLt
  have hlen := inputWords_length s.inputs[n]
  refine readsFrom_status hs (by omega) (by omega) fun i hi => ?_
  rw [Nat.add_assoc, statusWord_contact s (by omega)]
  exact contactWords_input s n (by omega)

theorem reads_output {s : State} (hs : s.partState ≠ .initialising) (n : Fin 4) :
    ReadsFrom s (0x01F9 + n.val) [outputWord s.outputs[n] s.settings.outputs[n]] := by
  have hn := n.isLt
  have hlen : [outputWord s.outputs[n] s.settings.outputs[n]].length = 1 := rfl
  refine readsFrom_status hs (by omega) (by omega) fun i hi => ?_
  obtain rfl : i = 0 := by omega
  rw [show 0x01F9 + n.val + 0 = 0x01E1 + (24 + n.val) by omega, statusWord_contact s (by omega)]
  exact contactWords_output s n

theorem reads_statusEnd {s : State} (hs : s.partState ≠ .initialising) : ReadsFrom s 0x01FD (List.replicate 3 0) :=
  readsFrom_statusList hs (by decide) (by simp) (by simp [List.range, List.range.loop, statusWord])

theorem reads_publication {s : State} (hs : s.partState ≠ .initialising) (k : Fin 32) :
    ReadsFrom s (0x0200 + 160 * k.val + 141) (pubWords s k) := by
  have hk := k.isLt
  refine readsFrom_of_shown s _ _ hs (Nat.le_trans (Nat.add_le_add_left (Nat.le_refl 19) _) (by omega)) fun i hi => ?_
  have hi : i < 19 := hi
  rw [Nat.add_assoc, place_pubWord k (by omega)]
  refine ⟨?_, ?_⟩
  · rw [sideOf, if_neg (by omega)]; exact Side.noConfusion
  · rw [partWord, Nat.add_sub_cancel_left]

theorem reads_rule {s : State} (hs : s.partState ≠ .initialising) (k : Fin 16) :
    ReadsFrom s (0x4600 + 16 * k.val + 12) (ruleWords s.rules[k]) := by
  have hk := k.isLt
  refine readsFrom_of_shown s _ _ hs (Nat.le_trans (Nat.add_le_add_left (Nat.le_refl 4) _) (by omega)) fun i hi => ?_
  have hi : i < 4 := hi
  rw [Nat.add_assoc, place_ruleWord k (by omega)]
  refine ⟨?_, ?_⟩
  · rw [sideOf, if_neg (by omega)]; exact Side.noConfusion
  · rw [partWord, Nat.add_sub_cancel_left]

theorem reads_journal {s : State} (hs : s.partState ≠ .initialising) (p : Fin 128) {ws : List Word} (hw : ws.length = 8)
    (h : ∀ i, (journalWords s.journal.ring[p]).getD i 0 = ws.getD i 0) : ReadsFrom s (0x4200 + 8 * p.val) ws := by
  have hp := p.isLt
  refine readsFrom_of_shown s _ _ hs (by omega) fun i hi => ?_
  rw [place_journal p i (by omega)]
  exact ⟨Side.noConfusion, h i⟩

theorem reads_record {s : State} (hs : s.partState ≠ .initialising) (p : Fin 512) {ws : List Word} (hw : ws.length = 16)
    (h : recordWords s.imageCounts[p] s.table[p] = ws) : ReadsFrom s (0x4800 + 16 * p.val) ws := by
  have hp := p.isLt
  refine readsFrom_of_shown s _ _ hs (by omega) fun i hi => ?_
  rw [place_streamTable p i (by omega)]
  exact ⟨Side.noConfusion, by rw [partWord, h]⟩

theorem reads_subscription {s : State} (hs : s.partState ≠ .initialising) (k : Fin 64) :
    ReadsFrom s (0x1600 + 176 * k.val + 16) (slotWords s.subs[k].status
      ++ (List.range 128).map (contentWord s.subs[k].status.content) ++ List.replicate 8 0) := by
  have hk := k.isLt
  have hlen : (slotWords s.subs[k].status ++ (List.range 128).map (contentWord s.subs[k].status.content)
      ++ List.replicate 8 0).length = 160 := by simp [slotWords]
  refine readsFrom_of_shown s _ _ hs (by omega) fun i hi => ?_
  rw [Nat.add_assoc, place_subWord k (by omega)]
  refine ⟨?_, ?_⟩
  · rw [sideOf, if_neg (by omega)]
    split <;> exact Side.noConfusion
  · rw [partWord, getD_append_zeros]
    have hslot : (slotWords s.subs[k].status).length = 24 := rfl
    by_cases h1 : i < 24
    · rw [if_pos (by omega), List.getD_append _ _ _ _ (by omega), Nat.add_sub_cancel_left]
    · rw [if_neg (by omega), List.getD_append_right _ _ _ _ (by omega), hslot, show 16 + i - 40 = i - 24 by omega]
      by_cases h2 : i < 152
      · rw [if_pos (by omega), List.getD_eq_getElem _ _ (by simp; omega)]
        simp
      · rw [if_neg (by omega), List.getD_eq_default _ _ (by simp; omega)]

end Sys2Proof.Machine
end

section
/-! What the host reads (R1, chapter 12). -/

namespace Sys2Proof.Machine

/-! ## A plain host write (R3, R7) -/

theorem isTrigger_eq_false {a : Addr} (h : a.isTrigger = false) :
    a.toNat ≠ 0x40 ∧ a.toNat ≠ 0x42
      ∧ (0x200 ≤ a.toNat → a.toNat < 0x1600 → (a.toNat - 0x200) % 160 ≠ 11 ∧ (a.toNat - 0x200) % 160 ≠ 12)
      ∧ (0x1600 ≤ a.toNat → a.toNat < 0x4200 → (a.toNat - 0x1600) % 176 ≠ 7)
      ∧ (0x4600 ≤ a.toNat → a.toNat < 0x4700 → (a.toNat - 0x4600) % 16 ≠ 11) := by
  simp only [Addr.isTrigger, Bool.or_eq_false_iff, Bool.and_eq_false_iff, beq_eq_false_iff_ne, decide_eq_false_iff_not] at h
  omega

/-- The map of section 1.2, region by region. -/
theorem place_elim (P : Place → Prop) (a : Nat) (directory : a < 0x0040 → P (.directory a))
    (command : a = 0x0040 → P .command) (argument : a = 0x0041 → P .argument) (taken : a = 0x0042 → P .journalTaken)
    (settings : P .hostSettings) (status : P (.status a))
    (publication : 0x0200 ≤ a → a < 0x1600 → ∀ k, P (.publication k ((a - 0x0200) % 160)))
    (subscription : 0x1600 ≤ a → a < 0x4200 → ∀ k, P (.subscription k ((a - 0x1600) % 176)))
    (journal : ∀ p off, P (.journal p off)) (rule : 0x4600 ≤ a → a < 0x4700 → ∀ k, P (.rule k ((a - 0x4600) % 16)))
    (contacts : P .contactSettings) (outputs : P .outputSettings) (table : ∀ p off, P (.streamTable p off))
    (nobody : P .nobody) : P (place a) := by
  unfold place
  exact iteInduction directory fun _ => iteInduction command fun _ => iteInduction argument fun _ =>
    iteInduction taken fun _ => iteInduction (fun _ => settings) fun _ => iteInduction (fun _ => status) fun h1 =>
    iteInduction (fun h => publication (Nat.le_of_not_lt h1) h _) fun h2 =>
    iteInduction (fun h => subscription (Nat.le_of_not_lt h2) h _) fun _ => iteInduction (fun _ => journal _ _) fun h3 =>
    iteInduction (fun h => rule (Nat.le_of_not_lt h3) h _) fun _ => iteInduction (fun _ => contacts) fun _ =>
    iteInduction (fun _ => outputs) fun _ => iteInduction (fun _ => nobody) fun _ =>
    iteInduction (fun _ => table _ _) fun _ => nobody

theorem of_place_publication {a off : Nat} {k : Fin 32} : place a = .publication k off → 0x200 ≤ a ∧ a < 0x1600 ∧ off = (a - 0x200) % 160 := by
  refine place_elim (fun p => p = .publication k off → _) a ?_ ?_ ?_ ?_ ?_ ?_ (fun h1 h2 _ h => ?_) ?_ ?_ ?_ ?_ ?_ ?_ ?_
  case refine_7 => exact ⟨h1, h2, (Place.publication.inj h).2.symm⟩
  all_goals intros; contradiction

theorem of_place_subscription {a off : Nat} {k : Fin 64} : place a = .subscription k off → 0x1600 ≤ a ∧ a < 0x4200 ∧ off = (a - 0x1600) % 176 := by
  refine place_elim (fun p => p = .subscription k off → _) a ?_ ?_ ?_ ?_ ?_ ?_ ?_ (fun h1 h2 _ h => ?_) ?_ ?_ ?_ ?_ ?_ ?_
  case refine_8 => exact ⟨h1, h2, (Place.subscription.inj h).2.symm⟩
  all_goals intros; contradiction

theorem of_place_rule {a off : Nat} {k : Fin 16} : place a = .rule k off → 0x4600 ≤ a ∧ a < 0x4700 ∧ off = (a - 0x4600) % 16 := by
  refine place_elim (fun p => p = .rule k off → _) a ?_ ?_ ?_ ?_ ?_ ?_ ?_ ?_ ?_ (fun h1 h2 _ h => ?_) ?_ ?_ ?_ ?_
  case refine_10 => exact ⟨h1, h2, (Place.rule.inj h).2.symm⟩
  all_goals intros; contradiction

theorem of_place_command {a : Nat} : place a = .command → a = 0x40 := by
  refine place_elim (fun p => p = .command → _) a ?_ (fun h _ => ?_) ?_ ?_ ?_ ?_ ?_ ?_ ?_ ?_ ?_ ?_ ?_ ?_
  case refine_2 => exact h
  all_goals intros; contradiction

theorem of_place_journalTaken {a : Nat} : place a = .journalTaken → a = 0x42 := by
  refine place_elim (fun p => p = .journalTaken → _) a ?_ ?_ ?_ (fun h _ => ?_) ?_ ?_ ?_ ?_ ?_ ?_ ?_ ?_ ?_ ?_
  case refine_4 => exact h
  all_goals intros; contradiction

/-- R7. A word of a publication slot other than the edition word, written with no take of the slot, does no more than stand. -/
theorem watchedWrite_quiet {k : Fin 32} {off : Nat} {s : State} (ho : off ≠ 11) (h : ∀ t, s.take = some t → t.slot ≠ k) :
    watchedWrite k off s = s := by
  unfold watchedWrite
  rw [if_neg ho]
  split
  · rfl
  split
  · next t ht => rw [if_neg (h t ht)]
  · rfl

/-- R6, R7. A stored word that is no trigger, with no take of the publication slot it lies in, does nothing else. -/
theorem written_plain {a : Addr} (v : Word) {s : State} (ha : a.isTrigger = false)
    (ht : ∀ t, s.take = some t → ∀ off, place a.toNat ≠ .publication t.slot off) : written a.toNat v s = s := by
  obtain ⟨hcommand, htaken, hpub, hsub, hrule⟩ := isTrigger_eq_false ha
  unfold written
  split
  case h_1 h => exact absurd (of_place_command h) hcommand
  case h_2 h => exact absurd (of_place_journalTaken h) htaken
  case h_3 k off h =>
    obtain ⟨hlo, hhi, hoff⟩ := of_place_publication h
    obtain ⟨h11, h12⟩ := hpub hlo hhi
    rw [← hoff] at h11 h12
    rw [if_neg h12]
    exact watchedWrite_quiet h11 fun t htake hk => ht t htake _ (hk ▸ h)
  case h_4 k off h =>
    obtain ⟨hlo, hhi, hoff⟩ := of_place_subscription h
    exact if_neg (hoff ▸ hsub hlo hhi)
  case h_5 k off h =>
    obtain ⟨hlo, hhi, hoff⟩ := of_place_rule h
    exact if_neg (hoff ▸ hrule hlo hhi)
  case h_6 => rfl

/-! ## Words that join flags and codes -/

theorem stateWord_eq {s : State} (hs : s.partState ≠ .initialising) :
    stateWord s = ((if s.partState = .running then 2 else 1) ||| (if s.working.isSome then 0x0100 else 0)) := by
  unfold stateWord bitAt
  cases h : s.partState with
  | initialising => exact absurd h hs
  | config => rfl
  | running => rfl

theorem redundancyWord_eq (s : State) :
    redundancyWord s = redundancyCode s.redundancy ||| (if s.bareRoute = .b then 0x0100 else 0) := by
  unfold redundancyWord bitAt
  cases s.bareRoute <;> rfl

theorem nextDue_eq (s : State) (k : Fin 32) :
    nextDue s k = ((s.calendar.find? (fun c => c.slot == k)).map (·.due)).getD 0 := by
  unfold nextDue
  cases s.calendar.find? (fun c => c.slot == k) <;> rfl

theorem bitAt_nat (n : Nat) (b : Bool) : bitAt n b = ((if b then 1 <<< n else 0 : ℕ) : Word) := by
  cases b
  · rfl
  · exact BitVec.eq_of_toNat_eq (by simp [bitAt])

theorem ruleWords_eq (r : LinkRule) : ruleWords r =
    [high r.lastFired, low r.lastFired, r.fired,
      slotStateCode r.state ||| (reasonCode r.reason <<< 2) ||| ((if r.matching then 0x0080 else 0 : ℕ) : Word)
        ||| (r.refusals.setWidth 16 <<< 8)] := by
  rw [ruleWords, bitAt_nat]
  rfl

theorem slotWords_eq (t : SlotStatus) : slotWords t =
    [t.edition, slotStateCode t.state, reasonCode t.reason, freshnessCode t.view.fresh,
      BitVec.ofNat 16 t.view.runA ||| (if t.view.loneA then 0x0010 else 0),
      BitVec.ofNat 16 t.view.runB ||| (if t.view.loneB then 0x0010 else 0),
      (if t.mismatch then 1 else 0) ||| (if t.truncated then 2 else 0), t.seq, t.epoch.setWidth 16,
      (match t.port with | none => 0 | some q => portWord q), high t.time, low t.time, optClassCode t.cls,
      if t.test then 1 else 0, t.hold, t.repeatNo.setWidth 16, t.length, high t.deliveries, low t.deliveries, t.superseded,
      t.stale, 0, 0, 0] := by
  unfold slotWords
  cases t.port <;> rfl

/-- Section 12.6. An entry's words, with what each shows of a REMOTE entry and of a LOCAL one. -/
theorem entryWords_eq (e : Entry) (remote : Bool) (h : remote = decide (e.origin = .remote)) : entryWords e =
    [e.id,
      (match e.origin with
        | .remote => 1 <<< 14
        | .localBay b => 2 <<< 14 ||| BitVec.ofNat 16 (b.val + 1)
        | .localHost k => 3 <<< 14 ||| BitVec.ofNat 16 k.val)
        ||| (if e.configured then 1 <<< 13 else 0)
        ||| (match e.slot with | none => 0 | some k => 1 <<< 12 ||| (BitVec.ofNat 16 k.val <<< 6))
        ||| (if e.echoNoted then 1 <<< 5 else 0),
      ((if remote then (e.window.map (·.epoch)).getD 0 else e.sendEpoch).setWidth 16)
        ||| (if remote && e.window.isSome then 1 <<< 8 else 0) ||| (optClassCode e.cls <<< 9)
        ||| (freshnessCode e.fresh <<< 12) ||| (if e.clashNoted then 1 <<< 15 else 0),
      (if remote then BitVec.ofNat 16 e.recordA.run ||| (if e.recordA.lone then 1 <<< 4 else 0)
          ||| ((BitVec.ofNat 16 e.recordB.run ||| (if e.recordB.lone then 1 <<< 4 else 0)) <<< 5) else 0)
        ||| (match e.forward with | .default => 1 <<< 14 | .explicit set => set.setWidth 16 <<< 10),
      e.hold, if remote then (e.window.map (·.high)).getD 0 else e.sendNext, e.firsts, e.twins, e.repeats, e.late,
      high (e.lastAccept.getD 0), low (e.lastAccept.getD 0), high (e.longest.getD 0xFFFFFFFF),
      low (e.longest.getD 0xFFFFFFFF)] := by
  have hr : (e.origin == .remote) = remote := h.symm ▸ rfl
  unfold entryWords recordWord
  simp only [hr, bitAt_nat]
  cases e.origin <;> cases e.slot <;> cases e.forward <;> cases e.window <;> rfl

/-- Settles O5: the plain write, then what the host reads region by region, then the codes. -/
theorem hostWriteStoresWord : Obligations.HostWriteStoresWord := by
  refine ⟨fun s a v hm hs hside hplain htake => ?_, fun s hs => ⟨fun a ha => ?_, fun a ha => ?_, ?_, ?_, ?_, ?_, ?_, ?_, ?_, ?_, ?_, ?_, ?_, ?_,
    ?_, ?_, ?_, ?_, ?_⟩, ?_⟩
  · refine ⟨{ s with mem := writeWord s.mem a.toNat v }, ?_, rfl, ?_, fun b hb => ?_, fun b hb => readWord_writeWord_ne _ _ _ _ hb⟩
    · rw [exec_of_hostWriteOf rfl, hostWrite_stored _ _ _ hs hside, written_plain v hplain (s := { s with mem := writeWord s.mem a.toNat v }) htake]
    · rw [hostRead_writeWord s a v hm hs hside, if_pos rfl]
    · rw [hostRead_writeWord s a v hm hs hside, if_neg hb]
  · exact hostRead_stored s a hs (HostWord.side ha)
  · rw [hostRead_shown s a hs, place_nobody _ (ha.imp_left fun ⟨h1, h2⟩ => ⟨h1, by omega⟩)]
    · rfl
    · rw [sideOf_nobody (.inr ha)]; exact Side.noConfusion
  · exact reads_directory hs
  · have h := reads_control hs
    rw [stateWord_eq hs, redundancyWord_eq] at h
    exact h
  · exact stateWord_eq hs
  · exact reads_clock hs
  · rintro c rfl
    exact reads_counters hs
  · rintro l g rfl
    exact reads_lane hs l
  · exact reads_bayEdition hs
  · rintro p b rfl
    exact reads_bay hs p
  · exact reads_contactEdition hs
  · exact reads_statusEnd hs
  · rintro n i rfl
    exact reads_input hs n
  · exact fun n => reads_output hs n
  · rintro k p due rfl rfl
    rw [← nextDue_eq]
    exact reads_publication hs k
  · rintro k t rfl
    exact slotWords_eq s.subs[k].status ▸ reads_subscription hs k
  · intro p
    cases h : s.journal.ring[p] with
    | none => exact reads_journal hs p rfl fun i => by rw [h]; exact (getD_append_zeros [] 8 i).symm
    | some e => exact reads_journal hs p rfl fun i => by rw [h]; rfl
  · rintro k r rfl
    exact ruleWords_eq s.rules[k] ▸ reads_rule hs k
  · rintro p n rfl
    refine ⟨fun h => ?_, fun e remote h hr => ?_⟩
    · exact reads_record hs p rfl (by rw [h]; rfl)
    · exact reads_record hs p rfl (by rw [h, recordWords, entryWords_eq e remote hr]; rfl)
  · exact ⟨high_low, rfl, rfl, rfl, rfl, rfl, rfl, rfl, rfl, rfl, rfl, fun id => subjectWord_stream, rfl, by decide, by decide,
      by decide, by decide, by decide, by decide, rfl, rfl, fun k => rfl, rfl, rfl, rfl, rfl, rfl, fun _ _ _ _ _ _ _ _ => rfl,
      fun _ _ => rfl, fun _ _ _ => rfl, fun _ _ => ⟨rfl, rfl⟩, fun l _ => by cases l <;> rfl, rfl, rfl, rfl, rfl,
      fun _ => rfl, fun _ => rfl, fun _ => rfl⟩

end Sys2Proof.Machine
end

section
/-! LANE-HOLD and LANE-RELEASE (R14, R94, R95, R98, R99). -/

namespace Sys2Proof.Machine

/-! ## A lane's change of state -/

/-- R96, R97. What a lane's port keeps as the lane becomes HELD, and what it flushes. -/
theorem moveLane_held (l : Lane) (c : LaneCause) (s : State) :
    ((moveLane l .held c id s).lane l).group.state = .held ∧ ((moveLane l .held c id s).lane l).group.lone = 0
      ∧ ((moveLane l .held c id s).lane l).cycle = (s.lane l).cycle + 1 ∧ ((moveLane l .held c id s).lane l).urgent = []
      ∧ ((moveLane l .held c id s).lane l).normal = [] ∧ ((moveLane l .held c id s).lane l).wire = (s.lane l).wire
      ∧ ((moveLane l .held c id s).lane l).group.flushed
          = (s.lane l).group.flushed + BitVec.ofNat 32 ((s.lane l).urgent.length + (s.lane l).normal.length)
      ∧ ((moveLane l .held c id s).lane l).provingEnds = none := by
  rw [moveLane_lane_self]
  simp [LanePort.entered, LaneState.carries, LanePort.flushes]

theorem moveLane_proving (l : Lane) (c : LaneCause) (s : State) :
    ((moveLane l .proving c id s).lane l).group.state = .proving
      ∧ ((moveLane l .proving c id s).lane l).provingEnds = some (s.clock + secs s.settings.provingPeriod) := by
  rw [moveLane_lane_self]
  simp [LanePort.entered, LaneState.carries]

theorem moveLane_down (l : Lane) (c : LaneCause) (s : State) :
    ((moveLane l .down c id s).lane l).group.state = .down ∧ ((moveLane l .down c id s).lane l).cycle = (s.lane l).cycle + 1
      ∧ ((moveLane l .down c id s).lane l).provingEnds = none := by
  rw [moveLane_lane_self]
  simp [LanePort.entered, LaneState.carries]

/-- R96. A lane that becomes HELD is handed to Twin Watch for its cleanup, and its notice to the engine. -/
theorem moveLane_held_handed (l : Lane) (c : LaneCause) (f : LaneGroup → LaneGroup) (s : State) :
    (moveLane l .held c f s).cleanups = s.cleanups ++ [l] ∧ (moveLane l .held c f s).laneNotices = s.laneNotices ++ [l] := by
  unfold moveLane enterState
  simp [LaneState.carries]

/-- R92. The longest delay of a lane starts over as it becomes PROVING. -/
theorem moveLane_proving_longest (l : Lane) (c : LaneCause) (f : LaneGroup → LaneGroup) (s : State) :
    (moveLane l .proving c f s).counters.longest l = 0 := by
  unfold moveLane enterState
  cases l <;> simp [Counters.longest, Counters.setLongest]

/-- R98, R99. What the rest of the part is told of a lane's change of state in RUNNING. -/
theorem moveLane_told (l : Lane) (n : LaneState) (c : LaneCause) {s : State} (h : s.partState = .running) :
    (moveLane l n c id s).redundancy
        = redundancyOf (moveLane l n c id s).laneA.group.state (moveLane l n c id s).laneB.group.state
      ∧ (moveLane l n c id s).journal.claims = s.journal.claims
          ++ [{ kind := .laneVerdict, subject := .lane l, time := s.clock
                d1 := (laneStateCode (s.lane l).group.state <<< 8) ||| laneStateCode n, d2 := (s.lane l).group.lone
                d3 := laneCauseCode c }]
          ++ (if (moveLane l n c id s).redundancy = s.redundancy then [] else
              [{ kind := .redundancy, subject := .lane l, time := s.clock, d1 := redundancyCode s.redundancy
                 d2 := redundancyCode (moveLane l n c id s).redundancy, d3 := 0 }])
      ∧ (moveLane l n c id s).events = s.events ++ [.lane l n]
          ++ (if (moveLane l n c id s).redundancy = s.redundancy then [] else [.redundancy (moveLane l n c id s).redundancy]) := by
  refine ⟨moveLane_redundancy .., moveLane_claims .., ?_⟩
  rw [moveLane_events, if_pos h, List.append_assoc]

/-! ## The two commands -/

theorem holdLane_held {l : Lane} {s : State} (h : (s.lane l).group.state = .held) : holdLane l s = s := if_pos h

theorem holdLane_carried {l : Lane} {s : State} (h : (s.lane l).group.state ≠ .held) :
    holdLane l s = moveLane l .held .laneHold id s := if_neg h

theorem releaseLane_carried {l : Lane} {c : LaneCause} {s : State} (h : (s.lane l).group.state ≠ .held) :
    releaseLane l c s = s := if_neg h

theorem releaseLane_up {l : Lane} {c : LaneCause} {s : State} (h : (s.lane l).group.state = .held)
    (hl : (s.lane l).group.link = true) : releaseLane l c s = moveLane l .proving c id s := by
  rw [releaseLane, if_pos h, if_pos hl]

theorem releaseLane_down {l : Lane} {c : LaneCause} {s : State} (h : (s.lane l).group.state = .held)
    (hl : (s.lane l).group.link = false) : releaseLane l c s = moveLane l .down c id s := by
  rw [releaseLane, if_pos h, hl]
  rfl

/-- Settles O14: a lane command whose argument names a lane ends in `holdLane` or `releaseLane`, which move the lane. -/
theorem laneCommandsMoveTheLane : Obligations.LaneCommandsMoveTheLane := by
  refine ⟨fun w l => (laneOf_iff w l).trans (by cases l <;> rfl), fun s l announced hr hw hl hann => ?_⟩
  have hi : s.partState ≠ .initialising := by rw [hr]; exact PartState.noConfusion
  have named (v : Word) : laneOf (readWord (writeWord s.mem commandWord v) argumentWord) = some l := by
    rw [readArgument_command, hl]
  have hold : exec .laneHold s = .next (working 5 .done 0 .nothing (holdLane l { s with mem := writeWord s.mem commandWord 5 })) :=
    (exec_laneHold hi hw).trans (congrArg _ (laneCommand_named hr (named 5)))
  have release : exec .laneRelease s = .next (working 6 .done 0 .nothing
      (releaseLane l .laneRelease { s with mem := writeWord s.mem commandWord 6 })) :=
    (exec_laneRelease hi hw).trans (congrArg _ (laneCommand_named hr (named 6)))
  refine ⟨⟨_, hold, (holdLane_spine l _).keeps_mem, rfl, fun h => ?_, fun h => ?_⟩,
    ⟨_, release, (releaseLane_spine l _ _).keeps_mem, rfl, fun h => ?_, fun h hlink => ?_, fun h hlink => ?_⟩⟩
  · rw [holdLane_held (s := { s with mem := writeWord s.mem commandWord 5 }) h]
    rfl
  · rw [holdLane_carried (s := { s with mem := writeWord s.mem commandWord 5 }) h]
    obtain ⟨hstate, hlone, hcycle, hurgent, hnormal, hwire, hflushed, hends⟩ :=
      moveLane_held l .laneHold { s with mem := writeWord s.mem commandWord 5 }
    obtain ⟨hcleanups, hnotices⟩ := moveLane_held_handed l .laneHold id { s with mem := writeWord s.mem commandWord 5 }
    exact ⟨hstate, hlone, hcycle, hurgent, hnormal, hwire, hflushed, hends, moveLane_lane_other .., hcleanups, hnotices,
      (hann ..).2 (moveLane_told l .held .laneHold (s := { s with mem := writeWord s.mem commandWord 5 }) hr)⟩
  · rw [releaseLane_carried (s := { s with mem := writeWord s.mem commandWord 6 }) h]
    rfl
  · rw [releaseLane_up (s := { s with mem := writeWord s.mem commandWord 6 }) h hlink]
    obtain ⟨hstate, hends⟩ := moveLane_proving l .laneRelease { s with mem := writeWord s.mem commandWord 6 }
    have told := moveLane_told l .proving .laneRelease (s := { s with mem := writeWord s.mem commandWord 6 }) hr
    rw [show (({ s with mem := writeWord s.mem commandWord 6 } : State).lane l).group.state = .held from h] at told
    exact ⟨hstate, hends, moveLane_proving_longest .., moveLane_lane_other .., (hann ..).2 told⟩
  · rw [releaseLane_down (s := { s with mem := writeWord s.mem commandWord 6 }) h hlink]
    obtain ⟨hstate, hcycle, hends⟩ := moveLane_down l .laneRelease { s with mem := writeWord s.mem commandWord 6 }
    have told := moveLane_told l .down .laneRelease (s := { s with mem := writeWord s.mem commandWord 6 }) hr
    rw [show (({ s with mem := writeWord s.mem commandWord 6 } : State).lane l).group.state = .held from h] at told
    exact ⟨hstate, hcycle, hends, moveLane_lane_other .., (hann ..).2 told⟩

end Sys2Proof.Machine
end

section
/-! OUTPUT-DRIVE, OUTPUT-RELEASE and the pulse timer (R14, R160, R161). -/

namespace Sys2Proof.Machine

/-- R160. The OUTPUT-CHANGE that tells of output `n` leaving the state `driven` by `cause`. -/
def outputChanged (n : Fin 4) (driven : Bool) (cause : OutputCause) (now : Clock) : JournalClaim :=
  { kind := .outputChange, subject := .output n, time := now, d1 := bit driven, d2 := bit (!driven)
    d3 := outputCauseCode cause }

theorem outputClaim_eq (n : Fin 4) (driven : Bool) (cause : OutputCause) (s : State) : outputClaim n driven cause s =
    { s with journal := { s.journal with claims := s.journal.claims ++ [outputChanged n (!driven) cause s.clock] } } := by
  cases driven <;> rfl

/-- An update of the contact status group moves its edition word, beside what `f` does. -/
theorem updateContacts_eq (f : State → State) (s : State) : ∃ e, updateContacts f s = { f s with contactEdition := e } := by
  unfold updateContacts
  dsimp only
  split
  · exact ⟨(f s).contactEdition, rfl⟩
  · exact ⟨s.contactEdition + 2, rfl⟩

/-- A change of one output changes the contact status group alone. -/
theorem updateContacts_output (n : Fin 4) (f : TripOutput → TripOutput) (s : State) :
    ∃ e, updateContacts (·.modifyOutput n f) s = { s with outputs := modifyAt s.outputs n f, contactEdition := e } :=
  updateContacts_eq (·.modifyOutput n f) s

/-- R160. A DRIVE in RUNNING, with its OUTPUT-CHANGE where the output was not driven. -/
theorem driveOutput_eq (n : Fin 4) (cause : OutputCause) {s : State} (h : s.partState = .running) :
    ∃ e, driveOutput n cause s = { s with
      outputs := modifyAt s.outputs n (TripOutput.drive s.settings.outputs[n] s.clock), contactEdition := e
      journal := { s.journal with claims := s.journal.claims
        ++ if s.outputs[n].driven then [] else [outputChanged n false cause s.clock] } } := by
  obtain ⟨e, he⟩ := updateContacts_output n (TripOutput.drive s.settings.outputs[n] s.clock) s
  refine ⟨e, ?_⟩
  rw [driveOutput, if_pos h, he]
  cases hd : s.outputs[n].driven
  · exact outputClaim_eq ..
  · simp

/-- R160. A RELEASE of a driven output, with its OUTPUT-CHANGE. -/
theorem releaseOutput_driven (n : Fin 4) (cause : OutputCause) {s : State} (h : s.outputs[n].driven = true) :
    ∃ e, releaseOutput n cause s = { s with
      outputs := modifyAt s.outputs n TripOutput.released, contactEdition := e
      journal := { s.journal with claims := s.journal.claims ++ [outputChanged n true cause s.clock] } } := by
  obtain ⟨e, he⟩ := updateContacts_output n TripOutput.released s
  refine ⟨e, ?_⟩
  rw [releaseOutput, if_pos h, he]
  exact outputClaim_eq ..

theorem releaseOutput_released (n : Fin 4) (cause : OutputCause) {s : State} (h : s.outputs[n].driven = false) :
    releaseOutput n cause s = s := by
  rw [releaseOutput, h]
  rfl

theorem modifyAt_outputs_self (v : Vector TripOutput 4) (n : Fin 4) (f : TripOutput → TripOutput) :
    (modifyAt v n f)[n] = f v[n] := modifyAt_get_self v n f

theorem modifyAt_outputs_ne (v : Vector TripOutput 4) {n m : Fin 4} (f : TripOutput → TripOutput) (h : m ≠ n) :
    (modifyAt v n f)[m] = v[m] := modifyAt_get_ne v n m f (Ne.symm h)

/-- R160. A reached pulse timer releases its output. -/
theorem pulseExpired_reached {n : Fin 4} {s : State} {due : Clock} (h : s.outputs[n].pulseEnds = some due)
    (hd : reached s.clock due = true) : pulseExpired n s = releaseOutput n .pulseExpiry s := by
  unfold pulseExpired
  rw [h]
  exact if_pos hd

section
variable {s : State} {n : Fin 4} (hr : s.partState = .running) (hn : outputOf (readWord s.mem argumentWord) = some n)
include hr hn

theorem outputDrive_forbidden (hp : s.settings.outputs[n].permitted = false) :
    commandOutputDrive s = working 7 .badArgument 0 .nothing s := by
  rw [commandOutputDrive, inRunning_running hr, hn]
  exact if_neg (by rw [hp]; exact Bool.false_ne_true)

theorem outputDrive_permitted (hp : s.settings.outputs[n].permitted = true) :
    commandOutputDrive s = working 7 .done 0 .nothing (driveOutput n .outputDrive s) := by
  rw [commandOutputDrive, inRunning_running hr, hn]
  exact if_pos hp

theorem outputRelease_named : commandOutputRelease s = working 8 .done 0 .nothing (releaseOutput n .outputRelease s) := by
  rw [commandOutputRelease, inRunning_running hr, hn]

end

/-- Settles O15: DRIVE and RELEASE as `driveOutput` and `releaseOutput` do them, under the commands and the pulse timer. -/
theorem outputsAreDrivenAndReleased : Obligations.OutputsAreDrivenAndReleased := by
  refine ⟨outputOf_iff, fun s n hr hw hn => ?_, fun s n due ho hd => ?_⟩
  · have hi : s.partState ≠ .initialising := by rw [hr]; exact PartState.noConfusion
    have named (v : Word) : outputOf (readWord (writeWord s.mem commandWord v) argumentWord) = some n := by
      rw [readArgument_command, hn]
    refine ⟨fun hp => ?_, fun hp => ?_, ?_⟩
    · exact (exec_outputDrive hi hw).trans (congrArg _ (outputDrive_forbidden hr (named 7) hp))
    · obtain ⟨e, he⟩ := driveOutput_eq n .outputDrive (s := { s with mem := writeWord s.mem commandWord 7 }) hr
      have drives := outputDrive_permitted (s := { s with mem := writeWord s.mem commandWord 7 }) hr (named 7) hp
      rw [he] at drives
      refine ⟨_, (exec_outputDrive hi hw).trans (congrArg _ drives), rfl,
        modifyAt_outputs_self .., fun m hm => modifyAt_outputs_ne _ _ hm, rfl, rfl⟩
    · have releases := outputRelease_named (s := { s with mem := writeWord s.mem commandWord 8 }) hr (named 8)
      cases hdriven : s.outputs[n].driven with
      | true =>
        obtain ⟨e, he⟩ := releaseOutput_driven n .outputRelease (s := { s with mem := writeWord s.mem commandWord 8 }) hdriven
        rw [he] at releases
        refine ⟨_, (exec_outputRelease hi hw).trans (congrArg _ releases), rfl, ?_, fun _ => ?_,
          fun m hm => modifyAt_outputs_ne _ _ hm, rfl, rfl⟩
        · exact congrArg TripOutput.driven (modifyAt_outputs_self ..)
        · exact congrArg TripOutput.pulseEnds (modifyAt_outputs_self ..)
      | false =>
        rw [releaseOutput_released n .outputRelease (s := { s with mem := writeWord s.mem commandWord 8 }) hdriven] at releases
        refine ⟨_, (exec_outputRelease hi hw).trans (congrArg _ releases), rfl, hdriven, nofun, fun _ _ => rfl, ?_, rfl⟩
        exact (List.append_nil _).symm
  · obtain ⟨e, he⟩ := releaseOutput_driven n .pulseExpiry (s := s) (by rw [ho])
    have fires : exec (.pulseExpiry n) s = .next (releaseOutput n .pulseExpiry s) :=
      congrArg _ (pulseExpired_reached (by rw [ho]) hd)
    exact ⟨_, fires.trans (congrArg _ he), modifyAt_outputs_self .., fun m hm => modifyAt_outputs_ne _ _ hm, rfl, rfl⟩

end Sys2Proof.Machine
end

section
/-! The completion of a command (R13, R15, R16, R161, R171, R172). -/

namespace Sys2Proof.Machine

/-! ## Settings put in force -/

theorem build_fin {α : Type} {m : Nat} (f : Fin m → α) (n : Fin m) : (build m f)[n] = f n := build_get m f n.val n.isLt

theorem follow_driven (old new : OutputSettings) (now : Clock) (o : TripOutput) :
    (o.follow old new now).driven = (o.driven && new.permitted) := by
  unfold TripOutput.follow
  cases hd : o.driven <;> cases hp : new.permitted <;> simp [hd, TripOutput.released]
  (repeat' split) <;> simp [hd]

/-- R161. What an output that follows new settings becomes. -/
theorem follow_eq (old new : OutputSettings) (now : Clock) (o : TripOutput) : o.follow old new now =
    if o.driven then
      if new.permitted then
        if new.latch then { o with pulseEnds := none }
        else if old.latch then { o with pulseEnds := some (now + millis new.width) } else o
      else { driven := false, pulseEnds := none }
    else o := by
  unfold TripOutput.follow
  cases o.driven <;> cases new.permitted <;> rfl

/-- R161. The OUTPUT-CHANGE claims of the outputs that were driven and are no longer. -/
theorem releases_fold (was : Fin 4 → Bool) (l : List (Fin 4)) (t : State) :
    l.foldl (fun t n => if was n && !t.outputs[n].driven then outputClaim n false .apply t else t) t =
      { t with journal := { t.journal with claims := t.journal.claims
          ++ (l.filter (fun n => was n && !t.outputs[n].driven)).map (fun n => outputChanged n true .apply t.clock) } } := by
  induction l generalizing t with
  | nil => simp
  | cons n l ih =>
    rw [List.foldl_cons, List.filter_cons]
    by_cases h : (was n && !t.outputs[n].driven) = true
    · rw [if_pos h, if_pos h, outputClaim_eq, ih]
      simp
    · rw [if_neg h, if_neg h, ih]

/-- R161. The settings taken: every output follows them, and what is claimed of that. -/
theorem takeSettings_eq (new : Settings) (s : State) : ∃ e, takeSettings new s = { s with
    settings := new, contactEdition := e
    outputs := build 4 (fun n => s.outputs[n].follow s.settings.outputs[n] new.outputs[n] s.clock)
    journal := { s.journal with claims := s.journal.claims ++
      ((List.finRange 4).filter (fun n => s.outputs[n].driven && !new.outputs[n].permitted)).map (fun n =>
        outputChanged n true .apply s.clock) } } := by
  have released : ∀ n : Fin 4, (s.outputs[n].driven
      && !(build 4 (fun n => s.outputs[n].follow s.settings.outputs[n] new.outputs[n] s.clock))[n].driven)
      = (s.outputs[n].driven && !new.outputs[n].permitted) := fun n => by
    rw [build_fin, follow_driven]
    cases s.outputs[n].driven <;> rfl
  obtain ⟨e, he⟩ := updateContacts_eq (fun s => { s with
    settings := new
    outputs := build 4 (fun n => s.outputs[n].follow s.settings.outputs[n] new.outputs[n] s.clock) }) s
  refine ⟨e, ?_⟩
  unfold takeSettings
  dsimp only
  rw [releases_fold (fun n => s.outputs[n].driven), he]
  simp only [released]

theorem outstanding_pos (j : Journal) : decide (0 < j.outstanding) = decide (j.written ≠ j.taken) :=
  decide_eq_decide.2 (show 0 < (j.written - j.taken).toNat ↔ j.written ≠ j.taken by bv_omega)

/-- R171, R172. INT and its pulse under new settings; nothing else of the journal changes. -/
theorem journalFollow_eq (old new : Settings) (j : Journal) : j.follow old new = { j with
    int := if new.intEnable then
        if new.intPulse then old.intEnable && old.intPulse && j.int else decide (j.written ≠ j.taken)
      else false
    pulseEnds := if new.intEnable && new.intPulse && old.intEnable && old.intPulse then j.pulseEnds else none } := by
  unfold Journal.follow
  rw [outstanding_pos]
  cases new.intEnable <;> cases new.intPulse <;> cases old.intEnable <;> cases old.intPulse <;> rfl

/-- R16, R161, R171, R172. What the settings that come into force change. -/
theorem putInForce_eq (new : Settings) (s : State) : ∃ e, putInForce new s = { s with
    settings := new, contactEdition := e
    outputs := build 4 (fun n => s.outputs[n].follow s.settings.outputs[n] new.outputs[n] s.clock)
    journal := ({ s.journal with claims := s.journal.claims ++
      ((List.finRange 4).filter (fun n => s.outputs[n].driven && !new.outputs[n].permitted)).map (fun n =>
        outputChanged n true .apply s.clock) } : Journal).follow s.lineSettings ({ s with settings := new } : State).lineSettings } := by
  obtain ⟨e, he⟩ := takeSettings_eq new s
  refine ⟨e, ?_⟩
  unfold putInForce
  rw [he]
  rfl

/-! ## COMMAND_COMPLETION -/

theorem workedOut_done {s : State} (h : s.startLeft = none ∨ s.startLeft = some []) : s.workedOut = s := by
  unfold State.workedOut
  rcases h with h | h
  · rw [h]
  · rw [h]
    rfl

/-- With nothing left of START's work, a completion finishes the command. -/
theorem completeCommand_done {s : State} {w : Working} (hw : s.working = some w)
    (h : s.startLeft = none ∨ s.startLeft = some []) : completeCommand s = complete w s := by
  rw [completeCommand_workedOut, workedOut_done h, hw]

/-- R15 step 5. The end of START: RUNNING, then the arm writes held. -/
theorem finishStart_eq (read : List Host.Cell) (s : State) : finishCommand (.starting [] read) s =
    s.heldArms.foldl (fun u x => takeArm x u)
      { s with
        partState := .running
        heldArms := []
        journal := { s.journal with
          int := s.settings.intEnable && !s.settings.intPulse && decide (s.journal.written ≠ s.journal.taken)
          pulseEnds := none }
        table := mapAll (Option.map (Entry.startDeadline s.clock)) s.table } := by
  rw [← enterRunning_journal]
  rfl

theorem armsTaken_spine (arms : List ArmWord) (s : State) : Spine s (arms.foldl (fun u x => takeArm x u) s) :=
  foldl_spine _ (fun s x => takeArm_spine x s) arms s

/-- Settles O11: what finishes each command, by what it finishes in. -/
theorem completionWritesTheResult : Obligations.CompletionWritesTheResult := by
  refine ⟨fun s w hw => ⟨fun hf => ?_, fun p left read hf => ?_, fun read hf => ?_, fun new hf => ?_⟩,
    fun s v hr => ⟨fun k => ?_, fun k => ?_, fun k => ?_⟩⟩
  · have idle : s.startLeft = none := by simp [State.startLeft, hw, hf]
    refine congrArg Host.Outcome.next ((completeCommand_done hw (.inl idle)).trans ?_)
    unfold complete
    rw [hf]
    rfl
  · exact congrArg Host.Outcome.next (completeCommand_work _ s).symm
  · have done := completeCommand_done hw (.inr (startLeft_of hw hf))
    unfold complete at done
    rw [hf, finishStart_eq] at done
    obtain ⟨-, hpart, -, hclock, -, -, -, -, hmem, -, -, harms, hset, hpins, -, -⟩ := armsTaken_spine s.heldArms
      { s with
        partState := .running
        heldArms := []
        journal := { s.journal with
          int := s.settings.intEnable && !s.settings.intPulse && decide (s.journal.written ≠ s.journal.taken)
          pulseEnds := none }
        table := mapAll (Option.map (Entry.startDeadline s.clock)) s.table }
    exact ⟨_, congrArg Host.Outcome.next done, hpart, rfl, harms, hset, hmem, rfl, hclock, hpins, rfl⟩
  · have idle : s.startLeft = none := by simp [State.startLeft, hw, hf]
    obtain ⟨e, he⟩ := putInForce_eq new s
    have done := completeCommand_done hw (.inl idle)
    unfold complete at done
    rw [hf, show finishCommand (.takeSettings new) s = putInForce new s from rfl, he, journalFollow_eq] at done
    refine ⟨_, congrArg Host.Outcome.next done, rfl, fun n => ?_, rfl, fun hr => ?_, rfl⟩
    · exact (build_fin _ n).trans (follow_eq ..)
    · dsimp only
      rw [lineSettings_running hr, lineSettings_running (s := { s with settings := new }) hr]
      exact ⟨rfl, rfl⟩
  · rw [exec_of_hostWriteOf rfl, hostWrite_subArm k v s (by rw [hr]; exact PartState.noConfusion)]
    exact congrArg _ (armWritten_running _ _ hr)
  · rw [exec_of_hostWriteOf rfl, hostWrite_pubArm k v s (by rw [hr]; exact PartState.noConfusion)]
    exact congrArg _ (armWritten_running _ _ hr)
  · rw [exec_of_hostWriteOf rfl, hostWrite_ruleArm k v s (by rw [hr]; exact PartState.noConfusion)]
    exact congrArg _ (armWritten_running _ _ hr)

end Sys2Proof.Machine
end

section
/-! START's reads, its settings, and the arm words written in CONFIG (R6, R15). -/

namespace Sys2Proof.Machine

theorem commandStart_config {s : State} (h : s.partState = .config) : commandStart s =
    work (Config.startPace s.free) { s with
      free := s.free + 1
      working := some { echo := 1, code := .done, detail := 0, finish := .starting startPieces [] } } := by
  rw [commandStart, if_pos h, goOnStarting_some (startLeft_of (s := working 1 .done 0 (.starting startPieces []) s) rfl rfl)]
  rfl

theorem startPieces_eq : startPieces = settingsAddrs.map .read ++ [.settings]
    ++ (List.finRange 32).map (fun k => .visit (.publication k)) ++ (List.finRange 64).map (fun k => .visit (.subscription k))
    ++ (List.finRange 16).map (fun k => .visit (.rule k)) ++ [.lanes, .started] := by
  simp only [startPieces, visitOrder, List.map_append, List.map_map, List.append_assoc]
  rfl

theorem settingsAddrs_ascending : settingsAddrs.Pairwise (fun a b => a < b) := by decide +kernel

theorem mem_settingsAddrs (a : Nat) : a ∈ settingsAddrs ↔ (0x0043 ≤ a ∧ a ≤ 0x0056) ∨ (0x4700 ≤ a ∧ a ≤ 0x471F)
    ∨ (0x4720 ≤ a ∧ a ≤ 0x472F ∧ a % 4 ≠ 3) := by
  have outputs : (∃ n : Fin 4, outputBase n ≤ a ∧ a < outputBase n + 3) ↔ 0x4720 ≤ a ∧ a ≤ 0x472F ∧ a % 4 ≠ 3 := by
    unfold outputBase
    constructor
    · rintro ⟨n, h1, h2⟩
      omega
    · rintro ⟨h1, h2, h3⟩
      exact ⟨⟨(a - 0x4720) / 4, by omega⟩, by dsimp only; omega, by dsimp only; omega⟩
  have contacts : contactBase 0 = 0x4700 := rfl
  simp only [settingsAddrs, List.mem_append, List.mem_range'_1, List.mem_flatMap, List.mem_finRange, true_and, outputs, contacts]
  omega

/-! ## One piece of START's work -/

section
variable {s : State} {w : Working} {left : List StartPiece} {read : List Host.Cell} (hw : s.working = some w)
include hw

theorem workOnce_read {a : Nat} (hf : w.finish = .starting (.read a :: left) read) : workOnce s =
    { s with working := some { w with finish := .starting left (writeWord read a (readWord s.mem a)) } } :=
  workOnce_piece hw hf

theorem workOnce_settings_bad {a : Nat} (hf : w.finish = .starting (.settings :: left) read) (hb : badStart read = some a) :
    workOnce s = { s with working := some { w with code := .badSetting, detail := BitVec.ofNat 16 a, finish := .nothing } } := by
  rw [workOnce_piece hw hf, doPiece]
  dsimp only
  rw [hb]

theorem workOnce_settings_good (hf : w.finish = .starting (.settings :: left) read) (hb : badStart read = none) :
    workOnce s = takeStartSettings read { s with working := some { w with finish := .starting left read } } := by
  rw [workOnce_piece hw hf, doPiece]
  dsimp only
  rw [hb]

end

/-- R15 step 1. What the settings of START change as they come into force. -/
theorem takeStartSettings_eq (read : List Host.Cell) (s : State) : ∃ e, takeStartSettings read s = { s with
    settings := readSettings read, bayEpoch := (readSettings read).bayEpoch, bareRoute := (readSettings read).bareLane
    contactEdition := e
    outputs := build 4 (fun n =>
      s.outputs[n].follow s.settings.outputs[n] (readSettings read).outputs[n] s.clock)
    journal := ({ s.journal with claims := s.journal.claims ++
      ((List.finRange 4).filter (fun n => s.outputs[n].driven && !(readSettings read).outputs[n].permitted)).map (fun n =>
        outputChanged n true .apply s.clock) } : Journal).follow s.lineSettings
          ({ s with settings := readSettings read } : State).lineSettings } := by
  obtain ⟨e, he⟩ := putInForce_eq (readSettings read) s
  refine ⟨e, ?_⟩
  unfold takeStartSettings
  dsimp only
  rw [he]

/-- R171. While the part is not RUNNING, settings that come into force leave INT inactive. -/
theorem takeStartSettings_int (read : List Host.Cell) {s : State} (h : s.partState ≠ .running) :
    (takeStartSettings read s).journal.int = false ∧ (takeStartSettings read s).journal.pulseEnds = none := by
  obtain ⟨e, he⟩ := takeStartSettings_eq read s
  rw [he]
  dsimp only
  rw [lineSettings_off (s := { s with settings := readSettings read }) h, journalFollow_eq]
  exact ⟨rfl, rfl⟩

/-! ## Arm words in CONFIG -/

/-- R6, R15. An arm word stored in CONFIG is held where a START in progress has visited the record, and else waits for its visit. -/
theorem armWritten_config (x : ArmWord) {s : State} (h : s.partState = .config) :
    (s.startLeft = none → armWritten x s = s)
    ∧ ∀ left, s.startLeft = some left →
      (.visit x ∈ left → armWritten x s = s) ∧ (.visit x ∉ left → armWritten x s = { s with heldArms := s.heldArms ++ [x] }) := by
  have off : s.partState ≠ .running := by rw [h]; exact PartState.noConfusion
  unfold armWritten
  rw [if_neg off]
  refine ⟨fun hl => by rw [hl], fun left hl => ⟨fun hx => ?_, fun hx => ?_⟩⟩
  · rw [hl]
    exact if_pos hx
  · rw [hl]
    exact if_neg hx

/-- Settles O8: START's beginning, the list of its pieces, its reads and settings, and arm words in CONFIG. -/
theorem startReadsThenTakes : Obligations.StartReadsThenTakes := by
  refine ⟨fun s hc hw => ?_, startPieces_eq, settingsAddrs_ascending, mem_settingsAddrs,
    fun read => ⟨badStart_first read, readSettings_held read⟩, fun s w left read hw =>
      ⟨fun a hf => workOnce_read hw hf, fun a hf hb => workOnce_settings_bad hw hf hb, fun hf hb => ?_, fun hf hb hc => ?_⟩,
    fun s i x a v hc h => ?_⟩
  · exact (exec_start (by rw [hc]; exact PartState.noConfusion) hw).trans (congrArg _ (commandStart_config hc))
  · rw [workOnce_settings_good hw hf hb]
    obtain ⟨e, he⟩ := takeStartSettings_eq read { s with working := some { w with finish := .starting left read } }
    rw [he]
  · rw [workOnce_settings_good hw hf hb]
    exact takeStartSettings_int read (by rw [show _ = _ from hc]; exact PartState.noConfusion)
  · have hi : s.partState ≠ .initialising := by rw [hc]; exact PartState.noConfusion
    have stored : exec i s = .next (armWritten x { s with mem := writeWord s.mem a v }) := by
      obtain ⟨k, rfl, rfl, rfl⟩ | ⟨k, rfl, rfl, rfl⟩ | ⟨k, rfl, rfl, rfl⟩ := h
      · rw [exec_of_hostWriteOf rfl, hostWrite_subArm k v s hi]
      · rw [exec_of_hostWriteOf rfl, hostWrite_pubArm k v s hi]
      · rw [exec_of_hostWriteOf rfl, hostWrite_ruleArm k v s hi]
    obtain ⟨idle, visits⟩ := armWritten_config x (s := { s with mem := writeWord s.mem a v }) hc
    exact ⟨fun hl => stored.trans (congrArg _ (idle hl)), fun left hl =>
      ⟨fun hx => stored.trans (congrArg _ ((visits left hl).1 hx)), fun hx => stored.trans (congrArg _ ((visits left hl).2 hx))⟩⟩

end Sys2Proof.Machine
end

section
/-! The clock group, the seconds tick and ageing (R9, R43, R55, R57, R158). -/

namespace Sys2Proof.Machine

/-- R57. What the removal of an entry changes. -/
theorem removeEntry_some {p : Fin 512} {s : State} {e : Entry} (h : s.table[p] = some e) : removeEntry p s = { s with
    table := s.table.set p none
    twinClaims := s.twinClaims ++ [.abandon e.id e.serial]
    loneChanges := s.loneChanges ++ removalFalls e
    ageingDue := s.ageingDue.filter (· != p)
    imageCounts := modifyAt s.imageCounts p (· + 1#16) } := by
  unfold removeEntry
  rw [h]
  rfl

/-- R43. A claim that removes the entry at `p` moves that record alone, by one update. -/
theorem removal_images {p : Fin 512} {s : State} {e : Entry} (h : s.table[p] = some e) :
    ∃ counts, asEngineClaim (removeEntry p) s = { removeEntry p s with imageCounts := counts }
      ∧ counts[p] = s.imageCounts[p] + 1 ∧ ∀ q : Fin 512, q ≠ p → counts[q] = s.imageCounts[q] := by
  have images : (asEngineClaim (removeEntry p) s).imageCounts = zipAll (· + ·) (modifyAt s.imageCounts p (· + 1#16))
      (zipAll imageUpdates (s.standing (modifyAt s.imageCounts p (· + 1#16))) (s.table.set p none)) := by
    rw [asEngineClaim_imageCounts, removeEntry_some h]
  refine ⟨(asEngineClaim (removeEntry p) s).imageCounts, rfl, ?_, fun q hq => ?_⟩
  · rw [images]
    simp [State.standing, imageUpdates]
  · have stands : (modifyAt s.imageCounts p (· + 1#16))[q.val] = s.imageCounts[q.val] := modifyAt_get_ne _ p q _ (Ne.symm hq)
    have kept : (s.table.set p none)[q.val] = s.table[q.val] := by
      rw [Vector.getElem_set_ne _ _ (fun e => hq (Fin.ext e.symm))]
    rw [images]
    simp [State.standing, stands, kept]

/-- R55. One removal made due by a tick. -/
theorem expireAge_due {p : Fin 512} {s : State} (h : p ∈ s.ageingDue) :
    expireAge p s = asEngineClaim (removeEntry p) { s with ageingDue := s.ageingDue.filter (· != p) } :=
  if_pos (List.contains_iff_mem.2 h)

/-- R55. An entry's age count after a seconds tick. -/
def Entry.older (e : Entry) : Entry := { e with age := satInc e.age }

/-- R158. A contact input's block count after a seconds tick. -/
def ContactInput.ticked (i : ContactInput) : ContactInput :=
  if i.blocked then { i with blockCount := i.blockCount - 1 } else i

theorem tooOld_iff (s : State) (p : Fin 512) : s.tooOld p = true ↔
    ∃ e, s.table[p] = some e ∧ e.configured = false ∧ s.settings.ageingTime.toNat < e.age.toNat := by
  unfold State.tooOld
  cases s.table[p] <;> simp

/-- R9, R55, R158. What a seconds tick changes; the removals it makes due are those of the entries now too old. -/
theorem secondsTicks_eq (s : State) : ∃ due, secondsTicks s = { s with
      seconds := s.seconds + 1, nextTick := s.nextTick + 1000000, inputs := mapAll ContactInput.ticked s.inputs
      table := mapAll (Option.map Entry.older) s.table, ageingDue := due }
    ∧ ∀ p : Fin 512, p ∈ due ↔ ∃ e, (mapAll (Option.map Entry.older) s.table)[p] = some e ∧ e.configured = false
      ∧ s.settings.ageingTime.toNat < e.age.toNat := by
  unfold secondsTicks ageEntries countBlocks
  have mem (p : Fin 512) (f : Fin 512 → Bool) : p ∈ (List.finRange 512).filter f ↔ f p = true := by simp
  revert mem
  generalize List.finRange 512 = positions
  exact fun mem => ⟨_, rfl, fun p => (mem p _).trans (tooOld_iff _ p)⟩

/-- Settles O25: the time arithmetic, the clock group, the seconds tick, and a removal by age. -/
theorem clockEventsFallDue : Obligations.ClockEventsFallDue := by
  refine ⟨reached_iff, fun n => ⟨rfl, rfl, rfl, rfl⟩, fun s hi hd => ?_, fun s hd ha => ?_, fun s p e hp he => ?_⟩
  · exact if_pos (by simp [hi, hd])
  · have ticks : exec .secondsTick s = .next (secondsTicks s) := if_pos (by simp [hd, ha])
    obtain ⟨due, hticks, hdue⟩ := secondsTicks_eq s
    rw [hticks] at ticks
    refine ⟨_, ticks, rfl, rfl, fun p => ?_, hdue, fun n => mapAll_get .., rfl⟩
    refine (mapAll_get ..).trans ?_
    exact congrArg (s.table[p].map ·) (funext fun e => by rw [Entry.older, satInc_stays])
  · obtain ⟨counts, hclaim, hself, hothers⟩ := removal_images (s := { s with ageingDue := s.ageingDue.filter (· != p) }) he
    have expires := expireAge_due hp
    rw [hclaim, removeEntry_some (s := { s with ageingDue := s.ageingDue.filter (· != p) }) he] at expires
    refine ⟨_, congrArg Host.Outcome.next expires, Vector.getElem_set_self p.isLt, fun q hq => ?_, ?_, rfl, ?_, hself, hothers, rfl⟩
    · exact Vector.getElem_set_ne p.isLt q.isLt fun e => hq (Fin.ext e.symm)
    · simp [List.filter_filter]
    · exact (List.append_assoc ..).symm

end Sys2Proof.Machine
end

section
/-! Frames received on a bay port (R21, R26, R32 to R37). -/

namespace Sys2Proof.Machine

/-! ## Counted events of a bay port -/

/-- What a raise makes of each counter of a bay port. -/
theorem bayBump_count (c d : BayCounter) (b : BayBlock) :
    (b.bump c).count d = if d = c then satInc (b.count c) else b.count d := by
  cases c <;> cases d <;> rfl

theorem arrived_count (b : BayBlock) (d : BayCounter) : b.arrived.count d = b.count d := by cases d <;> rfl

/-- R36. A counted arrival changes the arrival total and the port's counters alone. -/
theorem arrived_bump_eq (c : BayCounter) (b : BayBlock) : b.arrived.bump c = { b with
    arrival := b.arrival + 1, frameErrors := (b.arrived.bump c).frameErrors, overruns := (b.arrived.bump c).overruns
    damaged := (b.arrived.bump c).damaged, bareDiscards := (b.arrived.bump c).bareDiscards
    trailerOnBay := (b.arrived.bump c).trailerOnBay, drops := (b.arrived.bump c).drops } := by
  cases c <;> rfl

theorem arrived_ne {b b' : BayBlock} (h : b'.arrival = b.arrival + 1) : b' ≠ b := by
  rintro rfl
  revert h
  generalize b'.arrival = n
  bv_omega

/-- An update that changes the port's block raises the edition word by 2. -/
theorem bayUpdate_changed (p : Fin 4) (f : BayBlock → BayBlock) (g : BayGroup) (h : f g.ports[p] ≠ g.ports[p]) :
    g.update p f = { edition := g.edition + 2, ports := modifyAt g.ports p f } := if_neg h

theorem updateBay_arrived (p : Fin 4) (s : State) : updateBay p BayBlock.arrived s = { s with
    bayGroup := { edition := s.bayGroup.edition + 2, ports := modifyAt s.bayGroup.ports p BayBlock.arrived } } := by
  rw [updateBay, bayUpdate_changed p _ _ (arrived_ne rfl)]

/-- R36, R37. A counted event changes the bay port group, and claims COUNTER-FIRST if the counter stood at 0. -/
theorem countBay_eq (p : Fin 4) (f : BayBlock → BayBlock) (c : BayCounter) (time : Clock) (s : State) :
    countBay p f c time s = { s with
      bayGroup := s.bayGroup.update p (fun b => (f b).bump c)
      journal := { s.journal with claims := s.journal.claims ++ (if s.bayGroup.ports[p].count c = 0 then
        [{ kind := .counterFirst, subject := .bayPort p, time := time, d1 := bayCounterCode c, d2 := 0, d3 := 0 }]
        else []) } } := by
  unfold countBay baySentinel
  split
  · rfl
  · rw [List.append_nil]
    rfl

/-! ## The checks of R32 -/

/-- R32 to R36. The frame `f`, taken at bay port `p` in RUNNING, is discarded under the counter `c`. -/
def DiscardedAs (s : State) (p : Fin 4) (f : List Byte) (c : BayCounter) : Prop :=
  (frameGood f = false ∧ c = .frameErrors)
    ∨ (frameGood f = true ∧ hasTrailer (withoutFcs f) = true ∧ c = .trailerOnBay)
    ∨ (frameGood f = true ∧ hasTrailer (withoutFcs f) = false
      ∧ ((typeWord (withoutFcs f) ≠ s.settings.messageType ∧ s.settings.passBare.getLsbD p.val = false ∧ c = .bareDiscards)
        ∨ (typeWord (withoutFcs f) = s.settings.messageType
          ∧ (((readHeader (withoutFcs f) = none ∨ 1514 < f.length) ∧ c = .damaged)
            ∨ ((readHeader (withoutFcs f)).isSome = true ∧ f.length ≤ 1514 ∧ 8 ≤ s.bays[p].arrivals.length
              ∧ c = .overruns)))))

theorem classifyBay_bare {s : State} {p : Fin 4} {f : List Byte} (hg : frameGood f = true)
    (ht : hasTrailer (withoutFcs f) = false) (hm : typeWord (withoutFcs f) ≠ s.settings.messageType) :
    classifyBay p f s = bareFromBay p (withoutFcs f) s := by
  unfold classifyBay
  simp [hg, ht, hm]

theorem classifyBay_stream {s : State} {p : Fin 4} {f : List Byte} {h : Header} (hg : frameGood f = true)
    (ht : hasTrailer (withoutFcs f) = false) (hm : typeWord (withoutFcs f) = s.settings.messageType)
    (hh : readHeader (withoutFcs f) = some h) (hl : f.length ≤ 1514) :
    classifyBay p f s = joinBay p (bayRecord p (withoutFcs f) h s.clock) s := by
  unfold classifyBay
  simp [hg, ht, hm, hh, hl]

theorem classifyBay_discarded {s : State} {p : Fin 4} {f : List Byte} {c : BayCounter} (h : DiscardedAs s p f c) :
    classifyBay p f s = countBay p BayBlock.arrived c s.clock s := by
  obtain ⟨hg, rfl⟩ | ⟨hg, ht, rfl⟩ | ⟨hg, ht, ⟨hm, hset, rfl⟩ | ⟨hm, ⟨hbad, rfl⟩ | ⟨hh, hl, hfull, rfl⟩⟩⟩ := h
  · unfold classifyBay
    simp [hg]
  · unfold classifyBay
    simp [hg, ht]
  · rw [classifyBay_bare hg ht hm, bareFromBay]
    exact if_neg (by rw [inSet, hset]; exact Bool.false_ne_true)
  · unfold classifyBay
    cases hh : readHeader (withoutFcs f) with
    | none => simp [hg, ht, hm, hh]
    | some h =>
      have long : 1514 < f.length := hbad.resolve_left (by rw [hh]; exact Option.some_ne_none h)
      simp [hg, ht, hm, hh, long]
  · obtain ⟨h, hh⟩ := Option.isSome_iff_exists.1 hh
    rw [classifyBay_stream hg ht hm hh hl, joinBay]
    exact if_neg (Nat.not_lt.2 hfull)

/-- R27, R32. A port whose link is UP takes a frame in RUNNING. -/
theorem exec_bayFrame {s : State} {p : Fin 4} (f : List Byte) (hl : s.bayGroup.ports[p].link = true)
    (hr : s.partState = .running) : exec (.bayFrameReceived p f) s = .next (classifyBay p f s) :=
  congrArg _ (if_neg (by rw [hl, hr]; decide))

/-- Settles O27: what is read of a message, what a bay port sends, and the checks on a frame in order. -/
theorem bayFrameReceived : Obligations.BayFrameReceived := by
  refine ⟨fun addresses rest msg t0 t1 w0 w1 e h0 h1 n l0 l1 h12 hm => ?_, readHeader_short, rfl, fun r hl => ?_,
    fun s p f hlink => ⟨fun hc => ?_, fun hr => ⟨fun h hg ht hm hh hl hroom => ?_, fun hg ht hm hset => ?_, fun c hc => ?_⟩⟩⟩
  · obtain ⟨htype, hheader⟩ := readHeader_bytes addresses rest msg t0 t1 w0 w1 e h0 h1 n l0 l1 h12 hm
    exact ⟨htype, hheader, fun a ha => contentOf_bytes a _ rest (by simp [h12]) (ha.trans hm)⟩
  · obtain ⟨body, rfl, hbytes, hgood⟩ := bayBytes_good r hl
    exact ⟨hgood, hbytes⟩
  · exact congrArg _ (if_pos (by rw [hc]; rfl))
  · rw [exec_bayFrame f hlink hr, classifyBay_stream hg ht hm hh hl, joinBay,
      if_pos (show _ < Config.arrivalRoom from hroom), updateBay_arrived]
    rfl
  · rw [exec_bayFrame f hlink hr, classifyBay_bare hg ht hm, bareFromBay, inSet, if_pos hset, updateBay_arrived]
    rfl
  · have counted := exec_bayFrame f hlink hr
    rw [classifyBay_discarded hc, countBay_eq] at counted
    have block : (s.bayGroup.update p (fun b => b.arrived.bump c)).ports[p] = s.bayGroup.ports[p].arrived.bump c :=
      bayUpdate_self ..
    refine ⟨_, counted, ?_, fun d hd => ?_, ?_, ?_, fun q hq => bayUpdate_ne p q _ _ hq, rfl, rfl⟩
    · dsimp only
      rw [block, bayBump_count, if_pos rfl, arrived_count, satInc_stays]
    · dsimp only
      rw [block, bayBump_count, if_neg hd, arrived_count]
    · dsimp only
      rw [block]
      exact arrived_bump_eq ..
    · exact congrArg BayGroup.edition (bayUpdate_changed p _ s.bayGroup (arrived_ne (by simp [BayBlock.arrived])))

end Sys2Proof.Machine
end

section
/-! START's visits of the link rules and the publication slots (R15 step 2, R54, R129, R130, R162). -/

namespace Sys2Proof.Machine

/-- R15. A START in progress in `s`, with `left` to do. -/
def State.goesOn (s : State) (w : Working) (left : List StartPiece) (read : List Host.Cell) : State :=
  { s with working := some { w with finish := .starting left read } }

/-- R15. A visit hands the record to its owner. -/
theorem workOnce_visit {s : State} {w : Working} {left : List StartPiece} {read : List Host.Cell} {arm : ArmWord}
    (hw : s.working = some w) (hf : w.finish = .starting (.visit arm :: left) read) :
    workOnce s = takeArm arm (s.goesOn w left read) :=
  workOnce_piece hw hf

/-! ## Link rules -/

theorem ruleClaim_armed {k : Fin 16} {s : State} (h : readWord s.mem (ruleBase k + 11) = 1) (hb : badRule s.mem k = none) :
    ruleClaim k s = { s with rules := modifyAt s.rules k (fun _ =>
      { state := .armed, reason := .none, matching := false, refusals := 0, fired := 0, lastFired := 0
        copy := some (readRule s.mem k) }) } := by
  rw [ruleClaim]
  rw [if_pos h, hb]
  rfl

theorem ruleClaim_idle {k : Fin 16} {s : State} (h : readWord s.mem (ruleBase k + 11) = 0) (hd : s.rules[k].state = .disarmed) :
    ruleClaim k s = s := by
  rw [ruleClaim]
  rw [if_neg (by rw [h]; decide), if_pos h, if_pos hd]

/-- R162. What refuses an arm of rule `k`: a field out of range, or a word that is no arm code. -/
def RuleRefused (s : State) (k : Fin 16) (reason : Reason) (detail : Word) : Prop :=
  (readWord s.mem (ruleBase k + 11) = 1 ∧ ∃ off, badRule s.mem k = some off ∧ reason = .badSetting
      ∧ detail = BitVec.ofNat 16 off)
    ∨ (readWord s.mem (ruleBase k + 11) ≠ 0 ∧ readWord s.mem (ruleBase k + 11) ≠ 1 ∧ reason = .badArmCode
      ∧ detail = readWord s.mem (ruleBase k + 11))

theorem ruleClaim_refused {k : Fin 16} {s : State} {reason : Reason} {detail : Word} (h : RuleRefused s k reason detail) :
    ruleClaim k s = { s with
      rules := modifyAt s.rules k (fun r => { r with state := .refused, reason := reason, copy := none })
      journal := { s.journal with claims := s.journal.claims ++
        [{ kind := .armRefused, subject := .rule k, time := s.clock, d1 := reasonCode reason, d2 := 0, d3 := detail }] } } := by
  rw [ruleClaim]
  obtain ⟨hv, off, hb, rfl, rfl⟩ | ⟨h0, h1, rfl, rfl⟩ := h
  · rw [if_pos hv, hb]
    rfl
  · rw [if_neg h1, if_neg h0]
    rfl

/-! ## Publication slots -/

theorem readPub_id (m : List Host.Cell) (k : Fin 32) : (readPub m k).id = readWord m (pubBase k) := rfl

theorem makeRoom_free {s : State} {q : Fin 512} (h : s.freePosition = some q) : makeRoom s = s :=
  if_pos (by rw [h]; rfl)

/-- R54. The host entry of an armed publication, made at the free position. -/
theorem makeHostEntry_free {k : Fin 32} {c : PubConfig} {epoch : Byte} {s : State} {q : Fin 512}
    (hl : s.lookup c.id = none) (hq : s.freePosition = some q) :
    makeHostEntry k c epoch s = some (makeEntry q (s.hostEntry k c epoch) s) := by
  unfold makeHostEntry
  rw [hl, makeRoom_free hq]
  dsimp only
  rw [hq]

theorem makeHostEntry_clash {k : Fin 32} {c : PubConfig} {epoch : Byte} {s : State} (hl : (s.lookup c.id).isSome = true) :
    makeHostEntry k c epoch s = none := by
  obtain ⟨x, hx⟩ := Option.isSome_iff_exists.1 hl
  unfold makeHostEntry
  rw [hx]

theorem dropIfArmed_disarmed {k : Fin 32} {s : State} (h : s.pubs[k].state = .disarmed) : dropIfArmed k s = s :=
  if_neg (by rw [h]; exact Bool.false_ne_true)

/-- R129. What refuses an arm of publication slot `k` that holds no entry. -/
def PubRefused (s : State) (k : Fin 32) (reason : Reason) (detail : Word) : Prop :=
  (readWord s.mem (pubBase k + 12) = 1 ∧ ∃ off, badPub s.mem k = some off ∧ reason = .badSetting
      ∧ detail = BitVec.ofNat 16 off)
    ∨ (readWord s.mem (pubBase k + 12) = 1 ∧ badPub s.mem k = none
      ∧ (s.lookup (readWord s.mem (pubBase k))).isSome = true ∧ reason = .originClash ∧ detail = 0)
    ∨ (readWord s.mem (pubBase k + 12) ≠ 0 ∧ readWord s.mem (pubBase k + 12) ≠ 1 ∧ reason = .badArmCode
      ∧ detail = readWord s.mem (pubBase k + 12))

section
variable {k : Fin 32} {s : State} (hd : s.pubs[k].state = .disarmed)
include hd

theorem publicationClaim_armed {q : Fin 512} (h : readWord s.mem (pubBase k + 12) = 1) (hb : badPub s.mem k = none)
    (hl : s.lookup (readWord s.mem (pubBase k)) = none) (hq : s.freePosition = some q) :
    publicationClaim k s = updatePub k (PubSlot.armedAt (readPub s.mem k))
      (makeEntry q (s.hostEntry k (readPub s.mem k) (s.pubs[k].armEpoch (readPub s.mem k))) s) := by
  rw [publicationClaim]
  rw [if_pos h, dropIfArmed_disarmed hd, armPub, hb]
  dsimp only
  rw [makeHostEntry_free hl hq]

theorem publicationClaim_idle (h : readWord s.mem (pubBase k + 12) = 0) : publicationClaim k s = s := by
  rw [publicationClaim]
  rw [if_neg (by rw [h]; decide), if_pos h, if_pos hd]

theorem publicationClaim_refused {reason : Reason} {detail : Word} (h : PubRefused s k reason detail) :
    publicationClaim k s = refusePub k reason detail s := by
  rw [publicationClaim]
  obtain ⟨hv, off, hb, rfl, rfl⟩ | ⟨hv, hb, hl, rfl, rfl⟩ | ⟨h0, h1, rfl, rfl⟩ := h
  · rw [if_pos hv, dropIfArmed_disarmed hd, armPub, hb]
  · rw [if_pos hv, dropIfArmed_disarmed hd, armPub, hb]
    dsimp only
    rw [makeHostEntry_clash hl]
  · rw [if_neg h1, if_neg h0, dropIfArmed_disarmed hd]

end

section
variable {k : Fin 32} {s : State} (ha : s.ageingDue = []) (ht : s.postTrip = []) (ho : s.postOther = [])
include ha ht ho

/-- R129, R134. With nothing due and nothing posted, an arm word of a publication slot is the claim alone. -/
theorem takePublication_quiet (hpost : (publicationClaim k s).postTrip = s.postTrip)
    (hother : (publicationClaim k s).postOther = s.postOther) :
    takePublication k s = asEngineClaim (publicationClaim k) s := by
  rw [takePublication, settleAgeing_none ha, runTakes_none]
  · exact hpost.trans ht
  · exact hother.trans ho

theorem takePublication_refused {reason : Reason} {detail : Word} (hd : s.pubs[k].state = .disarmed)
    (h : PubRefused s k reason detail) : takePublication k s = refusePub k reason detail s := by
  have claim := publicationClaim_refused hd h
  rw [takePublication_quiet ha ht ho (by rw [claim]; rfl) (by rw [claim]; rfl),
    asEngineClaim_same _ _ (by rw [claim]; rfl) (by rw [claim]; rfl), claim]

theorem takePublication_idle (hd : s.pubs[k].state = .disarmed) (h : readWord s.mem (pubBase k + 12) = 0) :
    takePublication k s = s := by
  have claim := publicationClaim_idle hd h
  rw [takePublication_quiet ha ht ho (by rw [claim]) (by rw [claim]),
    asEngineClaim_same _ _ (by rw [claim]) (by rw [claim]), claim]

/-- R54, R130. A publication that can be armed is ARMED-IDLE with its entry at the free position. -/
theorem takePublication_armed {q : Fin 512} (hd : s.pubs[k].state = .disarmed) (h : readWord s.mem (pubBase k + 12) = 1)
    (hb : badPub s.mem k = none) (hl : s.lookup (readWord s.mem (pubBase k)) = none) (hq : s.freePosition = some q) :
    (takePublication k s).pubs[k].state = .armedIdle ∧ (takePublication k s).pubs[k].config = some (readPub s.mem k)
      ∧ (takePublication k s).table[q].map (fun e => (e.id, e.origin, e.configured))
          = some (readWord s.mem (pubBase k), .localHost k, true)
      ∧ (takePublication k s).journal = s.journal := by
  have claim := publicationClaim_armed hd h hb hl hq
  have taken := takePublication_quiet (k := k) ha ht ho (by rw [claim]; rfl) (by rw [claim]; rfl)
  have pub : (takePublication k s).pubs[k] = { s.pubs[k].armedAt (readPub s.mem k) with count := s.pubs[k].count + 1 } := by
    rw [taken, show (asEngineClaim (publicationClaim k) s).pubs = (publicationClaim k s).pubs from rfl, claim]
    exact modifyAt_get_self ..
  have entry : (takePublication k s).table[q] = some
      { s.hostEntry k (readPub s.mem k) (s.pubs[k].armEpoch (readPub s.mem k)) with serial := s.serial + 1 } := by
    rw [taken, show (asEngineClaim (publicationClaim k) s).table = (publicationClaim k s).table from rfl, claim]
    exact (makeEntry_get q q _ s).trans (if_pos rfl)
  refine ⟨by rw [pub]; rfl, by rw [pub]; rfl, by rw [entry]; rfl, ?_⟩
  rw [taken, show (asEngineClaim (publicationClaim k) s).journal = (publicationClaim k s).journal from rfl, claim]
  rfl

end

end Sys2Proof.Machine
end

section
/-! START's visits of the subscription slots (R15 step 2, R52, R53, R115 to R117). -/

namespace Sys2Proof.Machine

/-! ## Delivery, with no delivery in progress -/

/-- R117. An arm that reaches Delivery at once, with no mismatch shown, changes its slot alone. -/
theorem armDelivery_quiet {k : Fin 64} {s : State} (c : SlotConfig) (hp : s.subs[k].inProgress = none)
    (hm : s.subs[k].status.mismatch = false) :
    ∃ x, armDelivery k c s = s.withSlot k x s.journal.claims ∧ x.state = .armed ∧ x.status.state = .armed := by
  have slot := modifySub_withSlot s k s.subs[k] s.journal.claims (fun t =>
    { t with state := .armed, config := some c, marker := false, markedBy := none, told := slotView k s })
  rw [withSlot_self] at slot
  unfold armDelivery giveOutcome
  dsimp only
  rw [slot, withSlot_sub, if_neg (by dsimp only; rw [hp]; exact Bool.false_ne_true), applyOutcome_withSlot]
  refine ⟨_, congrArg (s.withSlot k _) ?_, rfl, rfl⟩
  simp only [outcomeWritten, hm, Bool.false_eq_true, if_false, List.append_nil]

/-- R116. A refusal that reaches Delivery at once changes its slot alone, and claims ARM-REFUSED. -/
theorem refuseDelivery_quiet {k : Fin 64} {s : State} (reason : Reason) (id detail : Word)
    (hp : s.subs[k].inProgress = none) :
    ∃ x, refuseDelivery k reason id detail s = s.withSlot k x (s.journal.claims ++
        [{ kind := .armRefused, subject := .subscription k, time := s.clock, d1 := reasonCode reason, d2 := id, d3 := detail }])
      ∧ x.state = .refused ∧ x.status.state = .refused ∧ x.status.reason = reason := by
  have slot := modifySub_withSlot s k s.subs[k] s.journal.claims (fun t => { t with state := .refused })
  rw [withSlot_self] at slot
  unfold refuseDelivery giveOutcome
  rw [slot, withSlot_sub, if_neg (by dsimp only; rw [hp]; exact Bool.false_ne_true), applyOutcome_withSlot]
  exact ⟨_, rfl, rfl, rfl, rfl⟩

/-! ## The claim -/

theorem readSlot_id (m : List Host.Cell) (k : Fin 64) : (readSlot m k).id = readWord m (subBase k) := rfl

theorem detach_disarmed {k : Fin 64} {s : State} (h : s.subs[k].state = .disarmed) : detach k s = s :=
  if_neg (by rw [h]; exact SlotState.noConfusion)

/-- R116. What refuses an arm of subscription slot `k`. -/
def SubRefused (s : State) (k : Fin 64) (reason : Reason) (detail : Word) : Prop :=
  (readWord s.mem (subBase k + 7) = 1 ∧ ∃ off, badSlot s.mem k = some off ∧ reason = .badSetting
      ∧ detail = BitVec.ofNat 16 off)
    ∨ (readWord s.mem (subBase k + 7) = 1 ∧ badSlot s.mem k = none ∧ detail = 0
      ∧ ∃ (q : Fin 512) (e : Entry), s.lookup (readWord s.mem (subBase k)) = some (q, e)
        ∧ ((e.origin.isHost = true ∧ reason = .originClash)
          ∨ (e.origin.isHost = false ∧ e.slot.isSome = true ∧ reason = .duplicate)))
    ∨ (readWord s.mem (subBase k + 7) ≠ 0 ∧ readWord s.mem (subBase k + 7) ≠ 1 ∧ reason = .badArmCode
      ∧ detail = readWord s.mem (subBase k + 7))

section
variable {k : Fin 64} {s : State} (hd : s.subs[k].state = .disarmed)
include hd

theorem subscriptionClaim_idle (h : readWord s.mem (subBase k + 7) = 0) : subscriptionClaim k s = s := by
  rw [subscriptionClaim]
  rw [if_neg (by rw [h]; decide), if_pos h, if_pos hd]

theorem subscriptionClaim_armed {q : Fin 512} (h : readWord s.mem (subBase k + 7) = 1) (hb : badSlot s.mem k = none)
    (hl : s.lookup (readWord s.mem (subBase k)) = none) (hq : s.freePosition = some q) :
    subscriptionClaim k s = armDelivery k (readSlot s.mem k).config
      (makeEntry q (s.awaitingEntry k (readSlot s.mem k)) s) := by
  rw [subscriptionClaim]
  rw [if_pos h, detach_disarmed hd, armSlot, hb]
  dsimp only
  rw [attach, readSlot_id, hl, makeRoom_free hq]
  dsimp only
  rw [hq]

theorem subscriptionClaim_refused {reason : Reason} {detail : Word} (h : SubRefused s k reason detail) :
    subscriptionClaim k s = refuseDelivery k reason (readWord s.mem (subBase k)) detail s := by
  rw [subscriptionClaim]
  obtain ⟨hv, off, hb, rfl, rfl⟩ | ⟨hv, hb, rfl, q, e, hl, ho⟩ | ⟨h0, h1, rfl, rfl⟩ := h
  · rw [if_pos hv, detach_disarmed hd, armSlot, hb]
  · rw [if_pos hv, detach_disarmed hd, armSlot, hb]
    dsimp only
    rw [attach, readSlot_id, hl]
    dsimp only
    obtain ⟨hhost, rfl⟩ | ⟨hhost, hslot, rfl⟩ := ho
    · rw [if_pos hhost]
    · rw [if_neg (by rw [hhost]; exact Bool.false_ne_true), if_pos hslot]
  · rw [if_neg h1, if_neg h0, detach_disarmed hd]

end

section
variable {k : Fin 64} {s : State} (ha : s.ageingDue = []) (hd : s.subs[k].state = .disarmed)
include ha hd

theorem takeSubscription_idle (h : readWord s.mem (subBase k + 7) = 0) : takeSubscription k s = s := by
  have claim := subscriptionClaim_idle hd h
  rw [takeSubscription, settleAgeing_none ha, asEngineClaim_same _ _ (by rw [claim]) (by rw [claim]), claim]

theorem takeSubscription_refused {reason : Reason} {detail : Word} (hp : s.subs[k].inProgress = none)
    (h : SubRefused s k reason detail) :
    (takeSubscription k s).subs[k].state = .refused ∧ (takeSubscription k s).subs[k].status.state = .refused
      ∧ (takeSubscription k s).subs[k].status.reason = reason ∧ (takeSubscription k s).table = s.table
      ∧ (takeSubscription k s).journal.claims = s.journal.claims ++
        [{ kind := .armRefused, subject := .subscription k, time := s.clock, d1 := reasonCode reason
           d2 := readWord s.mem (subBase k), d3 := detail }] := by
  obtain ⟨x, hx, hstate, hshown, hreason⟩ :=
    refuseDelivery_quiet (s := s) reason (readWord s.mem (subBase k)) detail hp
  have claim := (subscriptionClaim_refused hd h).trans hx
  have taken : takeSubscription k s = subscriptionClaim k s := by
    rw [takeSubscription, settleAgeing_none ha, asEngineClaim_same _ _ (by rw [claim]; rfl) (by rw [claim]; rfl)]
  rw [taken, claim, withSlot_sub]
  exact ⟨hstate, hshown, hreason, rfl, rfl⟩

/-- R53, R105. A subscription of a stream without an entry, armed by START: a new AWAITING entry, its wait from RUNNING on. -/
theorem takeSubscription_armed {q : Fin 512} (hc : s.partState = .config) (hp : s.subs[k].inProgress = none)
    (hm : s.subs[k].status.mismatch = false) (h : readWord s.mem (subBase k + 7) = 1) (hb : badSlot s.mem k = none)
    (hl : s.lookup (readWord s.mem (subBase k)) = none) (hq : s.freePosition = some q) :
    (takeSubscription k s).subs[k].state = .armed ∧ (takeSubscription k s).subs[k].status.state = .armed
      ∧ (takeSubscription k s).table[q].map (fun e => (e.id, e.origin, e.configured, e.slot, e.fresh, e.deadline))
          = some (readWord s.mem (subBase k), .remote, true, some k, some .awaiting,
              .fromRunning (readWord s.mem (subBase k + 6)))
      ∧ (takeSubscription k s).journal = s.journal := by
  obtain ⟨x, hx, hstate, hshown⟩ := armDelivery_quiet (k := k)
    (s := makeEntry q (s.awaitingEntry k (readSlot s.mem k)) s) (readSlot s.mem k).config hp hm
  have claim := (subscriptionClaim_armed hd h hb hl hq).trans hx
  have taken : takeSubscription k s = asEngineClaim (subscriptionClaim k) s := by
    rw [takeSubscription, settleAgeing_none ha]
  have slot : (takeSubscription k s).subs[k] = x := by
    rw [taken, show (asEngineClaim (subscriptionClaim k) s).subs = (subscriptionClaim k s).subs from rfl, claim]
    exact withSlot_sub ..
  have entry : (takeSubscription k s).table[q] = some { s.awaitingEntry k (readSlot s.mem k) with serial := s.serial + 1 } := by
    rw [taken, show (asEngineClaim (subscriptionClaim k) s).table = (subscriptionClaim k s).table from rfl, claim]
    exact (makeEntry_get q q _ s).trans (if_pos rfl)
  have waits : awaitingDeadline (readWord s.mem (subBase k + 6)) s = .fromRunning (readWord s.mem (subBase k + 6)) :=
    if_neg (by rw [hc]; exact PartState.noConfusion)
  refine ⟨by rw [slot, hstate], by rw [slot, hshown], ?_, ?_⟩
  · rw [entry, ← waits]
    rfl
  · rw [taken, show (asEngineClaim (subscriptionClaim k) s).journal = (subscriptionClaim k s).journal from rfl, claim]
    rfl

end

end Sys2Proof.Machine
end

section
/-! START's lanes and STARTED (R15 steps 3 and 4, R95, R101, R155, R173), and what each piece of START's work does. -/

namespace Sys2Proof.Machine

/-! ## The lanes leave HELD (R15 step 3) -/

/-- R95. The state a lane leaves HELD for, by its link. -/
def startState (link : Bool) : LaneState := if link then .proving else .down

/-- R15 step 3. Lane `l` leaves HELD at START. -/
def enterAtStart (l : Lane) (s : State) : State :=
  announce l .held (startState (s.lane l).group.link) (s.lane l).group.lone .start
    (enterState l (startState (s.lane l).group.link) id s)

/-- R15 step 3, R101. The bare route once both lanes have left HELD. -/
def startRoute (s : State) : Lane :=
  if (s.lane s.settings.bareLane).group.state = .down && (s.lane s.settings.bareLane.other).group.state = .proving then
    s.settings.bareLane.other
  else s.settings.bareLane

theorem releaseAtStart_eq (s : State) : releaseAtStart s =
    { enterAtStart .b (enterAtStart .a s) with bareRoute := startRoute (enterAtStart .b (enterAtStart .a s)) } := rfl

theorem entered_startState (now : Clock) (period : Word) (p : LanePort) :
    (p.entered (startState p.group.link) id now period).group.state = startState p.group.link
      ∧ (p.entered (startState p.group.link) id now period).provingEnds
          = (if p.group.link then some (now + secs period) else none)
      ∧ (p.entered (startState p.group.link) id now period).cycle = (if p.group.link then p.cycle else p.cycle + 1) := by
  cases p.group.link <;> simp [startState, LanePort.entered, LaneState.carries]

theorem enterAtStart_lane (l : Lane) (s : State) : (enterAtStart l s).lane l =
    (s.lane l).entered (startState (s.lane l).group.link) id s.clock s.settings.provingPeriod := by
  rw [enterAtStart, announce_lane, enterState_lane_self]

theorem enterAtStart_other (l : Lane) (s : State) : (enterAtStart l s).lane l.other = s.lane l.other := by
  rw [enterAtStart, announce_lane, enterState_lane_other]

/-- R98. What a lane's leaving of HELD at START claims. -/
def startVerdict (s : State) (l : Lane) : JournalClaim :=
  { kind := .laneVerdict, subject := .lane l, time := s.clock
    d1 := (laneStateCode .held <<< 8) ||| laneStateCode (startState (s.lane l).group.link)
    d2 := (s.lane l).group.lone, d3 := laneCauseCode .start }

theorem enterAtStart_told (l : Lane) {s : State} (h : s.partState = .config) :
    (enterAtStart l s).journal.claims = s.journal.claims ++ [startVerdict s l] ∧ (enterAtStart l s).events = s.events := by
  unfold enterAtStart announce offer
  simp [h, startVerdict, verdictClaim]

theorem enterAtStart_frame (l : Lane) (s : State) :
    (enterAtStart l s).clock = s.clock ∧ (enterAtStart l s).settings = s.settings
      ∧ (enterAtStart l s).partState = s.partState ∧ (enterAtStart l s).table = s.table
      ∧ (enterAtStart l s).working = s.working ∧ (enterAtStart l s).inputs = s.inputs ∧ (enterAtStart l s).pins = s.pins := by
  unfold enterAtStart
  simp

/-- R155. Every input begins to settle toward its raw level. -/
theorem beginFiltering_eq (s : State) : ∃ e, beginFiltering s = { s with
    filtering := true, contactEdition := e
    inputs := build 8 (fun n => s.inputs[n].settle s.pins.raw[n] s.settings.contacts[n].filter s.clock) } :=
  updateContacts_eq _ s

theorem beginFiltering_lane (s : State) (l : Lane) : (beginFiltering s).lane l = s.lane l := by
  obtain ⟨e, he⟩ := beginFiltering_eq s
  rw [he]
  cases l <;> rfl

theorem releaseAtStart_lane (s : State) (l : Lane) :
    (releaseAtStart s).lane l = (enterAtStart .b (enterAtStart .a s)).lane l := by
  rw [releaseAtStart_eq]
  generalize enterAtStart .b (enterAtStart .a s) = t
  cases l <;> rfl

section
variable (s : State)

theorem enterBoth_lane (l : Lane) : (enterAtStart .b (enterAtStart .a s)).lane l =
    (s.lane l).entered (startState (s.lane l).group.link) id s.clock s.settings.provingPeriod := by
  obtain ⟨hclock, hset, -⟩ := enterAtStart_frame .a s
  have first : (enterAtStart .a s).lane .b = s.lane .b := enterAtStart_other .a s
  cases l with
  | a => exact (enterAtStart_other .b _).trans (enterAtStart_lane .a s)
  | b => rw [enterAtStart_lane, first, hclock, hset]

theorem enterBoth_frame :
    (enterAtStart .b (enterAtStart .a s)).clock = s.clock ∧ (enterAtStart .b (enterAtStart .a s)).settings = s.settings
      ∧ (enterAtStart .b (enterAtStart .a s)).table = s.table ∧ (enterAtStart .b (enterAtStart .a s)).working = s.working
      ∧ (enterAtStart .b (enterAtStart .a s)).inputs = s.inputs ∧ (enterAtStart .b (enterAtStart .a s)).pins = s.pins := by
  obtain ⟨hclock, hset, -, htable, hwork, hinputs, hpins⟩ := enterAtStart_frame .a s
  obtain ⟨gclock, gset, -, gtable, gwork, ginputs, gpins⟩ := enterAtStart_frame .b (enterAtStart .a s)
  exact ⟨gclock.trans hclock, gset.trans hset, gtable.trans htable, gwork.trans hwork, ginputs.trans hinputs, gpins.trans hpins⟩

theorem enterBoth_told (h : s.partState = .config) :
    (enterAtStart .b (enterAtStart .a s)).journal.claims = s.journal.claims ++ [Lane.a, Lane.b].map (startVerdict s)
      ∧ (enterAtStart .b (enterAtStart .a s)).events = s.events := by
  obtain ⟨hclock, -, hpart, -⟩ := enterAtStart_frame .a s
  obtain ⟨hclaims, hevents⟩ := enterAtStart_told .a h
  obtain ⟨gclaims, gevents⟩ := enterAtStart_told .b (hpart.trans h)
  have second : startVerdict (enterAtStart .a s) .b = startVerdict s .b := by
    rw [startVerdict, startVerdict, hclock, show (enterAtStart .a s).lane .b = s.lane .b from enterAtStart_other .a s]
  refine ⟨?_, gevents.trans hevents⟩
  rw [gclaims, hclaims, second, List.append_assoc]
  rfl

/-- R101. The bare route is the preferred lane, unless its link is DOWN and the other's UP. -/
theorem startRoute_eq : startRoute (enterAtStart .b (enterAtStart .a s)) =
    if (s.lane s.settings.bareLane).group.link = false ∧ (s.lane s.settings.bareLane.other).group.link = true then
      s.settings.bareLane.other
    else s.settings.bareLane := by
  have state (l : Lane) : ((enterAtStart .b (enterAtStart .a s)).lane l).group.state = startState (s.lane l).group.link := by
    rw [enterBoth_lane]
    exact (entered_startState ..).1
  obtain ⟨-, hset, -⟩ := enterBoth_frame s
  rw [startRoute, hset, state, state]
  cases (s.lane s.settings.bareLane).group.link <;> cases (s.lane s.settings.bareLane.other).group.link <;> rfl

/-- R15 step 3. Both lanes out of HELD, the bare route, and the inputs that begin to settle. -/
theorem lanesPiece_spec (h : s.partState = .config) :
    (∀ l, ((beginFiltering (releaseAtStart s)).lane l).group.state = startState (s.lane l).group.link
      ∧ ((beginFiltering (releaseAtStart s)).lane l).provingEnds
          = (if (s.lane l).group.link then some (s.clock + secs s.settings.provingPeriod) else none)
      ∧ ((beginFiltering (releaseAtStart s)).lane l).cycle
          = (if (s.lane l).group.link then (s.lane l).cycle else (s.lane l).cycle + 1))
    ∧ (beginFiltering (releaseAtStart s)).journal.claims = s.journal.claims ++ [Lane.a, Lane.b].map (startVerdict s)
    ∧ (beginFiltering (releaseAtStart s)).bareRoute =
        (if (s.lane s.settings.bareLane).group.link = false ∧ (s.lane s.settings.bareLane.other).group.link = true then
          s.settings.bareLane.other
        else s.settings.bareLane)
    ∧ (beginFiltering (releaseAtStart s)).filtering = true
    ∧ (∀ n : Fin 8, (beginFiltering (releaseAtStart s)).inputs[n] = { s.inputs[n] with
        settling := some s.pins.raw[n], rawSince := s.clock
        filterEnds := some (s.clock + halfMillis s.settings.contacts[n].filter) })
    ∧ (beginFiltering (releaseAtStart s)).table = s.table ∧ (beginFiltering (releaseAtStart s)).working = s.working
    ∧ (beginFiltering (releaseAtStart s)).events = s.events := by
  obtain ⟨e, he⟩ := beginFiltering_eq (releaseAtStart s)
  obtain ⟨hclock, hset, htable, hwork, hinputs, hpins⟩ := enterBoth_frame s
  obtain ⟨hclaims, hevents⟩ := enterBoth_told s h
  refine ⟨fun l => ?_, ?_⟩
  · rw [beginFiltering_lane, releaseAtStart_lane, enterBoth_lane]
    exact entered_startState ..
  · rw [he, releaseAtStart_eq]
    refine ⟨hclaims, startRoute_eq s, rfl, fun n => (build_fin _ n).trans ?_, htable, hwork, hevents⟩
    dsimp only
    rw [hclock, hset, hinputs, hpins]
    rfl

end

/-! ## STARTED (R15 step 4) -/

theorem armedCount_eq {α : Type} {n : Nat} (p : α → Bool) (v : Vector α n) :
    armedCount p v = BitVec.ofNat 16 ((List.finRange n).filter (fun k => p v[k])).length := by
  have listed : v.toList = (List.finRange n).map (fun k => v[k]) := by
    apply List.ext_getElem
    · simp
    · intro i h1 h2
      simp
  rw [armedCount, listed, List.countP_map, List.countP_eq_length_filter]
  rfl

/-- Settles O9: the visits, record by record, then the lanes, then STARTED. -/
theorem startArmsThenReleases : Obligations.StartArmsThenReleases := by
  rintro s u w p left read hw hf rfl hc hm ha ht ho
  refine ⟨?_, ?_, ?_, ?_, ?_⟩
  · rintro k rfl
    rw [workOnce_visit hw hf]
    exact ⟨ruleClaim_armed (s := s.goesOn w left read), ruleClaim_idle (s := s.goesOn w left read),
      fun reason detail h => ruleClaim_refused (s := s.goesOn w left read) h⟩
  · rintro k rfl hd
    rw [workOnce_visit hw hf]
    exact ⟨fun q => takePublication_armed (s := s.goesOn w left read) ha ht ho hd,
      takePublication_idle (s := s.goesOn w left read) ha ht ho hd,
      fun reason detail => takePublication_refused (s := s.goesOn w left read) ha ht ho hd⟩
  · rintro k rfl hd hp hmis
    rw [workOnce_visit hw hf]
    exact ⟨fun q => takeSubscription_armed (s := s.goesOn w left read) ha hd hc hp hmis,
      takeSubscription_idle (s := s.goesOn w left read) ha hd,
      fun reason detail => takeSubscription_refused (s := s.goesOn w left read) ha hd hp⟩
  · rintro rfl hheld
    rw [workOnce_piece hw hf]
    exact lanesPiece_spec (s.goesOn w left read) hc
  · rintro rfl
    rw [workOnce_piece hw hf, ← armedCount_eq (fun p : PubSlot => p.state.armed),
      ← armedCount_eq (fun t : SubSlot => t.state == .armed), ← armedCount_eq (fun r : LinkRule => r.state == .armed)]
    rfl

end Sys2Proof.Machine
end

section
/-! What START's visits leave alone and claim (R15 step 2): the lanes, the posts, and no claim but ARM-REFUSED. -/

namespace Sys2Proof.Machine

/-- Nothing posted, and no TEST-MISMATCH shown by any subscription slot. -/
def Quiet (s : State) : Prop :=
  s.postTrip = [] ∧ s.postOther = [] ∧ ∀ k : Fin 64, s.subs[k].status.mismatch = false

/-- `t` has the lanes of `s` and its claims, with some ARM-REFUSED behind them. -/
def OnlyRefusals (s t : State) : Prop :=
  t.laneA = s.laneA ∧ t.laneB = s.laneB
    ∧ ∃ refused, t.journal.claims = s.journal.claims ++ refused ∧ ∀ c ∈ refused, c.kind = .armRefused

/-- What becomes of a quiet state at a visit. -/
structure Visited (s t : State) : Prop where
  of_quiet : Quiet s → Quiet t ∧ OnlyRefusals s t

theorem OnlyRefusals.refl (s : State) : OnlyRefusals s s := ⟨rfl, rfl, [], by simp⟩

theorem OnlyRefusals.trans {s t u : State} (h : OnlyRefusals s t) (g : OnlyRefusals t u) : OnlyRefusals s u := by
  obtain ⟨hA, hB, cs, hcs, hk⟩ := h
  obtain ⟨gA, gB, ds, hds, gk⟩ := g
  refine ⟨gA.trans hA, gB.trans hB, cs ++ ds, by rw [hds, hcs, List.append_assoc], fun c hc => ?_⟩
  exact (List.mem_append.1 hc).elim (hk c) (gk c)

theorem Visited.refl (s : State) : Visited s s := ⟨fun h => ⟨h, OnlyRefusals.refl s⟩⟩

theorem Visited.trans {s t u : State} (h : Visited s t) (g : Visited t u) : Visited s u := ⟨fun hs => by
  obtain ⟨ht, hst⟩ := h.of_quiet hs
  obtain ⟨hu, htu⟩ := g.of_quiet ht
  exact ⟨hu, hst.trans htu⟩⟩

/-- An operation that keeps lanes, journal, slots and posts visits. -/
theorem visited_of_kept {s t : State}
    (h : t.laneA = s.laneA ∧ t.laneB = s.laneB ∧ t.journal = s.journal ∧ t.subs = s.subs ∧ t.postTrip = s.postTrip
      ∧ t.postOther = s.postOther) : Visited s t := by
  obtain ⟨hA, hB, hj, hsubs, htrip, hother⟩ := h
  refine ⟨fun ⟨qt, qo, qm⟩ => ⟨⟨htrip.trans qt, hother.trans qo, by rw [hsubs]; exact qm⟩, hA, hB, [], ?_, by simp⟩⟩
  rw [hj, List.append_nil]

/-- One slot changed, no mismatch shown, and some ARM-REFUSED claimed. -/
theorem visited_withSlot {s : State} {k : Fin 64} {x : SubSlot} {cs : List JournalClaim}
    (h : s.subs[k].status.mismatch = false → x.status.mismatch = false
      ∧ ∃ refused, cs = s.journal.claims ++ refused ∧ ∀ c ∈ refused, c.kind = .armRefused) :
    Visited s (s.withSlot k x cs) := by
  refine ⟨fun ⟨qt, qo, qm⟩ => ?_⟩
  obtain ⟨hx, refused, hcs, hk⟩ := h (qm k)
  refine ⟨⟨qt, qo, fun j => ?_⟩, rfl, rfl, refused, hcs, hk⟩
  by_cases hj : j = k
  · subst hj
    rw [withSlot_sub]
    exact hx
  · have kept : (s.withSlot k x cs).subs[j] = s.subs[j] := Vector.getElem_set_ne k.isLt j.isLt fun e => hj (Fin.ext e.symm)
    rw [kept]
    exact qm j

/-! ## Delivery -/

theorem modifySub_visited {k : Fin 64} {f : SubSlot → SubSlot} (h : ∀ x, (f x).status = x.status) (s : State) :
    Visited s (s.modifySub k f) := by
  have slot := modifySub_withSlot s k s.subs[k] s.journal.claims f
  rw [withSlot_self] at slot
  rw [slot]
  exact visited_withSlot fun hm => ⟨by rw [h]; exact hm, [], by simp, by simp⟩

/-- R117, R118. What an outcome writes claims nothing but its own ARM-REFUSED, where no mismatch is shown. -/
theorem outcomeWritten_quiet (k : Fin 64) {st : SlotStatus} (cs : List JournalClaim) {o : SlotOutcome}
    (hm : st.mismatch = false) (ho : ∀ r c, o = .refused r c → c.kind = .armRefused) :
    (outcomeWritten k (st, cs) o).1.mismatch = false
      ∧ ∃ refused, (outcomeWritten k (st, cs) o).2 = cs ++ refused ∧ ∀ c ∈ refused, c.kind = .armRefused := by
  cases o with
  | disarmed => exact ⟨hm, [], by simp [outcomeWritten], by simp⟩
  | refused r c => exact ⟨hm, [c], rfl, fun d hd => by rw [List.mem_singleton.1 hd]; exact ho r c rfl⟩
  | armed v marked => exact ⟨rfl, [], by simp [outcomeWritten, hm], by simp⟩

theorem giveOutcome_visited (k : Fin 64) {o : SlotOutcome} (ho : ∀ r c, o = .refused r c → c.kind = .armRefused) (s : State) :
    Visited s (giveOutcome k o s) := by
  unfold giveOutcome
  split
  · exact modifySub_visited (by intro x; rfl) s
  · have slot := applyOutcome_withSlot s k s.subs[k] s.journal.claims o
    rw [withSlot_self] at slot
    rw [slot]
    exact visited_withSlot fun hm => outcomeWritten_quiet k _ hm ho

theorem armDelivery_visited (k : Fin 64) (c : SlotConfig) (s : State) : Visited s (armDelivery k c s) := by
  unfold armDelivery
  exact (modifySub_visited (by intro x; rfl) s).trans (giveOutcome_visited k (by intro r c h; cases h) _)

theorem disarmDelivery_visited (k : Fin 64) (s : State) : Visited s (disarmDelivery k s) := by
  unfold disarmDelivery
  exact (modifySub_visited (by intro x; rfl) s).trans (giveOutcome_visited k (by intro r c h; cases h) _)

theorem refuseDelivery_visited (k : Fin 64) (r : Reason) (i d : Word) (s : State) : Visited s (refuseDelivery k r i d s) := by
  unfold refuseDelivery
  exact (modifySub_visited (by intro x; rfl) s).trans (giveOutcome_visited k (by rintro _ _ ⟨⟩; rfl) _)

theorem detach_visited (k : Fin 64) (s : State) : Visited s (detach k s) := by
  unfold detach
  split
  · exact (visited_of_kept (t := detachEntry k s) (by simp)).trans (modifySub_visited (by intro x; rfl) _)
  · exact Visited.refl s

/-! ## The engine's claims -/

theorem asEngineClaim_visited {f : State → State} {s : State} (h : Visited s (f s)) : Visited s (asEngineClaim f s) :=
  h.trans (visited_of_kept ⟨rfl, rfl, rfl, rfl, rfl, rfl⟩)

theorem putEntry_visited (p : Fin 512) (e : Option Entry) (s : State) : Visited s (s.putEntry p e) :=
  visited_of_kept ⟨rfl, rfl, rfl, rfl, rfl, rfl⟩

theorem makeEntry_visited (p : Fin 512) (e : Entry) (s : State) : Visited s (makeEntry p e s) :=
  visited_of_kept ⟨rfl, rfl, rfl, rfl, rfl, rfl⟩

theorem attach_visited (k : Fin 64) (r : SlotRequest) (s : State) : Visited s (attach k r s) := by
  unfold attach
  split
  · split
    · exact refuseDelivery_visited ..
    · split
      · exact refuseDelivery_visited ..
      · exact (putEntry_visited ..).trans (armDelivery_visited ..)
  · have room : Visited s (makeRoom s) := visited_of_kept (by simp)
    dsimp only
    split
    · exact room.trans ((makeEntry_visited ..).trans (armDelivery_visited ..))
    · exact room.trans (refuseDelivery_visited ..)

theorem subscriptionClaim_visited (k : Fin 64) (s : State) : Visited s (subscriptionClaim k s) := by
  unfold subscriptionClaim armSlot
  dsimp only
  split
  · split
    · exact (detach_visited k s).trans (refuseDelivery_visited ..)
    · exact (detach_visited k s).trans (attach_visited ..)
  · split
    · split
      · exact Visited.refl s
      · exact (detach_visited k s).trans (disarmDelivery_visited ..)
    · exact (detach_visited k s).trans (refuseDelivery_visited ..)

theorem settleAgeing_visited (s : State) : Visited s (settleAgeing s) := visited_of_kept (by simp)

theorem takeSubscription_visited (k : Fin 64) (s : State) : Visited s (takeSubscription k s) :=
  (settleAgeing_visited s).trans (asEngineClaim_visited (subscriptionClaim_visited k _))

/-! ## Publications -/

theorem claim_visited {c : JournalClaim} (h : c.kind = .armRefused) (s : State) : Visited s (claim c s) :=
  ⟨fun hq => ⟨hq, rfl, rfl, [c], rfl, fun d hd => by rw [List.mem_singleton.1 hd]; exact h⟩⟩

theorem updatePub_visited (k : Fin 32) (f : PubSlot → PubSlot) (s : State) : Visited s (updatePub k f s) :=
  visited_of_kept ⟨rfl, rfl, rfl, rfl, rfl, rfl⟩

theorem refusePub_visited (k : Fin 32) (r : Reason) (d : Word) (s : State) : Visited s (refusePub k r d s) := by
  unfold refusePub
  exact (updatePub_visited ..).trans (claim_visited rfl _)

theorem removeHostEntry_visited (k : Fin 32) (s : State) : Visited s (removeHostEntry k s) := visited_of_kept (by simp)

theorem dropPub_visited (k : Fin 32) (s : State) : Visited s (dropPub k s) := by
  unfold dropPub
  refine Visited.trans ⟨fun hq => ?_⟩ (removeHostEntry_visited k _)
  obtain ⟨ht, ho, hm⟩ := hq
  exact ⟨⟨by simp [ht], by simp [ho], hm⟩, by simp [OnlyRefusals]⟩

theorem dropIfArmed_visited (k : Fin 32) (s : State) : Visited s (dropIfArmed k s) := by
  unfold dropIfArmed
  split
  · exact dropPub_visited k s
  · exact Visited.refl s

theorem makeHostEntry_visited {k : Fin 32} {c : PubConfig} {epoch : Byte} {s t : State} (h : makeHostEntry k c epoch s = some t) :
    Visited s t := by
  unfold makeHostEntry at h
  split at h
  · cases h
  · dsimp only at h
    split at h
    · cases h
      exact visited_of_kept (by simp)
    · cases h

theorem armPub_visited (k : Fin 32) (s : State) : Visited s (armPub k s) := by
  unfold armPub
  split
  · exact refusePub_visited ..
  · dsimp only
    split
    · next t h => exact (makeHostEntry_visited h).trans (updatePub_visited ..)
    · exact refusePub_visited ..

theorem publicationClaim_visited (k : Fin 32) (s : State) : Visited s (publicationClaim k s) := by
  unfold publicationClaim
  dsimp only
  split
  · exact (dropIfArmed_visited k s).trans (armPub_visited k _)
  · split
    · split
      · exact Visited.refl s
      · exact (dropIfArmed_visited k s).trans (updatePub_visited ..)
    · exact (dropIfArmed_visited k s).trans (refusePub_visited ..)

/-- R134. With nothing posted, an arm word of a publication slot begins no take. -/
theorem takePublication_visited (k : Fin 32) (s : State) : Visited s (takePublication k s) := by
  have claimed := (settleAgeing_visited s).trans (asEngineClaim_visited (publicationClaim_visited k (settleAgeing s)))
  refine ⟨fun hq => ?_⟩
  have quiet := claimed.of_quiet hq
  rw [takePublication, runTakes_none quiet.1.1 quiet.1.2.1]
  exact quiet

/-! ## Rules -/

theorem ruleClaim_visited (k : Fin 16) (s : State) : Visited s (ruleClaim k s) := by
  have changed (f : LinkRule → LinkRule) : Visited s (s.modifyRule k f) := visited_of_kept ⟨rfl, rfl, rfl, rfl, rfl, rfl⟩
  unfold ruleClaim
  dsimp only
  split
  · split
    · exact (changed _).trans (claim_visited rfl _)
    · exact changed _
  · split
    · split
      · exact Visited.refl s
      · exact changed _
    · exact (changed _).trans (claim_visited rfl _)

theorem takeArm_visited (x : ArmWord) (s : State) : Visited s (takeArm x s) := by
  cases x with
  | subscription k => exact takeSubscription_visited k s
  | publication k => exact takePublication_visited k s
  | rule k => exact ruleClaim_visited k s

end Sys2Proof.Machine
end

section
/-! START as a whole: the visits together, the lanes, STARTED, and RUNNING (R15, R171). -/

namespace Sys2Proof.Machine

/-! ## The visits together -/

/-- What START keeps once its settings are in force. -/
def StartFrame (s t : State) : Prop :=
  t.partState = s.partState ∧ t.mem = s.mem ∧ t.heldArms = s.heldArms ∧ t.settings = s.settings
    ∧ t.journal.written = s.journal.written ∧ t.journal.taken = s.journal.taken

theorem StartFrame.refl (s : State) : StartFrame s s := ⟨rfl, rfl, rfl, rfl, rfl, rfl⟩

theorem StartFrame.trans {s t u : State} (h : StartFrame s t) (g : StartFrame t u) : StartFrame s u := by
  obtain ⟨hp, hm, ha, hs, hw, ht⟩ := h
  obtain ⟨gp, gm, ga, gs, gw, gt⟩ := g
  exact ⟨gp.trans hp, gm.trans hm, ga.trans ha, gs.trans hs, gw.trans hw, gt.trans ht⟩

theorem startFrame_of_spine {s t : State} (h : Spine s t) : StartFrame s t := by
  obtain ⟨-, hp, -, -, -, -, -, -, hm, -, -, ha, hs, -, hw, ht⟩ := h
  exact ⟨hp, hm, ha, hs, hw, ht⟩

theorem goesOn_startFrame (s : State) (w : Working) (left : List StartPiece) (read : List Host.Cell) :
    StartFrame s (s.goesOn w left read) := StartFrame.refl s

theorem goesOn_visited (s : State) (w : Working) (left : List StartPiece) (read : List Host.Cell) :
    Visited s (s.goesOn w left read) := visited_of_kept ⟨rfl, rfl, rfl, rfl, rfl, rfl⟩

theorem Spine.keeps_working {s t : State} (h : Spine s t) : t.working = s.working := by
  obtain ⟨-, -, -, -, -, -, -, -, -, -, hw, -⟩ := h
  exact hw

/-- What every visit of `arms` keeps, they keep together. -/
theorem work_visits {I : State → Prop} (arms : List ArmWord) {s : State} {w : Working} {left : List StartPiece}
    {read : List Host.Cell} (hw : s.working = some w) (hf : w.finish = .starting (arms.map .visit ++ left) read)
    (hI : ∀ x ∈ arms, ∀ t w left, I t → I (takeArm x (State.goesOn t w left read))) (hs : I s) :
    I (work arms.length s) ∧ (work arms.length s).working = some { w with finish := .starting left read } := by
  induction arms generalizing s w with
  | nil =>
    refine ⟨hs, hw.trans ?_⟩
    rw [← show w.finish = .starting left read from hf]
  | cons x arms ih =>
    rw [List.length_cons, work, workOnce_visit hw hf]
    exact ih (w := { w with finish := .starting (arms.map .visit ++ left) read }) (takeArm_spine x _).keeps_working rfl (fun y hy => hI y (List.mem_cons_of_mem x hy))
      (hI x List.mem_cons_self s w _ hs)

/-! ## Rules -/

/-- R15 step 2, R162. The words of rule `k` arm it. -/
def RuleArmable (m : List Host.Cell) (k : Fin 16) : Prop := readWord m (ruleBase k + 11) = 1 ∧ badRule m k = none

/-- R162. Rule `k` is armed as the words `m` say. -/
def RuleArmed (m : List Host.Cell) (k : Fin 16) (s : State) : Prop :=
  s.rules[k].state = .armed ∧ s.rules[k].copy = some (readRule m k)

theorem ruleClaim_self {k : Fin 16} {s : State} (h : RuleArmable s.mem k) : RuleArmed s.mem k (ruleClaim k s) := by
  obtain ⟨harm, hbad⟩ := h
  have slot (r : LinkRule) : (modifyAt s.rules k (fun _ => r))[k] = r := modifyAt_get_self ..
  unfold RuleArmed
  rw [ruleClaim_armed harm hbad]
  dsimp only
  rw [slot]
  exact ⟨rfl, rfl⟩

theorem ruleClaim_other {j k : Fin 16} (h : j ≠ k) (s : State) : (ruleClaim j s).rules[k] = s.rules[k] := by
  have changed (f : LinkRule → LinkRule) : (s.modifyRule j f).rules[k] = s.rules[k] := modifyAt_get_ne s.rules j k f h
  unfold ruleClaim
  dsimp only
  split
  · split <;> exact changed _
  · split
    · split
      · rfl
      · exact changed _
    · exact changed _

/-- A visit of a rule leaves an armable rule armed. -/
theorem ruleClaim_keeps_armed {j k : Fin 16} {s : State} (h : RuleArmable s.mem k) (ha : RuleArmed s.mem k s) :
    RuleArmed s.mem k (ruleClaim j s) := by
  by_cases hj : j = k
  · subst hj
    exact ruleClaim_self h
  · unfold RuleArmed
    rw [ruleClaim_other hj]
    exact ha

theorem visitOrder_split (k : Fin 16) : ∃ before after,
    visitOrder = before ++ .rule k :: List.map .rule after := by
  obtain ⟨as, bs, h⟩ := List.append_of_mem (List.mem_finRange k)
  refine ⟨(List.finRange 32).map .publication ++ (List.finRange 64).map .subscription ++ as.map .rule, bs, ?_⟩
  rw [visitOrder, h, List.map_append, List.map_cons, List.append_assoc]
  simp only [List.append_assoc]

section
variable {s : State} {w : Working} {left : List StartPiece} {read : List Host.Cell} (hw : s.working = some w)
  (hf : w.finish = .starting (visitOrder.map .visit ++ left) read)
include hw hf

/-- R15 step 2. Every rule whose words arm it is armed by the visits. -/
theorem visits_arm_rule {k : Fin 16} (h : RuleArmable s.mem k) : RuleArmed s.mem k (work visitOrder.length s) := by
  obtain ⟨before, after, hsplit⟩ := visitOrder_split k
  rw [hsplit, List.map_append, List.map_cons, List.append_assoc] at hf
  obtain ⟨hmem, hwork⟩ := work_visits (I := fun t => t.mem = s.mem) before hw hf
    (fun x _ t w left ht => (takeArm_spine x _).keeps_mem.trans ht) rfl
  rw [hsplit, List.length_append, List.length_cons, work_add, work]
  generalize work before.length s = t at hmem hwork
  rw [workOnce_visit hwork rfl]
  rw [← hmem] at h ⊢
  have stays (x : ArmWord) (hx : x ∈ after.map .rule) (u : State) (w : Working) (left : List StartPiece)
      (hu : u.mem = t.mem ∧ RuleArmed t.mem k u) : (takeArm x (u.goesOn w left read)).mem = t.mem
        ∧ RuleArmed t.mem k (takeArm x (u.goesOn w left read)) := by
    obtain ⟨j, -, rfl⟩ := List.mem_map.1 hx
    obtain ⟨humem, hu⟩ := hu
    rw [← humem] at h hu ⊢
    exact ⟨(takeArm_spine (.rule j) _).keeps_mem, ruleClaim_keeps_armed (s := u.goesOn w left read) h hu⟩
  obtain ⟨⟨-, armed⟩, -⟩ := work_visits (I := fun u => u.mem = t.mem ∧ RuleArmed t.mem k u) (after.map .rule)
    (takeArm_spine (.rule k) (t.goesOn _ _ read)).keeps_working rfl stays
    ⟨(takeArm_spine (.rule k) _).keeps_mem, ruleClaim_self (s := t.goesOn _ _ read) h⟩
  exact armed

/-- R15 step 2. The visits keep START's frame, the lanes and the posts, and claim ARM-REFUSED alone. -/
theorem visits_keep : (StartFrame s (work visitOrder.length s) ∧ Visited s (work visitOrder.length s))
    ∧ (work visitOrder.length s).working = some { w with finish := .starting left read } :=
  work_visits (I := fun t => StartFrame s t ∧ Visited s t) visitOrder hw hf
    (fun x _ t w left ⟨hframe, hvis⟩ =>
      ⟨hframe.trans ((goesOn_startFrame t w left read).trans (startFrame_of_spine (takeArm_spine x _))),
        hvis.trans ((goesOn_visited t w left read).trans (takeArm_visited x _))⟩)
    ⟨StartFrame.refl s, Visited.refl s⟩

end

end Sys2Proof.Machine
end

section
/-! START as a whole: the lanes, STARTED, the result and RUNNING (R15, R171). -/

namespace Sys2Proof.Machine

theorem enterAtStart_rules (l : Lane) (s : State) : (enterAtStart l s).rules = s.rules := by
  unfold enterAtStart
  simp

theorem releaseAtStart_rules (s : State) : (releaseAtStart s).rules = s.rules := by
  have both := (enterAtStart_rules .b (enterAtStart .a s)).trans (enterAtStart_rules .a s)
  rw [releaseAtStart_eq]
  generalize enterAtStart .b (enterAtStart .a s) = t at both ⊢
  exact both

theorem beginFiltering_rules (s : State) : (beginFiltering s).rules = s.rules := by
  obtain ⟨e, he⟩ := beginFiltering_eq s
  rw [he]

/-- R15 step 3. The lanes that leave HELD leave every rule. -/
theorem lanesPiece_rules (s : State) : (beginFiltering (releaseAtStart s)).rules = s.rules :=
  (beginFiltering_rules _).trans (releaseAtStart_rules s)

theorem lanesPiece_spine (s : State) : Spine s (beginFiltering (releaseAtStart s)) :=
  (releaseAtStart_spine s).trans (beginFiltering_spine _)

section
variable {s : State} {w : Working} {left : List StartPiece} {read : List Host.Cell} (hw : s.working = some w)
include hw

theorem workOnce_lanes (hf : w.finish = .starting (.lanes :: left) read) :
    workOnce s = beginFiltering (releaseAtStart (s.goesOn w left read)) := by
  rw [workOnce_piece hw hf]
  rfl

theorem workOnce_started (hf : w.finish = .starting (.started :: left) read) :
    workOnce s = startedClaim (s.goesOn w left read) := by
  rw [workOnce_piece hw hf]
  rfl

end

/-- R15 step 4, R173. The claim that START is done. -/
def startedOf (s : State) : JournalClaim :=
  { kind := .started, subject := .part, time := s.clock
    d1 := armedCount (fun p => p.state.armed) s.pubs
    d2 := armedCount (fun t => t.state == .armed) s.subs
    d3 := armedCount (fun r => r.state == .armed) s.rules }

theorem startedClaim_claims (s : State) : (startedClaim s).journal.claims = s.journal.claims ++ [startedOf s] := rfl

/-- What START's steps 3 and 4 make of a state `s`. -/
structure Released (s t : State) : Prop where
  frame : StartFrame s t
  rules : t.rules = s.rules
  lanes : ∀ l, (t.lane l).group.state = startState (s.lane l).group.link
  filtering : t.filtering = true
  claims : ∃ (verdicts : List JournalClaim) (started : JournalClaim), t.journal.claims = s.journal.claims ++ verdicts ++ [started]
    ∧ verdicts.map (fun c => (c.kind, c.subject)) = [(.laneVerdict, .lane .a), (.laneVerdict, .lane .b)]
    ∧ started.kind = .started ∧ started.subject = .part

/-- What START's steps 2 to 4 make of a state `s` with START's settings in force. -/
structure StartWorked (s t : State) : Prop where
  frame : StartFrame s t
  rules : ∀ k, RuleArmable s.mem k → RuleArmed s.mem k t
  lanes : ∀ l, (t.lane l).group.state = startState (s.lane l).group.link
  filtering : t.filtering = true
  claims : ∃ (refused verdicts : List JournalClaim) (started : JournalClaim),
    t.journal.claims = s.journal.claims ++ refused ++ verdicts ++ [started]
      ∧ (∀ c ∈ refused, c.kind = .armRefused)
      ∧ verdicts.map (fun c => (c.kind, c.subject)) = [(.laneVerdict, .lane .a), (.laneVerdict, .lane .b)]
      ∧ started.kind = .started ∧ started.subject = .part

theorem goesOn_lane (s : State) (w : Working) (left : List StartPiece) (read : List Host.Cell) (l : Lane) :
    (s.goesOn w left read).lane l = s.lane l := by
  cases l <;> rfl

theorem startedClaim_lane (s : State) (l : Lane) : (startedClaim s).lane l = s.lane l := by
  cases l <;> rfl

theorem onlyRefusals_lane {s t : State} (h : OnlyRefusals s t) (l : Lane) : t.lane l = s.lane l := by
  obtain ⟨hA, hB, -⟩ := h
  cases l
  · exact hA
  · exact hB

section
variable {s : State} {w : Working} {read : List Host.Cell} (hw : s.working = some w) (hc : s.partState = .config)
include hw hc

/-- R15 steps 3 and 4. -/
theorem work_released (hf : w.finish = .starting [.lanes, .started] read) :
    Released s (work 2 s) ∧ (work 2 s).working = some { w with finish := .starting [] read } := by
  obtain ⟨lstate, lclaims, -, lfiltering, -, -, lwork, -⟩ := lanesPiece_spec (s.goesOn w [.started] read) hc
  have lframe := (goesOn_startFrame s w [.started] read).trans (startFrame_of_spine (lanesPiece_spine _))
  have lrules := lanesPiece_rules (s.goesOn w [.started] read)
  rw [work, work, work, workOnce_lanes hw hf]
  generalize beginFiltering (releaseAtStart (s.goesOn w [.started] read)) = u at lstate lclaims lfiltering lwork lframe lrules
  rw [workOnce_started lwork rfl]
  refine ⟨⟨?_, lrules, fun l => ?_, lfiltering, ?_⟩, rfl⟩
  · exact lframe.trans ((goesOn_startFrame u _ [] read).trans (startFrame_of_spine (startedClaim_spine _)))
  · obtain ⟨state, -⟩ := lstate l
    rw [startedClaim_lane, goesOn_lane, state, goesOn_lane]
  · exact ⟨_, _, (startedClaim_claims _).trans (congrArg (· ++ [_]) lclaims), rfl, rfl, rfl⟩

/-- R15 steps 2 to 4. The work that is left once the settings are in force. -/
theorem work_started (hf : w.finish = .starting (visitOrder.map .visit ++ [.lanes, .started]) read) (hq : Quiet s) :
    StartWorked s (work (visitOrder.length + 2) s)
      ∧ (work (visitOrder.length + 2) s).working = some { w with finish := .starting [] read } := by
  obtain ⟨⟨vframe, vvisit⟩, vwork⟩ := visits_keep hw hf
  obtain ⟨-, only⟩ := vvisit.of_quiet hq
  have vrules (k : Fin 16) (h : RuleArmable s.mem k) := visits_arm_rule hw hf h
  rw [work_add]
  generalize work visitOrder.length s = t at vframe vwork only vrules
  obtain ⟨⟨rframe, rrules, rlanes, rfiltering, verdicts, started, rclaims, hverdicts, hstarted⟩, rwork⟩ :=
    work_released vwork (vframe.1.trans hc) rfl
  refine ⟨⟨vframe.trans rframe, fun k h => ?_, fun l => ?_, rfiltering, ?_⟩, rwork⟩
  · have armed := vrules k h
    unfold RuleArmed at armed ⊢
    rw [rrules]
    exact armed
  · rw [rlanes, onlyRefusals_lane only]
  · obtain ⟨-, -, refused, hrefused, hkind⟩ := only
    exact ⟨refused, verdicts, started, by rw [rclaims, hrefused], hkind, hverdicts, hstarted⟩

end

end Sys2Proof.Machine
end

section
/-! START from its command to RUNNING (R13, R15, R171). -/

namespace Sys2Proof.Machine

/-! ## The settings of START -/

/-- The settings words read by START are judged, and taken, as those of the memory they were read from. -/
theorem snapshot_settings (m : List Host.Cell) :
    badStart (snapshot m settingsAddrs) = badStart m ∧ readSettings (snapshot m settingsAddrs) = readSettings m :=
  settings_agree fun a h => readWord_snapshot m settingsAddrs a h

section
variable (read : List Host.Cell) (s : State)

theorem takeStartSettings_frame :
    (takeStartSettings read s).partState = s.partState ∧ (takeStartSettings read s).mem = s.mem
      ∧ (takeStartSettings read s).heldArms = s.heldArms ∧ (takeStartSettings read s).settings = readSettings read
      ∧ (takeStartSettings read s).working = s.working := by
  obtain ⟨e, he⟩ := takeStartSettings_eq read s
  rw [he]
  exact ⟨rfl, rfl, rfl, rfl, rfl⟩

theorem takeStartSettings_lane (l : Lane) : (takeStartSettings read s).lane l = s.lane l := by
  obtain ⟨e, he⟩ := takeStartSettings_eq read s
  rw [he]
  cases l <;> rfl

theorem takeStartSettings_quiet (h : Quiet s) : Quiet (takeStartSettings read s) := by
  obtain ⟨e, he⟩ := takeStartSettings_eq read s
  rw [he]
  exact h

/-- R161. With no output driven, the settings of START claim nothing. -/
theorem takeStartSettings_journal (h : ∀ n : Fin 4, s.outputs[n].driven = false) :
    (takeStartSettings read s).journal.claims = s.journal.claims
      ∧ (takeStartSettings read s).journal.written = s.journal.written
      ∧ (takeStartSettings read s).journal.taken = s.journal.taken := by
  obtain ⟨e, he⟩ := takeStartSettings_eq read s
  have none : (List.finRange 4).filter (fun n => s.outputs[n].driven && !(readSettings read).outputs[n].permitted) = [] :=
    List.filter_eq_nil_iff.2 fun n _ => by rw [h n]; exact Bool.false_ne_true
  rw [he]
  dsimp only
  rw [none, journalFollow_eq]
  exact ⟨List.append_nil _, rfl, rfl⟩

end

/-! ## The work of START -/

/-- R15. What is left of START's work with its settings in force. -/
def visitsLeft : List StartPiece := visitOrder.map .visit ++ [.lanes, .started]

/-- R15. What is left of START's work when its words are read. -/
def afterReads : List StartPiece := .settings :: visitsLeft

theorem startPieces_reads : startPieces = settingsAddrs.map .read ++ afterReads := by
  simp only [startPieces, afterReads, visitsLeft, List.append_assoc, List.cons_append, List.nil_append]

section
variable {s : State} {w : Working} (hw : s.working = some w) (hf : w.finish = .starting startPieces [])
include hw hf

/-- R15. All of START's work: the reads, then the piece that takes the settings, then the rest. -/
theorem workedOut_start : s.workedOut =
    work (visitOrder.length + 2) (workOnce (s.goesOn w afterReads (snapshot s.mem settingsAddrs))) := by
  have pieces : startPieces.length = settingsAddrs.length + (visitOrder.length + 2 + 1) := by
    rw [startPieces_reads, List.length_append, List.length_map, afterReads, visitsLeft, List.length_cons, List.length_append, List.length_map]
    rfl
  rw [State.workedOut, startLeft_of hw hf]
  dsimp only
  rw [pieces, work_add, work_reads settingsAddrs afterReads [] w s hw (by rw [hf, startPieces_reads])]
  rfl

/-- R15. A setting out of range ends the work of START with nothing done. -/
theorem workedOut_bad {a : Nat} (hb : badStart s.mem = some a) : s.workedOut =
    { s with working := some { w with code := .badSetting, detail := BitVec.ofNat 16 a, finish := .nothing } } := by
  obtain ⟨bad, -⟩ := snapshot_settings s.mem
  rw [workedOut_start hw hf, workOnce_settings_bad (s := s.goesOn w afterReads _) rfl rfl (bad.trans hb)]
  exact work_idle (.inl rfl) _

/-- R15 step 1. With every setting in range the settings come into force, and the rest of the work follows. -/
theorem workedOut_good (hb : badStart s.mem = none) : s.workedOut = work (visitOrder.length + 2)
    (takeStartSettings (snapshot s.mem settingsAddrs)
      (s.goesOn w visitsLeft (snapshot s.mem settingsAddrs))) := by
  obtain ⟨bad, -⟩ := snapshot_settings s.mem
  rw [workedOut_start hw hf, workOnce_settings_good (s := s.goesOn w afterReads _) rfl rfl (bad.trans hb)]
  rfl

end

/-! ## RUNNING -/

/-- R15 step 5, R171. START's end in a state with no arm writes held. -/
theorem complete_start {s : State} {w : Working} {read : List Host.Cell} (hf : w.finish = .starting [] read) (ha : s.heldArms = []) :
    complete w s = { s with
      partState := .running
      heldArms := []
      journal := { s.journal with
        int := s.settings.intEnable && !s.settings.intPulse && decide (s.journal.written ≠ s.journal.taken)
        pulseEnds := none }
      table := mapAll (Option.map (Entry.startDeadline s.clock)) s.table
      result := { echo := w.echo, code := some w.code, detail := w.detail }
      working := none } := by
  rw [complete, hf, finishStart_eq, ha]
  rfl

/-- R15. START as it is taken in `s`, with all its work before it. -/
def startTaken (s : State) : State :=
  { s with
    mem := writeWord s.mem commandWord 1
    free := s.free + 1
    working := some { echo := 1, code := .done, detail := 0, finish := .starting startPieces [] } }

/-- START taken in CONFIG, whatever is done of it before its completion. -/
theorem exec_start_completion {s : State} (hc : s.partState = .config) (hw : s.working = none) :
    ∃ t, exec .start s = .next t ∧ exec .commandCompletion t = .next (completeCommand (startTaken s)) := by
  have taken := exec_start (by rw [hc]; exact PartState.noConfusion) hw
  rw [commandStart_config (s := { s with mem := writeWord s.mem commandWord 1 }) hc] at taken
  exact ⟨_, taken, congrArg Host.Outcome.next (completeCommand_work _ _)⟩

/-! ## START and its completion -/

theorem completeCommand_working {s : State} {w : Working} (h : s.workedOut.working = some w) :
    completeCommand s = complete w s.workedOut := by
  rw [completeCommand_workedOut, h]

theorem complete_nothing {s : State} {w : Working} (h : w.finish = .nothing) : complete w s = { s with
    result := { echo := w.echo, code := some w.code, detail := w.detail }, working := none } := by
  rw [complete, h]
  rfl

/-- R15. What START makes of a state with every setting in range, before its step 5. -/
theorem start_worked {s : State} {w : Working} (hw : s.working = some w) (hf : w.finish = .starting startPieces [])
    (hb : badStart s.mem = none) (hc : s.partState = .config) (hq : Quiet s) (ho : ∀ n : Fin 4, s.outputs[n].driven = false) :
    ∃ taken done read, completeCommand s = complete { w with finish := .starting [] read } done ∧ StartWorked taken done
      ∧ StartFrame { s with settings := readSettings s.mem } taken ∧ (∀ l, taken.lane l = s.lane l)
      ∧ taken.journal.claims = s.journal.claims := by
  obtain ⟨-, set⟩ := snapshot_settings s.mem
  have good := workedOut_good hw hf hb
  generalize snapshot s.mem settingsAddrs = read at set good
  obtain ⟨hpart, hmem, harms, hset, hwork⟩ := takeStartSettings_frame read (s.goesOn w visitsLeft read)
  obtain ⟨hclaims, hwritten, htaken⟩ := takeStartSettings_journal read (s.goesOn w visitsLeft read) ho
  obtain ⟨worked, working⟩ := work_started hwork (hpart.trans hc) rfl (takeStartSettings_quiet read _ hq)
  rw [← good] at worked working
  refine ⟨_, _, read, completeCommand_working working, worked, ⟨hpart, hmem, harms, hset.trans set, hwritten, htaken⟩, fun l => ?_, hclaims⟩
  rw [takeStartSettings_lane, goesOn_lane]

/-- Settles O10: the work of START from its first piece, then its step 5. -/
theorem startEndsInRunning : Obligations.StartEndsInRunning := by
  rintro s m hc hw harms - rfl - hmis ho htrip hother
  obtain ⟨t, starts, completes⟩ := exec_start_completion hc hw
  cases hb : badStart (writeWord s.mem commandWord 1) with
  | some a =>
    have worked := workedOut_bad (s := startTaken s) rfl rfl hb
    have ends := completeCommand_working (s := startTaken s) (congrArg State.working worked)
    rw [worked, complete_nothing rfl] at ends
    refine ⟨t, _, starts, completes.trans (congrArg _ ends), rfl, rfl, fun b hab => ?_, nofun⟩
    cases hab
    exact congrArg (fun x => ({ s with
      mem := writeWord s.mem commandWord 1, free := s.free + 1, working := x
      result := { echo := 1, code := some .badSetting, detail := BitVec.ofNat 16 a } } : State)) hw.symm
  | none =>
    obtain ⟨taken, done, read, ends, worked, tframe, tlanes, tclaims⟩ := start_worked (s := startTaken s) rfl rfl hb hc
      ⟨htrip, hother, hmis⟩ ho
    obtain ⟨frame, rules, lanes, filtering, refused, verdicts, started, claims, kinds⟩ := worked
    obtain ⟨-, gmem, garms, gset, gwritten, gtaken⟩ := tframe.trans frame
    obtain ⟨-, tmem, -⟩ := tframe
    rw [complete_start rfl (garms.trans harms)] at ends
    refine ⟨t, _, starts, completes.trans (congrArg _ ends), rfl, gmem, nofun, fun _ => ⟨rfl, rfl, gset, fun k harm hbad => ?_,
      fun l => ?_, filtering, ?_, rfl, refused, verdicts, started, ?_, kinds⟩⟩
    · have armed := rules k (by rw [tmem]; exact ⟨harm, hbad⟩)
      rw [tmem] at armed
      exact armed
    · have lane := lanes l
      rw [tlanes] at lane
      cases l <;> exact lane
    · dsimp only
      rw [gset, gwritten, gtaken]
      rfl
    · rw [tclaims] at claims
      exact claims

end Sys2Proof.Machine
end

section
/-! The rooms of the queues and of Twin Watch's lists (R35, R78, R82, R144): no operation of the part puts more into one than its
room, so no step does. -/

namespace Sys2Proof.Machine

/-! ## What is bounded -/

/-- R35, R144. No queue of the lane port holds more than its room. -/
def LanePort.withinRoom (p : LanePort) : Prop :=
  p.arrivals.length ≤ Config.arrivalRoom ∧ p.urgent.length ≤ Config.urgentRoom ∧ p.normal.length ≤ Config.normalRoom

/-- R35, R144. No queue of the bay port holds more than its room. -/
def BayPort.withinRoom (p : BayPort) : Prop :=
  p.arrivals.length ≤ Config.arrivalRoom ∧ p.queue.length ≤ Config.bayRoom

theorem QueuesBounded.lane {s : State} (h : QueuesBounded s) (l : Lane) : (s.lane l).withinRoom := h.1 l

theorem QueuesBounded.bay {s : State} (h : QueuesBounded s) (p : Fin 4) : s.bays[p].withinRoom := h.2.1 p

/-- The ports and the lists of Twin Watch. -/
def State.queues (s : State) : LanePort × LanePort × Vector BayPort 4 × List WatchEntry × List MissNote :=
  (s.laneA, s.laneB, s.bays, s.watchList, s.missNotes)

/-- A state with the ports and lists of a bounded one is bounded. -/
theorem QueuesBounded.of_same {s t : State} (h : QueuesBounded s) (same : t.queues = s.queues := by simp [State.queues]) :
    QueuesBounded t := by
  simp only [State.queues, Prod.mk.injEq] at same
  obtain ⟨ha, hb, hbays, hwatch, hnotes⟩ := same
  have hl (l : Lane) : t.lane l = s.lane l := by cases l; exacts [ha, hb]
  unfold QueuesBounded at h ⊢
  simpa only [hl, hbays, hwatch, hnotes] using h

theorem modifyLane_bounded {s : State} (h : QueuesBounded s) {l : Lane} {f : LanePort → LanePort}
    (hf : (f (s.lane l)).withinRoom) : QueuesBounded (s.modifyLane l f) := by
  obtain ⟨hlanes, hbays, hwatch, hnotes⟩ := h
  refine ⟨fun m => ?_, by simpa using hbays, by simpa using hwatch, by simpa using hnotes⟩
  rw [modifyLane_lane]
  split
  · exact hf
  · exact hlanes m

theorem modifyBay_bounded {s : State} (h : QueuesBounded s) {p : Fin 4} {f : BayPort → BayPort}
    (hf : (f s.bays[p]).withinRoom) : QueuesBounded (s.modifyBay p f) := by
  obtain ⟨hlanes, hbays, hlists⟩ := h
  refine ⟨hlanes, fun q => ?_, hlists⟩
  rw [modifyBay_bays, modifyAt_get]
  split
  · exact hf
  · exact hbays q

/-- A state with the ports of a bounded one and lists within their room is bounded. -/
theorem lists_bounded {s t : State} (h : QueuesBounded s) (hwatch : t.watchList.length ≤ Config.watchRoom)
    (hnotes : t.missNotes.length ≤ Config.missRoom)
    (ports : (t.laneA, t.laneB, t.bays) = (s.laneA, s.laneB, s.bays) := by simp) : QueuesBounded t := by
  obtain ⟨hlanes, hbays, -⟩ := h
  simp only [Prod.mk.injEq] at ports
  obtain ⟨ha, hb, hp⟩ := ports
  have hl (l : Lane) : t.lane l = s.lane l := by cases l; exacts [ha, hb]
  refine ⟨fun l => ?_, hp ▸ hbays, hwatch, hnotes⟩
  rw [hl]
  exact hlanes l

theorem foldl_bounded {α : Type} {f : State → α → State} (hf : ∀ s x, QueuesBounded s → QueuesBounded (f s x)) (l : List α)
    {s : State} (h : QueuesBounded s) : QueuesBounded (l.foldl f s) :=
  List.foldlRecOn l f h fun s hs x _ => hf s x hs

/-! ## The ports -/

theorem laneBegin_withinRoom (l : Lane) {p : LanePort} (hp : p.withinRoom) : (p.begin l).withinRoom := by
  obtain ⟨harr, hurg, hnorm⟩ := hp
  obtain ⟨shorter, shorter', same, -⟩ := laneBegin_length l p
  exact ⟨same ▸ harr, shorter.trans hurg, shorter'.trans hnorm⟩

theorem bayBegin_withinRoom (link : Bool) {b : BayPort} (hb : b.withinRoom) : (b.begin link).withinRoom := by
  obtain ⟨harr, hq⟩ := hb
  obtain ⟨shorter, same⟩ := bayBegin_length link b
  exact ⟨same ▸ harr, shorter.trans hq⟩

section
variable {s : State} (h : QueuesBounded s)
include h

theorem updateLane_bounded (l : Lane) (f : LaneGroup → LaneGroup) : QueuesBounded (updateLane l f s) :=
  modifyLane_bounded h (h.lane l)

theorem countLane_bounded (l : Lane) (f : LaneGroup → LaneGroup) (c : LaneCounter) (t : Clock) :
    QueuesBounded (countLane l f c t s) :=
  (updateLane_bounded h l (fun g => (f g).bump c)).of_same (by simp [State.queues, countLane])

theorem countBay_bounded (p : Fin 4) (f : BayBlock → BayBlock) (c : BayCounter) (t : Clock) :
    QueuesBounded (countBay p f c t s) := h.of_same

/-- R145. A record that is placed joins a queue with room for it; one that is not is dropped. -/
theorem offerLane_bounded (l : Lane) (r : TxRecord) : QueuesBounded (offerLane l r s) := by
  unfold offerLane
  split
  · exact updateLane_bounded h l _
  · split
    · next p placed =>
      obtain ⟨harr, hurg, hnorm⟩ := h.lane l
      obtain ⟨hurg', hnorm', same⟩ := laneEnqueue_length r _ p placed hurg hnorm
      exact modifyLane_bounded h (laneBegin_withinRoom l ⟨same ▸ harr, hurg', hnorm'⟩)
    · exact countLane_bounded h l _ _ _

theorem laneSent_bounded (l : Lane) : QueuesBounded (laneSent l s) := by
  unfold laneSent
  split
  · exact h
  · have sent := updateLane_bounded h l (fun g => { g with sent := g.sent + 1 })
    exact modifyLane_bounded sent (laneBegin_withinRoom l (sent.lane l))

/-- R149, R150. A bay port's queue grows only while it has room. -/
theorem offerBay_bounded (p : Fin 4) (r : TxRecord) : QueuesBounded (offerBay p r s) := by
  have placed : QueuesBounded (s.modifyBay p fun b =>
      BayPort.begin s.bayGroup.ports[p].link { b with queue := (BayPort.enqueue r s.bays[p].queue).1 }) := by
    obtain ⟨harr, hq⟩ := h.bay p
    exact modifyBay_bounded h (bayBegin_withinRoom _ ⟨harr, bayEnqueue_length r _ hq⟩)
  unfold offerBay
  dsimp only
  repeat' split
  · exact h
  · exact h.of_same
  · exact countBay_bounded placed p _ _ _
  · exact placed

theorem offerBays_bounded (set : PortSet) (r : TxRecord) : QueuesBounded (offerBays set r s) := by
  refine foldl_bounded (fun t p ht => ?_) _ h
  split
  · exact offerBay_bounded ht p r
  · exact ht

theorem baySent_bounded (p : Fin 4) : QueuesBounded (baySent p s) := by
  unfold baySent
  split
  · exact h
  · have sent : QueuesBounded (updateBay p (fun b => { b with sent := b.sent + 1 }) s) := h.of_same
    exact modifyBay_bounded sent (bayBegin_withinRoom _ (h.bay p))

/-- R35. A frame joins an arrival queue only while that has room. -/
theorem receiveLane_bounded (l : Lane) (f : List Byte) : QueuesBounded (receiveLane l f s) := by
  have join (a : Arrival) : QueuesBounded (joinLane l a s) := by
    unfold joinLane
    split
    · next room =>
      obtain ⟨-, hurg, hnorm⟩ := h.lane l
      refine modifyLane_bounded (updateLane_bounded h l _) ⟨?_, by simpa using hurg, by simpa using hnorm⟩
      simpa using room
    · exact countLane_bounded h l _ _ _
  have bare (b : List Byte) : QueuesBounded (bareFromLane l b s) := by
    unfold bareFromLane
    split
    · exact offerBays_bounded (updateLane_bounded h l _) _ _
    · exact countLane_bounded h l _ _ _
  unfold receiveLane classifyLane
  dsimp only
  repeat' split
  all_goals simp only [h, join, bare, countLane_bounded]

theorem receiveBay_bounded (p : Fin 4) (f : List Byte) : QueuesBounded (receiveBay p f s) := by
  have join (a : Arrival) : QueuesBounded (joinBay p a s) := by
    unfold joinBay
    split
    · next room =>
      obtain ⟨-, hq⟩ := h.bay p
      have arrived : QueuesBounded (updateBay p BayBlock.arrived s) := h.of_same
      refine modifyBay_bounded arrived ⟨?_, by simpa using hq⟩
      simpa using room
    · exact countBay_bounded h p _ _ _
  have bare (b : List Byte) : QueuesBounded (bareFromBay p b s) := by
    unfold bareFromBay
    split
    · have arrived : QueuesBounded (updateBay p BayBlock.arrived s) := h.of_same
      exact offerLane_bounded arrived _ _
    · exact countBay_bounded h p _ _ _
  unfold receiveBay classifyBay
  dsimp only
  repeat' split
  all_goals simp only [h, join, bare, countBay_bounded]

end

end Sys2Proof.Machine
end

section
/-! The rooms of the queues over the Lane Supervisor, Twin Watch, Delivery and the stream table (R78, R82, R96, R144). -/

namespace Sys2Proof.Machine

/-! ## Lane Supervisor and links -/

section
variable {s : State} (h : QueuesBounded s)
include h

/-- R96, R97. A lane's change of state keeps its queues or empties them. -/
theorem enterState_bounded (l : Lane) (n : LaneState) (f : LaneGroup → LaneGroup) : QueuesBounded (enterState l n f s) := by
  have entered : QueuesBounded (s.modifyLane l (LanePort.entered n f s.clock s.settings.provingPeriod)) := by
    obtain ⟨harr, hurg, hnorm⟩ := h.lane l
    obtain ⟨same, shorter, shorter'⟩ := entered_queues n f s.clock s.settings.provingPeriod (s.lane l)
    exact modifyLane_bounded h ⟨same ▸ harr, shorter.trans hurg, shorter'.trans hnorm⟩
  unfold enterState
  dsimp only
  repeat' split
  all_goals exact entered.of_same rfl

theorem moveLane_bounded (l : Lane) (n : LaneState) (c : LaneCause) (f : LaneGroup → LaneGroup) :
    QueuesBounded (moveLane l n c f s) :=
  (enterState_bounded h l n f).of_same (by simp [State.queues, moveLane])

theorem releaseLane_bounded (l : Lane) (c : LaneCause) : QueuesBounded (releaseLane l c s) := by
  unfold releaseLane
  split
  · exact moveLane_bounded h ..
  · exact h

theorem holdLane_bounded (l : Lane) : QueuesBounded (holdLane l s) := by
  unfold holdLane
  split
  · exact h
  · exact moveLane_bounded h ..

theorem releaseAtStart_bounded : QueuesBounded (releaseAtStart s) := by
  have enter {u : State} (hu : QueuesBounded u) (l : Lane) : QueuesBounded (enterAtStart l u) :=
    (enterState_bounded hu l (startState (u.lane l).group.link) id).of_same (by simp [State.queues, enterAtStart])
  have both := enter (enter h .a) .b
  rw [releaseAtStart_eq]
  generalize enterAtStart .b (enterAtStart .a s) = t at both ⊢
  exact both

theorem takeLone_bounded (rise : Bool) : QueuesBounded (takeLone rise s) := by
  have apply {u : State} (hu : QueuesBounded u) (c : LoneChange) : QueuesBounded (applyLone c u) := by
    unfold applyLone
    dsimp only
    repeat' split
    · exact hu
    · exact moveLane_bounded hu ..
    · exact updateLane_bounded hu ..
  unfold takeLone
  repeat' split
  · next c rest _ _ => exact apply (u := { s with loneChanges := rest }) h c
  · exact h
  · exact h

theorem provingExpired_bounded (l : Lane) : QueuesBounded (provingExpired l s) := by
  unfold provingExpired
  repeat' split
  · exact moveLane_bounded h ..
  · exact h
  · exact h

theorem laneUp_bounded (l : Lane) : QueuesBounded (laneUp l s) := by
  have pin : QueuesBounded (s.setLanePin l true) := h.of_same
  have up := updateLane_bounded pin l (fun g => { g with link := true })
  unfold laneUp
  dsimp only
  repeat' split
  · exact pin
  · exact moveLane_bounded up ..
  · exact modifyLane_bounded up (laneBegin_withinRoom l (up.lane l))

theorem laneDown_bounded (l : Lane) (cut : Bool) : QueuesBounded (laneDown l cut s) := by
  have pin : QueuesBounded (s.setLanePin l false) := h.of_same
  have cutHeld {u : State} (hu : QueuesBounded u) : QueuesBounded (u.modifyLane l LanePort.cutHeld) :=
    modifyLane_bounded hu (hu.lane l)
  have counted (f : LaneGroup → LaneGroup) (c : LaneCounter) (t : Clock) := cutHeld (countLane_bounded pin l f c t)
  have updated (f : LaneGroup → LaneGroup) := cutHeld (updateLane_bounded pin l f)
  unfold laneDown
  dsimp only
  repeat' split
  · exact pin
  · exact moveLane_bounded (counted ..) ..
  · exact moveLane_bounded (updated ..) ..
  · exact counted ..
  · exact updated ..

theorem bayUp_bounded (p : Fin 4) : QueuesBounded (bayUp p s) := by
  unfold bayUp
  dsimp only
  split <;> exact h.of_same rfl

theorem bayDown_bounded (p : Fin 4) (cut : Bool) : QueuesBounded (bayDown p cut s) := by
  have pin : QueuesBounded (s.setBayPin p false) := h.of_same rfl
  have emptied : QueuesBounded ((s.setBayPin p false).modifyBay p fun b => { b with queue := [], wire := none }) := by
    obtain ⟨harr, -⟩ := pin.bay p
    exact modifyBay_bounded pin ⟨harr, Nat.zero_le _⟩
  unfold bayDown
  dsimp only
  split
  · exact pin
  · generalize (s.setBayPin p false).bays[p].queue.length + _ = n
    split
    · exact countBay_bounded emptied ..
    · exact emptied.of_same rfl

/-! ## Twin Watch -/

/-- R78. A watch request is granted only while the list has room. -/
theorem watchAsked_bounded (i r q : Word) (l : Lane) (t : Clock) : QueuesBounded (watchAsked i r q l t s) := by
  obtain ⟨-, -, -, hnotes⟩ := id h
  unfold watchAsked
  repeat' split
  · exact h
  · exact h.of_same rfl
  · exact h
  · next room _ =>
    refine lists_bounded h ?_ ((List.length_filter_le ..).trans hnotes)
    have len := congrArg List.length
      (List.takeWhile_append_dropWhile (p := fun v : WatchEntry => reached (watchFor i r q l t s).deadline v.deadline)
        (l := s.watchList))
    simp only [setWatch, updateCounters_frame, insertWatch, List.length_append, List.length_singleton] at len ⊢
    omega

theorem twinJudged_bounded (i r q : Word) (l : Lane) (t : Clock) : QueuesBounded (twinJudged i r q l t s) := by
  obtain ⟨-, -, hwatch, hnotes⟩ := id h
  unfold twinJudged
  dsimp only
  repeat' split
  · exact lists_bounded h ((List.length_filter_le ..).trans hwatch) hnotes
  · exact lists_bounded h hwatch ((List.length_filter_le ..).trans hnotes)
  · exact h.of_same rfl

theorem dropWatches_bounded (e : WatchEntry → Bool) (n : MissNote → Bool) : QueuesBounded (dropWatches e n s) := by
  obtain ⟨-, -, hwatch, hnotes⟩ := id h
  exact lists_bounded h ((List.length_filter_le ..).trans hwatch) ((List.length_filter_le ..).trans hnotes)

end

/-- R82. The oldest miss note gives way to a new one when they are at their room. -/
theorem addNote_length (n : MissNote) {notes : List MissNote} (hn : notes.length ≤ Config.missRoom) :
    (addNote n notes).length ≤ Config.missRoom := by
  unfold addNote
  split <;> simp only [List.length_append, List.length_tail, List.length_singleton, Config.missRoom] at * <;> omega

theorem watchExpired_bounded {s : State} (h : QueuesBounded s) {w : WatchEntry} {rest : List WatchEntry}
    (hw : s.watchList = w :: rest) : QueuesBounded (watchExpired w rest s) := by
  obtain ⟨-, -, hwatch, hnotes⟩ := id h
  rw [hw] at hwatch
  exact lists_bounded h ((Nat.le_succ _).trans hwatch) (addNote_length _ hnotes) rfl

/-! ## Delivery and the stream table, which have no part in the queues -/

theorem completeDelivery_queues (k : Fin 64) (d : InProgress) (s : State) : (completeDelivery k d s).queues = s.queues := by
  have updates (c : Copy) (dues : List DueView) (u : State) : (updatesAndDelivery k c dues u).queues = u.queues := by
    induction dues generalizing u with
    | nil => rfl
    | cons d rest ih =>
      unfold updatesAndDelivery
      dsimp only
      split
      · rw [ih]; rfl
      · rfl
  have after (u : State) : (afterDelivery k u).queues = u.queues := by
    unfold afterDelivery
    dsimp only
    split
    · exact (foldl_keeps State.queues (fun s d => writeView k d s) (fun t d => rfl) _ _).trans rfl
    · rw [updates]; rfl
  have written : (writeDelivery k d s).queues = s.queues := by
    unfold writeDelivery notifyClaim flagClaim
    dsimp only
    (repeat' split) <;> rfl
  have flag (u : State) : (showFlag k u).queues = u.queues := by simp [State.queues]
  have outcomes (os : List SlotOutcome) (u : State) : (os.foldl (fun s o => applyOutcome k o s) u).queues = u.queues :=
    foldl_keeps State.queues _ (fun t o => by simp [State.queues]) os u
  unfold completeDelivery
  dsimp only
  split
  · rw [after, outcomes]; exact written
  · rw [flag, after, outcomes]; exact written

theorem takeSubscription_queues (k : Fin 64) (s : State) : (takeSubscription k s).queues = s.queues := by
  have arm (u : State) : (armSlot k u).queues = u.queues := by
    unfold armSlot attach
    dsimp only
    (repeat' split) <;> simp [State.queues]
  have off (u : State) : (detach k u).queues = u.queues := by
    unfold detach
    split <;> simp [State.queues]
  have claimed (u : State) : (subscriptionClaim k u).queues = u.queues := by
    unfold subscriptionClaim
    dsimp only
    repeat' split
    · rw [arm, off]
    · rfl
    · rw [← off u]; simp [State.queues]
    · rw [← off u]; simp [State.queues]
  have settled : (settleAgeing s).queues = s.queues := by simp [State.queues]
  exact (claimed _).trans settled

theorem expireFreshness_queues (i : Word) (s : State) : (expireFreshness i s).queues = s.queues := by
  have stale (p : Fin 512) (e : Entry) (t : Clock) (q m : Word) : (goStale p e t q m s).queues = s.queues := by
    unfold goStale
    dsimp only
    (repeat' split) <;> simp [State.queues]
  unfold expireFreshness
  repeat' split
  · exact stale ..
  all_goals rfl

theorem asEngineClaim_queues (f : State → State) (s : State) : (asEngineClaim f s).queues = (f s).queues := rfl

theorem applyMiss_queues (i r : Word) (l : Lane) (c : Word) (s : State) : (applyMiss i r l c s).queues = s.queues := by
  unfold applyMiss
  dsimp only
  (repeat' split) <;> simp [State.queues]

theorem applyCredit_queues (i r : Word) (l : Lane) (s : State) : (applyCredit i r l s).queues = s.queues := by
  unfold applyCredit
  dsimp only
  (repeat' split) <;> simp [State.queues]

theorem noticeLane_queues (l : Lane) (s : State) : (noticeLane l s).queues = s.queues := by
  unfold noticeLane
  dsimp only
  refine (foldl_keeps State.queues _ (fun u k => ?_) _ _).trans rfl
  split <;> simp [State.queues]

end Sys2Proof.Machine
end

section
/-! The rooms of the queues over the engine's arrivals, the scheduler, the contact unit and the rules (R35, R70, R76, R139, R144). -/

namespace Sys2Proof.Machine

section
variable {s : State} (h : QueuesBounded s)
include h

/-! ## The engine's arrivals -/

theorem popArrival_bounded (p : Port) : QueuesBounded (popArrival p s) := by
  have served : QueuesBounded { s with lastServed := p } := h
  have tail {q : List Arrival} (hq : q.length ≤ Config.arrivalRoom) : q.tail.length ≤ Config.arrivalRoom :=
    by
    rw [List.length_tail]
    omega
  cases p with
  | lane l =>
    obtain ⟨harr, hsend⟩ := served.lane l
    exact modifyLane_bounded served ⟨tail harr, hsend⟩
  | bay q =>
    obtain ⟨harr, hsend⟩ := served.bay q
    exact modifyBay_bounded served ⟨tail harr, hsend⟩

theorem acceptFirst_bounded (p : Fin 512) (e : Entry) (j : Judgement) (w : Option Window) (a : Arrival) (q : Word) (l : Lane) :
    QueuesBounded (acceptFirst p e j w a q l s) := by
  have relayed {u : State} (hu : u.queues = s.queues) (set : PortSet) (r : TxRecord) :
      QueuesBounded (askWatch e a q l (offerBays set r u)) := (offerBays_bounded (h.of_same hu) set r).of_same
  unfold acceptFirst
  dsimp only
  refine relayed ?_ _ _
  (repeat' split) <;> simp [State.queues]

theorem judgeRemote_bounded (p : Fin 512) (e : Entry) (a : Arrival) (q : Word) (l : Lane) :
    QueuesBounded (judgeRemote p e a q l s) := by
  unfold judgeRemote
  dsimp only
  repeat' split
  · exact acceptFirst_bounded h ..
  all_goals exact h.of_same rfl

theorem acceptBay_bounded (p : Fin 512) (e : Entry) (a : Arrival) (q : Fin 4) : QueuesBounded (acceptBay p e a q s) := by
  have fresh (e' : Entry) : QueuesBounded (freshClaim e a (s.putEntry p (some e'))) := h.of_same
  have handed (e' : Entry) (c : Copy) {u : State} (hu : QueuesBounded u) :
      QueuesBounded (deliver e' c (offer (.streamCopy e.id (contentOf a)) u)) := hu.of_same
  unfold acceptBay
  dsimp only
  exact handed _ _ (offerBays_bounded (offerLane_bounded (offerLane_bounded (fresh _) ..) ..) ..)

theorem unplaced_bounded (a : Arrival) : QueuesBounded (unplaced a s) := by
  have counted : QueuesBounded (countEngine .unplaced a.time s) := h.of_same
  unfold unplaced
  dsimp only
  repeat' split
  · exact offerBays_bounded counted ..
  · exact counted
  · exact offerLane_bounded counted ..

theorem takeArrival_bounded (a : Arrival) : QueuesBounded (takeArrival a s) := by
  have made (p : Fin 512) (e : Entry) : QueuesBounded (makeEntry p e s) := h
  have madeBay (p : Fin 512) (e : Entry) (n : Byte) : QueuesBounded { makeEntry p e s with bayEpoch := n } := h
  unfold takeArrival takeLaneCopy takeBayCopy
  dsimp only
  repeat' split
  · exact judgeRemote_bounded h ..
  · exact h.of_same
  · exact h.of_same
  · exact judgeRemote_bounded (made ..) ..
  · exact unplaced_bounded h a
  · exact acceptBay_bounded h ..
  · exact h.of_same
  · exact acceptBay_bounded (madeBay ..) ..
  · exact unplaced_bounded h a

theorem arrivalTaken_bounded : QueuesBounded (arrivalTaken s) := by
  have judged (a : Arrival) (p : Port) : QueuesBounded (judgeArrival a (popArrival p s)) := by
    have taken := takeArrival_bounded (popArrival_bounded h p) a
    unfold judgeArrival
    dsimp only
    split
    · exact taken.of_same (expireFreshness_queues ..)
    · exact taken
  unfold arrivalTaken
  repeat' split
  · exact judged ..
  all_goals exact h

/-! ## The scheduler -/

theorem sendPub_bounded (k : Fin 32) : QueuesBounded (sendPub k s) := by
  have shown (x : Byte) (n : Word) (v : Vector PubSlot 32) {u : State} (hu : QueuesBounded u) :
      QueuesBounded (showSendState k x n { u with pubs := v }) := hu.of_same rfl
  unfold sendPub
  dsimp only
  split
  · exact shown _ _ _ (offerBays_bounded (offerLane_bounded (offerLane_bounded h ..) ..) ..)
  · exact h

theorem completeTake_bounded (k : Fin 32) (p : Poster) (e : Word) (c : List Byte) : QueuesBounded (completeTake k p e c s) := by
  have scheduled (f : PubSlot → PubSlot) : QueuesBounded (uncalendar k (updatePub k f s)) := h.of_same rfl
  unfold completeTake
  dsimp only
  split
  · exact h
  · exact (sendPub_bounded (scheduled _) k).of_same rfl

theorem beginTakes_bounded (n : Nat) : QueuesBounded (beginTakes n s) := by
  have begun (p : Post) {u : State} (hu : QueuesBounded u) : QueuesBounded (beginTake p u) := by
    unfold beginTake
    dsimp only
    split
    · exact completeTake_bounded hu ..
    · exact hu.of_same rfl
  induction n generalizing s with
  | zero => exact h
  | succ n ih =>
    unfold beginTakes
    repeat' split
    · exact h
    · exact ih (begun _ (h.of_same rfl))
    · exact ih (begun _ (h.of_same rfl))
    · exact h

theorem runTakes_bounded : QueuesBounded (runTakes s) := beginTakes_bounded h _

theorem post_bounded (k : Fin 32) (p : Poster) : QueuesBounded (post k p s) := by
  unfold post
  split
  · exact runTakes_bounded h.of_same
  · exact h

theorem watchedWrite_bounded (k : Fin 32) (o : Nat) : QueuesBounded (watchedWrite k o s) := by
  have abandoned (t : Take) {u : State} (hu : u.queues = s.queues) : (abandonByCollision t u).queues = s.queues :=
    Eq.trans (by simp [State.queues, abandonByCollision]) hu
  have collided (t : Take) : (collideAndPost t s).queues = s.queues := by
    unfold collideAndPost
    dsimp only
    split
    · refine Eq.trans ?_ (abandoned t (u := { s with free := s.free + 1 }) rfl)
      simp [State.queues]
    · refine abandoned t ?_
      simp [State.queues]
  unfold watchedWrite
  repeat' split
  · exact h
  · exact runTakes_bounded (h.of_same (collided _))
  · exact runTakes_bounded (h.of_same (abandoned _ rfl))
  · exact post_bounded h ..
  · exact h
  · exact post_bounded h ..
  · exact h

theorem takePublication_bounded (k : Fin 32) : QueuesBounded (takePublication k s) := by
  have dropped (u : State) : (dropIfArmed k u).queues = u.queues := by
    unfold dropIfArmed dropPub
    dsimp only
    split
    · simp [State.queues]
    · rfl
  have armed (u : State) : (armPub k u).queues = u.queues := by
    unfold armPub makeHostEntry refusePub
    dsimp only
    repeat' split
    · rfl
    · next made =>
      split at made
      · cases made
      · split at made <;> cases made
        simp [State.queues]
    · rfl
  have claimed (u : State) : (publicationClaim k u).queues = u.queues := by
    unfold publicationClaim
    dsimp only
    repeat' split
    · rw [armed, dropped]
    · rfl
    · exact dropped u
    · exact dropped u
  have settled : (settleAgeing s).queues = s.queues := by simp [State.queues]
  exact runTakes_bounded (h.of_same ((claimed _).trans settled))

theorem sendDue_bounded (e : CalendarEntry) (r : List CalendarEntry) : QueuesBounded (sendDue e r s) := by
  have updated (f : PubSlot → PubSlot) : QueuesBounded (updatePub e.slot f { s with calendar := r }) := h.of_same rfl
  unfold sendDue
  dsimp only
  split
  · exact h
  · exact (sendPub_bounded (updated _) e.slot).of_same rfl

/-! ## The rules -/

theorem takeEvent_bounded (e : RuleEvent) : QueuesBounded (takeEvent e s) := by
  have acted (k : Fin 16) (a : Action) {u : State} (hu : QueuesBounded u) : QueuesBounded (act k a u).1 := by
    unfold act
    repeat' split
    · exact hu.of_same
    · exact hu
    · exact hu.of_same
    · exact post_bounded hu ..
    · exact hu
    · exact hu
  have fired (k : Fin 16) (c : RuleCopy) {u : State} (hu : QueuesBounded u) : QueuesBounded (fire k c e u) := by
    unfold fire
    dsimp only
    repeat' split
    all_goals exact acted k c.action (hu.of_same rfl)
  refine foldl_bounded (fun u k hu => ?_) _ h
  unfold judgeRule
  dsimp only
  repeat' split
  · exact fired _ _ (hu.of_same rfl)
  · exact hu.of_same rfl
  · exact hu
  · exact hu

end

/-! ## Contact inputs and outputs, which have no part in the queues -/

theorem updateContacts_queues (f : State → State) (s : State) (hf : (f s).queues = s.queues) :
    (updateContacts f s).queues = s.queues := by
  unfold updateContacts
  dsimp only
  split <;> exact hf

theorem beginFiltering_queues (s : State) : (beginFiltering s).queues = s.queues := updateContacts_queues _ s rfl

theorem announceChange_queues (n : Fin 8) (o : Option Bool) (l : Bool) (t : Clock) (s : State) :
    (announceChange n o l t s).queues = s.queues := by
  unfold announceChange
  dsimp only
  split <;> simp [State.queues]

theorem pulseExpired_queues (n : Fin 4) (s : State) : (pulseExpired n s).queues = s.queues := by
  unfold pulseExpired
  repeat' split
  · simp [State.queues]
  all_goals rfl

theorem rawChange_queues (n : Fin 8) (s : State) : (rawChange n s).queues = s.queues := by
  unfold rawChange
  dsimp only
  split
  · exact updateContacts_queues _ { s with pins := _ } rfl
  · rfl

theorem filterExpired_queues (n : Fin 8) (s : State) : (filterExpired n s).queues = s.queues := by
  have updated (f : ContactInput → ContactInput) : (updateContacts (·.modifyInput n f) s).queues = s.queues :=
    updateContacts_queues _ s rfl
  unfold filterExpired firstSettle blockInput acceptChange
  dsimp only
  repeat' split
  · exact updated _
  · exact updated _
  · rw [announceChange_queues, updated]
  all_goals rfl

theorem unblockInput_queues (n : Fin 8) (s : State) : (unblockInput n s).queues = s.queues := by
  have updated (f : ContactInput → ContactInput) : (updateContacts (·.modifyInput n f) s).queues = s.queues :=
    updateContacts_queues _ s rfl
  unfold unblockInput
  dsimp only
  split
  · rw [announceChange_queues]; exact updated _
  · exact updated _

theorem blockRunOut_queues (n : Fin 8) (s : State) : (blockRunOut n s).queues = s.queues := by
  unfold blockRunOut
  dsimp only
  repeat' split
  · exact unblockInput_queues n s
  all_goals rfl

theorem unblockWaiting_queues (n : Fin 8) (s : State) : (unblockWaiting n s).queues = s.queues := by
  unfold unblockWaiting
  split
  · exact unblockInput_queues n s
  · rfl

theorem putInForce_queues (new : Settings) (s : State) : (putInForce new s).queues = s.queues := by
  have taken : (takeSettings new s).queues = s.queues := by
    unfold takeSettings
    dsimp only
    refine (foldl_keeps State.queues _ (fun u n => ?_) _ _).trans (updateContacts_queues _ s rfl)
    split <;> rfl
  exact taken

end Sys2Proof.Machine
end

section
/-! The rooms of the queues over the controller's functions, and so over a step (R35, R78, R82, R144). -/

namespace Sys2Proof.Machine

section
variable {s : State} (h : QueuesBounded s)
include h

/-! ## START and the other commands -/

theorem takeArm_bounded (w : ArmWord) : QueuesBounded (takeArm w s) := by
  cases w with
  | subscription k => exact h.of_same (takeSubscription_queues k s)
  | publication k => exact takePublication_bounded h k
  | rule k =>
    unfold takeArm ruleClaim refuseRule
    dsimp only
    (repeat' split) <;> exact h.of_same rfl

theorem doPiece_bounded (p : StartPiece) (left : List StartPiece) (read : List Host.Cell) (w : Working) :
    QueuesBounded (doPiece p left read w s) := by
  have goOn (w : Option Working) : QueuesBounded { s with working := w } := h
  cases p with
  | read a => exact goOn _
  | settings =>
    simp only [doPiece]
    split
    · exact goOn _
    · exact (goOn _).of_same (putInForce_queues ..)
  | visit arm => exact takeArm_bounded (goOn (some { w with finish := .starting left read })) arm
  | lanes =>
    exact (releaseAtStart_bounded (goOn (some { w with finish := .starting left read }))).of_same (beginFiltering_queues _)
  | started => exact h

theorem work_bounded (n : Nat) : QueuesBounded (work n s) := by
  have once {u : State} (hu : QueuesBounded u) : QueuesBounded (workOnce u) := by
    unfold workOnce
    repeat' split
    · exact doPiece_bounded hu ..
    all_goals exact hu
  induction n generalizing s with
  | zero => exact h
  | succ n ih => exact ih (once h)

theorem goOnStarting_bounded : QueuesBounded (goOnStarting s) := by
  unfold goOnStarting
  split
  · exact work_bounded (s := { s with free := s.free + 1 }) h _
  · exact h

theorem clearNoted_bounded : QueuesBounded (clearNoted s) := by
  have settled : QueuesBounded (settleAgeing s) := h.of_same
  exact settled.of_same rfl

theorem laneCommand_bounded (e : Word) {run : Lane → State → State} (hr : ∀ l, QueuesBounded (run l s)) :
    QueuesBounded (laneCommand e run s) := by
  unfold laneCommand inRunning
  dsimp only
  repeat' split
  · exact hr _
  all_goals exact h

theorem takeCommand_bounded (v : Word) : QueuesBounded (takeCommand v s) := by
  unfold takeCommand
  split
  · unfold commandStart
    split
    · exact goOnStarting_bounded (s := working ..) h
    · exact h
  · unfold commandApply inRunning
    dsimp only
    (repeat' split) <;> exact h
  · have cleared : QueuesBounded (clearGroups s) := ⟨fun l => by cases l; exacts [h.lane .a, h.lane .b], h.2⟩
    exact clearNoted_bounded cleared
  · exact reset_queuesBounded
  · exact laneCommand_bounded h _ (holdLane_bounded h)
  · exact laneCommand_bounded h _ (releaseLane_bounded h · _)
  · unfold commandOutputDrive inRunning
    dsimp only
    repeat' split
    · have driven (n : Fin 4) : QueuesBounded (driveOutput n .outputDrive s) := h.of_same
      exact driven _
    all_goals exact h
  · unfold commandOutputRelease inRunning
    dsimp only
    repeat' split
    · have released (n : Fin 4) : QueuesBounded (releaseOutput n .outputRelease s) := h.of_same
      exact released _
    all_goals exact h
  · exact h

theorem completeCommand_bounded : QueuesBounded (completeCommand s) := by
  have finished (f : Finish) {u : State} (hu : QueuesBounded u) : QueuesBounded (finishCommand f u) := by
    cases f with
    | nothing => exact hu
    | starting left read => exact foldl_bounded (fun u w hu => takeArm_bounded hu w) _ (hu.of_same rfl)
    | takeSettings new => exact hu.of_same (putInForce_queues new u)
  have worked : QueuesBounded (match s.startLeft with | some left => work left.length s | none => s) := by
    split
    · exact work_bounded h _
    · exact h
  unfold completeCommand
  dsimp only
  split
  · exact finished _ worked
  · exact worked

/-! ## Host writes and resets -/

theorem hostWrite_bounded (a : Nat) (v : Word) : QueuesBounded (hostWrite a v s) := by
  have arm (w : ArmWord) {u : State} (hu : QueuesBounded u) : QueuesBounded (armWritten w u) := by
    unfold armWritten
    repeat' split
    · exact takeArm_bounded hu w
    all_goals exact hu
  have write {u : State} (hu : QueuesBounded u) : QueuesBounded (written a v u) := by
    unfold written
    repeat' split
    · exact takeCommand_bounded hu v
    · exact hu
    · exact arm _ hu
    · exact watchedWrite_bounded hu ..
    · exact arm _ hu
    · exact hu
    · exact arm _ hu
    · exact hu
    · exact hu
  have refused : QueuesBounded (refuseWrite a v s) := by
    unfold refuseWrite
    dsimp only
    split <;> exact h
  unfold hostWrite
  repeat' split
  · exact h
  · exact write (u := { s with mem := writeWord s.mem a v }) h
  · exact refused
  · exact refused

theorem enterConfig_bounded : QueuesBounded (enterConfig s) := by
  unfold enterConfig takeLinks
  dsimp only
  refine foldl_bounded (fun u p hu => hu.of_same) _ (updateLane_bounded (updateLane_bounded ?_ ..) ..)
  exact h

/-! ## One step -/

/-- Every command keeps every queue of the ports, and the lists of Twin Watch, within their room. -/
theorem exec_bounded (c : Instr) : Leads QueuesBounded (exec c s) := by
  cases c with
  | hardwareReset => exact leads_next.2 reset_queuesBounded
  | initialisingComplete =>
    simp only [exec, execInitialisingComplete]
    split
    · exact leads_next.2 (enterConfig_bounded h)
    · exact leads_next.2 h
  | hostWrite | start | apply | clearCounts | softReset | laneHold | laneRelease | outputDrive | outputRelease
  | unknownCommand | journalTakenWrite | subscriptionArm | publicationArm | linkRuleArm | editionWrite =>
    exact leads_next.2 (hostWrite_bounded h _ _)
  | commandCompletion => exact leads_next.2 (completeCommand_bounded h)
  | takeComplete =>
    simp only [exec, execTakeComplete]
    split
    · exact leads_next.2 (runTakes_bounded (completeTake_bounded (s := { s with take := none }) h ..))
    · exact leads_next.2 h
  | calendarSend =>
    simp only [exec, execCalendarSend]
    repeat' split
    · exact leads_next.2 (sendDue_bounded h ..)
    all_goals exact leads_next.2 h
  | refreshExpiry k =>
    simp only [exec, execRefreshExpiry]
    (repeat' split) <;> exact leads_next.2 (h.of_same rfl)
  | clockGroupUpdate =>
    simp only [exec, execClockGroupUpdate]
    split <;> exact leads_next.2 h
  | secondsTick =>
    simp only [exec, execSecondsTick]
    split <;> exact leads_next.2 h
  | ageingExpiry p => exact leads_next.2 h.of_same
  | laneFrameReceived l f => exact leads_next.2 (receiveLane_bounded h l f)
  | bayFrameReceived p f => exact leads_next.2 (receiveBay_bounded h p f)
  | laneLinkUp l => exact leads_next.2 (laneUp_bounded h l)
  | laneLinkDown l cut => exact leads_next.2 (laneDown_bounded h l cut)
  | bayLinkUp p => exact leads_next.2 (bayUp_bounded h p)
  | bayLinkDown p cut => exact leads_next.2 (bayDown_bounded h p cut)
  | laneTransmitEnd l => exact leads_next.2 (laneSent_bounded h l)
  | bayTransmitEnd p => exact leads_next.2 (baySent_bounded h p)
  | arrivalTaken => exact leads_next.2 (arrivalTaken_bounded h)
  | deliveryComplete k =>
    simp only [exec, execDeliveryComplete]
    split
    · exact leads_next.2 (h.of_same (completeDelivery_queues ..))
    · exact leads_next.2 h
  | watchRequest =>
    simp only [exec, execWatchRequest]
    split
    · next rest _ => exact leads_next.2 (watchAsked_bounded (s := { s with twinClaims := rest }) h ..)
    · exact leads_next.2 h
  | twinTaken =>
    simp only [exec, execTwinTaken]
    split
    · next rest _ => exact leads_next.2 (twinJudged_bounded (s := { s with twinClaims := rest }) h ..)
    · exact leads_next.2 h
  | abandon =>
    simp only [exec, execAbandon]
    split
    · next rest _ => exact leads_next.2 (dropWatches_bounded (s := { s with twinClaims := rest }) h ..)
    · exact leads_next.2 h
  | laneCleanup =>
    simp only [exec, execLaneCleanup]
    split
    · next rest _ => exact leads_next.2 (dropWatches_bounded (s := { s with cleanups := rest }) h ..)
    · exact leads_next.2 h
  | watchExpiry =>
    simp only [exec, execWatchExpiry]
    repeat' split
    · next hw _ => exact leads_next.2 (watchExpired_bounded h hw)
    all_goals exact leads_next.2 h
  | missReport =>
    simp only [exec, execMissReport]
    repeat' split
    · exact leads_next.2 (h.of_same (applyMiss_queues _ _ _ _ { s with reports := _ }))
    all_goals exact leads_next.2 h
  | creditReport =>
    simp only [exec, execCreditReport]
    repeat' split
    · exact leads_next.2 (h.of_same (applyCredit_queues _ _ _ { s with reports := _ }))
    all_goals exact leads_next.2 h
  | laneNotice =>
    simp only [exec, execLaneNotice]
    repeat' split
    · next l rest _ _ => exact leads_next.2 (h.of_same
        ((asEngineClaim_queues ..).trans (noticeLane_queues l { s with laneNotices := rest })))
    all_goals exact leads_next.2 h
  | loneCountRise => exact leads_next.2 (takeLone_bounded h true)
  | loneCountFall => exact leads_next.2 (takeLone_bounded h false)
  | provingTimerExpiry l => exact leads_next.2 (provingExpired_bounded h l)
  | freshnessExpiry id => exact leads_next.2 (h.of_same (expireFreshness_queues id s))
  | eventOffer =>
    simp only [exec, execEventOffer]
    split
    · next e rest _ => exact leads_next.2 (takeEvent_bounded (s := { s with events := rest }) h e)
    · exact leads_next.2 h
  | pulseExpiry n => exact leads_next.2 (h.of_same (pulseExpired_queues n s))
  | rawChange n => exact leads_next.2 (h.of_same (rawChange_queues n s))
  | filterTimerExpiry n => exact leads_next.2 (h.of_same (filterExpired_queues n s))
  | blockCountExpiry n => exact leads_next.2 (h.of_same (blockRunOut_queues n s))
  | unblock n => exact leads_next.2 (h.of_same (unblockWaiting_queues n s))
  | journalClaim =>
    simp only [exec, execJournalClaim]
    split <;> exact leads_next.2 h
  | intPulseEnd =>
    simp only [exec, execIntPulseEnd]
    (repeat' split) <;> exact leads_next.2 h

end

/-- Settles O57: a queue or list grows only where the operation has found room, and a reset leaves every one empty. -/
theorem stepsKeepQueuesBounded : Obligations.StepsKeepQueuesBounded := by
  intro s t hs h
  unfold step at h
  split at h
  · next c rest _ => exact exec_bounded (s := { s with pending := rest }) hs c t h
  · injection h with h
    rw [← h]
    exact goOnStarting_bounded (s := { s with clock := s.clock + 1 }) hs

end Sys2Proof.Machine
end

section
/-! Frames received on a lane port (R22 to R31, R35 to R37). -/

namespace Sys2Proof.Machine

/-! ## Counted events of a lane port -/

theorem laneArrived_count (g : LaneGroup) (d : LaneCounter) : g.arrived.count d = g.count d := by cases d <;> rfl

/-- R36. A counted arrival changes the arrival total and the port's counters alone. -/
theorem laneArrived_bump_eq (c : LaneCounter) (g : LaneGroup) : g.arrived.bump c = { g with
    arrival := g.arrival + 1, frameErrors := (g.arrived.bump c).frameErrors, overruns := (g.arrived.bump c).overruns
    damaged := (g.arrived.bump c).damaged, crossLane := (g.arrived.bump c).crossLane
    foreignTag := (g.arrived.bump c).foreignTag, heldDiscards := (g.arrived.bump c).heldDiscards
    bareDiscards := (g.arrived.bump c).bareDiscards, drops := (g.arrived.bump c).drops } := by
  cases c <;> rfl

theorem laneArrived_ne {g g' : LaneGroup} (h : g'.arrival = g.arrival + 1) : g' ≠ g := by
  rintro rfl
  revert h
  generalize g'.arrival = n
  bv_omega

theorem updateLane_arrived (l : Lane) (s : State) : updateLane l LaneGroup.arrived s = s.modifyLane l (fun p => { p with
    group := { p.group with arrival := p.group.arrival + 1, edition := p.group.edition + 2 } }) := by
  unfold updateLane
  congr 1
  funext p
  rw [laneUpdate_ne _ _ (laneArrived_ne rfl)]
  rfl

/-- R36. A counted arrival in one update of the lane's group. -/
theorem laneUpdate_arrived_bump (c : LaneCounter) (g : LaneGroup) :
    g.update (fun g => g.arrived.bump c) = { g.arrived.bump c with edition := g.edition + 2 } :=
  laneUpdate_ne _ _ (laneArrived_ne (by simp [LaneGroup.arrived]))

theorem laneUpdate_arrived_count (c d : LaneCounter) (g : LaneGroup) :
    (g.update (fun g => g.arrived.bump c)).count d = if d = c then satInc (g.count c) else g.count d := by
  have edition (g : LaneGroup) (w : Word) : ({ g with edition := w } : LaneGroup).count d = g.count d := by cases d <;> rfl
  rw [laneUpdate_arrived_bump, edition, bump_count, laneArrived_count, laneArrived_count]

/-! ## The checks of R29 -/

/-- R29 to R36. The frame `f`, taken in RUNNING at lane port `l` of a lane that carries traffic, is discarded under the counter `c`. -/
def LaneDiscardedAs (s : State) (l : Lane) (f : List Byte) (c : LaneCounter) : Prop :=
  (frameGood f = false ∧ c = .frameErrors)
    ∨ (frameGood f = true ∧ hasTrailer (withoutFcs f) = false ∧ (s.bareRoute ≠ l ∨ s.settings.passBare = 0)
      ∧ c = .bareDiscards)
    ∨ (frameGood f = true ∧ hasTrailer (withoutFcs f) = true
      ∧ ((trailerPasses (withoutFcs f) = false ∧ c = .damaged)
        ∨ (trailerPasses (withoutFcs f) = true
          ∧ ((trailerLane (withoutFcs f) ≠ laneCode l ∧ c = .crossLane)
            ∨ (trailerLane (withoutFcs f) = laneCode l
              ∧ ((typeWord (withoutFcs f) ≠ s.settings.messageType ∧ c = .foreignTag)
                ∨ (typeWord (withoutFcs f) = s.settings.messageType
                  ∧ ((readHeader (stripTrailer (withoutFcs f)) = none ∧ c = .damaged)
                    ∨ ((readHeader (stripTrailer (withoutFcs f))).isSome = true ∧ 8 ≤ (s.lane l).arrivals.length
                      ∧ c = .overruns)))))))))

section
variable {s : State} {l : Lane} {f : List Byte}

theorem classifyLane_bare (hg : frameGood f = true) (ht : hasTrailer (withoutFcs f) = false) :
    classifyLane l f s = bareFromLane l (withoutFcs f) s := by
  unfold classifyLane
  simp [hg, ht]

theorem classifyLane_stream {h : Header} (hg : frameGood f = true) (ht : hasTrailer (withoutFcs f) = true)
    (hp : trailerPasses (withoutFcs f) = true) (hl : trailerLane (withoutFcs f) = laneCode l)
    (hm : typeWord (withoutFcs f) = s.settings.messageType) (hh : readHeader (stripTrailer (withoutFcs f)) = some h) :
    classifyLane l f s = joinLane l (laneRecord l (withoutFcs f) h s.clock) s := by
  unfold classifyLane
  simp [hg, ht, hp, hl, hm, hh]

theorem classifyLane_discarded {c : LaneCounter} (h : LaneDiscardedAs s l f c) :
    classifyLane l f s = countLane l LaneGroup.arrived c s.clock s := by
  obtain ⟨hg, rfl⟩ | ⟨hg, ht, hoff, rfl⟩ | ⟨hg, ht, ⟨hp, rfl⟩ | ⟨hp, ⟨hl, rfl⟩ | ⟨hl, ⟨hm, rfl⟩ |
    ⟨hm, ⟨hh, rfl⟩ | ⟨hh, hfull, rfl⟩⟩⟩⟩⟩ := h
  · unfold classifyLane
    simp [hg]
  · rw [classifyLane_bare hg ht, bareFromLane]
    refine if_neg fun on => ?_
    obtain ⟨route, pass⟩ := Bool.and_eq_true_iff.1 on
    exact hoff.elim (fun h => h (of_decide_eq_true route)) (fun h => bne_iff_ne.1 pass h)
  · unfold classifyLane
    simp [hg, ht, hp]
  · unfold classifyLane
    simp [hg, ht, hp, hl]
  · unfold classifyLane
    simp [hg, ht, hp, hl, hm]
  · unfold classifyLane
    simp [hg, ht, hp, hl, hm, hh]
  · obtain ⟨h, hh⟩ := Option.isSome_iff_exists.1 hh
    rw [classifyLane_stream hg ht hp hl hm hh, joinLane]
    exact if_neg (Nat.not_lt.2 hfull)

/-- R27, R29. A port whose link is UP, of a lane that carries traffic, classifies a frame in RUNNING. -/
theorem exec_laneFrame_running (hlink : (s.lane l).group.link = true) (hr : s.partState = .running)
    (hc : (s.lane l).group.state.carries = true) : exec (.laneFrameReceived l f) s = .next (classifyLane l f s) := by
  have held : (s.lane l).group.state ≠ .held := fun e => by rw [e] at hc; cases hc
  simp [exec, execLaneFrameReceived, receiveLane, hlink, hr, hc, held]

/-- R12, R28. In CONFIG, and at a HELD lane in RUNNING, a frame is a held discard. -/
theorem exec_laneFrame_held (hlink : (s.lane l).group.link = true)
    (hh : s.partState = .config ∨ (s.partState = .running ∧ (s.lane l).group.state = .held)) :
    exec (.laneFrameReceived l f) s = .next (countLane l LaneGroup.arrived .heldDiscards s.clock s) := by
  obtain hp | ⟨hp, hs⟩ := hh
  · simp [exec, execLaneFrameReceived, receiveLane, hlink, hp]
  · simp [exec, execLaneFrameReceived, receiveLane, hlink, hp, hs]

end

theorem frameGood_parts (f : List Byte) :
    frameGood f = true ↔ 64 ≤ f.length ∧ f.length ≤ 1522 ∧ ∃ body, f = body ++ fcs body := by
  have length (body : List Byte) : (body ++ fcs body).length = body.length + 4 := List.length_append
  rw [frameGood_iff]
  constructor
  · rintro ⟨body, rfl, hlow, hhigh⟩
    rw [length]
    exact ⟨by omega, by omega, body, rfl⟩
  · rintro ⟨hlow, hhigh, body, rfl⟩
    rw [length] at hlow hhigh
    exact ⟨body, rfl, by omega, by omega⟩

/-- Settles O26: the checks as bytes, what a lane port sends, then the checks on a frame in order. -/
theorem laneFrameReceived : Obligations.LaneFrameReceived := by
  refine ⟨frameGood_parts, fun body => ⟨fcs_crc body, withoutFcs_withFcs body⟩, hasTrailer_iff,
    fun msg body a b c d x y hbody => ?_, trailerCheck_crc, rfl, rfl, fun l r seq hs hl hseq => ?_, laneBytes_bare,
    fun s l f hlink => ⟨fun c hc => ?_, fun hr hcar hg ht hroute hpass => ?_, fun h hr hcar hg ht hp hl hm hh hroom => ?_⟩⟩
  · obtain ⟨-, hseq, hlane, -, hstrip, hpasses⟩ := trailer_bytes msg a b c d 0xA6 0xE1 x y body hbody
    refine ⟨hseq, hlane, hstrip, ?_⟩
    rw [hpasses, Bool.and_eq_true, beq_iff_eq, beq_iff_eq, and_comm]
    exact and_congr_right fun _ => eq_comm
  · obtain ⟨msg, body, hmsg, hbytes, hlen, hgood, hhas, hpass, hlane, hseq', hstrip⟩ := laneBytes_stream l r hs hl
    rw [hseq] at hseq'
    exact ⟨msg, body, hmsg, hbytes, hlen, hgood, hhas, hpass, hlane, hseq', hstrip⟩
  · have counted : exec (.laneFrameReceived l f) s = .next (countLane l LaneGroup.arrived c s.clock s) := by
      obtain ⟨rfl, hheld⟩ | ⟨hr, hcar, hd⟩ := hc
      · exact exec_laneFrame_held hlink hheld
      · rw [exec_laneFrame_running hlink hr hcar, classifyLane_discarded hd]
    refine ⟨_, counted, ?_, fun d hd => ?_, ?_, ?_, countLane_lane_other .., countLane_claims .., ?_⟩
    · rw [countLane_lane_self, laneUpdate_arrived_count, if_pos rfl, satInc_stays]
    · rw [countLane_lane_self, laneUpdate_arrived_count, if_neg hd]
    · rw [countLane_lane_self, laneUpdate_arrived_bump, laneArrived_bump_eq]
    · rw [countLane_lane_self]
    · rw [countLane_eq]
      cases l <;> rfl
  · rw [exec_laneFrame_running hlink hr hcar, classifyLane_bare hg ht, bareFromLane,
      if_pos (Bool.and_eq_true_iff.2 ⟨decide_eq_true hroute, bne_iff_ne.2 hpass⟩), updateLane_arrived]
    rfl
  · rw [exec_laneFrame_running hlink hr hcar, classifyLane_stream hg ht hp hl hm hh, joinLane,
      if_pos (show _ < Config.arrivalRoom from hroom), updateLane_arrived]
    cases l <;> rfl

end Sys2Proof.Machine
end

section
/-! The link of a bay port (R26, R27, R37, R151). -/

namespace Sys2Proof.Machine

theorem bayUp_eq {s : State} (p : Fin 4) (h : s.partState ≠ .initialising) :
    bayUp p s = updateBay p (fun b => { b with link := true }) (s.setBayPin p true) := if_neg h

/-- R26, R151. A port's block as its link goes down, `n` frames flushed; `cut` says that a reception is cut. -/
def BayBlock.wentDown (n : Nat) (cut : Bool) (b : BayBlock) : BayBlock :=
  { b with link := false, flushed := b.flushed + BitVec.ofNat 32 n
           frameErrors := if cut then satInc b.frameErrors else b.frameErrors }

/-- R151. The frames that a bay port holds to send. -/
def BayPort.flushes (b : BayPort) : Nat := b.queue.length + (if b.wire.isSome then 1 else 0)

/-- R26, R27, R37, R151. A link that goes down: the port emptied, one update of its block, and a cut reception claimed if it is the
first frame error. -/
theorem bayDown_eq {s : State} {p : Fin 4} (cut : Bool) (h : s.partState ≠ .initialising)
    (hl : s.bayGroup.ports[p].link = true) :
    bayDown p cut s = { s.setBayPin p false with
      bays := modifyAt s.bays p (fun b => { b with queue := [], wire := none })
      bayGroup := s.bayGroup.update p (·.wentDown s.bays[p].flushes cut)
      journal := { s.journal with claims := s.journal.claims ++ (if cut = true ∧ s.bayGroup.ports[p].frameErrors = 0 then
        [{ kind := .counterFirst, subject := .bayPort p, time := s.clock, d1 := bayCounterCode .frameErrors, d2 := 0
           d3 := 0 }] else []) } } := by
  have taken : ¬((s.setBayPin p false).partState = .initialising || !(s.setBayPin p false).bayGroup.ports[p].link) = true := by
    simpa [h] using hl
  refine (if_neg taken).trans ?_
  cases cut with
  | false =>
    simp only [Bool.false_eq_true, false_and, if_false, List.append_nil]
    rfl
  | true =>
    simp only [true_and, if_true]
    exact countBay_eq p (·.linkLost s.bays[p].flushes) .frameErrors s.clock
      ((s.setBayPin p false).modifyBay p fun b => { b with queue := [], wire := none })

/-- Settles O29: one update of the port's block in each direction of the link, and the port emptied as it goes down. -/
theorem bayLinkFollowsThePin : Obligations.BayLinkFollowsThePin := by
  refine fun s p hp => ⟨?_, fun cut hl => ?_⟩
  · have up : exec (.bayLinkUp p) s = _ := congrArg Host.Outcome.next (bayUp_eq p hp)
    exact ⟨_, up, bayUpdate_self .., fun q hq => bayUpdate_ne p q _ _ hq, rfl⟩
  · have down : exec (.bayLinkDown p cut) s = _ := congrArg Host.Outcome.next (bayDown_eq cut hp hl)
    have block : (s.bayGroup.update p (·.wentDown s.bays[p].flushes cut)).ports[p]
        = s.bayGroup.ports[p].wentDown s.bays[p].flushes cut := bayUpdate_self ..
    have port : (modifyAt s.bays p (fun b => { b with queue := [], wire := none }))[p]
        = { s.bays[p] with queue := [], wire := none } := modifyAt_get_self ..
    have errors (w : Word) : (if cut = true then satInc w else w) = if cut = true ∧ w ≠ 0xFFFF then w + 1 else w := by
      rw [satInc]
      cases cut <;> by_cases hw : w = 0xFFFF <;> simp [hw]
    exact ⟨_, down, congrArg BayBlock.link block, congrArg BayPort.queue port, congrArg BayPort.wire port,
      (congrArg BayPort.arrivals port).trans rfl, congrArg BayBlock.flushed block, (congrArg BayBlock.frameErrors block).trans (errors _),
      (congrArg BayBlock.arrival block).trans rfl, rfl, fun q hq => ⟨modifyAt_get_ne _ _ _ _ hq.symm, bayUpdate_ne p q _ _ hq⟩⟩

end Sys2Proof.Machine
end

section
/-! The link of a lane port (R26, R27, R91, R92, R96, R98, R99, R147, R148). -/

namespace Sys2Proof.Machine

@[simp] theorem setLanePin_lane (l m : Lane) (up : Bool) (s : State) : (s.setLanePin l up).lane m = s.lane m := by
  cases m <;> simp [State.lane]

/-! ## LANE_LINK_UP -/

/-- R27. The port takes the indication that its link is UP. -/
def linkRaised (l : Lane) (s : State) : State := updateLane l (fun g => { g with link := true }) (s.setLanePin l true)

theorem linkRaised_lane (l : Lane) (s : State) : ((linkRaised l s).lane l).group.link = true
    ∧ ((linkRaised l s).lane l).group.state = (s.lane l).group.state
    ∧ ((linkRaised l s).lane l).group.lone = (s.lane l).group.lone ∧ ((linkRaised l s).lane l).cycle = (s.lane l).cycle
    ∧ (linkRaised l s).lane l.other = s.lane l.other := by
  simp [linkRaised]

theorem linkRaised_frame (l : Lane) (s : State) : (linkRaised l s).partState = s.partState
    ∧ (linkRaised l s).clock = s.clock ∧ (linkRaised l s).settings = s.settings ∧ (linkRaised l s).journal = s.journal
    ∧ (linkRaised l s).events = s.events ∧ (linkRaised l s).redundancy = s.redundancy
    ∧ (linkRaised l s).table = s.table := by
  simp [linkRaised]

/-- R91. A lane that is DOWN begins to prove; any other begins to send. -/
theorem laneUp_eq {s : State} {l : Lane} (hp : s.partState ≠ .initialising) (hl : (s.lane l).group.link = false) :
    laneUp l s = if (s.lane l).group.state = .down then moveLane l .proving .linkUp id (linkRaised l s)
      else (linkRaised l s).modifyLane l (LanePort.begin l) := by
  have taken : ¬((s.setLanePin l true).partState = .initialising || ((s.setLanePin l true).lane l).group.link) = true := by
    simp [hp, hl]
  obtain ⟨-, hstate, -⟩ := linkRaised_lane l s
  rw [← hstate]
  exact if_neg taken

/-! ## LANE_LINK_DOWN -/

/-- R26, R27, R148. The port takes the indication that its link is DOWN; `cut` says that a reception is cut. -/
def linkDropped (l : Lane) (cut : Bool) (s : State) : State :=
  (if cut then countLane l (LaneGroup.linkLost (s.lane l).wire.isSome) .frameErrors s.clock (s.setLanePin l false)
    else updateLane l (LaneGroup.linkLost (s.lane l).wire.isSome) (s.setLanePin l false)).modifyLane l LanePort.cutHeld

theorem laneDown_eq {s : State} {l : Lane} (cut : Bool) (hp : s.partState ≠ .initialising)
    (hl : (s.lane l).group.link = true) :
    laneDown l cut s = if (s.lane l).group.state.carries then moveLane l .down .linkDown id (linkDropped l cut s)
      else linkDropped l cut s := by
  have taken : ¬((s.setLanePin l false).partState = .initialising || !((s.setLanePin l false).lane l).group.link) = true := by
    simp [hp, hl]
  refine (if_neg taken).trans ?_
  simp only [setLanePin_lane, setLanePin_frame]
  rfl

section
variable (l : Lane) (cut : Bool) (s : State)

/-- R26, R148. What the loss makes of the group's words. -/
theorem linkDropped_group : ((linkDropped l cut s).lane l).group.link = false
    ∧ ((linkDropped l cut s).lane l).group.state = (s.lane l).group.state
    ∧ ((linkDropped l cut s).lane l).group.lone = (s.lane l).group.lone
    ∧ ((linkDropped l cut s).lane l).group.arrival = (s.lane l).group.arrival
    ∧ ((linkDropped l cut s).lane l).group.frameErrors = (if cut = true ∧ (s.lane l).group.frameErrors ≠ 0xFFFF then
        (s.lane l).group.frameErrors + 1 else (s.lane l).group.frameErrors)
    ∧ ((linkDropped l cut s).lane l).group.flushed =
        (if (s.lane l).group.state = .held && (s.lane l).wire.isSome then (s.lane l).group.flushed + 1
          else (s.lane l).group.flushed) := by
  cases cut <;> simp [linkDropped, LanePort.cutHeld, LaneGroup.linkLost, LaneGroup.bump, satInc]

/-- R148. What the loss makes of the rest of the port. -/
theorem linkDropped_port : ((linkDropped l cut s).lane l).urgent = (s.lane l).urgent
    ∧ ((linkDropped l cut s).lane l).normal = (s.lane l).normal ∧ ((linkDropped l cut s).lane l).cycle = (s.lane l).cycle
    ∧ ((linkDropped l cut s).lane l).wire = (if (s.lane l).group.state = .held then none else (s.lane l).wire)
    ∧ (linkDropped l cut s).lane l.other = s.lane l.other := by
  cases cut <;> simp [linkDropped, LanePort.cutHeld, LaneGroup.linkLost]

theorem linkDropped_frame : (linkDropped l cut s).partState = s.partState ∧ (linkDropped l cut s).clock = s.clock
    ∧ (linkDropped l cut s).events = s.events ∧ (linkDropped l cut s).redundancy = s.redundancy
    ∧ (linkDropped l cut s).table = s.table ∧ (linkDropped l cut s).watchList = s.watchList
    ∧ (linkDropped l cut s).cleanups = s.cleanups ∧ (linkDropped l cut s).laneNotices = s.laneNotices := by
  cases cut <;> simp [linkDropped]

/-- R37. The first frame error is claimed. -/
theorem linkDropped_claims : (linkDropped l cut s).journal.claims = s.journal.claims
    ++ (if cut = true ∧ (s.lane l).group.frameErrors = 0 then
        [{ kind := .counterFirst, subject := .lane l, time := s.clock, d1 := laneCounterCode .frameErrors, d2 := 0
           d3 := 0 }] else []) := by
  cases cut <;> simp [linkDropped, countLane_claims, LaneGroup.count]

end

/-- R96, R148. A lane that carries traffic and enters DOWN: its queues and the frame on the wire flushed. -/
theorem moveLane_down_flushes (l : Lane) (c : LaneCause) (s : State) :
    ((moveLane l .down c id s).lane l).group.lone = 0 ∧ ((moveLane l .down c id s).lane l).urgent = []
      ∧ ((moveLane l .down c id s).lane l).normal = [] ∧ ((moveLane l .down c id s).lane l).wire = none
      ∧ ((moveLane l .down c id s).lane l).group.flushed = (s.lane l).group.flushed
          + BitVec.ofNat 32 ((s.lane l).urgent.length + (s.lane l).normal.length
              + (if (s.lane l).wire.isSome then 1 else 0))
      ∧ ((moveLane l .down c id s).lane l).group.link = (s.lane l).group.link
      ∧ ((moveLane l .down c id s).lane l).group.frameErrors = (s.lane l).group.frameErrors
      ∧ ((moveLane l .down c id s).lane l).group.arrival = (s.lane l).group.arrival := by
  rw [moveLane_lane_self]
  simp [LanePort.entered, LaneState.carries, LanePort.flushes]

theorem moveLane_down_handed (l : Lane) (c : LaneCause) (f : LaneGroup → LaneGroup) (s : State) :
    (moveLane l .down c f s).cleanups = s.cleanups ++ [l] ∧ (moveLane l .down c f s).laneNotices = s.laneNotices ++ [l] := by
  unfold moveLane enterState
  simp [LaneState.carries]

/-- R96. A lane that carries traffic is not HELD. -/
theorem ne_held_of_carries {n : LaneState} (h : n.carries = true) : n ≠ .held := by
  rintro rfl
  cases h

/-- Settles O28: the port takes the link state, then the lane that was DOWN, or that carried traffic, moves. -/
theorem laneLinkMovesTheLane : Obligations.LaneLinkMovesTheLane := by
  refine ⟨fun s l hp hl => ?_, fun s l cut hp hl => ?_⟩
  · have up : exec (.laneLinkUp l) s = _ := congrArg Host.Outcome.next (laneUp_eq hp hl)
    obtain ⟨rlink, rstate, rlone, rcycle, rother⟩ := linkRaised_lane l s
    obtain ⟨rpart, rclock, rset, rjournal, revents, rred, rtable⟩ := linkRaised_frame l s
    by_cases hd : (s.lane l).group.state = .down
    · rw [if_pos hd] at up
      obtain ⟨mstate, mproving⟩ := moveLane_proving l .linkUp (linkRaised l s)
      have mclaims := moveLane_claims l .proving .linkUp id (linkRaised l s)
      have mevents := moveLane_events l .proving .linkUp id (linkRaised l s)
      rw [rjournal, rclock, rred] at mclaims
      rw [revents, rpart, rred] at mevents
      rw [rclock, rset] at mproving
      refine ⟨_, up, ?_, by rw [mstate, if_pos hd],
        fun _ => ⟨mproving, moveLane_proving_longest .., moveLane_redundancy .., ?_, mevents⟩, fun h => absurd hd h, ?_,
        (moveLane_lane_other ..).trans rother, ?_⟩
      · rw [moveLane_lane_self]
        simpa [LanePort.entered, LaneState.carries] using rlink
      · rw [mclaims, verdictClaim, rstate, hd, id, rlone]
      · rw [moveLane_lane_self, ← rcycle]
        simp [LanePort.entered, LaneState.carries]
      · simp [rtable]
    · rw [if_neg hd] at up
      refine ⟨_, up, ?_, ?_, fun h => absurd h hd, fun _ => ⟨?_, ?_, ?_⟩, ?_, ?_, ?_⟩
      all_goals simp [*]
  · have down : exec (.laneLinkDown l cut) s = _ := congrArg Host.Outcome.next (laneDown_eq cut hp hl)
    obtain ⟨glink, gstate, glone, garrival, gerrors, gflushed⟩ := linkDropped_group l cut s
    obtain ⟨purgent, pnormal, pcycle, pwire, pother⟩ := linkDropped_port l cut s
    obtain ⟨fpart, fclock, fevents, fred, ftable, fwatch, fcleanups, fnotices⟩ := linkDropped_frame l cut s
    have fclaims := linkDropped_claims l cut s
    cases hc : (s.lane l).group.state.carries with
    | true =>
      have hn := ne_held_of_carries hc
      rw [if_pos hc] at down
      obtain ⟨mstate, mcycle, mproving⟩ := moveLane_down l .linkDown (linkDropped l cut s)
      obtain ⟨mlone, murgent, mnormal, mwire, mflushed, mlink, merrors, marrival⟩ :=
        moveLane_down_flushes l .linkDown (linkDropped l cut s)
      obtain ⟨mcleanups, mnotices⟩ := moveLane_down_handed l .linkDown id (linkDropped l cut s)
      have mclaims := moveLane_claims l .down .linkDown id (linkDropped l cut s)
      have mevents := moveLane_events l .down .linkDown id (linkDropped l cut s)
      rw [fclaims, fclock, fred, verdictClaim, gstate, id, glone] at mclaims
      rw [fevents, fpart, fred] at mevents
      rw [gflushed, purgent, pnormal, pwire, if_neg hn, if_neg (by simp [hn])] at mflushed
      refine ⟨_, down, mlink.trans glink, (moveLane_lane_other ..).trans pother, merrors.trans gerrors,
        marrival.trans garrival, ?_, ?_, ?_, fun _ => ⟨mstate, mlone, mcycle.trans (by rw [pcycle]), murgent, mnormal, mwire,
          mproving, mflushed, mcleanups.trans (by rw [fcleanups]), mnotices.trans (by rw [fnotices])⟩,
        fun h => absurd h hn, by simp [ftable], by simp [fwatch]⟩
      · rw [if_pos rfl]
        exact moveLane_redundancy ..
      · rw [mclaims, if_pos rfl]
      · rw [mevents]
        simp
    | false =>
      rw [hc, if_neg Bool.false_ne_true] at down
      refine ⟨_, down, glink, pother, gerrors, garrival, ?_, ?_, ?_, fun h => absurd h Bool.false_ne_true,
        fun h => ⟨gstate.trans h, ?_, pcycle, ?_⟩, ftable, fwatch⟩
      · simp [fred]
      · simp [fclaims, fred]
      · simp [fevents]
      · rw [pwire, if_pos h]
      · rw [gflushed, h]
        cases (s.lane l).wire.isSome <;> simp

end Sys2Proof.Machine
end

section
/-! Records placed in the transmit queues and sent (R37, R144 to R151). -/

namespace Sys2Proof.Machine

/-! ## A port begins to send -/

section
variable {l : Lane} {p : LanePort} {x : TxRecord} {rest : List TxRecord}

/-- R146. An idle port of a lane that carries traffic sends from URGENT first. -/
theorem laneBegin_urgent (hw : p.wire = none) (hc : (p.group.state.carries && p.group.link) = true)
    (hu : p.urgent = x :: rest) :
    p.begin l = { p with urgent := rest, wire := some { record := x, bytes := laneBytes l x } } := by
  obtain ⟨hcar, hlink⟩ := Bool.and_eq_true_iff.1 hc
  simp [LanePort.begin, LanePort.next, hw, hcar, hlink, hu]

theorem laneBegin_normal (hw : p.wire = none) (hc : (p.group.state.carries && p.group.link) = true)
    (hu : p.urgent = []) (hn : p.normal = x :: rest) :
    p.begin l = { p with normal := rest, wire := some { record := x, bytes := laneBytes l x } } := by
  obtain ⟨hcar, hlink⟩ := Bool.and_eq_true_iff.1 hc
  simp [LanePort.begin, LanePort.next, hw, hcar, hlink, hu, hn]

theorem laneBegin_empty (hu : p.urgent = []) (hn : p.normal = []) : p.begin l = p := by
  simp [LanePort.begin, LanePort.next, hu, hn]

/-- R146. A port that is sending, or may not send, begins nothing. -/
theorem laneBegin_waits (h : p.wire.isSome = true ∨ (p.group.state.carries && p.group.link) = false) : p.begin l = p := by
  refine if_neg fun hb => ?_
  rw [Bool.and_assoc, Bool.and_eq_true_iff] at hb
  obtain ⟨hw, hc⟩ := hb
  rcases h with h | h
  · rw [Option.isNone_iff_eq_none.1 hw] at h; cases h
  · rw [h] at hc; cases hc

end

section
variable {p : BayPort} {x : TxRecord} {rest : List TxRecord}

theorem bayBegin_next (hw : p.wire = none) (hq : p.queue = x :: rest) :
    p.begin true = { p with queue := rest, wire := some { record := x, bytes := bayBytes x } } := by
  simp [BayPort.begin, hw, hq]

theorem bayBegin_empty (link : Bool) (hq : p.queue = []) : p.begin link = p := by
  simp [BayPort.begin, hq]

theorem bayBegin_down : p.begin false = p := by simp [BayPort.begin]

theorem bayBegin_busy (link : Bool) (hw : p.wire.isSome = true) : p.begin link = p := by
  obtain ⟨w, hw⟩ := Option.isSome_iff_exists.1 hw
  simp [BayPort.begin, hw]

end

/-! ## The ends of transmissions -/

theorem laneGroup_counted_ne {g g' : LaneGroup} (h : g'.sent = g.sent + 1 ∨ g'.notSent = g.notSent + 1) : g' ≠ g := by
  rintro rfl
  revert h
  generalize g'.sent = m, g'.notSent = n
  bv_omega

theorem bayBlock_counted_ne {b b' : BayBlock} (h : b'.sent = b.sent + 1 ∨ b'.notSent = b.notSent + 1) : b' ≠ b := by
  rintro rfl
  revert h
  generalize b'.sent = m, b'.notSent = n
  bv_omega

/-- R146. The port once the frame on its wire is sent, before it begins the next. -/
def LanePort.done (p : LanePort) : LanePort :=
  { p with group := { p.group with sent := p.group.sent + 1, edition := p.group.edition + 2 }, wire := none }

theorem laneSent_eq {s : State} {l : Lane} (h : (s.lane l).wire.isSome = true) :
    laneSent l s = s.modifyLane l (fun p => p.done.begin l) := by
  obtain ⟨w, hw⟩ := Option.isSome_iff_exists.1 h
  have counted (p : LanePort) : p.group.update (fun g => { g with sent := g.sent + 1 })
      = { p.group with sent := p.group.sent + 1, edition := p.group.edition + 2 } :=
    laneUpdate_ne _ _ (laneGroup_counted_ne (.inl rfl))
  unfold laneSent updateLane
  rw [hw]
  cases l <;> simp only [State.modifyLane, counted] <;> rfl

/-- R151. The port once the frame on its wire is sent, before it begins the next. -/
def BayPort.done (p : BayPort) : BayPort := { p with wire := none }

theorem baySent_eq {s : State} {p : Fin 4} (h : s.bays[p].wire.isSome = true) :
    baySent p s = { s with
      bayGroup := { edition := s.bayGroup.edition + 2
                    ports := modifyAt s.bayGroup.ports p (fun b => { b with sent := b.sent + 1 }) }
      bays := modifyAt s.bays p (fun b => b.done.begin s.bayGroup.ports[p].link) } := by
  obtain ⟨w, hw⟩ := Option.isSome_iff_exists.1 h
  unfold baySent updateBay
  rw [hw, bayUpdate_changed p _ _ (bayBlock_counted_ne (.inl rfl))]
  rfl

/-! ## Offers to a lane -/

section
variable {s : State} {l : Lane} {r : TxRecord}

theorem offerLane_notSent (h : (s.lane l).group.state.carries = false) : offerLane l r s = s.modifyLane l (fun p => { p with
    group := { p.group with notSent := p.group.notSent + 1, edition := p.group.edition + 2 } }) := by
  unfold offerLane updateLane
  rw [h]
  refine (if_pos rfl).trans (congrArg (fun f => s.modifyLane l f) (funext fun p => ?_))
  rw [laneUpdate_ne _ _ (laneGroup_counted_ne (.inr rfl))]

/-- R145. The queues `u` and `n` are those of the port with the record placed. -/
def LanePort.PlacedAs (p : LanePort) (r : TxRecord) (u n : List TxRecord) : Prop :=
  ((r.stream && r.trip) = true ∧ p.urgent.length < 16 ∧ u = p.urgent ++ [r] ∧ n = p.normal)
    ∨ (((r.stream && r.trip) = false ∨ 16 ≤ p.urgent.length) ∧ p.normal.length < 64 ∧ u = p.urgent ∧ n = p.normal ++ [r])

theorem enqueue_placed {p : LanePort} {u n : List TxRecord} (h : p.PlacedAs r u n) :
    p.enqueue r = some { p with urgent := u, normal := n } := by
  unfold LanePort.enqueue
  obtain ⟨hr, hroom, rfl, rfl⟩ | ⟨hr, hroom, rfl, rfl⟩ := h
  · rw [hr, if_pos]
    exact decide_eq_true hroom
  · rw [if_neg, if_pos (show p.normal.length < Config.normalRoom from hroom)]
    rw [Bool.and_eq_true, decide_eq_true_eq]
    rintro ⟨htrip, hurgent⟩
    rcases hr with hr | hr
    · rw [hr] at htrip; cases htrip
    · exact absurd hurgent (Nat.not_lt.2 hr)

/-- R145, R146. A record that is placed: the port begins to send if it can. -/
theorem offerLane_placed {u n : List TxRecord} (hc : (s.lane l).group.state.carries = true)
    (h : (s.lane l).PlacedAs r u n) :
    offerLane l r s = s.modifyLane l (fun p => LanePort.begin l { p with urgent := u, normal := n }) := by
  unfold offerLane
  rw [hc, enqueue_placed h]
  cases l <;> rfl

/-- A port changed is the port as the change leaves it. -/
theorem modifyLane_eq_of {f g : LanePort → LanePort} (h : f (s.lane l) = g (s.lane l)) : s.modifyLane l f = s.modifyLane l g := by
  cases l <;> simp_all [State.modifyLane, State.lane]

end

/-! ## Offers to a bay port -/

theorem modifyAt_fixed {α : Type} {n : Nat} (v : Vector α n) (i : Fin n) (f : α → α) (h : f v[i] = v[i]) : modifyAt v i f = v := by
  apply Vector.ext
  intro j hj
  refine (modifyAt_get v i ⟨j, hj⟩ f).trans ?_
  split
  next hij =>
    subst hij
    exact h
  next => rfl

/-- R37. What an offer that drops a record does to the group of the bay ports. -/
theorem bayUpdate_drops (p : Fin 4) (g : BayGroup) : g.update p (fun b => b.bump .drops) =
    { edition := (g.update p (fun b => b.bump .drops)).edition
      ports := modifyAt g.ports p (fun b => { b with drops := if b.drops = 0xFFFF then 0xFFFF else b.drops + 1 }) } := by
  have hbump : (fun b : BayBlock => b.bump .drops)
      = fun b => { b with drops := if b.drops = 0xFFFF then 0xFFFF else b.drops + 1 } :=
    funext fun b => by rw [BayBlock.bump, satInc_stays]
  rw [hbump]
  unfold BayGroup.update
  split
  next hsame => rw [modifyAt_fixed g.ports p _ hsame]
  next => rfl

section
variable {s : State} {p : Fin 4} {r : TxRecord}

theorem offerBay_notSent (hrun : s.partState = .running) (hlink : s.bayGroup.ports[p].link = false) :
    offerBay p r s = { s with
      bayGroup := { edition := s.bayGroup.edition + 2
                    ports := modifyAt s.bayGroup.ports p (fun b => { b with notSent := b.notSent + 1 }) } } := by
  unfold offerBay
  rw [if_neg (not_not_intro hrun), hlink]
  refine (if_pos rfl).trans ?_
  rw [updateBay, bayUpdate_changed p _ _ (bayBlock_counted_ne (.inr rfl))]

variable {q : List TxRecord} {dropped : Bool}

/-- R149 to R151. An offer to a port whose link is up. -/
theorem offerBay_queued (hrun : s.partState = .running) (hlink : s.bayGroup.ports[p].link = true)
    (hq : BayPort.enqueue r s.bays[p].queue = (q, dropped)) :
    offerBay p r s = if dropped
      then countBay p id .drops s.clock (s.modifyBay p (fun b => BayPort.begin true { b with queue := q }))
      else s.modifyBay p (fun b => BayPort.begin true { b with queue := q }) := by
  unfold offerBay
  rw [if_neg (not_not_intro hrun), hlink, hq]
  rfl

theorem offerBay_bays (hrun : s.partState = .running) (hlink : s.bayGroup.ports[p].link = true)
    (hq : BayPort.enqueue r s.bays[p].queue = (q, dropped)) :
    (offerBay p r s).bays = modifyAt s.bays p (fun b => BayPort.begin true { b with queue := q }) := by
  rw [offerBay_queued hrun hlink hq]
  split
  · rw [countBay_eq]
    rfl
  · rfl

theorem offerBay_frame_queued (hrun : s.partState = .running) (hlink : s.bayGroup.ports[p].link = true)
    (hq : BayPort.enqueue r s.bays[p].queue = (q, dropped)) :
    offerBay p r s = { s with bays := (offerBay p r s).bays, bayGroup := (offerBay p r s).bayGroup
                              journal := (offerBay p r s).journal } := by
  rw [offerBay_queued hrun hlink hq]
  split
  · rw [countBay_eq]
    rfl
  · rfl

theorem offerBay_kept (hrun : s.partState = .running) (hlink : s.bayGroup.ports[p].link = true)
    (hq : BayPort.enqueue r s.bays[p].queue = (q, false)) :
    (offerBay p r s).bayGroup = s.bayGroup ∧ (offerBay p r s).journal = s.journal := by
  rw [offerBay_queued hrun hlink hq]
  exact ⟨rfl, rfl⟩

theorem offerBay_dropped (hrun : s.partState = .running) (hlink : s.bayGroup.ports[p].link = true)
    (hq : BayPort.enqueue r s.bays[p].queue = (q, true)) :
    (offerBay p r s).bayGroup = { edition := (offerBay p r s).bayGroup.edition
                                  ports := modifyAt s.bayGroup.ports p (fun b =>
                                    { b with drops := if b.drops = 0xFFFF then 0xFFFF else b.drops + 1 }) }
    ∧ (offerBay p r s).journal = { s.journal with claims := s.journal.claims
        ++ (if s.bayGroup.ports[p].drops = 0 then
          [{ kind := .counterFirst, subject := .bayPort p, time := s.clock, d1 := bayCounterCode .drops, d2 := 0, d3 := 0 }]
          else []) } := by
  rw [offerBay_queued hrun hlink hq, if_pos rfl, countBay_eq]
  exact ⟨bayUpdate_drops p s.bayGroup, rfl⟩

/-- A port changed is the port as the change leaves it. -/
theorem modifyAt_eq_of {α : Type} {n : Nat} {v : Vector α n} {i : Fin n} {f g : α → α} (h : f v[i] = g v[i]) :
    modifyAt v i f = modifyAt v i g := by
  unfold modifyAt
  rw [h]

end

/-! ## The queue of a bay port -/

section
variable {r : TxRecord} {trips others : List TxRecord}

/-- R149. A TRIP joins behind the TRIPs and before the others; any other record joins last. -/
theorem placeBay_split (ht : ∀ x ∈ trips, x.trip = true) (ho : ∀ x ∈ others, x.trip = false) :
    placeBay r (trips ++ others) = if r.trip then trips ++ r :: others else trips ++ others ++ [r] := by
  have htake : others.takeWhile (·.trip) = [] := by
    cases others with
    | nil => rfl
    | cons x rest => simp [ho x List.mem_cons_self]
  have hdrop : others.dropWhile (·.trip) = others := by
    cases others with
    | nil => rfl
    | cons x rest => simp [ho x List.mem_cons_self]
  unfold placeBay
  rw [List.takeWhile_append_of_pos ht, List.dropWhile_append_of_pos ht, htake, hdrop]
  simp

theorem bayEnqueue_room (ht : ∀ x ∈ trips, x.trip = true) (ho : ∀ x ∈ others, x.trip = false)
    (hroom : (trips ++ others).length < 32) : BayPort.enqueue r (trips ++ others)
      = (if r.trip then trips ++ r :: others else trips ++ others ++ [r], false) := by
  rw [BayPort.enqueue, if_pos (show _ < Config.bayRoom from hroom), placeBay_split ht ho]

/-- R150. In a full queue a TRIP displaces the newest record that is no TRIP. -/
theorem bayEnqueue_displaces (ht : ∀ x ∈ trips, x.trip = true) (ho : ∀ x ∈ others, x.trip = false)
    (hfull : (trips ++ others).length = 32) (hr : r.trip = true) {rest : List TxRecord} {last : TxRecord}
    (hlast : others = rest ++ [last]) : BayPort.enqueue r (trips ++ others) = (trips ++ r :: rest, true) := by
  have hany : ((trips ++ others).any fun x => !x.trip) = true := by
    refine List.any_eq_true.2 ⟨last, by simp [hlast], ?_⟩
    rw [ho last (by simp [hlast])]
    rfl
  have hrest : (trips ++ others).dropLast = trips ++ rest := by rw [hlast, ← List.append_assoc, List.dropLast_concat]
  have hrest' (x : TxRecord) (hx : x ∈ rest) : x.trip = false := ho x (by simp [hlast, hx])
  rw [BayPort.enqueue, if_neg (fun hlt : _ < Config.bayRoom => absurd hfull (Nat.ne_of_lt hlt)), hany, hr,
    if_pos (Bool.and_self true), hrest, placeBay_split ht hrest', if_pos hr]

theorem bayEnqueue_refuses (ht : ∀ x ∈ trips, x.trip = true) (hfull : (trips ++ others).length = 32)
    (h : r.trip = false ∨ others = []) : BayPort.enqueue r (trips ++ others) = (trips ++ others, true) := by
  rw [BayPort.enqueue, if_neg (fun hlt : _ < Config.bayRoom => absurd hfull (Nat.ne_of_lt hlt)), if_neg]
  rw [Bool.and_eq_true]
  rintro ⟨hr, hany⟩
  rcases h with h | h
  · rw [h] at hr; cases hr
  · obtain ⟨x, hx, hxt⟩ := List.any_eq_true.1 hany
    rw [h, List.append_nil] at hx
    rw [ht x hx] at hxt
    cases hxt

end

/-! ## The obligation, clause by clause -/

/-- R146, R148. The end of a lane transmission: the port alone changes, and what it sends next. -/
theorem laneTransmitEnd_spec (s : State) (l : Lane) (hw : (s.lane l).wire.isSome = true) :
    ∃ t, exec (.laneTransmitEnd l) s = .next t ∧ t.lane l = (s.lane l).done.begin l
      ∧ t = s.modifyLane l (fun _ => t.lane l) := by
  refine ⟨_, rfl, ?_⟩
  rw [laneSent_eq hw]
  cases l <;> exact ⟨rfl, rfl⟩

theorem bayTransmitEnd_spec (s : State) (p : Fin 4) (hw : s.bays[p].wire.isSome = true) :
    ∃ t, exec (.bayTransmitEnd p) s = .next t
      ∧ t.bays[p] = s.bays[p].done.begin s.bayGroup.ports[p].link
      ∧ t.bayGroup.ports[p] = { s.bayGroup.ports[p] with sent := s.bayGroup.ports[p].sent + 1 }
      ∧ ∀ q : Fin 4, q ≠ p → t.bays[q] = s.bays[q] ∧ t.bayGroup.ports[q] = s.bayGroup.ports[q] := by
  refine ⟨_, rfl, ?_⟩
  rw [baySent_eq hw]
  refine ⟨modifyAt_get_self _ _ _, modifyAt_get_self _ _ _, fun q hq => ⟨?_, ?_⟩⟩
  · exact modifyAt_get_ne _ _ _ _ hq.symm
  · exact modifyAt_get_ne _ _ _ _ hq.symm

/-- Beginning to send leaves the port's group and its arrivals. -/
theorem laneBegin_keeps (l : Lane) (p : LanePort) : (p.begin l).group = p.group ∧ (p.begin l).arrivals = p.arrivals := by
  unfold LanePort.begin LanePort.next
  split
  · split
    next r p' h =>
      split at h <;> cases h <;> exact ⟨rfl, rfl⟩
    next => exact ⟨rfl, rfl⟩
  · exact ⟨rfl, rfl⟩

/-- Settles O31, an event and an offer at a time, from the equations of beginning to send and of placing a record. -/
theorem recordsArePlacedAndSent : Obligations.RecordsArePlacedAndSent := by
  refine ⟨fun s l hw => ?_, fun s p hw => ?_,
    fun s l r => ⟨offerLane_notSent, fun u n hc h => ⟨fun hbusy => ?_, fun hw hlink => ?_⟩, offerLane_drop l r s⟩,
    offerBays_ascending, fun s p r hrun => ⟨offerBay_notSent hrun, fun hlink q dropped hq => ?_⟩, ?_⟩
  · obtain ⟨t, hexec, hport, hframe⟩ := laneTransmitEnd_spec s l hw
    obtain ⟨hgroup, harrivals⟩ := laneBegin_keeps l (s.lane l).done
    refine ⟨t, hexec, hport ▸ hgroup, hframe, hport ▸ harrivals, fun hc => ⟨fun r rest hu => ?_, fun r rest hu hn => ?_,
      fun hu hn => ?_⟩, fun hc => ?_⟩
    · rw [hport, laneBegin_urgent (p := (s.lane l).done) rfl hc hu]
      exact ⟨rfl, rfl, rfl⟩
    · rw [hport, laneBegin_normal (p := (s.lane l).done) rfl hc hu hn]
      exact ⟨rfl, rfl⟩
    · rw [hport, laneBegin_empty (p := (s.lane l).done) hu hn]
      rfl
    · rw [hport, laneBegin_waits (p := (s.lane l).done) (.inr hc)]
      exact ⟨rfl, rfl, rfl⟩
  · obtain ⟨t, hexec, hport, hblock, hothers⟩ := bayTransmitEnd_spec s p hw
    refine ⟨t, hexec, hblock, hothers, fun r rest hlink hq => ?_, fun hnone => ?_⟩
    · rw [hport, hlink, bayBegin_next (p := s.bays[p].done) rfl hq]
      exact ⟨rfl, rfl⟩
    · rcases hnone with hlink | hq
      · rw [hport, hlink, bayBegin_down]
        exact ⟨rfl, rfl⟩
      · rw [hport, bayBegin_empty (p := s.bays[p].done) _ hq]
        exact ⟨rfl, rfl⟩
  · have hwaits := hbusy.imp_right fun hdown => (congrArg ((s.lane l).group.state.carries && ·) hdown).trans (Bool.and_false _)
    exact (offerLane_placed hc h).trans (modifyLane_eq_of (laneBegin_waits hwaits))
  · have hcan : ((s.lane l).group.state.carries && (s.lane l).group.link) = true := by rw [hc, hlink]; rfl
    refine ⟨fun x rest hu => ?_, fun x rest hu hn => ?_⟩
    · exact (offerLane_placed hc h).trans (modifyLane_eq_of (laneBegin_urgent hw hcan hu))
    · subst hu
      exact (offerLane_placed hc h).trans (modifyLane_eq_of (laneBegin_normal hw hcan rfl hn))
  · refine ⟨fun hbusy => ?_, fun x rest hw hx => ?_, fun hd => ?_, fun hd => ?_, offerBay_frame_queued hrun hlink hq⟩
    · exact (offerBay_bays hrun hlink hq).trans (modifyAt_eq_of (bayBegin_busy true hbusy))
    · exact (offerBay_bays hrun hlink hq).trans (modifyAt_eq_of (bayBegin_next hw hx))
    · exact offerBay_kept hrun hlink (hd ▸ hq)
    · exact offerBay_dropped hrun hlink (hd ▸ hq)
  · intro r trips others ht ho
    exact ⟨bayEnqueue_room ht ho, fun hfull hr _ _ hlast => bayEnqueue_displaces ht ho hfull hr hlast, bayEnqueue_refuses ht⟩

end Sys2Proof.Machine
end

section
/-! Which arrival the engine takes, and what a step of it leaves (R38, R39). -/

namespace Sys2Proof.Machine

/-! ## The queues of arrivals, which no judgement of a copy changes -/

theorem arrivals_eq {s t : State} (hlanes : ∀ l, (t.lane l).arrivals = (s.lane l).arrivals)
    (hbays : ∀ q : Fin 4, t.bays[q].arrivals = s.bays[q].arrivals) : t.arrivals = s.arrivals := by
  funext p
  cases p with
  | lane l => exact hlanes l
  | bay q => exact hbays q

theorem arrivals_of_queues {s t : State} (h : t.queues = s.queues := by simp [State.queues]) : t.arrivals = s.arrivals := by
  simp only [State.queues, Prod.mk.injEq] at h
  obtain ⟨ha, hb, hbays, -⟩ := h
  refine arrivals_eq (fun l => ?_) fun q => by rw [hbays]
  cases l
  exacts [congrArg _ ha, congrArg _ hb]

theorem modifyLane_arrivals {s : State} {l : Lane} {f : LanePort → LanePort} (hf : (f (s.lane l)).arrivals = (s.lane l).arrivals) :
    (s.modifyLane l f).arrivals = s.arrivals := by
  refine arrivals_eq (fun m => ?_) fun q => by cases l <;> rfl
  rw [modifyLane_lane]
  split
  next h =>
    subst h
    exact hf
  next => rfl

theorem modifyBay_arrivals {s : State} {p : Fin 4} {f : BayPort → BayPort} (hf : (f s.bays[p]).arrivals = s.bays[p].arrivals) :
    (s.modifyBay p f).arrivals = s.arrivals := by
  refine arrivals_eq (fun _ => rfl) fun q => ?_
  rw [modifyBay_bays, modifyAt_get]
  split
  next h =>
    subst h
    exact hf
  next => rfl

theorem offerLane_arrivals (l : Lane) (r : TxRecord) (s : State) : (offerLane l r s).arrivals = s.arrivals := by
  have counted (f : LaneGroup → LaneGroup) : (updateLane l f s).arrivals = s.arrivals := modifyLane_arrivals rfl
  unfold offerLane
  split
  · exact counted _
  · split
    next p placed =>
      refine modifyLane_arrivals ((laneBegin_keeps l p).2.trans ?_)
      unfold LanePort.enqueue at placed
      split at placed
      · cases placed; rfl
      · split at placed <;> cases placed
        rfl
    next =>
      rw [countLane_eq]
      exact counted _

theorem bayBegin_arrivals (link : Bool) (b : BayPort) : (b.begin link).arrivals = b.arrivals := (bayBegin_length link b).2

theorem offerBay_arrivals (p : Fin 4) (r : TxRecord) (s : State) : (offerBay p r s).arrivals = s.arrivals := by
  have queued (q : List TxRecord) (link : Bool) :
      (s.modifyBay p (fun b => BayPort.begin link { b with queue := q })).arrivals = s.arrivals :=
    modifyBay_arrivals (bayBegin_arrivals ..)
  unfold offerBay
  dsimp only
  repeat' split
  · rfl
  · rfl
  · rw [countBay_eq]
    exact queued ..
  · exact queued ..

theorem offerBays_arrivals (set : PortSet) (r : TxRecord) (s : State) : (offerBays set r s).arrivals = s.arrivals := by
  refine foldl_keeps State.arrivals _ (fun u q => ?_) _ _
  split
  · exact offerBay_arrivals ..
  · rfl

section
variable (s : State)

theorem acceptFirst_arrivals (p : Fin 512) (e : Entry) (j : Judgement) (w : Option Window) (a : Arrival) (q : Word) (l : Lane) :
    (acceptFirst p e j w a q l s).arrivals = s.arrivals := by
  have relayed {u : State} (hu : u.queues = s.queues) (set : PortSet) (r : TxRecord) :
      (askWatch e a q l (offerBays set r u)).arrivals = s.arrivals := calc
    _ = (offerBays set r u).arrivals := arrivals_of_queues
    _ = u.arrivals := offerBays_arrivals ..
    _ = s.arrivals := arrivals_of_queues hu
  unfold acceptFirst
  dsimp only
  refine relayed ?_ _ _
  (repeat' split) <;> simp [State.queues]

theorem judgeRemote_arrivals (p : Fin 512) (e : Entry) (a : Arrival) (q : Word) (l : Lane) :
    (judgeRemote p e a q l s).arrivals = s.arrivals := by
  unfold judgeRemote
  dsimp only
  repeat' split
  · exact acceptFirst_arrivals ..
  all_goals exact arrivals_of_queues rfl

theorem acceptBay_arrivals (p : Fin 512) (e : Entry) (a : Arrival) (q : Fin 4) : (acceptBay p e a q s).arrivals = s.arrivals := by
  have fresh (e' : Entry) : (freshClaim e a (s.putEntry p (some e'))).arrivals = s.arrivals := arrivals_of_queues
  have handed (e' : Entry) (c : Copy) (u : State) : (deliver e' c (offer (.streamCopy e.id (contentOf a)) u)).arrivals
      = u.arrivals := arrivals_of_queues
  unfold acceptBay
  dsimp only
  rw [handed, offerBays_arrivals, offerLane_arrivals, offerLane_arrivals, fresh]

theorem unplaced_arrivals (a : Arrival) : (unplaced a s).arrivals = s.arrivals := by
  have counted : (countEngine .unplaced a.time s).arrivals = s.arrivals := arrivals_of_queues
  unfold unplaced
  dsimp only
  repeat' split
  · rw [offerBays_arrivals, counted]
  · exact counted
  · rw [offerLane_arrivals, counted]

theorem takeArrival_arrivals (a : Arrival) : (takeArrival a s).arrivals = s.arrivals := by
  have made (p : Fin 512) (e : Entry) : (makeEntry p e s).arrivals = s.arrivals := rfl
  have madeBay (p : Fin 512) (e : Entry) (n : Byte) : State.arrivals { makeEntry p e s with bayEpoch := n } = s.arrivals := rfl
  unfold takeArrival takeLaneCopy takeBayCopy
  dsimp only
  repeat' split
  · exact judgeRemote_arrivals ..
  · exact arrivals_of_queues
  · exact arrivals_of_queues
  · exact (judgeRemote_arrivals ..).trans (made ..)
  · exact unplaced_arrivals ..
  · exact acceptBay_arrivals ..
  · exact arrivals_of_queues
  · exact (acceptBay_arrivals ..).trans (madeBay ..)
  · exact unplaced_arrivals ..

theorem judgeArrival_arrivals (a : Arrival) : (judgeArrival a s).arrivals = s.arrivals := by
  have taken : (asEngineClaim (takeArrival a) s).arrivals = s.arrivals :=
    (arrivals_of_queues (s := takeArrival a s)).trans (takeArrival_arrivals s a)
  unfold judgeArrival
  dsimp only
  split
  · exact (arrivals_of_queues (expireFreshness_queues ..)).trans taken
  · exact taken

theorem judgeArrival_lastServed (a : Arrival) : (judgeArrival a s).lastServed = s.lastServed := by
  have stale (p : Fin 512) (e : Entry) (t : Clock) (q m : Word) (u : State) : (goStale p e t q m u).lastServed = u.lastServed := by
    unfold goStale
    dsimp only
    (repeat' split) <;> simp
  have expired (i : Word) (u : State) : (expireFreshness i u).lastServed = u.lastServed := by
    unfold expireFreshness
    repeat' split
    · exact stale ..
    all_goals rfl
  unfold judgeArrival
  dsimp only
  split
  · rw [expired]
    simp
  · simp

theorem popArrival_arrivals (p q : Port) :
    (popArrival p s).arrivals q = if q = p then (s.arrivals q).tail else s.arrivals q := by
  cases p with
  | lane l =>
    cases q with
    | lane m => cases l <;> cases m <;> rfl
    | bay n => cases l <;> rfl
  | bay p =>
    cases q with
    | lane m => rfl
    | bay n =>
      refine (congrArg BayPort.arrivals (modifyAt_get ..)).trans ?_
      split
      next h =>
        subst h
        exact (if_pos rfl).symm
      next h => exact (if_neg fun same => h (by cases same; rfl)).symm

end

/-! ## The cycle and the choice (R38) -/

/-- The cycle visits every port. -/
theorem mem_cycleAfter (last p : Port) : p ∈ cycleAfter last := by
  cases last with
  | lane l =>
    cases p with
    | lane m => cases l <;> cases m <;> decide
    | bay k => cases l <;> (revert k; decide)
  | bay n =>
    cases p with
    | lane m => cases m <;> (revert n; decide)
    | bay k => revert n k; decide

/-- The cycle visits the ports in the order of their turns. -/
theorem cycleAfter_turns (last : Port) : (cycleAfter last).map last.turn = [0, 1, 2, 3, 4, 5] := by
  cases last with
  | lane l => cases l <;> rfl
  | bay n => revert n; decide

theorem find?_first {α : Type} {f : α → Bool} {n : α → Nat} {l : List α} (sorted : (l.map n).Pairwise (· ≤ ·)) {x y : α}
    (hx : l.find? f = some x) (hy : y ∈ l) (hf : f y = true) : n x ≤ n y := by
  obtain ⟨-, before, behind, rfl, hbefore⟩ := List.find?_eq_some_iff_append.1 hx
  rw [List.map_append, List.map_cons, List.pairwise_append, List.pairwise_cons] at sorted
  obtain ⟨-, ⟨later, -⟩, -⟩ := sorted
  rcases List.mem_append.1 hy with hy | hy
  · exact absurd (hbefore y hy) (by simp [hf])
  · rcases List.mem_cons.1 hy with rfl | hy
    · exact Nat.le_refl _
    · exact later _ (List.mem_map_of_mem hy)

/-- R38. What is found along the cycle has the earliest turn. -/
theorem cycle_find?_first {last p q : Port} {f : Port → Bool} (hp : (cycleAfter last).find? f = some p) (hq : f q = true) :
    last.turn p ≤ last.turn q :=
  find?_first (by rw [cycleAfter_turns]; decide) hp (mem_cycleAfter last q) hq

/-- What the cycle does not find is not there. -/
theorem cycle_find?_none {last : Port} {f : Port → Bool} (h : (cycleAfter last).find? f = none) (q : Port) : f q = false :=
  Bool.eq_false_iff.2 (List.find?_eq_none.1 h q (mem_cycleAfter last q))

/-- R38. A TRIP waits at the head of the port's queue. -/
def State.tripWaits (s : State) (p : Port) : Bool := ((s.arrivals p).head?.map (fun a => a.header.cls == .trip)).getD false

theorem tripWaits_iff (s : State) (p : Port) :
    s.tripWaits p = true ↔ ∃ a, (s.arrivals p).head? = some a ∧ a.header.cls = .trip := by
  unfold State.tripWaits
  cases (s.arrivals p).head? with
  | none => simp
  | some a => simp

theorem chosenPort_eq (s : State) : chosenPort s = ((cycleAfter s.lastServed).find? s.tripWaits).or
    ((cycleAfter s.lastServed).find? fun p => !(s.arrivals p).isEmpty) := by
  unfold chosenPort
  dsimp only
  split
  next p h => exact (congrArg (Option.or · _) h).symm
  next h => exact (congrArg (Option.or · _) h).symm

theorem holds_iff (s : State) (p : Port) : (!(s.arrivals p).isEmpty) = true ↔ s.arrivals p ≠ [] := by simp

/-- R38. The port chosen when some queue holds a record. -/
theorem chosenPort_spec {s : State} (h : ∃ q, s.arrivals q ≠ []) : ∃ p a more, chosenPort s = some p ∧ s.arrivals p = a :: more
    ∧ ((∃ q b, (s.arrivals q).head? = some b ∧ b.header.cls = .trip) → a.header.cls = .trip
      ∧ ∀ q b, (s.arrivals q).head? = some b → b.header.cls = .trip → s.lastServed.turn p ≤ s.lastServed.turn q)
    ∧ ((∀ q b, (s.arrivals q).head? = some b → b.header.cls ≠ .trip) →
        ∀ q, s.arrivals q ≠ [] → s.lastServed.turn p ≤ s.lastServed.turn q) := by
  cases ht : (cycleAfter s.lastServed).find? s.tripWaits with
  | some p =>
    have hchosen : chosenPort s = some p := by rw [chosenPort_eq, ht, Option.some_or]
    obtain ⟨a, ha, hcls⟩ := (tripWaits_iff s p).1 (List.find?_some ht)
    obtain ⟨more, hmore⟩ := List.head?_eq_some_iff.1 ha
    exact ⟨p, a, more, hchosen, hmore, fun _ => ⟨hcls, fun q b hb htrip =>
      cycle_find?_first ht ((tripWaits_iff s q).2 ⟨b, hb, htrip⟩)⟩, fun none => absurd hcls (none p a ha)⟩
  | none =>
    have hchosen : chosenPort s = (cycleAfter s.lastServed).find? (fun p => !(s.arrivals p).isEmpty) := by
      rw [chosenPort_eq, ht, Option.none_or]
    cases hf : (cycleAfter s.lastServed).find? (fun p => !(s.arrivals p).isEmpty) with
    | none =>
      obtain ⟨q, hq⟩ := h
      exact absurd ((holds_iff s q).2 hq) (Bool.eq_false_iff.1 (cycle_find?_none hf q))
    | some p =>
      have hholds := (holds_iff s p).1 (List.find?_some (p := fun p => !(s.arrivals p).isEmpty) hf)
      obtain ⟨a, more, hmore⟩ := List.exists_cons_of_ne_nil hholds
      refine ⟨p, a, more, hchosen.trans hf, hmore, fun ⟨q, b, hb, htrip⟩ => ?_,
        fun _ q hq => cycle_find?_first hf ((holds_iff s q).2 hq)⟩
      exact absurd ((tripWaits_iff s q).2 ⟨b, hb, htrip⟩) (Bool.eq_false_iff.1 (cycle_find?_none ht q))

/-! ## The step -/

/-- R38. An arrival is taken: the head of the chosen queue leaves it and is judged. -/
theorem exec_arrivalTaken {s : State} {p : Port} {a : Arrival} {more : List Arrival} (hready : engineReady s = true)
    (hchosen : chosenPort s = some p) (ha : s.arrivals p = a :: more) :
    exec .arrivalTaken s = .next (judgeArrival a (popArrival p s)) := by
  have htaken : arrivalTaken s = judgeArrival a (popArrival p s) := by
    unfold arrivalTaken
    rw [if_pos hready, hchosen]
    dsimp only
    rw [ha]
  exact congrArg Host.Outcome.next htaken

/-- Settles O34: the choice is a search along the cycle, and judging a copy leaves every queue of arrivals. -/
theorem arrivalTakenServesTheCycle : Obligations.ArrivalTakenServesTheCycle := by
  intro s hready hsome
  obtain ⟨p, a, more, hchosen, ha, htrip, hother⟩ := chosenPort_spec hsome
  have hqueue (q : Port) : (judgeArrival a (popArrival p s)).arrivals q = if q = p then (s.arrivals q).tail else s.arrivals q :=
    (congrFun (judgeArrival_arrivals _ a) q).trans (popArrival_arrivals s p q)
  have hserved : (judgeArrival a (popArrival p s)).lastServed = p := by
    rw [judgeArrival_lastServed]
    cases p with
    | lane l => cases l <;> rfl
    | bay q => rfl
  have hspine : Spine s (judgeArrival a (popArrival p s)) := (popArrival_spine p s).trans (judgeArrival_spine a _)
  refine ⟨_, p, a, exec_arrivalTaken hready hchosen ha, by rw [ha]; rfl, hserved, (hqueue p).trans (if_pos rfl),
    fun q hq => (hqueue q).trans (if_neg hq), htrip, hother, ?_⟩
  obtain ⟨-, hpart, -, hclock, -, -, -, -, hmem, -⟩ := hspine
  exact ⟨hpart, hmem, hclock⟩

end Sys2Proof.Machine
end

section
/-! Copies out of place: echoes and origin clashes (R37, R49 to R51). -/

namespace Sys2Proof.Machine

/-! ## What taking a record leaves -/

/-- R38. Taking the head of a queue changes the ports and the pointer alone. -/
theorem popArrival_shape (q : Port) (s : State) : ∃ la lb bs,
    popArrival q s = { s with lastServed := q, laneA := la, laneB := lb, bays := bs } := by
  cases q with
  | lane l => cases l <;> exact ⟨_, _, _, rfl⟩
  | bay b => exact ⟨_, _, _, rfl⟩

theorem popArrival_lane (q : Port) (l : Lane) (s : State) :
    (popArrival q s).lane l = { s.lane l with arrivals := ((popArrival q s).lane l).arrivals } := by
  cases q with
  | lane m => cases l <;> cases m <;> rfl
  | bay b => rfl

theorem popArrival_bay (q : Port) (b : Fin 4) (s : State) :
    (popArrival q s).bays[b] = { s.bays[b] with arrivals := (popArrival q s).bays[b].arrivals } := by
  cases q with
  | lane m => cases m <;> rfl
  | bay p =>
    have hbay : (popArrival (.bay p) s).bays[b] = if p = b then { s.bays[p] with arrivals := s.bays[p].arrivals.tail } else s.bays[b] :=
      modifyAt_get ..
    rw [hbay]
    split
    next h =>
      subst h
      rfl
    next => rfl

theorem lookup_of_table {s t : State} (h : t.table = s.table) (id : Word) : t.lookup id = s.lookup id := by
  unfold State.lookup State.findEntry
  rw [h]

theorem popArrival_table (q : Port) (s : State) : (popArrival q s).table = s.table := by
  obtain ⟨la, lb, bs, hpop⟩ := popArrival_shape q s
  rw [hpop]

/-! ## A copy seen out of place -/

theorem countEngine_eq (k : EngineCounter) (time : Clock) (s : State) : countEngine k time s =
    { s with
      counters := s.counters.update (·.bump k)
      journal := { s.journal with claims := s.journal.claims ++ if s.counters.count k = 0 then
        [{ kind := .counterFirst, subject := .part, time := time, d1 := engineCounterCode k, d2 := 0, d3 := 0 }] else [] } } := by
  unfold countEngine
  dsimp only
  split
  · rfl
  · rw [List.append_nil]
    rfl

/-- R49 to R51. What the engine makes of a copy of the stream of `e` that is an ECHO, or an ORIGIN-CLASH. -/
def seenOutOfPlace (isEcho : Bool) (p : Fin 512) (e : Entry) (a : Arrival) (s : State) : State :=
  { s with
    counters := s.counters.update (·.bump (if isEcho then .echo else .originClash))
    table := s.table.set p (some { e with echoNoted := e.echoNoted || isEcho, clashNoted := e.clashNoted || !isEcho })
    journal := { s.journal with claims := s.journal.claims
      ++ (if s.counters.count (if isEcho then .echo else .originClash) = 0 then
        [{ kind := .counterFirst, subject := .part, time := a.time
           d1 := engineCounterCode (if isEcho then .echo else .originClash), d2 := 0, d3 := 0 }] else [])
      ++ (if (if isEcho then e.echoNoted else e.clashNoted) then [] else
        [seenClaim (if isEcho then .echoSeen else .originClashSeen) e.id a]) } }

section
variable {s : State} {p : Fin 512} {e : Entry}

/-- An entry put where it stands changes nothing. -/
theorem set_standing (h : s.table[p] = some e) : s.table.set p (some e) = s.table := by
  rw [← h]
  exact Vector.set_getElem_self _

theorem echo_eq (h : s.table[p] = some e) (a : Arrival) : echo p e a s = seenOutOfPlace true p e a s := by
  unfold echo seenOutOfPlace
  dsimp only
  rw [countEngine_eq]
  cases hn : e.echoNoted with
  | true =>
    have he : { e with echoNoted := true, clashNoted := e.clashNoted || !true } = e := by
      rw [Bool.not_true, Bool.or_false, ← hn]
    simp only [Bool.true_or, he, set_standing h, if_true, List.append_nil]
  | false =>
    simp only [Bool.or_true, Bool.not_true, Bool.or_false]
    rfl

theorem clash_eq (h : s.table[p] = some e) (a : Arrival) : clash p e a s = seenOutOfPlace false p e a s := by
  unfold clash seenOutOfPlace
  dsimp only
  rw [countEngine_eq]
  cases hn : e.clashNoted with
  | true =>
    have he : { e with echoNoted := e.echoNoted || false, clashNoted := true } = e := by
      rw [Bool.or_false, ← hn]
    simp only [Bool.true_or, Bool.false_eq_true, if_false, he, set_standing h, if_true, List.append_nil]
  | false =>
    simp only [Bool.or_false, Bool.not_false, Bool.or_true]
    rfl

variable {a : Arrival} {l : Lane} {b : Fin 4}

theorem judgeArrival_unaccepted (h : s.accepts a = false) : judgeArrival a s = asEngineClaim (takeArrival a) s := by
  unfold judgeArrival
  dsimp only
  rw [h]
  rfl

/-- R49, R50. A lane copy of a stream that is not REMOTE. -/
theorem judgeArrival_returned (hport : a.port = .lane l) (hlook : s.lookup a.header.id = some (p, e)) (ho : e.origin ≠ .remote) :
    judgeArrival a s
      = asEngineClaim (seenOutOfPlace (isEcho (s.sendState e) a.header.epoch (a.seq.getD 0)) p e a) s := by
  obtain ⟨hp, -⟩ := lookup_some hlook
  have hrefused : s.accepts a = false := by
    unfold State.accepts
    rw [hlook, hport]
    simp [ho]
  have htaken : takeArrival a s = seenOutOfPlace (isEcho (s.sendState e) a.header.epoch (a.seq.getD 0)) p e a s := by
    unfold takeArrival takeLaneCopy
    rw [hport]
    dsimp only
    rw [hlook]
    dsimp only
    rw [if_neg ho]
    cases isEcho (s.sendState e) a.header.epoch (a.seq.getD 0) with
    | true => exact (if_pos rfl).trans (echo_eq hp a)
    | false => exact (if_neg Bool.false_ne_true).trans (clash_eq hp a)
  rw [judgeArrival_unaccepted hrefused]
  unfold asEngineClaim
  rw [htaken]

/-- R50. A bay copy of a stream that is not LOCAL-BAY of its port. -/
theorem judgeArrival_foreign (hport : a.port = .bay b) (hlook : s.lookup a.header.id = some (p, e)) (ho : e.origin ≠ .localBay b) :
    judgeArrival a s = asEngineClaim (seenOutOfPlace false p e a) s := by
  obtain ⟨hp, -⟩ := lookup_some hlook
  have hrefused : s.accepts a = false := by
    unfold State.accepts
    rw [hlook, hport]
    simp [ho]
  have htaken : takeArrival a s = seenOutOfPlace false p e a s := by
    unfold takeArrival takeBayCopy
    rw [hport]
    dsimp only
    rw [hlook]
    exact (if_neg ho).trans (clash_eq hp a)
  rw [judgeArrival_unaccepted hrefused]
  unfold asEngineClaim
  rw [htaken]

end

/-- R36. The counters after a copy out of place. -/
theorem seen_counters (isEcho : Bool) (c : Counters) :
    c.update (·.bump (if isEcho then .echo else .originClash)) = { c with
      edition := (c.update (·.bump (if isEcho then .echo else .originClash))).edition
      echo := if isEcho = true ∧ c.echo ≠ 0xFFFF then c.echo + 1 else c.echo
      originClash := if isEcho = false ∧ c.originClash ≠ 0xFFFF then c.originClash + 1 else c.originClash } := by
  have stays (w : Word) : satInc w = if w ≠ 0xFFFF then w + 1 else w := by
    unfold satInc
    split <;> simp_all
  cases isEcho with
  | true =>
    refine (countersUpdate_eq _ c).trans ?_
    simp [Counters.bump, stays]
  | false =>
    refine (countersUpdate_eq _ c).trans ?_
    simp [Counters.bump, stays]

/-- Settles O39: either copy is seen out of place, which `seenOutOfPlace` says at once for both judgements. -/
theorem echoesAndClashesAreCounted : Obligations.EchoesAndClashesAreCounted := by
  intro s a q more p e sent flag hready hchosen ha hport hlook hhost hbay hcase
  obtain ⟨la, lb, bs, hpop⟩ := popArrival_shape q s
  have hlook' : (popArrival q s).lookup a.header.id = some (p, e) := (lookup_of_table (popArrival_table q s) _).trans hlook
  have hjudged : judgeArrival a (popArrival q s) = asEngineClaim (seenOutOfPlace flag p e a) (popArrival q s) := by
    rcases hcase with ⟨l, rfl, ho, hflag⟩ | ⟨b, rfl, ho, hflag⟩
    · have hsent : (popArrival (.lane l) s).sendState e = sent := by
        unfold State.sendState
        cases horigin : e.origin with
        | remote => exact absurd horigin ho
        | localHost k => rw [hhost k horigin, hpop]
        | localBay b => exact (hbay b horigin).symm
      rw [judgeArrival_returned hport hlook' ho, hsent, hflag]
      rfl
    · rw [judgeArrival_foreign hport hlook' ho, hflag]
  have harrivals (r : Port) : (judgeArrival a (popArrival q s)).arrivals r = if r = q then more else s.arrivals r := by
    refine (congrFun (judgeArrival_arrivals _ a) r).trans ((popArrival_arrivals s q r).trans ?_)
    split
    next hr => rw [hr, ha]; rfl
    next => rfl
  have hlanes (l : Lane) : (judgeArrival a (popArrival q s)).lane l = (popArrival q s).lane l := by rw [hjudged]; rfl
  have hbays : (judgeArrival a (popArrival q s)).bays = (popArrival q s).bays := by rw [hjudged]; rfl
  refine ⟨_, exec_arrivalTaken hready hchosen ha, ?_, ?_, ?_, harrivals, ?_, fun l => ?_, fun b => ?_⟩
  · rw [hjudged, hpop]
    exact seen_counters flag s.counters
  · rw [hjudged, hpop]
    rfl
  · rw [hjudged, hpop]
    cases flag <;> simp only [asEngineClaim_frame, seenOutOfPlace, seenClaim, hport] <;> rfl
  · rw [hjudged, hpop]
    rfl
  · rw [hlanes]
    exact popArrival_lane q l s
  · rw [hbays]
    exact popArrival_bay q b s

end Sys2Proof.Machine
end

section
/-! Copies of unknown streams: the entry learned, or the copy unplaced (R40, R44 to R47, R70, R76). -/

namespace Sys2Proof.Machine

/-! ## Finding an entry, and a free position -/

theorem lookup_none_iff (s : State) (id : Word) :
    s.lookup id = none ↔ ∀ (q : Fin 512) (f : Entry), s.table[q] = some f → f.id ≠ id := by
  refine ⟨fun h q f => lookup_none h q f, fun h => ?_⟩
  cases hl : s.lookup id with
  | none => rfl
  | some found =>
    obtain ⟨hp, hid⟩ := lookup_some (p := found.1) (e := found.2) hl
    exact absurd hid (h _ _ hp)

theorem freePosition_of_table {s t : State} (h : t.table = s.table) : t.freePosition = s.freePosition := by
  unfold State.freePosition
  rw [h]

/-- An unknown stream's entry, put into the table, is the one found. -/
theorem lookup_learned {s t : State} {p : Fin 512} {e : Entry} (h : s.lookup e.id = none) (ht : t.table = s.table.set p (some e)) :
    t.lookup e.id = some (p, e) := by
  have hget (q : Fin 512) : t.table[q] = if p = q then some e else s.table[q] := by
    rw [ht]
    exact putEntry_get p q (some e) s
  refine lookup_unique ((hget p).trans (if_pos rfl)) fun q f hf hid => ?_
  rw [hget] at hf
  split at hf
  next hpq => exact hpq.symm
  next => exact absurd hid (lookup_none h q f hf)

/-! ## What an offer to the ports changes, and what it reads -/

/-- Sections 2.7 and 9: `t` is `s` but for its ports and the COUNTER-FIRST claims added. -/
def OnlySends (s t : State) : Prop :=
  ∃ la lb bs g later, t = { s with laneA := la, laneB := lb, bays := bs, bayGroup := g
                                   journal := { s.journal with claims := s.journal.claims ++ later } }
    ∧ ∀ c ∈ later, c.kind = .counterFirst

theorem OnlySends.refl (s : State) : OnlySends s s := ⟨_, _, _, _, [], by rw [List.append_nil], by simp⟩

theorem OnlySends.trans {s t u : State} (h : OnlySends s t) (g : OnlySends t u) : OnlySends s u := by
  obtain ⟨la, lb, bs, gr, later, rfl, hlater⟩ := h
  obtain ⟨la', lb', bs', gr', later', rfl, hlater'⟩ := g
  refine ⟨la', lb', bs', gr', later ++ later', ?_, fun c hc => (List.mem_append.1 hc).elim (hlater c) (hlater' c)⟩
  rw [← List.append_assoc]

theorem modifyLane_onlySends (l : Lane) (f : LanePort → LanePort) (s : State) : OnlySends s (s.modifyLane l f) := by
  cases l <;> exact ⟨_, _, _, _, [], by rw [List.append_nil]; rfl, by simp⟩

theorem offerLane_onlySends (l : Lane) (r : TxRecord) (s : State) : OnlySends s (offerLane l r s) := by
  unfold offerLane
  split
  · exact modifyLane_onlySends ..
  · split
    next => exact modifyLane_onlySends ..
    next =>
      rw [countLane_eq]
      cases l <;> exact ⟨_, _, _, _, _, rfl, fun c hc => by split at hc <;> simp_all⟩

theorem offerBay_onlySends (p : Fin 4) (r : TxRecord) (s : State) : OnlySends s (offerBay p r s) := by
  have ports (g : BayGroup) (b : Vector BayPort 4) : OnlySends s { s with bayGroup := g, bays := b } :=
    ⟨_, _, _, _, [], by rw [List.append_nil], by simp⟩
  unfold offerBay
  dsimp only
  repeat' split
  · exact .refl s
  · exact ports _ s.bays
  · rw [countBay_eq]
    exact ⟨_, _, _, _, _, rfl, fun c hc => by split at hc <;> simp_all⟩
  · exact ports s.bayGroup _

theorem offerBays_onlySends (set : PortSet) (r : TxRecord) (s : State) : OnlySends s (offerBays set r s) := by
  rw [offerBays_ascending]
  refine List.foldlRecOn (motive := OnlySends s) _ _ (.refl s) fun t h p _ => h.trans (offerBay_onlySends p r t)

/-- Offers made alike from two states leave the first with the ports and the claims of the second. -/
theorem OnlySends.alike {s s' u : State} (h : OnlySends s s') (g : SendView s' u) :
    s' = { s with laneA := u.laneA, laneB := u.laneB, bays := u.bays, bayGroup := u.bayGroup
                  journal := { s.journal with claims := u.journal.claims } } := by
  obtain ⟨la, lb, bs, gr, later, rfl, -⟩ := h
  obtain ⟨-, -, hla, hlb, hbs, hgr, hj⟩ := g
  rw [← hla, ← hlb, ← hbs, ← hgr, ← hj]

theorem offerLane_otherJournal (l : Lane) (r : TxRecord) (s : State) (j : Journal) :
    ∃ k, offerLane l r { s with journal := j } = { offerLane l r s with journal := k } := by
  have hlane : State.lane { s with journal := j } l = s.lane l := by cases l <;> rfl
  unfold offerLane
  rw [hlane]
  split
  · exact ⟨j, by cases l <;> rfl⟩
  · split
    next => exact ⟨j, by cases l <;> rfl⟩
    next =>
      rw [countLane_eq, countLane_eq]
      cases l <;> exact ⟨_, rfl⟩

theorem offerBay_otherJournal (p : Fin 4) (r : TxRecord) (s : State) (j : Journal) :
    ∃ k, offerBay p r { s with journal := j } = { offerBay p r s with journal := k } := by
  unfold offerBay
  dsimp only
  repeat' split
  · exact ⟨j, rfl⟩
  · exact ⟨j, rfl⟩
  · rw [countBay_eq, countBay_eq]
    exact ⟨_, rfl⟩
  · exact ⟨j, rfl⟩

theorem offerBays_otherJournal (set : PortSet) (r : TxRecord) (s : State) (j : Journal) :
    ∃ k, offerBays set r { s with journal := j } = { offerBays set r s with journal := k } := by
  rw [offerBays_ascending, offerBays_ascending]
  generalize (List.finRange 4).filter (fun p => set.getLsbD p.val) = l
  induction l generalizing s j with
  | nil => exact ⟨j, rfl⟩
  | cons p l ih =>
    obtain ⟨k, hk⟩ := offerBay_otherJournal p r s j
    obtain ⟨k', hk'⟩ := ih (offerBay p r s) k
    refine ⟨k', ?_⟩
    rw [List.foldl_cons, List.foldl_cons, hk]
    exact hk'

/-! ## The entry learned -/

/-- R40, R42, R70, R76. The entry that the first copy of a stream makes. -/
def State.learnedEntry (s : State) (a : Arrival) (o : Origin) (w : Option Window) (epoch : Byte) (next : Word) : Entry :=
  { s.blankEntry a.header.id o with
    cls := some a.header.cls, fresh := some (if a.header.hold = 0 then .unsupervised else .fresh)
    deadline := if a.header.hold = 0 then .none
      else .at (a.time + millis a.header.hold + millis s.settings.freshMargin) a.header.hold s.settings.freshMargin
    hold := a.header.hold, window := w, sendEpoch := epoch, sendNext := next, firsts := 1, lastAccept := some a.time
    serial := s.serial + 1 }

/-- R45, R46. The entry as it stands before its first copy is accepted. -/
def State.madeEntry (s : State) (a : Arrival) (o : Origin) (epoch : Byte) : Entry :=
  { s.blankEntry a.header.id o with cls := some a.header.cls, sendEpoch := epoch, serial := s.serial + 1 }

/-- R110. The claim of the first copy of a stream, where learned streams are journalled. -/
def learnedClaims (set : Settings) (a : Arrival) : List JournalClaim :=
  if set.journalLearned then
    [{ kind := .streamFresh, subject := .stream a.header.id, time := a.time
       d1 := freshnessCode (some (if a.header.hold = 0 then .unsupervised else .fresh)), d2 := a.header.hold
       d3 := portWord a.port }] else []

/-- R79. The watch that the first copy asks for on lane `l`. -/
def learnedWatch (s : State) (a : Arrival) (l : Lane) : List TwinClaim :=
  if (a.seq.getD 0).toNat % (s.settings.divisor a.header.cls).toNat = 0 then
    [.watch a.header.id (s.serial + 1) (a.seq.getD 0) l a.time] else []

/-- R110. The state with the claim of a learned stream made. -/
def State.claimLearned (s : State) (a : Arrival) : State :=
  { s with journal := { s.journal with claims := s.journal.claims ++ learnedClaims s.settings a } }

/-- R70. The state with the entry put, the claim made and the copy offered to the rules. -/
def State.heard (s : State) (p : Fin 512) (e : Entry) (a : Arrival) : State :=
  { (s.putEntry p (some e)).claimLearned a with events := s.events ++ [.streamCopy a.header.id (contentOf a)] }

/-- The state after a first copy learned, with the ports and the claims of `u`, which the offers of the copy left. -/
def State.learn (s u : State) (p : Fin 512) (e : Entry) (a : Arrival) (watch : List TwinClaim) (epoch : Byte) : State :=
  { s with table := s.table.set p (some e), serial := s.serial + 1, bayEpoch := epoch
           events := s.events ++ [.streamCopy a.header.id (contentOf a)], twinClaims := s.twinClaims ++ watch
           laneA := u.laneA, laneB := u.laneB, bays := u.bays, bayGroup := u.bayGroup
           journal := { s.journal with claims := u.journal.claims } }

theorem freshClaim_learned {e : Entry} {a : Arrival} (hf : e.fresh = none) (hc : e.configured = false) (hid : e.id = a.header.id)
    (s : State) : freshClaim e a s = s.claimLearned a := by
  have hcode (x : Option Freshness) : (freshnessCode none <<< 8) ||| freshnessCode x = freshnessCode x := by simp [freshnessCode]
  unfold freshClaim Entry.freshens State.claimLearned learnedClaims
  rw [hf, hc, hid]
  dsimp only
  rw [hcode, Bool.true_and, Bool.false_or]
  split
  · rfl
  · rw [List.append_nil]

theorem askWatch_eq (e : Entry) (a : Arrival) (q : Word) (l : Lane) (s : State) : askWatch e a q l s = { s with
    twinClaims := s.twinClaims ++ if q.toNat % (s.settings.divisor a.header.cls).toNat = 0 then
      [.watch e.id e.serial q l a.time] else [] } := by
  unfold askWatch
  split
  · rfl
  · rw [List.append_nil]

theorem offer_running {s : State} (h : s.partState = .running) (e : RuleEvent) :
    offer e s = { s with events := s.events ++ [e] } := if_pos h

theorem credited_fresh (now : Word) :
    ({ lone := false, run := 0, cycle := now } : LaneRecord).credited now = ({ lone := false, run := 0, cycle := now }, false) := by
  simp [LaneRecord.credited, LaneRecord.reads]

section
variable {s u : State} {a : Arrival} {p : Fin 512}

theorem lane_learnedEntry (l : Lane) (w : Option Window) :
    ({ (s.madeEntry a .remote 0).accepted a true s.settings.freshMargin with window := w }).setRecord l
        { lone := false, run := 0, cycle := (s.lane l).cycle }
      = s.learnedEntry a .remote w 0 0 := by
  cases l <;> rfl

theorem claimLearned_view {t : State} (h : SendView s t) (hset : s.settings = t.settings) :
    SendView (s.claimLearned a) (t.claimLearned a) := by
  obtain ⟨hpart, hclock, hla, hlb, hbs, hgr, hj⟩ := h
  refine ⟨hpart, hclock, hla, hlb, hbs, hgr, ?_⟩
  unfold State.claimLearned
  rw [hset, hj]

/-- R70. The FIRST that begins the window of an entry just made. -/
theorem acceptFirst_made {e e' : Entry} {w : Option Window} {l : Lane} {seq : Word}
    (hrec : e.record l = { lone := false, run := 0, cycle := (s.lane l).cycle }) (hblank : e.fresh = none ∧ e.configured = false)
    (hid : e.id = a.header.id) (hdefault : e.forward = .default) (hrun : s.partState = .running) (hslot : e'.slot = none)
    (he' : ({ e.accepted a true s.settings.freshMargin with window := w }).setRecord l
      { lone := false, run := 0, cycle := (s.lane l).cycle } = e') :
    acceptFirst p e .firstFromEmpty w a seq l s = askWatch e a seq l (offerBays s.settings.defaultForward (relayRecord a)
      (s.heard p e' a)) := by
  have hclaim (t : State) : freshClaim e a t = t.claimLearned a := freshClaim_learned hblank.1 hblank.2 hid t
  have hdeliver (c : Copy) (t : State) : deliver e' c t = t := by
    unfold deliver
    rw [hslot]
  have hoffer (t : State) (ht : t.partState = s.partState) (r : RuleEvent) : offer r t = { t with events := t.events ++ [r] } :=
    offer_running (ht.trans hrun) r
  unfold acceptFirst
  dsimp only at he' ⊢
  rw [hrec, credited_fresh]
  dsimp only
  rw [show Judgement.begins .firstFromEmpty = true from rfl, he', hclaim, hdeliver, if_neg Bool.false_ne_true,
    hoffer ((s.putEntry p (some e')).claimLearned a) rfl, hdefault, hid]
  rfl

theorem heard_makeEntry (e e' : Entry) : (makeEntry p e s).heard p e' a = { s with
    table := s.table.set p (some e'), serial := s.serial + 1
    events := s.events ++ [.streamCopy a.header.id (contentOf a)]
    journal := { s.journal with claims := s.journal.claims ++ learnedClaims s.settings a } } := by
  unfold State.heard State.claimLearned makeEntry State.putEntry
  dsimp only
  rw [Vector.set_set]

/-- R60, R79. An entry made, heard of, its copy sent into the bay and its watch asked for. -/
theorem askWatch_heard (l : Lane) (e e' : Entry) (set : PortSet) (r : TxRecord) (hu : SendView (s.claimLearned a) u)
    (hid : e.id = a.header.id) (hserial : e.serial = s.serial + 1) :
    askWatch e a (a.seq.getD 0) l (offerBays set r ((makeEntry p e s).heard p e' a))
      = s.learn (offerBays set r u) p e' a (learnedWatch s a l) s.bayEpoch := by
  have hview : SendView ((makeEntry p e s).heard p e' a) u := by
    rw [heard_makeEntry]
    unfold SendView State.claimLearned at hu
    unfold SendView
    exact hu
  have hsent := (offerBays_onlySends set r _).alike (offerBays_view set r hview)
  rw [hsent, heard_makeEntry, askWatch_eq, hid, hserial]
  rfl

/-- R45, R70. The first copy of an unknown stream on a lane. -/
theorem takeArrival_learnsLane {l : Lane} (hrun : s.partState = .running) (hport : a.port = .lane l)
    (hlook : s.lookup a.header.id = none) (hfree : s.freePosition = some p) (hu : SendView (s.claimLearned a) u) :
    takeArrival a s = s.learn (offerBays s.settings.defaultForward (relayRecord a) u) p
      (s.learnedEntry a .remote (some (Window.start (a.seq.getD 0) a.header.epoch l)) 0 0) a (learnedWatch s a l) s.bayEpoch := by
  have hmade : takeArrival a s = acceptFirst p (s.madeEntry a .remote 0) .firstFromEmpty
      (some (Window.start (a.seq.getD 0) a.header.epoch l)) a (a.seq.getD 0) l (makeEntry p (s.madeEntry a .remote 0) s) := by
    unfold takeArrival takeLaneCopy
    rw [hport]
    dsimp only
    rw [hlook, hfree]
    rfl
  have hlane : (makeEntry p (s.madeEntry a .remote 0) s).lane l = s.lane l := by cases l <;> rfl
  have hrec : (s.madeEntry a .remote 0).record l
      = { lone := false, run := 0, cycle := ((makeEntry p (s.madeEntry a .remote 0) s).lane l).cycle } := by cases l <;> rfl
  have hentry := lane_learnedEntry (s := s) (a := a) l (some (Window.start (a.seq.getD 0) a.header.epoch l))
  rw [← hlane] at hentry
  exact hmade.trans ((acceptFirst_made hrec ⟨rfl, rfl⟩ rfl rfl hrun rfl hentry).trans (askWatch_heard l _ _ _ _ hu rfl rfl))

/-! ## The first copy on a bay port -/

/-- R76. A bay copy stamped for both lanes, and offered to the other bay ports of a set. -/
def sendStamped (set : PortSet) (b : Fin 4) (a : Arrival) (epoch : Byte) (s : State) : State :=
  offerBays (without set b) (relayRecord a) (offerLane .b (stampedRecord a epoch 0) (offerLane .a (stampedRecord a epoch 0) s))

theorem sendStamped_onlySends (set : PortSet) (b : Fin 4) (a : Arrival) (epoch : Byte) (s : State) :
    OnlySends s (sendStamped set b a epoch s) :=
  (offerLane_onlySends .a _ s).trans ((offerLane_onlySends .b _ _).trans (offerBays_onlySends ..))

theorem sendStamped_view (set : PortSet) (b : Fin 4) (a : Arrival) (epoch : Byte) (h : SendView s u) :
    SendView (sendStamped set b a epoch s) (sendStamped set b a epoch u) :=
  offerBays_view _ _ (offerLane_view .b _ (offerLane_view .a _ h))

/-- R76. The first copy on the bay port of an entry just made. -/
theorem acceptBay_made {e e' : Entry} {b : Fin 4} {set : PortSet} {epoch : Byte} (hset : s.settings.defaultForward = set)
    (hepoch : e.sendEpoch = epoch) (hblank : e.fresh = none ∧ e.configured = false) (hid : e.id = a.header.id)
    (hdefault : e.forward = .default) (hnext : e.sendNext = 0) (hslot : e'.slot = none)
    (he' : { e.accepted a false s.settings.freshMargin with sendNext := 1 } = e') :
    acceptBay p e a b s = offer (.streamCopy a.header.id (contentOf a))
      (sendStamped set b a epoch ((s.putEntry p (some e')).claimLearned a)) := by
  have hclaim (t : State) : freshClaim e a t = t.claimLearned a := freshClaim_learned hblank.1 hblank.2 hid t
  have hdeliver (c : Copy) (t : State) : deliver e' c t = t := by
    unfold deliver
    rw [hslot]
  have hsettings (l m : Lane) (r : TxRecord) (t : State) : (offerLane l r (offerLane m r t)).settings = t.settings := by simp
  unfold acceptBay
  dsimp only at he' ⊢
  rw [hnext, show (0 : Word) + 1 = 1 from rfl, he', hclaim, hdeliver, hsettings, hdefault, hid, hepoch, ← hset]
  rfl

theorem bay_learnedEntry (b : Fin 4) :
    { (s.madeEntry a (.localBay b) s.bayEpoch).accepted a false s.settings.freshMargin with sendNext := 1 }
      = s.learnedEntry a (.localBay b) none s.bayEpoch 1 := rfl

theorem putEntry_makeEntry (e e' : Entry) (n : Byte) :
    (State.putEntry p (some e') { makeEntry p e s with bayEpoch := n }).claimLearned a = { s with
      table := s.table.set p (some e'), serial := s.serial + 1, bayEpoch := n
      journal := { s.journal with claims := s.journal.claims ++ learnedClaims s.settings a } } := by
  unfold State.claimLearned makeEntry State.putEntry
  dsimp only
  rw [Vector.set_set]

theorem offer_sendStamped {b : Fin 4} {e e' : Entry} {n : Byte} (set : PortSet) (epoch : Byte) (hrun : s.partState = .running)
    (hu : SendView (s.claimLearned a) u) :
    offer (.streamCopy a.header.id (contentOf a)) (sendStamped set b a epoch
        ((State.putEntry p (some e') { makeEntry p e s with bayEpoch := n }).claimLearned a))
      = s.learn (sendStamped set b a epoch u) p e' a [] n := by
  have hview : SendView ((State.putEntry p (some e') { makeEntry p e s with bayEpoch := n }).claimLearned a) u := by
    rw [putEntry_makeEntry]
    unfold SendView State.claimLearned at hu
    unfold SendView
    exact hu
  have hsent := (sendStamped_onlySends set b a epoch _).alike (sendStamped_view set b a epoch hview)
  rw [hsent, putEntry_makeEntry]
  refine (offer_running (by exact hrun) _).trans ?_
  unfold State.learn
  rw [List.append_nil]

/-- R46, R76. The first copy of an unknown stream on a bay port. -/
theorem takeArrival_learnsBay {b : Fin 4} (hrun : s.partState = .running) (hport : a.port = .bay b)
    (hlook : s.lookup a.header.id = none) (hfree : s.freePosition = some p) (hu : SendView (s.claimLearned a) u) :
    takeArrival a s = s.learn (sendStamped s.settings.defaultForward b a s.bayEpoch u) p
      (s.learnedEntry a (.localBay b) none s.bayEpoch 1) a [] (s.bayEpoch + 1) := by
  have hmade : takeArrival a s = acceptBay p (s.madeEntry a (.localBay b) s.bayEpoch) a b
      { makeEntry p (s.madeEntry a (.localBay b) s.bayEpoch) s with bayEpoch := s.bayEpoch + 1 } := by
    unfold takeArrival takeBayCopy
    rw [hport]
    dsimp only
    rw [hlook, hfree]
    rfl
  rw [hmade]
  have hset : State.settings { makeEntry p (s.madeEntry a (.localBay b) s.bayEpoch) s with bayEpoch := s.bayEpoch + 1 }
      = s.settings := by simp
  have hentry := bay_learnedEntry (s := s) (a := a) b
  rw [← hset] at hentry
  exact (acceptBay_made (congrArg _ hset) rfl ⟨rfl, rfl⟩ rfl rfl rfl rfl hentry).trans (offer_sendStamped _ _ hrun hu)

/-! ## Acceptance, and the deadline that is already reached (R108) -/

/-- R42, R43. A stream learned: the record image of its position moves by one update. -/
theorem judgeArrival_learned {e : Entry} {watch : List TwinClaim} {n : Byte} (hlook : s.lookup a.header.id = none)
    (hfree : s.freePosition = some p) (ht : takeArrival a s = s.learn u p e a watch n) :
    ∃ counts, judgeArrival a s = expireFreshness a.header.id { s.learn u p e a watch n with imageCounts := counts }
      ∧ counts[p] = s.imageCounts[p] + 1 ∧ ∀ r : Fin 512, r ≠ p → counts[r] = s.imageCounts[r] := by
  obtain ⟨hp, -⟩ := (freePosition_iff s p).1 hfree
  obtain ⟨counts, hmade, hcounts⟩ := asEngineClaim_made (takeArrival a) s p e hp (by rw [ht]; rfl) (by rw [ht]; rfl)
  have haccepts : s.accepts a = true := by
    unfold State.accepts
    rw [hlook, hfree]
    rfl
  refine ⟨counts, ?_, hcounts⟩
  unfold judgeArrival
  rw [haccepts, hmade, ht]
  rfl

/-- R104, R108. The expiry asked for at once is that of a deadline the part clock has reached. -/
theorem expireFreshness_learned {t : State} {e : Entry} {hold margin : Word} {due : Clock} (hlook : t.lookup e.id = some (p, e))
    (hdeadline : e.deadline = if hold = 0 then .none else .at due hold margin) :
    (.next (expireFreshness e.id t) : Host.Outcome State Fault Refusal)
      = if hold ≠ 0 ∧ reached t.clock due = true then exec (.freshnessExpiry e.id) t else .next t := by
  split
  next => rfl
  next hnot =>
    refine congrArg Host.Outcome.next ?_
    unfold expireFreshness
    rw [hlook]
    dsimp only
    by_cases hhold : hold = 0
    · rw [hdeadline, if_pos hhold]
    · have hnever : ¬(reached t.clock due && t.ageingDue.isEmpty) = true := by
        rw [Bool.and_eq_true]
        exact fun h => hnot ⟨hhold, h.1⟩
      rw [hdeadline, if_neg hhold]
      exact if_neg hnever

end

/-! ## A copy unplaced (R47) -/

/-- Two states show an offer the same, the journal apart. -/
def PortView (s t : State) : Prop := SendView s { t with journal := s.journal }

theorem offerBays_portView (set : PortSet) (r : TxRecord) {s t : State} (h : PortView s t) :
    PortView (offerBays set r s) (offerBays set r t) := by
  obtain ⟨k, hk⟩ := offerBays_otherJournal set r t s.journal
  have hview := offerBays_view set r h
  rw [hk] at hview
  obtain ⟨hpart, hclock, hla, hlb, hbs, hgr, -⟩ := hview
  exact ⟨hpart, hclock, hla, hlb, hbs, hgr, rfl⟩

theorem offerLane_portView (l : Lane) (r : TxRecord) {s t : State} (h : PortView s t) :
    PortView (offerLane l r s) (offerLane l r t) := by
  obtain ⟨k, hk⟩ := offerLane_otherJournal l r t s.journal
  have hview := offerLane_view l r h
  rw [hk] at hview
  obtain ⟨hpart, hclock, hla, hlb, hbs, hgr, -⟩ := hview
  exact ⟨hpart, hclock, hla, hlb, hbs, hgr, rfl⟩

/-- R47. Where an UNPLACED copy goes. -/
def sendUnplaced (a : Arrival) (q : Port) (route : Lane) (set : PortSet) (s : State) : State :=
  match q with
  | .lane l => if l = route then offerBays set (relayRecord a) s else s
  | .bay _ => offerLane route { frame := a.frame, stream := false, trip := false, seq := none } s

theorem sendUnplaced_onlySends (a : Arrival) (q : Port) (route : Lane) (set : PortSet) (s : State) :
    OnlySends s (sendUnplaced a q route set s) := by
  unfold sendUnplaced
  split
  · split
    · exact offerBays_onlySends ..
    · exact .refl s
  · exact offerLane_onlySends ..

theorem sendUnplaced_portView (a : Arrival) (q : Port) (route : Lane) (set : PortSet) {s t : State} (h : PortView s t) :
    PortView (sendUnplaced a q route set s) (sendUnplaced a q route set t) := by
  unfold sendUnplaced
  split
  · split
    · exact offerBays_portView _ _ h
    · exact h
  · exact offerLane_portView _ _ h

/-- R36. The counters after an UNPLACED copy. -/
theorem unplaced_counters (c : Counters) : c.update (·.bump .unplaced) = { c with
    edition := (c.update (·.bump .unplaced)).edition
    unplaced := if c.unplaced = 0xFFFF then 0xFFFF else c.unplaced + 1 } := by
  rw [← satInc_stays]
  exact countersUpdate_eq _ c

section
variable {s : State} {a : Arrival}

theorem unplaced_eq (a : Arrival) (s : State) :
    unplaced a s = sendUnplaced a a.port s.bareRoute s.settings.defaultForward (countEngine .unplaced a.time s) := by
  have hroute : (countEngine .unplaced a.time s).bareRoute = s.bareRoute := by simp
  have hset : (countEngine .unplaced a.time s).settings = s.settings := by simp
  unfold unplaced sendUnplaced
  dsimp only
  cases a.port <;> simp only [hroute, hset]

/-- R47. In a full table the first copy of a stream is UNPLACED. -/
theorem judgeArrival_unplaced (hlook : s.lookup a.header.id = none) (hfree : s.freePosition = none) :
    judgeArrival a s = unplaced a s := by
  have hrefused : s.accepts a = false := by
    unfold State.accepts
    rw [hlook, hfree]
    rfl
  have htaken : takeArrival a s = unplaced a s := by
    unfold takeArrival takeLaneCopy takeBayCopy
    dsimp only
    rw [hlook, hfree]
    split <;> rfl
  have hkeeps : (unplaced a s).table = s.table ∧ (unplaced a s).imageCounts = s.imageCounts := by
    rw [unplaced_eq, countEngine_eq]
    obtain ⟨la, lb, bs, g, later, hsent, -⟩ := sendUnplaced_onlySends a a.port s.bareRoute s.settings.defaultForward _
    rw [hsent]
    exact ⟨rfl, rfl⟩
  rw [judgeArrival_unaccepted hrefused, asEngineClaim_same _ _ (htaken ▸ hkeeps.1) (htaken ▸ hkeeps.2), htaken]

end

/-! ## The obligation -/

section
variable {s u v : State} {a : Arrival} {q : Port} {more : List Arrival} {p : Fin 512}

/-- R35. The queue of port `q` with the arrivals `more`. -/
def State.keepArrivals (s : State) (q : Port) (more : List Arrival) : State :=
  match q with
  | .lane l => s.modifyLane l (fun x => { x with arrivals := more })
  | .bay b => s.modifyBay b (fun x => { x with arrivals := more })

theorem keepArrivals_claims {t : State} (h : OnlySends (s.keepArrivals q more) t) :
    ∃ later, t.journal.claims = s.journal.claims ++ later ∧ ∀ c ∈ later, c.kind = .counterFirst := by
  obtain ⟨_, _, _, _, later, rfl, hlater⟩ := h
  refine ⟨later, ?_, hlater⟩
  cases q with
  | lane l => cases l <;> rfl
  | bay b => rfl

theorem popArrival_eq (ha : s.arrivals q = a :: more) : popArrival q s = { s.keepArrivals q more with lastServed := q } := by
  cases q with
  | lane l =>
    have htail : (s.lane l).arrivals.tail = more := congrArg List.tail ha
    have hport : s.modifyLane l (fun x => { x with arrivals := x.arrivals.tail })
        = s.modifyLane l (fun x => { x with arrivals := more }) := modifyLane_eq_of (by rw [htail])
    exact (show popArrival (.lane l) s
      = { s.modifyLane l (fun x => { x with arrivals := x.arrivals.tail }) with lastServed := .lane l } by cases l <;> rfl).trans
      (by rw [hport]; rfl)
  | bay b =>
    have htail : s.bays[b].arrivals.tail = more := congrArg List.tail ha
    have hport : modifyAt s.bays b (fun x => { x with arrivals := x.arrivals.tail })
        = modifyAt s.bays b (fun x => { x with arrivals := more }) := modifyAt_eq_of (by rw [htail])
    exact congrArg (fun bays => { s with lastServed := Port.bay b, bays := bays }) hport

theorem popArrival_view (ha : s.arrivals q = a :: more) : SendView (popArrival q s) (s.keepArrivals q more) := by
  rw [popArrival_eq ha]
  exact ⟨rfl, rfl, rfl, rfl, rfl, rfl, rfl⟩

theorem engineReady_running (h : engineReady s = true) : s.partState = .running := by
  unfold engineReady at h
  simp only [Bool.and_eq_true, decide_eq_true_eq] at h
  obtain ⟨⟨⟨⟨⟨hrun, -⟩, -⟩, -⟩, -⟩, -⟩ := h
  exact hrun

/-- R40. An entry learned takes nothing from the ports but the lanes' cycles, which taking a record leaves. -/
theorem learnedEntry_popArrival (o : Origin) (w : Option Window) (epoch : Byte) (next : Word) :
    (popArrival q s).learnedEntry a o w epoch next = s.learnedEntry a o w epoch next := by
  cases q with
  | lane l => cases l <;> rfl
  | bay b => rfl

theorem claimLearned_popArrival (ha : s.arrivals q = a :: more) :
    SendView ((popArrival q s).claimLearned a) ((s.claimLearned a).keepArrivals q more) := by
  rw [popArrival_eq ha]
  cases q with
  | lane l => cases l <;> exact ⟨rfl, rfl, rfl, rfl, rfl, rfl, rfl⟩
  | bay b => exact ⟨rfl, rfl, rfl, rfl, rfl, rfl, rfl⟩

/-- R38, R45, R46. A step of the engine that learns a stream, as its fields. -/
theorem exec_learned {e : Entry} {watch : List TwinClaim} {n : Byte} (hready : engineReady s = true)
    (hchosen : chosenPort s = some q) (ha : s.arrivals q = a :: more) (hlook : s.lookup e.id = none)
    (hfree : s.freePosition = some p) (hid : e.id = a.header.id)
    (hdeadline : e.deadline = if a.header.hold = 0 then .none else
      .at (a.time + millis a.header.hold + millis s.settings.freshMargin) a.header.hold s.settings.freshMargin)
    (ht : takeArrival a (popArrival q s) = (popArrival q s).learn u p e a watch n) :
    ∃ t counts, exec .arrivalTaken s = (if a.header.hold ≠ 0
        ∧ reached s.clock (a.time + millis a.header.hold + millis s.settings.freshMargin) = true
        then exec (.freshnessExpiry e.id) t else .next t)
      ∧ counts[p] = s.imageCounts[p] + 1 ∧ (∀ r : Fin 512, r ≠ p → counts[r] = s.imageCounts[r])
      ∧ t = { s with
              lastServed := q, table := s.table.set p (some e), imageCounts := counts, serial := s.serial + 1
              bayEpoch := n, events := s.events ++ [.streamCopy a.header.id (contentOf a)]
              twinClaims := s.twinClaims ++ watch, laneA := u.laneA, laneB := u.laneB, bays := u.bays, bayGroup := u.bayGroup
              journal := { s.journal with claims := u.journal.claims } } := by
  have htable := popArrival_table q s
  have hlook' : (popArrival q s).lookup a.header.id = none := hid ▸ (lookup_of_table htable _).trans hlook
  obtain ⟨counts, hjudged, hcounts⟩ := judgeArrival_learned hlook' ((freePosition_of_table htable).trans hfree) ht
  obtain ⟨la, lb, bs, hpop⟩ := popArrival_shape q s
  obtain ⟨t, heq⟩ : ∃ t, t = { (popArrival q s).learn u p e a watch n with imageCounts := counts } := ⟨_, rfl⟩
  rw [← heq] at hjudged
  rw [hpop] at hcounts heq
  unfold State.learn at heq
  dsimp only at heq hcounts
  have hlearned : t.lookup e.id = some (p, e) := lookup_learned hlook (by rw [heq])
  have hexec : exec .arrivalTaken s = .next (expireFreshness e.id t) := by
    rw [exec_arrivalTaken hready hchosen ha, hjudged, hid]
  have hclock : t.clock = s.clock := by rw [heq]
  refine ⟨t, counts, ?_, hcounts.1, hcounts.2, heq⟩
  rw [hexec, expireFreshness_learned hlearned hdeadline, hclock]

/-- R37, R38, R47. A step of the engine that leaves a copy UNPLACED, as its fields. -/
theorem exec_unplaced (hready : engineReady s = true) (hchosen : chosenPort s = some q) (ha : s.arrivals q = a :: more)
    (hport : a.port = q) (hlook : s.lookup a.header.id = none) (hfree : s.freePosition = none) :
    ∃ t, exec .arrivalTaken s = .next t
      ∧ t.counters = { s.counters with
          edition := t.counters.edition
          unplaced := if s.counters.unplaced = 0xFFFF then 0xFFFF else s.counters.unplaced + 1 }
      ∧ (let u := sendUnplaced a q s.bareRoute s.settings.defaultForward (s.keepArrivals q more)
        t.laneA = u.laneA ∧ t.laneB = u.laneB ∧ t.bays = u.bays ∧ t.bayGroup = u.bayGroup)
      ∧ (s.counters.unplaced = 0 → ∃ claim ∈ t.journal.claims, claim.kind = .counterFirst ∧ claim.subject = .part
          ∧ claim.time = a.time ∧ claim.d1 = engineCounterCode .unplaced)
      ∧ t = { s with lastServed := q, laneA := t.laneA, laneB := t.laneB, bays := t.bays, bayGroup := t.bayGroup
                     counters := t.counters, journal := { s.journal with claims := t.journal.claims } } := by
  obtain ⟨la, lb, bs, hpop⟩ := popArrival_shape q s
  obtain ⟨c, hc⟩ : ∃ c, c = countEngine .unplaced a.time (popArrival q s) := ⟨_, rfl⟩
  obtain ⟨t, ht⟩ : ∃ t, t = sendUnplaced a q s.bareRoute s.settings.defaultForward c := ⟨_, rfl⟩
  have htable := popArrival_table q s
  have hjudged : judgeArrival a (popArrival q s) = t := by
    have hsettings : (popArrival q s).bareRoute = s.bareRoute ∧ (popArrival q s).settings = s.settings := by
      rw [hpop]
      exact ⟨rfl, rfl⟩
    rw [judgeArrival_unplaced ((lookup_of_table htable _).trans hlook) ((freePosition_of_table htable).trans hfree), unplaced_eq,
      hsettings.1, hsettings.2, hport, ← hc, ← ht]
  have hcounted : PortView c (s.keepArrivals q more) := by
    obtain ⟨hpart, hclock, hla, hlb, hbs, hgr, -⟩ := popArrival_view ha
    rw [hc, countEngine_eq]
    exact ⟨hpart, hclock, hla, hlb, hbs, hgr, rfl⟩
  obtain ⟨-, -, hla, hlb, hbs, hgr, -⟩ := sendUnplaced_portView a q s.bareRoute s.settings.defaultForward hcounted
  obtain ⟨la', lb', bs', g, later, hsent, -⟩ := sendUnplaced_onlySends a q s.bareRoute s.settings.defaultForward c
  rw [countEngine_eq, hpop] at hc
  rw [← ht] at hla hlb hbs hgr
  rw [← ht, hc] at hsent
  refine ⟨t, (exec_arrivalTaken hready hchosen ha).trans (congrArg _ hjudged), ?_, ⟨hla, hlb, hbs, hgr⟩, fun hzero => ?_, ?_⟩
  · rw [hsent]
    exact unplaced_counters s.counters
  · rw [hsent]
    refine ⟨{ kind := .counterFirst, subject := .part, time := a.time, d1 := engineCounterCode .unplaced, d2 := 0, d3 := 0 },
      List.mem_append_left _ (List.mem_append_right _ ?_), rfl, rfl, rfl, rfl⟩
    rw [if_pos (show s.counters.count .unplaced = 0 from hzero)]
    exact List.mem_singleton_self _
  · rw [hsent]

end

/-- Settles O38: on either kind of port the copy is learned as `State.learn` says, or goes where `sendUnplaced` says. -/
theorem unknownStreamsAreLearned : Obligations.UnknownStreamsAreLearned := by
  refine ⟨fun s id p => ⟨lookup_none_iff s id, fun e => lookup_some, freePosition_iff s p⟩, ?_⟩
  intro s a q more due hready hchosen ha hport hlook hdue
  subst hdue
  have hrun : (popArrival q s).partState = .running := by
    obtain ⟨-, hpart, -⟩ := popArrival_spine q s
    exact hpart.trans (engineReady_running hready)
  have hlook' : (popArrival q s).lookup a.header.id = none := (lookup_of_table (popArrival_table q s) _).trans hlook
  obtain ⟨la, lb, bs, hpop⟩ := popArrival_shape q s
  have hset : (popArrival q s).settings = s.settings := by rw [hpop]
  have hepoch : (popArrival q s).bayEpoch = s.bayEpoch := by rw [hpop]
  refine ⟨fun p v u relay stamped hfree hrelay hstamped hv hu => ?_, fun hfree => ?_⟩
  · have hfree' : (popArrival q s).freePosition = some p := (freePosition_of_table (popArrival_table q s)).trans hfree
    have hclaimed : v = s.claimLearned a := by
      subst hport
      exact hv
    subst hclaimed hrelay hstamped
    have hview := claimLearned_popArrival ha
    rcases hu with ⟨l, rfl, rfl⟩ | ⟨b, rfl, rfl⟩
    · have hwatch : learnedWatch (popArrival (.lane l) s) a l = learnedWatch s a l := by rw [hpop]; rfl
      have htaken := takeArrival_learnsLane hrun hport hlook' hfree' hview
      rw [learnedEntry_popArrival, hset, hepoch, hwatch] at htaken
      obtain ⟨t, counts, hexec, hp, hothers, ht⟩ := exec_learned hready hchosen ha hlook hfree rfl rfl htaken
      refine ⟨t, s.learnedEntry a .remote (some (Window.start (a.seq.getD 0) a.header.epoch l)) 0 0, hexec, rfl, ?_, nofun,
        by rw [ht]; exact hp, by rw [ht]; exact hothers,
        keepArrivals_claims (s := s.claimLearned a) (q := .lane l) (offerBays_onlySends ..), by rw [ht]; rfl⟩
      rintro _ ⟨⟩
      rw [ht]
      exact ⟨rfl, rfl, rfl, rfl, rfl, rfl⟩
    · have htaken := takeArrival_learnsBay hrun hport hlook' hfree' hview
      rw [learnedEntry_popArrival, hset, hepoch] at htaken
      obtain ⟨t, counts, hexec, hp, hothers, ht⟩ := exec_learned hready hchosen ha hlook hfree rfl rfl htaken
      refine ⟨t, s.learnedEntry a (.localBay b) none s.bayEpoch 1, hexec, rfl, nofun, ?_,
        by rw [ht]; exact hp, by rw [ht]; exact hothers,
        keepArrivals_claims (s := s.claimLearned a) (q := .bay b) (sendStamped_onlySends ..), by rw [ht]; rfl⟩
      rintro _ ⟨⟩
      rw [ht]
      exact ⟨rfl, rfl, rfl, rfl, rfl, List.append_nil _⟩
  · obtain ⟨t, hexec, hcounters, ⟨hla, hlb, hbs, hgr⟩, hclaim, ht⟩ := exec_unplaced hready hchosen ha hport hlook hfree
    refine ⟨t, _, hexec, hcounters, ?_, ?_, hla, hlb, hbs, hgr, hclaim, ht⟩
    · rintro l rfl
      rfl
    · rintro b rfl
      rfl

end Sys2Proof.Machine
end

section
/-! The completion of a take, with its send and the take after it (R134, R135, R139). -/

namespace Sys2Proof.Machine

section
variable {s t : State}

/-! ## A send, and the states that show it the same -/

/-- R139. The copies of a send offered to both lanes and a set of bay ports. -/
def sendCopies (set : PortSet) (n : Word) (copy : Option Word → TxRecord) (s : State) : State :=
  offerBays set (copy none) (offerLane .b (copy (some n)) (offerLane .a (copy (some n)) s))

theorem sendCopies_onlySends (set : PortSet) (n : Word) (copy : Option Word → TxRecord) (s : State) :
    OnlySends s (sendCopies set n copy s) :=
  (offerLane_onlySends .a _ s).trans ((offerLane_onlySends .b _ _).trans (offerBays_onlySends ..))

theorem sendCopies_view (set : PortSet) (n : Word) (copy : Option Word → TxRecord) (h : SendView s t) :
    SendView (sendCopies set n copy s) (sendCopies set n copy t) :=
  offerBays_view _ _ (offerLane_view .b _ (offerLane_view .a _ h))

/-- The post set replaced. -/
def State.withPosts (s : State) (trip other : List Post) : State := { s with postTrip := trip, postOther := other }

variable (trip other : List Post)

/-- Sending has no part in the post set. -/
theorem sendCopies_withPosts (set : PortSet) (n : Word) (copy : Option Word → TxRecord) (s : State) :
    sendCopies set n copy (s.withPosts trip other) = (sendCopies set n copy s).withPosts trip other := by
  have hview : SendView (s.withPosts trip other) s := ⟨rfl, rfl, rfl, rfl, rfl, rfl, rfl⟩
  have hself : SendView (sendCopies set n copy s) (sendCopies set n copy s) := ⟨rfl, rfl, rfl, rfl, rfl, rfl, rfl⟩
  have hs := (sendCopies_onlySends set n copy s).alike hself
  rw [(sendCopies_onlySends set n copy (s.withPosts trip other)).alike (sendCopies_view set n copy hview)]
  generalize sendCopies set n copy s = u at hs ⊢
  rw [hs]
  rfl

/-- R139. A copy of a send of a slot. -/
def PubSlot.copy (p : PubSlot) (c : PubConfig) (content : List Byte) (set : Settings) (seq : Option Word) : TxRecord :=
  { frame := p.message c content set, stream := true, trip := c.cls == .trip, seq := seq }

/-- R139. A send of a slot, once its copies are offered. -/
def sendDone (k : Fin 32) (epoch : Byte) (next : Word) (s : State) : State :=
  showSendState k epoch next { s with pubs := modifyAt s.pubs k PubSlot.sent }

theorem sendPub_armed {k : Fin 32} {c : PubConfig} {content : List Byte} (hc : s.pubs[k].config = some c)
    (hb : s.pubs[k].buffer = some content) : sendPub k s = sendDone k s.pubs[k].epoch (s.pubs[k].nextSeq + 1)
      (sendCopies c.forward s.pubs[k].nextSeq (s.pubs[k].copy c content s.settings) s) := by
  unfold sendPub
  simp only [hc, hb]
  rfl

theorem sendPub_idle {k : Fin 32} (h : s.pubs[k].config = none ∨ s.pubs[k].buffer = none) : sendPub k s = s := by
  unfold sendPub
  dsimp only
  split
  next hc hb => rcases h with h | h <;> simp_all
  next => rfl

theorem sendPub_withPosts (k : Fin 32) (s : State) : sendPub k (s.withPosts trip other) = (sendPub k s).withPosts trip other := by
  have idle (h : s.pubs[k].config = none ∨ s.pubs[k].buffer = none) :
      sendPub k (s.withPosts trip other) = (sendPub k s).withPosts trip other := by
    rw [sendPub_idle h, sendPub_idle (s := s.withPosts trip other) h]
  cases hc : s.pubs[k].config with
  | none => exact idle (.inl hc)
  | some c =>
    cases hb : s.pubs[k].buffer with
    | none => exact idle (.inr hb)
    | some content =>
      rw [sendPub_armed hc hb, sendPub_armed (s := s.withPosts trip other) hc hb, sendCopies_withPosts]
      rfl

/-- A send leaves every slot's configuration. -/
theorem sendPub_config (k j : Fin 32) (s : State) : (sendPub k s).pubs[j].config = s.pubs[j].config := by
  cases hc : s.pubs[k].config with
  | none => rw [sendPub_idle (.inl hc)]
  | some c =>
    cases hb : s.pubs[k].buffer with
    | none => rw [sendPub_idle (.inr hb)]
    | some content =>
      obtain ⟨tbl, counts, hsent, -⟩ := sendPub_spec k s c content hc hb _ (s.pubs[k].copy c content s.settings) (fun _ => rfl) rfl
      rw [hsent]
      refine (congrArg PubSlot.config (modifyAt_get s.pubs k j PubSlot.sent)).trans ?_
      split
      next h => rw [← h]; rfl
      next => rfl

/-! ## The completion of a take -/

/-- R135 steps 1 to 4. The state in which a take that completes sends. -/
def State.takenAt (s : State) (k : Fin 32) (w : Poster) (n : Word) (content : List Byte) (c : PubConfig) : State :=
  uncalendar k (updatePub k (PubSlot.taken content n w s.clock c) s)

variable {k : Fin 32} {w : Poster} {n : Word} {content : List Byte}

theorem completeTake_some {c : PubConfig} (hc : s.pubs[k].config = some c) : completeTake k w n content s =
    { sendPub k (s.takenAt k w n content c) with
      calendar := insertCalendar { slot := k, due := s.clock + millis c.first } (sendPub k (s.takenAt k w n content c)).calendar } := by
  unfold completeTake
  rw [hc]
  rfl

theorem completeTake_none (hc : s.pubs[k].config = none) : completeTake k w n content s = s := by
  unfold completeTake
  rw [hc]

theorem completeTake_withPosts :
    completeTake k w n content (s.withPosts trip other) = (completeTake k w n content s).withPosts trip other := by
  cases hc : s.pubs[k].config with
  | none => rw [completeTake_none hc, completeTake_none (s := s.withPosts trip other) hc]
  | some c =>
    have htaken : (s.withPosts trip other).takenAt k w n content c = (s.takenAt k w n content c).withPosts trip other := rfl
    rw [completeTake_some hc, completeTake_some (s := s.withPosts trip other) hc, htaken, sendPub_withPosts]
    rfl

theorem takenAt_pubs (c : PubConfig) (j : Fin 32) : (s.takenAt k w n content c).pubs[j] =
    if k = j then { s.pubs[k].taken content n w s.clock c with count := s.pubs[k].count + 1 } else s.pubs[j] :=
  modifyAt_get ..

/-- A take that completes leaves every slot's configuration. -/
theorem completeTake_config (j : Fin 32) : (completeTake k w n content s).pubs[j].config = s.pubs[j].config := by
  cases hc : s.pubs[k].config with
  | none => rw [completeTake_none hc]
  | some c =>
    rw [completeTake_some hc]
    refine (sendPub_config k j _).trans ?_
    rw [takenAt_pubs]
    split
    next h => rw [← h]; rfl
    next => rfl

/-- R135. The step that completes a take. -/
theorem exec_takeComplete {tk : Take} (h : s.take = some tk) : exec .takeComplete s
    = .next (runTakes (completeTake tk.slot tk.poster tk.edition tk.staged { s with take := none })) := by
  have htaken : execTakeComplete s = .next (takeCompletes tk s) := by
    unfold execTakeComplete
    rw [h]
  exact htaken

/-- R134, R135. The step that completes a take with nothing posted. -/
theorem exec_takeComplete_alone {tk : Take} (h : s.take = some tk) (ht : s.postTrip = []) (ho : s.postOther = []) :
    exec .takeComplete s = .next (completeTake tk.slot tk.poster tk.edition tk.staged { s with take := none }) := by
  rw [exec_takeComplete h, runTakes_none]
  · simpa using ht
  · simpa using ho

end

/-! ## The obligation, clause by clause -/

section
variable {s u : State} {tk : Take}

/-- R135, R139. A take that completes with nothing posted, and its send. -/
theorem takeComplete_sends {c : PubConfig} {copy : Option Word → TxRecord} (h : s.take = some tk)
    (hc : s.pubs[tk.slot].config = some c) (hnone : s.postTrip = []) (hnone' : s.postOther = [])
    (hcopy : ∀ seq, copy seq =
      { frame := buildMessage c.dest s.settings.station s.settings.messageType
          { id := c.id, cls := c.cls, test := c.test, epoch := s.pubs[tk.slot].epoch
            hold := BitVec.ofNat 16 (min 60000 (2 * c.first.toNat)), repeatNo := 0
            length := BitVec.ofNat 16 tk.staged.length } tk.staged
        stream := true, trip := c.cls == .trip, seq := seq })
    (hu : u = sendCopies c.forward s.pubs[tk.slot].nextSeq copy s) :
    ∃ t, exec .takeComplete s = .next t ∧ t.take = none
      ∧ t.pubs[tk.slot] =
          { s.pubs[tk.slot] with
            buffer := some tk.staged, takenEdition := tk.edition, takenBy := some tk.poster, lastTake := s.clock
            repeatNo := 1, interval := c.first, state := .burst
            refreshAt := if c.refresh = 0 then none else some (s.clock + secs c.refresh)
            nextSeq := s.pubs[tk.slot].nextSeq + 1, sends := s.pubs[tk.slot].sends + 1
            count := s.pubs[tk.slot].count + 1 }
      ∧ (∀ j : Fin 32, j ≠ tk.slot → t.pubs[j] = s.pubs[j])
      ∧ t.calendar = insertCalendar { slot := tk.slot, due := s.clock + millis c.first }
                       (s.calendar.filter (fun d => d.slot != tk.slot))
      ∧ t.laneA = u.laneA ∧ t.laneB = u.laneB ∧ t.bays = u.bays ∧ t.bayGroup = u.bayGroup ∧ t.journal = u.journal
      ∧ (∀ p : Fin 512, t.table[p] = s.table[p].map (fun (e : Entry) =>
          if e.origin = .localHost tk.slot then
            { e with sendEpoch := s.pubs[tk.slot].epoch, sendNext := s.pubs[tk.slot].nextSeq + 1 } else e))
      ∧ (∀ p : Fin 512, t.imageCounts[p] = s.imageCounts[p] + (if t.table[p] = s.table[p] then 0 else 1))
      ∧ t = { s with take := none, calendar := t.calendar, pubs := t.pubs, laneA := t.laneA, laneB := t.laneB, bays := t.bays
                     bayGroup := t.bayGroup, journal := t.journal, table := t.table, imageCounts := t.imageCounts } := by
  obtain ⟨b, hb⟩ : ∃ b, b = State.takenAt { s with take := none } tk.slot tk.poster tk.edition tk.staged c := ⟨_, rfl⟩
  have hslot : b.pubs[tk.slot] = { s.pubs[tk.slot].taken tk.staged tk.edition tk.poster s.clock c with
      count := s.pubs[tk.slot].count + 1 } := by
    rw [hb]
    exact (takenAt_pubs c tk.slot).trans (if_pos rfl)
  have hothers (j : Fin 32) (hj : j ≠ tk.slot) : b.pubs[j] = s.pubs[j] := by
    rw [hb]
    exact (takenAt_pubs c j).trans (if_neg hj.symm)
  have hview : SendView b s := by
    rw [hb]
    exact ⟨rfl, rfl, rfl, rfl, rfl, rfl, rfl⟩
  obtain ⟨-, -, hla, hlb, hbs, hgr, hj⟩ := sendCopies_view c.forward s.pubs[tk.slot].nextSeq copy hview
  obtain ⟨tbl, counts, hsent, htbl, hcounts⟩ := sendPub_spec tk.slot b c tk.staged (by rw [hslot]; exact hc) (by rw [hslot]; rfl)
    (sendCopies c.forward s.pubs[tk.slot].nextSeq copy b) copy
    (fun seq => (hcopy seq).trans (by rw [hslot, hb]; rfl)) (by rw [hslot]; rfl)
  rw [hla, hlb, hbs, hgr, hj, ← hu] at hsent
  obtain ⟨t, ht⟩ : ∃ t, t = completeTake tk.slot tk.poster tk.edition tk.staged { s with take := none } := ⟨_, rfl⟩
  have hexec : exec .takeComplete s = .next t := by rw [exec_takeComplete_alone h hnone hnone', ht]
  rw [completeTake_some (s := { s with take := none }) hc, ← hb, hsent] at ht
  have hnext : b.pubs[tk.slot].epoch = s.pubs[tk.slot].epoch ∧ b.pubs[tk.slot].nextSeq = s.pubs[tk.slot].nextSeq := by
    rw [hslot]
    exact ⟨rfl, rfl⟩
  have hkept : b.table = s.table ∧ b.imageCounts = s.imageCounts := by
    rw [hb]
    exact ⟨rfl, rfl⟩
  rw [hnext.1, hnext.2, hkept.1] at htbl
  rw [hkept.1, hkept.2] at hcounts
  refine ⟨t, hexec, ?_, ?_, fun j hj => ?_, ?_, ?_, ?_, ?_, ?_, ?_, ?_, ?_, ?_⟩
  · rw [ht, hb]
    rfl
  · rw [ht]
    exact (modifyAt_get_self _ _ _).trans (congrArg PubSlot.sent hslot)
  · rw [ht]
    exact (modifyAt_get_ne _ _ _ _ hj.symm).trans (hothers j hj)
  · rw [ht, hb]
    rfl
  all_goals rw [ht]
  · exact htbl
  · exact hcounts
  · rw [hb]
    rfl

/-- R134. A take that completes with a slot posted begins the next take. -/
theorem takeComplete_next {r x : State} {p : Post} {trip other : List Post} {c : PubConfig} (h : s.take.isSome = true)
    (hp : (s.postTrip = p :: trip ∧ other = s.postOther) ∨ (s.postTrip = [] ∧ trip = [] ∧ s.postOther = p :: other))
    (hc : s.pubs[p.slot].config = some c) (hr : exec .takeComplete { s with postTrip := [], postOther := [] } = .next r)
    (hx : x = { r with
      postTrip := trip, postOther := other
      take := some { slot := p.slot, poster := p.poster, edition := readWord s.mem (pubBase p.slot + 11)
                     staged := if c.snapshot then contactSnapshot s.inputs else readStaged s.mem p.slot } }) :
    exec .takeComplete s = if c.snapshot then exec .takeComplete x else .next x := by
  obtain ⟨tk, htk⟩ := Option.isSome_iff_exists.1 h
  obtain ⟨d, hd⟩ : ∃ d, d = completeTake tk.slot tk.poster tk.edition tk.staged { s with take := none } := ⟨_, rfl⟩
  have hr' : r = d.withPosts [] [] := by
    rw [exec_takeComplete_alone (s := { s with postTrip := [], postOther := [] }) htk rfl rfl] at hr
    rw [hd, ← completeTake_withPosts]
    exact (Host.Outcome.next.inj hr).symm
  have hidle : d.take = none := by simp [hd]
  have hkept : d.mem = s.mem ∧ d.inputs = s.inputs ∧ d.postTrip = s.postTrip ∧ d.postOther = s.postOther := by simp [hd]
  obtain ⟨hmem, hinputs, htrip, hother⟩ := hkept
  have hconfig : d.pubs[p.slot].config = some c := by
    rw [hd]
    exact (completeTake_config p.slot).trans hc
  have hnext := runTakes_next hidle (by rwa [htrip, hother]) hconfig
  have hdone : { x with take := none } = { d with postTrip := trip, postOther := other } := by
    rw [hx, hr', ← hidle]
    rfl
  rw [← hmem, ← hinputs] at hx
  rw [exec_takeComplete htk, ← hd, hnext]
  cases hs : c.snapshot with
  | true =>
    have htake : x.take = some { slot := p.slot, poster := p.poster, edition := readWord d.mem (pubBase p.slot + 11)
                                 staged := contactSnapshot d.inputs } := by
      rw [hx, hs]
      rfl
    rw [if_pos rfl, if_pos rfl, exec_takeComplete htake, hdone]
  | false =>
    rw [hx, hs, hr']
    rfl

end

/-- Settles O23: what a message holds is `buildMessage_header`; the send is that of `sendPub_spec`, and the next take that of
`runTakes_next`, which the post set does not disturb. -/
theorem takeCompletes_settled : Obligations.TakeCompletes := by
  refine ⟨fun dest station type h content msg n hid hid' hhold hlength hroom hmsg => ?_,
    fun s u tk c copy htake hc ht ho hcopy hu => takeComplete_sends htake hc ht ho hcopy hu,
    fun s r x p trip other c htake hp hc hr hx => takeComplete_next htake hp hc hr hx⟩
  exact buildMessage_header dest station type h content n hid hid' hhold hlength hroom msg hmsg

end Sys2Proof.Machine
end

section
/-! A step that brings a lane's cycle round, and so leaves its lone count wrong (R85, R86, R89). -/

namespace Sys2Proof.Machine

/-! ## Step 3 of START, many times over -/

/-- The state goes on as `t` did from `s` by `n` enterings of DOWN by Lane A: its cycle moved by `n`, and what its lone count is
compared with as it was. -/
structure WentDown (n : Nat) (s t : State) : Prop where
  cycle : t.laneA.cycle = s.laneA.cycle + BitVec.ofNat 16 n
  lone : n ≠ 0 → t.laneA.group.lone = 0
  link : t.laneA.group.link = s.laneA.group.link
  table : t.table = s.table
  changes : t.loneChanges = s.loneChanges
  held : t.heldArms = s.heldArms

theorem WentDown.trans {m n : Nat} {s t u : State} (h : WentDown m s t) (g : WentDown n t u) (hn : n ≠ 0) :
    WentDown (m + n) s u where
  cycle := by rw [g.cycle, h.cycle, BitVec.ofNat_add, BitVec.add_assoc]
  lone := fun _ => g.lone hn
  link := g.link.trans h.link
  table := g.table.trans h.table
  changes := g.changes.trans h.changes
  held := g.held.trans h.held

theorem enterAtStart_changes (l : Lane) (s : State) : (enterAtStart l s).loneChanges = s.loneChanges := by
  unfold enterAtStart
  simp

/-- R15 step 3, R96. With its link DOWN, Lane A enters DOWN, whatever state it was in. -/
theorem lanesPiece_wentDown {s : State} (hlink : s.laneA.group.link = false) :
    WentDown 1 s (beginFiltering (releaseAtStart s)) := by
  have lane : (beginFiltering (releaseAtStart s)).laneA
      = s.laneA.entered .down id s.clock s.settings.provingPeriod := by
    have h := (beginFiltering_lane _ .a).trans ((releaseAtStart_lane s .a).trans (enterBoth_lane s .a))
    rwa [show (s.lane .a).group.link = false from hlink] at h
  obtain ⟨-, -, -, -, -, -, -, -, -, -, -, held, -⟩ := lanesPiece_spine s
  obtain ⟨e, filtering⟩ := beginFiltering_eq (releaseAtStart s)
  obtain ⟨-, -, table, -⟩ := enterBoth_frame s
  have changes := (enterAtStart_changes .b (enterAtStart .a s)).trans (enterAtStart_changes .a s)
  refine ⟨by rw [lane]; rfl, fun _ => by rw [lane]; simp [LanePort.entered, LaneState.carries],
    by rw [lane]; simp [LanePort.entered, LaneState.carries], ?_, ?_, held⟩
  · rw [filtering, releaseAtStart_eq]
    exact table
  · rw [filtering, releaseAtStart_eq]
    exact changes

theorem work_wentDown (n : Nat) {s : State} {w : Working} {read : List Host.Cell} (hw : s.working = some w)
    (hf : w.finish = .starting (List.replicate n .lanes) read) (hlink : s.laneA.group.link = false) :
    WentDown n s (work n s) ∧ (work n s).working = some { w with finish := .starting [] read } := by
  induction n generalizing s w with
  | zero =>
    refine ⟨⟨(BitVec.add_zero _).symm, fun h => absurd rfl h, rfl, rfl, rfl, rfl⟩, ?_⟩
    rw [show work 0 s = s from rfl, hw, show Finish.starting [] read = w.finish from hf.symm]
  | succ n ih =>
    have once : workOnce s = beginFiltering (releaseAtStart (s.goesOn w (List.replicate n .lanes) read)) :=
      workOnce_lanes hw (hf.trans (by rw [List.replicate_succ]))
    have first : WentDown 1 s (workOnce s) := by
      obtain ⟨cycle, lone, link, table, changes, held⟩ :=
        lanesPiece_wentDown (s := s.goesOn w (List.replicate n .lanes) read) hlink
      rw [once]
      exact ⟨cycle, lone, link, table, changes, held⟩
    have working : (workOnce s).working = some { w with finish := .starting (List.replicate n .lanes) read } := by
      rw [once]
      exact (lanesPiece_spine _).keeps_working
    obtain ⟨rest, done⟩ := ih working rfl (first.link.trans hlink)
    refine ⟨?_, done⟩
    rcases Nat.eq_zero_or_pos n with rfl | hn
    · exact first
    · have all := first.trans rest (Nat.pos_iff_ne_zero.1 hn)
      rwa [Nat.add_comm] at all

/-! ## A lane cycle that comes round -/

/-- An entry whose record for Lane A is LONE in lane cycle 0. -/
def loneEntry : Entry :=
  { State.reset.blankEntry 1 .remote with recordA := { lone := true, run := 15, cycle := 0 } }

/-- A START in progress that has step 3 to do `n` times, with one LONE record counted. -/
def comingRound (n : Nat) : State :=
  { State.reset with
    pending := [.commandCompletion]
    partState := .config
    working := some { echo := 1, code := .done, detail := 0, finish := .starting (List.replicate n .lanes) [] }
    laneA := { lanePortAtReset with group := { laneGroupAtReset with lone := 1 } }
    table := State.reset.table.set 0 (some loneEntry) }

/-- The table of `comingRound`, entry by entry. -/
theorem comingRound_table (n : Nat) : (comingRound n).table.toList = some loneEntry :: List.replicate 511 none := by
  have set : (comingRound n).table.toList = (State.reset.table.toList).set 0 (some loneEntry) := Vector.toList_set (by decide)
  rw [set, show State.reset.table = Vector.replicate 512 none from rfl, Vector.toList_replicate, List.replicate_succ,
    List.set_cons_zero]

theorem comingRound_loneRecords (n : Nat) (f : Entry → Entry) (hf : (f loneEntry).recordA = loneEntry.recordA) :
    ((comingRound n).table.toList.map (Option.map f)).countP (fun e => match e with
      | some e => ((e.record .a).reads 0).1
      | none => false) = 1 := by
  rw [comingRound_table, List.map_cons, List.map_replicate]
  have reads : (((f loneEntry).record .a).reads 0).1 = true := congrArg (fun r => (LaneRecord.reads 0 r).1) hf
  rw [List.countP_cons, List.countP_replicate]
  exact congrArg (0 + if · then 1 else 0) reads

theorem comingRound_sound (n : Nat) : LoneCountSound .a (comingRound n) := by
  have records := comingRound_loneRecords n id rfl
  rw [Option.map_id, List.map_id] at records
  exact congrArg (BitVec.ofNat 16) records.symm

/-- The step from `comingRound`: the lane's cycle has moved by `n`, the record is as it was, and the lone count is 0. -/
theorem comingRound_step {n : Nat} (hn : n ≠ 0) : ∃ t, step (comingRound n) = .next t ∧ t.laneA.cycle = BitVec.ofNat 16 n
    ∧ t.laneA.group.lone = 0 ∧ t.loneChanges = []
    ∧ t.table = mapAll (Option.map (Entry.startDeadline (comingRound n).clock)) (comingRound n).table := by
  obtain ⟨down, done⟩ := work_wentDown n (s := { comingRound n with pending := [] }) rfl rfl rfl
  obtain ⟨-, -, clock, -⟩ := work_kept n { comingRound n with pending := [] }
  have out : State.workedOut { comingRound n with pending := [] } = work n { comingRound n with pending := [] } :=
    congrArg (work · { comingRound n with pending := [] }) (List.length_replicate (n := n) (a := StartPiece.lanes))
  have completed := (completeCommand_working (out ▸ done)).trans (complete_start rfl (by rw [out]; exact down.held))
  rw [out] at completed
  obtain ⟨cycle, lone, -, table, changes, -⟩ := down
  refine ⟨_, congrArg Host.Outcome.next completed, ?_⟩
  generalize work n { comingRound n with pending := [] } = u at *
  refine ⟨cycle.trans (BitVec.zero_add _), lone hn, changes, ?_⟩
  dsimp only
  rw [table, clock]

/-- Refutes O58 in its last clause, R89 over a step that stays in the lane's cycle: the lane cycle has 16 bits and nothing bounds the
work that a START in progress has left, so that one COMMAND_COMPLETION can do step 3 of START 65,536 times. Each time a lane whose link
is DOWN enters DOWN, which takes its lone count to 0 and begins a new cycle; the last brings the cycle round to its first value, in which
the LONE record of an entry reads as LONE again. -/
theorem not_stepsKeepEntriesUnique : ¬ Obligations.StepsKeepEntriesUnique := by
  rintro ⟨-, -, keeps⟩
  obtain ⟨t, stepped, cycle, zero, changes, table⟩ := comingRound_step (n := 65536) (by decide)
  have round : t.laneA.cycle = 0 := cycle.trans (by decide)
  have after := (keeps (comingRound 65536) t .a stepped).1 round (comingRound_sound 65536)
  have count : t.laneA.group.lone = BitVec.ofNat 16 1 := by
    unfold LoneCountSound at after
    rw [changes, show t.lane .a = t.laneA from rfl, round, table] at after
    exact after.trans (congrArg (BitVec.ofNat 16) (comingRound_loneRecords 65536 _ rfl))
  rw [zero] at count
  exact absurd count (by decide)

end Sys2Proof.Machine
end

section
/-! Calendar sends and the refresh limit (R139 to R142). -/

namespace Sys2Proof.Machine

section
variable {s : State} {e : CalendarEntry} {rest : List CalendarEntry} {c : PubConfig}

/-- R140. The interval and the state that a calendar send gives its slot, and that it gives it nothing else. -/
theorem advanced_spec (p : PubSlot) :
    (p.state = .burst → 2 * p.interval.toNat < c.heartbeat.toNat →
      (p.advanced c).interval.toNat = 2 * p.interval.toNat ∧ (p.advanced c).state = .burst)
    ∧ (p.state = .burst → c.heartbeat.toNat ≤ 2 * p.interval.toNat →
      (p.advanced c).interval = c.heartbeat ∧ (p.advanced c).state = .steady)
    ∧ (p.state = .steady → (p.advanced c).interval = c.heartbeat ∧ (p.advanced c).state = .steady)
    ∧ p.advanced c = { p with interval := (p.advanced c).interval, state := (p.advanced c).state } := by
  unfold PubSlot.advanced
  refine ⟨fun hburst hlt => ?_, fun hburst hle => ?_, fun hsteady => ?_, ?_⟩
  · have hword := c.heartbeat.isLt
    rw [if_pos hburst, if_pos hlt]
    exact ⟨by rw [BitVec.toNat_ofNat, Nat.mod_eq_of_lt (by omega)], hburst⟩
  · rw [if_pos hburst, if_neg (Nat.not_lt.2 hle)]
    exact ⟨rfl, rfl⟩
  · rw [if_neg (by rw [hsteady]; exact PubState.noConfusion)]
    exact ⟨rfl, hsteady⟩
  · repeat' split
    all_goals rfl

/-- R140. The state in which a calendar send sends. -/
def State.sendingDue (s : State) (e : CalendarEntry) (rest : List CalendarEntry) (c : PubConfig) : State :=
  updatePub e.slot (PubSlot.advanced c) { s with calendar := rest }

theorem exec_calendarSend (hcal : s.calendar = e :: rest) (hdue : reached s.clock e.due = true)
    (hc : s.pubs[e.slot].config = some c) : exec .calendarSend s = .next
      { sendPub e.slot (s.sendingDue e rest c) with
        calendar := insertCalendar
          { slot := e.slot, due := e.due + millis (sendPub e.slot (s.sendingDue e rest c)).pubs[e.slot].interval }
          (sendPub e.slot (s.sendingDue e rest c)).calendar } := by
  have sent : execCalendarSend s = .next (sendDue e rest s) := by
    unfold execCalendarSend
    rw [hcal]
    exact if_pos hdue
  refine sent.trans (congrArg Host.Outcome.next ?_)
  unfold sendDue
  rw [hc]
  rfl

end

/-- R142. The step that ends a publication at its refresh deadline. -/
theorem exec_refreshExpiry {s : State} {k : Fin 32} {due : Clock} (h : s.pubs[k].refreshAt = some due)
    (hdue : reached s.clock due = true) : exec (.refreshExpiry k) s = .next
      { s with
        calendar := s.calendar.filter (fun d => d.slot != k)
        pubs := modifyAt s.pubs k (fun p =>
          { p with state := .expired, refreshAt := none, interval := 0, count := p.count + 1 })
        journal := { s.journal with claims := s.journal.claims ++
          [{ kind := .publicationExpired, subject := .publication k, time := due
             d1 := (s.pubs[k].config.map (·.id)).getD 0, d2 := s.pubs[k].takenEdition, d3 := s.pubs[k].nextSeq }] } } := by
  have expired : execRefreshExpiry k s = .next (expirePub k due s) := by
    unfold execRefreshExpiry
    rw [h]
    exact if_pos hdue
  exact expired

/-- Settles O24: the place in the calendar is `insertCalendar_parts`; the send is that of `sendPub_spec`, made with the interval of
`advanced_spec`. -/
theorem calendarSendKeepsTheRhythm : Obligations.CalendarSendKeepsTheRhythm := by
  refine ⟨insertCalendar_parts, fun s e rest c content hcal hdue hc hb _ => ?_, fun s k due h hdue => exec_refreshExpiry h hdue⟩
  obtain ⟨hdouble, hsteady, hstays, hshape⟩ := advanced_spec (c := c) s.pubs[e.slot]
  obtain ⟨b, hbase⟩ : ∃ b, b = s.sendingDue e rest c := ⟨_, rfl⟩
  have hslot : b.pubs[e.slot] = { s.pubs[e.slot].advanced c with count := s.pubs[e.slot].count + 1 } := by
    rw [hbase]
    exact modifyAt_get_self ..
  have hothers (j : Fin 32) (hj : j ≠ e.slot) : b.pubs[j] = s.pubs[j] := by
    rw [hbase]
    exact modifyAt_get_ne _ _ _ _ hj.symm
  have hview : SendView b s := by
    rw [hbase]
    exact ⟨rfl, rfl, rfl, rfl, rfl, rfl, rfl⟩
  have hkept : b.pubs[e.slot].config = some c ∧ b.pubs[e.slot].buffer = some content
      ∧ b.pubs[e.slot].epoch = s.pubs[e.slot].epoch ∧ b.pubs[e.slot].nextSeq = s.pubs[e.slot].nextSeq
      ∧ b.table = s.table ∧ b.imageCounts = s.imageCounts := by
    rw [hslot, hshape, hbase]
    exact ⟨hc, hb, rfl, rfl, rfl, rfl⟩
  obtain ⟨hcfg, hbuf, hepoch, hnext, htab, himg⟩ := hkept
  obtain ⟨tbl, counts, hsent, htbl, hcounts⟩ := sendPub_spec e.slot b c content hcfg hbuf _
    (b.pubs[e.slot].copy c content b.settings) (fun _ => rfl) rfl
  rw [hepoch, hnext, htab] at htbl
  rw [htab, himg] at hcounts
  obtain ⟨t, ht⟩ : ∃ t, t = { sendPub e.slot b with
      calendar := insertCalendar { slot := e.slot, due := e.due + millis (sendPub e.slot b).pubs[e.slot].interval }
        (sendPub e.slot b).calendar } := ⟨_, rfl⟩
  have hexec : exec .calendarSend s = .next t := by rw [ht, hbase, exec_calendarSend hcal hdue hc]
  rw [hsent] at ht
  have hsame : t.pubs[e.slot] = { s.pubs[e.slot].advanced c with count := s.pubs[e.slot].count + 1 }.sent := by
    rw [ht]
    exact (modifyAt_get_self _ _ _).trans (congrArg PubSlot.sent hslot)
  have hstate : t.pubs[e.slot].state = (s.pubs[e.slot].advanced c).state := by rw [hsame]; rfl
  refine ⟨t, (s.pubs[e.slot].advanced c).interval, hexec, ?_, ?_, ?_, ?_, fun j hj => ?_, ?_, fun u copy hcopy hu => ?_, ?_, ?_, ?_⟩
  · rw [hstate]; exact hdouble
  · rw [hstate]; exact hsteady
  · rw [hstate]; exact hstays
  · rw [hstate]
    refine hsame.trans ?_
    rw [hshape]
    rfl
  · rw [ht]
    exact (modifyAt_get_ne _ _ _ _ hj.symm).trans (hothers j hj)
  · have hinterval : t.pubs[e.slot].interval = (s.pubs[e.slot].advanced c).interval := by rw [hsame]; rfl
    rw [← hinterval, ht, hbase]
    rfl
  · have hcopies : b.pubs[e.slot].copy c content b.settings = copy := by
      funext seq
      rw [hcopy, hslot, hshape, hbase]
      rfl
    have hsends := sendCopies_view c.forward s.pubs[e.slot].nextSeq copy hview
    obtain ⟨-, -, hla, hlb, hbs, hgr, hj⟩ := hsends
    rw [hu, ht, hcopies, hnext]
    exact ⟨hla, hlb, hbs, hgr, hj⟩
  all_goals rw [ht]
  · exact htbl
  · exact hcounts
  · rw [hbase]
    rfl

end Sys2Proof.Machine
end

section
/-! The reports of Twin Watch and the lane notices write the lane records, and the slots show them (O44). -/

namespace Sys2Proof.Machine

/-! ## Searches -/

theorem lookupNamed_none_iff (s : State) (id serial : Word) : s.lookupNamed id serial = none
    ↔ ∀ (q : Fin 512) (f : Entry), s.table[q] = some f → ¬(f.id = id ∧ f.serial = serial) := by
  refine ⟨lookupNamed_none, fun h => ?_⟩
  cases hl : s.lookupNamed id serial with
  | none => rfl
  | some found =>
    obtain ⟨hp, hnamed⟩ := lookupNamed_some (p := found.1) (e := found.2) hl
    exact absurd hnamed (h _ _ hp)

theorem slotEntry_of_alone {s : State} {k : Fin 64} {p : Fin 512} {e : Entry} (he : s.table[p] = some e) (hk : e.slot = some k)
    (alone : ∀ (q : Fin 512) (f : Entry), s.table[q] = some f → f.slot = some k → q = p) : s.slotEntry k = some p := by
  refine (slotEntry_iff s k p).2 ⟨⟨e, he, hk⟩, fun q f hlt hf hs => ?_⟩
  exact absurd (congrArg Fin.val (alone q f hf hs)) (Nat.ne_of_lt hlt)

theorem slotEntry_none_iff (s : State) (k : Fin 64) : s.slotEntry k = none
    ↔ ∀ (q : Fin 512) (f : Entry), s.table[q] = some f → f.slot ≠ some k := by
  refine ⟨slotEntry_none, fun h => ?_⟩
  cases hp : s.slotEntry k with
  | none => rfl
  | some p =>
    obtain ⟨e, he, hk⟩ := slotEntry_some hp
    exact absurd hk (h p e he)

/-- R112. What the statement calls shown. -/
theorem shown_eq {shown : SubSlot → EntryView → SubSlot}
    (h : ∀ x view, shown x view =
      if view = x.told then x
      else match x.inProgress with
        | none => { x with told := view, status := { x.status with edition := x.status.edition + 2, view := view } }
        | some _ => { x with told := view, viewsDue := x.viewsDue ++ [{ view := view, stale := false }] })
    (x : SubSlot) (view : EntryView) : shown x view = x.shown view := by
  rw [h, SubSlot.shown]
  cases x.inProgress <;> rfl

/-- What a slot shows of an entry depends on the state by the lanes' cycles alone. -/
theorem viewOf_of_lanes {s t : State} (ha : t.laneA = s.laneA) (hb : t.laneB = s.laneB) (e : Entry) : t.viewOf e = s.viewOf e := by
  unfold State.viewOf
  rw [ha, hb]

/-! ## The reports of Twin Watch -/

section
variable {s : State} {id serial : Word} {rest : List TwinReport}

/-- R58, R87, R88. What a claim of Twin Watch's report of lane `l` makes of the entry that it names, whose record is then `r`, and of its
slot: `t` is `s` with the report taken, the entry written and shown, and `changes` handed on. -/
structure RecordMoved (s t : State) (rest : List TwinReport) (p : Fin 512) (e : Entry) (changes : List LoneChange) : Prop where
  reports : t.reports = rest
  table : t.table = s.table.set p (some e)
  changes : t.loneChanges = s.loneChanges ++ changes
  slotless : e.slot = none → t.subs = s.subs
  others : ∀ k, e.slot = some k → ∀ m : Fin 64, m ≠ k → t.subs[m] = s.subs[m]
  shown : ∀ k, e.slot = some k → (∀ (q : Fin 512) (f : Entry), s.table[q] = some f → f.slot = some k → q = p) →
    t.subs[k] = s.subs[k].shown (t.viewOf e)
  frame : t = { s with reports := t.reports, table := t.table, subs := t.subs, loneChanges := t.loneChanges
                       imageCounts := t.imageCounts }

theorem recordMoved_of_written {f : State → State} {p : Fin 512} {e : Entry} {changes : List LoneChange}
    (hf : f { s with reports := rest } =
      { writeEntry p e { s with reports := rest } with loneChanges := s.loneChanges ++ changes }) :
    RecordMoved s (asEngineClaim f { s with reports := rest }) rest p e changes := by
  obtain ⟨hshape, hnone, hsome⟩ := writeEntry_shows { s with reports := rest } p e
  obtain ⟨subs, hsubs⟩ : ∃ subs, subs = (writeEntry p e { s with reports := rest }).subs := ⟨_, rfl⟩
  obtain ⟨counts, ht⟩ : ∃ counts, asEngineClaim f { s with reports := rest } =
      { f { s with reports := rest } with imageCounts := counts } := ⟨_, rfl⟩
  rw [← hsubs] at hshape hnone hsome
  rw [ht, hf, hshape]
  exact ⟨rfl, rfl, rfl, hnone, fun k hk => (hsome k hk).1, fun k hk => (hsome k hk).2, rfl⟩

/-- R87. A miss report of the lane's present cycle. -/
theorem exec_missReport {l : Lane} {p : Fin 512} {e : Entry} (hage : s.ageingDue = [])
    (hrep : s.reports = .miss id serial l (s.lane l).cycle :: rest) (hp : s.lookupNamed id serial = some (p, e)) :
    ∃ t, exec .missReport s = .next t
      ∧ RecordMoved s t rest p (e.setRecord l ((e.record l).missed (s.lane l).cycle s.settings.loneThreshold).1)
        (if ((e.record l).missed (s.lane l).cycle s.settings.loneThreshold).2 then
          [{ rise := true, lane := l, cycle := (s.lane l).cycle }] else []) := by
  have hexec : execMissReport s = .next (asEngineClaim (applyMiss id serial l (s.lane l).cycle) { s with reports := rest }) := by
    rw [execMissReport, hrep, hage]
    rfl
  exact ⟨_, hexec, recordMoved_of_written (applyMiss_eq (s := { s with reports := rest }) l hp)⟩

/-- R87. A miss report of an earlier cycle, or of an entry that is gone. -/
theorem exec_missReport_idle {l : Lane} {cycle : Word} (hage : s.ageingDue = []) (hrep : s.reports = .miss id serial l cycle :: rest)
    (hidle : s.lookupNamed id serial = none ∨ cycle ≠ (s.lane l).cycle) :
    exec .missReport s = .next { s with reports := rest } := by
  have hsame : applyMiss id serial l cycle { s with reports := rest } = { s with reports := rest } := by
    unfold applyMiss
    split
    · rename_i p e hp
      exact if_pos (hidle.resolve_left (fun hnone => by cases hnone.symm.trans hp))
    · rfl
  have hexec : execMissReport s = .next (asEngineClaim (applyMiss id serial l cycle) { s with reports := rest }) := by
    rw [execMissReport, hrep, hage]
    rfl
  exact hexec.trans (congrArg Host.Outcome.next
    ((asEngineClaim_same _ _ (by rw [hsame]) (by rw [hsame])).trans hsame))

/-- R88. A credit report. -/
theorem exec_creditReport {l : Lane} {p : Fin 512} {e : Entry} (hage : s.ageingDue = [])
    (hrep : s.reports = .credit id serial l :: rest) (hp : s.lookupNamed id serial = some (p, e)) :
    ∃ t, exec .creditReport s = .next t
      ∧ RecordMoved s t rest p (e.setRecord l { lone := false, run := 0, cycle := (s.lane l).cycle })
        (if ((e.record l).reads (s.lane l).cycle).1 then [{ rise := false, lane := l, cycle := (s.lane l).cycle }] else []) := by
  have hexec : execCreditReport s = .next (asEngineClaim (applyCredit id serial l) { s with reports := rest }) := by
    rw [execCreditReport, hrep, hage]
    rfl
  exact ⟨_, hexec, recordMoved_of_written (applyCredit_eq (s := { s with reports := rest }) l hp)⟩

/-- R88. A credit report of an entry that is gone. -/
theorem exec_creditReport_idle {l : Lane} (hage : s.ageingDue = []) (hrep : s.reports = .credit id serial l :: rest)
    (hgone : s.lookupNamed id serial = none) : exec .creditReport s = .next { s with reports := rest } := by
  have hsame : applyCredit id serial l { s with reports := rest } = { s with reports := rest } := by
    have hnone : { s with reports := rest }.lookupNamed id serial = none := hgone
    rw [applyCredit, hnone]
  have hexec : execCreditReport s = .next (asEngineClaim (applyCredit id serial l) { s with reports := rest }) := by
    rw [execCreditReport, hrep, hage]
    rfl
  exact hexec.trans (congrArg Host.Outcome.next
    ((asEngineClaim_same _ _ (by rw [hsame]) (by rw [hsame])).trans hsame))

end

/-- R87. What a miss makes of a record: it names the cycle, its run rises by 1, held at 15, and it is LONE once its run has reached the
threshold. -/
theorem missed_spec (r : LaneRecord) (now threshold : Word) :
    (r.missed now threshold).1.cycle = now ∧ (r.missed now threshold).1.run = min 15 ((r.reads now).2 + 1)
      ∧ (r.missed now threshold).1.lone = ((r.reads now).1 || decide (threshold.toNat ≤ (r.missed now threshold).1.run))
      ∧ (r.missed now threshold).2 = ((r.missed now threshold).1.lone && !(r.reads now).1) := by
  exact ⟨rfl, rfl, rfl, rfl⟩

/-- R86. What a lane notice makes of a record. -/
theorem noticed_spec (r : LaneRecord) (now : Word) :
    (r.noticed now).reads now = r.reads now
      ∧ ((r.noticed now).cycle = now ∨ ((r.noticed now).lone = false ∧ (r.noticed now).run = 0)) := by
  unfold LaneRecord.noticed LaneRecord.reads
  by_cases h : r.cycle = now
  · simp [h]
  · by_cases hquiet : r.lone = false ∧ r.run = 0
    · simp [h, hquiet]
    · have hold : ¬(decide (r.cycle = now) || (!r.lone && r.run == 0)) = true := by simpa [h] using hquiet
      rw [if_neg hold]
      simp [h]

/-! ## Lane notices -/

/-- R86. The state whose records of lane `l` a notice has written anew. -/
def State.recordsNoticed (s : State) (l : Lane) : State :=
  { s with table := mapAll (Option.map (fun (e : Entry) => e.setRecord l ((e.record l).noticed (s.lane l).cycle))) s.table }

theorem recordsNoticed_get (s : State) (l : Lane) (p : Fin 512) : (s.recordsNoticed l).table[p]
    = s.table[p].map (fun (e : Entry) => e.setRecord l ((e.record l).noticed (s.lane l).cycle)) :=
  mapAll_get ..

/-- R112. A lane record written anew leaves each slot to the entry that held it. -/
theorem recordsNoticed_slotEntry (s : State) (l : Lane) (k : Fin 64) : (s.recordsNoticed l).slotEntry k = s.slotEntry k := by
  have same (q : Fin 512) : (∃ f, (s.recordsNoticed l).table[q] = some f ∧ f.slot = some k)
      ↔ ∃ f, s.table[q] = some f ∧ f.slot = some k := by
    rw [recordsNoticed_get]
    cases s.table[q] <;> simp
  refine Option.ext fun p => ?_
  simp only [slotEntry_iff, same]
  refine and_congr_right fun _ => forall_congr' fun q => ?_
  have none (t : State) : (∀ f : Entry, q.val < p.val → t.table[q] = some f → f.slot ≠ some k)
      ↔ (q.val < p.val → ¬∃ f, t.table[q] = some f ∧ f.slot = some k) := by
    push Not
    exact ⟨fun h hlt f => h f hlt, fun h f hlt => h hlt f⟩
  rw [none, none, same]

/-- R86, R112. A notice of lane `l`: the records of the lane are written anew, and each slot that holds an entry shows it. -/
theorem exec_laneNotice {s : State} {l : Lane} {rest : List Lane} (hnot : s.laneNotices = l :: rest) (hage : s.ageingDue = []) :
    ∃ subs counts, exec .laneNotice s = .next
        { s.recordsNoticed l with laneNotices := rest, subs := subs, imageCounts := counts }
      ∧ (∀ k : Fin 64, s.slotEntry k = none → subs[k] = s.subs[k])
      ∧ ∀ (k : Fin 64) (p : Fin 512) (e : Entry), s.slotEntry k = some p → (s.recordsNoticed l).table[p] = some e →
        subs[k] = s.subs[k].shown (s.viewOf e) := by
  obtain ⟨subs, hshown, hsubs⟩ := engineViews_eq (List.finRange 64) (List.nodup_finRange 64)
    { s.recordsNoticed l with laneNotices := rest }
  have hslot (k : Fin 64) : { s.recordsNoticed l with laneNotices := rest }.slotEntry k = s.slotEntry k :=
    recordsNoticed_slotEntry s l k
  have hnotice : noticeLane l { s with laneNotices := rest } = { s.recordsNoticed l with laneNotices := rest, subs := subs } :=
    hshown
  have hexec : execLaneNotice s = .next (asEngineClaim (noticeLane l) { s with laneNotices := rest }) := by
    rw [execLaneNotice, hnot, hage]
    rfl
  obtain ⟨counts, ht⟩ : ∃ counts, asEngineClaim (noticeLane l) { s with laneNotices := rest } =
      { noticeLane l { s with laneNotices := rest } with imageCounts := counts } := ⟨_, rfl⟩
  refine ⟨subs, counts, ?_, fun k hk => ?_, fun k p e hk he => ?_⟩
  · rw [hnotice] at ht
    exact hexec.trans (congrArg Host.Outcome.next ht)
  · rw [hsubs, if_pos (List.mem_finRange k), hslot, hk]
    rfl
  · rw [hsubs, if_pos (List.mem_finRange k), hslot, hk]
    dsimp only
    rw [he]
    rfl

/-- Settles O44: a report is `exec_missReport` or `exec_creditReport`, with the record that `missed_spec` gives, and a notice
`exec_laneNotice` with that of `noticed_spec`. -/
theorem reportsMoveTheLaneRecord : Obligations.ReportsMoveTheLaneRecord := by
  refine ⟨fun _ _ => rfl, fun s id serial => ⟨lookupNamed_none_iff s id serial, fun p e h => ?_⟩,
    fun shown alone hshown halone => ⟨fun s id serial l rest hage =>
      ⟨fun cycle hrep => ⟨exec_missReport_idle hage hrep, fun p e hp hcycle => ?_⟩,
        fun hrep => ⟨exec_creditReport_idle hage hrep, fun p e hp => ?_⟩⟩, fun s l rest hnot hage => ?_⟩⟩
  · obtain ⟨he, hnamed⟩ := lookupNamed_some h
    exact ⟨he, hnamed⟩
  · subst hcycle
    obtain ⟨t, hexec, moved⟩ := exec_missReport hage hrep hp
    obtain ⟨hcyc, hrun, hlone, hrise⟩ := missed_spec (e.record l) (s.lane l).cycle s.settings.loneThreshold
    refine ⟨t, _, hexec, moved.reports, moved.table, hcyc, hrun, hlone, hrise ▸ moved.changes, ?_, fun k hk => ⟨?_, fun ha => ?_⟩,
      moved.frame⟩
    · exact fun hk => moved.slotless ((setRecord_slot ..).trans hk)
    · exact moved.others k ((setRecord_slot ..).trans hk)
    · rw [shown_eq hshown]
      exact moved.shown k ((setRecord_slot ..).trans hk) ((halone s k p).1 ha)
  · obtain ⟨t, hexec, moved⟩ := exec_creditReport hage hrep hp
    refine ⟨t, hexec, moved.reports, moved.table, moved.changes, ?_, fun k hk => ⟨?_, fun ha => ?_⟩, moved.frame⟩
    · exact fun hk => moved.slotless ((setRecord_slot ..).trans hk)
    · exact moved.others k ((setRecord_slot ..).trans hk)
    · rw [shown_eq hshown]
      exact moved.shown k ((setRecord_slot ..).trans hk) ((halone s k p).1 ha)
  · obtain ⟨subs, counts, hexec, hunheld, hheld⟩ := exec_laneNotice hnot hage
    refine ⟨_, hexec, rfl, fun p => ⟨fun hp => ?_, fun e he => ?_⟩, fun k hk => hunheld k ((slotEntry_none_iff s k).2 hk), rfl⟩
    · exact (recordsNoticed_get s l p).trans (by rw [hp]; rfl)
    · have hget : (s.recordsNoticed l).table[p] = some (e.setRecord l ((e.record l).noticed (s.lane l).cycle)) := by
        rw [recordsNoticed_get, he]
        rfl
      obtain ⟨hreads, hcycle⟩ := noticed_spec (e.record l) (s.lane l).cycle
      refine ⟨_, hget, hreads, hcycle, fun k hk ha => ?_⟩
      rw [shown_eq hshown]
      exact hheld k p _ (slotEntry_of_alone he hk ((halone s k p).1 ha)) hget

end Sys2Proof.Machine
end

section
/-! SUPPORT. Arm words in RUNNING: the engine's claim, the outcome at Delivery, and a slot that lets go of its entry (R43, R52, R115 to R118). -/

namespace Sys2Proof.Machine

/-! ## The engine's claims -/

/-- R43. How often a claim has updated the record image of position `p`. -/
theorem asEngineClaim_image (f : State → State) (s : State) (p : Fin 512) :
    (asEngineClaim f s).imageCounts[p] = (f s).imageCounts[p]
      + imageUpdates (if s.imageCounts[p] != (f s).imageCounts[p] then none else s.table[p]) (f s).table[p] := by
  simp [State.standing]

/-- R43. A claim whose removal at `p` raised the record image once, and that makes an entry there, updates it twice. -/
theorem asEngineClaim_remade {f : State → State} {s : State} {p : Fin 512} (hi : (f s).imageCounts[p] = s.imageCounts[p] + 1)
    (hp : (f s).table[p].isSome = true) : (asEngineClaim f s).imageCounts[p] = s.imageCounts[p] + 2 := by
  obtain ⟨e, he⟩ := Option.isSome_iff_exists.1 hp
  have hmoved : (s.imageCounts[p] != s.imageCounts[p] + 1) = true := by simp
  rw [asEngineClaim_image, hi, if_pos hmoved, he]
  simp [imageUpdates]
  bv_omega

/-- R43. A claim that removes nothing at the free position `p`, and makes an entry there, updates its record image once. -/
theorem asEngineClaim_newly {f : State → State} {s : State} {p : Fin 512} (hi : (f s).imageCounts[p] = s.imageCounts[p])
    (hfree : s.table[p] = none) (hp : (f s).table[p].isSome = true) :
    (asEngineClaim f s).imageCounts[p] = s.imageCounts[p] + 1 := by
  obtain ⟨e, he⟩ := Option.isSome_iff_exists.1 hp
  rw [asEngineClaim_image, hi, hfree, he]
  simp [imageUpdates]

/-! ## An arm word written in RUNNING -/

section
variable {s : State} {v : Word} (hr : s.partState = .running)
include hr

theorem exec_subscriptionArm {k : Fin 64} (ha : s.ageingDue = []) : exec (.subscriptionArm k v) s =
    .next (asEngineClaim (subscriptionClaim k) { s with mem := writeWord s.mem (subBase k + 7) v }) := by
  have hlive : s.partState ≠ .initialising := by rw [hr]; exact PartState.noConfusion
  rw [exec_of_hostWriteOf rfl, hostWrite_subArm k v s hlive, armWritten_running _ { s with mem := writeWord s.mem _ v } hr]
  exact congrArg (fun t => Host.Outcome.next (asEngineClaim (subscriptionClaim k) t)) (settleAgeing_none ha)

theorem exec_publicationArm {k : Fin 32} (ha : s.ageingDue = []) : exec (.publicationArm k v) s =
    .next (runTakes (asEngineClaim (publicationClaim k) { s with mem := writeWord s.mem (pubBase k + 12) v })) := by
  have hlive : s.partState ≠ .initialising := by rw [hr]; exact PartState.noConfusion
  rw [exec_of_hostWriteOf rfl, hostWrite_pubArm k v s hlive, armWritten_running _ { s with mem := writeWord s.mem _ v } hr]
  exact congrArg (fun t => Host.Outcome.next (runTakes (asEngineClaim (publicationClaim k) t))) (settleAgeing_none ha)

end

/-! ## Outcomes at Delivery -/

/-- R117, R118. The slot and the claims after the outcome `o`: written at once, or left behind the delivery in progress. -/
def SubSlot.given (k : Fin 64) (o : SlotOutcome) (cs : List JournalClaim) (x : SubSlot) : SubSlot × List JournalClaim :=
  if x.inProgress.isSome then ({ x with outcomes := x.outcomes ++ [o] }, cs)
  else
    ({ x with status := (outcomeWritten k (x.status, cs) o).1, previous := o.previous x.previous },
      (outcomeWritten k (x.status, cs) o).2)

theorem given_behind {k : Fin 64} {o : SlotOutcome} {cs : List JournalClaim} {x : SubSlot} {d : InProgress}
    (h : x.inProgress = some d) : x.given k o cs = ({ x with outcomes := x.outcomes ++ [o] }, cs) :=
  if_pos (by rw [h]; rfl)

theorem given_quiet {k : Fin 64} {o : SlotOutcome} {cs : List JournalClaim} {x : SubSlot} (h : x.inProgress = none) :
    x.given k o cs = ({ x with status := (outcomeWritten k (x.status, cs) o).1, previous := o.previous x.previous },
      (outcomeWritten k (x.status, cs) o).2) :=
  if_neg (by rw [h]; exact Bool.false_ne_true)

theorem giveOutcome_withSlot (s : State) (k : Fin 64) (x : SubSlot) (cs : List JournalClaim) (o : SlotOutcome) :
    giveOutcome k o (s.withSlot k x cs) = s.withSlot k (x.given k o cs).1 (x.given k o cs).2 := by
  unfold giveOutcome SubSlot.given
  rw [withSlot_sub]
  split
  · exact modifySub_withSlot s k x cs _
  · exact applyOutcome_withSlot s k x cs o

/-- R117. The slot as an arm reaches Delivery, before the outcome. -/
def SubSlot.arming (c : SlotConfig) (v : EntryView) (x : SubSlot) : SubSlot :=
  { x with state := .armed, config := some c, marker := false, markedBy := none, told := v }

theorem armDelivery_withSlot (s : State) (k : Fin 64) (x : SubSlot) (cs : List JournalClaim) (c : SlotConfig) (v : EntryView)
    (hv : slotView k (s.withSlot k x cs) = v) :
    armDelivery k c (s.withSlot k x cs) = s.withSlot k ((x.arming c v).given k (.armed v x.markedBy) cs).1
      ((x.arming c v).given k (.armed v x.markedBy) cs).2 := by
  unfold armDelivery
  dsimp only
  rw [modifySub_withSlot, withSlot_sub, hv]
  exact giveOutcome_withSlot ..

theorem refuseDelivery_withSlot (s : State) (k : Fin 64) (x : SubSlot) (cs : List JournalClaim) (reason : Reason)
    (id detail : Word) (c : JournalClaim)
    (hc : c = { kind := .armRefused, subject := .subscription k, time := s.clock, d1 := reasonCode reason, d2 := id, d3 := detail }) :
    refuseDelivery k reason id detail (s.withSlot k x cs)
      = s.withSlot k ({ x with state := .refused }.given k (.refused reason c) cs).1
        ({ x with state := .refused }.given k (.refused reason c) cs).2 := by
  unfold refuseDelivery
  rw [modifySub_withSlot, hc]
  exact giveOutcome_withSlot ..

theorem disarmDelivery_withSlot (s : State) (k : Fin 64) (x : SubSlot) (cs : List JournalClaim) :
    disarmDelivery k (s.withSlot k x cs) = s.withSlot k ({ x with state := .disarmed }.given k .disarmed cs).1
      ({ x with state := .disarmed }.given k .disarmed cs).2 := by
  unfold disarmDelivery
  rw [modifySub_withSlot]
  exact giveOutcome_withSlot ..

/-! ## A sound table (R42, R52) -/

section
variable {s : State} (hs : TableSound s) {p q : Fin 512} {e f : Entry} (he : s.table[p] = some e)
include hs he

theorem tableSound_id (hf : s.table[q] = some f) (h : e.id = f.id) : p = q := by
  obtain ⟨-, -, hunique⟩ := hs p e he
  exact hunique q f hf (.inl h)

theorem tableSound_slot {k : Fin 64} (hf : s.table[q] = some f) (hk : e.slot = some k) (hfk : f.slot = some k) : p = q := by
  obtain ⟨-, -, hunique⟩ := hs p e he
  exact hunique q f hf (.inr (.inl ⟨by rw [hk]; exact Option.some_ne_none k, hk.trans hfk.symm⟩))

theorem tableSound_armed {k : Fin 64} (hk : e.slot = some k) : s.subs[k].state = .armed := by
  obtain ⟨harmed, -⟩ := hs p e he
  exact harmed k hk

end

/-! ## A slot lets go of its entry (R52, R118) -/

/-- R52. `tbl` is the table of `s`, and `gone` what Twin Watch is handed, once slot `k` has let go of the entry that it holds, if it
holds one: removed if it is REMOTE and has accepted nothing, else kept as LEARNED. -/
def LetGo (s : State) (k : Fin 64) (tbl : Vector (Option Entry) 512) (gone : List TwinClaim) : Prop :=
  (tbl = s.table ∧ gone = [] ∧ ∀ (p : Fin 512) (e : Entry), s.table[p] = some e → e.slot ≠ some k)
    ∨ ∃ (p : Fin 512) (e : Entry), s.table[p] = some e ∧ e.slot = some k
      ∧ ((e.origin = .remote ∧ e.lastAccept = none ∧ tbl = s.table.set p none ∧ gone = [.abandon e.id e.serial])
        ∨ ((e.origin ≠ .remote ∨ e.lastAccept ≠ none) ∧ gone = []
          ∧ tbl = s.table.set p (some { e with slot := none, forward := .default, configured := false })))

/-- R52, R57. The machine with another table, and what its removals have raised and handed on. -/
def State.withTable (s : State) (tbl : Vector (Option Entry) 512) (counts : Vector Word 512) (falls : List LoneChange)
    (gone : List TwinClaim) : State :=
  { s with table := tbl, imageCounts := counts, loneChanges := s.loneChanges ++ falls, twinClaims := s.twinClaims ++ gone }

theorem withTable_self (s : State) : s.withTable s.table s.imageCounts [] [] = s := by
  simp [State.withTable]

/-- R118. Delivery's part of a detach. -/
def SubSlot.detached (x : SubSlot) : SubSlot :=
  { x with config := none
           waiting := none
           marker := x.flagToCome
           markedBy := match x.inProgress with | some d => d.markedBy | none => x.markedBy
           staleDue := x.staleDue + (x.viewsDue.filter (·.stale)).length
           viewsDue := [] }

theorem detachDelivery_eq (s : State) (k : Fin 64) :
    detachDelivery k s = s.withSlot k s.subs[k].detached s.journal.claims := by
  have h := modifySub_withSlot s k s.subs[k] s.journal.claims SubSlot.detached
  rw [withSlot_self] at h
  exact h

/-- R52, R118. The slot after a detach, which leaves alone one that is not ARMED. -/
def SubSlot.letGo (x : SubSlot) : SubSlot := if x.state = .armed then x.detached else x

theorem letGo_kept (x : SubSlot) :
    x.letGo.inProgress = x.inProgress ∧ x.letGo.status = x.status ∧ x.letGo.outcomes = x.outcomes := by
  unfold SubSlot.letGo
  split <;> exact ⟨rfl, rfl, rfl⟩

section
variable {s : State} {k : Fin 64} {tbl : Vector (Option Entry) 512} {gone : List TwinClaim}

theorem set_get (tbl : Vector (Option Entry) 512) (p q : Fin 512) (o : Option Entry) :
    (tbl.set p o)[q] = if p = q then o else tbl[q] := by
  rw [Fin.getElem_fin, Vector.getElem_set]
  simp only [Fin.ext_iff]
  rfl

/-- R52. An entry of the table that a slot has let go of was there before, of the same stream, and does not name the slot. -/
theorem LetGo.stood (hs : TableSound s) (hgo : LetGo s k tbl gone) {q : Fin 512} {f : Entry} (hf : tbl[q] = some f) :
    ∃ e, s.table[q] = some e ∧ f.id = e.id ∧ f.slot ≠ some k := by
  obtain ⟨rfl, -, hfree⟩ | ⟨p, e, he, hk, hleft⟩ := hgo
  · exact ⟨f, hf, rfl, hfree q f hf⟩
  have others (hq : p ≠ q) (hg : s.table[q] = some f) : ∃ e, s.table[q] = some e ∧ f.id = e.id ∧ f.slot ≠ some k :=
    ⟨f, hg, rfl, fun hfk => hq (tableSound_slot hs he hg hk hfk)⟩
  obtain ⟨-, -, rfl, -⟩ | ⟨-, -, rfl⟩ := hleft
  all_goals
    rw [set_get] at hf
    by_cases hpq : p = q
    case neg => exact others hpq (by rwa [if_neg hpq] at hf)
    rw [if_pos hpq] at hf
    cases hf
  exact ⟨e, hpq ▸ he, rfl, nofun⟩

theorem LetGo.unique (hs : TableSound s) (hgo : LetGo s k tbl gone) {p q : Fin 512} {e f : Entry} (he : tbl[p] = some e)
    (hf : tbl[q] = some f) (hid : f.id = e.id) : q = p := by
  obtain ⟨e', he', hide, -⟩ := hgo.stood hs he
  obtain ⟨f', hf', hidf, -⟩ := hgo.stood hs hf
  exact (tableSound_id hs he' hf' (by rw [← hide, ← hidf, hid])).symm

theorem removeEntry_eq {t : State} {p : Fin 512} {e : Entry} (he : t.table[p] = some e) (ha : t.ageingDue = []) :
    removeEntry p t = t.withTable (t.table.set p none) (modifyAt t.imageCounts p (· + 1)) (removalFalls e)
      [.abandon e.id e.serial] := by
  unfold removeEntry
  rw [he]
  simp [handTwin, raiseImage, State.putEntry, State.withTable, ha]

/-- R43. How often the removals that led from the table of `s` to `tbl` have raised the record image of a position that is free in
`tbl`. -/
def Cleared (s : State) (tbl : Vector (Option Entry) 512) (counts : Vector Word 512) : Prop :=
  ∀ p : Fin 512, tbl[p] = none → counts[p] = s.imageCounts[p] + (if s.table[p].isSome then 1 else 0)

/-- R52. The table after a slot has let go of its entry. -/
theorem detachEntry_letGo (hs : TableSound s) (hgo : LetGo s k tbl gone) (ha : s.ageingDue = []) :
    ∃ counts falls, detachEntry k s = s.withTable tbl counts falls gone ∧ Cleared s tbl counts := by
  obtain ⟨rfl, rfl, hfree⟩ | ⟨p, e, he, hk, hleft⟩ := hgo
  · refine ⟨s.imageCounts, [], ?_, fun p hp => by rw [hp]; simp⟩
    rw [withTable_self, detachEntry, (slotEntry_none_iff s k).2 hfree]
  have hp : s.slotEntry k = some p := slotEntry_of_alone he hk fun q f hf hfk =>
    (tableSound_slot hs he hf hk hfk).symm
  obtain ⟨hremote, hnone, rfl, rfl⟩ | ⟨hkept, rfl, rfl⟩ := hleft
  · refine ⟨modifyAt s.imageCounts p (· + 1),
      removalFalls { e with slot := none, forward := .default, configured := false }, ?_, fun q hq => ?_⟩
    · rw [detachEntry, hp]
      dsimp only
      rw [he]
      dsimp only
      rw [if_pos (by rw [hremote, hnone]; rfl), removeEntry_eq (by rw [putEntry_get, if_pos rfl]) (by exact ha)]
      simp [State.withTable, State.putEntry]
    · rw [set_get] at hq
      by_cases hpq : p = q
      · subst hpq
        rw [Fin.getElem_fin, modifyAt_get_self, he]
        rfl
      · rw [if_neg hpq] at hq
        rw [hq]
        exact (modifyAt_get_ne _ _ _ _ hpq).trans (BitVec.add_zero _).symm
  · refine ⟨s.imageCounts, [], ?_, fun q hq => ?_⟩
    · rw [detachEntry, hp]
      dsimp only
      rw [he]
      dsimp only
      have hstays : ¬(decide (e.origin = .remote) && e.lastAccept.isNone) = true := by simpa using fun hremote => hkept.resolve_left (· hremote)
      rw [if_neg hstays]
      simp [State.withTable, State.putEntry]
    · rw [set_get] at hq
      split at hq
      · cases hq
      · rw [hq]
        simp

/-- R52, R118. Slot `k` detached, in the table and in Delivery. -/
theorem detach_letGo (hs : TableSound s) (hgo : LetGo s k tbl gone) (ha : s.ageingDue = []) :
    ∃ counts falls, detach k s = (s.withTable tbl counts falls gone).withSlot k s.subs[k].letGo s.journal.claims
      ∧ Cleared s tbl counts := by
  unfold detach SubSlot.letGo
  by_cases harmed : s.subs[k].state = .armed
  · obtain ⟨counts, falls, hdetach, hcounts⟩ := detachEntry_letGo hs hgo ha
    refine ⟨counts, falls, ?_, hcounts⟩
    rw [if_pos harmed, if_pos harmed, hdetach, detachDelivery_eq]
    rfl
  · obtain ⟨rfl, rfl, -⟩ | ⟨p, e, he, hk, -⟩ := hgo
    · refine ⟨s.imageCounts, [], ?_, fun p hp => by rw [hp]; simp⟩
      rw [if_neg harmed, if_neg harmed, withTable_self, withSlot_self]
    · exact absurd (tableSound_armed hs he hk) harmed

end

end Sys2Proof.Machine
end

section
/-! Subscription arm words other than a good arm (O18). -/

namespace Sys2Proof.Machine

section
variable {s : State} {k : Fin 64}

/-- R115, R118. What becomes of the machine when the claim of a slot's arm word ends in Delivery with `x` as the slot. -/
theorem asEngineClaim_slot {f : State → State} {tbl : Vector (Option Entry) 512} {counts : Vector Word 512} {falls : List LoneChange}
    {gone : List TwinClaim} {x : SubSlot} {cs : List JournalClaim}
    (hf : f s = (s.withTable tbl counts falls gone).withSlot k x cs) :
    ∃ counts', asEngineClaim f s = ((s.withTable tbl counts' falls gone).withSlot k x cs) :=
  ⟨(asEngineClaim f s).imageCounts, by
    rw [show asEngineClaim f s = { f s with imageCounts := (asEngineClaim f s).imageCounts } from rfl, hf]
    rfl⟩

/-- R116. What refuses an arm of subscription slot `k`, judged against the table `tbl` that is left once the slot has let go. -/
def ArmRefused (m : List Host.Cell) (k : Fin 64) (tbl : Vector (Option Entry) 512) (v : Word) (reason : Reason)
    (detail : Word) : Prop :=
  (v = 1 ∧ ∃ off, badSlot m k = some off ∧ reason = .badSetting ∧ detail = BitVec.ofNat 16 off)
    ∨ (v = 1 ∧ badSlot m k = none ∧ detail = 0 ∧ ∃ (p : Fin 512) (e : Entry), tbl[p] = some e ∧ e.id = readWord m (subBase k)
        ∧ ((e.origin.isHost = true ∧ reason = .originClash)
          ∨ (e.origin.isHost = false ∧ e.slot.isSome = true ∧ reason = .duplicate)))
    ∨ (v ≠ 0 ∧ v ≠ 1 ∧ reason = .badArmCode ∧ detail = v)

theorem subscriptionClaim_refuses {tbl : Vector (Option Entry) 512} {v : Word} {reason : Reason} {detail : Word}
    (hv : readWord s.mem (subBase k + 7) = v) (hmem : (detach k s).mem = s.mem) (htbl : (detach k s).table = tbl)
    (hunique : ∀ (p q : Fin 512) (e f : Entry), tbl[p] = some e → tbl[q] = some f → f.id = e.id → q = p)
    (href : ArmRefused s.mem k tbl v reason detail) :
    subscriptionClaim k s = refuseDelivery k reason (readWord s.mem (subBase k)) detail (detach k s) := by
  subst hv
  rw [subscriptionClaim]
  obtain ⟨hv, off, hb, rfl, rfl⟩ | ⟨hv, hb, rfl, p, e, he, hid, hwhy⟩ | ⟨h0, h1, rfl, rfl⟩ := href
  · rw [if_pos hv, armSlot, hmem, hb]
  · have hlook : (detach k s).lookup (readWord s.mem (subBase k)) = some (p, e) := by
      rw [← hid]
      exact lookup_unique (by rw [htbl]; exact he) fun q f hf hfid => hunique p q e f he (htbl ▸ hf) hfid
    rw [if_pos hv, armSlot, hmem, hb]
    dsimp only
    rw [attach, readSlot_id, hlook]
    dsimp only
    obtain ⟨hhost, rfl⟩ | ⟨hhost, hslot, rfl⟩ := hwhy
    · rw [if_pos hhost]
    · rw [if_neg (by rw [hhost]; exact Bool.false_ne_true), if_pos hslot]
  · rw [if_neg h1, if_neg h0]

end

/-- R115. What a claim makes of its slot and the claims of the journal when the outcome `o`, which leaves the slot in the state `state`
under `reason` and claims `claims`, reaches Delivery once the slot has let go of its entry. -/
theorem asEngineClaim_outcome {f : State → State} {s : State} {k : Fin 64} {tbl : Vector (Option Entry) 512}
    {counts : Vector Word 512} {falls : List LoneChange} {gone : List TwinClaim} {o : SlotOutcome} {state : SlotState}
    {reason : Reason} {claims : List JournalClaim}
    (hf : f s = (s.withTable tbl counts falls gone).withSlot k
      ({ s.subs[k].letGo with state := state }.given k o s.journal.claims).1
      ({ s.subs[k].letGo with state := state }.given k o s.journal.claims).2)
    (hwritten : ∀ st cs, outcomeWritten k (st, cs) o
      = ({ st with edition := st.edition + 2, state := state, reason := reason }, cs ++ claims))
    (hprevious : ∀ old, o.previous old = old) :
    ∃ t, t = asEngineClaim f s
      ∧ t.subs = s.subs.set k (match s.subs[k].inProgress with
        | none =>
          { s.subs[k].letGo with
            state := state
            status := { s.subs[k].status with edition := s.subs[k].status.edition + 2, state := state, reason := reason } }
        | some _ => { s.subs[k].letGo with state := state, outcomes := s.subs[k].outcomes ++ [o] })
      ∧ t = { s with table := tbl, imageCounts := t.imageCounts, loneChanges := t.loneChanges, subs := t.subs
                     twinClaims := s.twinClaims ++ gone
                     journal := { s.journal with claims := s.journal.claims ++ (match s.subs[k].inProgress with
                       | none => claims | some _ => []) } } := by
  obtain ⟨counts', ht⟩ := asEngineClaim_slot hf
  obtain ⟨hprog, hstatus, hout⟩ := letGo_kept s.subs[k]
  refine ⟨_, rfl, ?_⟩
  rw [ht]
  cases hp : s.subs[k].inProgress with
  | none =>
    rw [given_quiet (x := { s.subs[k].letGo with state := state }) (hprog.trans hp), hwritten, hprevious, hstatus]
    exact ⟨rfl, rfl⟩
  | some d =>
    rw [given_behind (x := { s.subs[k].letGo with state := state }) (hprog.trans hp), hout]
    refine ⟨rfl, ?_⟩
    simp only [List.append_nil]
    rfl

/-- Settles O18: a slot lets go of its entry (`detach_letGo`), and the outcome reaches Delivery (`asEngineClaim_outcome`). -/
theorem subscriptionArmRefusesOrDisarms : Obligations.SubscriptionArmRefusesOrDisarms := by
  refine ⟨badSlot_first, fun s k v m tbl gone sub hwf hm hr hage hs hgo hsub => ?_⟩
  have hv : readWord m (subBase k + 7) = v := by rw [hm]; exact readWord_writeWord_self hwf ..
  obtain ⟨u, hu⟩ : ∃ u, u = { s with mem := m } := ⟨_, rfl⟩
  have hexec : exec (.subscriptionArm k v) s = .next (asEngineClaim (subscriptionClaim k) u) := by
    rw [hu, hm, exec_subscriptionArm hr hage]
  have hgo : LetGo u k tbl gone := by rw [hu]; exact hgo
  have hs : TableSound u := by rw [hu]; exact hs
  have hsub : sub = u.subs[k].letGo := by rw [hu]; exact hsub
  obtain ⟨counts, falls, hdetach, -⟩ := detach_letGo hs hgo (by rw [hu]; exact hage)
  refine ⟨fun reason detail c href hc => ?_, fun hzero hstate => ?_, fun hzero hstate => ?_⟩
  · have hclaim : subscriptionClaim k u = refuseDelivery k reason (readWord m (subBase k)) detail (detach k u) := by
      subst hu
      exact subscriptionClaim_refuses hv (by rw [hdetach]; rfl) (by rw [hdetach]; rfl) (fun p q e f => hgo.unique hs) href
    rw [hdetach, refuseDelivery_withSlot _ k _ _ _ _ _ c (by rw [hc, hu]; rfl)] at hclaim
    obtain ⟨t, ht, hsubs, hframe⟩ := asEngineClaim_outcome hclaim (fun _ _ => rfl) (fun _ => rfl)
    rw [← ht] at hexec
    rw [hsub]
    rw [hu] at hsubs hframe ⊢
    exact ⟨t, hexec, hsubs, hframe⟩
  · have hclaim : subscriptionClaim k u = disarmDelivery k (detach k u) := by
      subst hu hzero
      rw [subscriptionClaim, if_neg (by rw [hv]; decide), if_pos hv, if_neg hstate]
    rw [hdetach, disarmDelivery_withSlot] at hclaim
    obtain ⟨t, ht, hsubs, hframe⟩ := asEngineClaim_outcome (claims := []) hclaim (fun _ _ => by rw [List.append_nil]; rfl)
      (fun _ => rfl)
    have hclaims : s.journal.claims ++ (match s.subs[k].inProgress with | none => [] | some _ => []) = s.journal.claims := by
      cases s.subs[k].inProgress <;> exact List.append_nil _
    rw [← ht] at hexec
    rw [hsub]
    rw [hu] at hsubs hframe ⊢
    refine ⟨t, hexec, hsubs, hframe.trans ?_⟩
    rw [hclaims]
  · have hclaim : subscriptionClaim k u = u := by
      subst hu hzero
      exact subscriptionClaim_idle hstate hv
    rw [hexec, asEngineClaim_same _ _ (by rw [hclaim]) (by rw [hclaim]), hclaim, hu]

end Sys2Proof.Machine
end

section
/-! Good subscription arms (O17). -/

namespace Sys2Proof.Machine

/-! ## The slot of a good arm (R117) -/

/-- R115, R118. Slot `x` after letting go, as an arm finds it: what the arm writes over is as it was. -/
def SubSlot.leftToArm (x : SubSlot) : SubSlot :=
  if x.state = .armed then
    { x with
      waiting := none
      markedBy := (match x.inProgress with | some d => d.markedBy | none => x.markedBy)
      staleDue := x.staleDue + (x.viewsDue.filter (·.stale)).length
      viewsDue := [] }
  else x

theorem letGo_arming (x : SubSlot) (c : SlotConfig) (v : EntryView) : x.letGo.arming c v = x.leftToArm.arming c v := by
  unfold SubSlot.letGo SubSlot.leftToArm
  split <;> rfl

theorem letGo_markedBy (x : SubSlot) : x.letGo.markedBy = x.leftToArm.markedBy := by
  unfold SubSlot.letGo SubSlot.leftToArm
  split <;> rfl

theorem leftToArm_kept (x : SubSlot) :
    x.leftToArm.inProgress = x.inProgress ∧ x.leftToArm.status = x.status ∧ x.leftToArm.outcomes = x.outcomes := by
  unfold SubSlot.leftToArm
  split <;> exact ⟨rfl, rfl, rfl⟩

/-- R117. The slot after a good arm. -/
def SubSlot.armedSlot (x : SubSlot) (c : SlotConfig) (view : EntryView) : SubSlot :=
  match x.inProgress with
  | none =>
    { x.leftToArm with
      state := .armed, config := some c, marker := false, markedBy := none, told := view, previous := none
      status :=
        { edition := x.status.edition + 2, state := .armed, reason := .none, view := view
          mismatch := false, truncated := false, seq := 0, epoch := 0, port := none, time := 0, cls := none
          test := false, hold := 0, repeatNo := 0, length := 0, deliveries := 0, superseded := 0, stale := 0
          content := [] } }
  | some _ =>
    { x.leftToArm with
      state := .armed, config := some c, marker := false, markedBy := none, told := view
      outcomes := x.outcomes ++ [.armed view x.leftToArm.markedBy] }

/-- R122. The claim that a good arm clears the mismatch flag. -/
def SubSlot.armClears (x : SubSlot) (k : Fin 64) : List JournalClaim :=
  match x.inProgress, x.leftToArm.markedBy with
  | none, some mark => if x.status.mismatch then
      [{ kind := .testMismatch, subject := .subscription k, time := mark.time, d1 := mark.id, d2 := 0, d3 := mark.seq }] else []
  | _, _ => []

theorem given_armed (x : SubSlot) (k : Fin 64) (c : SlotConfig) (v : EntryView) (cs : List JournalClaim) :
    (x.letGo.arming c v).given k (.armed v x.letGo.markedBy) cs = (x.armedSlot c v, cs ++ x.armClears k) := by
  obtain ⟨hprog, hstatus, hout⟩ := leftToArm_kept x
  rw [letGo_arming, letGo_markedBy]
  unfold SubSlot.armedSlot SubSlot.armClears
  cases hp : x.inProgress with
  | some d =>
    rw [given_behind (x := x.leftToArm.arming c v) (hprog.trans hp)]
    simp only [List.append_nil, ← hout]
    rfl
  | none =>
    rw [given_quiet (x := x.leftToArm.arming c v) (hprog.trans hp)]
    refine Prod.ext ?_ ?_
    · simp only [← hstatus]
      rfl
    · show cs ++ (if x.leftToArm.status.mismatch then mismatchEntries k false x.leftToArm.markedBy else []) = _
      rw [hstatus]
      cases x.leftToArm.markedBy <;> cases x.status.mismatch <;> rfl

/-! ## The claim of a good arm -/

section
variable {k : Fin 64}

/-- R53. The entry `e` at `p`, the only one of its stream and free of slots, is attached to slot `k`. -/
theorem attach_attached {x : State} {r : SlotRequest} {p : Fin 512} {e : Entry} (hl : x.lookup r.id = some (p, e))
    (hhost : e.origin.isHost = false) (hslot : e.slot = none) :
    attach k r x = armDelivery k r.config
      (x.putEntry p (some { e with slot := some k, configured := true, forward := r.forward })) := by
  unfold attach
  rw [hl]
  dsimp only
  rw [if_neg (by rw [hhost]; exact Bool.false_ne_true), if_neg (by rw [hslot]; exact Bool.false_ne_true)]

/-- R53. An AWAITING entry is made at the position that is free once there is room. -/
theorem attach_room {x : State} {r : SlotRequest} {p : Fin 512} (hl : x.lookup r.id = none)
    (hp : (makeRoom x).freePosition = some p) :
    attach k r x = armDelivery k r.config (makeEntry p ((makeRoom x).awaitingEntry k r) (makeRoom x)) := by
  unfold attach
  rw [hl]
  dsimp only
  rw [hp]

/-- R42, R53. An AWAITING entry is made at the free position. -/
theorem attach_made {x : State} {r : SlotRequest} {p : Fin 512} (hl : x.lookup r.id = none) (hp : x.freePosition = some p) :
    attach k r x = armDelivery k r.config (makeEntry p (x.awaitingEntry k r) x) := by
  have hroom := attach_room (k := k) (p := p) hl (by rwa [makeRoom_free hp])
  rwa [makeRoom_free hp] at hroom

/-- R112, R117. An arm that has given slot `k` the entry `e` at `p`, in the state `b`, which no other entry names. -/
theorem armDelivery_shows {b : State} {x : SubSlot} {cs : List JournalClaim} {c : SlotConfig} {p : Fin 512} {e : Entry}
    (he : b.table[p] = some e) (hk : e.slot = some k)
    (halone : ∀ (q : Fin 512) (f : Entry), b.table[q] = some f → f.slot = some k → q = p) :
    armDelivery k c (b.withSlot k x.letGo cs) = b.withSlot k (x.armedSlot c (b.viewOf e)) (cs ++ x.armClears k) := by
  rw [armDelivery_withSlot b k _ cs c (b.viewOf e) (slotView_withSlot b k _ cs (slotEntry_of_alone he hk halone) he), given_armed]

end

/-- R42. In a table in which no entry names slot `k`, a position given an entry is the only one that may. -/
theorem alone_putEntry {b : State} {k : Fin 64} {p : Fin 512} {e : Entry}
    (hfree : ∀ (q : Fin 512) (f : Entry), b.table[q] = some f → f.slot ≠ some k) :
    ∀ (q : Fin 512) (f : Entry), (b.putEntry p (some e)).table[q] = some f → f.slot = some k → q = p := by
  intro q f hf hk
  rw [putEntry_get] at hf
  by_cases hpq : p = q
  · exact hpq.symm
  · rw [if_neg hpq] at hf
    exact absurd hk (hfree q f hf)

/-- R43. A claim is what it makes of the machine, and of the record images. -/
theorem asEngineClaim_eq {f : State → State} {s t : State} (hf : f s = t) :
    asEngineClaim f s = { t with imageCounts := (asEngineClaim f s).imageCounts } := by
  rw [← hf]
  rfl

/-- R43. A claim that makes an entry where the removals that it began with left none updates its record image once more. -/
theorem asEngineClaim_cleared {f : State → State} {s : State} {p : Fin 512}
    (hcounts : (f s).imageCounts[p] = s.imageCounts[p] + (if s.table[p].isSome then 1 else 0))
    (hmade : (f s).table[p].isSome = true) :
    (asEngineClaim f s).imageCounts[p] = s.imageCounts[p] + (if s.table[p].isSome then 2 else 1) := by
  cases hp : s.table[p] with
  | none =>
    rw [hp] at hcounts
    exact asEngineClaim_newly (hcounts.trans (BitVec.add_zero _)) hp hmade
  | some e =>
    rw [hp] at hcounts
    exact asEngineClaim_remade hcounts hmade

/-- R115. A good arm of slot `k`, in RUNNING: it attaches to what is left once the slot has let go. -/
theorem subscriptionClaim_good {s : State} {k : Fin 64} (hv : readWord s.mem (subBase k + 7) = 1) (hb : badSlot s.mem k = none)
    (hmem : (detach k s).mem = s.mem) : subscriptionClaim k s = attach k (readSlot s.mem k) (detach k s) := by
  rw [subscriptionClaim, if_pos hv, armSlot, hmem, hb]

/-- Settles O17: a slot lets go of its entry (`detach_letGo`), its arm attaches or makes an entry in what is left (`attach_attached`,
`attach_made`), and the arm reaches Delivery (`armDelivery_shows`). -/
theorem subscriptionArmHoldsAnEntry : Obligations.SubscriptionArmHoldsAnEntry := by
  refine ⟨fun m k => ⟨badSlot_first m k, readSlot_held m k⟩, ?_⟩
  intro s k m tbl gone sub armed cleared request hwf hm hr hage hs hb hreq _ hgo hsub harmed hcleared
  have hv : readWord m (subBase k + 7) = 1 := by rw [hm]; exact readWord_writeWord_self hwf ..
  obtain ⟨u, hu⟩ : ∃ u, u = { s with mem := m } := ⟨_, rfl⟩
  have hmem : u.mem = m := by rw [hu]
  have hexec : exec (.subscriptionArm k 1) s = .next (asEngineClaim (subscriptionClaim k) u) := by
    rw [hu, hm, exec_subscriptionArm hr hage]
  have hgo : LetGo u k tbl gone := by rw [hu]; exact hgo
  have hs : TableSound u := by rw [hu]; exact hs
  obtain ⟨counts, falls, hdetach, hcounts⟩ := detach_letGo hs hgo (by rw [hu]; exact hage)
  have hclaim := subscriptionClaim_good (s := u) (k := k) (by rw [hmem, hv]) (by rw [hmem, hb]) (by rw [hdetach]; rfl)
  rw [hmem, ← hreq, hdetach] at hclaim
  have hsub : sub = s.subs[k].leftToArm := hsub
  have harmed (view : EntryView) : armed view = s.subs[k].armedSlot request.config view := by
    rw [harmed, hsub]
    rfl
  have hcleared : cleared = s.subs[k].armClears k := by
    rw [hcleared, hsub]
    rfl
  have hfree (q : Fin 512) (f : Entry) (hf : tbl[q] = some f) : f.slot ≠ some k := by
    obtain ⟨-, -, -, hne⟩ := hgo.stood hs hf
    exact hne
  refine ⟨fun p e he hid hhost hslot => ?_, fun p hnone hp hbelow => ?_⟩
  · have hlook : ((u.withTable tbl counts falls gone).withSlot k u.subs[k].letGo u.journal.claims).lookup request.id
        = some (p, e) := by
      rw [← hid]
      exact lookup_unique he fun q f hf hfid => hgo.unique hs he hf hfid
    obtain ⟨e', he'⟩ : ∃ e', e' = { e with slot := some k, configured := true, forward := request.forward } := ⟨_, rfl⟩
    rw [attach_attached hlook hhost hslot, ← he'] at hclaim
    have harms := armDelivery_shows (b := (u.withTable tbl counts falls gone).putEntry p (some e')) (x := u.subs[k])
      (cs := u.journal.claims) (c := request.config) (k := k) (p := p) (e := e') (by rw [putEntry_get, if_pos rfl])
      (by rw [he']) (alone_putEntry hfree)
    have ht := asEngineClaim_eq (hclaim.trans harms)
    rw [ht] at hexec
    refine ⟨_, e', hexec, rfl, ?_, he', ?_, ?_⟩
    · rw [hu]; rfl
    · rw [harmed, hu]; rfl
    · rw [hcleared, hu]; rfl
  · have hlook : ((u.withTable tbl counts falls gone).withSlot k u.subs[k].letGo u.journal.claims).lookup request.id = none :=
      (lookup_none_iff _ _).2 hnone
    have hposition : ((u.withTable tbl counts falls gone).withSlot k u.subs[k].letGo u.journal.claims).freePosition = some p :=
      (freePosition_iff _ _).2 ⟨hp, hbelow⟩
    rw [attach_made hlook hposition] at hclaim
    have harms := armDelivery_shows
      (b := { u.withTable tbl counts falls gone with serial := u.serial + 1 }.putEntry p
        (some { u.awaitingEntry k request with serial := u.serial + 1 }))
      (x := u.subs[k]) (cs := u.journal.claims) (c := request.config) (k := k) (p := p) (by rw [putEntry_get, if_pos rfl]) rfl
      (alone_putEntry hfree)
    have hmade := hclaim.trans harms
    have himage := asEngineClaim_cleared (f := subscriptionClaim k) (s := u) (p := p) (by rw [hmade]; exact hcounts p hp)
      (by rw [hmade]; exact (congrArg Option.isSome ((putEntry_get p p ..).trans (if_pos rfl))))
    rw [asEngineClaim_eq hmade] at hexec himage
    have hdeadline : awaitingDeadline request.expected u = .at (s.clock + millis request.expected) request.expected 0 := by
      rw [hu]
      exact if_pos hr
    refine ⟨_, _, hexec, rfl, ?_⟩
    subst hu hreq
    exact ⟨rfl, rfl, rfl, rfl, rfl, rfl, rfl, rfl, rfl, hdeadline, rfl, rfl, rfl, himage, by rw [harmed]; rfl,
      by rw [hcleared]; rfl⟩

end Sys2Proof.Machine
end

section
/-! Arms that evict an entry from a full table (O21). -/

namespace Sys2Proof.Machine

/-! ## The entry that gives way (R56) -/

/-- R56. The better of the choice so far and the entry at `p`. -/
def State.older (s : State) (best : Option (Fin 512 × Entry)) (p : Fin 512) : Option (Fin 512 × Entry) :=
  match s.table[p] with
  | some e =>
    if e.configured then best
    else match best with
      | none => some (p, e)
      | some (_, f) => if e.olderThan f then some (p, e) else best
  | none => best

theorem victim_eq (s : State) : s.victim = (List.finRange 512).foldl s.older none := rfl

/-- `best`, if it is an entry, is a LEARNED one of a position in `ps`. -/
def State.LearnedIn (s : State) (ps : List (Fin 512)) (best : Option (Fin 512 × Entry)) : Prop :=
  ∀ (q : Fin 512) (f : Entry), best = some (q, f) → q ∈ ps ∧ s.table[q] = some f ∧ f.configured = false

theorem learnedIn_none (s : State) : s.LearnedIn [] none := by
  intro q f h
  cases h

section
variable {s : State}

theorem older_learned {ps : List (Fin 512)} {best : Option (Fin 512 × Entry)} {p : Fin 512} (h : s.LearnedIn ps best) :
    s.LearnedIn (p :: ps) (s.older best p) := by
  have kept : s.LearnedIn (p :: ps) best := fun q f hq =>
    have ⟨hmem, hf⟩ := h q f hq
    ⟨List.mem_cons_of_mem p hmem, hf⟩
  unfold State.older
  split
  · next e he =>
    have taken (hc : ¬e.configured = true) : s.LearnedIn (p :: ps) (some (p, e)) := by
      rintro q f ⟨⟩
      exact ⟨List.mem_cons_self, he, Bool.eq_false_iff.2 hc⟩
    split
    · exact kept
    · next hc =>
      split
      · exact taken hc
      · split
        · exact taken hc
        · exact kept
  · exact kept

theorem foldl_older_learned (ps : List (Fin 512)) : ∀ {seen : List (Fin 512)} {best : Option (Fin 512 × Entry)},
    s.LearnedIn seen best → ∀ (q : Fin 512) (f : Entry), ps.foldl s.older best = some (q, f) →
      (q ∈ ps ∨ q ∈ seen) ∧ s.table[q] = some f ∧ f.configured = false := by
  induction ps with
  | nil =>
    intro seen best h q f hq
    obtain ⟨hmem, hf⟩ := h q f hq
    exact ⟨.inr hmem, hf⟩
  | cons p ps ih =>
    intro seen best h q f hq
    obtain ⟨hmem, hf⟩ := ih (older_learned (p := p) h) q f hq
    refine ⟨?_, hf⟩
    simp only [List.mem_cons] at hmem ⊢
    tauto

variable {p : Fin 512} {e : Entry}

/-- R56. The LEARNED entry `e` at `p` gives way before every other. -/
structure Oldest (s : State) (p : Fin 512) (e : Entry) : Prop where
  stands : s.table[p] = some e
  learned : e.configured = false
  before : ∀ (q : Fin 512) (f : Entry), s.table[q] = some f → f.configured = false → q < p → e.olderThan f = true
  after : ∀ (q : Fin 512) (f : Entry), s.table[q] = some f → f.configured = false → q ≠ p → f.olderThan e = false

theorem Oldest.stays (h : Oldest s p e) {ps : List (Fin 512)} (hp : p ∉ ps) : ps.foldl s.older (some (p, e)) = some (p, e) := by
  induction ps with
  | nil => rfl
  | cons q ps ih =>
    obtain ⟨hq, hps⟩ := List.ne_and_not_mem_of_not_mem_cons hp
    have keeps : s.older (some (p, e)) q = some (p, e) := by
      unfold State.older
      split
      · next f hf =>
        split
        · rfl
        · next hc => exact if_neg (by rw [h.after q f hf (Bool.eq_false_iff.2 hc) (Ne.symm hq)]; exact Bool.false_ne_true)
      · rfl
    rw [List.foldl_cons, keeps]
    exact ih hps

theorem Oldest.victim (h : Oldest s p e) : s.victim = some (p, e) := by
  obtain ⟨below, above, hsplit⟩ := List.append_of_mem (List.mem_finRange p)
  have hsorted := List.pairwise_lt_finRange 512
  rw [hsplit, List.pairwise_append, List.pairwise_cons] at hsorted
  obtain ⟨-, ⟨habove, -⟩, hbelow⟩ := hsorted
  have chosen : s.older (below.foldl s.older none) p = some (p, e) := by
    have hlearned := foldl_older_learned below (learnedIn_none s)
    unfold State.older
    rw [h.stands]
    dsimp only
    rw [if_neg (by rw [h.learned]; exact Bool.false_ne_true)]
    split
    · rfl
    · next q f hbest =>
      obtain ⟨hmem, hf, hc⟩ := hlearned q f hbest
      have hlt : q < p := hbelow q (hmem.resolve_right List.not_mem_nil) p List.mem_cons_self
      exact if_pos (h.before q f hf hc hlt)
  rw [victim_eq, hsplit, List.foldl_append, List.foldl_cons, chosen]
  exact h.stays fun hmem => absurd (habove p hmem) (lt_irrefl p)

/-- R56. Room is made in a full table: the entry that gives way is removed, and its position is the free one. -/
theorem Oldest.makeRoom (h : Oldest s p e) (hfull : ∀ q : Fin 512, s.table[q].isSome = true) (ha : s.ageingDue = []) :
    makeRoom s = s.withTable (s.table.set p none) (modifyAt s.imageCounts p (· + 1)) (removalFalls e) [.abandon e.id e.serial]
      ∧ (makeRoom s).freePosition = some p := by
  have hnone : s.freePosition = none := by
    cases hq : s.freePosition with
    | none => rfl
    | some q => exact absurd (freePosition_some hq) (Option.isSome_iff_ne_none.1 (hfull q))
  have hroom : Machine.makeRoom s = s.withTable (s.table.set p none) (modifyAt s.imageCounts p (· + 1)) (removalFalls e)
      [.abandon e.id e.serial] := by
    unfold Machine.makeRoom
    rw [hnone, h.victim]
    exact removeEntry_eq h.stands ha
  refine ⟨hroom, ?_⟩
  rw [hroom, freePosition_iff]
  have get (q : Fin 512) : (s.withTable (s.table.set p none) (modifyAt s.imageCounts p (· + 1)) (removalFalls e)
      [.abandon e.id e.serial]).table[q] = if p = q then none else s.table[q] := set_get ..
  refine ⟨(get p).trans (if_pos rfl), fun q hq => ?_⟩
  rw [get, if_neg (by rintro rfl; exact lt_irrefl _ hq)]
  exact hfull q

/-- R56. Of two times, less than half the clock's range apart, the one that is later is overdue to the other. -/
theorem overdue_of_later {a b : Clock} (h0 : (a - b).toNat ≠ 0) (h1 : (a - b).toNat < 0x80000000) :
    overdue a b = true ∧ overdue b a = false := by
  have hne : a ≠ b := by
    rintro rfl
    exact h0 (by simp)
  have hback : 0x80000000 ≤ (b - a).toNat := by bv_omega
  have hab : (a - b).msb = false := by rw [BitVec.msb_eq_decide]; exact decide_eq_false (by omega)
  have hba : (b - a).msb = true := by rw [BitVec.msb_eq_decide]; exact decide_eq_true (by omega)
  unfold overdue reached
  rw [hab, hba]
  exact ⟨by simpa using hne, rfl⟩

/-- R56. The obligation's words for the entry that gives way: the greatest age count, of equal ones the one accepted earliest, of those
the one at the lowest position. -/
theorem oldest_of {s : State} {p : Fin 512} {e : Entry} (he : s.table[p] = some e) (hlearned : e.configured = false)
    (hgives : ∀ (q : Fin 512) (f : Entry), s.table[q] = some f → f.configured = false → q ≠ p →
      f.age.toNat < e.age.toNat
      ∨ (f.age = e.age ∧ ((f.lastAccept.getD 0 - e.lastAccept.getD 0).toNat ≠ 0
          ∧ (f.lastAccept.getD 0 - e.lastAccept.getD 0).toNat < 0x80000000))
      ∨ (f.age = e.age ∧ p.val < q.val ∧ f.lastAccept.getD 0 = e.lastAccept.getD 0)) : Oldest s p e := by
  refine ⟨he, hlearned, fun q f hf hc hlt => ?_, fun q f hf hc hne => ?_⟩
  · unfold Entry.olderThan
    rcases hgives q f hf hc (ne_of_lt hlt) with hage | ⟨hage, h0, h1⟩ | ⟨-, hpq, -⟩
    · rw [decide_eq_true hage, Bool.true_or]
    · obtain ⟨hlater, -⟩ := overdue_of_later h0 h1
      rw [hlater, hage]
      simp
    · exact absurd hlt (lt_asymm hpq)
  · unfold Entry.olderThan
    rcases hgives q f hf hc hne with hage | ⟨hage, h0, h1⟩ | ⟨hage, -, hsame⟩
    · have hne : (f.age == e.age) = false := beq_eq_false_iff_ne.2 fun h => by rw [h] at hage; omega
      rw [hne, decide_eq_false (by omega)]
      rfl
    · obtain ⟨-, hearlier⟩ := overdue_of_later h0 h1
      rw [hearlier, hage]
      simp
    · rw [hage, overdue, hsame]
      simp

end

/-! ## An arm that evicts -/

/-- R117. An arm that reaches Delivery changes its slot, and the claims of the journal, alone. -/
theorem armDelivery_slot (k : Fin 64) (c : SlotConfig) (s : State) :
    ∃ x cs, armDelivery k c s = s.withSlot k x cs ∧ x.state = .armed := by
  have h := armDelivery_withSlot s k s.subs[k] s.journal.claims c _ rfl
  rw [withSlot_self] at h
  refine ⟨_, _, h, ?_⟩
  unfold SubSlot.given
  split <;> rfl

/-- R43, R56. `t` is `s` once an arm has made `made` where the entry `e` at `p` gave way. -/
structure Evicted (s t : State) (p : Fin 512) (e made : Entry) : Prop where
  stands : t.table[p] = some { made with serial := s.serial + 1 }
  others : ∀ q : Fin 512, q ≠ p → t.table[q] = s.table[q]
  image : t.imageCounts[p] = s.imageCounts[p] + 2
  twins : t.twinClaims = s.twinClaims ++ [.abandon e.id e.serial]
  falls : t.loneChanges = s.loneChanges ++ removalFalls e

theorem Oldest.evicted {f : State → State} {s : State} {p : Fin 512} {e made : Entry} (h : Oldest s p e)
    (hfull : ∀ q : Fin 512, s.table[q].isSome = true) (ha : s.ageingDue = [])
    (htable : (f s).table = (makeEntry p made (Machine.makeRoom s)).table)
    (himage : (f s).imageCounts = (Machine.makeRoom s).imageCounts) (htwins : (f s).twinClaims = (Machine.makeRoom s).twinClaims)
    (hfalls : (f s).loneChanges = (Machine.makeRoom s).loneChanges) : Evicted s (asEngineClaim f s) p e made := by
  obtain ⟨hroom, -⟩ := h.makeRoom hfull ha
  rw [hroom] at htable himage htwins hfalls
  have hget (q : Fin 512) : (f s).table[q] = if p = q then some { made with serial := s.serial + 1 }
      else if p = q then none else s.table[q] := by
    rw [htable, makeEntry_get]
    exact congrArg _ (set_get ..)
  have hp := (hget p).trans (if_pos rfl)
  refine ⟨hp, fun q hq => ?_, asEngineClaim_remade ?_ (by rw [hp]; rfl), htwins, hfalls⟩
  · exact (hget q).trans ((if_neg hq.symm).trans (if_neg hq.symm))
  · rw [himage]
    exact modifyAt_get_self ..

section
variable {s : State} {p : Fin 512}

/-- R54. A LOCAL-HOST entry is made at the position that is free once there is room. -/
theorem makeHostEntry_room {k : Fin 32} {c : PubConfig} {epoch : Byte} (hl : s.lookup c.id = none)
    (hp : (makeRoom s).freePosition = some p) :
    makeHostEntry k c epoch s = some (makeEntry p ((makeRoom s).hostEntry k c epoch) (makeRoom s)) := by
  unfold makeHostEntry
  rw [hl]
  dsimp only
  rw [hp]

/-- R53, R56. The claim of an arm of subscription slot `k`, not ARMED, that evicts `e`. -/
theorem Oldest.subscription {e : Entry} {k : Fin 64} (h : Oldest s p e) (hfull : ∀ q : Fin 512, s.table[q].isSome = true)
    (ha : s.ageingDue = []) (hv : readWord s.mem (subBase k + 7) = 1) (hstate : s.subs[k].state ≠ .armed)
    (hb : badSlot s.mem k = none) (hl : s.lookup (readWord s.mem (subBase k)) = none) :
    ∃ t made, t = asEngineClaim (subscriptionClaim k) s ∧ Evicted s t p e made ∧ made.id = readWord s.mem (subBase k)
      ∧ made.configured = true ∧ made.origin = .remote ∧ made.fresh = some .awaiting ∧ t.subs[k].state = .armed := by
  obtain ⟨-, hp⟩ := h.makeRoom hfull ha
  have hdetach : detach k s = s := if_neg hstate
  obtain ⟨x, cs, hslot, harmed⟩ := armDelivery_slot k (readSlot s.mem k).config
    (makeEntry p ((Machine.makeRoom s).awaitingEntry k (readSlot s.mem k)) (Machine.makeRoom s))
  have hclaim : subscriptionClaim k s = _ :=
    (subscriptionClaim_good hv hb (by rw [hdetach])).trans (((congrArg _ hdetach).trans (attach_room hl hp)).trans hslot)
  refine ⟨_, _, rfl, h.evicted hfull ha (by rw [hclaim]; rfl) (by rw [hclaim]; rfl) (by rw [hclaim]; rfl) (by rw [hclaim]; rfl),
    rfl, rfl, rfl, rfl, ?_⟩
  rw [asEngineClaim_eq hclaim]
  exact (congrArg SubSlot.state (withSlot_sub _ k x cs)).trans harmed

/-- R54, R56. The claim of an arm of publication slot `k`, out of service, that evicts `e`. -/
theorem Oldest.publication {e : Entry} {k : Fin 32} (h : Oldest s p e) (hfull : ∀ q : Fin 512, s.table[q].isSome = true)
    (ha : s.ageingDue = []) (hv : readWord s.mem (pubBase k + 12) = 1) (hstate : s.pubs[k].state.armed = false)
    (hb : badPub s.mem k = none) (hl : s.lookup (readWord s.mem (pubBase k)) = none) :
    ∃ t made, t = asEngineClaim (publicationClaim k) s ∧ Evicted s t p e made ∧ made.id = readWord s.mem (pubBase k)
      ∧ made.configured = true ∧ made.origin = .localHost k ∧ t.pubs[k].state = .armedIdle
      ∧ t.postTrip = s.postTrip ∧ t.postOther = s.postOther := by
  obtain ⟨hroom, hp⟩ := h.makeRoom hfull ha
  have hclaim : publicationClaim k s = updatePub k (PubSlot.armedAt (readPub s.mem k))
      (makeEntry p ((Machine.makeRoom s).hostEntry k (readPub s.mem k) (s.pubs[k].armEpoch (readPub s.mem k)))
        (Machine.makeRoom s)) := by
    have hdrop : dropIfArmed k s = s := if_neg (by rw [hstate]; exact Bool.false_ne_true)
    rw [publicationClaim, if_pos hv, hdrop, armPub, hb]
    dsimp only
    rw [makeHostEntry_room hl hp]
  refine ⟨_, _, rfl, h.evicted hfull ha (by rw [hclaim]; rfl) (by rw [hclaim]; rfl) (by rw [hclaim]; rfl) (by rw [hclaim]; rfl),
    rfl, rfl, rfl, ?_⟩
  rw [asEngineClaim_eq hclaim, hroom]
  exact ⟨congrArg PubSlot.state (modifyAt_get_self ..), rfl, rfl⟩

end

/-- Settles O21: the entry that the statement describes is the `Oldest`, and the claims that evict it are `Oldest.subscription` and
`Oldest.publication`. -/
theorem armsEvictTheOldest : Obligations.ArmsEvictTheOldest := by
  intro s i id p e hwf hr ha htrip hother hlook hfull he hlearned hgives hi
  have hold := oldest_of he hlearned hgives
  obtain ⟨k, rfl, hslot, hb, rfl⟩ | ⟨k, rfl, hpub, hb, rfl⟩ := hi
  · have hexec := exec_subscriptionArm hr (v := 1) (k := k) ha
    obtain ⟨u, hu⟩ : ∃ u, u = { s with mem := writeWord s.mem (subBase k + 7) 1 } := ⟨_, rfl⟩
    have hold : Oldest u p e := by rw [hu]; exact ⟨hold.stands, hold.learned, hold.before, hold.after⟩
    obtain ⟨t, made, ht, hev, hid, hcfg, horigin, hfresh, hstate⟩ := hold.subscription (k := k) (by rw [hu]; exact hfull)
      (by rw [hu]; exact ha) (by rw [hu]; exact readWord_writeWord_self hwf ..) (by rw [hu]; exact hslot) (by rw [hu]; exact hb)
      (by rw [hu]; exact hlook)
    rw [← hu, ← ht] at hexec
    obtain ⟨hstands, hothers, himage, htwins, hfalls⟩ := hev
    rw [hu] at hstands hothers himage htwins hfalls hid
    refine ⟨t, _, hexec, hstands, hid, hcfg, rfl, ?_, ?_, hothers, himage, htwins, ?_⟩
    · rintro k ⟨⟩
      exact ⟨horigin, hfresh, hstate⟩
    · rintro k ⟨⟩
    · rw [List.append_assoc]
      exact hfalls
  · have hexec := exec_publicationArm hr (v := 1) (k := k) ha
    obtain ⟨u, hu⟩ : ∃ u, u = { s with mem := writeWord s.mem (pubBase k + 12) 1 } := ⟨_, rfl⟩
    have hold : Oldest u p e := by rw [hu]; exact ⟨hold.stands, hold.learned, hold.before, hold.after⟩
    obtain ⟨t, made, ht, hev, hid, hcfg, horigin, hstate, hquiet, hquiet'⟩ := hold.publication (k := k) (by rw [hu]; exact hfull)
      (by rw [hu]; exact ha) (by rw [hu]; exact readWord_writeWord_self hwf ..) (by rw [hu]; exact hpub) (by rw [hu]; exact hb)
      (by rw [hu]; exact hlook)
    rw [← hu, ← ht, runTakes_none (by rw [hquiet, hu]; exact htrip) (by rw [hquiet', hu]; exact hother)] at hexec
    obtain ⟨hstands, hothers, himage, htwins, hfalls⟩ := hev
    rw [hu] at hstands hothers himage htwins hfalls hid
    refine ⟨t, _, hexec, hstands, hid, hcfg, rfl, ?_, ?_, hothers, himage, htwins, ?_⟩
    · rintro k ⟨⟩
    · rintro k ⟨⟩
      exact ⟨horigin, hstate⟩
    · rw [List.append_assoc]
      exact hfalls

end Sys2Proof.Machine
end

section
/-! Publication arm words (O19). -/

namespace Sys2Proof.Machine

/-! ## A publication slot lets go (R132) -/

/-- R132. The slot of a publication that has been let go. -/
def PubSlot.dropped (p : PubSlot) : PubSlot := { p with buffer := none, refreshAt := none, config := none, interval := 0 }

/-- R132. The scheduler's part of the drop of slot `k`. -/
def State.pubDropped (s : State) (k : Fin 32) : State :=
  { s with calendar := s.calendar.filter (fun c => c.slot != k)
           take := s.take.filter (fun x => x.slot != k)
           postTrip := s.postTrip.filter (fun p => p.slot != k)
           postOther := s.postOther.filter (fun p => p.slot != k)
           pubs := modifyAt s.pubs k PubSlot.dropped }

theorem dropPub_eq (k : Fin 32) (s : State) : dropPub k s = removeHostEntry k (s.pubDropped k) := by
  have htake : (match s.take with | some x => if x.slot = k then none else some x | none => none)
      = s.take.filter (fun x => x.slot != k) := by
    cases s.take with
    | none => rfl
    | some x => by_cases hx : x.slot = k <;> simp [Option.filter, hx]
  unfold dropPub State.pubDropped uncalendar
  rw [← htake]
  rfl

/-- R54, R57. The removal of the entry of publication slot `k`, if it has one. -/
theorem removeHostEntry_cases {s : State} (k : Fin 32) (ha : s.ageingDue = []) :
    (∃ (p : Fin 512) (e : Entry), s.table[p] = some e ∧ e.origin = .localHost k
      ∧ removeHostEntry k s = s.withTable (s.table.set p none) (modifyAt s.imageCounts p (· + 1)) (removalFalls e)
          [.abandon e.id e.serial])
    ∨ ((∀ (p : Fin 512) (e : Entry), s.table[p] = some e → e.origin ≠ .localHost k) ∧ removeHostEntry k s = s) := by
  unfold removeHostEntry
  split
  · next p hp =>
    have hholds := findAt?_holds _ _ _ hp
    rcases he : s.table[p] with _ | e
    · rw [he] at hholds
      cases hholds
    · rw [he] at hholds
      exact .inl ⟨p, e, he, beq_iff_eq.1 hholds, removeEntry_eq he ha⟩
  · next hnone =>
    refine .inr ⟨fun p e he ho => ?_, rfl⟩
    have hmiss := findAt?_none hnone p
    rw [he] at hmiss
    exact beq_eq_false_iff_ne.1 hmiss ho

/-- R132. `t` is `s` once publication slot `k` has been let go: the entries of other origins stand, and the slot's own, where that is the
only one, is removed. -/
structure PubLeft (s t : State) (k : Fin 32) : Prop where
  pubs : t.pubs = modifyAt s.pubs k PubSlot.dropped
  calendar : t.calendar = s.calendar.filter (fun c => c.slot != k)
  take : t.take = s.take.filter (fun x => x.slot != k)
  trip : t.postTrip = s.postTrip.filter (fun p => p.slot != k)
  other : t.postOther = s.postOther.filter (fun p => p.slot != k)
  kept : t.mem = s.mem ∧ t.journal = s.journal ∧ t.clock = s.clock ∧ t.serial = s.serial ∧ t.inputs = s.inputs
  strangers : ∀ (q : Fin 512) (f : Entry), s.table[q] = some f → f.origin ≠ .localHost k → t.table[q] = some f
  own : ∀ (p : Fin 512) (e : Entry), s.table[p] = some e → e.origin = .localHost k →
    (∀ (q : Fin 512) (f : Entry), s.table[q] = some f → f.origin = .localHost k → q = p) →
    t.table = s.table.set p none ∧ t.twinClaims = s.twinClaims ++ [.abandon e.id e.serial]

theorem dropPub_left (k : Fin 32) {s : State} (ha : s.ageingDue = []) : PubLeft s (dropPub k s) k := by
  rw [dropPub_eq]
  obtain ⟨p, e, he, ho, hremoved⟩ | ⟨hnone, hsame⟩ := removeHostEntry_cases (s := s.pubDropped k) k ha
  · rw [hremoved]
    refine ⟨rfl, rfl, rfl, rfl, rfl, ⟨rfl, rfl, rfl, rfl, rfl⟩, fun q f hf hfo => ?_, fun q f hf hfo halone => ?_⟩
    · refine (set_get s.table p q none).trans ((if_neg ?_).trans hf)
      rintro rfl
      cases he.symm.trans hf
      exact hfo ho
    · obtain rfl := halone p e he ho
      cases he.symm.trans hf
      exact ⟨rfl, rfl⟩
  · rw [hsame]
    exact ⟨rfl, rfl, rfl, rfl, rfl, ⟨rfl, rfl, rfl, rfl, rfl⟩, fun q f hf _ => hf,
      fun p e he ho _ => absurd ho (hnone p e he)⟩

section
variable {s : State} {k : Fin 32}

theorem dropIfArmed_armed (h : s.pubs[k].state.armed = true) : dropIfArmed k s = dropPub k s := if_pos h

theorem dropIfArmed_idle (h : s.pubs[k].state.armed = false) : dropIfArmed k s = s :=
  if_neg (by rw [h]; exact Bool.false_ne_true)

theorem dropIfArmed_mem : (dropIfArmed k s).mem = s.mem := by
  unfold dropIfArmed dropPub
  split
  · simp
  · rfl

/-! ## The claim of an arm word (R129) -/

/-- R129, R132. A refusal, judged against what is left once an armed slot has been let go. -/
theorem publicationClaim_refuses {reason : Reason} {detail : Word} (h : PubRefused (dropIfArmed k s) k reason detail) :
    publicationClaim k s = refusePub k reason detail (dropIfArmed k s) := by
  unfold PubRefused at h
  rw [dropIfArmed_mem] at h
  rw [publicationClaim]
  obtain ⟨hv, off, hb, rfl, rfl⟩ | ⟨hv, hb, hl, rfl, rfl⟩ | ⟨h0, h1, rfl, rfl⟩ := h
  · rw [if_pos hv, armPub, dropIfArmed_mem, hb]
  · rw [if_pos hv, armPub, dropIfArmed_mem, hb]
    dsimp only
    rw [makeHostEntry_clash hl]
  · rw [if_neg h1, if_neg h0]

/-- R130. A good arm, with a position free once an armed slot has been let go. -/
theorem publicationClaim_arms {q : Fin 512} (hv : readWord s.mem (pubBase k + 12) = 1) (hb : badPub s.mem k = none)
    (hl : (dropIfArmed k s).lookup (readWord s.mem (pubBase k)) = none) (hq : (dropIfArmed k s).freePosition = some q) :
    publicationClaim k s = updatePub k (PubSlot.armedAt (readPub s.mem k))
      (makeEntry q ((dropIfArmed k s).hostEntry k (readPub s.mem k) ((dropIfArmed k s).pubs[k].armEpoch (readPub s.mem k)))
        (dropIfArmed k s)) := by
  rw [publicationClaim, if_pos hv, armPub, dropIfArmed_mem, hb]
  dsimp only
  rw [makeHostEntry_free hl hq]

theorem publicationClaim_disarms (hv : readWord s.mem (pubBase k + 12) = 0) (h : s.pubs[k].state ≠ .disarmed) :
    publicationClaim k s
      = updatePub k (fun p => { p with state := .disarmed, reason := .none, detail := 0 }) (dropIfArmed k s) := by
  rw [publicationClaim, if_neg (by rw [hv]; decide), if_pos hv, if_neg h]

end

/-! ## What a claim leaves alone -/

/-- R129. `t` is `s` but for slot `k`, the memory and the contact inputs kept. -/
def Aside (k : Fin 32) (s t : State) : Prop :=
  t.mem = s.mem ∧ t.inputs = s.inputs ∧ ∀ j : Fin 32, j ≠ k → t.pubs[j] = s.pubs[j]

section
variable {k : Fin 32}

theorem Aside.trans {s t u : State} (h : Aside k s t) (g : Aside k t u) : Aside k s u := by
  obtain ⟨hmem, hinputs, hpubs⟩ := h
  obtain ⟨gmem, ginputs, gpubs⟩ := g
  exact ⟨gmem.trans hmem, ginputs.trans hinputs, fun j hj => (gpubs j hj).trans (hpubs j hj)⟩

theorem updatePub_aside (k : Fin 32) (f : PubSlot → PubSlot) (s : State) : Aside k s (updatePub k f s) :=
  ⟨rfl, rfl, fun _ hj => modifyAt_get_ne _ _ _ _ hj.symm⟩

theorem refusePub_aside (k : Fin 32) (r : Reason) (d : Word) (s : State) : Aside k s (refusePub k r d s) :=
  ⟨rfl, rfl, fun _ hj => modifyAt_get_ne _ _ _ _ hj.symm⟩

theorem dropIfArmed_aside (k : Fin 32) (s : State) : Aside k s (dropIfArmed k s) := by
  unfold dropIfArmed
  split
  · rw [dropPub_eq]
    refine ⟨by simp [State.pubDropped], by simp [State.pubDropped], fun j hj => ?_⟩
    rw [show (removeHostEntry k (s.pubDropped k)).pubs = (s.pubDropped k).pubs by simp]
    exact modifyAt_get_ne s.pubs k j PubSlot.dropped hj.symm
  · exact ⟨rfl, rfl, fun j _ => rfl⟩

theorem makeHostEntry_aside {c : PubConfig} {epoch : Byte} {s t : State} (h : makeHostEntry k c epoch s = some t) :
    Aside k s t := by
  unfold makeHostEntry at h
  split at h
  · cases h
  · dsimp only at h
    split at h
    · cases h
      refine ⟨?_, ?_, fun j _ => ?_⟩ <;> simp
    · cases h

theorem armPub_aside (k : Fin 32) (s : State) : Aside k s (armPub k s) := by
  unfold armPub
  split
  · exact refusePub_aside ..
  · dsimp only
    split
    · next t h => exact (makeHostEntry_aside h).trans (updatePub_aside ..)
    · exact refusePub_aside ..

theorem publicationClaim_aside (k : Fin 32) (s : State) : Aside k s (publicationClaim k s) := by
  unfold publicationClaim
  dsimp only
  split
  · exact (dropIfArmed_aside k s).trans (armPub_aside k _)
  · split
    · split
      · exact ⟨rfl, rfl, fun j _ => rfl⟩
      · exact (dropIfArmed_aside k s).trans (updatePub_aside ..)
    · exact (dropIfArmed_aside k s).trans (refusePub_aside ..)

end

/-! ## The claim and the post set (R134) -/

section
variable {s : State} {k : Fin 32} {trip other : List Post}

theorem removeEntry_withPosts (p : Fin 512) :
    removeEntry p (s.withPosts trip other) = (removeEntry p s).withPosts trip other := by
  unfold removeEntry
  rw [show (s.withPosts trip other).table = s.table from rfl]
  cases s.table[p] <;> rfl

theorem removeHostEntry_withPosts :
    removeHostEntry k (s.withPosts trip other) = (removeHostEntry k s).withPosts trip other := by
  unfold removeHostEntry
  rw [show (s.withPosts trip other).table = s.table from rfl]
  split
  · exact removeEntry_withPosts _
  · rfl

theorem dropPub_withPosts : dropPub k (s.withPosts trip other)
    = (dropPub k s).withPosts (trip.filter (fun p => p.slot != k)) (other.filter (fun p => p.slot != k)) := by
  rw [dropPub_eq, dropPub_eq, ← removeHostEntry_withPosts]
  rfl

theorem makeRoom_withPosts : makeRoom (s.withPosts trip other) = (makeRoom s).withPosts trip other := by
  unfold makeRoom
  rw [show (s.withPosts trip other).freePosition = s.freePosition from rfl,
    show (s.withPosts trip other).victim = s.victim from rfl]
  split
  · rfl
  · cases s.victim with
    | none => rfl
    | some x => exact removeEntry_withPosts x.1

theorem makeHostEntry_withPosts (c : PubConfig) (epoch : Byte) :
    makeHostEntry k c epoch (s.withPosts trip other) = (makeHostEntry k c epoch s).map (·.withPosts trip other) := by
  unfold makeHostEntry
  rw [show (s.withPosts trip other).lookup c.id = s.lookup c.id from rfl, makeRoom_withPosts]
  cases s.lookup c.id with
  | some x => rfl
  | none =>
    dsimp only
    rw [show ((makeRoom s).withPosts trip other).freePosition = (makeRoom s).freePosition from rfl]
    cases (makeRoom s).freePosition <;> rfl

theorem armPub_withPosts : armPub k (s.withPosts trip other) = (armPub k s).withPosts trip other := by
  unfold armPub
  rw [show (s.withPosts trip other).mem = s.mem from rfl]
  cases badPub s.mem k with
  | some off => rfl
  | none =>
    dsimp only
    rw [show (s.withPosts trip other).pubs = s.pubs from rfl, makeHostEntry_withPosts]
    cases makeHostEntry k (readPub s.mem k) (s.pubs[k].armEpoch (readPub s.mem k)) s <;> rfl

/-- R132. The claim on an armed slot takes its place from the post set, and does not otherwise depend on the set. -/
theorem publicationClaim_withPosts (harmed : s.pubs[k].state.armed = true) : publicationClaim k (s.withPosts trip other)
    = (publicationClaim k s).withPosts (trip.filter (fun p => p.slot != k)) (other.filter (fun p => p.slot != k)) := by
  have hdrop : dropIfArmed k (s.withPosts trip other)
      = (dropIfArmed k s).withPosts (trip.filter (fun p => p.slot != k)) (other.filter (fun p => p.slot != k)) := by
    rw [dropIfArmed_armed harmed, dropIfArmed_armed (s := s.withPosts trip other) harmed, dropPub_withPosts]
  have hstate : s.pubs[k].state ≠ .disarmed := by
    intro h
    rw [h] at harmed
    cases harmed
  unfold publicationClaim
  rw [show (s.withPosts trip other).mem = s.mem from rfl, show (s.withPosts trip other).pubs = s.pubs from rfl, hdrop,
    if_neg hstate, armPub_withPosts]
  dsimp only
  split
  · rfl
  · split <;> rfl

end

/-! ## What an arm word leaves (R129, R132) -/

/-- R132. `t` is `s` once publication slot `k`, which was armed, has been let go, and is then `x`. -/
structure PubSettled (s t : State) (k : Fin 32) (x : PubSlot) : Prop where
  slot : t.pubs[k] = x
  others : ∀ j : Fin 32, j ≠ k → t.pubs[j] = s.pubs[j]
  calendar : t.calendar = s.calendar.filter (fun d => d.slot != k)
  take : t.take = s.take.filter (fun x => x.slot != k)
  posts : t.postTrip = s.postTrip.filter (fun p => p.slot != k) ∧ t.postOther = s.postOther.filter (fun p => p.slot != k)

theorem tableSound_host {s : State} (hs : TableSound s) {k : Fin 32} {p : Fin 512} {e : Entry} (he : s.table[p] = some e)
    (ho : e.origin = .localHost k) (q : Fin 512) (f : Entry) (hf : s.table[q] = some f) (hfo : f.origin = .localHost k) : q = p := by
  obtain ⟨-, -, hunique⟩ := hs p e he
  exact (hunique q f hf (.inr (.inr ⟨k, ho, hfo⟩))).symm

section
variable {s b : State} {k : Fin 32} {g : PubSlot → PubSlot} {j : Journal}

/-- R132. A claim that lets the slot go and then updates it by `g`. -/
theorem PubLeft.settled {f : State → State} (h : PubLeft s b k)
    (hf : (f s).pubs = (updatePub k g b).pubs ∧ (f s).calendar = b.calendar ∧ (f s).take = b.take
      ∧ (f s).postTrip = b.postTrip ∧ (f s).postOther = b.postOther) :
    PubSettled s (asEngineClaim f s) k { g s.pubs[k].dropped with count := s.pubs[k].count + 1 } := by
  obtain ⟨hpubs, hcalendar, htake, htrip, hother⟩ := hf
  have hget (i : Fin 32) : (f s).pubs[i] = if k = i then { g b.pubs[k] with count := b.pubs[k].count + 1 } else b.pubs[i] := by
    rw [hpubs]
    exact modifyAt_get ..
  have hdropped : b.pubs[k] = s.pubs[k].dropped := by
    rw [h.pubs]
    exact modifyAt_get_self ..
  refine ⟨?_, fun i hi => ?_, hcalendar.trans h.calendar, htake.trans h.take, ⟨htrip.trans h.trip, hother.trans h.other⟩⟩
  · refine (hget k).trans ((if_pos rfl).trans ?_)
    rw [hdropped]
    rfl
  · refine (hget i).trans ((if_neg hi.symm).trans ?_)
    rw [h.pubs]
    exact modifyAt_get_ne _ _ _ _ hi.symm

variable (ha : s.ageingDue = []) (harmed : s.pubs[k].state.armed = true)
include ha harmed

/-- R132. With 0, an armed slot is let go, and DISARMED. -/
theorem publication_disarmed (hv : readWord s.mem (pubBase k + 12) = 0) :
    ∃ t, t = asEngineClaim (publicationClaim k) s
      ∧ PubSettled s t k { s.pubs[k].dropped with state := .disarmed, reason := .none, detail := 0, count := s.pubs[k].count + 1 }
      ∧ t.journal = s.journal ∧ t.table = (dropPub k s).table ∧ t.twinClaims = (dropPub k s).twinClaims := by
  have hleft := dropPub_left k ha
  have hstate : s.pubs[k].state ≠ .disarmed := by
    intro h
    rw [h] at harmed
    cases harmed
  have hclaim := publicationClaim_disarms hv hstate
  rw [dropIfArmed_armed harmed] at hclaim
  refine ⟨_, rfl, hleft.settled (g := fun p => { p with state := .disarmed, reason := .none, detail := 0 }) ?_, ?_⟩
  · rw [hclaim]
    exact ⟨rfl, rfl, rfl, rfl, rfl⟩
  · obtain ⟨-, hjournal, -⟩ := hleft.kept
    rw [asEngineClaim_eq hclaim]
    exact ⟨hjournal, rfl, rfl⟩

/-- R129, R132. An arm word that is refused lets an armed slot go, and ARM-REFUSED is claimed. -/
theorem publication_refused {reason : Reason} {detail : Word} (h : PubRefused (dropPub k s) k reason detail) :
    ∃ t, t = asEngineClaim (publicationClaim k) s
      ∧ PubSettled s t k
          { s.pubs[k].dropped with state := .refused, reason := reason, detail := detail, count := s.pubs[k].count + 1 }
      ∧ t.journal = { s.journal with claims := s.journal.claims ++
          [{ kind := .armRefused, subject := .publication k, time := s.clock, d1 := reasonCode reason
             d2 := readWord s.mem (pubBase k), d3 := detail }] }
      ∧ t.table = (dropPub k s).table ∧ t.twinClaims = (dropPub k s).twinClaims := by
  have hleft := dropPub_left k ha
  have hdrop := dropIfArmed_armed harmed
  have hclaim := publicationClaim_refuses (s := s) (by rw [hdrop]; exact h)
  rw [hdrop] at hclaim
  refine ⟨_, rfl, hleft.settled (g := fun p => { p with state := .refused, reason := reason, detail := detail }) ?_, ?_⟩
  · rw [hclaim]
    exact ⟨rfl, rfl, rfl, rfl, rfl⟩
  · obtain ⟨hmem, hjournal, hclock, -⟩ := hleft.kept
    rw [asEngineClaim_eq hclaim]
    refine ⟨?_, rfl, rfl⟩
    rw [← hmem, ← hjournal, ← hclock]
    rfl

/-- R129, R132. An armed slot armed again, for a stream that has no entry once its own is gone: its new entry is made at `q`. -/
theorem publication_rearmed {q : Fin 512} (hv : readWord s.mem (pubBase k + 12) = 1) (hb : badPub s.mem k = none)
    (hl : (dropPub k s).lookup (readWord s.mem (pubBase k)) = none) (hq : (dropPub k s).freePosition = some q) :
    ∃ t e, t = asEngineClaim (publicationClaim k) s
      ∧ PubSettled s t k { s.pubs[k].armedAt (readPub s.mem k) with count := s.pubs[k].count + 1 }
      ∧ t.journal = s.journal ∧ t.twinClaims = (dropPub k s).twinClaims ∧ t.table = (dropPub k s).table.set q (some e)
      ∧ e.id = readWord s.mem (pubBase k) ∧ e.origin = .localHost k ∧ e.sendNext = 0 ∧ e.serial = s.serial + 1 := by
  have hleft := dropPub_left k ha
  have hdrop := dropIfArmed_armed harmed
  have hclaim := publicationClaim_arms (s := s) (q := q) hv hb (by rw [hdrop]; exact hl) (by rw [hdrop]; exact hq)
  rw [hdrop] at hclaim
  obtain ⟨-, hjournal, -, hserial, -⟩ := hleft.kept
  refine ⟨_, { (dropPub k s).hostEntry k (readPub s.mem k) ((dropPub k s).pubs[k].armEpoch (readPub s.mem k)) with
      serial := (dropPub k s).serial + 1 },
    rfl, hleft.settled (g := PubSlot.armedAt (readPub s.mem k)) ?_, ?_⟩
  · rw [hclaim]
    exact ⟨rfl, rfl, rfl, rfl, rfl⟩
  · rw [asEngineClaim_eq hclaim, ← hserial]
    exact ⟨hjournal, rfl, rfl, rfl, rfl, rfl, rfl⟩

end

/-- R129, R130. A slot out of service armed for a stream without an entry, with the position `q` free. -/
theorem publication_armed {s : State} {k : Fin 32} {q : Fin 512} (hidle : s.pubs[k].state.armed = false)
    (hv : readWord s.mem (pubBase k + 12) = 1) (hb : badPub s.mem k = none) (hl : s.lookup (readWord s.mem (pubBase k)) = none)
    (hq : s.freePosition = some q) :
    ∃ t e, t = asEngineClaim (publicationClaim k) s
      ∧ t = { s with pubs := modifyAt s.pubs k (fun p => { p.armedAt (readPub s.mem k) with count := p.count + 1 })
                     table := s.table.set q (some e), imageCounts := t.imageCounts, serial := s.serial + 1 }
      ∧ e.id = readWord s.mem (pubBase k) ∧ e.origin = .localHost k ∧ e.configured = true
      ∧ e.sendEpoch = s.pubs[k].armEpoch (readPub s.mem k) ∧ e.sendNext = 0 ∧ e.serial = s.serial + 1 := by
  have hdrop := dropIfArmed_idle hidle
  have hclaim := publicationClaim_arms (s := s) (q := q) hv hb (by rw [hdrop]; exact hl) (by rw [hdrop]; exact hq)
  rw [hdrop] at hclaim
  exact ⟨_, _, rfl, asEngineClaim_eq hclaim, rfl, rfl, rfl, rfl, rfl, rfl⟩

/-! ## A table from which one entry has gone -/

section
variable {s b : State} {p : Fin 512} {e : Entry}

/-- R42. Once the entry at `p` is removed, the lowest free position is `p` or was free before, and those below it are taken. -/
theorem freePosition_removed (hb : b.table = s.table.set p none) :
    ∃ q, b.freePosition = some q ∧ (q = p ∨ s.table[q] = none) ∧ ∀ r : Fin 512, r < q → r ≠ p ∧ s.table[r].isSome = true := by
  have hget (r : Fin 512) : b.table[r] = if p = r then none else s.table[r] := by rw [hb, set_get]
  cases hq : b.freePosition with
  | none => exact absurd ((hget p).trans (if_pos rfl)) (Option.isSome_iff_ne_none.1 (freePosition_none hq p))
  | some q =>
    obtain ⟨hnone, hbelow⟩ := (freePosition_iff b q).1 hq
    refine ⟨q, rfl, ?_, fun r hr => ?_⟩
    · rw [hget] at hnone
      by_cases hpq : p = q
      · exact .inl hpq.symm
      · exact .inr (by rwa [if_neg hpq] at hnone)
    · have hr := hbelow r hr
      rw [hget] at hr
      by_cases hpr : p = r
      · rw [if_pos hpr] at hr
        cases hr
      · exact ⟨Ne.symm hpr, by rwa [if_neg hpr] at hr⟩

/-- R42. The stream of the entry removed, and any that had none, has no entry left. -/
theorem lookup_removed {id : Word} (hs : TableSound s) (hb : b.table = s.table.set p none) (he : s.table[p] = some e)
    (h : e.id = id ∨ s.lookup id = none) : b.lookup id = none := by
  refine (lookup_none_iff b id).2 fun q f hf hid => ?_
  rw [hb, set_get] at hf
  by_cases hpq : p = q
  · rw [if_pos hpq] at hf
    cases hf
  · rw [if_neg hpq] at hf
    rcases h with h | h
    · exact hpq (tableSound_id hs he hf (h.trans hid.symm))
    · exact lookup_none h q f hf hid

end

/-! ## The step and the post set -/

/-- R132, R134. An arm word of an armed slot with slots posted: once the slot has lost its place, the next take begins if none is in
progress. -/
theorem exec_publicationArm_posted {s r : State} {k : Fin 32} {v : Word} {m : List Host.Cell} {trip other : List Post}
    (hm : m = writeWord s.mem (pubBase k + 12) v) (hr : s.partState = .running) (ha : s.ageingDue = [])
    (harmed : s.pubs[k].state.armed = true)
    (hclaim : r = asEngineClaim (publicationClaim k) { s with mem := m }) :
    exec (.publicationArm k v) { s with postTrip := trip, postOther := other }
      = .next (runTakes (r.withPosts (trip.filter (fun p => p.slot != k)) (other.filter (fun p => p.slot != k)))) := by
  have hposts : asEngineClaim (publicationClaim k) ({ s with mem := m }.withPosts trip other)
      = r.withPosts (trip.filter (fun p => p.slot != k)) (other.filter (fun p => p.slot != k)) := by
    have hcommute := publicationClaim_withPosts (s := { s with mem := m }) (trip := trip) (other := other) harmed
    rw [asEngineClaim, hcommute, hclaim]
    rfl
  rw [← hposts, hm]
  exact exec_publicationArm (s := { s with postTrip := trip, postOther := other }) hr ha

/-- R134. The take that begins with `p` at the head of the post set; that of a CONTACT-SNAPSHOT slot completes at once. -/
theorem runTakes_posted {r x : State} {p : Post} {trip other restTrip restOther : List Post} {c : PubConfig} (h : r.take = none)
    (hp : (trip = p :: restTrip ∧ restOther = other) ∨ (trip = [] ∧ restTrip = [] ∧ other = p :: restOther))
    (hc : r.pubs[p.slot].config = some c)
    (hx : x = { r with
      postTrip := restTrip, postOther := restOther
      take := some { slot := p.slot, poster := p.poster, edition := readWord r.mem (pubBase p.slot + 11)
                     staged := if c.snapshot then contactSnapshot r.inputs else readStaged r.mem p.slot } }) :
    Host.Outcome.next (runTakes (r.withPosts trip other)) = if c.snapshot then exec .takeComplete x else .next x := by
  rw [runTakes_next (s := r.withPosts trip other) h hp hc]
  cases hsnap : c.snapshot with
  | true =>
    have htake : x.take = some { slot := p.slot, poster := p.poster, edition := readWord r.mem (pubBase p.slot + 11)
                                 staged := contactSnapshot r.inputs } := by
      rw [hx, hsnap]
      rfl
    have hidle : { x with take := none } = { r with postTrip := restTrip, postOther := restOther } := by
      rw [hx, ← h]
    rw [if_pos rfl, exec_takeComplete htake, hidle]
    rfl
  | false =>
    rw [hx, hsnap]
    rfl

/-! ## The obligation, clause by clause -/

/-- What O19 supposes: `m` is the memory once `v` is written to the arm word of slot `k` in RUNNING, with nothing posted and no removal
due. -/
structure ArmWrite (s : State) (k : Fin 32) (v : Word) (m : List Host.Cell) : Prop where
  stored : m = writeWord s.mem (pubBase k + 12) v
  reads : readWord m (pubBase k + 12) = v
  running : s.partState = .running
  trip : s.postTrip = []
  other : s.postOther = []
  ageing : s.ageingDue = []

section
variable {s : State} {k : Fin 32} {v : Word} {m : List Host.Cell} (h : ArmWrite s k v m)
include h

/-- R129. The step is the claim alone, where the claim leaves nothing posted. -/
theorem ArmWrite.quiet {t : State} (ht : t = asEngineClaim (publicationClaim k) { s with mem := m }) (htrip : t.postTrip = [])
    (hother : t.postOther = []) : exec (.publicationArm k v) s = .next t := by
  rw [exec_publicationArm h.running h.ageing, ← h.stored, ← ht, runTakes_none htrip hother]

/-- R129. The step of a claim that leaves the table alone. -/
theorem ArmWrite.same {t : State} (hclaim : publicationClaim k { s with mem := m } = t)
    (ht : t.table = s.table ∧ t.imageCounts = s.imageCounts ∧ t.postTrip = s.postTrip ∧ t.postOther = s.postOther) :
    exec (.publicationArm k v) s = .next t := by
  obtain ⟨htable, himages, htrip, hother⟩ := ht
  refine h.quiet ?_ (htrip.trans h.trip) (hother.trans h.other)
  rw [asEngineClaim_same _ _ (by rw [hclaim]; exact htable) (by rw [hclaim]; exact himages), hclaim]

/-- R129, R132. The step of an arm word that lets an armed slot go. -/
theorem ArmWrite.settled {t : State} {x : PubSlot} (ht : t = asEngineClaim (publicationClaim k) { s with mem := m })
    (hset : PubSettled { s with mem := m } t k x) :
    exec (.publicationArm k v) s = .next t ∧ t.pubs[k] = x ∧ (∀ j : Fin 32, j ≠ k → t.pubs[j] = s.pubs[j])
      ∧ t.calendar = s.calendar.filter (fun d => d.slot != k) ∧ t.take = s.take.filter (fun x => x.slot != k) := by
  obtain ⟨hslot, hothers, hcalendar, htake, htrip, hother⟩ := hset
  refine ⟨h.quiet ht ?_ ?_, hslot, hothers, hcalendar, htake⟩
  · rw [htrip, h.trip]
    rfl
  · rw [hother, h.other]
    rfl

/-- R54, R57. The entry of an armed slot is removed when the slot is let go. -/
theorem ArmWrite.own {p : Fin 512} {e : Entry} (hs : TableSound s) (he : s.table[p] = some e) (ho : e.origin = .localHost k) :
    (dropPub k { s with mem := m }).table = s.table.set p none
      ∧ (dropPub k { s with mem := m }).twinClaims = s.twinClaims ++ [.abandon e.id e.serial] :=
  (dropPub_left k (s := { s with mem := m }) h.ageing).own p e he ho (tableSound_host hs he ho)

/-- R129. The refusal of an arm of a slot out of service. -/
theorem ArmWrite.refused {reason : Reason} {detail : Word} (hidle : s.pubs[k].state.armed = false)
    (href : PubRefused { s with mem := m } k reason detail) : exec (.publicationArm k v) s = .next
      { s with
        mem := m
        pubs := modifyAt s.pubs k (fun p => { p with state := .refused, reason := reason, detail := detail, count := p.count + 1 })
        journal := { s.journal with claims := s.journal.claims ++
          [{ kind := .armRefused, subject := .publication k, time := s.clock, d1 := reasonCode reason
             d2 := readWord m (pubBase k), d3 := detail }] } } := by
  have hdrop : dropIfArmed k { s with mem := m } = { s with mem := m } := dropIfArmed_idle hidle
  have hclaim := publicationClaim_refuses (s := { s with mem := m }) (by rw [hdrop]; exact href)
  rw [hdrop] at hclaim
  exact h.same hclaim ⟨rfl, rfl, rfl, rfl⟩

/-- R129, R132. The refusal of an arm of an armed slot: what the slot had is dropped. -/
theorem ArmWrite.refused_armed {reason : Reason} {detail : Word} (harmed : s.pubs[k].state.armed = true)
    (hwhy : (v = 1 ∧ ∃ off, badPub m k = some off ∧ reason = .badSetting ∧ detail = BitVec.ofNat 16 off)
      ∨ (v = 1 ∧ badPub m k = none ∧ reason = .originClash ∧ detail = 0 ∧ ∃ (q : Fin 512) (f : Entry),
          s.table[q] = some f ∧ f.id = readWord m (pubBase k) ∧ f.origin ≠ .localHost k)
      ∨ (v ≠ 0 ∧ v ≠ 1 ∧ reason = .badArmCode ∧ detail = v)) :
    ∃ t, exec (.publicationArm k v) s = .next t
      ∧ t.pubs[k] = { s.pubs[k].dropped with state := .refused, reason := reason, detail := detail, count := s.pubs[k].count + 1 }
      ∧ (∀ j : Fin 32, j ≠ k → t.pubs[j] = s.pubs[j])
      ∧ t.calendar = s.calendar.filter (fun d => d.slot != k) ∧ t.take = s.take.filter (fun x => x.slot != k)
      ∧ t.journal = { s.journal with claims := s.journal.claims ++
          [{ kind := .armRefused, subject := .publication k, time := s.clock, d1 := reasonCode reason
             d2 := readWord m (pubBase k), d3 := detail }] }
      ∧ ∀ (p : Fin 512) (e : Entry), TableSound s → s.table[p] = some e → e.origin = .localHost k →
        t.table = s.table.set p none ∧ t.twinClaims = s.twinClaims ++ [.abandon e.id e.serial] := by
  have hleft := dropPub_left k (s := { s with mem := m }) h.ageing
  obtain ⟨hkept, -⟩ := hleft.kept
  have href : PubRefused (dropPub k { s with mem := m }) k reason detail := by
    unfold PubRefused
    rw [hkept, h.reads]
    refine hwhy.imp id (Or.imp ?_ id)
    rintro ⟨hone, hb, hclash, hzero, q, f, hf, hid, ho⟩
    refine ⟨hone, hb, ?_, hclash, hzero⟩
    by_contra hnone
    exact lookup_none (Option.not_isSome_iff_eq_none.1 hnone) q f (hleft.strangers q f hf ho) hid
  obtain ⟨t, ht, hset, hjournal, htable, htwins⟩ := publication_refused (s := { s with mem := m }) h.ageing harmed href
  obtain ⟨hexec, hslot, hothers, hcalendar, htake⟩ := h.settled ht hset
  refine ⟨t, hexec, hslot, hothers, hcalendar, htake, hjournal, fun p e hs he ho => ?_⟩
  obtain ⟨hgone, habandoned⟩ := h.own hs he ho
  exact ⟨htable.trans hgone, htwins.trans habandoned⟩

/-- R129, R132. The disarm of an armed slot. -/
theorem ArmWrite.disarmed (hzero : v = 0) (harmed : s.pubs[k].state.armed = true) :
    ∃ t, exec (.publicationArm k v) s = .next t
      ∧ t.pubs[k] = { s.pubs[k].dropped with state := .disarmed, reason := .none, detail := 0, count := s.pubs[k].count + 1 }
      ∧ (∀ j : Fin 32, j ≠ k → t.pubs[j] = s.pubs[j])
      ∧ t.calendar = s.calendar.filter (fun d => d.slot != k) ∧ t.take = s.take.filter (fun x => x.slot != k)
      ∧ t.journal = s.journal
      ∧ ∀ (p : Fin 512) (e : Entry), TableSound s → s.table[p] = some e → e.origin = .localHost k →
        t.table = s.table.set p none ∧ t.twinClaims = s.twinClaims ++ [.abandon e.id e.serial] := by
  obtain ⟨t, ht, hset, hjournal, htable, htwins⟩ :=
    publication_disarmed (s := { s with mem := m }) h.ageing harmed (h.reads.trans hzero)
  obtain ⟨hexec, hslot, hothers, hcalendar, htake⟩ := h.settled ht hset
  refine ⟨t, hexec, hslot, hothers, hcalendar, htake, hjournal, fun p e hs he ho => ?_⟩
  obtain ⟨hgone, habandoned⟩ := h.own hs he ho
  exact ⟨htable.trans hgone, htwins.trans habandoned⟩

/-- R129, R132, R134. What an arm word of an armed slot does with slots posted. -/
theorem ArmWrite.posted {r : State} {trip other trip' other' : List Post} (harmed : s.pubs[k].state.armed = true)
    (hr : exec (.publicationArm k v) s = .next r) (htrip : trip = trip'.filter (fun p => p.slot != k))
    (hother : other = other'.filter (fun p => p.slot != k)) :
    exec (.publicationArm k v) { s with postTrip := trip', postOther := other' } = .next (runTakes (r.withPosts trip other))
      ∧ r.mem = m ∧ r.inputs = s.inputs ∧ ∀ j : Fin 32, j ≠ k → r.pubs[j] = s.pubs[j] := by
  obtain ⟨r', hr'⟩ : ∃ r', r' = asEngineClaim (publicationClaim k) { s with mem := m } := ⟨_, rfl⟩
  have hclaim : publicationClaim k { s with mem := m } = _ :=
    publicationClaim_withPosts (s := { s with mem := m }) (trip := s.postTrip) (other := s.postOther) harmed
  obtain ⟨hquiet, hquiet'⟩ : r'.postTrip = [] ∧ r'.postOther = [] := by
    rw [hr', asEngineClaim_eq hclaim, h.trip, h.other]
    exact ⟨rfl, rfl⟩
  obtain rfl : r' = r := Host.Outcome.next.inj ((h.quiet hr' hquiet hquiet').symm.trans hr)
  obtain ⟨hmem, hinputs, hpubs⟩ := publicationClaim_aside k { s with mem := m }
  rw [htrip, hother]
  exact ⟨exec_publicationArm_posted h.stored h.running h.ageing harmed hr', by rw [hr']; exact hmem, by rw [hr']; exact hinputs,
    fun j hj => by rw [hr']; exact hpubs j hj⟩

end

/-- Settles O19: the claims are `publicationClaim_arms`, `publicationClaim_refuses`, `publicationClaim_disarms` and, of a slot that is
armed, `publication_disarmed`, `publication_refused` and `publication_rearmed`; the take that then begins is `runTakes_posted`. -/
theorem publicationArmOutcomes : Obligations.PublicationArmOutcomes := by
  refine ⟨fun m k => ⟨badPub_first m k, readPub_held m k⟩, fun s k v m hwf hm hr htrip hother ha => ?_⟩
  have h : ArmWrite s k v m := ⟨hm, by rw [hm]; exact readWord_writeWord_self hwf .., hr, htrip, hother, ha⟩
  refine ⟨fun p hone hidle hb hl hp => ?_, fun off hone hidle hb => ?_, fun reason detail hidle hwhy => ?_, fun hzero hstate => ?_,
    fun hzero hstate => ?_, fun hzero harmed => ?_, fun reason detail harmed hwhy => ?_, fun p e hone harmed hs he ho => ?_,
    fun p e hone harmed hb hs he ho hid => ?_, fun r trip other harmed hexec trip' other' htrip' hother' => ?_⟩
  · obtain ⟨t, e, ht, hframe, hid, horigin, hconfigured, hepoch, hnext, hserial⟩ :=
      publication_armed (s := { s with mem := m }) (q := p) hidle (h.reads.trans hone) hb hl hp
    have hpub : t.pubs[k] = { s.pubs[k].armedAt (readPub m k) with count := s.pubs[k].count + 1 } := by
      rw [hframe]
      exact modifyAt_get_self ..
    have hentry (q : Fin 512) : t.table[q] = if p = q then some e else s.table[q] := by
      rw [hframe]
      exact set_get ..
    refine ⟨t, e, h.quiet ht (by rw [hframe]; exact htrip) (by rw [hframe]; exact hother), by rw [hframe], ?_⟩
    rw [hpub]
    refine ⟨rfl, rfl, rfl, rfl, rfl, rfl, rfl, rfl, rfl, rfl, rfl, fun j hj => ?_, (hentry p).trans (if_pos rfl), hid, horigin,
      hconfigured, hepoch, hnext, hserial, fun q hq => (hentry q).trans (if_neg hq.symm), ?_⟩
    · rw [hframe]
      exact modifyAt_get_ne _ _ _ _ hj.symm
    · rw [hframe]
      exact ⟨rfl, rfl, rfl⟩
  · exact h.refused hidle (.inl ⟨h.reads.trans hone, off, hb, rfl, rfl⟩)
  · refine h.refused hidle (.inr ?_)
    rw [h.reads]
    exact hwhy
  · exact h.same (publicationClaim_idle (s := { s with mem := m }) hstate (h.reads.trans hzero)) ⟨rfl, rfl, rfl, rfl⟩
  · have hidle : s.pubs[k].state.armed = false := congrArg PubState.armed hstate
    have hclaim := publicationClaim_disarms (s := { s with mem := m }) (h.reads.trans hzero)
      (fun hd => PubState.noConfusion (hstate.symm.trans hd))
    rw [dropIfArmed_idle (s := { s with mem := m }) hidle] at hclaim
    exact h.same hclaim ⟨rfl, rfl, rfl, rfl⟩
  · obtain ⟨t, hexec, hslot, hothers, hcalendar, htake, hjournal, -⟩ := h.disarmed hzero harmed
    exact ⟨t, hexec, hslot, hothers, hcalendar, htake, hjournal⟩
  · exact h.refused_armed harmed hwhy
  · by_cases hzero : v = 0
    · obtain ⟨t, hexec, -, -, -, -, -, hown⟩ := h.disarmed hzero harmed
      exact ⟨t, hexec, hown p e hs he ho⟩
    · obtain ⟨t, hexec, -, -, -, -, -, hown⟩ := h.refused_armed harmed (.inr (.inr ⟨hzero, hone, rfl, rfl⟩))
      exact ⟨t, hexec, hown p e hs he ho⟩
  · obtain ⟨hgone, habandoned⟩ := h.own hs he ho
    obtain ⟨q, hq, hfree, hbelow⟩ := freePosition_removed (s := s) hgone
    obtain ⟨t, e', ht, hset, hjournal, htwins, htable, hid', horigin, hnext, hserial⟩ := publication_rearmed
      (s := { s with mem := m }) ha harmed (h.reads.trans hone) hb (lookup_removed hs hgone he hid) hq
    obtain ⟨hexec, hslot, hothers, hcalendar, htake⟩ := h.settled ht hset
    have hget (r : Fin 512) : t.table[r] = if q = r then some e' else if p = r then none else s.table[r] := by
      rw [htable, set_get, hgone, set_get]
    exact ⟨t, q, e', hexec, hslot, hothers, hfree, hbelow, (hget q).trans (if_pos rfl), hid', horigin, hnext, hserial,
      fun hne => (hget p).trans ((if_neg hne).trans (if_pos rfl)),
      fun r hrp hrq => (hget r).trans ((if_neg hrq.symm).trans (if_neg hrp.symm)), htwins.trans habandoned, hcalendar, htake, hjournal⟩
  · obtain ⟨hposted, hmem, hinputs, hpubs⟩ := h.posted harmed hexec htrip' hother'
    rw [hposted, ← hmem, ← hinputs]
    refine ⟨fun hbusy => ?_, fun x p restTrip restOther c hnone hhead hc hx => ?_⟩
    · obtain hbusy | ⟨rfl, rfl⟩ := hbusy
      · rw [runTakes_busy (s := r.withPosts trip other) hbusy]
        rfl
      · rw [runTakes_none rfl rfl]
        rfl
    · have hne : p.slot ≠ k := by
        have hmem : p ∈ trip ∨ p ∈ other := by
          obtain ⟨rfl, -⟩ | ⟨-, -, rfl⟩ := hhead
          · exact .inl List.mem_cons_self
          · exact .inr List.mem_cons_self
        rw [htrip', hother', List.mem_filter, List.mem_filter] at hmem
        rcases hmem with ⟨-, hne⟩ | ⟨-, hne⟩ <;> exact bne_iff_ne.1 hne
      exact runTakes_posted hnone hhead (by rw [hpubs _ hne]; exact hc) hx

end Sys2Proof.Machine
end

section
/-! SUPPORT. An accepted copy: what it makes of its entry, its hand-on to a slot, its offers to the ports, and the step that takes it (R38, R70, R76, R103 to R111, R119 to R122). -/

namespace Sys2Proof.Machine

/-! ## Finding the entry written (R44) -/

/-- R44. The entry found for a stream, written anew for the same stream, is found again. -/
theorem lookup_written {s t : State} {id : Word} {p : Fin 512} {e e' : Entry} (h : s.lookup id = some (p, e)) (hid : e'.id = id)
    (ht : t.table = s.table.set p (some e')) : t.lookup id = some (p, e') := by
  have hget (q : Fin 512) : t.table[q] = if p = q then some e' else s.table[q] := by rw [ht, set_get]
  have hp := (hget p).trans (if_pos rfl)
  have hfind : t.findEntry id = some p := by
    unfold State.lookup at h
    split at h
    · next q hq =>
      have hqp : q = p := by
        cases he : s.table[q] with
        | none => rw [he] at h; cases h
        | some f => rw [he] at h; cases h; rfl
      subst hqp
      obtain ⟨-, hbelow⟩ := findAt?_iff.1 hq
      refine findAt?_iff.2 ⟨?_, fun r hr => ?_⟩
      · rw [hp]
        exact beq_iff_eq.2 hid
      · rw [hget, if_neg (by rintro rfl; exact lt_irrefl _ hr)]
        exact hbelow r hr
    · cases h
  unfold State.lookup
  rw [hfind]
  dsimp only
  rw [hp]
  rfl

/-! ## What an accepted copy makes of its entry (R103, R104, R109 to R111) -/

section
variable (e : Entry) (a : Arrival) (begins : Bool) (margin : Word)

theorem freshens_iff : e.freshens = true ↔ e.fresh = none ∨ e.fresh = some .awaiting ∨ e.fresh = some .stale := by
  unfold Entry.freshens
  cases e.fresh with
  | none => simp
  | some f => cases f <;> simp

theorem freshens_false_iff : e.freshens = false ↔ e.fresh = some .fresh ∨ e.fresh = some .unsupervised := by
  unfold Entry.freshens
  cases e.fresh with
  | none => simp
  | some f => cases f <;> simp

/-- R111. Between two copies of a stream that stays fresh, and whose window goes on, the interval is observed. -/
theorem longestAfter_observed {e : Entry} {time last : Clock} (hlast : e.lastAccept = some last) (hage : e.age.toNat ≤ 599)
    (hfresh : e.fresh = some .fresh ∨ e.fresh = some .unsupervised) :
    e.longestAfter time false
      = some (if (e.longest.getD 0).toNat < (time - last).toNat then time - last else e.longest.getD 0) := by
  unfold Entry.longestAfter
  rw [hlast, (freshens_false_iff e).2 hfresh, decide_eq_true hage]
  dsimp only
  rw [if_pos (by rfl)]
  cases e.longest with
  | some x =>
    dsimp only [Option.getD]
    split <;> rfl
  | none =>
    refine congrArg some ?_
    split
    · rfl
    · next hnot =>
      refine BitVec.eq_of_toNat_eq ?_
      simpa using hnot

/-- R111. Else it is not. -/
theorem longestAfter_kept {e : Entry} {time : Clock} {begins : Bool} (h : e.lastAccept = none ∨ 599 < e.age.toNat
    ∨ (e.fresh ≠ some .fresh ∧ e.fresh ≠ some .unsupervised) ∨ begins = true) : e.longestAfter time begins = e.longest := by
  unfold Entry.longestAfter
  split
  · rfl
  · next last hlast =>
    refine if_neg fun hall => ?_
    simp only [Bool.and_eq_true, decide_eq_true_eq, Bool.not_eq_true'] at hall
    obtain ⟨⟨hage, hfresh⟩, hgoes⟩ := hall
    obtain h | h | ⟨h1, h2⟩ | h := h
    · cases h.symm.trans hlast
    · omega
    · exact ((freshens_false_iff e).1 hfresh).elim h1 h2
    · cases h.symm.trans hgoes

/-- R110. The STREAM-FRESH claim of a copy that freshens `e`, where one is made. -/
def freshClaims (set : Settings) (e : Entry) (a : Arrival) : List JournalClaim :=
  if (e.fresh = none ∨ e.fresh = some .awaiting ∨ e.fresh = some .stale) ∧ (e.configured = true ∨ set.journalLearned = true) then
    [{ kind := .streamFresh, subject := .stream e.id, time := a.time
       d1 := (freshnessCode e.fresh <<< 8)
         ||| freshnessCode (some (if a.header.hold = 0 then .unsupervised else .fresh))
       d2 := a.header.hold, d3 := portWord a.port }] else []

theorem freshClaim_eq (s : State) : freshClaim e a s
    = { s with journal := { s.journal with claims := s.journal.claims ++ freshClaims s.settings e a } } := by
  have hiff : (e.freshens && (e.configured || s.settings.journalLearned)) = true
      ↔ (e.fresh = none ∨ e.fresh = some .awaiting ∨ e.fresh = some .stale)
        ∧ (e.configured = true ∨ s.settings.journalLearned = true) := by
    rw [Bool.and_eq_true, Bool.or_eq_true, freshens_iff]
  unfold freshClaim freshClaims
  by_cases hc : (e.freshens && (e.configured || s.settings.journalLearned)) = true
  · rw [if_pos hc, if_pos (hiff.1 hc)]
    rfl
  · rw [if_neg hc, if_neg (fun h => hc (hiff.2 h)), List.append_nil]

end

/-! ## A copy handed to a slot (R119, R121, R122) -/

theorem slotView_kept (s : State) (k : Fin 64) (x : SubSlot) (cs : List JournalClaim) (h : x.status.view = s.subs[k].status.view) :
    slotView k (s.withSlot k x cs) = slotView k s := by
  unfold slotView
  rw [show (s.withSlot k x cs).slotEntry k = s.slotEntry k from rfl, show (s.withSlot k x cs).table = s.table from rfl,
    withSlot_sub, h]
  rfl

/-- R119, R122. The slot as the delivery of `c` begins, where its entry is shown as `v`. -/
def SubSlot.begun (c : Copy) (v : EntryView) (x : SubSlot) : SubSlot :=
  { x with
    status := { x.status with edition := x.status.edition + 1 }
    waiting := none
    inProgress := some
      { copy := c, view := v, mismatch := x.marker, markedBy := x.markedBy, notify := (x.config.map (·.notify)).getD .none
        differs := x.differs (c.content.take Config.contentRoom) } }

/-- R121. The slot with the accepted copy `c` placed. -/
def SubSlot.placed (c : Copy) (v : EntryView) (x : SubSlot) : SubSlot :=
  if x.inProgress.isSome then
    { x with waiting := some c, supersededDue := x.supersededDue + (if x.waiting.isSome then 1 else 0) }
  else x.begun c v

theorem placed_quiet {c : Copy} {v : EntryView} {x : SubSlot} (h : x.inProgress = none) : x.placed c v = x.begun c v :=
  if_neg (by rw [h]; exact Bool.false_ne_true)

theorem placed_behind {c : Copy} {v : EntryView} {x : SubSlot} {d : InProgress} (h : x.inProgress = some d) : x.placed c v
    = { x with waiting := some c, supersededDue := x.supersededDue + (if x.waiting.isSome then 1 else 0) } :=
  if_pos (by rw [h]; rfl)

/-- R122. The slot once its flag is brought into line with the marker. -/
def SubSlot.flagged (x : SubSlot) : SubSlot :=
  if x.inProgress.isSome then x
  else { x with status :=
    { x.status with edition := x.status.edition + (if x.marker = x.status.mismatch then 0 else 2), mismatch := x.marker } }

/-- R122. The claim of that. -/
def SubSlot.flagEntries (k : Fin 64) (x : SubSlot) : List JournalClaim :=
  if x.inProgress.isSome then [] else if x.marker = x.status.mismatch then [] else mismatchEntries k x.marker x.markedBy

/-- R112, R121, R122. The slot handed the copy `c`, where its entry is shown as `v`, and what is claimed. -/
def SubSlot.handed (k : Fin 64) (c : Copy) (v : EntryView) (x : SubSlot) : SubSlot × List JournalClaim :=
  match x.config with
  | none => (x, [])
  | some cfg =>
    if cfg.acceptance.accepts c.test then (({ x.marked c false with told := v }).placed c v, [])
    else (((x.shown v).marked c true).flagged, ((x.shown v).marked c true).flagEntries k)

section
variable (s : State) (k : Fin 64) (x : SubSlot) (cs : List JournalClaim) (c : Copy)

theorem placeCopy_withSlot : placeCopy k c (s.withSlot k x cs) = s.withSlot k (x.placed c (slotView k (s.withSlot k x cs))) cs := by
  unfold placeCopy
  rw [withSlot_sub]
  split
  · next hp => rw [placed_quiet hp]; exact beginDelivery_withSlot ..
  · next hp hw => rw [placed_behind hp, hw]; exact modifySub_withSlot ..
  · next hp hw => rw [placed_behind hp, hw]; exact modifySub_withSlot ..

/-- R112, R121, R122. What a copy handed to Delivery changes: the slot, and the claims of the journal. -/
theorem handCopy_eq : handCopy k c s = s.withSlot k (s.subs[k].handed k c (slotView k s)).1
    (s.journal.claims ++ (s.subs[k].handed k c (slotView k s)).2) := by
  have hself := withSlot_self s k
  unfold handCopy SubSlot.handed
  cases s.subs[k].config with
  | none => rw [List.append_nil, hself]
  | some cfg =>
    dsimp only
    split
    · have hmarked := modifySub_withSlot s k s.subs[k] s.journal.claims
        (fun t => { t.marked c false with told := slotView k s })
      rw [hself] at hmarked
      have hview := slotView_kept s k { s.subs[k].marked c false with told := slotView k s } s.journal.claims rfl
      rw [hmarked, placeCopy_withSlot, hview, List.append_nil]
    · have hshown := engineView_withSlot s k s.subs[k] s.journal.claims
      rw [hself] at hshown
      rw [hshown, modifySub_withSlot, withSlot_sub]
      unfold SubSlot.flagged SubSlot.flagEntries
      split
      · rw [List.append_nil]
      · exact showFlag_withSlot ..

end

/-! ## An accepted copy in the machine -/

/-- R70 step 4, R76. `t` is `s` once the copy of an accepted entry `e` has been handed to its slot, if it has one. -/
structure Handed (s t : State) (e : Entry) (c : Copy) : Prop where
  shape : ∃ more, t = { s with subs := t.subs, journal := { s.journal with claims := s.journal.claims ++ more } }
    ∧ (e.slot = none → more = [])
    ∧ ∀ k, e.slot = some k → more = (s.subs[k].handed k c (slotView k s)).2
  none : e.slot = none → t.subs = s.subs
  slot : ∀ k, e.slot = some k → t.subs[k] = (s.subs[k].handed k c (slotView k s)).1
  others : ∀ k, e.slot = some k → ∀ m : Fin 64, m ≠ k → t.subs[m] = s.subs[m]

theorem deliver_handed (e : Entry) (c : Copy) (s : State) : Handed s (deliver e c s) e c := by
  unfold deliver
  cases he : e.slot with
  | none =>
    have hno (k : Fin 64) (hk : e.slot = some k) : False := by cases he.symm.trans hk
    exact ⟨⟨[], by rw [List.append_nil], fun _ => rfl, fun k hk => (hno k hk).elim⟩, fun _ => rfl, fun k hk => (hno k hk).elim,
      fun k hk => (hno k hk).elim⟩
  | some k =>
    dsimp only
    rw [handCopy_eq]
    have hsome (h : e.slot = none) : False := by cases he.symm.trans h
    refine ⟨⟨_, rfl, fun h => (hsome h).elim, ?_⟩, fun h => (hsome h).elim, ?_, ?_⟩
    all_goals
      intro m hm
      obtain rfl : k = m := Option.some.inj (he.symm.trans hm)
    · rfl
    · exact withSlot_sub ..
    · intro j hj
      exact Vector.getElem_set_ne k.isLt j.isLt fun h => hj (Fin.ext h.symm)

/-- R112. What the slot of an entry at the position found for the slot is shown of it. -/
theorem slotView_of {s : State} {k : Fin 64} {p : Fin 512} {e : Entry} (hp : s.slotEntry k = some p) (he : s.table[p] = some e) :
    slotView k s = s.viewOf e := by
  have h := slotView_withSlot s k s.subs[k] s.journal.claims hp he
  rwa [withSlot_self] at h

/-! ## The step of an accepted copy (R38, R108) -/

/-- R38, R108. A step of the engine that takes an accepted copy for the entry at `p`, which is then `e'`. -/
theorem exec_accepted {s t : State} {q : Port} {a : Arrival} {more : List Arrival} {p : Fin 512} {e e' : Entry}
    (hready : engineReady s = true) (hchosen : chosenPort s = some q) (ha : s.arrivals q = a :: more)
    (hlook : s.lookup a.header.id = some (p, e)) (hacc : (popArrival q s).accepts a = true)
    (ht : t = asEngineClaim (takeArrival a) (popArrival q s)) (htable : t.table = s.table.set p (some e')) (hid : e'.id = e.id)
    (hdeadline : e'.deadline = if a.header.hold = 0 then .none else
      .at (a.time + millis a.header.hold + millis s.settings.freshMargin) a.header.hold s.settings.freshMargin) :
    exec .arrivalTaken s = (if a.header.hold ≠ 0
        ∧ reached s.clock (a.time + millis a.header.hold + millis s.settings.freshMargin) = true
        then exec (.freshnessExpiry e.id) t else .next t) := by
  obtain ⟨-, hide⟩ := lookup_some hlook
  have hid' : e'.id = a.header.id := hid.trans hide
  have hclock : t.clock = s.clock := by
    obtain ⟨-, -, -, hpopped, -⟩ := popArrival_spine q s
    obtain ⟨-, -, -, htaken, -⟩ := asEngineClaim_spine (takeArrival a) (popArrival q s) (takeArrival_spine a _)
    rw [ht]
    exact htaken.trans hpopped
  have hjudged : judgeArrival a (popArrival q s) = expireFreshness a.header.id t := by
    unfold judgeArrival
    rw [hacc, ht]
    rfl
  have hfound : t.lookup e'.id = some (p, e') := by
    rw [hid']
    exact lookup_written hlook hid' htable
  rw [exec_arrivalTaken hready hchosen ha, hjudged, ← hid', expireFreshness_learned hfound hdeadline, hclock, hid]

/-! ## What an offer reads and changes of one kind of port -/

/-- Two states show an offer to the bay ports the same. -/
def BayView (s t : State) : Prop := s.partState = t.partState ∧ s.bays = t.bays ∧ s.bayGroup = t.bayGroup

theorem updateBay_bayView (p : Fin 4) (f : BayBlock → BayBlock) {s t : State} (h : BayView s t) :
    BayView (updateBay p f s) (updateBay p f t) :=
  ⟨h.1, h.2.1, congrArg (·.update p f) h.2.2⟩

theorem countBay_bayView (p : Fin 4) (f : BayBlock → BayBlock) (c : BayCounter) (x y : Clock) {s t : State} (h : BayView s t) :
    BayView (countBay p f c x s) (countBay p f c y t) := by
  have hupdated := updateBay_bayView p (fun b => (f b).bump c) h
  obtain ⟨-, -, hgroup⟩ := h
  unfold countBay baySentinel
  rw [hgroup]
  split <;> exact hupdated

theorem offerBay_bayView (p : Fin 4) (r : TxRecord) {s t : State} (h : BayView s t) :
    BayView (offerBay p r s) (offerBay p r t) := by
  have hmodify (f : BayPort → BayPort) : BayView (s.modifyBay p f) (t.modifyBay p f) :=
    ⟨h.1, congrArg (modifyAt · p f) h.2.1, h.2.2⟩
  obtain ⟨hpart, hbays, hgroup⟩ := h
  unfold offerBay
  simp only [hpart, hbays, hgroup]
  split
  · exact ⟨hpart, hbays, hgroup⟩
  · split
    · exact updateBay_bayView p _ ⟨hpart, hbays, hgroup⟩
    · split
      · exact countBay_bayView p _ _ _ _ (hmodify _)
      · exact hmodify _

theorem offerBays_bayView (set : PortSet) (r : TxRecord) {s t : State} (h : BayView s t) :
    BayView (offerBays set r s) (offerBays set r t) := by
  unfold offerBays
  generalize List.finRange 4 = ports
  induction ports generalizing s t with
  | nil => exact h
  | cons p ports ih =>
    simp only [List.foldl_cons]
    apply ih
    split
    · exact offerBay_bayView p r h
    · exact h

/-- What an offer to a lane makes of its port depends on that port alone. -/
theorem offerLane_port (l : Lane) (r : TxRecord) {s t : State} (h : s.lane l = t.lane l) :
    (offerLane l r s).lane l = (offerLane l r t).lane l := by
  have hmodify (u v : State) (huv : u.lane l = v.lane l) (f : LanePort → LanePort) :
      (u.modifyLane l f).lane l = (v.modifyLane l f).lane l := by
    cases l <;> exact congrArg f huv
  unfold offerLane
  rw [h]
  split
  · exact hmodify s t h _
  · split
    · exact hmodify s t h _
    · unfold countLane laneSentinel
      have hcount := hmodify s t h (fun p => { p with group := p.group.update fun g => (id g).bump .drops })
      rw [h]
      split
      · cases l <;> exact hcount
      · exact hcount

/-- An offer to a lane leaves the other. -/
theorem offerLane_other (l : Lane) (r : TxRecord) (s : State) : (offerLane l r s).lane l.other = s.lane l.other := by
  unfold offerLane
  split
  · cases l <;> rfl
  · split
    · cases l <;> rfl
    · unfold countLane laneSentinel
      split <;> cases l <;> rfl

end Sys2Proof.Machine
end

section
/-! A FIRST is accepted (O36). -/

namespace Sys2Proof.Machine

/-! ## A FIRST taken (R65, R70) -/

/-- R65. What a newer epoch has Twin Watch abandon. -/
def epochAbandons (e : Entry) : Judgement → List TwinClaim
  | .firstNewEpoch _ => [.abandon e.id e.serial]
  | _ => []

/-- R65. The EPOCH-CHANGE claim of a newer epoch. -/
def epochClaims (e : Entry) (a : Arrival) (l : Lane) : Judgement → List JournalClaim
  | .firstNewEpoch old =>
    [{ kind := .epochChange, subject := .stream e.id, time := a.time, d1 := old.setWidth 16
       d2 := a.header.epoch.setWidth 16, d3 := laneWord l }]
  | _ => []

/-- R65. The counters after a FIRST. -/
def epochCounted (c : Counters) : Judgement → Counters
  | .firstNewEpoch _ => c.update (fun c => { c with epochChanges := c.epochChanges + 1 })
  | _ => c

/-- R88. The lone count fall of a lane that is credited. -/
def creditFalls (s : State) (e : Entry) (l : Lane) : List LoneChange :=
  if ((e.record l).reads (s.lane l).cycle).1 then [{ rise := false, lane := l, cycle := (s.lane l).cycle }] else []

/-- R70. The entry after a FIRST. -/
def State.firstEntry (s : State) (e : Entry) (j : Judgement) (w : Option Window) (a : Arrival) (l : Lane) : Entry :=
  { e.accepted a j.begins s.settings.freshMargin with window := w }.setRecord l ((e.record l).credited (s.lane l).cycle).1

/-- R65, R70, R110. The machine as a FIRST is handed to Delivery. -/
def State.firstHeard (s : State) (p : Fin 512) (e : Entry) (j : Judgement) (w : Option Window) (a : Arrival) (l : Lane) : State :=
  { s with table := s.table.set p (some (s.firstEntry e j w a l))
           counters := epochCounted s.counters j
           twinClaims := s.twinClaims ++ epochAbandons e j
           journal := { s.journal with
             claims := s.journal.claims ++ epochClaims e a l j ++ freshClaims s.settings e a }
           loneChanges := s.loneChanges ++ creditFalls s e l
           events := s.events ++ [.streamCopy e.id (contentOf a)] }

/-- R65. What a newer epoch does before its copy is handed on, and another FIRST does not. -/
def State.epochTold (s : State) (e : Entry) (j : Judgement) (a : Arrival) (l : Lane) : State :=
  { s with counters := epochCounted s.counters j
           twinClaims := s.twinClaims ++ epochAbandons e j
           journal := { s.journal with claims := s.journal.claims ++ epochClaims e a l j } }

theorem epochTold_eq (s : State) (e : Entry) (j : Judgement) (a : Arrival) (l : Lane) :
    (match j with | .firstNewEpoch old => changeEpoch e old a l s | _ => s) = s.epochTold e j a l := by
  have hsame : { s with
      twinClaims := s.twinClaims ++ [], journal := { s.journal with claims := s.journal.claims ++ [] } } = s := by
    rw [List.append_nil, List.append_nil]
  cases j
  case firstNewEpoch old => rfl
  all_goals exact hsame.symm

theorem handLone_credit (s : State) (e : Entry) (l : Lane) (t : State) :
    (if ((e.record l).credited (s.lane l).cycle).2 then handLone { rise := false, lane := l, cycle := (s.lane l).cycle } t else t)
      = { t with loneChanges := t.loneChanges ++ creditFalls s e l } := by
  unfold creditFalls LaneRecord.credited
  split
  · rfl
  · rw [List.append_nil]

theorem acceptFirst_eq {s : State} (hrun : s.partState = .running) (p : Fin 512) (e : Entry) (j : Judgement) (w : Option Window)
    (a : Arrival) (seq : Word) (l : Lane) : acceptFirst p e j w a seq l s =
      askWatch e a seq l (offerBays (s.settings.resolve e.forward) (relayRecord a)
        (deliver (s.firstEntry e j w a l) (a.copy seq a.header.epoch) (s.firstHeard p e j w a l))) := by
  obtain ⟨t, ht⟩ : ∃ t, t = freshClaim e a ((s.epochTold e j a l).putEntry p (some (s.firstEntry e j w a l))) := ⟨_, rfl⟩
  obtain ⟨u, hu⟩ : ∃ u, u = offer (.streamCopy e.id (contentOf a))
      (if ((e.record l).credited (s.lane l).cycle).2 then handLone { rise := false, lane := l, cycle := (s.lane l).cycle } t
        else t) := ⟨_, rfl⟩
  have hshape : acceptFirst p e j w a seq l s = askWatch e a seq l
      (offerBays ((deliver (s.firstEntry e j w a l) (a.copy seq a.header.epoch) u).settings.resolve e.forward) (relayRecord a)
        (deliver (s.firstEntry e j w a l) (a.copy seq a.header.epoch) u)) := by
    rw [hu, ht, ← epochTold_eq]
    rfl
  have hheard : u = s.firstHeard p e j w a l := by
    rw [hu, handLone_credit, ht, freshClaim_eq]
    exact offer_running (by exact hrun) _
  have hsettings : (deliver (s.firstEntry e j w a l) (a.copy seq a.header.epoch) (s.firstHeard p e j w a l)).settings
      = s.settings := by
    simp only [deliver_frame]
    rfl
  rw [hshape, hheard, hsettings]

/-- R79. The watch that a FIRST asks for. -/
def firstWatch (set : Settings) (e : Entry) (a : Arrival) (seq : Word) (l : Lane) : List TwinClaim :=
  if seq.toNat % (set.divisor a.header.cls).toNat = 0 then [.watch e.id e.serial seq l a.time] else []

/-- R70. `t` is `s` once a FIRST of the entry `e` at `p` is taken, the window then `w`; `later` is what its hand-ons claim. -/
structure FirstTaken (s t : State) (p : Fin 512) (e : Entry) (j : Judgement) (w : Option Window) (a : Arrival) (seq : Word)
    (l : Lane) (later : List JournalClaim) : Prop where
  shape : t = { s with
    table := s.table.set p (some (s.firstEntry e j w a l))
    counters := epochCounted s.counters j
    twinClaims := s.twinClaims ++ epochAbandons e j ++ firstWatch s.settings e a seq l
    journal := { s.journal with claims := s.journal.claims ++ epochClaims e a l j ++ freshClaims s.settings e a ++ later }
    loneChanges := s.loneChanges ++ creditFalls s e l
    events := s.events ++ [.streamCopy e.id (contentOf a)]
    subs := t.subs, bays := t.bays, bayGroup := t.bayGroup, imageCounts := t.imageCounts }
  bays : BayView t (offerBays (s.settings.resolve e.forward) (relayRecord a) s)
  quiet : e.slot = none → t.subs = s.subs ∧ ∀ c ∈ later, c.kind = .counterFirst
  others : ∀ k, e.slot = some k → ∀ m : Fin 64, m ≠ k → t.subs[m] = s.subs[m]
  slot : ∀ k, e.slot = some k →
    t.subs[k] = (s.subs[k].handed k (a.copy seq a.header.epoch) (slotView k (s.firstHeard p e j w a l))).1
    ∧ ∀ c ∈ (s.subs[k].handed k (a.copy seq a.header.epoch) (slotView k (s.firstHeard p e j w a l))).2, c ∈ later

/-- R43. A FIRST taken in a claim, which brings the entry into its record image. -/
theorem FirstTaken.claimed {f : State → State} {s : State} {p : Fin 512} {e : Entry} {j : Judgement} {w : Option Window}
    {a : Arrival} {seq : Word} {l : Lane} {later : List JournalClaim} (h : FirstTaken s (f s) p e j w a seq l later) :
    FirstTaken s (asEngineClaim f s) p e j w a seq l later :=
  ⟨congrArg (fun u : State => { u with imageCounts := (asEngineClaim f s).imageCounts }) h.shape, h.bays, h.quiet, h.others, h.slot⟩

theorem firstEntry_kept (s : State) (e : Entry) (j : Judgement) (w : Option Window) (a : Arrival) (l : Lane) :
    (s.firstEntry e j w a l).slot = e.slot ∧ (s.firstEntry e j w a l).id = e.id := by
  unfold State.firstEntry
  cases l <;> exact ⟨rfl, rfl⟩

theorem acceptFirst_taken {s : State} (hrun : s.partState = .running) (p : Fin 512) (e : Entry) (j : Judgement)
    (w : Option Window) (a : Arrival) (seq : Word) (l : Lane) :
    ∃ later, FirstTaken s (acceptFirst p e j w a seq l s) p e j w a seq l later := by
  rw [acceptFirst_eq hrun]
  obtain ⟨hslot, -⟩ := firstEntry_kept s e j w a l
  obtain ⟨d, hd⟩ : ∃ d, d = deliver (s.firstEntry e j w a l) (a.copy seq a.header.epoch) (s.firstHeard p e j w a l) := ⟨_, rfl⟩
  obtain ⟨⟨more, hshape, hnone, hsome⟩, hunheld, hheld, hothers⟩ :=
    deliver_handed (s.firstEntry e j w a l) (a.copy seq a.header.epoch) (s.firstHeard p e j w a l)
  rw [hslot] at hnone hsome hunheld hheld hothers
  rw [← hd] at hshape hunheld hheld hothers ⊢
  obtain ⟨o, ho⟩ : ∃ o, o = offerBays (s.settings.resolve e.forward) (relayRecord a) d := ⟨_, rfl⟩
  obtain ⟨la, lb, bs, g, firsts, hsent, hfirsts⟩ := offerBays_onlySends (s.settings.resolve e.forward) (relayRecord a) d
  rw [← ho] at hsent ⊢
  have hlanes : la = d.laneA ∧ lb = d.laneB := by
    have hkept : o.laneA = d.laneA ∧ o.laneB = d.laneB := by rw [ho]; simp
    rw [hsent] at hkept
    exact hkept
  obtain ⟨rfl, rfl⟩ := hlanes
  have hview : BayView o (offerBays (s.settings.resolve e.forward) (relayRecord a) s) := by
    rw [ho]
    refine offerBays_bayView _ _ ?_
    rw [hshape]
    exact ⟨rfl, rfl, rfl⟩
  have hsubs : o.subs = d.subs := by rw [hsent]
  refine ⟨more ++ firsts, ?_, ?_, fun h => ⟨?_, ?_⟩, fun k hk m hm => ?_, fun k hk => ⟨?_, fun c hc => ?_⟩⟩
  · rw [askWatch_eq, hsent, hshape, ← List.append_assoc _ more firsts]
    rfl
  · rw [askWatch_eq]
    exact hview
  · rw [askWatch_eq]
    exact hsubs.trans (hunheld h)
  · rw [hnone h]
    exact hfirsts
  · rw [askWatch_eq]
    exact (congrArg (fun v : Vector SubSlot 64 => v[m]) hsubs).trans (hothers k hk m hm)
  · rw [askWatch_eq]
    exact (congrArg (fun v : Vector SubSlot 64 => v[k]) hsubs).trans (hheld k hk)
  · rw [hsome k hk]
    exact List.mem_append_left _ hc

/-! ## The entry -/

/-- R70, R88. The entry after a FIRST is the one that has accepted the copy, with its window and the arriving lane's record. -/
theorem firstEntry_eq (s : State) (e : Entry) (j : Judgement) (w : Option Window) (a : Arrival) (l : Lane) :
    ∃ ra rb, s.firstEntry e j w a l
        = { e.accepted a j.begins s.settings.freshMargin with window := w, recordA := ra, recordB := rb }
      ∧ (s.firstEntry e j w a l).record l = { lone := false, run := 0, cycle := (s.lane l).cycle }
      ∧ (s.firstEntry e j w a l).record l.other = e.record l.other := by
  cases l <;> exact ⟨_, _, rfl, rfl, rfl⟩

/-- R111. The judgements of a FIRST that do not begin the window. -/
theorem begins_iff {j : Judgement} (h : j.isFirst = true) : j.begins = false ↔ j = .firstAhead ∨ j = .firstFilled := by
  cases j <;> simp_all [Judgement.begins, Judgement.isFirst]

/-- R65. The epochs counted. -/
theorem epochCounted_epochChanges (c : Counters) (j : Judgement) : (epochCounted c j).epochChanges =
    (match j with | .firstNewEpoch _ => c.epochChanges + 1 | _ => c.epochChanges) := by
  cases j
  case firstNewEpoch old =>
    unfold epochCounted
    dsimp only
    rw [countersUpdate_eq]
  all_goals rfl

/-! ## The step -/

section
variable {s : State} {l : Lane} {a : Arrival} {more : List Arrival} {p : Fin 512} {e : Entry} {j : Judgement} {w : Option Window}

/-- R45, R64, R70. A lane copy judged FIRST is taken as one. -/
theorem takeArrival_first (hport : a.port = .lane l) (hlook : s.lookup a.header.id = some (p, e)) (ho : e.origin = .remote)
    (hj : judge e.window a.header.epoch (a.seq.getD 0) l = (j, w)) (hfirst : j.isFirst = true) :
    takeArrival a s = acceptFirst p e j w a (a.seq.getD 0) l s := by
  unfold takeArrival
  rw [hport]
  dsimp only
  unfold takeLaneCopy
  dsimp only
  rw [hlook]
  dsimp only
  rw [if_pos ho]
  unfold judgeRemote
  rw [hj]
  exact if_pos hfirst

theorem accepts_first (hport : a.port = .lane l) (hlook : s.lookup a.header.id = some (p, e)) (ho : e.origin = .remote)
    (hj : judge e.window a.header.epoch (a.seq.getD 0) l = (j, w)) (hfirst : j.isFirst = true) : s.accepts a = true := by
  unfold State.accepts
  rw [hlook, hport]
  dsimp only
  rw [hj, ho]
  exact hfirst

/-- R38, R64 to R70, R108. A step of the engine that takes a FIRST. -/
theorem exec_first (hready : engineReady s = true) (hchosen : chosenPort s = some (.lane l)) (ha : (s.lane l).arrivals = a :: more)
    (hport : a.port = .lane l) (hlook : s.lookup a.header.id = some (p, e)) (ho : e.origin = .remote)
    (hj : judge e.window a.header.epoch (a.seq.getD 0) l = (j, w)) (hfirst : j.isFirst = true) :
    ∃ b t later, exec .arrivalTaken s = (if a.header.hold ≠ 0
          ∧ reached s.clock (a.time + millis a.header.hold + millis s.settings.freshMargin) = true
          then exec (.freshnessExpiry e.id) t else .next t)
      ∧ b = { s.modifyLane l (fun x => { x with arrivals := more }) with lastServed := .lane l }
      ∧ FirstTaken b t p e j w a (a.seq.getD 0) l later := by
  have hpop : popArrival (.lane l) s = { s.modifyLane l (fun x => { x with arrivals := more }) with lastServed := .lane l } :=
    popArrival_eq ha
  obtain ⟨b, hb⟩ : ∃ b, b = popArrival (.lane l) s := ⟨_, rfl⟩
  have htable : b.table = s.table := by rw [hb]; exact popArrival_table _ s
  have hlook' : b.lookup a.header.id = some (p, e) := (lookup_of_table htable _).trans hlook
  have hrun : b.partState = .running := by
    obtain ⟨-, hpart, -⟩ := popArrival_spine (.lane l) s
    rw [hb]
    exact hpart.trans (engineReady_running hready)
  have hsettings : b.settings = s.settings := by
    rw [hb, hpop]
    cases l <;> rfl
  obtain ⟨later, htaken⟩ := acceptFirst_taken hrun p e j w a (a.seq.getD 0) l
  have hfields := takeArrival_first hport hlook' ho hj hfirst
  rw [← hfields] at htaken
  obtain ⟨ra, rb, hentry, -⟩ := firstEntry_eq b e j w a l
  refine ⟨b, _, later, ?_, hb.trans hpop, htaken.claimed⟩
  refine exec_accepted hready hchosen ha hlook (by rw [← hb]; exact accepts_first hport hlook' ho hj hfirst) (by rw [hb])
    (e' := b.firstEntry e j w a l) ?_ ?_ ?_
  · rw [← htable]
    exact congrArg State.table htaken.shape
  · rw [hentry]; rfl
  · rw [hentry, ← hsettings]; rfl

end

/-- Settles O36: the step is `exec_first`, what it makes of the machine `FirstTaken`, and of the entry `firstEntry_eq`. -/
theorem firstIsAccepted : Obligations.FirstIsAccepted := by
  refine ⟨fun _ => ⟨rfl, rfl, fun _ => rfl⟩, readSettings_divisor, ?_⟩
  intro s l a more p e j w due hready hchosen ha hport hlook ho hj hfirst hdue
  subst hdue
  obtain ⟨b, t, later, hexec, hb, htaken⟩ := exec_first hready hchosen ha hport hlook ho hj hfirst
  obtain ⟨hshape, hbays, hquiet, hothers, -⟩ := htaken
  obtain ⟨ra, rb, hentry, hrecord, hother⟩ := firstEntry_eq b e j w a l
  have hfrom : b = { s with lastServed := .lane l, laneA := b.laneA, laneB := b.laneB } := by
    rw [hb]
    cases l <;> rfl
  have hcycle : (b.lane l).cycle = (s.lane l).cycle := by
    rw [hb]
    cases l <;> rfl
  have hset : b.settings = s.settings := by rw [hfrom]
  have htable : t.table = s.table.set p (some (b.firstEntry e j w a l)) := by
    refine (congrArg State.table hshape).trans ?_
    rw [hfrom]
  have hclaims : t.journal.claims = s.journal.claims ++ epochClaims e a l j ++ freshClaims s.settings e a ++ later := by
    refine (congrArg (fun u : State => u.journal.claims) hshape).trans ?_
    rw [hfrom]
  have hfalls : creditFalls b e l = creditFalls s e l := by
    unfold creditFalls
    rw [hcycle]
  have hevents : t.events = s.events ++ [.streamCopy e.id (contentOf a)] := by
    refine (congrArg State.events hshape).trans ?_
    rw [hfrom]
  have htwins : t.twinClaims = s.twinClaims ++ epochAbandons e j ++ firstWatch s.settings e a (a.seq.getD 0) l := by
    refine (congrArg State.twinClaims hshape).trans ?_
    rw [hfrom]
  have hcounters : t.counters = epochCounted s.counters j := by
    refine (congrArg State.counters hshape).trans ?_
    rw [hfrom]
  have hlone : t.loneChanges = s.loneChanges ++ creditFalls s e l := by
    refine (congrArg State.loneChanges hshape).trans ?_
    rw [hfalls, hfrom]
  have hsubs : b.subs = s.subs := by rw [hfrom]
  obtain ⟨-, hbaysame, hgroup⟩ := hbays
  obtain ⟨-, hbaysame', hgroup'⟩ := offerBays_bayView (s.settings.resolve e.forward) (relayRecord a) (s := b) (t := s)
    (by rw [hfrom]; exact ⟨rfl, rfl, rfl⟩)
  rw [hset] at hbaysame hgroup
  rw [hsubs] at hquiet hothers
  refine ⟨t, b.firstEntry e j w a l, hexec, htable, ?_⟩
  rw [hrecord, hother, hcycle, hentry, hset]
  refine ⟨rfl, satInc_stays _, rfl, rfl, rfl, rfl, rfl, rfl, fun last hlast hage hfresh hgoes => ?_, fun hwhy => ?_, if_pos rfl, rfl,
    rfl, rfl, rfl, rfl, rfl, rfl, rfl, rfl, rfl, hevents, htwins, ?_, ⟨later, ?_, fun hslot => (hquiet hslot).2⟩, hlone,
    hbaysame.trans hbaysame', hgroup.trans hgroup', fun hslot => (hquiet hslot).1, hothers, ?_⟩
  · have hbegins := (begins_iff hfirst).2 hgoes
    exact (congrArg (e.longestAfter a.time) hbegins).trans (longestAfter_observed hlast hage hfresh)
  · refine longestAfter_kept (hwhy.imp_right (Or.imp_right (Or.imp_right fun hgoes => ?_)))
    refine Bool.of_not_eq_false fun hbegins => ?_
    exact ((begins_iff hfirst).1 hbegins).elim hgoes.1 hgoes.2
  · rw [hcounters]
    exact epochCounted_epochChanges s.counters j
  · rw [hclaims, freshClaims, hport]
    rfl
  · rw [htable, hclaims, hevents, htwins, hcounters, hlone]
    refine hshape.trans ?_
    rw [hfalls, hb]
    cases l <;> rfl

end Sys2Proof.Machine
end

section
/-! A FIRST reaches its slot (O37). -/

namespace Sys2Proof.Machine

/-! ## The entry of a slot, written -/

theorem slotEntry_written {s t : State} {k : Fin 64} {p : Fin 512} {e : Entry} (h : s.slotEntry k = some p)
    (ht : t.table = s.table.set p (some e)) (hk : e.slot = some k) : t.slotEntry k = some p := by
  have hget (q : Fin 512) : t.table[q] = if p = q then some e else s.table[q] := by rw [ht, set_get]
  obtain ⟨-, hbelow⟩ := (slotEntry_iff s k p).1 h
  refine (slotEntry_iff t k p).2 ⟨⟨e, (hget p).trans (if_pos rfl), hk⟩, fun q f hlt hf => ?_⟩
  rw [hget, if_neg (by rintro rfl; exact lt_irrefl _ hlt)] at hf
  exact hbelow q f hlt hf

theorem viewOf_fresh (s : State) (e : Entry) : (s.viewOf e).fresh = e.fresh := by
  unfold State.viewOf
  split <;> rfl

/-! ## The copy handed to its slot (R119, R121, R122) -/

theorem accepts_iff (acceptance : TestAcceptance) (test : Bool) : acceptance.accepts test = true
    ↔ acceptance = .both ∨ acceptance = (if test then .testOnly else .normalOnly) := by
  cases acceptance <;> cases test <;> simp [TestAcceptance.accepts]

theorem accepts_false_iff (acceptance : TestAcceptance) (test : Bool) : acceptance.accepts test = false
    ↔ acceptance = (if test then .normalOnly else .testOnly) := by
  cases acceptance <;> cases test <;> simp [TestAcceptance.accepts]

/-- R112. What a slot with no delivery in progress is shown. -/
theorem shown_quiet {x : SubSlot} (v : EntryView) (hp : x.inProgress = none) : x.shown v =
    { x with
      told := v
      status := { x.status with
        edition := x.status.edition + (if v = x.told then 0 else 2), view := if v = x.told then x.status.view else v } } := by
  unfold SubSlot.shown
  by_cases htold : v = x.told
  · rw [if_pos htold, if_pos htold, if_pos htold, htold, show x.status.edition + 0 = x.status.edition from BitVec.add_zero _]
  · rw [if_neg htold, if_neg htold, if_neg htold]
    exact if_neg (by rw [hp]; exact Bool.false_ne_true)

/-- R112. What waits behind a delivery in progress to be shown. -/
theorem shown_behind {x : SubSlot} (v : EntryView) (hp : x.inProgress.isSome = true) : x.shown v =
    { x with told := v, viewsDue := x.viewsDue ++ (if v = x.told then [] else [{ view := v, stale := false }]) } := by
  unfold SubSlot.shown
  by_cases htold : v = x.told
  · rw [if_pos htold, if_pos htold, htold, List.append_nil]
  · rw [if_neg htold, if_neg htold]
    exact if_pos hp

/-- R122. The marker set by a copy. -/
theorem marked_set {x : SubSlot} {c : Copy} {marked : Option MarkedBy}
    (hm : marked = if x.marker then x.markedBy else some { id := c.id, seq := c.seq, time := c.time }) :
    x.marked c true = { x with marker := true, markedBy := marked } := by
  rw [hm]
  unfold SubSlot.marked
  cases x.marker <;> rfl

/-- R122. The marker cleared by a copy. -/
theorem marked_cleared {x : SubSlot} {c : Copy} {marked : Option MarkedBy}
    (hm : marked = if x.marker then some { id := c.id, seq := c.seq, time := c.time } else x.markedBy) :
    x.marked c false = { x with marker := false, markedBy := marked } := by
  rw [hm]
  unfold SubSlot.marked
  cases x.marker <;> rfl

section
variable {x : SubSlot} {k : Fin 64} {c : Copy} {v : EntryView} {cfg : SlotConfig} (hc : x.config = some cfg)
include hc

theorem handed_accepted (hacc : cfg.acceptance.accepts c.test = true) :
    x.handed k c v = (({ x.marked c false with told := v }).placed c v, []) := by
  unfold SubSlot.handed
  rw [hc]
  exact if_pos hacc

theorem handed_refused (hacc : cfg.acceptance.accepts c.test = false) :
    x.handed k c v = (((x.shown v).marked c true).flagged, ((x.shown v).marked c true).flagEntries k) := by
  unfold SubSlot.handed
  rw [hc]
  exact if_neg (by rw [hacc]; exact Bool.false_ne_true)

/-- R119, R123. The delivery that begins. -/
theorem handed_begins (hacc : cfg.acceptance.accepts c.test = true) (hp : x.inProgress = none) {marked : Option MarkedBy}
    (hm : marked = if x.marker then some { id := c.id, seq := c.seq, time := c.time } else x.markedBy) :
    (x.handed k c v).1 =
      { x with
        status := { x.status with edition := x.status.edition + 1 }
        waiting := none, marker := false, markedBy := marked, told := v
        inProgress := some
          { copy := c, view := v, mismatch := false, markedBy := marked, notify := cfg.notify
            differs := (match x.previous with
              | none => true
              | some old => ((c.content.take 256).drop cfg.offset.toNat).take cfg.length.toNat
                  != (old.drop cfg.offset.toNat).take cfg.length.toNat) } } := by
  rw [handed_accepted hc hacc, marked_cleared hm]
  refine (placed_quiet (x := { x with marker := false, markedBy := marked, told := v }) hp).trans ?_
  unfold SubSlot.begun SubSlot.differs
  rw [hc]
  cases x.previous <;> rfl

/-- R121. The copy that waits behind a delivery in progress. -/
theorem handed_waits (hacc : cfg.acceptance.accepts c.test = true) (hp : x.inProgress.isSome = true) {marked : Option MarkedBy}
    (hm : marked = if x.marker then some { id := c.id, seq := c.seq, time := c.time } else x.markedBy) :
    (x.handed k c v).1 =
      { x with
        waiting := some c, marker := false, markedBy := marked, told := v
        supersededDue := x.supersededDue + (if x.waiting.isSome then 1 else 0) } := by
  obtain ⟨d, hd⟩ := Option.isSome_iff_exists.1 hp
  rw [handed_accepted hc hacc, marked_cleared hm]
  exact placed_behind (x := { x with marker := false, markedBy := marked, told := v }) hd

/-- R122. A copy that is not accepted, with no delivery in progress. -/
theorem handed_shows (hacc : cfg.acceptance.accepts c.test = false) (hp : x.inProgress = none) {marked : Option MarkedBy}
    (hm : marked = if x.marker then x.markedBy else some { id := c.id, seq := c.seq, time := c.time }) :
    (x.handed k c v).1 =
      { x with
        marker := true, markedBy := marked, told := v
        status := { x.status with
          edition := x.status.edition + (if v = x.told then 0 else 2) + (if x.status.mismatch then 0 else 2)
          view := if v = x.told then x.status.view else v
          mismatch := true } }
    ∧ (x.marker = false → x.status.mismatch = false → (x.handed k c v).2
        = [{ kind := .testMismatch, subject := .subscription k, time := c.time, d1 := c.id, d2 := 1, d3 := c.seq }]) := by
  have hsame : (x.shown v).marked c true = { x.shown v with marker := true, markedBy := marked } := by
    refine marked_set ?_
    rw [shown_quiet v hp]
    exact hm
  rw [handed_refused hc hacc, hsame, shown_quiet v hp]
  unfold SubSlot.flagged SubSlot.flagEntries
  dsimp only
  rw [hp]
  refine ⟨?_, fun hmarker hflag => ?_⟩
  · cases x.status.mismatch <;> rfl
  · rw [hm, hmarker, hflag]
    rfl

/-- R122. A copy that is not accepted, behind a delivery in progress. -/
theorem handed_defers (hacc : cfg.acceptance.accepts c.test = false) (hp : x.inProgress.isSome = true) {marked : Option MarkedBy}
    (hm : marked = if x.marker then x.markedBy else some { id := c.id, seq := c.seq, time := c.time }) :
    (x.handed k c v).1 =
      { x with
        marker := true, markedBy := marked, told := v
        viewsDue := x.viewsDue ++ (if v = x.told then [] else [{ view := v, stale := false }]) } := by
  have hsame : (x.shown v).marked c true = { x.shown v with marker := true, markedBy := marked } := by
    refine marked_set ?_
    rw [shown_behind v hp]
    exact hm
  rw [handed_refused hc hacc, hsame, shown_behind v hp]
  exact if_pos hp

end

/-- Settles O37: the step is `exec_first`, and the slot that of `handed_begins`, `handed_waits`, `handed_shows` or `handed_defers`. -/
theorem firstReachesItsSlot : Obligations.FirstReachesItsSlot := by
  refine ⟨fun _ _ => rfl, fun s e => ⟨fun h => if_pos h, fun h => if_neg h⟩, slotEntry_iff, ?_⟩
  intro s l a more p e j w due k cfg c hready hchosen ha hport hlook ho hj hfirst hdue hslot hp hcfg hc
  subst hdue
  obtain ⟨b, t, later, hexec, hb, htaken⟩ := exec_first hready hchosen ha hport hlook ho hj hfirst
  obtain ⟨hshape, -, -, -, hheld⟩ := htaken
  obtain ⟨ra, rb, hentry, -⟩ := firstEntry_eq b e j w a l
  obtain ⟨hkept, -⟩ := firstEntry_kept b e j w a l
  have hfrom : b = { s with lastServed := .lane l, laneA := b.laneA, laneB := b.laneB } := by
    rw [hb]
    cases l <;> rfl
  have hcopy : a.copy (a.seq.getD 0) a.header.epoch = c := by
    rw [hc, Arrival.copy, hport]
  have htable : t.table[p] = some (b.firstEntry e j w a l) := by
    refine (congrArg (fun u : State => u.table[p]) hshape).trans ?_
    exact (set_get ..).trans (if_pos rfl)
  have hview : slotView k (b.firstHeard p e j w a l) = t.viewOf (b.firstEntry e j w a l) := by
    have hposition : (b.firstHeard p e j w a l).slotEntry k = some p :=
      slotEntry_written (s := b) (by rw [hfrom]; exact hp) rfl (hkept.trans hslot)
    rw [slotView_of hposition ((set_get ..).trans (if_pos rfl))]
    exact viewOf_of_lanes (congrArg State.laneA hshape).symm (congrArg State.laneB hshape).symm _
  obtain ⟨hsub, hclaimed⟩ := hheld k hslot
  have hsubs : b.subs = s.subs := by rw [hfrom]
  rw [hview, hcopy, hsubs] at hsub hclaimed
  refine ⟨t, _, _, hexec, htable, rfl, ?_, fun marked hm hacc => ⟨fun hq => ?_, fun hq => ?_⟩,
    fun hacc marked hm => ⟨fun hq => ?_, fun hq => ?_⟩⟩
  · rw [viewOf_fresh, hentry]
    rfl
  · exact hsub.trans (handed_begins hcfg ((accepts_iff ..).2 hacc) hq hm)
  · exact hsub.trans (handed_waits hcfg ((accepts_iff ..).2 hacc) hq hm)
  · obtain ⟨hshown, hflag⟩ := handed_shows (k := k) (v := t.viewOf (b.firstEntry e j w a l)) hcfg
      ((accepts_false_iff ..).2 hacc) hq hm
    refine ⟨hsub.trans hshown, fun hmarker hmismatch => ?_⟩
    rw [hflag hmarker hmismatch] at hclaimed
    have hlater : t.journal.claims = b.journal.claims ++ epochClaims e a l j ++ freshClaims b.settings e a ++ later :=
      congrArg (fun u : State => u.journal.claims) hshape
    have hmade := List.mem_append_right (b.journal.claims ++ epochClaims e a l j ++ freshClaims b.settings e a)
      (hclaimed _ (List.mem_singleton_self _))
    rw [← hlater] at hmade
    exact ⟨_, hmade, rfl, rfl, congrArg Copy.time hc, congrArg Copy.id hc, rfl, congrArg Copy.seq hc⟩
  · exact hsub.trans (handed_defers hcfg ((accepts_false_iff ..).2 hacc) hq hm)

end Sys2Proof.Machine
end

section
/-! Bay copies are stamped (O40). -/

namespace Sys2Proof.Machine

/-! ## A bay copy taken (R61, R76) -/

/-- R76. The entry after a bay copy. -/
def State.bayEntry (s : State) (e : Entry) (a : Arrival) : Entry :=
  { e.accepted a false s.settings.freshMargin with sendNext := e.sendNext + 1 }

/-- R76. A bay copy offered to both lanes under its stamp, and as received to the other bay ports of a set. -/
def handOnBay (set : PortSet) (q : Fin 4) (e : Entry) (a : Arrival) (s : State) : State :=
  offerBays (without set q) (relayRecord a)
    (offerLane .b (stampedRecord a e.sendEpoch e.sendNext) (offerLane .a (stampedRecord a e.sendEpoch e.sendNext) s))

/-- R76, R110. The machine as a bay copy is handed on. -/
def State.bayWritten (s : State) (p : Fin 512) (e : Entry) (a : Arrival) : State :=
  { s with table := s.table.set p (some (s.bayEntry e a))
           journal := { s.journal with claims := s.journal.claims ++ freshClaims s.settings e a } }

theorem acceptBay_eq (p : Fin 512) (e : Entry) (a : Arrival) (q : Fin 4) (s : State) : acceptBay p e a q s =
    deliver (s.bayEntry e a) (a.copy e.sendNext e.sendEpoch) (offer (.streamCopy e.id (contentOf a))
      (handOnBay (s.settings.resolve e.forward) q e a (s.bayWritten p e a))) := by
  have hwritten : freshClaim e a (s.putEntry p (some (s.bayEntry e a))) = s.bayWritten p e a := freshClaim_eq ..
  have hsettings : (offerLane .b (stampedRecord a e.sendEpoch e.sendNext)
      (offerLane .a (stampedRecord a e.sendEpoch e.sendNext) (s.bayWritten p e a))).settings = s.settings := by
    simp only [offerLane_frame]
    rfl
  unfold acceptBay
  dsimp only
  rw [show ({ e.accepted a false s.settings.freshMargin with sendNext := e.sendNext + 1 } : Entry) = s.bayEntry e a from rfl,
    hwritten, hsettings]
  rfl

section
variable (set : PortSet) (q : Fin 4) (e : Entry) (a : Arrival) (s : State)

theorem handOnBay_onlySends : OnlySends s (handOnBay set q e a s) :=
  (offerLane_onlySends .a _ s).trans ((offerLane_onlySends .b _ _).trans (offerBays_onlySends ..))

/-- R76. Where a bay copy goes depends on nothing but the ports. -/
theorem handOnBay_ports {u : State} (hA : u.laneA = s.laneA) (hB : u.laneB = s.laneB) (hbays : BayView u s) :
    (handOnBay set q e a u).laneA = (offerLane .a (stampedRecord a e.sendEpoch e.sendNext) s).laneA
      ∧ (handOnBay set q e a u).laneB = (offerLane .b (stampedRecord a e.sendEpoch e.sendNext) s).laneB
      ∧ BayView (handOnBay set q e a u) (offerBays (without set q) (relayRecord a) s) := by
  unfold handOnBay
  simp only [offerBays_frame]
  refine ⟨?_, ?_, offerBays_bayView _ _ ?_⟩
  · exact (offerLane_other .b _ _).trans (offerLane_port .a _ (s := u) (t := s) hA)
  · exact offerLane_port .b _ ((offerLane_other .a _ u).trans hB)
  · simpa [BayView] using hbays

end

/-- R76. `t` is `s` once a bay copy on port `q` is taken for the entry `e` at `p`; `later` is what its hand-ons claim. -/
structure BayTaken (s t : State) (p : Fin 512) (e : Entry) (a : Arrival) (q : Fin 4) (later : List JournalClaim) : Prop where
  shape : t = { s with
    table := s.table.set p (some (s.bayEntry e a))
    journal := { s.journal with claims := s.journal.claims ++ freshClaims s.settings e a ++ later }
    events := s.events ++ [.streamCopy e.id (contentOf a)]
    laneA := t.laneA, laneB := t.laneB, bays := t.bays, bayGroup := t.bayGroup, subs := t.subs, imageCounts := t.imageCounts }
  laneA : t.laneA = (offerLane .a (stampedRecord a e.sendEpoch e.sendNext) s).laneA
  laneB : t.laneB = (offerLane .b (stampedRecord a e.sendEpoch e.sendNext) s).laneB
  bays : BayView t (offerBays (without (s.settings.resolve e.forward) q) (relayRecord a) s)
  quiet : e.slot = none → t.subs = s.subs ∧ ∀ c ∈ later, c.kind = .counterFirst
  others : ∀ k, e.slot = some k → ∀ m : Fin 64, m ≠ k → t.subs[m] = s.subs[m]
  slot : ∀ k, e.slot = some k → ∃ v, t.subs[k] = (s.subs[k].handed k (a.copy e.sendNext e.sendEpoch) v).1

/-- R43. A bay copy taken in a claim. -/
theorem BayTaken.claimed {f : State → State} {s : State} {p : Fin 512} {e : Entry} {a : Arrival} {q : Fin 4}
    {later : List JournalClaim} (h : BayTaken s (f s) p e a q later) : BayTaken s (asEngineClaim f s) p e a q later :=
  ⟨congrArg (fun u : State => { u with imageCounts := (asEngineClaim f s).imageCounts }) h.shape, h.laneA, h.laneB, h.bays,
    h.quiet, h.others, h.slot⟩

theorem acceptBay_taken {s : State} (hrun : s.partState = .running) (p : Fin 512) (e : Entry) (a : Arrival) (q : Fin 4) :
    ∃ later, BayTaken s (acceptBay p e a q s) p e a q later := by
  obtain ⟨o, ho⟩ : ∃ o, o = handOnBay (s.settings.resolve e.forward) q e a (s.bayWritten p e a) := ⟨_, rfl⟩
  obtain ⟨la, lb, bs, g, firsts, hsent, hfirsts⟩ :=
    handOnBay_onlySends (s.settings.resolve e.forward) q e a (s.bayWritten p e a)
  obtain ⟨hA, hB, hbays⟩ := handOnBay_ports (s.settings.resolve e.forward) q e a s (u := s.bayWritten p e a) rfl rfl
    ⟨rfl, rfl, rfl⟩
  rw [← ho] at hsent hA hB hbays
  obtain ⟨h, hh⟩ : ∃ h : State, h = { o with events := o.events ++ [.streamCopy e.id (contentOf a)] } := ⟨_, rfl⟩
  have hheard : offer (.streamCopy e.id (contentOf a)) o = h := by
    rw [hh]
    refine offer_running ?_ _
    rw [hsent]
    exact hrun
  have hsubs : h.subs = s.subs := by
    rw [hh, hsent]
    rfl
  rw [acceptBay_eq, ← ho, hheard]
  obtain ⟨⟨more, hshape, hnone, -⟩, hunheld, hheld, hothers⟩ :=
    deliver_handed (s.bayEntry e a) (a.copy e.sendNext e.sendEpoch) h
  obtain ⟨t, ht⟩ : ∃ t, t = deliver (s.bayEntry e a) (a.copy e.sendNext e.sendEpoch) h := ⟨_, rfl⟩
  rw [← ht] at hshape hunheld hheld hothers ⊢
  rw [hsubs] at hunheld hheld hothers
  have hports : t.laneA = o.laneA ∧ t.laneB = o.laneB ∧ BayView t o := by
    rw [hshape, hh]
    exact ⟨rfl, rfl, rfl, rfl, rfl⟩
  obtain ⟨hA', hB', hpart', hbays', hgroup'⟩ := hports
  obtain ⟨hpart, hbays, hgroup⟩ := hbays
  refine ⟨firsts ++ more, ?_, hA'.trans hA, hB'.trans hB, ⟨hpart'.trans hpart, hbays'.trans hbays, hgroup'.trans hgroup⟩,
    fun hslot => ⟨hunheld hslot, ?_⟩, hothers, fun k hk => ⟨_, hheld k hk⟩⟩
  · rw [hshape, hh, hsent, ← List.append_assoc _ firsts more]
    rfl
  · rw [hnone hslot, List.append_nil]
    exact hfirsts

/-! ## The step -/

section
variable {s : State} {q : Fin 4} {a : Arrival} {more : List Arrival} {p : Fin 512} {e : Entry}

theorem takeArrival_bay (hport : a.port = .bay q) (hlook : s.lookup a.header.id = some (p, e)) (ho : e.origin = .localBay q) :
    takeArrival a s = acceptBay p e a q s := by
  unfold takeArrival
  rw [hport]
  dsimp only
  unfold takeBayCopy
  rw [hlook]
  exact if_pos ho

theorem accepts_bay (hport : a.port = .bay q) (hlook : s.lookup a.header.id = some (p, e)) (ho : e.origin = .localBay q) :
    s.accepts a = true := by
  unfold State.accepts
  rw [hlook, hport]
  exact beq_iff_eq.2 ho

/-- R38, R61, R76, R108. A step of the engine that takes a bay copy of its port's stream. -/
theorem exec_bay (hready : engineReady s = true) (hchosen : chosenPort s = some (.bay q)) (ha : s.bays[q].arrivals = a :: more)
    (hport : a.port = .bay q) (hlook : s.lookup a.header.id = some (p, e)) (ho : e.origin = .localBay q) :
    ∃ b t later, exec .arrivalTaken s = (if a.header.hold ≠ 0
          ∧ reached s.clock (a.time + millis a.header.hold + millis s.settings.freshMargin) = true
          then exec (.freshnessExpiry e.id) t else .next t)
      ∧ b = { s.modifyBay q (fun x => { x with arrivals := more }) with lastServed := .bay q }
      ∧ BayTaken b t p e a q later := by
  have hpop : popArrival (.bay q) s = { s.modifyBay q (fun x => { x with arrivals := more }) with lastServed := .bay q } :=
    popArrival_eq ha
  obtain ⟨b, hb⟩ : ∃ b, b = popArrival (.bay q) s := ⟨_, rfl⟩
  have htable : b.table = s.table := by rw [hb]; exact popArrival_table _ s
  have hlook' : b.lookup a.header.id = some (p, e) := (lookup_of_table htable _).trans hlook
  have hrun : b.partState = .running := by
    rw [hb, hpop]
    exact engineReady_running hready
  have hsettings : b.settings = s.settings := by
    rw [hb, hpop]
    rfl
  obtain ⟨later, htaken⟩ := acceptBay_taken hrun p e a q
  rw [← takeArrival_bay hport hlook' ho] at htaken
  refine ⟨b, _, later, ?_, hb.trans hpop, htaken.claimed⟩
  refine exec_accepted hready hchosen ha hlook (by rw [← hb]; exact accepts_bay hport hlook' ho) (by rw [hb])
    (e' := b.bayEntry e a) ?_ rfl ?_
  · rw [← htable]
    exact congrArg State.table htaken.shape
  · rw [← hsettings]
    rfl

end

/-- Settles O40: the step is `exec_bay`, and what it makes of the machine `BayTaken`. -/
theorem bayCopiesAreStamped : Obligations.BayCopiesAreStamped := by
  refine ⟨stampEpoch_bytes, ?_⟩
  intro s q a more p e due copy hready hchosen ha hport hlook ho hdue hcopy
  subst hdue
  obtain ⟨b, t, later, hexec, hb, htaken⟩ := exec_bay hready hchosen ha hport hlook ho
  obtain ⟨hshape, hA, hB, ⟨-, hbays, hgroup⟩, hquiet, hothers, hheld⟩ := htaken
  have hset : b.settings = s.settings := by rw [hb]; rfl
  have hentry : b.bayEntry e a = s.bayEntry e a := by
    unfold State.bayEntry
    rw [hset]
  have hsubs : b.subs = s.subs := by rw [hb]; rfl
  have htable : t.table = s.table.set p (some (s.bayEntry e a)) := by
    rw [← hentry]
    refine (congrArg State.table hshape).trans ?_
    rw [hb]
    rfl
  have hclaims : t.journal.claims = s.journal.claims ++ freshClaims s.settings e a ++ later := by
    refine (congrArg (fun u : State => u.journal.claims) hshape).trans ?_
    rw [hb]
    rfl
  have hevents : t.events = s.events ++ [.streamCopy e.id (contentOf a)] := by
    refine (congrArg State.events hshape).trans ?_
    rw [hb]
    rfl
  have hstamped : stampedRecord a e.sendEpoch e.sendNext = copy := hcopy.symm
  have hlaneA : b.laneA = s.laneA := by rw [hb]; rfl
  have hlaneB : b.laneB = s.laneB := by rw [hb]; rfl
  rw [hstamped] at hA hB
  rw [hset] at hbays hgroup
  rw [hsubs] at hquiet hothers hheld
  have hfinal := offerBays_bayView (without (s.settings.resolve e.forward) q) (relayRecord a) (s := b)
    (t := s.modifyBay q (fun x => { x with arrivals := more })) (by rw [hb]; exact ⟨rfl, rfl, rfl⟩)
  obtain ⟨-, hbays', hgroup'⟩ := hfinal
  refine ⟨t, s.bayEntry e a, hexec, htable, rfl, rfl, satInc_stays _, rfl, rfl, rfl, rfl, rfl, rfl,
    fun last hlast hage hfresh => longestAfter_observed hlast hage hfresh,
    fun hwhy => longestAfter_kept (hwhy.imp_right (Or.imp_right .inl)), rfl, rfl, rfl, rfl, rfl, rfl,
    hA.trans (offerLane_port .a _ (s := b) (t := s) hlaneA), hB.trans (offerLane_port .b _ (s := b) (t := s) hlaneB),
    ⟨_, rfl, hbays.trans hbays', hgroup.trans hgroup'⟩, hevents, ⟨later, ?_, fun hslot => (hquiet hslot).2⟩,
    fun hslot => (hquiet hslot).1, fun k m hk hm => hothers k hk m hm, fun k cfg hk hcfg hp hacc => ?_, ?_⟩
  · rw [hclaims, freshClaims, hport]
  · obtain ⟨v, hsub⟩ := hheld k hk
    have hbegins := hsub.trans (handed_begins (k := k) (v := v) hcfg ((accepts_iff ..).2 hacc) hp rfl)
    exact ⟨_, congrArg SubSlot.inProgress hbegins, rfl, rfl, hport, rfl⟩
  · rw [htable, hclaims, hevents]
    refine hshape.trans ?_
    rw [hentry, hb]
    rfl

end Sys2Proof.Machine
end

section
/-! How a lane copy is judged (R63 to R69): by its epoch, by its sequence, by the mark at its position. -/

namespace Sys2Proof.Machine

/-! ## The epoch (R64) -/

theorem judge_sameEpoch (w : Window) (seq : Word) (l : Lane) :
    judge (some w) w.epoch seq l = ((w.judgeSeq seq l).1, some (w.judgeSeq seq l).2) := by
  unfold judge
  dsimp only
  exact if_pos (by simp)

theorem judge_newerEpoch {w : Window} {epoch : Byte} (seq : Word) (l : Lane) (h1 : 1 ≤ (epoch - w.epoch).toNat)
    (h2 : (epoch - w.epoch).toNat ≤ 127) :
    judge (some w) epoch seq l = (.firstNewEpoch w.epoch, some (Window.start seq epoch l)) := by
  unfold judge
  dsimp only
  rw [if_neg (by omega), if_pos h2]

theorem judge_olderEpoch {w : Window} {epoch : Byte} (seq : Word) (l : Lane) (h : 128 ≤ (epoch - w.epoch).toNat) :
    judge (some w) epoch seq l = (.oldEpoch, some w) := by
  unfold judge
  dsimp only
  rw [if_neg (by omega), if_neg (by omega)]

/-- R64. Every epoch is the window's, a newer or an older one. -/
theorem epoch_cases (epoch own : Byte) : epoch = own ∨ (1 ≤ (epoch - own).toNat ∧ (epoch - own).toNat ≤ 127)
    ∨ 128 ≤ (epoch - own).toNat := by
  by_cases h : epoch = own
  · exact .inl h
  · have hne : (epoch - own).toNat ≠ 0 := fun h0 => h (by bv_omega)
    omega

/-! ## The marks (R63, R68, R69) -/

theorem ofLane_ne_empty (l : Lane) : Mark.ofLane l ≠ .empty := by cases l <;> decide

theorem judgeMark_empty (l : Lane) : judgeMark .empty l = (.firstFilled, Mark.ofLane l) := by cases l <;> rfl

theorem judgeMark_other (l : Lane) : judgeMark (Mark.ofLane l.other) l = (.twin, .both) := by cases l <;> rfl

theorem judgeMark_own (l : Lane) : judgeMark (Mark.ofLane l) l = (.repeated, Mark.ofLane l) := by cases l <;> rfl

theorem judgeMark_both (l : Lane) : judgeMark .both l = (.repeated, .both) := by cases l <;> rfl

/-- A mark that stands is that of the copy's lane, of the other lane, or of both. -/
theorem mark_cases (l : Lane) {x : Mark} (h : x ≠ .empty) : x = Mark.ofLane l ∨ x = Mark.ofLane l.other ∨ x = .both := by
  cases x with
  | empty => exact absurd rfl h
  | a => cases l <;> decide
  | b => cases l <;> decide
  | both => exact .inr (.inr rfl)

/-- R69. A copy judged at a position leaves a mark there. -/
theorem judgeMark_marks (x : Mark) (l : Lane) : (judgeMark x l).2 ≠ .empty := by
  by_cases h : x = .empty
  · rw [h, judgeMark_empty]
    exact ofLane_ne_empty l
  · obtain rfl | rfl | rfl := mark_cases l h
    · rw [judgeMark_own]
      exact ofLane_ne_empty l
    · rw [judgeMark_other]
      decide
    · rw [judgeMark_both]
      decide

/-- R69. A copy judged at a position that holds a mark is no FIRST. -/
theorem judgeMark_not_first {x : Mark} (l : Lane) (h : x ≠ .empty) : (judgeMark x l).1.isFirst = false := by
  obtain rfl | rfl | rfl := mark_cases l h
  · rw [judgeMark_own]
    rfl
  · rw [judgeMark_other]
    rfl
  · rw [judgeMark_both]
    rfl

theorem start_mark (seq : Word) (epoch : Byte) (l : Lane) (i : Fin 32) :
    (Window.start seq epoch l).marks[i] = if i.val = 0 then Mark.ofLane l else .empty := by
  refine (Vector.getElem_set (by decide) i.isLt).trans ?_
  rw [Vector.getElem_replicate]
  exact if_congr eq_comm rfl rfl

section
variable (w : Window) (seq : Word) (d : Nat) (l : Lane)

theorem forward_mark_arrived : (w.forward seq d l).marks[0] = Mark.ofLane l := build_get ..

theorem forward_mark_moved (hd : 1 ≤ d) {i j : Fin 32} (h : j.val = i.val + d) :
    (w.forward seq d l).marks[j] = w.marks[i] := by
  refine (build_fin _ j).trans ?_
  have hi : j.val - d = i.val := by omega
  rw [if_neg (by omega), if_pos (by omega), hi, Vector.getElem?_eq_getElem i.isLt]
  rfl

theorem forward_mark_between {j : Fin 32} (h1 : 1 ≤ j.val) (h2 : j.val < d) : (w.forward seq d l).marks[j] = .empty := by
  refine (build_fin _ j).trans ?_
  rw [if_neg (by omega), if_neg (by omega)]

end

/-! ## The sequence (R67) -/

/-- How far a sequence is ahead of `H`, and how far it is behind. -/
theorem ahead_behind (x y : Word) : (x - y).toNat = (65536 - (y - x).toNat) % 65536 := by bv_omega

section
variable {w : Window} {seq : Word} (l : Lane)

/-- R67, R68. AHEAD: `H` is more than 32,768 beyond the sequence. -/
theorem judgeSeq_ahead (h : 32768 < (w.high - seq).toNat) :
    w.judgeSeq seq l = (.firstAhead, w.forward seq (seq - w.high).toNat l) := by
  have hd := ahead_behind seq w.high
  have hlt := (w.high - seq).isLt
  unfold Window.judgeSeq
  dsimp only
  exact if_neg (by simp only [Bool.or_eq_true, decide_eq_true_eq]; omega)

/-- R67. LATE: behind the window. -/
theorem judgeSeq_late (h1 : 32 ≤ (w.high - seq).toNat) (h2 : (w.high - seq).toNat ≤ 32768) :
    w.judgeSeq seq l = (.late, w) := by
  have hd := ahead_behind seq w.high
  unfold Window.judgeSeq
  dsimp only
  rw [if_pos (by simp only [Bool.or_eq_true, decide_eq_true_eq]; omega), dif_neg (by omega)]

/-- R67, R69. At a position: judged by the mark that stands there. -/
theorem judgeSeq_position {i : Fin 32} (h : (w.high - seq).toNat = i.val) : w.judgeSeq seq l
    = ((judgeMark w.marks[i] l).1, { w with marks := w.marks.set i (judgeMark w.marks[i] l).2 }) := by
  obtain ⟨i, hi⟩ := i
  obtain rfl : (w.high - seq).toNat = i := h
  have hd := ahead_behind seq w.high
  unfold Window.judgeSeq
  dsimp only
  rw [if_pos (by simp only [Bool.or_eq_true, decide_eq_true_eq]; omega), dif_pos hi]
  rfl

/-- R69. A judgement that leaves the mark leaves the window. -/
theorem judgeSeq_position_kept {i : Fin 32} {j : Judgement} (h : (w.high - seq).toNat = i.val)
    (hmark : judgeMark w.marks[i] l = (j, w.marks[i])) : w.judgeSeq seq l = (j, w) := by
  rw [judgeSeq_position l h, hmark]
  exact congrArg (fun marks => (j, { w with marks := marks })) (Vector.set_getElem_self _)

/-- R67. Every sequence is AHEAD, behind the window, or at a position. -/
theorem seq_cases (w : Window) (seq : Word) : 32768 < (w.high - seq).toNat
    ∨ (32 ≤ (w.high - seq).toNat ∧ (w.high - seq).toNat ≤ 32768) ∨ ∃ i : Fin 32, (w.high - seq).toNat = i.val := by
  by_cases h : (w.high - seq).toNat < 32
  · exact .inr (.inr ⟨⟨_, h⟩, rfl⟩)
  · omega

/-- R67. Judging by the sequence leaves the epoch. -/
theorem judgeSeq_epoch (w : Window) (seq : Word) (l : Lane) : (w.judgeSeq seq l).2.epoch = w.epoch := by
  obtain h | ⟨h1, h2⟩ | ⟨i, h⟩ := seq_cases w seq
  · rw [judgeSeq_ahead l h]
    rfl
  · rw [judgeSeq_late l h1 h2]
  · rw [judgeSeq_position l h]

end

/-- Settles O32: the epoch by `judge_sameEpoch` and its like, the sequence by `judgeSeq_ahead`, `judgeSeq_late` and
`judgeSeq_position`, the marks as `judgeMark` changes them. -/
theorem copiesAreJudgedByTheWindow : Obligations.CopiesAreJudgedByTheWindow := by
  refine ⟨fun epoch seq l => ⟨rfl, rfl, rfl, start_mark seq epoch l, fun w => ⟨?_, judge_newerEpoch seq l,
    judge_olderEpoch seq l⟩⟩, ?_⟩
  · rintro rfl
    exact judge_sameEpoch w seq l
  rintro w seq l d rfl
  have hback := ahead_behind w.high seq
  refine ⟨fun h1 h2 => ?_, fun h1 h2 => judgeSeq_late l (by omega) (by omega), fun i hi => ?_⟩
  · rw [judgeSeq_ahead l (by omega)]
    exact ⟨rfl, rfl, rfl, forward_mark_arrived .., fun i j => forward_mark_moved w seq _ l h1,
      fun j => forward_mark_between w seq _ l⟩
  · have hlt := (seq - w.high).isLt
    have hat : (w.high - seq).toNat = i.val := by omega
    refine ⟨fun hm => ?_, fun hm => ?_, fun hm => ?_, fun hm => ?_⟩
    · rw [judgeSeq_position l hat, hm, judgeMark_empty]
    · rw [judgeSeq_position l hat, hm, judgeMark_other]
    · exact judgeSeq_position_kept l hat (by rw [hm, judgeMark_own])
    · exact judgeSeq_position_kept l hat (by rw [hm, judgeMark_both])

end Sys2Proof.Machine
end

section
/-! No message is FIRST twice (R71). -/

namespace Sys2Proof.Machine

/-! ## A sequence that a window has judged -/

/-- R71. `H` is at most 32,768 beyond the sequence, and where the sequence stands in the window it holds a mark. -/
def Window.Spent (seq : Word) (w : Window) : Prop :=
  (w.high - seq).toNat ≤ 32768 ∧ ∀ i : Fin 32, (w.high - seq).toNat = i.val → w.marks[i] ≠ .empty

theorem start_spent (seq : Word) (epoch : Byte) (l : Lane) : (Window.start seq epoch l).Spent seq := by
  have hzero : ((Window.start seq epoch l).high - seq).toNat = 0 := congrArg BitVec.toNat (BitVec.sub_self seq)
  refine ⟨by omega, fun i hi => ?_⟩
  rw [start_mark, if_pos (by omega)]
  exact ofLane_ne_empty l

theorem forward_spent_own (w : Window) (seq : Word) (d : Nat) (l : Lane) : (w.forward seq d l).Spent seq := by
  have hzero : ((w.forward seq d l).high - seq).toNat = 0 := congrArg BitVec.toNat (BitVec.sub_self seq)
  refine ⟨by omega, fun i hi => ?_⟩
  obtain rfl : i = 0 := Fin.ext (by omega)
  exact ne_of_eq_of_ne (forward_mark_arrived ..) (ofLane_ne_empty l)

/-- R69. A mark set where a copy is judged takes no other away. -/
theorem set_mark_stands {marks : Vector Mark 32} {k i : Fin 32} {m : Mark} (hm : m ≠ .empty) (h : i ≠ k → marks[i] ≠ .empty) :
    (marks.set k m)[i] ≠ .empty := by
  rw [Fin.getElem_fin, Vector.getElem_set]
  split
  · exact hm
  · next hne => exact h fun hik => hne (congrArg Fin.val hik.symm)

/-- R71. What a judged copy leaves is spent. -/
theorem judgeSeq_spent (w : Window) (seq : Word) (l : Lane) : (w.judgeSeq seq l).2.Spent seq := by
  obtain h | ⟨h1, h2⟩ | ⟨k, h⟩ := seq_cases w seq
  · rw [judgeSeq_ahead l h]
    exact forward_spent_own ..
  · rw [judgeSeq_late l h1 h2]
    refine ⟨h2, fun i hi => ?_⟩
    have hi : (w.high - seq).toNat = i.val := hi
    omega
  · rw [judgeSeq_position l h]
    refine ⟨show (w.high - seq).toNat ≤ 32768 by omega, fun i hi => set_mark_stands (judgeMark_marks _ _) fun hne => ?_⟩
    exact absurd (Fin.ext (hi.symm.trans h)) hne

namespace Window.Spent
variable {w : Window} {seq : Word}

theorem not_first (h : w.Spent seq) (l : Lane) : (w.judgeSeq seq l).1.isFirst = false := by
  obtain ⟨hbound, hmark⟩ := h
  obtain hfar | ⟨h1, h2⟩ | ⟨i, hi⟩ := seq_cases w seq
  · omega
  · rw [judgeSeq_late l h1 h2]
    rfl
  · rw [judgeSeq_position l hi]
    exact judgeMark_not_first l (hmark i hi)

/-- R68. The window moved forward over less than the rest of the circle brings no position back. -/
theorem forward (h : w.Spent seq) {d : Nat} (next : Word) (l : Lane) (h1 : 1 ≤ d) (h2 : d ≤ 32767)
    (hd : d = (next - w.high).toNat) (hbound : (next - seq).toNat ≤ 32768) : (w.forward next d l).Spent seq := by
  obtain ⟨hbefore, hmark⟩ := h
  have hsum : (next - seq).toNat = (w.high - seq).toNat + d := by bv_omega
  refine ⟨hbound, fun j hj => ?_⟩
  have hj : (next - seq).toNat = j.val := hj
  have hlt : (w.high - seq).toNat < 32 := by omega
  rw [forward_mark_moved w next d l h1 (i := ⟨_, hlt⟩) (show j.val = (w.high - seq).toNat + d by omega)]
  exact hmark _ rfl

/-- R71. Judging another copy of the epoch keeps it spent, while `H` stays at most 32,768 beyond. -/
theorem judgeSeq (h : w.Spent seq) (next : Word) (l : Lane)
    (hbound : ((w.judgeSeq next l).2.high - seq).toNat ≤ 32768) : (w.judgeSeq next l).2.Spent seq := by
  obtain hfar | ⟨h1, h2⟩ | ⟨k, hk⟩ := seq_cases w next
  · rw [judgeSeq_ahead l hfar] at hbound ⊢
    have hd := ahead_behind next w.high
    have hlt := (w.high - next).isLt
    exact h.forward next l (by omega) (by omega) rfl hbound
  · rw [judgeSeq_late l h1 h2]
    exact h
  · rw [judgeSeq_position l hk]
    obtain ⟨hbefore, hmark⟩ := h
    exact ⟨hbefore, fun i hi => set_mark_stands (judgeMark_marks _ _) fun _ => hmark i hi⟩

end Window.Spent

/-! ## A message that a window has judged -/

/-- R71. A copy of the epoch and sequence is no FIRST any more: the window has gone on to a newer epoch, or the sequence is spent in
the window of this one. -/
def Spent (epoch : Byte) (seq : Word) (v : Option Window) : Prop :=
  ∃ w, v = some w ∧ (128 ≤ (epoch - w.epoch).toNat ∨ w.epoch = epoch ∧ w.Spent seq)

theorem judge_spent (v : Option Window) (epoch : Byte) (seq : Word) (l : Lane) : Spent epoch seq (judge v epoch seq l).2 := by
  cases v with
  | none => exact ⟨_, rfl, .inr ⟨rfl, start_spent ..⟩⟩
  | some w =>
    obtain rfl | ⟨h1, h2⟩ | h := epoch_cases epoch w.epoch
    · rw [judge_sameEpoch]
      exact ⟨_, rfl, .inr ⟨judgeSeq_epoch .., judgeSeq_spent ..⟩⟩
    · rw [judge_newerEpoch seq l h1 h2]
      exact ⟨_, rfl, .inr ⟨rfl, start_spent ..⟩⟩
    · rw [judge_olderEpoch seq l h]
      exact ⟨w, rfl, .inl h⟩

theorem Spent.not_first {epoch : Byte} {seq : Word} {v : Option Window} (h : Spent epoch seq v) (l : Lane) :
    (judge v epoch seq l).1.isFirst = false := by
  obtain ⟨w, rfl, h | ⟨rfl, h⟩⟩ := h
  · rw [judge_olderEpoch seq l h]
    rfl
  · rw [judge_sameEpoch]
    exact h.not_first l

/-- R71. A copy judged that begins no newer epoch keeps it spent, while `H` stays at most 32,768 beyond. -/
theorem Spent.judge {epoch : Byte} {seq : Word} {v : Option Window} (h : Spent epoch seq v) (e : Byte) (next : Word) (l : Lane)
    (hold : ∀ old, (judge v e next l).1 ≠ .firstNewEpoch old)
    (hbound : ∀ x, (judge v e next l).2 = some x → x.epoch = epoch → (x.high - seq).toNat ≤ 32768) :
    Spent epoch seq (judge v e next l).2 := by
  obtain ⟨w, rfl, h⟩ := h
  obtain rfl | ⟨h1, h2⟩ | holder := epoch_cases e w.epoch
  · rw [judge_sameEpoch] at hbound ⊢
    have hepoch := judgeSeq_epoch w next l
    refine ⟨_, rfl, h.imp (fun h => by rwa [hepoch]) fun ⟨hsame, h⟩ => ⟨hepoch.trans hsame, ?_⟩⟩
    exact h.judgeSeq next l (hbound _ rfl (hepoch.trans hsame))
  · rw [judge_newerEpoch next l h1 h2] at hold
    exact absurd rfl (hold w.epoch)
  · rw [judge_olderEpoch next l holder]
    exact ⟨w, rfl, h⟩

/-- R71. So do the copies of a list, one after the other. -/
theorem Spent.judgeAll {epoch : Byte} {seq : Word} {left : List (Byte × Word × Lane) → Option Window}
    (hempty : Spent epoch seq (left []))
    (hstep : ∀ before c, left (before ++ [c]) = (Machine.judge (left before) c.1 c.2.1 c.2.2).2)
    (between : List (Byte × Word × Lane))
    (hold : ∀ before c after old, between = before ++ c :: after →
      (Machine.judge (left before) c.1 c.2.1 c.2.2).1 ≠ .firstNewEpoch old)
    (hbound : ∀ before after x, between = before ++ after → left before = some x → x.epoch = epoch →
      (x.high - seq).toNat ≤ 32768) : Spent epoch seq (left between) := by
  induction between using List.reverseRecOn with
  | nil => exact hempty
  | append_singleton before c ih =>
    have hbefore : Spent epoch seq (left before) := ih
      (fun first d rest old hd => hold first d (rest ++ [c]) old (by rw [hd, List.append_assoc, List.cons_append]))
      (fun first rest x hd => hbound first (rest ++ [c]) x (by rw [hd, List.append_assoc]))
    rw [hstep]
    refine hbefore.judge c.1 c.2.1 c.2.2 (fun old => hold before c [] old rfl) fun x hx => ?_
    exact hbound (before ++ [c]) [] x (List.append_nil _).symm ((hstep before c).trans hx)

/-- Settles O33: a judged message is `Spent` against the window it leaves, and stays so. -/
theorem noMessageIsFirstTwice : Obligations.NoMessageIsFirstTwice := by
  intro w epoch seq l m
  have hjudged := judge_spent w epoch seq l
  refine ⟨hjudged.not_first m, fun between left hleft hold hbound => ?_, ?_⟩
  · have hempty : Spent epoch seq (left []) := by
      rw [hleft]
      exact hjudged
    have hstep (before : List (Byte × Word × Lane)) (c : Byte × Word × Lane) :
        left (before ++ [c]) = (judge (left before) c.1 c.2.1 c.2.2).2 := by
      rw [hleft, hleft, List.foldl_append]
      rfl
    exact (Spent.judgeAll hempty hstep between hold hbound).not_first m
  · rintro x rfl hfar
    rw [judge_sameEpoch, judgeSeq_ahead m hfar]

end Sys2Proof.Machine
end

section
/-! A lane copy that is not FIRST is discarded (R72, R73). -/

namespace Sys2Proof.Machine

/-! ## The totals (R73) -/

/-- R8, R73. One update of the counters group raises the lane's repeat total. -/
theorem counters_repeat (l : Lane) (c : Counters) : c.update (·.addRepeat l) = { c with
    edition := c.edition + 2
    repeatsA := if l = .a then c.repeatsA + 1 else c.repeatsA
    repeatsB := if l = .b then c.repeatsB + 1 else c.repeatsB } := by
  have hrises (x : Long) : x + 1 ≠ x := by bv_omega
  have hchanges : c.addRepeat l ≠ c := by
    cases l with
    | a => exact fun h => hrises _ (congrArg Counters.repeatsA h)
    | b => exact fun h => hrises _ (congrArg Counters.repeatsB h)
  refine (if_neg hchanges).trans ?_
  cases l <;> rfl

/-! ## The judgement -/

section
variable {s : State} {l : Lane} {a : Arrival} {p : Fin 512} {e : Entry} {j : Judgement} {w : Option Window}

/-- R72, R73. What the engine makes of a copy of the entry `e` at `p` that is not FIRST. -/
def discardCopy (p : Fin 512) (e : Entry) (j : Judgement) (w : Option Window) (a : Arrival) (l : Lane) (s : State) : State :=
  match j with
  | .twin => { s with
      table := s.table.set p (some { e with window := w, twins := satInc e.twins })
      twinClaims := s.twinClaims ++ [.twin e.id e.serial (a.seq.getD 0) l a.time] }
  | .repeated => { s with
      table := s.table.set p (some { e with repeats := satInc e.repeats })
      counters := s.counters.update (·.addRepeat l) }
  | _ => { s with table := s.table.set p (some { e with late := satInc e.late }) }

/-- R45, R64, R72, R73. A lane copy that is not FIRST is taken as one. -/
theorem takeArrival_discarded (hport : a.port = .lane l) (hlook : s.lookup a.header.id = some (p, e)) (ho : e.origin = .remote)
    (hj : judge e.window a.header.epoch (a.seq.getD 0) l = (j, w)) (hnot : j.isFirst = false) :
    takeArrival a s = discardCopy p e j w a l s := by
  unfold takeArrival
  rw [hport]
  dsimp only
  unfold takeLaneCopy
  dsimp only
  rw [hlook]
  dsimp only
  rw [if_pos ho]
  unfold judgeRemote
  rw [hj]
  dsimp only
  rw [hnot]
  cases j <;> rfl

theorem accepts_discarded (hport : a.port = .lane l) (hlook : s.lookup a.header.id = some (p, e))
    (hj : judge e.window a.header.epoch (a.seq.getD 0) l = (j, w)) (hnot : j.isFirst = false) : s.accepts a = false := by
  unfold State.accepts
  rw [hlook, hport]
  dsimp only
  rw [hj, hnot, Bool.and_false]

/-- R38, R72, R73. A step of the engine that takes a lane copy which is not FIRST. -/
theorem exec_discarded {more : List Arrival} (hready : engineReady s = true) (hchosen : chosenPort s = some (.lane l))
    (ha : (s.lane l).arrivals = a :: more) (hport : a.port = .lane l) (hlook : s.lookup a.header.id = some (p, e))
    (ho : e.origin = .remote) (hj : judge e.window a.header.epoch (a.seq.getD 0) l = (j, w)) (hnot : j.isFirst = false) :
    ∃ counts, exec .arrivalTaken s = .next { discardCopy p e j w a l
      { s.modifyLane l (fun x => { x with arrivals := more }) with lastServed := .lane l } with imageCounts := counts } := by
  have hpop : popArrival (.lane l) s = { s.modifyLane l (fun x => { x with arrivals := more }) with lastServed := .lane l } :=
    popArrival_eq ha
  have hlook' : (popArrival (.lane l) s).lookup a.header.id = some (p, e) :=
    (lookup_of_table (popArrival_table _ s) _).trans hlook
  refine ⟨(asEngineClaim (takeArrival a) (popArrival (.lane l) s)).imageCounts, ?_⟩
  rw [exec_arrivalTaken hready hchosen ha, judgeArrival_unaccepted (accepts_discarded hport hlook' hj hnot), ← hpop,
    ← takeArrival_discarded hport hlook' ho hj hnot]
  rfl

end

/-- Settles O35: the step is `exec_discarded`, and what it makes of the machine `discardCopy`. -/
theorem copiesNotFirstAreDiscarded : Obligations.CopiesNotFirstAreDiscarded := by
  intro s l a more p e j w hready hchosen ha hport hlook ho hj
  have hstep := exec_discarded hready hchosen ha hport hlook ho hj
  refine ⟨?_, ?_, ?_⟩
  · rintro rfl
    obtain ⟨counts, hexec⟩ := hstep rfl
    refine ⟨_, hexec, ?_, ?_, rfl⟩
    · rw [← satInc_stays]
      cases l <;> rfl
    · cases l <;> rfl
  · rintro rfl
    obtain ⟨counts, hexec⟩ := hstep rfl
    refine ⟨_, hexec, ?_, ?_, rfl⟩
    · rw [← satInc_stays]
      cases l <;> rfl
    · rw [← counters_repeat]
      cases l <;> rfl
  · intro hwhy
    have hnot : j.isFirst = false := by obtain rfl | rfl := hwhy <;> rfl
    obtain ⟨counts, hexec⟩ := hstep hnot
    have hlate (u : State) : discardCopy p e j w a l u
        = { u with table := u.table.set p (some { e with late := satInc e.late }) } := by
      obtain rfl | rfl := hwhy <;> rfl
    rw [hlate] at hexec
    refine ⟨_, hexec, ?_, rfl⟩
    rw [← satInc_stays]
    cases l <;> rfl

end Sys2Proof.Machine
end

section
/-! Twin Watch: watches made, abandoned and expired, and twins judged (R78 to R84, R96). -/

namespace Sys2Proof.Machine

/-! ## The counters group under Twin Watch -/

/-- R8, R80. The unwatched total raised is always a change of the group. -/
theorem counters_unwatched (c : Counters) : c.update (fun c => { c with unwatched := c.unwatched + 1 }) =
    { c with unwatched := c.unwatched + 1, edition := c.edition + 2 } := by
  have hrises : c.unwatched + 1 ≠ c.unwatched := by bv_omega
  exact if_neg fun h => hrises (congrArg Counters.unwatched h)

theorem addMiss_misses (l : Lane) (c : Counters) :
    (c.addMiss l).missesA = (if l = .a then c.missesA + 1 else c.missesA)
      ∧ (c.addMiss l).missesB = (if l = .b then c.missesB + 1 else c.missesB) := by
  cases l <;> exact ⟨rfl, rfl⟩

theorem addLateTwin_lateTwins (l : Lane) (c : Counters) :
    (c.addLateTwin l).lateTwinsA = (if l = .a then c.lateTwinsA + 1 else c.lateTwinsA)
      ∧ (c.addLateTwin l).lateTwinsB = (if l = .b then c.lateTwinsB + 1 else c.lateTwinsB) := by
  cases l <;> exact ⟨rfl, rfl⟩

/-- R83. An on-time twin's delay moves the longest delays alone. -/
theorem noteDelay_eq (l : Lane) (d : Long) (c : Counters) : c.noteDelay l d =
    { c with longestA := (c.noteDelay l d).longestA, longestB := (c.noteDelay l d).longestB } := by
  unfold Counters.noteDelay
  split
  · cases l <;> rfl
  · rfl

/-- R83. A delay that is not negative and longer than the lane's longest takes its place. -/
theorem noteDelay_longest (l : Lane) (d : Long) (c : Counters) : (c.noteDelay l d).longest l =
    if d.toNat < 0x80000000 ∧ (c.longest l).toNat < d.toNat then d else c.longest l := by
  have hlonger : (!d.msb && decide ((c.longest l).toNat < d.toNat)) = true
      ↔ d.toNat < 0x80000000 ∧ (c.longest l).toNat < d.toNat := by
    simp [BitVec.msb_eq_decide]
  unfold Counters.noteDelay
  by_cases h : d.toNat < 0x80000000 ∧ (c.longest l).toNat < d.toNat
  · rw [if_pos (hlonger.2 h), if_pos h]
    cases l <;> rfl
  · rw [if_neg (mt hlonger.1 h), if_neg h]

theorem noteDelay_longest_other (l : Lane) (d : Long) (c : Counters) :
    (c.noteDelay l d).longest l.other = c.longest l.other := by
  unfold Counters.noteDelay
  split
  · cases l <;> rfl
  · rfl

theorem countersUpdate_longest (f : Counters → Counters) (c : Counters) (l : Lane) : (c.update f).longest l = (f c).longest l := by
  rw [countersUpdate_eq]
  cases l <;> rfl

/-! ## Watch requests and removals (R80, R84, R96) -/

theorem insertWatch_length (w : WatchEntry) (ws : List WatchEntry) : (insertWatch w ws).length = ws.length + 1 := by
  have hparts := congrArg List.length (List.takeWhile_append_dropWhile (p := fun v => reached w.deadline v.deadline) (l := ws))
  unfold insertWatch
  simp only [List.length_append, List.length_singleton] at hparts ⊢
  omega

/-- R78. The counters group shows how many entries the list holds. -/
theorem setWatch_watchCount (ws : List WatchEntry) (also : Counters → Counters) (s : State) :
    (setWatch ws also s).counters.watchCount = BitVec.ofNat 16 ws.length := by
  simp [setWatch, Counters.noteWatch]

section
variable {s : State} {id serial seq : Word} {l : Lane} {time : Clock} {rest : List TwinClaim}

/-- R80. The request at the head of the engine's claims is judged. -/
theorem exec_watchRequest (h : s.twinClaims = .watch id serial seq l time :: rest) :
    exec .watchRequest s = .next (watchAsked id serial seq l time { s with twinClaims := rest }) := by
  change execWatchRequest s = _
  rw [execWatchRequest, h]

theorem watchAsked_idle (hc : (s.lane l.other).group.state.carries = false) : watchAsked id serial seq l time s = s :=
  if_pos (by rw [hc]; rfl)

theorem watchAsked_full (hc : (s.lane l.other).group.state.carries = true) (hfull : Config.watchRoom ≤ s.watchList.length) :
    watchAsked id serial seq l time s =
      { s with counters := { s.counters with unwatched := s.counters.unwatched + 1, edition := s.counters.edition + 2 } } := by
  unfold watchAsked
  rw [if_neg (by rw [hc]; exact Bool.false_ne_true), if_pos hfull, updateCounters, counters_unwatched]

/-- R80. A message that is not on the list joins it. -/
theorem watchAsked_joins (hc : (s.lane l.other).group.state.carries = true) (hroom : s.watchList.length < Config.watchRoom)
    (hnew : ∀ w ∈ s.watchList, ¬(w.id = id ∧ w.seq = seq)) :
    watchAsked id serial seq l time s =
      setWatch (insertWatch (watchFor id serial seq l time s) s.watchList) (fun c => c)
        { s with missNotes := s.missNotes.filter (fun n => !n.isFor id serial seq) } := by
  have hany : ¬s.watchList.any (fun w => w.id == id && w.seq == seq) = true := by simpa using hnew
  unfold watchAsked
  rw [if_neg (by rw [hc]; exact Bool.false_ne_true), if_neg (Nat.not_le.2 hroom), if_neg hany]

end

/-- R84, R96. The entries chosen go and are counted as abandoned, the notes chosen go, and no miss is counted. -/
theorem dropWatches_drops (entry : WatchEntry → Bool) (note : MissNote → Bool) (s : State) :
    (dropWatches entry note s).watchList = s.watchList.filter (fun w => !entry w)
      ∧ (dropWatches entry note s).missNotes = s.missNotes.filter (fun n => !note n)
      ∧ (dropWatches entry note s).counters.abandoned
          = s.counters.abandoned + BitVec.ofNat 32 (s.watchList.filter entry).length
      ∧ (dropWatches entry note s).counters.missesA = s.counters.missesA
      ∧ (dropWatches entry note s).counters.missesB = s.counters.missesB
      ∧ dropWatches entry note s = { s with
          watchList := (dropWatches entry note s).watchList
          missNotes := (dropWatches entry note s).missNotes
          counters := (dropWatches entry note s).counters } := by
  refine ⟨rfl, rfl, ?_, ?_, ?_, rfl⟩ <;> simp [dropWatches, setWatch, Counters.noteWatch]

theorem exec_abandon {s : State} {id serial : Word} {rest : List TwinClaim} (h : s.twinClaims = .abandon id serial :: rest) :
    exec .abandon s = .next (abandonStream id serial { s with twinClaims := rest }) := by
  change execAbandon s = _
  rw [execAbandon, h]

theorem exec_laneCleanup {s : State} {l : Lane} {rest : List Lane} (h : s.cleanups = l :: rest) :
    exec .laneCleanup s = .next (cleanLane l { s with cleanups := rest }) := by
  change execLaneCleanup s = _
  rw [execLaneCleanup, h]

/-- Settles O41: the place is `insertWatch_parts`, a request is judged by the `watchAsked` lemmas, and what goes is `dropWatches_drops`. -/
theorem watchesAreMadeAndAbandoned : Obligations.WatchesAreMadeAndAbandoned := by
  refine ⟨insertWatch_parts, fun s id serial seq l time rest h => ⟨fun hc => ?_, fun hc hfull => ?_, fun hc hroom hnew => ?_⟩,
    fun s id serial rest h => ?_, fun s l rest h => ?_⟩
  · exact (exec_watchRequest h).trans (congrArg _ (watchAsked_idle (s := { s with twinClaims := rest }) hc))
  · exact (exec_watchRequest h).trans (congrArg _ (watchAsked_full (s := { s with twinClaims := rest }) hc hfull))
  · have joins := (exec_watchRequest h).trans
      (congrArg Host.Outcome.next (watchAsked_joins (s := { s with twinClaims := rest }) hc hroom hnew))
    exact ⟨_, joins, rfl, (setWatch_watchCount ..).trans (congrArg _ (insertWatch_length ..)), rfl, rfl⟩
  · exact ⟨_, exec_abandon h, dropWatches_drops _ _ { s with twinClaims := rest }⟩
  · exact ⟨_, exec_laneCleanup h, dropWatches_drops _ _ { s with cleanups := rest }⟩

/-! ## Expiries (R81) -/

theorem exec_watchExpiry {s : State} {w : WatchEntry} {rest : List WatchEntry} (h : s.watchList = w :: rest) :
    exec .watchExpiry s = if reached s.clock w.deadline then .next (watchExpired w rest s) else .next s := by
  change execWatchExpiry s = _
  rw [execWatchExpiry, h]

/-- R81. The counts of a miss, and of a list one entry shorter. -/
theorem watchExpired_counters (w : WatchEntry) (rest : List WatchEntry) (s : State) :
    (watchExpired w rest s).counters.missesA = (if w.absent = .a then s.counters.missesA + 1 else s.counters.missesA)
      ∧ (watchExpired w rest s).counters.missesB = (if w.absent = .b then s.counters.missesB + 1 else s.counters.missesB)
      ∧ (watchExpired w rest s).counters.watchCount = BitVec.ofNat 16 rest.length := by
  refine ⟨?_, ?_, setWatch_watchCount ..⟩ <;> simp [watchExpired, setWatch, Counters.noteWatch, addMiss_misses]

/-- Settles O42: an expiry in its time is `watchExpired`, with the counts of `watchExpired_counters`. -/
theorem watchExpiryCountsAMiss : Obligations.WatchExpiryCountsAMiss := by
  intro s w rest h
  refine ⟨fun early => ?_, fun due => ?_⟩
  · rw [exec_watchExpiry h, early]
    rfl
  · have expires : exec .watchExpiry s = .next (watchExpired w rest s) := by
      rw [exec_watchExpiry h, due]
      rfl
    obtain ⟨hA, hB, hcount⟩ := watchExpired_counters w rest s
    exact ⟨_, expires, rfl, rfl, rfl, hA, hB, hcount, rfl⟩

/-! ## Twins (R83) -/

section
variable {s : State} {id serial seq : Word} {l : Lane} {time : Clock} {rest : List TwinClaim}

theorem exec_twinTaken (h : s.twinClaims = .twin id serial seq l time :: rest) :
    exec .twinTaken s = .next (twinJudged id serial seq l time { s with twinClaims := rest }) := by
  change execTwinTaken s = _
  rw [execTwinTaken, h]

theorem twinJudged_onTime {w : WatchEntry} (hw : s.watchList.find? (·.isFor id serial seq) = some w) :
    twinJudged id serial seq l time s = { s with
      reports := s.reports ++ [.credit id serial l]
      watchList := s.watchList.filter (fun v => !v.isFor id serial seq)
      counters := s.counters.update (fun c =>
        (c.noteDelay l (time - w.first)).noteWatch (s.watchList.filter (fun v => !v.isFor id serial seq)).length) } := by
  unfold twinJudged
  rw [hw]
  rfl

theorem find_unwatched (hno : ∀ w ∈ s.watchList, ¬(w.id = id ∧ w.serial = serial ∧ w.seq = seq)) :
    s.watchList.find? (·.isFor id serial seq) = none := by
  simpa [WatchEntry.isFor] using hno

theorem twinJudged_late (hno : ∀ w ∈ s.watchList, ¬(w.id = id ∧ w.serial = serial ∧ w.seq = seq))
    (hnote : ∃ n ∈ s.missNotes, n.id = id ∧ n.serial = serial ∧ n.seq = seq) :
    twinJudged id serial seq l time s = { s with
      missNotes := s.missNotes.filter (fun n => !n.isFor id serial seq)
      counters := s.counters.update (·.addLateTwin l) } := by
  have hany : s.missNotes.any (·.isFor id serial seq) = true := by simpa [MissNote.isFor, and_assoc] using hnote
  unfold twinJudged
  rw [find_unwatched hno]
  exact if_pos hany

theorem twinJudged_unwatched (hno : ∀ w ∈ s.watchList, ¬(w.id = id ∧ w.serial = serial ∧ w.seq = seq))
    (hnote : ∀ n ∈ s.missNotes, ¬(n.id = id ∧ n.serial = serial ∧ n.seq = seq)) :
    twinJudged id serial seq l time s = { s with reports := s.reports ++ [.credit id serial l] } := by
  have hany : ¬s.missNotes.any (·.isFor id serial seq) = true := by simpa [MissNote.isFor] using hnote
  unfold twinJudged
  rw [find_unwatched hno]
  exact if_neg hany

end

/-- R78, R83. What an on-time twin leaves of the counters group, on a list that then holds `n` entries. -/
theorem counters_onTime (l : Lane) (d : Long) (n : Nat) (c : Counters) :
    c.update (fun c => (c.noteDelay l d).noteWatch n) = { c with
      edition := (c.update (fun c => (c.noteDelay l d).noteWatch n)).edition
      watchCount := BitVec.ofNat 16 n
      watchMost := if c.watchMost.toNat < n then BitVec.ofNat 16 n else c.watchMost
      longestA := (c.update (fun c => (c.noteDelay l d).noteWatch n)).longestA
      longestB := (c.update (fun c => (c.noteDelay l d).noteWatch n)).longestB } := by
  have hA : (c.update (fun c => (c.noteDelay l d).noteWatch n)).longestA = (c.noteDelay l d).longestA :=
    countersUpdate_longest _ c .a
  have hB : (c.update (fun c => (c.noteDelay l d).noteWatch n)).longestB = (c.noteDelay l d).longestB :=
    countersUpdate_longest _ c .b
  rw [hA, hB]
  refine (countersUpdate_eq _ c).trans ?_
  rw [noteDelay_eq]
  rfl

/-- Settles O43: the three outcomes are the three `twinJudged` lemmas, and an on-time twin's counts `counters_onTime`. -/
theorem twinTakenIsJudged : Obligations.TwinTakenIsJudged := by
  intro s id serial seq l time rest h
  have judged := exec_twinTaken h
  refine ⟨fun w hw => ?_, fun hno hnote => ?_, fun hno hnote => ?_⟩
  · rw [twinJudged_onTime (s := { s with twinClaims := rest }) hw] at judged
    refine ⟨_, judged, rfl, rfl, ?_, ?_, ?_, rfl⟩
    · exact (countersUpdate_longest ..).trans (noteDelay_longest ..)
    · exact (countersUpdate_longest ..).trans (noteDelay_longest_other ..)
    · exact counters_onTime ..
  · rw [twinJudged_late (s := { s with twinClaims := rest }) hno hnote] at judged
    obtain ⟨hA, hB⟩ := addLateTwin_lateTwins l s.counters
    refine ⟨_, judged, rfl, rfl, ?_, ?_, rfl⟩
    · rw [← hA]
      simp
    · rw [← hB]
      simp
  · rw [twinJudged_unwatched (s := { s with twinClaims := rest }) hno hnote] at judged
    exact judged

end Sys2Proof.Machine
end

section
/-! What the Lane Supervisor makes of a lone count change and of a proving timer's expiry (R89, R90, R92, R93, R98, R99). -/

namespace Sys2Proof.Machine

/-! ## Lane states (R90, R93) -/

theorem judged_iff (n : LaneState) : n.judged = true ↔ n.carries = true ∧ n ≠ .proving := by
  cases n <;> decide

/-- R90. An evaluated lane is judged. -/
theorem evaluation_judged (lone quorum : Word) : (evaluation lone quorum).judged = true := by
  unfold evaluation
  (repeat' split) <;> rfl

/-- R90. What each lone count makes of a lane. -/
theorem evaluation_spec (lone quorum : Word) :
    (lone = 0 → evaluation lone quorum = .healthy)
      ∧ (1 ≤ lone.toNat → lone.toNat < quorum.toNat → evaluation lone quorum = .suspect)
      ∧ (1 ≤ lone.toNat → quorum.toNat ≤ lone.toNat → evaluation lone quorum = .degraded) := by
  have hzero (h : 1 ≤ lone.toNat) : lone ≠ 0 := by
    rintro rfl
    exact absurd h (by decide)
  refine ⟨fun h => if_pos h, fun h hq => ?_, fun h hq => ?_⟩
  · rw [evaluation, if_neg (hzero h), if_pos hq]
  · rw [evaluation, if_neg (hzero h), if_neg (Nat.not_lt.2 hq)]

theorem serves_iff (n : LaneState) : n.serves = true ↔ n = .healthy ∨ n = .suspect := by
  cases n <;> decide

/-- R99. The redundancy by how many of the two lanes serve. -/
theorem redundancyOf_spec (a b : LaneState) : redundancyOf a b =
    (if (a = .healthy ∨ a = .suspect) ∧ (b = .healthy ∨ b = .suspect) then .dual
      else if (a = .healthy ∨ a = .suspect) ∨ (b = .healthy ∨ b = .suspect) then .single else .none) := by
  simp only [← serves_iff]
  unfold redundancyOf
  cases a.serves <;> cases b.serves <;> rfl

/-! ## A lane that enters a judged state -/

/-- R92. What a lane's port keeps as the lane enters a judged state. -/
theorem moveLane_judged {n : LaneState} (hn : n.judged = true) (l : Lane) (c : LaneCause) (f : LaneGroup → LaneGroup) (s : State) :
    ((moveLane l n c f s).lane l).group.state = n
      ∧ ((moveLane l n c f s).lane l).group.lone = (f (s.lane l).group).lone
      ∧ ((moveLane l n c f s).lane l).provingEnds = none ∧ ((moveLane l n c f s).lane l).cycle = (s.lane l).cycle := by
  obtain ⟨hcarries, hproving⟩ := (judged_iff n).1 hn
  rw [moveLane_lane_self]
  simp [LanePort.entered, hcarries, hproving]

/-! ## The proving timer (R92) -/

/-- R92. The expiry of a timer that the part clock has reached, of a lane still PROVING. -/
theorem exec_provingTimer {s : State} {l : Lane} {ends : Clock} (hends : (s.lane l).provingEnds = some ends)
    (hdue : reached s.clock ends = true) (hp : (s.lane l).group.state = .proving) :
    exec (.provingTimerExpiry l) s =
      .next (moveLane l (evaluation (s.lane l).group.lone s.settings.degradeQuorum) .provingTimer id s) := by
  refine congrArg Host.Outcome.next ?_
  unfold provingExpired
  rw [hends]
  exact if_pos (by rw [hdue, hp]; rfl)

/-- Settles O46: the lane moves to its evaluation, which is a judged state. -/
theorem provingTimerEvaluatesTheLane : Obligations.ProvingTimerEvaluatesTheLane := by
  refine ⟨fun s l ends hends hdue hp => ?_, evaluation_spec, by decide, by decide, redundancyOf_spec⟩
  have hjudged := evaluation_judged (s.lane l).group.lone s.settings.degradeQuorum
  obtain ⟨hstate, hlone, htimer, hcycle⟩ := moveLane_judged hjudged l .provingTimer id s
  refine ⟨_, exec_provingTimer hends hdue hp, hstate, hlone, htimer, hcycle, moveLane_lane_other .., moveLane_redundancy .., ?_, ?_⟩
  · rw [moveLane_claims, hstate, verdictClaim, hp]
    rfl
  · rw [moveLane_events, hstate]

/-! ## Lone counts (R89, R93) -/

section
variable {s : State} {c : LoneChange}

/-- R89. The change at the head of those handed on is applied. -/
theorem exec_loneChange {rest : List LoneChange} {i : Instr} (h : s.loneChanges = c :: rest)
    (hi : i = (if c.rise then .loneCountRise else .loneCountFall)) :
    exec i s = .next (applyLone c { s with loneChanges := rest }) := by
  have taken : takeLone c.rise s = applyLone c { s with loneChanges := rest } := by
    unfold takeLone
    rw [h]
    exact if_pos rfl
  rw [hi, ← taken]
  cases c.rise <;> rfl

theorem applyLone_stale (h : c.cycle ≠ (s.lane c.lane).cycle) : applyLone c s = s := if_pos h

/-- R89. The lone count as a change of the present cycle leaves it. -/
def State.loneAfter (s : State) (c : LoneChange) : Word := ((s.lane c.lane).group.loneChanged c.rise).lone

theorem loneAfter_eq (s : State) (c : LoneChange) : s.loneAfter c =
    (if c.rise then (s.lane c.lane).group.lone + 1
      else if (s.lane c.lane).group.lone = 0 then 0 else (s.lane c.lane).group.lone - 1) := rfl

/-- R93. A judged lane whose evaluation is another state moves to it. -/
theorem applyLone_moves (h : c.cycle = (s.lane c.lane).cycle) (hj : (s.lane c.lane).group.state.judged = true)
    (hne : evaluation (s.loneAfter c) s.settings.degradeQuorum ≠ (s.lane c.lane).group.state) :
    applyLone c s = moveLane c.lane (evaluation (s.loneAfter c) s.settings.degradeQuorum) .loneCount (·.loneChanged c.rise) s := by
  unfold applyLone
  rw [if_neg (not_not_intro h)]
  exact if_pos (by rw [hj]; exact decide_eq_true hne)

/-- R89. A lane that is not judged, or that its evaluation leaves where it is, counts. -/
theorem applyLone_counts (h : c.cycle = (s.lane c.lane).cycle)
    (hstays : (s.lane c.lane).group.state.judged = true →
      evaluation (s.loneAfter c) s.settings.degradeQuorum = (s.lane c.lane).group.state) :
    applyLone c s = updateLane c.lane (·.loneChanged c.rise) s := by
  have stays : ¬((s.lane c.lane).group.state.judged
      && evaluation (s.loneAfter c) s.settings.degradeQuorum ≠ (s.lane c.lane).group.state) = true := by
    rw [Bool.and_eq_true, decide_eq_true_eq]
    exact fun ⟨hj, hne⟩ => hne (hstays hj)
  unfold applyLone
  rw [if_neg (not_not_intro h)]
  exact if_neg stays

/-- R89, R93, R98, R99. What a lone count change of the lane's present cycle makes of the machine: from `s` to `t`. -/
structure LoneTaken (c : LoneChange) (s t : State) : Prop where
  lone : (t.lane c.lane).group.lone = s.loneAfter c
  state : (t.lane c.lane).group.state = (if (s.lane c.lane).group.state.judged then
    evaluation (s.loneAfter c) s.settings.degradeQuorum else (s.lane c.lane).group.state)
  quiet : (t.lane c.lane).group.state = (s.lane c.lane).group.state →
    t.journal = s.journal ∧ t.events = s.events ∧ t.redundancy = s.redundancy
  redundancy : (t.lane c.lane).group.state ≠ (s.lane c.lane).group.state →
    t.redundancy = redundancyOf t.laneA.group.state t.laneB.group.state
  claims : (t.lane c.lane).group.state ≠ (s.lane c.lane).group.state → t.journal.claims = s.journal.claims
    ++ [verdictClaim c.lane (s.lane c.lane).group.state (t.lane c.lane).group.state (s.loneAfter c) .loneCount s.clock]
    ++ (if t.redundancy = s.redundancy then [] else
        [{ kind := .redundancy, subject := .lane c.lane, time := s.clock, d1 := redundancyCode s.redundancy
           d2 := redundancyCode t.redundancy, d3 := 0 }])
  events : (t.lane c.lane).group.state ≠ (s.lane c.lane).group.state → t.events = s.events ++ (if s.partState = .running then
    [.lane c.lane (t.lane c.lane).group.state] ++ (if t.redundancy = s.redundancy then [] else [.redundancy t.redundancy])
    else [])
  other : t.lane c.lane.other = s.lane c.lane.other
  table : t.table = s.table
  changes : t.loneChanges = s.loneChanges

theorem loneTaken_of_moves (h : c.cycle = (s.lane c.lane).cycle) (hj : (s.lane c.lane).group.state.judged = true)
    (hne : evaluation (s.loneAfter c) s.settings.degradeQuorum ≠ (s.lane c.lane).group.state) : LoneTaken c s (applyLone c s) := by
  have hjudged := evaluation_judged (s.loneAfter c) s.settings.degradeQuorum
  rw [applyLone_moves h hj hne]
  obtain ⟨hstate, hlone, -, -⟩ := moveLane_judged hjudged c.lane .loneCount (·.loneChanged c.rise) s
  refine ⟨hlone, hstate.trans (if_pos hj).symm, fun same => absurd (hstate.symm.trans same) hne, fun _ => moveLane_redundancy ..,
    fun _ => ?_, fun _ => ?_, moveLane_lane_other .., by simp, by simp⟩
  · rw [moveLane_claims, hstate]
    rfl
  · rw [moveLane_events, hstate]

theorem loneTaken_of_counts (h : c.cycle = (s.lane c.lane).cycle)
    (hstays : (s.lane c.lane).group.state.judged = true →
      evaluation (s.loneAfter c) s.settings.degradeQuorum = (s.lane c.lane).group.state) : LoneTaken c s (applyLone c s) := by
  rw [applyLone_counts h hstays]
  obtain ⟨t, ht⟩ : ∃ t, t = updateLane c.lane (·.loneChanged c.rise) s := ⟨_, rfl⟩
  have hsame : (t.lane c.lane).group.state = (s.lane c.lane).group.state := by simp [ht, LaneGroup.loneChanged]
  have hlone : (t.lane c.lane).group.lone = s.loneAfter c := by simp [ht, State.loneAfter]
  rw [← ht]
  refine ⟨hlone, ?_, fun _ => ?_, fun hne => absurd hsame hne, fun hne => absurd hsame hne, fun hne => absurd hsame hne, ?_, ?_, ?_⟩
  · rw [hsame]
    split
    next hj => exact (hstays hj).symm
    next => rfl
  all_goals simp [ht]

/-- R89. A lone count change of the lane's present cycle. -/
theorem applyLone_taken (h : c.cycle = (s.lane c.lane).cycle) : LoneTaken c s (applyLone c s) := by
  by_cases hstays : (s.lane c.lane).group.state.judged = true →
      evaluation (s.loneAfter c) s.settings.degradeQuorum = (s.lane c.lane).group.state
  · exact loneTaken_of_counts h hstays
  · obtain ⟨hj, hne⟩ := Classical.not_imp.1 hstays
    exact loneTaken_of_moves h hj hne

end

/-- Settles O45: a change of the present cycle is `LoneTaken`, whether the lane moves or only counts. -/
theorem loneChangesEvaluateTheLane : Obligations.LoneChangesEvaluateTheLane := by
  intro s c rest i h hi
  have applied := exec_loneChange h hi
  refine ⟨fun hstale => ?_, fun hcycle => ?_⟩
  · rw [applyLone_stale (s := { s with loneChanges := rest }) hstale] at applied
    exact applied
  · have taken := applyLone_taken (s := { s with loneChanges := rest }) hcycle
    obtain ⟨t, ht⟩ : ∃ t, t = applyLone c { s with loneChanges := rest } := ⟨_, rfl⟩
    rw [← ht] at applied taken
    refine ⟨t, applied, taken.changes, taken.lone, ?_, taken.quiet, fun hne => ⟨taken.redundancy hne, ?_, taken.events hne⟩,
      taken.other, taken.table⟩
    · rw [taken.lone]
      exact taken.state
    · rw [taken.lone]
      exact taken.claims hne

end Sys2Proof.Machine
end

section
/-! Where the bare route stands after the commands that move a lane (R100, R101). -/

namespace Sys2Proof.Machine

/-- R100. How the bare route follows the lanes' states, from `s` to `t`. -/
structure RouteFollows (s t : State) : Prop where
  stays : (∀ m, (t.lane m).group.state = (s.lane m).group.state) → t.bareRoute = s.bareRoute
  alone : ∀ m, (t.lane m).group.state ≠ (s.lane m).group.state →
    (t.lane m.other).group.state = (s.lane m.other).group.state
  leaves : ∀ m, (t.lane m).group.state ≠ (s.lane m).group.state →
    ((t.lane m).group.state = .down ∨ (t.lane m).group.state = .held) → t.bareRoute =
      (if s.bareRoute = m ∧ (s.lane m.other).group.state.carries = true then m.other else s.bareRoute)
  proves : ∀ m, (t.lane m).group.state ≠ (s.lane m).group.state → (t.lane m).group.state = .proving → t.bareRoute =
    (if (t.lane s.bareRoute).group.state = .down ∨ (t.lane s.bareRoute).group.state = .held then m else s.bareRoute)
  heals : ∀ m, (t.lane m).group.state ≠ (s.lane m).group.state → (t.lane m).group.state = .healthy →
    t.bareRoute = (if m = s.settings.bareLane then m else s.bareRoute)
  serves : ∀ m, (t.lane m).group.state ≠ (s.lane m).group.state →
    ((t.lane m).group.state = .suspect ∨ (t.lane m).group.state = .degraded) → t.bareRoute = s.bareRoute

/-- What the bare route follows is the same in `s` and `t`: the lanes' states, the route and the preferred lane. -/
structure SameRoute (s t : State) : Prop where
  state : ∀ m, (t.lane m).group.state = (s.lane m).group.state
  route : t.bareRoute = s.bareRoute
  preferred : t.settings.bareLane = s.settings.bareLane

theorem lane_cases (l m : Lane) : m = l ∨ m = l.other := by
  cases l <;> cases m <;> decide

section
variable {s t u : State}

theorem SameRoute.refl (s : State) : SameRoute s s := ⟨fun _ => rfl, rfl, rfl⟩

/-- A change of one lane's port that leaves its state. -/
theorem SameRoute.of_lane {l : Lane} (hself : (t.lane l).group.state = (s.lane l).group.state)
    (hother : t.lane l.other = s.lane l.other) (hroute : t.bareRoute = s.bareRoute) (hset : t.settings = s.settings) :
    SameRoute s t := by
  refine ⟨fun m => ?_, hroute, by rw [hset]⟩
  rcases lane_cases l m with rfl | rfl
  · exact hself
  · rw [hother]

theorem SameRoute.follows (h : SameRoute s t) : RouteFollows s t :=
  ⟨fun _ => h.route, fun m hm => absurd (h.state m) hm, fun m hm => absurd (h.state m) hm, fun m hm => absurd (h.state m) hm,
    fun m hm => absurd (h.state m) hm, fun m hm => absurd (h.state m) hm⟩

/-- A change that begins where nothing of the route has changed yet. -/
theorem SameRoute.trans_follows (h : SameRoute s u) (hut : RouteFollows u t) : RouteFollows s t := by
  obtain ⟨stays, alone, leaves, proves, heals, serves⟩ := hut
  simp only [h.state, h.route, h.preferred] at stays alone leaves proves heals serves
  exact ⟨stays, alone, leaves, proves, heals, serves⟩

/-- A change after which nothing of the route changes any more. -/
theorem RouteFollows.trans_same (h : RouteFollows s u) (hut : SameRoute u t) : RouteFollows s t := by
  obtain ⟨stays, alone, leaves, proves, heals, serves⟩ := h
  simp only [← hut.state, ← hut.route] at stays alone leaves proves heals serves
  exact ⟨stays, alone, leaves, proves, heals, serves⟩

end

/-! ## A lane moves -/

theorem entered_state (n : LaneState) (f : LaneGroup → LaneGroup) (now : Clock) (period : Word) (p : LanePort) :
    (p.entered n f now period).group.state = n := by
  unfold LanePort.entered
  split <;> simp

theorem carries_false_iff (n : LaneState) : n.carries = false ↔ n = .down ∨ n = .held := by
  cases n <;> decide

section
variable (l : Lane) (n : LaneState) (c : LaneCause) (f : LaneGroup → LaneGroup) (s : State)

theorem moveLane_state : ((moveLane l n c f s).lane l).group.state = n := by
  rw [moveLane_lane_self, entered_state]

/-- R100. The route is reconsidered once, in the states after the change. -/
theorem moveLane_route : (moveLane l n c f s).bareRoute = rerouted s.bareRoute s.settings.bareLane l n
    ((moveLane l n c f s).lane s.bareRoute).group.state (s.lane l.other).group.state := by
  have hcarrier (m : Lane) : (moveLane l n c f s).lane m = (enterState l n f s).lane m := by
    unfold moveLane
    simp
  rw [hcarrier]
  unfold moveLane
  simp [reroute]

end

/-- R100. The route follows a lane that changes its state. -/
theorem moveLane_follows {l : Lane} {n : LaneState} {s : State} (c : LaneCause) (f : LaneGroup → LaneGroup)
    (hn : n ≠ (s.lane l).group.state) : RouteFollows s (moveLane l n c f s) := by
  have hstate := moveLane_state l n c f s
  have hroute := moveLane_route l n c f s
  have hother : (moveLane l n c f s).lane l.other = s.lane l.other := moveLane_lane_other ..
  obtain ⟨t, ht⟩ : ∃ t, t = moveLane l n c f s := ⟨_, rfl⟩
  rw [← ht] at hstate hroute hother ⊢
  have moved (m : Lane) (hm : (t.lane m).group.state ≠ (s.lane m).group.state) : m = l := by
    rcases lane_cases l m with rfl | rfl
    · rfl
    · exact absurd (by rw [hother]) hm
  refine ⟨fun same => absurd (hstate.symm.trans (same l)) hn, fun m hm => ?_, fun m hm hin => ?_, fun m hm hin => ?_,
    fun m hm hin => ?_, fun m hm hin => ?_⟩ <;> obtain rfl := moved m hm
  · rw [hother]
  · rw [hroute, ← hstate]
    rcases hin with hin | hin <;> rw [hin] <;> simp [rerouted]
  · rw [hroute, ← hstate, hin]
    simp only [rerouted, ← carries_false_iff]
    cases (t.lane s.bareRoute).group.state.carries <;> rfl
  · rw [hroute, ← hstate, hin]
    rfl
  · rw [hroute, ← hstate]
    rcases hin with hin | hin <;> rw [hin] <;> rfl

/-! ## LANE_HOLD and LANE_RELEASE -/

theorem holdLane_follows (l : Lane) (s : State) : RouteFollows s (holdLane l s) := by
  by_cases h : (s.lane l).group.state = .held
  · rw [holdLane_held h]
    exact (SameRoute.refl s).follows
  · rw [holdLane_carried h]
    exact moveLane_follows _ _ (Ne.symm h)

theorem releaseLane_follows (l : Lane) (c : LaneCause) (s : State) : RouteFollows s (releaseLane l c s) := by
  unfold releaseLane
  split
  next h =>
    refine moveLane_follows _ _ ?_
    rw [h]
    split <;> exact LaneState.noConfusion
  next => exact (SameRoute.refl s).follows

theorem working_sameRoute (echo : Word) (code : ResultCode) (d : Word) (f : Finish) (s : State) :
    SameRoute s (working echo code d f s) := ⟨fun _ => rfl, rfl, rfl⟩

/-- R14. A lane command that fails its checks leaves the route. -/
theorem laneCommand_follows (echo : Word) {run : Lane → State → State} (hrun : ∀ l s, RouteFollows s (run l s)) (s : State) :
    RouteFollows s (laneCommand echo run s) := by
  unfold laneCommand inRunning
  split
  · dsimp only
    split
    next l _ => exact (hrun l s).trans_same (working_sameRoute ..)
    next => exact (working_sameRoute ..).follows
  · exact (working_sameRoute ..).follows

/-- R2, R4, R13. So does a write of the command word that is discarded or refused. -/
theorem hostWrite_follows {v : Word} (hv : ∀ s, RouteFollows s (takeCommand v s)) (s : State) :
    RouteFollows s (hostWrite commandWord v s) := by
  by_cases hi : s.partState = .initialising
  · rw [hostWrite_initialising _ _ _ hi]
    exact (SameRoute.refl s).follows
  cases hw : s.working with
  | none =>
    rw [hostWrite_command v s hi hw]
    have stored : SameRoute s { s with mem := writeWord s.mem commandWord v } := ⟨fun _ => rfl, rfl, rfl⟩
    exact stored.trans_follows (hv _)
  | some w =>
    have refused : s.sideNow commandWord ≠ .host := by
      rw [sideNow_working hi (by rw [hw]; rfl) (.inl rfl)]
      exact Side.noConfusion
    rw [hostWrite_refused _ _ _ hi refused, refuseWrite_eq]
    exact SameRoute.follows ⟨fun _ => rfl, rfl, rfl⟩

/-! ## The link of a lane port -/

theorem linkRaised_sameRoute (l : Lane) (s : State) : SameRoute s (linkRaised l s) := by
  obtain ⟨-, hstate, -, -, hother⟩ := linkRaised_lane l s
  obtain ⟨-, -, hset, -⟩ := linkRaised_frame l s
  exact .of_lane hstate hother (by simp [linkRaised]) hset

theorem laneUp_idle {l : Lane} {s : State} (h : s.partState = .initialising ∨ (s.lane l).group.link = true) :
    laneUp l s = s.setLanePin l true := if_pos (by simpa using h)

theorem laneDown_idle {l : Lane} {cut : Bool} {s : State} (h : s.partState = .initialising ∨ (s.lane l).group.link = false) :
    laneDown l cut s = s.setLanePin l false := if_pos (by simpa using h)

theorem setLanePin_sameRoute (l : Lane) (up : Bool) (s : State) : SameRoute s (s.setLanePin l up) :=
  ⟨fun m => by rw [setLanePin_lane], by simp, by simp⟩

theorem laneUp_follows (l : Lane) (s : State) : RouteFollows s (laneUp l s) := by
  by_cases h : s.partState = .initialising ∨ (s.lane l).group.link = true
  · rw [laneUp_idle h]
    exact (setLanePin_sameRoute ..).follows
  obtain ⟨hp, hl⟩ := not_or.1 h
  have raised := linkRaised_sameRoute l s
  rw [laneUp_eq hp (Bool.eq_false_iff.2 hl)]
  split
  next hd =>
    refine raised.trans_follows (moveLane_follows _ _ ?_)
    rw [raised.state, hd]
    exact LaneState.noConfusion
  next => exact raised.trans_follows (SameRoute.of_lane (l := l) (by simp) (by simp) (by simp) (by simp)).follows

theorem linkDropped_sameRoute (l : Lane) (cut : Bool) (s : State) : SameRoute s (linkDropped l cut s) := by
  obtain ⟨-, hstate, -⟩ := linkDropped_group l cut s
  obtain ⟨-, -, -, -, hother⟩ := linkDropped_port l cut s
  exact .of_lane hstate hother (by cases cut <;> simp [linkDropped]) (by cases cut <;> simp [linkDropped])

theorem laneDown_follows (l : Lane) (cut : Bool) (s : State) : RouteFollows s (laneDown l cut s) := by
  by_cases h : s.partState = .initialising ∨ (s.lane l).group.link = false
  · rw [laneDown_idle h]
    exact (setLanePin_sameRoute ..).follows
  obtain ⟨hp, hl⟩ := not_or.1 h
  have dropped := linkDropped_sameRoute l cut s
  rw [laneDown_eq cut hp (Bool.eq_true_of_not_eq_false hl)]
  split
  next hc =>
    refine dropped.trans_follows (moveLane_follows _ _ fun hd => ?_)
    rw [dropped.state] at hd
    rw [← hd] at hc
    cases hc
  next => exact dropped.follows

/-! ## Evaluations -/

theorem provingExpired_follows (l : Lane) (s : State) : RouteFollows s (provingExpired l s) := by
  unfold provingExpired
  split
  · split
    next h =>
      obtain ⟨-, hp⟩ := Bool.and_eq_true_iff.1 h
      refine moveLane_follows _ _ ?_
      rw [of_decide_eq_true hp]
      obtain ⟨-, hne⟩ := (judged_iff _).1 (evaluation_judged (s.lane l).group.lone s.settings.degradeQuorum)
      exact hne
    next => exact (SameRoute.refl s).follows
  · exact (SameRoute.refl s).follows

theorem applyLone_follows (c : LoneChange) (s : State) : RouteFollows s (applyLone c s) := by
  by_cases h : c.cycle = (s.lane c.lane).cycle
  · by_cases hstays : (s.lane c.lane).group.state.judged = true →
        evaluation (s.loneAfter c) s.settings.degradeQuorum = (s.lane c.lane).group.state
    · rw [applyLone_counts h hstays]
      exact (SameRoute.of_lane (l := c.lane) (by simp [LaneGroup.loneChanged]) (by simp) (by simp) (by simp)).follows
    · obtain ⟨hj, hne⟩ := Classical.not_imp.1 hstays
      rw [applyLone_moves h hj hne]
      exact moveLane_follows _ _ hne
  · rw [applyLone_stale h]
    exact (SameRoute.refl s).follows

theorem takeLone_follows (rise : Bool) (s : State) : RouteFollows s (takeLone rise s) := by
  unfold takeLone
  split
  next c rest _ =>
    split
    · have taken : SameRoute s { s with loneChanges := rest } := ⟨fun _ => rfl, rfl, rfl⟩
      exact taken.trans_follows (applyLone_follows ..)
    · exact (SameRoute.refl s).follows
  next => exact (SameRoute.refl s).follows

/-- R100. The route follows the lanes at each of the commands that move one lane. -/
theorem exec_route_follows {i : Instr} {l : Lane} (s : State)
    (hi : i = .laneHold ∨ i = .laneRelease ∨ i = .laneLinkUp l ∨ (∃ cut, i = .laneLinkDown l cut) ∨ i = .provingTimerExpiry l
      ∨ i = .loneCountRise ∨ i = .loneCountFall) : ∃ t, exec i s = .next t ∧ RouteFollows s t := by
  obtain rfl | rfl | rfl | ⟨cut, rfl⟩ | rfl | rfl | rfl := hi
  · exact ⟨_, rfl, hostWrite_follows (v := 5) (fun u => laneCommand_follows 5 holdLane_follows u) s⟩
  · exact ⟨_, rfl, hostWrite_follows (v := 6) (fun u => laneCommand_follows 6 (fun l => releaseLane_follows l .laneRelease) u) s⟩
  · exact ⟨_, rfl, laneUp_follows l s⟩
  · exact ⟨_, rfl, laneDown_follows l cut s⟩
  · exact ⟨_, rfl, provingExpired_follows l s⟩
  · exact ⟨_, rfl, takeLone_follows true s⟩
  · exact ⟨_, rfl, takeLone_follows false s⟩

theorem exec_initialisingComplete {s : State} (h : s.partState = .initialising) :
    exec .initialisingComplete s = .next (enterConfig s) := by
  change execInitialisingComplete s = _
  rw [execInitialisingComplete, if_pos h]

/-- R27, R101. The ports' links are taken, and the route stays. -/
theorem enterConfig_bareRoute (s : State) : (enterConfig s).bareRoute = s.bareRoute := by
  unfold enterConfig
  obtain ⟨t, ht, hshape, -⟩ := takeLinks_spec { s with
    partState := .config
    nextClockUpdate := s.clock + 100
    mem := if s.softReset then s.mem else defaultMem
    result := if s.softReset then { echo := 4, code := some .done, detail := 0 } else s.result
    softReset := false }
  rw [ht, hshape]

/-- Settles O30: a reset is `resetTo`, the completion of INITIALISING takes the links alone, and each command that moves a lane
is `exec_route_follows`. -/
theorem bareRouteFollowsTheLanes : Obligations.BareRouteFollowsTheLanes := by
  refine ⟨fun s => ⟨⟨_, rfl, rfl⟩, fun hp hw => ?_, fun hp => ?_⟩, fun s i l hi => ?_⟩
  · have reset : exec .softReset s = _ := congrArg Host.Outcome.next (hostWrite_command 4 s hp hw)
    exact ⟨_, reset, rfl⟩
  · exact ⟨_, exec_initialisingComplete hp, enterConfig_bareRoute s⟩
  · obtain ⟨t, hexec, follows⟩ := exec_route_follows s hi
    exact ⟨t, hexec, follows.stays, fun m hm => ⟨follows.alone m hm, follows.leaves m hm, follows.proves m hm, follows.heals m hm,
      follows.serves m hm⟩⟩

end Sys2Proof.Machine
end

section
/-! A freshness deadline passes (R84, R106, R110, R112). -/

namespace Sys2Proof.Machine

/-! ## The slot of an entry that becomes STALE (R112) -/

/-- R112. The slot shown the view `v` with an entering of STALE: in one update, behind a delivery in progress after its completion. -/
def SubSlot.shownStale (v : EntryView) (x : SubSlot) : SubSlot :=
  if x.inProgress.isSome then { x with told := v, viewsDue := x.viewsDue ++ [{ view := v, stale := true }] }
  else
    { x with
      told := v
      status := { x.status with edition := x.status.edition + 2, view := v, stale := satInc x.status.stale } }

theorem shownStale_quiet {x : SubSlot} (v : EntryView) (h : x.inProgress = none) : (x.shownStale v).status =
    { x.status with edition := x.status.edition + 2, view := v, stale := satInc x.status.stale } := by
  unfold SubSlot.shownStale
  rw [h]
  rfl

theorem shownStale_behind {x : SubSlot} (v : EntryView) (h : x.inProgress.isSome = true) :
    x.shownStale v = { x with told := v, viewsDue := x.viewsDue ++ [{ view := v, stale := true }] } := if_pos h

/-- R112. An entering of STALE is shown even where the view is what the slot was last told. -/
theorem engineView_stale_withSlot (s : State) (k : Fin 64) (x : SubSlot) (cs : List JournalClaim) :
    engineView k true (s.withSlot k x cs) = s.withSlot k (x.shownStale (slotView k (s.withSlot k x cs))) cs := by
  unfold engineView SubSlot.shownStale
  simp only [withSlot_sub, Bool.not_true, Bool.false_and, Bool.false_eq_true, if_false, modifySub_withSlot, writeView,
    updateSlot_withSlot]
  split <;> rfl

theorem engineView_stale_eq (s : State) (k : Fin 64) :
    engineView k true s = { s with subs := modifyAt s.subs k (·.shownStale (slotView k s)) } := by
  have h := engineView_stale_withSlot s k s.subs[k] s.journal.claims
  rw [withSlot_self] at h
  exact h

/-- R112. What slot `k` shows of the entry that it holds. -/
theorem slotView_holds {s : State} {k : Fin 64} {p : Fin 512} {e : Entry} (hp : s.slotEntry k = some p) (he : s.table[p] = some e) :
    slotView k s = s.viewOf e := by
  have h := slotView_withSlot s k s.subs[k] s.journal.claims hp he
  rw [withSlot_self] at h
  exact h

/-! ## The entry (R106, R110) -/

/-- R106, R110. An entry as its deadline passes. -/
def Entry.goneStale (e : Entry) : Entry :=
  { e with fresh := some .stale, deadline := .none, window := if e.origin = .remote then none else e.window }

/-- R84, R106. The entry written, and its watches to be abandoned. -/
def State.staleEntry (s : State) (p : Fin 512) (e : Entry) : State :=
  if e.origin = .remote then handTwin (.abandon e.id e.serial) (s.putEntry p (some e.goneStale))
  else s.putEntry p (some e.goneStale)

theorem staleEntry_eq (s : State) (p : Fin 512) (e : Entry) : s.staleEntry p e = { s with
    table := s.table.set p (some e.goneStale)
    twinClaims := s.twinClaims ++ (if e.origin = .remote then [.abandon e.id e.serial] else []) } := by
  unfold State.staleEntry
  split
  · rfl
  · rw [List.append_nil]
    rfl

/-- R112. The entry written, and shown by the slot that it holds. -/
def State.staleShown (s : State) (p : Fin 512) (e : Entry) : State :=
  match e.slot with
  | some k => engineView k true (s.staleEntry p e)
  | none => s.staleEntry p e

section
variable {s : State} {p : Fin 512} {e : Entry}

theorem staleShown_slotless (h : e.slot = none) : s.staleShown p e = s.staleEntry p e := by
  rw [State.staleShown, h]

theorem staleShown_slot {k : Fin 64} (h : e.slot = some k) : s.staleShown p e = { s.staleEntry p e with
    subs := modifyAt s.subs k (·.shownStale (slotView k (s.staleEntry p e))) } := by
  rw [State.staleShown, h]
  dsimp only
  rw [engineView_stale_eq, staleEntry_eq]

theorem staleShown_frame : s.staleShown p e = { s.staleEntry p e with subs := (s.staleShown p e).subs } := by
  cases h : e.slot with
  | none => rw [staleShown_slotless h]
  | some k => rw [staleShown_slot h]

/-- R112. What the slot is shown has become STALE. -/
theorem slotView_stale {k : Fin 64} (hslot : s.slotEntry k = some p) (hk : e.slot = some k) :
    (slotView k (s.staleEntry p e)).fresh = some .stale := by
  have htable : (s.staleEntry p e).table = s.table.set p (some e.goneStale) := by rw [staleEntry_eq]
  have hget : (s.staleEntry p e).table[p] = some e.goneStale := by rw [htable, set_get, if_pos rfl]
  rw [slotView_holds (slotEntry_written hslot htable hk) hget, viewOf_fresh]
  rfl

end

/-! ## The deadline -/

/-- R106. The STREAM-STALE of a passed deadline. -/
def staleClaims (e : Entry) (time : Clock) (promise margin : Word) (learned : Bool) : List JournalClaim :=
  if e.configured || learned then
    [{ kind := .streamStale, subject := .stream e.id, time := time
       d1 := freshnessCode e.fresh ||| (if e.configured then 0x100 else 0), d2 := promise, d3 := margin }]
  else []

section
variable {s : State} {p : Fin 512} {e : Entry} {time : Clock} {promise margin : Word}

/-- R84, R106, R112. What a passed deadline makes of the machine in RUNNING. -/
theorem goStale_eq (hrun : s.partState = .running) : goStale p e time promise margin s = { s.staleEntry p e with
    subs := (s.staleShown p e).subs
    journal := { s.journal with claims := s.journal.claims ++ staleClaims e time promise margin s.settings.journalLearned }
    events := s.events ++ [.streamStale e.id] } := by
  have hgoes : goStale p e time promise margin s = offer (.streamStale e.id)
      (if e.configured || s.settings.journalLearned then
        claim { kind := .streamStale, subject := .stream e.id, time := time
                d1 := freshnessCode e.fresh ||| bitAt 8 e.configured, d2 := promise, d3 := margin } (s.staleShown p e)
      else s.staleShown p e) := rfl
  obtain ⟨subs, hsubs⟩ : ∃ subs, subs = (s.staleShown p e).subs := ⟨_, rfl⟩
  have hframe : s.staleShown p e = { s.staleEntry p e with subs := subs } := by
    rw [hsubs]
    exact staleShown_frame
  have hbit : bitAt 8 e.configured = if e.configured then 0x100 else 0 := rfl
  rw [← hsubs, hgoes, hframe, staleEntry_eq, hbit, offer, if_pos (by split <;> exact hrun), staleClaims]
  dsimp only
  split
  · rfl
  · rw [List.append_nil]

/-- R106, R108. The expiry of a deadline that the part clock has reached. -/
theorem exec_freshnessExpiry (hlook : s.lookup e.id = some (p, e)) (hdue : e.deadline = .at time promise margin)
    (hreached : reached s.clock time = true) (hage : s.ageingDue = []) :
    exec (.freshnessExpiry e.id) s = .next (asEngineClaim (goStale p e time promise margin) s) := by
  refine congrArg Host.Outcome.next ?_
  unfold expireFreshness
  rw [hlook]
  dsimp only
  rw [hdue]
  exact if_pos (by rw [hreached, hage]; rfl)

end

/-- Settles O48: the step is `exec_freshnessExpiry`, with what `goStale_eq` and, of the slot, `staleShown_slot` make of the machine. -/
theorem freshnessExpiryMakesStale : Obligations.FreshnessExpiryMakesStale := by
  intro s p e time promise margin hrun hlook hdue hreached hage
  have expires := exec_freshnessExpiry hlook hdue hreached hage
  obtain ⟨subs, hsubs⟩ : ∃ subs, subs = (s.staleShown p e).subs := ⟨_, rfl⟩
  obtain ⟨counts, hcounts⟩ : ∃ counts, asEngineClaim (goStale p e time promise margin) s =
      { goStale p e time promise margin s with imageCounts := counts } := ⟨_, rfl⟩
  rw [hcounts, goStale_eq hrun, ← hsubs, staleEntry_eq] at expires
  refine ⟨_, expires, rfl, rfl, rfl, rfl, fun hk => ?_, fun k hk hslot => ?_, rfl⟩
  · rw [hsubs, staleShown_slotless hk, staleEntry_eq]
  · have hview := slotView_stale hslot hk
    obtain ⟨v, hv⟩ : ∃ v, v = slotView k (s.staleEntry p e) := ⟨_, rfl⟩
    rw [← hv] at hview
    have hset : subs = modifyAt s.subs k (·.shownStale v) := by rw [hsubs, staleShown_slot hk, hv]
    have hself : subs[k] = s.subs[k].shownStale v := by
      rw [hset]
      exact modifyAt_get_self ..
    refine ⟨fun m hm => ?_, fun hquiet => ?_, fun hbusy => ?_⟩
    · change subs[m] = s.subs[m]
      rw [hset]
      exact modifyAt_get_ne _ _ _ _ hm.symm
    · have hstatus := (congrArg SubSlot.status hself).trans (shownStale_quiet v hquiet)
      refine ⟨?_, ?_, congrArg SlotStatus.edition hstatus⟩
      · exact (congrArg (·.view.fresh) hstatus).trans hview
      · exact (congrArg SlotStatus.stale hstatus).trans (satInc_stays _)
    · have hbehind := hself.trans (shownStale_behind v hbusy)
      have hstatus := congrArg SubSlot.status hbehind
      have hprogress := congrArg SubSlot.inProgress hbehind
      exact ⟨hstatus, hprogress, _, congrArg SubSlot.viewsDue hbehind, rfl, hview⟩

end Sys2Proof.Machine
end

section
/-! A delivery completes: its words are written, then the outcomes, the updates and the copy that waited (R112, R115 to R125). -/

namespace Sys2Proof.Machine

/-! ## The words of the delivery and the outcomes that waited (R115 to R120, R123 to R125) -/

/-- R119, R122, R124. The status that the delivery `d` writes, with the claims `cs` and those of its update. -/
def SubSlot.written (k : Fin 64) (d : InProgress) (cs : List JournalClaim) (x : SubSlot) : SlotStatus × List JournalClaim :=
  (x.status.delivered d x.supersededDue x.staleDue,
    cs ++ (if d.mismatch = x.status.mismatch then [] else mismatchEntries k d.mismatch d.markedBy)
      ++ notifyEntries k d (x.status.edition + 1))

/-- R115 to R118. The status and the claims once each outcome that waited is written after it. -/
def SubSlot.settledStatus (k : Fin 64) (d : InProgress) (cs : List JournalClaim) (x : SubSlot) :
    SlotStatus × List JournalClaim :=
  x.outcomes.foldl (outcomeWritten k) (x.written k d cs)

/-- R117, R123. The content that the next copy is compared with: that of the delivery `d`, unless an arm has waited. -/
def SubSlot.settledPrevious (d : InProgress) (x : SubSlot) : Option (List Byte) :=
  x.outcomes.foldl SlotOutcome.previous (some (d.copy.content.take Config.contentRoom))

/-- The slot with no delivery in progress and no outcome left, its status `shown`, and `dues` the engine's updates still to make. -/
def SubSlot.settled (shown : SlotStatus) (previous : Option (List Byte)) (dues : List DueView) (x : SubSlot) : SubSlot :=
  { x with
    status := shown, inProgress := none, previous := previous, supersededDue := 0, staleDue := 0, viewsDue := dues
    outcomes := [] }

section
variable (s : State) (k : Fin 64) (x : SubSlot) (cs : List JournalClaim) (d : InProgress) (c : Copy)

theorem writeOutcomes_withSlot {shown : SlotStatus} {claims : List JournalClaim}
    (hshown : x.settledStatus k d cs = (shown, claims)) :
    x.outcomes.foldl (fun s o => applyOutcome k o s)
        ((writeDelivery k d (s.withSlot k x cs)).modifySub k (fun t => { t with outcomes := [] }))
      = s.withSlot k (x.settled shown (x.settledPrevious d) x.viewsDue) claims := by
  obtain ⟨hstatus, hclaims⟩ := Prod.mk.inj hshown
  rw [writeDelivery_withSlot, modifySub_withSlot, applyOutcomes_withSlot, ← hstatus, ← hclaims]
  rfl

/-! ## What waited for the delivery (R112, R121, R122) -/

/-- R112. The engine's updates that waited, where no copy waits. -/
theorem afterDelivery_quiet (hwait : x.waiting = none) :
    afterDelivery k (s.withSlot k x cs) = s.withSlot k
      { x with
        viewsDue := []
        status :=
          { x.status with
            edition := x.status.edition + BitVec.ofNat 16 (2 * x.viewsDue.length)
            view := (x.viewsDue.getLast?.map (·.view)).getD x.status.view
            stale := BitVec.ofNat 16 (min 0xFFFF (x.status.stale.toNat + (x.viewsDue.filter (·.stale)).length)) } } cs := by
  unfold afterDelivery
  rw [withSlot_sub, modifySub_withSlot, hwait]
  exact writeViews_withSlot ..

theorem afterDelivery_next (hwait : x.waiting = some c) :
    afterDelivery k (s.withSlot k x cs) = updatesAndDelivery k c x.viewsDue (s.withSlot k { x with viewsDue := [] } cs) := by
  unfold afterDelivery
  rw [withSlot_sub, modifySub_withSlot, hwait]

/-- R112. The slot once the engine's update `v` is made. -/
def SubSlot.updated (v : DueView) (x : SubSlot) : SubSlot :=
  { x with status :=
    { x.status with
      edition := x.status.edition + 2, view := v.view
      stale := if v.stale then BitVec.ofNat 16 (min 0xFFFF (x.status.stale.toNat + 1)) else x.status.stale } }

theorem writeView_withSlot (v : DueView) : writeView k v (s.withSlot k x cs) = s.withSlot k (x.updated v) cs := by
  unfold writeView
  rw [updateSlot_withSlot, SubSlot.updated, ← satInc_eq]

/-- R121. One update and the waiting delivery: the update made first, or left to write the delivery's view after it (log entry 2). -/
theorem updatesAndDelivery_one (v : DueView) :
    updatesAndDelivery k c [v] (s.withSlot k x cs) =
      if Config.freshnessUpdateFirst s.free then
        { s with free := s.free + 1 }.withSlot k ((x.updated v).begun c (slotView k (s.withSlot k (x.updated v) cs))) cs
      else
        { s with free := s.free + 1 }.withSlot k
          { x.begun c (slotView k (s.withSlot k x cs)) with
            viewsDue := [{ v with view := slotView k (s.withSlot k x cs) }] } cs := by
  have hfree : { s.withSlot k x cs with free := (s.withSlot k x cs).free + 1 }
      = { s with free := s.free + 1 }.withSlot k x cs := rfl
  unfold updatesAndDelivery
  rw [hfree]
  refine if_congr Iff.rfl ?_ ?_
  · rw [writeView_withSlot]
    exact beginDelivery_withSlot ..
  · rw [beginDelivery_withSlot, modifySub_withSlot]
    rfl

/-- R119, R121. The waiting delivery begins, whichever updates are made before it. -/
theorem updatesAndDelivery_begins (dues : List DueView) :
    (updatesAndDelivery k c dues s).subs[k].inProgress.isSome = true := by
  induction dues generalizing s with
  | nil => simp [updatesAndDelivery, beginDelivery]
  | cons v rest ih =>
    unfold updatesAndDelivery
    dsimp only
    split
    · exact ih _
    · simp [beginDelivery]

/-! ## The completion -/

section
variable {shown : SlotStatus} {claims : List JournalClaim} (hshown : x.settledStatus k d cs = (shown, claims))
include hshown

/-- R112, R122. A delivery completes and no copy waits: the updates that waited, and then the marker, are shown. -/
theorem completeDelivery_quiet (hwait : x.waiting = none) :
    completeDelivery k d (s.withSlot k x cs) = s.withSlot k
      { x.settled shown (x.settledPrevious d) [] with
        status :=
          { shown with
            edition := shown.edition + BitVec.ofNat 16 (2 * x.viewsDue.length)
              + (if x.marker = shown.mismatch then 0 else 2)
            view := (x.viewsDue.getLast?.map (·.view)).getD shown.view
            stale := BitVec.ofNat 16 (min 0xFFFF (shown.stale.toNat + (x.viewsDue.filter (·.stale)).length))
            mismatch := x.marker } }
      (claims ++ (if x.marker = shown.mismatch then [] else mismatchEntries k x.marker x.markedBy)) := by
  have hafter := afterDelivery_quiet s k (x.settled shown (x.settledPrevious d) x.viewsDue) claims hwait
  unfold completeDelivery
  rw [withSlot_sub]
  dsimp only
  rw [writeOutcomes_withSlot s k x cs d hshown, hafter, withSlot_sub]
  exact (if_neg Bool.false_ne_true).trans (showFlag_withSlot ..)

/-- R121. A delivery completes and `c` waits: the updates that waited and the delivery of `c` follow. -/
theorem completeDelivery_next (hwait : x.waiting = some c) :
    completeDelivery k d (s.withSlot k x cs) =
      updatesAndDelivery k c x.viewsDue (s.withSlot k (x.settled shown (x.settledPrevious d) []) claims) := by
  have hafter := afterDelivery_next s k (x.settled shown (x.settledPrevious d) x.viewsDue) claims c hwait
  unfold completeDelivery
  rw [withSlot_sub]
  dsimp only
  rw [writeOutcomes_withSlot s k x cs d hshown, hafter]
  exact if_pos (updatesAndDelivery_begins ..)

end

end

theorem exec_deliveryComplete {s : State} {k : Fin 64} {d : InProgress} (h : s.subs[k].inProgress = some d) :
    exec (.deliveryComplete k) s = .next (completeDelivery k d (s.withSlot k s.subs[k] s.journal.claims)) := by
  rw [withSlot_self]
  change execDeliveryComplete k s = _
  unfold execDeliveryComplete
  rw [h]

/-! ## The statement's words for the same -/

/-- R117. The previous content after some outcomes, where `arms` says which of them are arms. -/
theorem foldl_previous {arms : SlotOutcome → Bool} (hdisarmed : arms .disarmed = false)
    (hrefused : ∀ reason c, arms (.refused reason c) = false) (harmed : ∀ view mark, arms (.armed view mark) = true)
    (os : List SlotOutcome) (old : Option (List Byte)) :
    os.foldl SlotOutcome.previous old = if os.any arms then none else old := by
  induction os generalizing old with
  | nil => rfl
  | cons o os ih =>
    rw [List.foldl_cons, ih, List.any_cons]
    cases o with
    | disarmed => rw [hdisarmed]; rfl
    | refused reason c => rw [hrefused]; rfl
    | armed view mark => rw [harmed]; exact ite_self _

/-- R119, R120, R125. The status that a delivery writes, in numerals. -/
theorem delivered_eq (d : InProgress) (superseded stale : Nat) (old : SlotStatus) : old.delivered d superseded stale =
    { old with
      edition := old.edition + 1, view := d.view, mismatch := d.mismatch, truncated := decide (256 < d.copy.length.toNat)
      seq := d.copy.seq, epoch := d.copy.epoch, port := some d.copy.port, time := d.copy.time
      cls := some d.copy.cls, test := d.copy.test, hold := d.copy.hold, repeatNo := d.copy.repeatNo
      length := d.copy.length, deliveries := old.deliveries + 1
      superseded := BitVec.ofNat 16 (min 0xFFFF (old.superseded.toNat + superseded))
      stale := BitVec.ofNat 16 (min 0xFFFF (old.stale.toNat + stale))
      content := d.copy.content.take 256 } := by
  unfold SlotStatus.delivered
  rw [satAdd_eq, satAdd_eq]
  rfl

/-! ## The delivery that begins next (R112, R121) -/

/-- R119, R121. The delivery of `c` that begins, where its entry is shown as `v`. -/
def SubSlot.next (c : Copy) (v : EntryView) (x : SubSlot) : InProgress :=
  { copy := c, view := v, mismatch := x.marker, markedBy := x.markedBy, notify := (x.config.map (·.notify)).getD .none
    differs := x.differs (c.content.take Config.contentRoom) }

theorem begun_eq (c : Copy) (v : EntryView) (x : SubSlot) : x.begun c v =
    { x with
      status := { x.status with edition := x.status.edition + 1 }, waiting := none, inProgress := some (x.next c v) } := rfl

/-- R121. The update made first, and then the waiting delivery begun. -/
theorem begun_updated (c : Copy) (v : EntryView) (due : DueView) (x : SubSlot) : (x.updated due).begun c v =
    { x with
      status :=
        { x.status with
          edition := x.status.edition + 3, view := due.view
          stale := if due.stale then BitVec.ofNat 16 (min 0xFFFF (x.status.stale.toNat + 1)) else x.status.stale }
      waiting := none, inProgress := some (x.next c v) } := by
  have hedition : x.status.edition + 2 + 1 = x.status.edition + 3 := BitVec.add_assoc ..
  rw [← hedition]
  rfl

/-- R121. The slot as the waiting delivery begins: after an update that waited alone, where the choice is to make it `first`. -/
def SubSlot.beforeNext (first : Bool) (dues : List DueView) (x : SubSlot) : SubSlot :=
  match dues with
  | [v] => if first then x.updated v else x
  | _ => x

/-- Settles O47: `completeDelivery_quiet` where no copy waits; where one does, `completeDelivery_next` with no update or one. -/
theorem deliveryShowsTheCopy : Obligations.DeliveryShowsTheCopy := by
  intro s k d old shown notified claims flag outcome previous hprogress hold hflag hnotified houtcome hshown hprevious
  have hexec := exec_deliveryComplete hprogress
  have hflag : ∀ set mark, flag set mark = mismatchEntries k set mark := fun set mark => by
    cases mark with
    | none => exact (hflag set).1
    | some mark => exact (hflag set).2 mark
  have houtcome : outcome = outcomeWritten k := by
    funext ⟨st, cs⟩ o
    obtain ⟨hdisarmed, hrefused, harmed⟩ := houtcome st cs
    cases o with
    | disarmed => exact hdisarmed
    | refused reason c => exact hrefused reason c
    | armed view mark => rw [harmed, hflag]; rfl
  have hsettled : s.subs[k].settledStatus k d s.journal.claims = (shown, claims) := by
    rw [hshown, houtcome, hnotified, hflag, hold, SubSlot.settledStatus, SubSlot.written, delivered_eq]
    rfl
  have hprevious : s.subs[k].settledPrevious d = previous := by
    rw [hprevious]
    refine foldl_previous ?_ ?_ ?_ _ _
    all_goals intros; rfl
  refine ⟨fun hwait => ?_, fun c hwait => ?_⟩
  · rw [hexec, completeDelivery_quiet _ _ _ _ _ hsettled hwait, hprevious, hflag]
    rfl
  · rw [completeDelivery_next _ _ _ _ _ _ hsettled hwait, hprevious] at hexec
    refine ⟨(s.subs[k].settled shown previous []).next c (slotView k (s.withSlot k
        ((s.subs[k].settled shown previous []).beforeNext (Config.freshnessUpdateFirst s.free) s.subs[k].viewsDue) claims)),
      rfl, rfl, rfl, rfl, ?_, fun p e hp he => slotView_withSlot s k _ claims hp he, fun hnone => ?_, fun v hone => ?_⟩
    · change (s.subs[k].settled shown previous []).differs _ = _
      unfold SubSlot.differs SubSlot.settled
      dsimp only
      cases s.subs[k].config <;> cases previous <;> rfl
    · rw [hexec]
      dsimp only
      rw [hnone]
      exact congrArg Host.Outcome.next (beginDelivery_withSlot ..)
    · rw [hexec, hone, updatesAndDelivery_one, begun_updated, begun_eq]
      cases Config.freshnessUpdateFirst s.free with
      | true => rfl
      | false => rfl

end Sys2Proof.Machine
end

section
/-! The send schedule (chapter 8): the post set, the take, the calendar, and what soundness reads of the publication slots; what keeps
it sound (R133, R134, R141, R142). -/

namespace Sys2Proof.Machine

/-! ## What the soundness of the scheduler is about -/

/-- What `SchedulerSound` reads of a publication slot. -/
structure SlotKey where
  state : PubState
  config : Option PubConfig
  refreshAt : Option Clock

def PubSlot.key (p : PubSlot) : SlotKey := { state := p.state, config := p.config, refreshAt := p.refreshAt }

/-- What `SchedulerSound` reads of a state. -/
structure Schedule where
  trip : List Post
  other : List Post
  take : Option Take
  calendar : List CalendarEntry
  slots : Fin 32 → SlotKey

def State.schedule (s : State) : Schedule :=
  { trip := s.postTrip, other := s.postOther, take := s.take, calendar := s.calendar, slots := fun k => s.pubs[k].key }

/-- R133, R134, R141, R142. A sound schedule, but that slots may be posted while no take is in progress: so it is between the end of a
take and the start of the next. -/
structure Schedule.Orderly (x : Schedule) : Prop where
  distinct : (x.trip ++ x.other).Pairwise (fun p q => p.slot ≠ q.slot)
  trip : ∀ p ∈ x.trip, (x.slots p.slot).config.map (·.cls) = some .trip
  other : ∀ p ∈ x.other, ∃ c, (x.slots p.slot).config = some c ∧ c.cls ≠ .trip
  taken : ∀ t, x.take = some t → (x.slots t.slot).state.armed = true
  calendar : x.calendar.Pairwise (fun c d => c.slot ≠ d.slot)
  booked : ∀ k, (x.slots k).state.scheduled = true ↔ ∃ c ∈ x.calendar, c.slot = k
  armed : ∀ k, (x.slots k).config.isSome = (x.slots k).state.armed
  refresh : ∀ k, (x.slots k).refreshAt.isSome = true → (x.slots k).state.scheduled = true

theorem schedulerSound_iff (s : State) :
    SchedulerSound s ↔ s.schedule.Orderly ∧ (s.take = none → s.postTrip = [] ∧ s.postOther = []) := by
  constructor
  · rintro ⟨hdistinct, htrip, hother, hidle, htaken, hcalendar, hslots⟩
    exact ⟨⟨hdistinct, htrip, hother, htaken, hcalendar, fun k => (hslots k).1, fun k => (hslots k).2.1, fun k => (hslots k).2.2⟩,
      hidle⟩
  · rintro ⟨h, hidle⟩
    exact ⟨h.distinct, h.trip, h.other, hidle, h.taken, h.calendar, fun k => ⟨h.booked k, h.armed k, h.refresh k⟩⟩

theorem SchedulerSound.orderly {s : State} (h : SchedulerSound s) : s.schedule.Orderly := ((schedulerSound_iff s).1 h).1

/-- A state with the schedule of a sound one is sound. -/
theorem SchedulerSound.of_same {s t : State} (h : SchedulerSound s) (same : t.schedule = s.schedule := by simp [State.schedule]) :
    SchedulerSound t := by
  have hfields := congrArg (fun x => (x.take, x.trip, x.other)) same
  simp only [State.schedule, Prod.mk.injEq] at hfields
  obtain ⟨htake, htrip, hother⟩ := hfields
  rw [schedulerSound_iff] at h ⊢
  rwa [same, htake, htrip, hother]

/-! ## The calendar -/

/-- R141. The calendar without the entry of slot `k`. -/
abbrev unbooked (k : Fin 32) (l : List CalendarEntry) : List CalendarEntry := l.filter (fun c => c.slot != k)

theorem insertCalendar_perm (c : CalendarEntry) (l : List CalendarEntry) : (insertCalendar c l).Perm (c :: l) := by
  unfold insertCalendar
  rw [List.append_assoc, List.singleton_append]
  exact List.perm_middle.trans (by rw [List.takeWhile_append_dropWhile])

theorem mem_unbooked {k : Fin 32} {l : List CalendarEntry} (j : Fin 32) :
    (∃ c ∈ unbooked k l, c.slot = j) ↔ j ≠ k ∧ ∃ c ∈ l, c.slot = j := by
  simp only [unbooked, List.mem_filter, bne_iff_ne]
  constructor
  · rintro ⟨c, ⟨hc, hne⟩, rfl⟩
    exact ⟨hne, c, hc, rfl⟩
  · rintro ⟨hne, c, hc, rfl⟩
    exact ⟨c, ⟨hc, hne⟩, rfl⟩

theorem mem_rebooked {k : Fin 32} {l : List CalendarEntry} (due : Clock) (j : Fin 32) :
    (∃ c ∈ insertCalendar { slot := k, due := due } (unbooked k l), c.slot = j) ↔ j = k ∨ ∃ c ∈ l, c.slot = j := by
  simp only [(insertCalendar_perm _ _).mem_iff, List.mem_cons, exists_eq_or_imp, mem_unbooked]
  constructor
  · rintro (rfl | ⟨-, h⟩)
    exacts [.inl rfl, .inr h]
  · intro h
    by_cases hj : j = k
    · exact .inl hj.symm
    · exact .inr ⟨hj, h.resolve_left hj⟩

theorem rebooked_distinct {k : Fin 32} {l : List CalendarEntry} (due : Clock) (h : l.Pairwise (fun c d => c.slot ≠ d.slot)) :
    (insertCalendar { slot := k, due := due } (unbooked k l)).Pairwise (fun c d => c.slot ≠ d.slot) := by
  rw [(insertCalendar_perm _ _).pairwise_iff (fun h => Ne.symm h), List.pairwise_cons]
  refine ⟨fun c hc => ?_, h.filter _⟩
  rw [List.mem_filter, bne_iff_ne] at hc
  exact hc.2.symm

/-- R141. What stands behind the head of the calendar is the calendar without the head's slot. -/
theorem behindHead_eq {e : CalendarEntry} {rest : List CalendarEntry} (h : (e :: rest).Pairwise (fun c d => c.slot ≠ d.slot)) :
    unbooked e.slot (e :: rest) = rest := by
  rw [List.pairwise_cons] at h
  rw [unbooked, List.filter_cons_of_neg (by simp)]
  exact List.filter_eq_self.2 fun c hc => bne_iff_ne.2 (h.1 c hc).symm

/-! ## What keeps a schedule orderly -/

/-- The schedule with slot `k` changed. -/
def Schedule.withSlot (x : Schedule) (k : Fin 32) (y : SlotKey) : Schedule := { x with slots := Function.update x.slots k y }

theorem schedule_withSlot_self (x : Schedule) (k : Fin 32) : x.withSlot k (x.slots k) = x := by
  simp [Schedule.withSlot]

theorem schedule_withSlot_get (x : Schedule) (k j : Fin 32) (y : SlotKey) :
    (x.withSlot k y).slots j = if j = k then y else x.slots j := by
  simp [Schedule.withSlot, Function.update_apply]

/-- R133. The schedule with `p` at the tail of its class group. -/
def Schedule.join (x : Schedule) (p : Post) (cls : Cls) : Schedule :=
  { x with trip := x.trip ++ (if cls = .trip then [p] else []), other := x.other ++ (if cls = .trip then [] else [p]) }

/-- The schedule with slot `k` changed and the calendar replaced. -/
def Schedule.rebooked (x : Schedule) (k : Fin 32) (y : SlotKey) (calendar : List CalendarEntry) : Schedule :=
  { x.withSlot k y with calendar := calendar }

/-- R132. The schedule once slot `k` is let go, and is then `y`. -/
def Schedule.letGo (x : Schedule) (k : Fin 32) (y : SlotKey) : Schedule :=
  { trip := x.trip.filter (fun p => p.slot != k), other := x.other.filter (fun p => p.slot != k)
    take := x.take.filter (fun t => t.slot != k), calendar := unbooked k x.calendar, slots := Function.update x.slots k y }

theorem letGo_withSlot (x : Schedule) (k : Fin 32) (y z : SlotKey) : (x.letGo k y).withSlot k z = x.letGo k z := by
  simp [Schedule.letGo, Schedule.withSlot]

theorem letGo_get (x : Schedule) (k j : Fin 32) (y : SlotKey) : (x.letGo k y).slots j = if j = k then y else x.slots j := by
  simp [Schedule.letGo, Function.update_apply]

theorem PubState.armed_of_scheduled {st : PubState} (h : st.scheduled = true) : st.armed = true := by
  cases st with
  | burst | steady => rfl
  | disarmed | refused | armedIdle | expired => cases h

section
variable {x : Schedule} (h : x.Orderly)
include h

/-- R133. A posted slot has its arm-time fields, so it is armed. -/
theorem Schedule.Orderly.posted_armed {p : Post} (hp : p ∈ x.trip ++ x.other) : (x.slots p.slot).state.armed = true := by
  rw [← h.armed]
  rcases List.mem_append.1 hp with hp | hp
  · exact Option.isSome_map.symm.trans (congrArg Option.isSome (h.trip p hp))
  · obtain ⟨c, hc, -⟩ := h.other p hp
    rw [hc]
    rfl

/-- The posts and the take may go. -/
theorem Schedule.Orderly.fewer {trip other : List Post} {take : Option Take} (htrip : trip.Sublist x.trip)
    (hother : other.Sublist x.other) (htake : ∀ t, take = some t → (x.slots t.slot).state.armed = true) :
    Schedule.Orderly { x with trip := trip, other := other, take := take } where
  distinct := h.distinct.sublist (htrip.append hother)
  trip p hp := h.trip p (htrip.subset hp)
  other p hp := h.other p (hother.subset hp)
  taken := htake
  calendar := h.calendar
  booked := h.booked
  armed := h.armed
  refresh := h.refresh

/-- R133. An armed slot that is not posted may join its class group. -/
theorem Schedule.Orderly.joined {p : Post} {c : PubConfig} (hc : (x.slots p.slot).config = some c)
    (hp : ∀ q ∈ x.trip ++ x.other, q.slot ≠ p.slot) : (x.join p c.cls).Orderly where
  distinct := by
    have hperm : ((x.join p c.cls).trip ++ (x.join p c.cls).other).Perm (p :: (x.trip ++ x.other)) := by
      unfold Schedule.join
      split
      · simp
      · simpa using List.perm_append_singleton p (x.trip ++ x.other)
    rw [hperm.pairwise_iff (fun h => Ne.symm h), List.pairwise_cons]
    exact ⟨fun q hq => (hp q hq).symm, h.distinct⟩
  trip q hq := by
    rcases List.mem_append.1 hq with hq | hq
    · exact h.trip q hq
    · split at hq
      next htrip =>
        rw [List.mem_singleton.1 hq, ← htrip]
        exact congrArg (Option.map (·.cls)) hc
      next => cases hq
  other q hq := by
    rcases List.mem_append.1 hq with hq | hq
    · exact h.other q hq
    · split at hq
      next => cases hq
      next hother => exact ⟨c, List.mem_singleton.1 hq ▸ hc, hother⟩
  taken := h.taken
  calendar := h.calendar
  booked := h.booked
  armed := h.armed
  refresh := h.refresh

/-- R140 to R142. A slot that keeps its arm-time fields may change its state if the calendar follows it. -/
theorem Schedule.Orderly.rebook {k : Fin 32} {y : SlotKey} {calendar : List CalendarEntry}
    (hconfig : y.config = (x.slots k).config) (harmed : y.state.armed = (x.slots k).state.armed)
    (hrefresh : y.refreshAt.isSome = true → y.state.scheduled = true)
    (hcalendar : calendar.Pairwise (fun c d => c.slot ≠ d.slot))
    (hbooked : ∀ j, (∃ c ∈ calendar, c.slot = j) ↔ if j = k then y.state.scheduled = true else ∃ c ∈ x.calendar, c.slot = j) :
    (x.rebooked k y calendar).Orderly := by
  have hget (j : Fin 32) : (x.rebooked k y calendar).slots j = if j = k then y else x.slots j := schedule_withSlot_get ..
  have hkept (j : Fin 32) : ((x.rebooked k y calendar).slots j).config = (x.slots j).config
      ∧ ((x.rebooked k y calendar).slots j).state.armed = (x.slots j).state.armed := by
    rw [hget]
    split
    next hj => exact ⟨hj ▸ hconfig, hj ▸ harmed⟩
    next => exact ⟨rfl, rfl⟩
  refine ⟨h.distinct, fun p hp => ?_, fun p hp => ?_, fun t ht => ?_, hcalendar, fun j => ?_, fun j => ?_, fun j => ?_⟩
  · rw [(hkept _).1]
    exact h.trip p hp
  · rw [(hkept _).1]
    exact h.other p hp
  · rw [(hkept _).2]
    exact h.taken t ht
  · rw [hget]
    refine Iff.trans ?_ (hbooked j).symm
    split
    · rfl
    · exact h.booked j
  · rw [(hkept j).1, (hkept j).2]
    exact h.armed j
  · rw [hget]
    split
    · exact hrefresh
    · exact h.refresh j

/-- R139, R141. An armed slot in BURST or STEADY has one calendar entry, wherever it is due. -/
theorem Schedule.Orderly.rebook_scheduled {k : Fin 32} {y : SlotKey} (hconfig : y.config = (x.slots k).config)
    (harmed : (x.slots k).state.armed = true) (hstate : y.state.scheduled = true) (due : Clock) :
    (x.rebooked k y (insertCalendar { slot := k, due := due } (unbooked k x.calendar))).Orderly := by
  refine h.rebook hconfig ((PubState.armed_of_scheduled hstate).trans harmed.symm) (fun _ => hstate)
    (rebooked_distinct due h.calendar) fun j => ?_
  rw [mem_rebooked]
  split
  next hj => exact iff_of_true (.inl hj) hstate
  next hj => exact or_iff_right hj

/-- R132. A slot may be let go, and is then out of BURST and STEADY. -/
theorem Schedule.Orderly.letGo {k : Fin 32} {y : SlotKey} (harmed : y.config.isSome = y.state.armed)
    (hstate : y.state.scheduled = false) (hrefresh : y.refreshAt = none) : (x.letGo k y).Orderly := by
  have hposts : ∀ {l : List Post} {p : Post}, p ∈ l.filter (fun p => p.slot != k) →
      p ∈ l ∧ (x.letGo k y).slots p.slot = x.slots p.slot := by
    intro l p hp
    rw [List.mem_filter, bne_iff_ne] at hp
    exact ⟨hp.1, (letGo_get ..).trans (if_neg hp.2)⟩
  refine ⟨?_, fun p hp => ?_, fun p hp => ?_, fun t ht => ?_, h.calendar.filter _, fun j => ?_, fun j => ?_, fun j => ?_⟩
  · have hall := h.distinct.filter (fun p : Post => p.slot != k)
    rwa [List.filter_append] at hall
  · obtain ⟨hp, hsame⟩ := hposts hp
    rw [hsame]
    exact h.trip p hp
  · obtain ⟨hp, hsame⟩ := hposts hp
    rw [hsame]
    exact h.other p hp
  · obtain ⟨ht, hne⟩ := Option.filter_eq_some_iff.1 ht
    rw [letGo_get, if_neg (bne_iff_ne.1 hne)]
    exact h.taken t ht
  · rw [letGo_get]
    refine Iff.trans ?_ (mem_unbooked j).symm
    split
    next hj => simp [hj, hstate]
    next hj => simpa [hj] using h.booked j
  · rw [letGo_get]
    split
    · exact harmed
    · exact h.armed j
  · rw [letGo_get]
    split
    · rw [hrefresh]
      exact fun hnone => nomatch hnone
    · exact h.refresh j

/-- R133, R134, R141. A slot that is not armed has no place in the schedule. -/
theorem Schedule.Orderly.letGo_idle {k : Fin 32} (hk : (x.slots k).state.armed = false) :
    x.letGo k { state := (x.slots k).state, config := none, refreshAt := none } = x := by
  have hposts : ∀ p ∈ x.trip ++ x.other, p.slot ≠ k := by
    rintro p hp rfl
    rw [h.posted_armed hp] at hk
    cases hk
  have hnot : ¬ (x.slots k).state.scheduled = true := fun hs => by
    rw [PubState.armed_of_scheduled hs] at hk
    cases hk
  have hcalendar : unbooked k x.calendar = x.calendar :=
    List.filter_eq_self.2 fun c hc => bne_iff_ne.2 fun hk => hnot ((h.booked k).2 ⟨c, hc, hk⟩)
  have htrip : x.trip.filter (fun p => p.slot != k) = x.trip :=
    List.filter_eq_self.2 fun p hp => bne_iff_ne.2 (hposts p (List.mem_append_left _ hp))
  have hother : x.other.filter (fun p => p.slot != k) = x.other :=
    List.filter_eq_self.2 fun p hp => bne_iff_ne.2 (hposts p (List.mem_append_right _ hp))
  have htake : x.take.filter (fun t => t.slot != k) = x.take := by
    cases ht : x.take with
    | none => rfl
    | some t =>
      refine Option.filter_eq_some_iff.2 ⟨rfl, bne_iff_ne.2 ?_⟩
      rintro rfl
      rw [h.taken t ht] at hk
      cases hk
  have hslot : ({ state := (x.slots k).state, config := none, refreshAt := none } : SlotKey) = x.slots k := by
    have hconfig := h.armed k
    rw [hk, Option.isSome_eq_false_iff, Option.isNone_iff_eq_none] at hconfig
    have hrefresh : (x.slots k).refreshAt = none :=
      Option.not_isSome_iff_eq_none.1 fun hr => hnot (h.refresh k hr)
    rw [← hconfig, ← hrefresh]
  unfold Schedule.letGo
  rw [htrip, hother, htake, hcalendar, hslot, Function.update_eq_self]

end

end Sys2Proof.Machine
end

section
/-! The Publication Scheduler keeps its schedule sound (R129, R132 to R136, R140 to R142). -/

namespace Sys2Proof.Machine

/-! ## What each operation makes of the schedule -/

theorem schedule_slots (s : State) (k : Fin 32) : s.schedule.slots k = s.pubs[k].key := rfl

/-- An update of a slot changes the schedule by its key. -/
theorem modifyAt_schedule (s : State) (k : Fin 32) (f : PubSlot → PubSlot) :
    ({ s with pubs := modifyAt s.pubs k f } : State).schedule = s.schedule.withSlot k (f s.pubs[k]).key := by
  have hslots (j : Fin 32) : (modifyAt s.pubs k f)[j].key = if j = k then (f s.pubs[k]).key else s.pubs[j].key := by
    rw [modifyAt_get]
    by_cases hj : k = j
    · rw [if_pos hj, if_pos hj.symm]
    · rw [if_neg hj, if_neg (Ne.symm hj)]
  simpa [State.schedule, Schedule.withSlot, funext_iff, Function.update_apply] using hslots

theorem updatePub_schedule (k : Fin 32) (f : PubSlot → PubSlot) (s : State) :
    (updatePub k f s).schedule = s.schedule.withSlot k (f s.pubs[k]).key := modifyAt_schedule s k _

/-- An update that keeps what the schedule reads of the slot. -/
theorem modifyAt_schedule_kept {s : State} {k : Fin 32} {f : PubSlot → PubSlot} (hf : (f s.pubs[k]).key = s.pubs[k].key) :
    ({ s with pubs := modifyAt s.pubs k f } : State).schedule = s.schedule := by
  rw [modifyAt_schedule, hf]
  exact schedule_withSlot_self s.schedule k

@[simp] theorem claim_schedule (c : JournalClaim) (s : State) : (claim c s).schedule = s.schedule := rfl

@[simp] theorem asEngineClaim_schedule (f : State → State) (s : State) : (asEngineClaim f s).schedule = (f s).schedule := rfl

@[simp] theorem settleAgeing_schedule (s : State) : (settleAgeing s).schedule = s.schedule := by simp [State.schedule]

@[simp] theorem removeHostEntry_schedule (k : Fin 32) (s : State) : (removeHostEntry k s).schedule = s.schedule := by
  simp [State.schedule]

theorem makeHostEntry_schedule {k : Fin 32} {c : PubConfig} {epoch : Byte} {s t : State} (h : makeHostEntry k c epoch s = some t) :
    t.schedule = s.schedule := by
  unfold makeHostEntry at h
  split at h
  · cases h
  · dsimp only at h
    split at h
    · cases h
      simp [State.schedule]
    · cases h

/-- R139. A send changes nothing that the schedule shows. -/
@[simp] theorem sendPub_schedule (k : Fin 32) (s : State) : (sendPub k s).schedule = s.schedule := by
  cases hc : s.pubs[k].config with
  | none => rw [sendPub_idle (.inl hc)]
  | some c =>
    cases hb : s.pubs[k].buffer with
    | none => rw [sendPub_idle (.inr hb)]
    | some content =>
      obtain ⟨tbl, counts, hsent, -⟩ := sendPub_spec k s c content hc hb _ (s.pubs[k].copy c content s.settings) (fun _ => rfl) rfl
      rw [hsent]
      exact modifyAt_schedule_kept (f := PubSlot.sent) rfl

/-- R135. A take that completes: BURST, the refresh deadline, and the calendar entry due one first interval later. -/
theorem completeTake_schedule {k : Fin 32} {w : Poster} {n : Word} {content : List Byte} {s : State} {c : PubConfig}
    (hc : s.pubs[k].config = some c) : (completeTake k w n content s).schedule =
      s.schedule.rebooked k
        { state := .burst, config := some c, refreshAt := if c.refresh = 0 then none else some (s.clock + secs c.refresh) }
        (insertCalendar { slot := k, due := s.clock + millis c.first } (unbooked k s.calendar)) := by
  have hsent : (sendPub k (s.takenAt k w n content c)).schedule = s.schedule.rebooked k
      { state := .burst, config := some c, refreshAt := if c.refresh = 0 then none else some (s.clock + secs c.refresh) }
      (unbooked k s.calendar) := by
    rw [sendPub_schedule, ← hc]
    exact congrArg (fun x : Schedule => { x with calendar := unbooked k x.calendar })
      (updatePub_schedule k (PubSlot.taken content n w s.clock c) s)
  rw [completeTake_some hc]
  exact congrArg (fun x : Schedule =>
    { x with calendar := insertCalendar { slot := k, due := s.clock + millis c.first } x.calendar }) hsent

/-- R140, R141. A calendar send: the state its next interval gives the slot, and the entry due one such interval later. -/
theorem sendDue_schedule {e : CalendarEntry} {rest : List CalendarEntry} {s : State} {c : PubConfig}
    (hc : s.pubs[e.slot].config = some c) : ∃ due, (sendDue e rest s).schedule =
      s.schedule.rebooked e.slot (s.pubs[e.slot].advanced c).key (insertCalendar { slot := e.slot, due := due } rest) := by
  have hsent : (sendPub e.slot (s.sendingDue e rest c)).schedule
      = s.schedule.rebooked e.slot (s.pubs[e.slot].advanced c).key rest := by
    rw [sendPub_schedule]
    exact updatePub_schedule e.slot (PubSlot.advanced c) { s with calendar := rest }
  generalize hu : sendPub e.slot (s.sendingDue e rest c) = u at hsent
  have hdue : sendDue e rest s =
      { u with calendar := insertCalendar { slot := e.slot, due := e.due + millis u.pubs[e.slot].interval } u.calendar } := by
    unfold sendDue
    rw [hc, ← hu]
    rfl
  rw [hdue]
  exact ⟨_, congrArg (fun x : Schedule =>
    { x with calendar := insertCalendar { slot := e.slot, due := e.due + millis u.pubs[e.slot].interval } x.calendar }) hsent⟩

/-- R142. EXPIRED has no refresh deadline and no calendar entry. -/
theorem expirePub_schedule (k : Fin 32) (time : Clock) (s : State) : (expirePub k time s).schedule =
    s.schedule.rebooked k { state := .expired, config := s.pubs[k].config, refreshAt := none } (unbooked k s.calendar) :=
  updatePub_schedule k (fun p => { p with state := .expired, refreshAt := none, interval := 0 }) (uncalendar k s)

/-- R132. What a drop leaves of the schedule. -/
theorem dropPub_schedule (k : Fin 32) (s : State) : (dropPub k s).schedule =
    s.schedule.letGo k { state := s.pubs[k].state, config := none, refreshAt := none } := by
  rw [dropPub_eq, removeHostEntry_schedule]
  exact congrArg (fun x : Schedule => { s.schedule.letGo k (s.pubs[k].dropped).key with slots := x.slots })
    (modifyAt_schedule s k PubSlot.dropped)

/-- R133. A slot that is not posted joins its class group. -/
theorem joinPosts_schedule {k : Fin 32} {w : Poster} {s : State} {c : PubConfig} (hposted : posted k s = false)
    (hc : s.pubs[k].config = some c) :
    (joinPosts k w s).schedule = s.schedule.join { slot := k, poster := w } c.cls := by
  rw [joinPosts_new hposted hc]
  rfl

@[simp] theorem joinPosts_slots (k : Fin 32) (w : Poster) (s : State) :
    (joinPosts k w s).schedule.slots = s.schedule.slots := by simp [State.schedule]

/-- R136. A collision ends the take; the count of collisions has no part in the schedule. -/
theorem collided_schedule (t : Take) (s : State) :
    (updatePub t.slot (fun p => { p with collisions := satInc p.collisions }) { s with take := none }).schedule
      = { s.schedule with take := none } :=
  (updatePub_schedule ..).trans (schedule_withSlot_self { s.schedule with take := none } t.slot)

/-! ## The claims (R129 to R132) -/

section
variable {s : State} (h : s.schedule.Orderly) (k : Fin 32)
include h

/-- R132. Of an armed slot or of one that is not, the first half of the claim leaves no place in the schedule. -/
theorem dropIfArmed_schedule : (dropIfArmed k s).schedule =
    s.schedule.letGo k { state := s.pubs[k].state, config := none, refreshAt := none } := by
  cases hk : s.pubs[k].state.armed with
  | true => rw [dropIfArmed_armed hk, dropPub_schedule]
  | false => rw [dropIfArmed_idle hk]; exact (h.letGo_idle hk).symm

/-- R129, R132. A slot let go and then updated, without a deadline and out of BURST and STEADY. -/
theorem settledPub_orderly {u : State} (hu : u.schedule = (dropIfArmed k s).schedule) {f : PubSlot → PubSlot}
    (harmed : (f u.pubs[k]).config.isSome = (f u.pubs[k]).state.armed) (hstate : (f u.pubs[k]).state.scheduled = false)
    (hrefresh : (f u.pubs[k]).refreshAt = none) : (updatePub k f u).schedule.Orderly := by
  rw [updatePub_schedule, hu, dropIfArmed_schedule h, letGo_withSlot]
  exact h.letGo harmed hstate hrefresh

theorem dropIfArmed_key {u : State} (hu : u.schedule = (dropIfArmed k s).schedule) :
    u.pubs[k].config = none ∧ u.pubs[k].refreshAt = none := by
  have hkey : u.pubs[k].key = { state := s.pubs[k].state, config := none, refreshAt := none } := by
    rw [← schedule_slots, hu, dropIfArmed_schedule h, letGo_get, if_pos rfl]
  exact ⟨congrArg SlotKey.config hkey, congrArg SlotKey.refreshAt hkey⟩

theorem publicationClaim_orderly : (publicationClaim k s).schedule.Orderly := by
  obtain ⟨hconfig, hrefresh⟩ := dropIfArmed_key h k rfl
  have refused (r : Reason) (d : Word) : (refusePub k r d (dropIfArmed k s)).schedule.Orderly :=
    settledPub_orderly h k rfl (congrArg Option.isSome hconfig) rfl hrefresh
  have armed : (armPub k (dropIfArmed k s)).schedule.Orderly := by
    unfold armPub
    split
    · exact refused ..
    · dsimp only
      split
      · next t made => exact settledPub_orderly h k (makeHostEntry_schedule made) rfl rfl rfl
      · exact refused ..
  unfold publicationClaim
  dsimp only
  split
  · exact armed
  · split
    · split
      · exact h
      · exact settledPub_orderly h k rfl (congrArg Option.isSome hconfig) rfl hrefresh
    · exact refused ..

end

/-! ## Takes, sends and the refresh limit (R134 to R136, R140 to R142) -/

section
variable {s : State} (h : s.schedule.Orderly)
include h

theorem config_armed {k : Fin 32} {c : PubConfig} (hc : s.pubs[k].config = some c) : s.pubs[k].state.armed = true :=
  (h.armed k).symm.trans (congrArg Option.isSome hc)

theorem completeTake_orderly (k : Fin 32) (w : Poster) (n : Word) (content : List Byte) :
    (completeTake k w n content s).schedule.Orderly := by
  cases hc : s.pubs[k].config with
  | none => rwa [completeTake_none hc]
  | some c =>
    rw [completeTake_schedule hc]
    exact h.rebook_scheduled hc.symm (config_armed h hc) rfl _

theorem beginTake_orderly {p : Post} (hp : s.pubs[p.slot].state.armed = true) : (beginTake p s).schedule.Orderly := by
  unfold beginTake
  dsimp only
  split
  · exact completeTake_orderly h ..
  · refine h.fewer (List.Sublist.refl _) (List.Sublist.refl _) ?_
    rintro _ ⟨⟩
    exact hp

/-- R134. Once as many takes have begun as slots were posted, one is in progress or none is posted. -/
theorem beginTakes_sound (n : Nat) (hn : s.postTrip.length + s.postOther.length ≤ n) : SchedulerSound (beginTakes n s) := by
  have idle (hnone : s.postTrip = [] ∧ s.postOther = []) : SchedulerSound s := (schedulerSound_iff s).2 ⟨h, fun _ => hnone⟩
  induction n generalizing s with
  | zero => exact idle ⟨List.length_eq_zero_iff.1 (by omega), List.length_eq_zero_iff.1 (by omega)⟩
  | succ n ih =>
    have begun {p : Post} {trip other : List Post} (htrip : trip.Sublist s.postTrip) (hother : other.Sublist s.postOther)
        (hp : p ∈ s.postTrip ++ s.postOther) (hlen : trip.length + other.length ≤ n) :
        SchedulerSound (beginTakes n (beginTake p (s.withPosts trip other))) := by
      have horderly : (s.withPosts trip other).schedule.Orderly := h.fewer htrip hother h.taken
      have hbegun := beginTake_orderly horderly (p := p) (h.posted_armed hp)
      refine ih hbegun ?_ fun hnone => (schedulerSound_iff _).2 ⟨hbegun, fun _ => hnone⟩
      simpa [State.withPosts] using hlen
    unfold beginTakes
    split
    next htake =>
      refine (schedulerSound_iff s).2 ⟨h, fun hnone => ?_⟩
      rw [hnone] at htake
      cases htake
    next =>
      split
      next p rest ht =>
        refine begun (ht ▸ List.sublist_cons_self p rest) (List.Sublist.refl _) (by simp [ht]) ?_
        rw [ht, List.length_cons] at hn
        omega
      next p rest ht ho =>
        refine begun (trip := s.postTrip) (List.Sublist.refl _) (ho ▸ List.sublist_cons_self p rest) (by simp [ho]) ?_
        rw [ho, List.length_cons] at hn
        omega
      next ht ho => exact idle ⟨ht, ho⟩

theorem runTakes_sound : SchedulerSound (runTakes s) := beginTakes_sound h _ le_rfl

theorem joinPosts_orderly {k : Fin 32} (w : Poster) (hk : (s.schedule.slots k).state.armed = true) :
    (joinPosts k w s).schedule.Orderly := by
  cases hposted : posted k s with
  | true => rwa [joinPosts_posted hposted]
  | false =>
    obtain ⟨c, hc⟩ := Option.isSome_iff_exists.1 ((h.armed k).trans hk)
    rw [joinPosts_schedule hposted hc]
    refine h.joined (p := { slot := k, poster := w }) hc fun q hq hqk => ?_
    have hany : posted k s = true := by
      rw [posted, ← List.any_append, List.any_eq_true]
      exact ⟨q, hq, beq_iff_eq.2 hqk⟩
    rw [hposted] at hany
    cases hany

theorem abandonByCollision_orderly {t : Take} (ht : (s.schedule.slots t.slot).state.armed = true) :
    (abandonByCollision t s).schedule.Orderly ∧ (abandonByCollision t s).schedule.slots = s.schedule.slots := by
  have hcollided := collided_schedule t s
  have hidle : Schedule.Orderly { s.schedule with take := none } := h.fewer (List.Sublist.refl _) (List.Sublist.refl _) nofun
  unfold abandonByCollision
  rw [joinPosts_slots, hcollided]
  refine ⟨joinPosts_orderly ?_ _ ?_, rfl⟩
  · rwa [hcollided]
  · rwa [hcollided]

theorem collideAndPost_orderly {t : Take} (ht : (s.schedule.slots t.slot).state.armed = true) :
    (collideAndPost t s).schedule.Orderly := by
  have hcounted : ({ s with free := s.free + 1 } : State).schedule.Orderly := h
  unfold collideAndPost
  dsimp only
  split
  · obtain ⟨habandoned, hslots⟩ := abandonByCollision_orderly hcounted ht
    exact joinPosts_orderly habandoned _ (by rwa [hslots])
  · refine (abandonByCollision_orderly (joinPosts_orderly hcounted .host ht) ?_).1
    rwa [joinPosts_slots]

end

section
variable {s : State} (h : SchedulerSound s)
include h

theorem takeCompletes_sound (t : Take) : SchedulerSound (takeCompletes t s) := by
  have hidle : ({ s with take := none } : State).schedule.Orderly :=
    h.orderly.fewer (List.Sublist.refl _) (List.Sublist.refl _) nofun
  exact runTakes_sound (completeTake_orderly hidle ..)

theorem post_sound (k : Fin 32) (w : Poster) : SchedulerSound (post k w s) := by
  unfold post
  split
  next hk => exact runTakes_sound (joinPosts_orderly h.orderly w hk)
  next => exact h

theorem watchedWrite_sound (k : Fin 32) (off : Nat) : SchedulerSound (watchedWrite k off s) := by
  unfold watchedWrite
  split
  next => exact h
  next =>
    split
    next t ht =>
      have harmed := h.orderly.taken t ht
      split
      · split
        · exact runTakes_sound (collideAndPost_orderly h.orderly harmed)
        · exact runTakes_sound (abandonByCollision_orderly h.orderly harmed).1
      · split
        · exact post_sound h k .host
        · exact h
    next =>
      split
      · exact post_sound h k .host
      · exact h

theorem takePublication_sound (k : Fin 32) : SchedulerSound (takePublication k s) :=
  runTakes_sound (publicationClaim_orderly (by rw [settleAgeing_schedule]; exact h.orderly) k)

/-- A change of the calendar and of a slot's state alone. -/
theorem rebooked_sound {t : State} {k : Fin 32} {y : SlotKey} {calendar : List CalendarEntry}
    (ht : t.schedule = s.schedule.rebooked k y calendar) (horderly : t.schedule.Orderly) : SchedulerSound t := by
  have hfields := congrArg (fun x => (x.take, x.trip, x.other)) ht
  simp only [State.schedule, Schedule.rebooked, Schedule.withSlot, Prod.mk.injEq] at hfields
  obtain ⟨htake, htrip, hother⟩ := hfields
  rw [schedulerSound_iff, htake, htrip, hother]
  exact ⟨horderly, ((schedulerSound_iff s).1 h).2⟩

theorem sendDue_sound {e : CalendarEntry} {rest : List CalendarEntry} (hcal : s.calendar = e :: rest) :
    SchedulerSound (sendDue e rest s) := by
  have hstate : s.pubs[e.slot].state.scheduled = true := (h.orderly.booked e.slot).2 ⟨e, by simp [State.schedule, hcal], rfl⟩
  have harmed := PubState.armed_of_scheduled hstate
  obtain ⟨c, hc⟩ := Option.isSome_iff_exists.1 ((h.orderly.armed e.slot).trans harmed)
  obtain ⟨due, hdue⟩ := sendDue_schedule (rest := rest) hc
  have hrest : rest = unbooked e.slot s.calendar := by
    have hdistinct : s.calendar.Pairwise (fun c d => c.slot ≠ d.slot) := h.orderly.calendar
    rw [hcal] at hdistinct ⊢
    exact (behindHead_eq hdistinct).symm
  have hadvanced : (s.pubs[e.slot].advanced c).state.scheduled = true := by
    unfold PubSlot.advanced
    repeat' split
    · exact hstate
    · rfl
    · exact hstate
  refine rebooked_sound h hdue ?_
  have hconfig : (s.pubs[e.slot].advanced c).key.config = s.pubs[e.slot].config := by
    rw [(advanced_spec _).2.2.2]
    rfl
  rw [hdue, hrest]
  exact h.orderly.rebook_scheduled hconfig harmed hadvanced due

theorem expirePub_sound {k : Fin 32} {due : Clock} (hdue : s.pubs[k].refreshAt = some due) (time : Clock) :
    SchedulerSound (expirePub k time s) := by
  have harmed := PubState.armed_of_scheduled (h.orderly.refresh k (congrArg Option.isSome hdue))
  refine rebooked_sound h (expirePub_schedule k time s) ?_
  rw [expirePub_schedule]
  refine h.orderly.rebook rfl harmed.symm nofun (h.orderly.calendar.filter _) fun j => ?_
  rw [mem_unbooked]
  split
  next hj => exact iff_of_false (fun hne => hne.1 hj) nofun
  next hj => exact and_iff_right hj

end

end Sys2Proof.Machine
end

section
/-! What has no part in the send schedule: ports, lanes, Twin Watch, Delivery, the stream table, the engine, contacts (O60). -/

namespace Sys2Proof.Machine

/-! ## Ports and lanes -/

@[simp] theorem laneSent_schedule (l : Lane) (s : State) : (laneSent l s).schedule = s.schedule := by
  unfold laneSent
  split <;> simp [State.schedule]

@[simp] theorem baySent_schedule (p : Fin 4) (s : State) : (baySent p s).schedule = s.schedule := by
  unfold baySent
  split <;> rfl

@[simp] theorem receiveLane_schedule (l : Lane) (f : List Byte) (s : State) : (receiveLane l f s).schedule = s.schedule := by
  have join (a : Arrival) : (joinLane l a s).schedule = s.schedule := by
    unfold joinLane
    split <;> simp [State.schedule]
  have bare (b : List Byte) : (bareFromLane l b s).schedule = s.schedule := by
    unfold bareFromLane
    split <;> simp [State.schedule]
  have counted (g : LaneGroup → LaneGroup) (c : LaneCounter) (t : Clock) : (countLane l g c t s).schedule = s.schedule := by
    simp [State.schedule]
  unfold receiveLane classifyLane
  dsimp only
  (repeat' split) <;> simp only [join, bare, counted]

@[simp] theorem receiveBay_schedule (p : Fin 4) (f : List Byte) (s : State) : (receiveBay p f s).schedule = s.schedule := by
  have join (a : Arrival) : (joinBay p a s).schedule = s.schedule := by
    unfold joinBay
    split <;> simp [State.schedule]
  have bare (b : List Byte) : (bareFromBay p b s).schedule = s.schedule := by
    unfold bareFromBay
    split <;> simp [State.schedule]
  have counted (g : BayBlock → BayBlock) (c : BayCounter) (t : Clock) : (countBay p g c t s).schedule = s.schedule := by
    simp [State.schedule]
  unfold receiveBay classifyBay
  dsimp only
  (repeat' split) <;> simp only [join, bare, counted]

@[simp] theorem moveLane_schedule (l : Lane) (n : LaneState) (c : LaneCause) (f : LaneGroup → LaneGroup) (s : State) :
    (moveLane l n c f s).schedule = s.schedule := by simp [State.schedule]

@[simp] theorem releaseLane_schedule (l : Lane) (c : LaneCause) (s : State) : (releaseLane l c s).schedule = s.schedule := by
  unfold releaseLane
  split <;> simp

@[simp] theorem holdLane_schedule (l : Lane) (s : State) : (holdLane l s).schedule = s.schedule := by
  unfold holdLane
  split <;> simp

@[simp] theorem releaseAtStart_schedule (s : State) : (releaseAtStart s).schedule = s.schedule := by
  have entered (l : Lane) (u : State) : (enterAtStart l u).schedule = u.schedule := by simp [State.schedule, enterAtStart]
  have both := (entered .b (enterAtStart .a s)).trans (entered .a s)
  rw [releaseAtStart_eq]
  generalize enterAtStart .b (enterAtStart .a s) = t at both ⊢
  exact both

@[simp] theorem takeLone_schedule (rise : Bool) (s : State) : (takeLone rise s).schedule = s.schedule := by
  have apply (c : LoneChange) (u : State) : (applyLone c u).schedule = u.schedule := by
    unfold applyLone
    dsimp only
    (repeat' split) <;> simp [State.schedule]
  unfold takeLone
  repeat' split
  · exact apply _ { s with loneChanges := _ }
  all_goals rfl

@[simp] theorem provingExpired_schedule (l : Lane) (s : State) : (provingExpired l s).schedule = s.schedule := by
  unfold provingExpired
  (repeat' split) <;> simp

@[simp] theorem laneUp_schedule (l : Lane) (s : State) : (laneUp l s).schedule = s.schedule := by
  unfold laneUp
  dsimp only
  (repeat' split) <;> simp [State.schedule]

@[simp] theorem laneDown_schedule (l : Lane) (cut : Bool) (s : State) : (laneDown l cut s).schedule = s.schedule := by
  unfold laneDown
  dsimp only
  (repeat' split) <;> simp [State.schedule]

@[simp] theorem bayUp_schedule (p : Fin 4) (s : State) : (bayUp p s).schedule = s.schedule := by
  unfold bayUp
  dsimp only
  split <;> rfl

@[simp] theorem bayDown_schedule (p : Fin 4) (cut : Bool) (s : State) : (bayDown p cut s).schedule = s.schedule := by
  unfold bayDown
  dsimp only
  (repeat' split) <;> simp [State.schedule]

/-! ## Twin Watch -/

@[simp] theorem setWatch_schedule (w : List WatchEntry) (f : Counters → Counters) (s : State) :
    (setWatch w f s).schedule = s.schedule := rfl

@[simp] theorem watchAsked_schedule (i r q : Word) (l : Lane) (t : Clock) (s : State) :
    (watchAsked i r q l t s).schedule = s.schedule := by
  unfold watchAsked
  (repeat' split) <;> rfl

@[simp] theorem twinJudged_schedule (i r q : Word) (l : Lane) (t : Clock) (s : State) :
    (twinJudged i r q l t s).schedule = s.schedule := by
  unfold twinJudged
  dsimp only
  (repeat' split) <;> rfl

/-! ## Delivery and the stream table -/

@[simp] theorem completeDelivery_schedule (k : Fin 64) (d : InProgress) (s : State) :
    (completeDelivery k d s).schedule = s.schedule := by
  have updates (c : Copy) (dues : List DueView) (u : State) : (updatesAndDelivery k c dues u).schedule = u.schedule := by
    induction dues generalizing u with
    | nil => rfl
    | cons d rest ih =>
      unfold updatesAndDelivery
      dsimp only
      split
      · exact (ih _).trans rfl
      · rfl
  have after (u : State) : (afterDelivery k u).schedule = u.schedule := by
    unfold afterDelivery
    dsimp only
    split
    · exact (foldl_keeps State.schedule (fun s d => writeView k d s) (fun t d => rfl) _ _).trans rfl
    · exact (updates ..).trans rfl
  have written : (writeDelivery k d s).schedule = s.schedule := by
    unfold writeDelivery notifyClaim flagClaim
    dsimp only
    (repeat' split) <;> rfl
  have flag (u : State) : (showFlag k u).schedule = u.schedule := by simp [State.schedule]
  have outcomes (os : List SlotOutcome) (u : State) : (os.foldl (fun s o => applyOutcome k o s) u).schedule = u.schedule :=
    foldl_keeps State.schedule _ (fun t o => by simp [State.schedule]) os u
  unfold completeDelivery
  dsimp only
  split
  · exact (after _).trans ((outcomes ..).trans written)
  · exact (flag _).trans ((after _).trans ((outcomes ..).trans written))

@[simp] theorem takeSubscription_schedule (k : Fin 64) (s : State) : (takeSubscription k s).schedule = s.schedule := by
  have arm (u : State) : (armSlot k u).schedule = u.schedule := by
    unfold armSlot attach
    dsimp only
    (repeat' split) <;> simp [State.schedule]
  have off (u : State) : (detach k u).schedule = u.schedule := by
    unfold detach
    split <;> simp [State.schedule]
  have claimed (u : State) : (subscriptionClaim k u).schedule = u.schedule := by
    unfold subscriptionClaim
    dsimp only
    repeat' split
    · rw [arm, off]
    · rfl
    · rw [← off u]; simp [State.schedule]
    · rw [← off u]; simp [State.schedule]
  exact (claimed _).trans (settleAgeing_schedule s)

@[simp] theorem expireFreshness_schedule (i : Word) (s : State) : (expireFreshness i s).schedule = s.schedule := by
  have stale (p : Fin 512) (e : Entry) (t : Clock) (q m : Word) : (goStale p e t q m s).schedule = s.schedule := by
    unfold goStale
    dsimp only
    (repeat' split) <;> simp [State.schedule]
  unfold expireFreshness
  repeat' split
  · exact stale ..
  all_goals rfl

@[simp] theorem applyMiss_schedule (i r : Word) (l : Lane) (c : Word) (s : State) :
    (applyMiss i r l c s).schedule = s.schedule := by
  unfold applyMiss
  dsimp only
  (repeat' split) <;> simp [State.schedule]

@[simp] theorem applyCredit_schedule (i r : Word) (l : Lane) (s : State) : (applyCredit i r l s).schedule = s.schedule := by
  unfold applyCredit
  dsimp only
  (repeat' split) <;> simp [State.schedule]

@[simp] theorem noticeLane_schedule (l : Lane) (s : State) : (noticeLane l s).schedule = s.schedule := by
  unfold noticeLane
  dsimp only
  refine (foldl_keeps State.schedule _ (fun u k => ?_) _ _).trans rfl
  split <;> simp [State.schedule]

@[simp] theorem arrivalTaken_schedule (s : State) : (arrivalTaken s).schedule = s.schedule := by
  have judged (a : Arrival) (u : State) : (judgeArrival a u).schedule = u.schedule := by
    have taken : (asEngineClaim (takeArrival a) u).schedule = u.schedule := by
      rw [asEngineClaim_schedule]
      simp [State.schedule]
    unfold judgeArrival
    dsimp only
    split
    · exact (expireFreshness_schedule ..).trans taken
    · exact taken
  have popped (p : Port) (u : State) : (popArrival p u).schedule = u.schedule := by
    unfold popArrival
    split <;> simp [State.schedule]
  unfold arrivalTaken
  (repeat' split) <;> simp only [judged, popped]

/-! ## Contact inputs and outputs -/

theorem updateContacts_schedule (f : State → State) (s : State) (h : (f s).schedule = s.schedule) :
    (updateContacts f s).schedule = s.schedule := by
  unfold updateContacts
  dsimp only
  split <;> exact h

@[simp] theorem updateInput_schedule (n : Fin 8) (f : ContactInput → ContactInput) (s : State) :
    (updateContacts (·.modifyInput n f) s).schedule = s.schedule := updateContacts_schedule _ _ rfl

@[simp] theorem driveOutput_schedule (n : Fin 4) (c : OutputCause) (s : State) :
    (driveOutput n c s).schedule = s.schedule := by simp [State.schedule]

@[simp] theorem releaseOutput_schedule (n : Fin 4) (c : OutputCause) (s : State) :
    (releaseOutput n c s).schedule = s.schedule := by simp [State.schedule]

@[simp] theorem beginFiltering_schedule (s : State) : (beginFiltering s).schedule = s.schedule := updateContacts_schedule _ s rfl

@[simp] theorem announceChange_schedule (n : Fin 8) (o : Option Bool) (l : Bool) (t : Clock) (s : State) :
    (announceChange n o l t s).schedule = s.schedule := by
  unfold announceChange
  dsimp only
  split <;> simp [State.schedule]

@[simp] theorem pulseExpired_schedule (n : Fin 4) (s : State) : (pulseExpired n s).schedule = s.schedule := by
  unfold pulseExpired
  (repeat' split) <;> simp

@[simp] theorem rawChange_schedule (n : Fin 8) (s : State) : (rawChange n s).schedule = s.schedule := by
  unfold rawChange
  dsimp only
  split
  · exact updateContacts_schedule _ { s with pins := _ } rfl
  · rfl

@[simp] theorem filterExpired_schedule (n : Fin 8) (s : State) : (filterExpired n s).schedule = s.schedule := by
  unfold filterExpired firstSettle blockInput acceptChange
  dsimp only
  (repeat' split) <;> simp

@[simp] theorem unblockInput_schedule (n : Fin 8) (s : State) : (unblockInput n s).schedule = s.schedule := by
  unfold unblockInput
  dsimp only
  split <;> simp

@[simp] theorem blockRunOut_schedule (n : Fin 8) (s : State) : (blockRunOut n s).schedule = s.schedule := by
  have counted (f : ContactInput → ContactInput) : (s.modifyInput n f).schedule = s.schedule := rfl
  unfold blockRunOut
  dsimp only
  (repeat' split) <;> simp [counted]

@[simp] theorem unblockWaiting_schedule (n : Fin 8) (s : State) : (unblockWaiting n s).schedule = s.schedule := by
  unfold unblockWaiting
  split <;> simp

@[simp] theorem putInForce_schedule (new : Settings) (s : State) : (putInForce new s).schedule = s.schedule := by
  have taken : (takeSettings new s).schedule = s.schedule := by
    unfold takeSettings
    dsimp only
    refine (foldl_keeps State.schedule _ (fun u n => ?_) _ _).trans (updateContacts_schedule _ s rfl)
    split <;> rfl
  exact taken

@[simp] theorem ruleClaim_schedule (k : Fin 16) (s : State) : (ruleClaim k s).schedule = s.schedule := by
  unfold ruleClaim refuseRule
  dsimp only
  (repeat' split) <;> rfl

end Sys2Proof.Machine
end

section
/-! The send schedule over the rules and the controller's functions, and so over a step (R133, R134, R141, R142). -/

namespace Sys2Proof.Machine

/-- R18, R19. What the part keeps at a reset has nothing scheduled. -/
theorem reset_sound (soft : Bool) (mem : List Host.Cell) (s : State) : SchedulerSound (resetTo soft mem s) := by
  have hpubs (k : Fin 32) : (resetTo soft mem s).pubs[k] = pubSlotAtReset := by simp [resetTo, State.reset]
  refine ⟨List.Pairwise.nil, nofun, nofun, fun _ => ⟨rfl, rfl⟩, nofun, List.Pairwise.nil, fun k => ?_⟩
  rw [hpubs]
  exact ⟨⟨nofun, nofun⟩, rfl, nofun⟩

theorem foldl_sound {α : Type} {f : State → α → State} (hf : ∀ s x, SchedulerSound s → SchedulerSound (f s x)) (l : List α)
    {s : State} (h : SchedulerSound s) : SchedulerSound (l.foldl f s) :=
  List.foldlRecOn l f h fun s hs x _ => hf s x hs

/-- R165. The firing of rule `k` counted, and claimed of the journal if the rule asks for it. -/
def State.noteFired (s : State) (k : Fin 16) (c : RuleCopy) (e : RuleEvent) : State :=
  if c.journal then
    claim { kind := .ruleFired, subject := .rule k, time := s.clock, d1 := sourceKindCode c.source
            d2 := eventSubject e, d3 := actionCode c.action }
      (s.modifyRule k (fun r => { r with fired := satInc r.fired, lastFired := s.clock }))
  else s.modifyRule k (fun r => { r with fired := satInc r.fired, lastFired := s.clock })

/-- R165. A rule that fires notes it, and acts. -/
theorem fire_eq (k : Fin 16) (c : RuleCopy) (e : RuleEvent) (s : State) : fire k c e s =
    if (act k c.action (s.noteFired k c e)).2 then
      (act k c.action (s.noteFired k c e)).1.modifyRule k (fun r => { r with refusals := satIncByte r.refusals })
    else (act k c.action (s.noteFired k c e)).1 := rfl

theorem noteFired_schedule (k : Fin 16) (c : RuleCopy) (e : RuleEvent) (s : State) :
    (s.noteFired k c e).schedule = s.schedule := by
  unfold State.noteFired
  split <;> rfl

theorem modifyRule_schedule (k : Fin 16) (f : LinkRule → LinkRule) (s : State) :
    (s.modifyRule k f).schedule = s.schedule := rfl

section
variable {s : State} (h : SchedulerSound s)
include h

/-! ## The rules -/

theorem act_sound (k : Fin 16) (a : Action) : SchedulerSound (act k a s).1 := by
  unfold act
  repeat' split
  · exact h.of_same
  · exact h
  · exact h.of_same
  · exact post_sound h ..
  · exact h
  · exact h

theorem fire_sound (k : Fin 16) (c : RuleCopy) (e : RuleEvent) : SchedulerSound (fire k c e s) := by
  have acted := act_sound (h.of_same (noteFired_schedule k c e s)) k c.action
  rw [fire_eq]
  split
  · exact acted.of_same (modifyRule_schedule ..)
  · exact acted

theorem takeEvent_sound (e : RuleEvent) : SchedulerSound (takeEvent e s) := by
  refine foldl_sound (fun u k hu => ?_) _ h
  unfold judgeRule
  dsimp only
  repeat' split
  · exact fire_sound (hu.of_same (modifyRule_schedule ..)) ..
  · exact hu.of_same (modifyRule_schedule ..)
  · exact hu
  · exact hu

/-! ## START and the other commands -/

theorem takeArm_sound (w : ArmWord) : SchedulerSound (takeArm w s) := by
  cases w with
  | subscription k => exact h.of_same (takeSubscription_schedule k s)
  | publication k => exact takePublication_sound h k
  | rule k => exact h.of_same (ruleClaim_schedule k s)

theorem doPiece_sound (p : StartPiece) (left : List StartPiece) (read : List Host.Cell) (w : Working) :
    SchedulerSound (doPiece p left read w s) := by
  have goOn (w : Option Working) : SchedulerSound { s with working := w } := h
  cases p with
  | read a => exact goOn _
  | settings =>
    simp only [doPiece]
    split
    · exact goOn _
    · exact (goOn _).of_same (putInForce_schedule ..)
  | visit arm => exact takeArm_sound (goOn (some { w with finish := .starting left read })) arm
  | lanes =>
    exact (goOn (some { w with finish := .starting left read })).of_same
      ((beginFiltering_schedule _).trans (releaseAtStart_schedule _))
  | started => exact h

theorem work_sound (n : Nat) : SchedulerSound (work n s) := by
  have once {u : State} (hu : SchedulerSound u) : SchedulerSound (workOnce u) := by
    unfold workOnce
    repeat' split
    · exact doPiece_sound hu ..
    all_goals exact hu
  induction n generalizing s with
  | zero => exact h
  | succ n ih => exact ih (once h)

theorem goOnStarting_sound : SchedulerSound (goOnStarting s) := by
  unfold goOnStarting
  split
  · exact work_sound (s := { s with free := s.free + 1 }) h _
  · exact h

theorem laneCommand_sound (e : Word) {run : Lane → State → State} (hr : ∀ l, (run l s).schedule = s.schedule) :
    SchedulerSound (laneCommand e run s) := by
  unfold laneCommand inRunning
  dsimp only
  repeat' split
  · exact h.of_same (hr _)
  all_goals exact h

theorem takeCommand_sound (v : Word) : SchedulerSound (takeCommand v s) := by
  unfold takeCommand
  split
  · unfold commandStart
    split
    · exact goOnStarting_sound (s := working ..) h
    · exact h
  · unfold commandApply inRunning
    dsimp only
    (repeat' split) <;> exact h
  · exact h.of_same (settleAgeing_schedule (clearGroups s))
  · exact reset_sound ..
  · exact laneCommand_sound h _ (holdLane_schedule · s)
  · exact laneCommand_sound h _ (releaseLane_schedule · _ s)
  · unfold commandOutputDrive inRunning
    dsimp only
    repeat' split
    · exact h.of_same (driveOutput_schedule _ _ s)
    all_goals exact h
  · unfold commandOutputRelease inRunning
    dsimp only
    repeat' split
    · exact h.of_same (releaseOutput_schedule _ _ s)
    all_goals exact h
  · exact h

theorem completeCommand_sound : SchedulerSound (completeCommand s) := by
  have finished (f : Finish) {u : State} (hu : SchedulerSound u) : SchedulerSound (finishCommand f u) := by
    cases f with
    | nothing => exact hu
    | starting left read => exact foldl_sound (fun u w hu => takeArm_sound hu w) _ (hu.of_same rfl)
    | takeSettings new => exact hu.of_same (putInForce_schedule new u)
  have worked : SchedulerSound (match s.startLeft with | some left => work left.length s | none => s) := by
    split
    · exact work_sound h _
    · exact h
  unfold completeCommand
  dsimp only
  split
  · exact finished _ worked
  · exact worked

/-! ## Host writes -/

theorem hostWrite_sound (a : Nat) (v : Word) : SchedulerSound (hostWrite a v s) := by
  have arm (w : ArmWord) {u : State} (hu : SchedulerSound u) : SchedulerSound (armWritten w u) := by
    unfold armWritten
    repeat' split
    · exact takeArm_sound hu w
    all_goals exact hu
  have write {u : State} (hu : SchedulerSound u) : SchedulerSound (written a v u) := by
    unfold written
    repeat' split
    · exact takeCommand_sound hu v
    · exact hu
    · exact arm _ hu
    · exact watchedWrite_sound hu ..
    · exact arm _ hu
    · exact hu
    · exact arm _ hu
    · exact hu
    · exact hu
  have refused : SchedulerSound (refuseWrite a v s) := by
    unfold refuseWrite
    dsimp only
    split <;> exact h
  unfold hostWrite
  repeat' split
  · exact h
  · exact write (u := { s with mem := writeWord s.mem a v }) h
  · exact refused
  · exact refused

theorem enterConfig_sound : SchedulerSound (enterConfig s) := by
  unfold enterConfig takeLinks
  dsimp only
  refine foldl_sound (fun u p hu => hu.of_same) _ (SchedulerSound.of_same (s := s) h ?_)
  simp [State.schedule]

/-! ## One step -/

/-- Every command keeps the post set, the take, the send calendar and the refresh deadlines sound. -/
theorem exec_schedulerSound (c : Instr) : Leads SchedulerSound (exec c s) := by
  cases c with
  | hardwareReset => exact leads_next.2 (reset_sound ..)
  | initialisingComplete =>
    simp only [exec, execInitialisingComplete]
    split
    · exact leads_next.2 (enterConfig_sound h)
    · exact leads_next.2 h
  | hostWrite | start | apply | clearCounts | softReset | laneHold | laneRelease | outputDrive | outputRelease
  | unknownCommand | journalTakenWrite | subscriptionArm | publicationArm | linkRuleArm | editionWrite =>
    exact leads_next.2 (hostWrite_sound h _ _)
  | commandCompletion => exact leads_next.2 (completeCommand_sound h)
  | takeComplete =>
    simp only [exec, execTakeComplete]
    split
    · exact leads_next.2 (takeCompletes_sound h _)
    · exact leads_next.2 h
  | calendarSend =>
    simp only [exec, execCalendarSend]
    repeat' split
    · next hcal _ => exact leads_next.2 (sendDue_sound h hcal)
    all_goals exact leads_next.2 h
  | refreshExpiry k =>
    simp only [exec, execRefreshExpiry]
    repeat' split
    · next hdue _ => exact leads_next.2 (expirePub_sound h hdue _)
    all_goals exact leads_next.2 h
  | clockGroupUpdate =>
    simp only [exec, execClockGroupUpdate]
    split <;> exact leads_next.2 h
  | secondsTick =>
    simp only [exec, execSecondsTick]
    split <;> exact leads_next.2 h
  | ageingExpiry p => exact leads_next.2 h.of_same
  | laneFrameReceived l f => exact leads_next.2 (h.of_same (receiveLane_schedule l f s))
  | bayFrameReceived p f => exact leads_next.2 (h.of_same (receiveBay_schedule p f s))
  | laneLinkUp l => exact leads_next.2 (h.of_same (laneUp_schedule l s))
  | laneLinkDown l cut => exact leads_next.2 (h.of_same (laneDown_schedule l cut s))
  | bayLinkUp p => exact leads_next.2 (h.of_same (bayUp_schedule p s))
  | bayLinkDown p cut => exact leads_next.2 (h.of_same (bayDown_schedule p cut s))
  | laneTransmitEnd l => exact leads_next.2 (h.of_same (laneSent_schedule l s))
  | bayTransmitEnd p => exact leads_next.2 (h.of_same (baySent_schedule p s))
  | arrivalTaken => exact leads_next.2 (h.of_same (arrivalTaken_schedule s))
  | deliveryComplete k =>
    simp only [exec, execDeliveryComplete]
    split
    · exact leads_next.2 (h.of_same (completeDelivery_schedule ..))
    · exact leads_next.2 h
  | watchRequest =>
    simp only [exec, execWatchRequest]
    split
    · next rest _ => exact leads_next.2 (h.of_same (watchAsked_schedule _ _ _ _ _ { s with twinClaims := rest }))
    · exact leads_next.2 h
  | twinTaken =>
    simp only [exec, execTwinTaken]
    split
    · next rest _ => exact leads_next.2 (h.of_same (twinJudged_schedule _ _ _ _ _ { s with twinClaims := rest }))
    · exact leads_next.2 h
  | abandon =>
    simp only [exec, execAbandon]
    split <;> exact leads_next.2 h
  | laneCleanup =>
    simp only [exec, execLaneCleanup]
    split <;> exact leads_next.2 h
  | watchExpiry =>
    simp only [exec, execWatchExpiry]
    (repeat' split) <;> exact leads_next.2 h
  | missReport =>
    simp only [exec, execMissReport]
    repeat' split
    · next rest _ _ => exact leads_next.2 (h.of_same (applyMiss_schedule _ _ _ _ { s with reports := rest }))
    all_goals exact leads_next.2 h
  | creditReport =>
    simp only [exec, execCreditReport]
    repeat' split
    · next rest _ _ => exact leads_next.2 (h.of_same (applyCredit_schedule _ _ _ { s with reports := rest }))
    all_goals exact leads_next.2 h
  | laneNotice =>
    simp only [exec, execLaneNotice]
    repeat' split
    · next l rest _ _ => exact leads_next.2 (h.of_same
        ((asEngineClaim_schedule ..).trans (noticeLane_schedule l { s with laneNotices := rest })))
    all_goals exact leads_next.2 h
  | loneCountRise => exact leads_next.2 (h.of_same (takeLone_schedule true s))
  | loneCountFall => exact leads_next.2 (h.of_same (takeLone_schedule false s))
  | provingTimerExpiry l => exact leads_next.2 (h.of_same (provingExpired_schedule l s))
  | freshnessExpiry id => exact leads_next.2 (h.of_same (expireFreshness_schedule id s))
  | eventOffer =>
    simp only [exec, execEventOffer]
    split
    · next e rest _ => exact leads_next.2 (takeEvent_sound (s := { s with events := rest }) h e)
    · exact leads_next.2 h
  | pulseExpiry n => exact leads_next.2 (h.of_same (pulseExpired_schedule n s))
  | rawChange n => exact leads_next.2 (h.of_same (rawChange_schedule n s))
  | filterTimerExpiry n => exact leads_next.2 (h.of_same (filterExpired_schedule n s))
  | blockCountExpiry n => exact leads_next.2 (h.of_same (blockRunOut_schedule n s))
  | unblock n => exact leads_next.2 (h.of_same (unblockWaiting_schedule n s))
  | journalClaim =>
    simp only [exec, execJournalClaim]
    split <;> exact leads_next.2 h
  | intPulseEnd =>
    simp only [exec, execIntPulseEnd]
    (repeat' split) <;> exact leads_next.2 h

end

/-- Settles O60: the scheduler's own operations keep its schedule sound, no other operation has a part in it, and a reset leaves it
empty. -/
theorem stepsKeepTheSchedulerSound : Obligations.StepsKeepTheSchedulerSound := by
  intro s t hs h
  unfold step at h
  split at h
  · next c rest _ => exact exec_schedulerSound (s := { s with pending := rest }) hs c t h
  · injection h with h
    rw [← h, tick]
    exact goOnStarting_sound (s := { s with clock := s.clock + 1 }) hs

end Sys2Proof.Machine
end

section
/-! The contact snapshot, byte for byte (R138). -/

namespace Sys2Proof.Machine

/-- The flags of some inputs in a byte, that of the last in the least significant bit. -/
theorem flags_bit (f : ContactInput → Bool) {l : List ContactInput} {i : Nat} {y : ContactInput} (hy : l.reverse[i]? = some y)
    (h8 : i < 8) : (l.foldl (fun (acc : Byte) x => (acc <<< 1) ||| (if f x then 1 else 0)) 0).getLsbD i = f y := by
  induction l using List.reverseRecOn generalizing i with
  | nil => cases hy
  | append_singleton l x ih =>
    rw [List.reverse_append, List.reverse_singleton, List.singleton_append] at hy
    rw [List.foldl_append, List.foldl_cons, List.foldl_nil, BitVec.getLsbD_or, BitVec.getLsbD_shiftLeft]
    cases i with
    | zero =>
      cases hy
      cases f y <;> simp
    | succ i =>
      have hbit : (if f x then 1 else 0 : Byte).getLsbD (i + 1) = false := by
        cases f x <;> simp [BitVec.getLsbD_one]
      rw [hbit]
      simpa [h8] using ih hy (by omega)

/-- R138. The flag of contact input `n` in its byte, CI1 in the most significant bit. -/
theorem inputFlags_bit (f : ContactInput → Bool) (inputs : Vector ContactInput 8) (n : Fin 8) :
    (inputFlags f inputs).getLsbD (7 - n.val) = f inputs[n] := by
  have hn := n.isLt
  refine flags_bit f ?_ (by omega)
  rw [List.getElem?_reverse (by simp; omega), Vector.length_toList, show 8 - 1 - (7 - n.val) = n.val by omega]
  simp

/-- Pieces of one length put behind each other: the piece of the thing at `n`. -/
theorem flatMap_piece {α β : Type} (f : α → List β) (w : Nat) (hf : ∀ x, (f x).length = w) (l : List α) (n : Nat) (hn : n < l.length) :
    ((l.flatMap f).drop (w * n)).take w = f l[n] := by
  induction l generalizing n with
  | nil => cases hn
  | cons x l ih =>
    cases n with
    | zero => simp [← hf x]
    | succ n =>
      have hdrop : w * (n + 1) = (f x).length + w * n := by rw [hf]; ring
      rw [List.flatMap_cons, hdrop, ← List.drop_drop, List.drop_left]
      exact ih n (by simpa using hn)

theorem bytesOfLong_eq (x : Long) :
    bytesOfLong x = [x.extractLsb' 24 8, x.extractLsb' 16 8, x.extractLsb' 8 8, x.extractLsb' 0 8] := by
  have part (lo off : Nat) (ho : off + 8 ≤ 16) : (x.extractLsb' lo 16).extractLsb' off 8 = x.extractLsb' (lo + off) 8 := by
    apply BitVec.eq_of_getLsbD_eq
    intro i hi
    simp only [BitVec.getLsbD_extractLsb', hi, show off + i < 16 by omega, decide_true, Bool.true_and, Nat.add_assoc]
  simp only [bytesOfLong, bytesOf, high, low, part, Nat.reduceLeDiff, Nat.reduceAdd, List.cons_append, List.nil_append]

/-- R138. The contact snapshot: 34 bytes, the levels, the blocked flags, and the last change times, CI1 first. -/
theorem contactSnapshot_bytes (inputs : Vector ContactInput 8) :
    (contactSnapshot inputs).length = 34
      ∧ ∀ n : Fin 8,
        (((contactSnapshot inputs).getD 0 0).getLsbD (7 - n.val) = (inputs[n].accepted == some true))
        ∧ ((contactSnapshot inputs).getD 1 0).getLsbD (7 - n.val) = inputs[n].blocked
        ∧ ((contactSnapshot inputs).drop (2 + 4 * n.val)).take 4 =
          [inputs[n].lastChange.extractLsb' 24 8, inputs[n].lastChange.extractLsb' 16 8
           , inputs[n].lastChange.extractLsb' 8 8, inputs[n].lastChange.extractLsb' 0 8] := by
  have hfour (i : ContactInput) : (bytesOfLong i.lastChange).length = 4 := rfl
  have hlist : inputs.toList.length = 8 := Vector.length_toList
  refine ⟨?_, fun n => ⟨inputFlags_bit .., inputFlags_bit .., ?_⟩⟩
  · rw [contactSnapshot, List.length_append, List.length_flatMap]
    simp [hfour]
  · have hpiece := flatMap_piece (fun i : ContactInput => bytesOfLong i.lastChange) 4 hfour inputs.toList n.val (by omega)
    rw [contactSnapshot, ← List.drop_drop]
    refine hpiece.trans ?_
    rw [bytesOfLong_eq]
    simp

end Sys2Proof.Machine
end

section
/-! Edition writes and collisions (O22). -/

namespace Sys2Proof.Machine

/-! ## The post set (R133) -/

section
variable {s : State} {k : Fin 32} {c : PubConfig} {w : Poster}

theorem posted_eq (k : Fin 32) (s : State) : posted k s = (s.postTrip ++ s.postOther).any (fun x => x.slot == k) :=
  List.any_append.symm

/-- R133. What joins the post set with a post of slot `k`. -/
def State.newPost (s : State) (k : Fin 32) (w : Poster) : List Post :=
  if (s.postTrip ++ s.postOther).any (fun x => x.slot == k) then [] else [{ slot := k, poster := w }]

theorem joinPosts_eq (w : Poster) (hc : s.pubs[k].config = some c) : joinPosts k w s =
    s.withPosts (s.postTrip ++ if c.cls = .trip then s.newPost k w else [])
      (s.postOther ++ if c.cls = .trip then [] else s.newPost k w) := by
  unfold State.newPost
  rw [← posted_eq]
  cases hposted : posted k s with
  | true =>
    rw [joinPosts_posted hposted]
    simp [State.withPosts]
  | false =>
    rw [joinPosts_new hposted hc]
    rfl

/-- A slot that has joined the post set is posted, and a later post finds it there. -/
theorem joinPosts_again (v : Poster) : joinPosts k v (joinPosts k w s) = joinPosts k w s := by
  refine joinPosts_posted ?_
  unfold joinPosts
  repeat' split
  · assumption
  all_goals simp [posted]

/-! ## Posts (R133, R134) -/

theorem post_idle (h : s.pubs[k].state.armed = false) : post k w s = s := if_neg (by rw [h]; exact Bool.false_ne_true)

theorem post_armed (h : s.pubs[k].state.armed = true) : post k w s = runTakes (joinPosts k w s) := if_pos h

/-- R134. Behind a take in progress, a post joins the post set. -/
theorem post_behind (h : s.pubs[k].state.armed = true) (ht : s.take.isSome = true) : post k w s = joinPosts k w s := by
  rw [post_armed h]
  exact runTakes_busy (by simpa using ht)

/-- R134, R135. The state in which the take of slot `k`, posted by `w`, is in progress, as it began. -/
def State.taking (s : State) (k : Fin 32) (w : Poster) (c : PubConfig) : State :=
  { s with take := some { slot := k, poster := w, edition := readWord s.mem (pubBase k + 11)
                          staged := if c.snapshot then contactSnapshot s.inputs else readStaged s.mem k } }

/-- R134. With nothing posted and no take in progress, the take of a slot posted begins; that of a CONTACT-SNAPSHOT slot completes at
once. -/
theorem post_begins (h : s.pubs[k].state.armed = true) (hc : s.pubs[k].config = some c) (htrip : s.postTrip = [])
    (hother : s.postOther = []) (ht : s.take = none) :
    Host.Outcome.next (post k w s)
      = if c.snapshot then exec .takeComplete (s.taking k w c) else .next (s.taking k w c) := by
  have hnew : s.newPost k w = [{ slot := k, poster := w }] := by simp [State.newPost, htrip, hother]
  rw [post_armed h, joinPosts_eq w hc, hnew]
  refine runTakes_posted (p := { slot := k, poster := w }) (restTrip := s.postTrip) (restOther := s.postOther) ht ?_ hc rfl
  by_cases hcls : c.cls = .trip <;> simp [hcls, htrip, hother]

/-! ## Collisions (R136) -/

/-- R136. The take of slot `t.slot` is over, and its collision counted. -/
def State.collided (s : State) (t : Take) : State :=
  { s with
    take := none
    pubs := modifyAt s.pubs t.slot (fun p => { p with collisions := satInc p.collisions, count := p.count + 1 }) }

theorem abandonByCollision_eq (t : Take) (s : State) : abandonByCollision t s = joinPosts t.slot t.poster (s.collided t) := rfl

theorem collided_config (t : Take) (j : Fin 32) : (s.collided t).pubs[j].config = s.pubs[j].config := by
  refine (congrArg PubSlot.config (modifyAt_get s.pubs t.slot j _)).trans ?_
  split
  next h => rw [← h]
  next => rfl

/-- R136. Taken as the collision first or as the post first, the slot is posted once: by the poster of its take, or by the host. -/
theorem collideAndPost_eq {t : Take} (hc : s.pubs[t.slot].config = some c) : collideAndPost t s =
    joinPosts t.slot (if Config.collisionFirst s.free = false then .host else t.poster)
      (State.collided { s with free := s.free + 1 } t) := by
  unfold collideAndPost
  dsimp only
  cases Config.collisionFirst s.free with
  | true =>
    rw [if_pos rfl, if_neg (by decide), abandonByCollision_eq]
    exact joinPosts_again _
  | false =>
    have hcommute : State.collided (joinPosts t.slot .host { s with free := s.free + 1 }) t
        = joinPosts t.slot .host (State.collided { s with free := s.free + 1 } t) := by
      rw [joinPosts_eq (s := { s with free := s.free + 1 }) _ hc,
        joinPosts_eq (s := State.collided { s with free := s.free + 1 } t) _ ((collided_config t t.slot).trans hc)]
      rfl
    rw [if_neg Bool.false_ne_true, if_pos rfl, abandonByCollision_eq, hcommute]
    exact joinPosts_again _

/-! ## Host writes into a slot (R7) -/

variable {v : Word} (hr : s.partState = .running)
include hr

theorem exec_editionWrite :
    exec (.editionWrite k v) s = .next (watchedWrite k 11 { s with mem := writeWord s.mem (pubBase k + 11) v }) := by
  have hlive : s.partState ≠ .initialising := by rw [hr]; exact PartState.noConfusion
  rw [exec_of_hostWriteOf rfl, hostWrite_edition k v s hlive]

theorem watchedWrite_post (h : ∀ t, s.take = some t → t.slot ≠ k) : watchedWrite k 11 s = post k .host s := by
  unfold watchedWrite
  rw [if_neg (not_not_intro hr)]
  split
  next t ht => rw [if_neg (h t ht), if_pos rfl]
  next => rfl

/-- R136. A write into the slot whose take is in progress. -/
theorem watchedWrite_collides {t : Take} (ht : s.take = some t) (hc : s.pubs[t.slot].config = some c) (off : Nat) :
    watchedWrite t.slot off s = runTakes
      (joinPosts t.slot (if off = 11 ∧ Config.collisionFirst s.free = false then .host else t.poster)
        (State.collided { s with free := if off = 11 then s.free + 1 else s.free } t)) := by
  unfold watchedWrite
  rw [if_neg (not_not_intro hr)]
  split
  next t' ht' =>
    obtain rfl : t' = t := Option.some.inj (ht'.symm.trans ht)
    by_cases h11 : off = 11
    · simp only [h11, if_true, true_and]
      rw [collideAndPost_eq hc]
    · simp only [h11, if_true, if_false, false_and]
      rw [abandonByCollision_eq]
  next hnone =>
    rw [ht] at hnone
    cases hnone

/-- R3, R7. A write stored into a slot, not into its arm word, by HOST_WRITE or, into the edition word, by EDITION_WRITE. -/
theorem exec_slotWrite {i : Instr} {a : Addr} {off : Nat} (ha : a.toNat = pubBase k + off) (hoff : off ≤ 140) (harm : off ≠ 12)
    (hi : i = .hostWrite a v ∨ (off = 11 ∧ i = .editionWrite k v)) :
    exec i s = .next (watchedWrite k off { s with mem := writeWord s.mem a.toNat v }) := by
  have hlive : s.partState ≠ .initialising := by rw [hr]; exact PartState.noConfusion
  obtain rfl | ⟨rfl, rfl⟩ := hi
  · have hplace := place_pub k off (by omega)
    have hside : s.sideNow (pubBase k + off) = .host := by
      rw [sideNow_fixed s _ hlive (Or.inr (armWord_pub_ne k off)), hplace]
      exact if_pos hoff
    rw [exec_of_hostWriteOf rfl, ha, hostWrite_stored _ _ _ hlive hside]
    unfold written
    rw [hplace]
    dsimp only
    rw [if_neg harm]
  · rw [exec_editionWrite hr, ha]

end

/-! ## The obligation, clause by clause -/

/-- R135, section 12.4. The content of a HOST-CONTENT take. -/
theorem readStaged_content (m : List Host.Cell) (k : Fin 32) (n : Nat) (hn : n = (readWord m (0x0200 + 160 * k.val + 10)).toNat) :
    (readStaged m k).length = (if n ≤ 256 then n else 256)
      ∧ ∀ (i : Nat) (w : Word), i < n → i < 256 → w = readWord m (0x0200 + 160 * k.val + 13 + i / 2) →
        (readStaged m k)[i]? = some (if i % 2 = 0 then w.extractLsb' 8 8 else w.extractLsb' 0 8) := by
  have hlen : (readStaged m k).length = min 256 n := by rw [readStaged_length, hn]; rfl
  refine ⟨by rw [hlen]; split <;> omega, fun i w hi hi' hw => ?_⟩
  rw [readStaged_byte m k i (by omega), hw]
  rfl

section
variable {s : State} {k : Fin 32} {v : Word} {c : PubConfig} (hr : s.partState = .running)
include hr

/-- R133. An edition write of a slot that is not being taken is a post of it. -/
theorem editionWrite_posts (ht : ∀ t, s.take = some t → t.slot ≠ k) :
    exec (.editionWrite k v) s = .next (post k .host { s with mem := writeWord s.mem (pubBase k + 11) v }) := by
  rw [exec_editionWrite hr]
  exact congrArg Host.Outcome.next (watchedWrite_post (s := { s with mem := writeWord s.mem (pubBase k + 11) v }) hr ht)

/-- R133. A slot that is not armed is not posted. -/
theorem editionWrite_unarmed (ht : ∀ t, s.take = some t → t.slot ≠ k) (h : s.pubs[k].state.armed = false) :
    exec (.editionWrite k v) s = .next { s with mem := writeWord s.mem (pubBase k + 11) v } := by
  rw [editionWrite_posts hr ht]
  exact congrArg Host.Outcome.next (post_idle (s := { s with mem := writeWord s.mem (pubBase k + 11) v }) h)

/-- R134, R135. The take that an edition write begins has the edition just written. -/
theorem editionWrite_begins (hwf : Memory.wf s.mem) (ht : s.take = none) (h : s.pubs[k].state.armed = true)
    (hc : s.pubs[k].config = some c) (htrip : s.postTrip = []) (hother : s.postOther = []) {x : State}
    (hx : x = { s with
      mem := writeWord s.mem (pubBase k + 11) v
      take := some { slot := k, poster := .host, edition := v
                     staged := if c.snapshot then contactSnapshot s.inputs
                       else readStaged (writeWord s.mem (pubBase k + 11) v) k } }) :
    exec (.editionWrite k v) s = if c.snapshot then exec .takeComplete x else .next x := by
  have htaking : State.taking { s with mem := writeWord s.mem (pubBase k + 11) v } k .host c = x := by
    rw [hx, State.taking, readWord_writeWord_self hwf]
  rw [editionWrite_posts hr (by rw [ht]; exact nofun),
    post_begins (s := { s with mem := writeWord s.mem (pubBase k + 11) v }) h hc htrip hother ht, htaking]

/-- R135, R138, R139. A CONTACT-SNAPSHOT slot's take is complete at once, with its send. -/
theorem editionWrite_snapshot (hwf : Memory.wf s.mem) (ht : s.take = none) (h : s.pubs[k].state.armed = true)
    (hc : s.pubs[k].config = some c) (htrip : s.postTrip = []) (hother : s.postOther = []) (hsnap : c.snapshot = true) :
    ∃ t, exec (.editionWrite k v) s = .next t ∧ t.take = none
      ∧ t.mem = writeWord s.mem (pubBase k + 11) v
      ∧ t.pubs[k] =
        { s.pubs[k] with
          buffer := some (contactSnapshot s.inputs), takenEdition := v, takenBy := some .host, lastTake := s.clock
          repeatNo := 1, interval := c.first, state := .burst
          refreshAt := if c.refresh = 0 then none else some (s.clock + secs c.refresh)
          nextSeq := s.pubs[k].nextSeq + 1, sends := s.pubs[k].sends + 1, count := s.pubs[k].count + 1 }
      ∧ t.calendar = insertCalendar { slot := k, due := s.clock + millis c.first }
          (s.calendar.filter (fun d => d.slot != k)) := by
  have hexec := editionWrite_begins hr (v := v) hwf ht h hc htrip hother rfl
  rw [if_pos hsnap, if_pos hsnap] at hexec
  obtain ⟨t, hdone, htake, hslot, -, hcalendar, -, -, -, -, -, -, -, hframe⟩ := takeComplete_sends
    (s := { s with mem := writeWord s.mem (pubBase k + 11) v
                   take := some { slot := k, poster := .host, edition := v, staged := contactSnapshot s.inputs } })
    (tk := { slot := k, poster := .host, edition := v, staged := contactSnapshot s.inputs }) rfl hc htrip hother
    (fun _ => rfl) rfl
  refine ⟨t, hexec.trans hdone, htake, ?_, hslot, hcalendar⟩
  rw [hframe]

/-- R133, R134. Behind a take of another slot, an armed slot joins the tail of its class group, unless it is posted. -/
theorem editionWrite_behind {tk : Take} (ht : s.take = some tk) (hne : tk.slot ≠ k) (h : s.pubs[k].state.armed = true)
    (hc : s.pubs[k].config = some c) : exec (.editionWrite k v) s = .next
      { s with mem := writeWord s.mem (pubBase k + 11) v
               postTrip := s.postTrip ++ if c.cls = .trip then s.newPost k .host else []
               postOther := s.postOther ++ if c.cls = .trip then [] else s.newPost k .host } := by
  have hother (t : Take) (htake : s.take = some t) : t.slot ≠ k := Option.some.inj (ht.symm.trans htake) ▸ hne
  rw [editionWrite_posts hr hother,
    post_behind (s := { s with mem := writeWord s.mem (pubBase k + 11) v }) h (congrArg Option.isSome ht),
    joinPosts_eq (s := { s with mem := writeWord s.mem (pubBase k + 11) v }) .host hc]
  rfl

/-- R134, R136. A write into the slot being taken, and the take that then begins. -/
theorem slotWrite_collides {x : State} {i : Instr} {tk : Take} {c' : PubConfig} {a : Addr} {off : Nat} {p : Post}
    {again trip other trip' other' : List Post} {mem : List Host.Cell} (ht : s.take = some tk)
    (hc : s.pubs[tk.slot].config = some c) (ha : a.toNat = pubBase tk.slot + off) (hoff : off ≤ 140) (harm : off ≠ 12)
    (hi : i = .hostWrite a v ∨ (off = 11 ∧ i = .editionWrite tk.slot v)) (hmem : mem = writeWord s.mem a.toNat v)
    (hagain : again = s.newPost tk.slot (if off = 11 ∧ Config.collisionFirst s.free = false then .host else tk.poster))
    (htrip : trip = s.postTrip ++ if c.cls = .trip then again else [])
    (hother : other = s.postOther ++ if c.cls = .trip then [] else again)
    (hp : (trip = p :: trip' ∧ other' = other) ∨ (trip = [] ∧ trip' = [] ∧ other = p :: other'))
    (hc' : s.pubs[p.slot].config = some c')
    (hx : x = { s with
      free := if off = 11 then s.free + 1 else s.free
      mem := mem
      pubs := modifyAt s.pubs tk.slot (fun p =>
        { p with collisions := (if p.collisions = 0xFFFF then 0xFFFF else p.collisions + 1), count := p.count + 1 })
      postTrip := trip', postOther := other'
      take := some { slot := p.slot, poster := p.poster, edition := readWord mem (pubBase p.slot + 11)
                     staged := if c'.snapshot then contactSnapshot s.inputs else readStaged mem p.slot } }) :
    exec i s = if c'.snapshot then exec .takeComplete x else .next x := by
  obtain ⟨r, hcollided⟩ : ∃ r, r = State.collided { s with
      mem := mem, free := if off = 11 then s.free + 1 else s.free } tk := ⟨_, rfl⟩
  have hconfig (j : Fin 32) : r.pubs[j].config = s.pubs[j].config := by
    rw [hcollided]
    exact collided_config tk j
  have hstored : exec i s = .next (runTakes (r.withPosts trip other)) := by
    have hjoined := joinPosts_eq (if off = 11 ∧ Config.collisionFirst s.free = false then .host else tk.poster)
      ((hconfig tk.slot).trans hc)
    have hposts : r.postTrip = s.postTrip ∧ r.postOther = s.postOther := by
      rw [hcollided]
      exact ⟨rfl, rfl⟩
    rw [exec_slotWrite hr ha hoff harm hi, ← hmem, watchedWrite_collides (s := { s with mem := mem }) hr ht hc off, ← hcollided,
      hjoined, htrip, hother, hagain, State.newPost, State.newPost, hposts.1, hposts.2]
  rw [hstored]
  refine runTakes_posted ?_ hp ((hconfig p.slot).trans hc') ?_
  · rw [hcollided]
    rfl
  · simp only [← satInc_stays] at hx
    rw [hx, hcollided]
    rfl

end

/-- Settles O22: an edition write is a post (`editionWrite_posts`), and a write into the slot being taken a collision
(`slotWrite_collides`); the content is `readStaged_content`, the snapshot `contactSnapshot_bytes`. -/
theorem editionWritesAndCollisions : Obligations.EditionWritesAndCollisions := by
  refine ⟨readStaged_content, rfl, fun s k v hr ht => ⟨fun h => editionWrite_unarmed hr (by rw [ht]; exact nofun) h,
      fun c hwf h hc htrip hother => ⟨fun hsnap => ?_, fun hsnap => ?_⟩⟩,
    fun s k v tk c hr ht hne => ⟨fun h => editionWrite_unarmed hr (fun t htake => ?_) h, fun h hc => ?_⟩,
    fun s x i tk c c' a v off p again trip other trip' other' mem hr ht hc _ ha hoff harm hi hmem hagain htrip hother hp hc' hx =>
      slotWrite_collides hr ht hc ha hoff harm hi hmem hagain htrip hother hp hc' hx⟩
  · rw [editionWrite_begins hr hwf ht h hc htrip hother rfl, hsnap]
    rfl
  · obtain ⟨t, hexec, htake, hmem, hslot, hcalendar⟩ := editionWrite_snapshot hr (v := v) hwf ht h hc htrip hother hsnap
    obtain ⟨hlength, hbytes⟩ := contactSnapshot_bytes s.inputs
    exact ⟨t, contactSnapshot s.inputs, hexec, htake, hmem, hslot, hcalendar, hlength, hbytes⟩
  · exact Option.some.inj (ht.symm.trans htake) ▸ hne
  · rw [editionWrite_behind hr ht hne h hc]
    refine ⟨fun hposted => ?_, fun hposted => ⟨fun htrip => ?_, fun htrip => ?_⟩⟩
    · simp only [State.newPost, if_pos hposted, ite_self, List.append_nil]
    · simp only [State.newPost, hposted, if_pos htrip, Bool.false_eq_true, if_false, List.append_nil]
    · simp only [State.newPost, hposted, if_neg htrip, Bool.false_eq_true, if_false, List.append_nil]

end Sys2Proof.Machine
end

section
/-! Which events concern and match a rule's source (R163). -/

namespace Sys2Proof.Machine

theorem concerns_iff (src : Source) (e : RuleEvent) : src.concerns e = true ↔
    (∃ n on time, (src = .contactOn n ∨ src = .contactOff n) ∧ e = .contact n on time)
    ∨ (∃ id, ((∃ offset mask value, src = .streamMatch id offset mask value) ∨ src = .streamStale id)
        ∧ ((∃ content, e = .streamCopy id content) ∨ e = .streamStale id))
    ∨ (∃ l verdict entered, src = .lane l verdict ∧ e = .lane l entered)
    ∨ ∃ named entered, src = .redundancy named ∧ e = .redundancy entered := by
  constructor
  · intro h
    cases src with
    | contactOn n =>
      cases e with
      | contact m on time =>
        obtain rfl : n = m := eq_of_beq h
        exact .inl ⟨n, on, time, .inl rfl, rfl⟩
      | streamCopy | streamStale | lane | redundancy => cases h
    | contactOff n =>
      cases e with
      | contact m on time =>
        obtain rfl : n = m := eq_of_beq h
        exact .inl ⟨n, on, time, .inr rfl, rfl⟩
      | streamCopy | streamStale | lane | redundancy => cases h
    | streamMatch id offset mask value =>
      cases e with
      | streamCopy id' content =>
        obtain rfl : id = id' := eq_of_beq h
        exact .inr (.inl ⟨id, .inl ⟨offset, mask, value, rfl⟩, .inl ⟨content, rfl⟩⟩)
      | streamStale id' =>
        obtain rfl : id = id' := eq_of_beq h
        exact .inr (.inl ⟨id, .inl ⟨offset, mask, value, rfl⟩, .inr rfl⟩)
      | contact | lane | redundancy => cases h
    | streamStale id =>
      cases e with
      | streamCopy id' content =>
        obtain rfl : id = id' := eq_of_beq h
        exact .inr (.inl ⟨id, .inr rfl, .inl ⟨content, rfl⟩⟩)
      | streamStale id' =>
        obtain rfl : id = id' := eq_of_beq h
        exact .inr (.inl ⟨id, .inr rfl, .inr rfl⟩)
      | contact | lane | redundancy => cases h
    | lane l verdict =>
      cases e with
      | lane l' entered =>
        obtain rfl : l = l' := eq_of_beq h
        exact .inr (.inr (.inl ⟨l, verdict, entered, rfl, rfl⟩))
      | contact | streamCopy | streamStale | redundancy => cases h
    | redundancy named =>
      cases e with
      | redundancy entered => exact .inr (.inr (.inr ⟨named, entered, rfl, rfl⟩))
      | contact | streamCopy | streamStale | lane => cases h
  · rintro (⟨n, on, time, rfl | rfl, rfl⟩ | ⟨id, ⟨offset, mask, value, rfl⟩ | rfl, ⟨content, rfl⟩ | rfl⟩
      | ⟨l, verdict, entered, rfl, rfl⟩ | ⟨named, entered, rfl, rfl⟩)
    case inr.inr.inr => rfl
    all_goals exact beq_self_eq_true _

theorem patternMatches_iff (offset : Nat) (mask value content : List Byte) : patternMatches offset mask value content = true ↔
    offset + 4 ≤ content.length
      ∧ ∀ i < 4, content.getD (offset + i) 0 &&& mask.getD i 0 = value.getD i 0 &&& mask.getD i 0 := by
  simp only [patternMatches, Bool.and_eq_true, decide_eq_true_eq, List.all_eq_true, List.mem_range, beq_iff_eq]

theorem matches_iff {src : Source} {e : RuleEvent} (h : src.concerns e = true) : src.matches e = true ↔
    (∃ n time, src = .contactOn n ∧ e = .contact n true time) ∨ (∃ n time, src = .contactOff n ∧ e = .contact n false time)
    ∨ (∃ id offset mask value content, src = .streamMatch id offset mask value ∧ e = .streamCopy id content
        ∧ offset + 4 ≤ content.length
        ∧ ∀ i < 4, content.getD (offset + i) 0 &&& mask.getD i 0 = value.getD i 0 &&& mask.getD i 0)
    ∨ (∃ id, src = .streamStale id ∧ e = .streamStale id) ∨ (∃ l entered, src = .lane l entered ∧ e = .lane l entered)
    ∨ ∃ entered, src = .redundancy entered ∧ e = .redundancy entered := by
  constructor
  · intro hm
    rcases (concerns_iff src e).1 h with ⟨n, on, time, rfl | rfl, rfl⟩ | ⟨id, ⟨offset, mask, value, rfl⟩ | rfl, ⟨content, rfl⟩ | rfl⟩
      | ⟨l, verdict, entered, rfl, rfl⟩ | ⟨named, entered, rfl, rfl⟩
    · obtain rfl : on = true := hm
      exact .inl ⟨n, time, rfl, rfl⟩
    · obtain rfl : on = false := by simpa [Source.matches] using hm
      exact .inr (.inl ⟨n, time, rfl, rfl⟩)
    · exact .inr (.inr (.inl ⟨id, offset, mask, value, content, rfl, rfl, (patternMatches_iff ..).1 hm⟩))
    · cases hm
    · cases hm
    · exact .inr (.inr (.inr (.inl ⟨id, rfl, rfl⟩)))
    · obtain rfl : verdict = entered := eq_of_beq hm
      exact .inr (.inr (.inr (.inr (.inl ⟨l, verdict, rfl, rfl⟩))))
    · obtain rfl : named = entered := eq_of_beq hm
      exact .inr (.inr (.inr (.inr (.inr ⟨named, rfl, rfl⟩))))
  · rintro (⟨n, time, rfl, rfl⟩ | ⟨n, time, rfl, rfl⟩ | ⟨id, offset, mask, value, content, rfl, rfl, hpattern⟩ | ⟨id, rfl, rfl⟩
      | ⟨l, entered, rfl, rfl⟩ | ⟨entered, rfl, rfl⟩)
    · rfl
    · rfl
    · exact (patternMatches_iff ..).2 hpattern
    · rfl
    · exact beq_self_eq_true entered
    · exact beq_self_eq_true entered

end Sys2Proof.Machine
end

section
/-! EVENT_OFFER: the rules judge the event, and those that fire act (O49). -/

namespace Sys2Proof.Machine

/-! ## What an action adds -/

/-- R165. What every action leaves of the state but its own effect: the claims that stand, and the entries of the stream table. -/
structure Enacted (s t : State) : Prop where
  claims : s.journal.claims <+: t.journal.claims
  table : t.table.map (·.isSome) = s.table.map (·.isSome)

theorem Enacted.refl (s : State) : Enacted s s := ⟨List.prefix_rfl, rfl⟩

theorem Enacted.trans {s t u : State} (h : Enacted s t) (g : Enacted t u) : Enacted s u :=
  ⟨h.claims.trans g.claims, g.table.trans h.table⟩

/-- A state with the claims and the table of `t`. -/
theorem Enacted.of_same {s t u : State} (h : Enacted s t) (hj : u.journal.claims = t.journal.claims) (ht : u.table = t.table) :
    Enacted s u := ⟨hj ▸ h.claims, ht ▸ h.table⟩

theorem Enacted.foldl {α : Type} {f : State → α → State} (hf : ∀ s x, Enacted s (f s x)) (l : List α) (s : State) :
    Enacted s (l.foldl f s) :=
  List.foldlRecOn (motive := Enacted s) l f (.refl s) fun t h x _ => h.trans (hf t x)

/-- R139. A send may add COUNTER-FIRST claims. -/
theorem sendPub_enacted (k : Fin 32) (s : State) : Enacted s (sendPub k s) := by
  cases hc : s.pubs[k].config with
  | none => rw [sendPub_idle (.inl hc)]; exact .refl s
  | some c =>
    cases hb : s.pubs[k].buffer with
    | none => rw [sendPub_idle (.inr hb)]; exact .refl s
    | some content =>
      obtain ⟨tbl, counts, hsent, htbl, -⟩ := sendPub_spec k s c content hc hb _ (s.pubs[k].copy c content s.settings) (fun _ => rfl) rfl
      obtain ⟨la, lb, bs, g, later, hcopies, -⟩ :=
        sendCopies_onlySends c.forward s.pubs[k].nextSeq (s.pubs[k].copy c content s.settings) s
      rw [hsent]
      refine ⟨⟨later, ?_⟩, Vector.ext fun p hp => ?_⟩
      · exact (congrArg (fun u : State => u.journal.claims) hcopies).symm
      · have hentry := congrArg Option.isSome (htbl ⟨p, hp⟩)
        rw [Option.isSome_map] at hentry
        simpa using hentry

theorem completeTake_enacted (k : Fin 32) (w : Poster) (n : Word) (content : List Byte) (s : State) :
    Enacted s (completeTake k w n content s) := by
  cases hc : s.pubs[k].config with
  | none => rw [completeTake_none hc]; exact .refl s
  | some c =>
    have hsent := sendPub_enacted k (s.takenAt k w n content c)
    have hbase : Enacted s (s.takenAt k w n content c) := (Enacted.refl s).of_same rfl rfl
    rw [completeTake_some hc]
    exact (hbase.trans hsent).of_same rfl rfl

theorem beginTakes_enacted (n : Nat) (s : State) : Enacted s (beginTakes n s) := by
  have begun (p : Post) (u : State) : Enacted u (beginTake p u) := by
    unfold beginTake
    dsimp only
    split
    · exact completeTake_enacted ..
    · exact (Enacted.refl u).of_same rfl rfl
  have posts (trip other : List Post) (u : State) : Enacted u (u.withPosts trip other) := (Enacted.refl u).of_same rfl rfl
  induction n generalizing s with
  | zero => exact .refl s
  | succ n ih =>
    unfold beginTakes
    repeat' split
    · exact .refl s
    · exact ((posts ..).trans (begun ..)).trans (ih _)
    · exact ((posts s.postTrip _ s).trans (begun ..)).trans (ih _)
    · exact .refl s

theorem post_enacted (k : Fin 32) (w : Poster) (s : State) : Enacted s (post k w s) := by
  have joined : Enacted s (joinPosts k w s) := (Enacted.refl s).of_same (by simp) (by simp)
  unfold post
  split
  · exact joined.trans (beginTakes_enacted ..)
  · exact .refl s

theorem driveOutput_enacted (n : Fin 4) (cause : OutputCause) (s : State) : Enacted s (driveOutput n cause s) := by
  by_cases hr : s.partState = .running
  · obtain ⟨e, he⟩ := driveOutput_eq n cause hr
    rw [he]
    exact ⟨⟨_, rfl⟩, rfl⟩
  · rw [driveOutput, if_neg hr]
    exact .refl s

theorem releaseOutput_enacted (n : Fin 4) (cause : OutputCause) (s : State) : Enacted s (releaseOutput n cause s) := by
  cases hd : s.outputs[n].driven with
  | true =>
    obtain ⟨e, he⟩ := releaseOutput_driven n cause hd
    rw [he]
    exact ⟨⟨_, rfl⟩, rfl⟩
  | false =>
    rw [releaseOutput_released n cause hd]
    exact .refl s

theorem act_enacted (k : Fin 16) (a : Action) (s : State) : Enacted s (act k a s).1 := by
  unfold act
  repeat' split
  · exact driveOutput_enacted ..
  · exact .refl s
  · exact releaseOutput_enacted ..
  · exact post_enacted ..
  · exact .refl s
  · exact .refl s

/-! ## What each action is (R161, R165) -/

/-- R165. The action is refused: its output is not permitted, or its slot not armed. -/
def Action.refusedIn (a : Action) (s : State) : Bool :=
  match a with
  | .driveOutput n => !s.settings.outputs[n].permitted
  | .post n => !s.pubs[n].state.armed
  | .releaseOutput _ | .journalOnly => false

theorem act_refused (k : Fin 16) (a : Action) (s : State) : (act k a s).2 = a.refusedIn s := by
  have refused (b : Bool) (u v : State) : (if b then (u, false) else (v, true)).2 = !b := by cases b <;> rfl
  cases a with
  | driveOutput n => exact refused s.settings.outputs[n].permitted ..
  | post n => exact refused s.pubs[n].state.armed ..
  | releaseOutput n => rfl
  | journalOnly => rfl

section
variable {s : State} {k : Fin 16} {n : Fin 4}

theorem act_drive (h : s.partState = .running) (hp : s.settings.outputs[n].permitted = true) :
    ∃ e, (act k (.driveOutput n) s).1 = { s with
      outputs := modifyAt s.outputs n (TripOutput.drive s.settings.outputs[n] s.clock), contactEdition := e
      journal := { s.journal with claims := s.journal.claims
        ++ if s.outputs[n].driven then [] else [outputChanged n false (.rule k) s.clock] } } := by
  have hact : (act k (.driveOutput n) s).1 = driveOutput n (.rule k) s := congrArg Prod.fst (if_pos hp)
  rw [hact]
  exact driveOutput_eq n (.rule k) h

theorem act_drive_idle (h : ¬(s.partState = .running ∧ s.settings.outputs[n].permitted = true)) :
    (act k (.driveOutput n) s).1 = s := by
  unfold act
  dsimp only
  split
  next hp => exact if_neg fun hr => h ⟨hr, hp⟩
  next => rfl

theorem act_drive_claims : (act k (.driveOutput n) s).1.journal.claims = s.journal.claims
    ++ if s.partState = .running ∧ s.settings.outputs[n].permitted = true ∧ s.outputs[n].driven = false then
      [outputChanged n false (.rule k) s.clock] else [] := by
  by_cases h : s.partState = .running ∧ s.settings.outputs[n].permitted = true
  · obtain ⟨hr, hp⟩ := h
    obtain ⟨e, he⟩ := act_drive (k := k) hr hp
    rw [he]
    refine congrArg (s.journal.claims ++ ·) ?_
    cases s.outputs[n].driven with
    | true => exact (if_neg fun hall => Bool.noConfusion hall.2.2).symm
    | false => exact (if_pos ⟨hr, hp, rfl⟩).symm
  · rw [act_drive_idle h, if_neg (fun hall => h ⟨hall.1, hall.2.1⟩), List.append_nil]

theorem act_drive_outputs (h : s.partState = .running) (hp : s.settings.outputs[n].permitted = true) :
    (act k (.driveOutput n) s).1.outputs[n].driven = true
      ∧ ∀ m : Fin 4, m ≠ n → (act k (.driveOutput n) s).1.outputs[m] = s.outputs[m] := by
  obtain ⟨e, he⟩ := act_drive (k := k) h hp
  rw [he]
  exact ⟨congrArg TripOutput.driven (modifyAt_outputs_self ..), fun m hm => modifyAt_outputs_ne _ _ hm⟩

theorem act_release_claims : (act k (.releaseOutput n) s).1.journal.claims = s.journal.claims
    ++ if s.outputs[n].driven then [outputChanged n true (.rule k) s.clock] else [] := by
  change (releaseOutput n (.rule k) s).journal.claims = _
  cases hd : s.outputs[n].driven with
  | true =>
    obtain ⟨e, he⟩ := releaseOutput_driven n (.rule k) hd
    rw [he]
    rfl
  | false =>
    rw [releaseOutput_released n (.rule k) hd]
    exact (List.append_nil _).symm

theorem act_release_outputs : (act k (.releaseOutput n) s).1.outputs[n].driven = false
    ∧ ∀ m : Fin 4, m ≠ n → (act k (.releaseOutput n) s).1.outputs[m] = s.outputs[m] := by
  change (releaseOutput n (.rule k) s).outputs[n].driven = false
    ∧ ∀ m : Fin 4, m ≠ n → (releaseOutput n (.rule k) s).outputs[m] = s.outputs[m]
  cases hd : s.outputs[n].driven with
  | true =>
    obtain ⟨e, he⟩ := releaseOutput_driven n (.rule k) hd
    rw [he]
    exact ⟨congrArg TripOutput.driven (modifyAt_outputs_self ..), fun m hm => modifyAt_outputs_ne _ _ hm⟩
  | false =>
    rw [releaseOutput_released n (.rule k) hd]
    exact ⟨hd, fun m hm => rfl⟩

variable {p : Fin 32}

theorem act_post : (act k (.post p) s).1 = post p (.rule k) s := by
  unfold act
  dsimp only
  split
  next => rfl
  next h => exact (post_idle (Bool.eq_false_iff.2 h)).symm

/-- R133. A post of a slot that is not armed, or behind a take, claims nothing. -/
theorem act_post_claims (h : s.pubs[p].state.armed = false ∨ s.take.isSome = true) :
    (act k (.post p) s).1.journal.claims = s.journal.claims := by
  rw [act_post]
  cases harmed : s.pubs[p].state.armed with
  | false => rw [post_idle harmed]
  | true =>
    rw [post_behind harmed (h.resolve_left (by rw [harmed]; decide))]
    simp

/-- R134, R135. A post that begins the take of a HOST-CONTENT slot. -/
theorem act_post_begins {c : PubConfig} (h : s.pubs[p].state.armed = true) (hc : s.pubs[p].config = some c)
    (hsnap : c.snapshot = false) (htrip : s.postTrip = []) (hother : s.postOther = []) (ht : s.take = none) :
    (act k (.post p) s).1 = s.taking p (.rule k) c := by
  have hbegins := post_begins (w := .rule k) h hc htrip hother ht
  rw [hsnap, if_neg Bool.false_ne_true] at hbegins
  rw [act_post]
  exact Host.Outcome.next.inj hbegins

end

end Sys2Proof.Machine
end

section
/-! One rule judges an event, and the rules together (R163 to R165, O49). -/

namespace Sys2Proof.Machine

/-! ## One rule -/

theorem modifyAt_modifyAt {α : Type} {n : Nat} (v : Vector α n) (i : Fin n) (f g : α → α) :
    modifyAt (modifyAt v i f) i g = modifyAt v i (fun x => g (f x)) := by
  simp [modifyAt]

theorem modifyAt_rules_self (v : Vector LinkRule 16) (k : Fin 16) (f : LinkRule → LinkRule) :
    (modifyAt v k f)[k] = f v[k] := modifyAt_get_self v k f

theorem modifyAt_rules_ne (v : Vector LinkRule 16) {k j : Fin 16} (f : LinkRule → LinkRule) (h : j ≠ k) :
    (modifyAt v k f)[j] = v[j] := modifyAt_get_ne v k j f h.symm

/-- R165. The claim that rule `k` has fired. -/
def ruleFired (k : Fin 16) (c : RuleCopy) (e : RuleEvent) (now : Clock) : JournalClaim :=
  { kind := .ruleFired, subject := .rule k, time := now, d1 := sourceKindCode c.source, d2 := eventSubject e
    d3 := actionCode c.action }

/-- R164, R165. The state in which rule `k`, which has fired, acts. -/
def State.firing (s : State) (k : Fin 16) (c : RuleCopy) (e : RuleEvent) : State :=
  { s with
    rules := modifyAt s.rules k (fun r => { r with matching := true, fired := satInc r.fired, lastFired := s.clock })
    journal := { s.journal with claims := s.journal.claims ++ if c.journal then [ruleFired k c e s.clock] else [] } }

/-- R164. The state once rule `k` has judged an event, and not fired. -/
def State.judged (s : State) (k : Fin 16) (hit : Bool) : State := s.modifyRule k (fun r => { r with matching := hit })

section
variable {s : State} {k : Fin 16} {c : RuleCopy} {e : RuleEvent}

theorem noteFired_judged : (s.judged k true).noteFired k c e = s.firing k c e := by
  have hrules := modifyAt_modifyAt s.rules k (fun r => { r with matching := true })
    (fun r => { r with fired := satInc r.fired, lastFired := s.clock })
  unfold State.noteFired State.firing
  rw [← hrules]
  cases c.journal with
  | true => rfl
  | false =>
    rw [if_neg Bool.false_ne_true, if_neg Bool.false_ne_true, List.append_nil]
    rfl

theorem judgeRule_unarmed (h : s.rules[k].state ≠ .armed ∨ s.rules[k].copy = none) : judgeRule e s k = s := by
  unfold judgeRule
  split
  next c hc =>
    have hst : s.rules[k].state ≠ .armed := h.resolve_right (by rw [hc]; exact Option.some_ne_none c)
    rw [decide_eq_false hst]
    rfl
  next => rfl

variable (hst : s.rules[k].state = .armed) (hc : s.rules[k].copy = some c)
include hc

theorem judgeRule_aloof (h : c.source.concerns e = false) : judgeRule e s k = s := by
  unfold judgeRule
  rw [hc]
  dsimp only
  rw [h, Bool.and_false]
  rfl

include hst

theorem judgeRule_concerned (h : c.source.concerns e = true) : judgeRule e s k =
    if c.source.matches e && (!c.edge || !s.rules[k].matching) then fire k c e (s.judged k (c.source.matches e))
    else s.judged k (c.source.matches e) := by
  unfold judgeRule
  rw [hc]
  dsimp only
  rw [h, decide_eq_true hst]
  rfl

theorem judgeRule_held (h : c.source.concerns e = true)
    (hfires : (c.source.matches e && (!c.edge || !s.rules[k].matching)) = false) :
    judgeRule e s k = s.judged k (c.source.matches e) := by
  rw [judgeRule_concerned hst hc h, hfires]
  rfl

/-- R165. A rule that fires acts, and counts the action if it is refused. -/
theorem judgeRule_fires (h : c.source.concerns e = true)
    (hfires : (c.source.matches e && (!c.edge || !s.rules[k].matching)) = true) : judgeRule e s k =
      if c.action.refusedIn s then
        (act k c.action (s.firing k c e)).1.modifyRule k (fun r => { r with refusals := satIncByte r.refusals })
      else (act k c.action (s.firing k c e)).1 := by
  have hmatches := (Bool.and_eq_true_iff.1 hfires).1
  rw [judgeRule_concerned hst hc h, if_pos hfires, hmatches, fire_eq, noteFired_judged, act_refused]
  rfl

end

/-- R164, R165. What rule `k` becomes as it fires. -/
def LinkRule.fires (r : LinkRule) (now : Clock) (refused : Bool) : LinkRule :=
  { r with matching := true, lastFired := now, fired := satInc r.fired
           refusals := if refused then satIncByte r.refusals else r.refusals }

section
variable {s : State} {k : Fin 16} {c : RuleCopy} {e : RuleEvent} (hst : s.rules[k].state = .armed)
  (hc : s.rules[k].copy = some c) (h : c.source.concerns e = true)
  (hfires : (c.source.matches e && (!c.edge || !s.rules[k].matching)) = true)
include hst hc h hfires

theorem judgeRule_fires_rules :
    (judgeRule e s k).rules = modifyAt s.rules k (fun r => r.fires s.clock (c.action.refusedIn s)) := by
  have hacted : (act k c.action (s.firing k c e)).1.rules = (s.firing k c e).rules := by simp
  rw [judgeRule_fires hst hc h hfires]
  cases c.action.refusedIn s with
  | true =>
    rw [if_pos rfl, modifyRule_rules, hacted, State.firing, modifyAt_modifyAt]
    rfl
  | false =>
    rw [if_neg Bool.false_ne_true, hacted]
    rfl

/-- R165. All that the firing changes but the rule is its action's. -/
theorem judgeRule_fires_acts : (judgeRule e s k).journal = (act k c.action (s.firing k c e)).1.journal
    ∧ (judgeRule e s k).outputs = (act k c.action (s.firing k c e)).1.outputs
    ∧ (judgeRule e s k).take = (act k c.action (s.firing k c e)).1.take
    ∧ (judgeRule e s k).table = (act k c.action (s.firing k c e)).1.table := by
  rw [judgeRule_fires hst hc h hfires]
  split
  · exact ⟨rfl, rfl, rfl, rfl⟩
  · exact ⟨rfl, rfl, rfl, rfl⟩

/-- R165. The firing is claimed before what its action claims. -/
theorem judgeRule_fires_claims : ∃ acted, (judgeRule e s k).journal.claims
    = s.journal.claims ++ (if c.journal then [ruleFired k c e s.clock] else []) ++ acted := by
  obtain ⟨acted, hacted⟩ := (act_enacted k c.action (s.firing k c e)).claims
  rw [(judgeRule_fires_acts hst hc h hfires).1]
  exact ⟨acted, hacted.symm⟩

end

/-- What a rule's judgement can do, by the rule and the event. -/
theorem judgeRule_cases (e : RuleEvent) (s : State) (k : Fin 16) : judgeRule e s k = s
    ∨ ∃ c, s.rules[k].state = .armed ∧ s.rules[k].copy = some c ∧ c.source.concerns e = true
      ∧ (judgeRule e s k = s.judged k (c.source.matches e)
        ∨ (c.source.matches e && (!c.edge || !s.rules[k].matching)) = true) := by
  cases hc : s.rules[k].copy with
  | none => exact .inl (judgeRule_unarmed (.inr hc))
  | some c =>
    by_cases hst : s.rules[k].state = .armed
    · cases h : c.source.concerns e with
      | false => exact .inl (judgeRule_aloof hc h)
      | true =>
        refine .inr ⟨c, hst, rfl, h, ?_⟩
        cases hfires : c.source.matches e && (!c.edge || !s.rules[k].matching) with
        | false => exact .inl (judgeRule_held hst hc h hfires)
        | true => exact .inr rfl
    · exact .inl (judgeRule_unarmed (.inl hst))

theorem judgeRule_others {e : RuleEvent} {s : State} {k j : Fin 16} (hj : j ≠ k) : (judgeRule e s k).rules[j] = s.rules[j] := by
  obtain hsame | ⟨c, hst, hc, h, hheld | hfires⟩ := judgeRule_cases e s k
  · rw [hsame]
  · rw [hheld]
    exact modifyAt_rules_ne _ _ hj
  · rw [judgeRule_fires_rules hst hc h hfires]
    exact modifyAt_rules_ne _ _ hj

theorem judgeRule_enacted (e : RuleEvent) (s : State) (k : Fin 16) : Enacted s (judgeRule e s k) := by
  obtain hsame | ⟨c, hst, hc, h, hheld | hfires⟩ := judgeRule_cases e s k
  · rw [hsame]
    exact .refl s
  · rw [hheld]
    exact (Enacted.refl s).of_same rfl rfl
  · obtain ⟨hjournal, -, -, htable⟩ := judgeRule_fires_acts hst hc h hfires
    have hnoted : Enacted s (s.firing k c e) := ⟨⟨_, rfl⟩, rfl⟩
    exact (hnoted.trans (act_enacted ..)).of_same (congrArg Journal.claims hjournal) htable

/-! ## The rules together -/

section
variable {e : RuleEvent} {l : List (Fin 16)} {s : State} {k : Fin 16}

theorem judgedBy_others (h : k ∉ l) : (l.foldl (judgeRule e) s).rules[k] = s.rules[k] := by
  induction l generalizing s with
  | nil => rfl
  | cons j l ih =>
    rw [List.mem_cons, not_or] at h
    exact (ih h.2).trans (judgeRule_others h.1)

theorem judgedBy_unarmed (h : ∀ j ∈ l, s.rules[j].state ≠ .armed) : l.foldl (judgeRule e) s = s := by
  induction l with
  | nil => rfl
  | cons j l ih =>
    rw [List.foldl_cons, judgeRule_unarmed (.inl (h j List.mem_cons_self))]
    exact ih fun i hi => h i (List.mem_cons_of_mem j hi)

/-- R165. Rule `k` judges the event between the rules before it and those behind it. -/
theorem takeEvent_around (e : RuleEvent) (s : State) (k : Fin 16) : ∃ before after : List (Fin 16), k ∉ before ∧ k ∉ after
    ∧ takeEvent e s = after.foldl (judgeRule e) (judgeRule e (before.foldl (judgeRule e) s) k) := by
  obtain ⟨before, after, hsplit⟩ := List.append_of_mem (List.mem_finRange k)
  have hnodup := List.nodup_finRange 16
  rw [hsplit, List.nodup_middle, List.nodup_cons, List.mem_append, not_or] at hnodup
  refine ⟨before, after, hnodup.1.1, hnodup.1.2, ?_⟩
  rw [takeEvent, hsplit, List.foldl_append, List.foldl_cons]

/-- The rule is as its own judgement leaves it, in a state where it stands as before, and the claims of all rules stand around those
of its own. -/
theorem takeEvent_rule (e : RuleEvent) (s : State) (k : Fin 16) : ∃ u : State, u.rules[k] = s.rules[k] ∧ u.clock = s.clock
    ∧ (takeEvent e s).rules[k] = (judgeRule e u k).rules[k] ∧ s.journal.claims <+: u.journal.claims
    ∧ (judgeRule e u k).journal.claims <+: (takeEvent e s).journal.claims := by
  obtain ⟨before, after, hbefore, hafter, htaken⟩ := takeEvent_around e s k
  refine ⟨before.foldl (judgeRule e) s, judgedBy_others hbefore, ?_, ?_, ?_, ?_⟩
  · exact foldl_keeps State.clock _ (fun u j => by simp) before s
  · rw [htaken, judgedBy_others hafter]
  · exact (Enacted.foldl (fun u j => judgeRule_enacted e u j) before s).claims
  · rw [htaken]
    exact (Enacted.foldl (fun u j => judgeRule_enacted e u j) after _).claims

/-- Where no other rule is ARMED, the judgement is that of the one rule. -/
theorem takeEvent_alone (h : ∀ j : Fin 16, j ≠ k → s.rules[j].state ≠ .armed) : takeEvent e s = judgeRule e s k := by
  obtain ⟨before, after, hbefore, hafter, htaken⟩ := takeEvent_around e s k
  rw [htaken, judgedBy_unarmed (l := before) fun j hj => h j fun heq => hbefore (heq ▸ hj)]
  refine judgedBy_unarmed fun j hj => ?_
  have hne : j ≠ k := fun heq => hafter (heq ▸ hj)
  rw [judgeRule_others hne]
  exact h j hne

end

end Sys2Proof.Machine
end

section
/-! EVENT_OFFER, clause by clause (O49). -/

namespace Sys2Proof.Machine

section
variable {s : State} {k : Fin 16} {c : RuleCopy} {e : RuleEvent} (hst : s.rules[k].state = .armed)
  (hc : s.rules[k].copy = some c) (h : c.source.concerns e = true)
  (hfires : (c.source.matches e && (!c.edge || !s.rules[k].matching)) = true)
include hst hc h hfires

/-- R165. The counts of a rule that fires; whether its refusal count rises depends on what the rules before it have done. -/
theorem takeEvent_fires_rule : (takeEvent e s).rules[k] =
    { s.rules[k] with
      matching := true, lastFired := s.clock
      fired := if s.rules[k].fired = 0xFFFF then 0xFFFF else s.rules[k].fired + 1
      refusals := (takeEvent e s).rules[k].refusals } := by
  obtain ⟨u, hrule, hclock, htaken, -, -⟩ := takeEvent_rule e s k
  rw [htaken, judgeRule_fires_rules (s := u) (hrule ▸ hst) (hrule ▸ hc) h (hrule ▸ hfires), modifyAt_rules_self, hrule, hclock,
    ← satInc_stays]
  rfl

theorem takeEvent_fires_claim (hj : c.journal = true) : ∃ before after,
    (takeEvent e s).journal.claims = s.journal.claims ++ before ++ [ruleFired k c e s.clock] ++ after := by
  obtain ⟨u, hrule, hclock, -, ⟨before, hbefore⟩, ⟨after, hafter⟩⟩ := takeEvent_rule e s k
  obtain ⟨acted, hacted⟩ := judgeRule_fires_claims (s := u) (hrule ▸ hst) (hrule ▸ hc) h (hrule ▸ hfires)
  rw [if_pos hj, hclock, ← hbefore] at hacted
  exact ⟨before, acted ++ after, by rw [← hafter, hacted, List.append_assoc]⟩

variable (halone : ∀ j : Fin 16, j ≠ k → s.rules[j].state ≠ .armed)
include halone

/-- R165. Where no other rule is ARMED, all that the event does is the action of the one rule. -/
theorem takeEvent_acts : (takeEvent e s).journal = (act k c.action (s.firing k c e)).1.journal
    ∧ (takeEvent e s).outputs = (act k c.action (s.firing k c e)).1.outputs
    ∧ (takeEvent e s).take = (act k c.action (s.firing k c e)).1.take := by
  obtain ⟨hjournal, houtputs, htake, -⟩ := judgeRule_fires_acts hst hc h hfires
  rw [takeEvent_alone halone]
  exact ⟨hjournal, houtputs, htake⟩

theorem takeEvent_refusals : (takeEvent e s).rules[k].refusals =
    if c.action.refusedIn s = true ∧ s.rules[k].refusals ≠ 0xFF then s.rules[k].refusals + 1 else s.rules[k].refusals := by
  rw [takeEvent_alone halone, judgeRule_fires_rules hst hc h hfires, modifyAt_rules_self]
  unfold LinkRule.fires satIncByte
  cases c.action.refusedIn s with
  | true => simp
  | false => simp

/-- R160, R161, R165. What the action of the one rule claims. -/
theorem takeEvent_acted : ∃ acted, (takeEvent e s).journal.claims
      = s.journal.claims ++ (if c.journal then [ruleFired k c e s.clock] else []) ++ acted
    ∧ match c.action with
      | .driveOutput n => acted = if s.partState = .running ∧ s.settings.outputs[n].permitted = true
            ∧ s.outputs[n].driven = false then [outputChanged n false (.rule k) s.clock] else []
      | .releaseOutput n => acted = if s.outputs[n].driven then [outputChanged n true (.rule k) s.clock] else []
      | .post n => (s.pubs[n].state.armed = false ∨ s.take.isSome = true) → acted = []
      | .journalOnly => acted = [] := by
  have hclaims := congrArg Journal.claims (takeEvent_acts hst hc h hfires halone).1
  cases hact : c.action with
  | driveOutput n =>
    rw [hact] at hclaims
    exact ⟨_, hclaims.trans act_drive_claims, rfl⟩
  | releaseOutput n =>
    rw [hact] at hclaims
    exact ⟨_, hclaims.trans act_release_claims, rfl⟩
  | post n =>
    obtain ⟨acted, hacted⟩ := (act_enacted k (.post n) (s.firing k c e)).claims
    rw [hact] at hclaims
    refine ⟨acted, hclaims.trans hacted.symm, fun hidle => ?_⟩
    exact List.append_right_eq_self.1 (hacted.trans (act_post_claims (s := s.firing k c e) hidle))
  | journalOnly =>
    rw [hact] at hclaims
    exact ⟨[], hclaims.trans (List.append_nil _).symm, rfl⟩

/-- R161. The output driven by the action of the one rule. -/
theorem takeEvent_drives {n : Fin 4} (hact : c.action = .driveOutput n) (hrun : s.partState = .running)
    (hp : s.settings.outputs[n].permitted = true) :
    (takeEvent e s).outputs[n].driven = true ∧ ∀ m : Fin 4, m ≠ n → (takeEvent e s).outputs[m] = s.outputs[m] := by
  rw [(takeEvent_acts hst hc h hfires halone).2.1, hact]
  exact act_drive_outputs (s := s.firing k c e) hrun hp

/-- R161. The output released by the action of the one rule. -/
theorem takeEvent_releases {n : Fin 4} (hact : c.action = .releaseOutput n) :
    (takeEvent e s).outputs[n].driven = false ∧ ∀ m : Fin 4, m ≠ n → (takeEvent e s).outputs[m] = s.outputs[m] := by
  rw [(takeEvent_acts hst hc h hfires halone).2.1, hact]
  exact act_release_outputs (s := s.firing k c e)

/-- R134, R135. The take begun by the action of the one rule. -/
theorem takeEvent_posts {n : Fin 32} {pc : PubConfig} (hact : c.action = .post n) (harmed : s.pubs[n].state.armed = true)
    (hpc : s.pubs[n].config = some pc) (hsnap : pc.snapshot = false) (htrip : s.postTrip = []) (hother : s.postOther = [])
    (hidle : s.take = none) :
    (takeEvent e s).journal.claims = s.journal.claims ++ (if c.journal then [ruleFired k c e s.clock] else [])
      ∧ (takeEvent e s).take = some { slot := n, poster := .rule k, edition := readWord s.mem (pubBase n + 11)
                                      staged := readStaged s.mem n } := by
  obtain ⟨hjournal, -, htake⟩ := takeEvent_acts hst hc h hfires halone
  rw [hjournal, htake, hact, act_post_begins (s := s.firing k c e) harmed hpc hsnap htrip hother hidle, State.taking, hsnap]
  exact ⟨rfl, rfl⟩

end

/-- R165. A rule that does not fire, by why it does not. -/
theorem takeEvent_idle {s : State} {k : Fin 16} (e : RuleEvent) (h : s.rules[k].state ≠ .armed ∨ s.rules[k].copy = none) :
    (takeEvent e s).rules[k] = s.rules[k] := by
  obtain ⟨u, hrule, -, htaken, -, -⟩ := takeEvent_rule e s k
  rw [htaken, judgeRule_unarmed (hrule ▸ h), hrule]

section
variable {s : State} {k : Fin 16} {c : RuleCopy} {e : RuleEvent}

theorem takeEvent_aloof (hc : s.rules[k].copy = some c) (h : c.source.concerns e = false) :
    (takeEvent e s).rules[k] = s.rules[k] := by
  obtain ⟨u, hrule, -, htaken, -, -⟩ := takeEvent_rule e s k
  rw [htaken, judgeRule_aloof (hrule ▸ hc) h, hrule]

theorem takeEvent_held (hst : s.rules[k].state = .armed) (hc : s.rules[k].copy = some c) (h : c.source.concerns e = true)
    (hheld : (c.source.matches e && (!c.edge || !s.rules[k].matching)) = false) :
    (takeEvent e s).rules[k] = { s.rules[k] with matching := c.source.matches e } := by
  obtain ⟨u, hrule, -, htaken, -, -⟩ := takeEvent_rule e s k
  rw [htaken, judgeRule_held (hrule ▸ hst) (hrule ▸ hc) h (hrule ▸ hheld), State.judged, modifyRule_rules, modifyAt_rules_self,
    hrule]

end

theorem execEventOffer_offered {s : State} {e : RuleEvent} {rest : List RuleEvent} (h : s.events = e :: rest) :
    exec .eventOffer s = .next (takeEvent e { s with events := rest }) := by
  change execEventOffer s = _
  rw [execEventOffer, h]

theorem takeEvent_table (e : RuleEvent) (s : State) : (takeEvent e s).table.map (·.isSome) = s.table.map (·.isSome) :=
  (Enacted.foldl (fun u j => judgeRule_enacted e u j) (List.finRange 16) s).table

/-- Settles O49: `concerns_iff` and `matches_iff` say which events concern and match a source; a rule judges as `judgeRule_cases` says,
and what the other rules leave to it is `takeEvent_rule`. -/
theorem eventsAreJudgedByTheRules : Obligations.EventsAreJudgedByTheRules := by
  refine ⟨fun src e => ⟨concerns_iff src e, matches_iff⟩, fun s e rest hevents => ?_⟩
  refine ⟨_, execEventOffer_offered hevents, by simp, by simp, takeEvent_table e _, by simp, by simp, by simp, fun k => ?_⟩
  refine ⟨takeEvent_idle (s := { s with events := rest }) e, fun c hst hc => ⟨?_, ?_, fun h hfires => ?_⟩⟩
  · exact takeEvent_aloof (s := { s with events := rest }) hc
  · exact takeEvent_held (s := { s with events := rest }) hst hc
  refine ⟨?_, ruleFired k c e s.clock, rfl, ?_, fun halone => ⟨?_, ?_, fun n => ?_, fun n => ?_, fun n pc => ?_⟩⟩
  · exact takeEvent_fires_rule (s := { s with events := rest }) hst hc h hfires
  · exact takeEvent_fires_claim (s := { s with events := rest }) hst hc h hfires
  · exact takeEvent_acted (s := { s with events := rest }) hst hc h hfires halone
  · exact takeEvent_refusals (s := { s with events := rest }) hst hc h hfires halone
  · exact takeEvent_drives (s := { s with events := rest }) hst hc h hfires halone
  · exact takeEvent_releases (s := { s with events := rest }) hst hc h hfires halone
  · exact takeEvent_posts (s := { s with events := rest }) hst hc h hfires halone

end Sys2Proof.Machine
end

section
/-! The outputs that are driven (R160, R161): no operation but those of the Contact and Output Unit and of the controller has a part in
them. -/

namespace Sys2Proof.Machine

/-! ## What the safety of the outputs is about -/

/-- What `OutputsSafe` reads of a state. -/
def State.driving (s : State) : PartState × Settings × Vector TripOutput 4 := (s.partState, s.settings, s.outputs)

/-- A state that shows its outputs, its settings and its part state as a safe one does is safe. -/
theorem OutputsSafe.of_same {s t : State} (h : OutputsSafe s) (same : t.driving = s.driving := by simp [State.driving]) :
    OutputsSafe t := by
  simp only [State.driving, Prod.mk.injEq] at same
  obtain ⟨hpart, hset, houts⟩ := same
  unfold OutputsSafe at h ⊢
  simpa only [hpart, hset, houts] using h

/-- Outside RUNNING a safe state has no output driven. -/
theorem OutputsSafe.released {s : State} (h : OutputsSafe s) (hr : s.partState ≠ .running) (n : Fin 4) :
    s.outputs[n].driven = false :=
  Bool.eq_false_iff.2 fun hd => hr (h n hd).1

theorem outputsSafe_of_released {s : State} (h : ∀ n : Fin 4, s.outputs[n].driven = false) : OutputsSafe s :=
  fun n hd => absurd ((h n).symm.trans hd) Bool.false_ne_true

theorem asEngineClaim_driving (f : State → State) (s : State) : (asEngineClaim f s).driving = (f s).driving := rfl

theorem modifyRule_driving (k : Fin 16) (f : LinkRule → LinkRule) (s : State) : (s.modifyRule k f).driving = s.driving := rfl

/-! ## Ports and lanes -/

theorem laneSent_driving (l : Lane) (s : State) : (laneSent l s).driving = s.driving := by
  unfold laneSent
  split <;> simp [State.driving]

theorem baySent_driving (p : Fin 4) (s : State) : (baySent p s).driving = s.driving := by
  unfold baySent
  split <;> rfl

theorem receiveLane_driving (l : Lane) (f : List Byte) (s : State) : (receiveLane l f s).driving = s.driving := by
  unfold receiveLane classifyLane joinLane bareFromLane
  dsimp only
  (repeat' split) <;> simp [State.driving]

theorem receiveBay_driving (p : Fin 4) (f : List Byte) (s : State) : (receiveBay p f s).driving = s.driving := by
  unfold receiveBay classifyBay joinBay bareFromBay
  dsimp only
  (repeat' split) <;> simp [State.driving]

theorem releaseLane_driving (l : Lane) (c : LaneCause) (s : State) : (releaseLane l c s).driving = s.driving := by
  unfold releaseLane
  split <;> simp [State.driving]

theorem holdLane_driving (l : Lane) (s : State) : (holdLane l s).driving = s.driving := by
  unfold holdLane
  split <;> simp [State.driving]

theorem releaseAtStart_driving (s : State) : (releaseAtStart s).driving = s.driving := by
  have entered (l : Lane) (u : State) : (enterAtStart l u).driving = u.driving := by simp [State.driving, enterAtStart]
  have both := (entered .b (enterAtStart .a s)).trans (entered .a s)
  rw [releaseAtStart_eq]
  generalize enterAtStart .b (enterAtStart .a s) = t at both ⊢
  exact both

theorem takeLone_driving (rise : Bool) (s : State) : (takeLone rise s).driving = s.driving := by
  unfold takeLone applyLone
  dsimp only
  (repeat' split) <;> simp [State.driving]

theorem provingExpired_driving (l : Lane) (s : State) : (provingExpired l s).driving = s.driving := by
  unfold provingExpired
  (repeat' split) <;> simp [State.driving]

theorem laneUp_driving (l : Lane) (s : State) : (laneUp l s).driving = s.driving := by
  unfold laneUp
  dsimp only
  (repeat' split) <;> simp [State.driving]

theorem laneDown_driving (l : Lane) (cut : Bool) (s : State) : (laneDown l cut s).driving = s.driving := by
  unfold laneDown
  dsimp only
  (repeat' split) <;> simp [State.driving]

theorem bayUp_driving (p : Fin 4) (s : State) : (bayUp p s).driving = s.driving := by
  unfold bayUp
  dsimp only
  split <;> rfl

theorem bayDown_driving (p : Fin 4) (cut : Bool) (s : State) : (bayDown p cut s).driving = s.driving := by
  unfold bayDown
  dsimp only
  (repeat' split) <;> simp [State.driving]

/-! ## Twin Watch -/

theorem watchAsked_driving (i r q : Word) (l : Lane) (t : Clock) (s : State) : (watchAsked i r q l t s).driving = s.driving := by
  unfold watchAsked
  (repeat' split) <;> rfl

theorem twinJudged_driving (i r q : Word) (l : Lane) (t : Clock) (s : State) : (twinJudged i r q l t s).driving = s.driving := by
  unfold twinJudged
  dsimp only
  (repeat' split) <;> rfl

/-! ## Delivery, the stream table and the engine -/

theorem completeDelivery_driving (k : Fin 64) (d : InProgress) (s : State) : (completeDelivery k d s).driving = s.driving := by
  have updates (c : Copy) (dues : List DueView) (u : State) : (updatesAndDelivery k c dues u).driving = u.driving := by
    induction dues generalizing u with
    | nil => rfl
    | cons d rest ih =>
      unfold updatesAndDelivery
      dsimp only
      split
      · exact (ih _).trans rfl
      · rfl
  have after (u : State) : (afterDelivery k u).driving = u.driving := by
    unfold afterDelivery
    dsimp only
    split
    · exact (foldl_keeps State.driving (fun s d => writeView k d s) (fun t d => rfl) _ _).trans rfl
    · exact (updates ..).trans rfl
  have written : (writeDelivery k d s).driving = s.driving := by
    unfold writeDelivery notifyClaim flagClaim
    dsimp only
    (repeat' split) <;> rfl
  have flag (u : State) : (showFlag k u).driving = u.driving := by simp [State.driving]
  have outcomes (os : List SlotOutcome) (u : State) : (os.foldl (fun s o => applyOutcome k o s) u).driving = u.driving :=
    foldl_keeps State.driving _ (fun t o => by simp [State.driving]) os u
  unfold completeDelivery
  dsimp only
  split
  · exact (after _).trans ((outcomes ..).trans written)
  · exact (flag _).trans ((after _).trans ((outcomes ..).trans written))

theorem takeSubscription_driving (k : Fin 64) (s : State) : (takeSubscription k s).driving = s.driving := by
  have arm (u : State) : (armSlot k u).driving = u.driving := by
    unfold armSlot attach
    dsimp only
    (repeat' split) <;> simp [State.driving]
  have off (u : State) : (detach k u).driving = u.driving := by
    unfold detach
    split <;> simp [State.driving]
  have claimed (u : State) : (subscriptionClaim k u).driving = u.driving := by
    unfold subscriptionClaim
    dsimp only
    repeat' split
    · rw [arm, off]
    · rfl
    · rw [← off u]; simp [State.driving]
    · rw [← off u]; simp [State.driving]
  have settled : (settleAgeing s).driving = s.driving := by simp [State.driving]
  exact (claimed _).trans settled

theorem expireFreshness_driving (i : Word) (s : State) : (expireFreshness i s).driving = s.driving := by
  have stale (p : Fin 512) (e : Entry) (t : Clock) (q m : Word) : (goStale p e t q m s).driving = s.driving := by
    unfold goStale
    dsimp only
    (repeat' split) <;> simp [State.driving]
  unfold expireFreshness
  repeat' split
  · exact stale ..
  all_goals rfl

theorem applyMiss_driving (i r : Word) (l : Lane) (c : Word) (s : State) : (applyMiss i r l c s).driving = s.driving := by
  unfold applyMiss
  dsimp only
  (repeat' split) <;> simp [State.driving]

theorem applyCredit_driving (i r : Word) (l : Lane) (s : State) : (applyCredit i r l s).driving = s.driving := by
  unfold applyCredit
  dsimp only
  (repeat' split) <;> simp [State.driving]

theorem noticeLane_driving (l : Lane) (s : State) : (noticeLane l s).driving = s.driving := by
  unfold noticeLane
  dsimp only
  refine (foldl_keeps State.driving _ (fun u k => ?_) _ _).trans rfl
  split <;> simp [State.driving]

theorem arrivalTaken_driving (s : State) : (arrivalTaken s).driving = s.driving := by
  have judged (a : Arrival) (u : State) : (judgeArrival a u).driving = u.driving := by
    have taken : (asEngineClaim (takeArrival a) u).driving = u.driving := by simp [State.driving]
    unfold judgeArrival
    dsimp only
    split
    · exact (expireFreshness_driving ..).trans taken
    · exact taken
  have popped (p : Port) (u : State) : (popArrival p u).driving = u.driving := by
    unfold popArrival
    split <;> simp [State.driving]
  unfold arrivalTaken
  (repeat' split) <;> simp only [judged, popped]

/-! ## The scheduler -/

theorem takeCompletes_driving (t : Take) (s : State) : (takeCompletes t s).driving = s.driving := by
  simp [State.driving, takeCompletes]

theorem watchedWrite_driving (k : Fin 32) (o : Nat) (s : State) : (watchedWrite k o s).driving = s.driving := by
  unfold watchedWrite collideAndPost abandonByCollision
  dsimp only
  (repeat' split) <;> simp [State.driving]

theorem takePublication_driving (k : Fin 32) (s : State) : (takePublication k s).driving = s.driving := by
  have dropped (u : State) : (dropIfArmed k u).driving = u.driving := by
    unfold dropIfArmed dropPub
    split <;> simp [State.driving]
  have refused (r : Reason) (d : Word) (u : State) : (refusePub k r d u).driving = u.driving := by
    simp [State.driving, refusePub]
  have made {c : PubConfig} {epoch : Byte} {u v : State} (h : makeHostEntry k c epoch u = some v) : v.driving = u.driving := by
    unfold makeHostEntry at h
    dsimp only at h
    split at h
    · cases h
    · split at h <;> cases h
      simp [State.driving]
  have shown (f : PubSlot → PubSlot) (u : State) : (updatePub k f u).driving = u.driving := rfl
  have armed (u : State) : (armPub k u).driving = u.driving := by
    unfold armPub
    dsimp only
    repeat' split
    · exact refused ..
    · next h => rw [shown, made h]
    · exact refused ..
  have claimed (u : State) : (publicationClaim k u).driving = u.driving := by
    unfold publicationClaim
    dsimp only
    repeat' split
    · rw [armed, dropped]
    · rfl
    · exact dropped u
    · rw [refused, dropped]
  have settled : (settleAgeing s).driving = s.driving := by simp [State.driving]
  have takes (u : State) : (runTakes u).driving = u.driving := by simp [State.driving]
  exact (takes _).trans ((claimed _).trans settled)

theorem sendDue_driving (e : CalendarEntry) (r : List CalendarEntry) (s : State) : (sendDue e r s).driving = s.driving := by
  unfold sendDue
  split <;> simp [State.driving]

theorem expirePub_driving (k : Fin 32) (t : Clock) (s : State) : (expirePub k t s).driving = s.driving := by
  simp [State.driving, expirePub]

/-! ## Contact inputs and rules -/

theorem updateContacts_driving (f : State → State) (s : State) (h : (f s).driving = s.driving) :
    (updateContacts f s).driving = s.driving := by
  unfold updateContacts
  dsimp only
  split <;> exact h

theorem beginFiltering_driving (s : State) : (beginFiltering s).driving = s.driving := updateContacts_driving _ s rfl

theorem announceChange_driving (n : Fin 8) (o : Option Bool) (l : Bool) (t : Clock) (s : State) :
    (announceChange n o l t s).driving = s.driving := by
  unfold announceChange
  dsimp only
  split <;> simp [State.driving]

theorem rawChange_driving (n : Fin 8) (s : State) : (rawChange n s).driving = s.driving := by
  unfold rawChange
  dsimp only
  split
  · exact updateContacts_driving _ { s with pins := _ } rfl
  · rfl

theorem filterExpired_driving (n : Fin 8) (s : State) : (filterExpired n s).driving = s.driving := by
  have updated (f : ContactInput → ContactInput) : (updateContacts (·.modifyInput n f) s).driving = s.driving :=
    updateContacts_driving _ s rfl
  unfold filterExpired firstSettle blockInput acceptChange
  dsimp only
  repeat' split
  · exact updated _
  · exact updated _
  · rw [announceChange_driving, updated]
  all_goals rfl

theorem unblockInput_driving (n : Fin 8) (s : State) : (unblockInput n s).driving = s.driving := by
  have updated (f : ContactInput → ContactInput) : (updateContacts (·.modifyInput n f) s).driving = s.driving :=
    updateContacts_driving _ s rfl
  unfold unblockInput
  dsimp only
  split
  · rw [announceChange_driving]; exact updated _
  · exact updated _

theorem blockRunOut_driving (n : Fin 8) (s : State) : (blockRunOut n s).driving = s.driving := by
  unfold blockRunOut
  dsimp only
  repeat' split
  · exact unblockInput_driving n s
  all_goals rfl

theorem unblockWaiting_driving (n : Fin 8) (s : State) : (unblockWaiting n s).driving = s.driving := by
  unfold unblockWaiting
  split
  · exact unblockInput_driving n s
  · rfl

theorem ruleClaim_driving (k : Fin 16) (s : State) : (ruleClaim k s).driving = s.driving := by
  unfold ruleClaim refuseRule
  dsimp only
  (repeat' split) <;> rfl

/-! ## The commands that have no part in the outputs -/

/-- The outputs, the settings and the part state are what a host write, a reset, the end of INITIALISING or of a command, an event at the
rules, or a pulse timer may change. -/
def hasPartInOutputs (c : Instr) : Bool :=
  (hostWriteOf c).isSome || match c with
    | .hardwareReset | .initialisingComplete | .commandCompletion | .eventOffer | .pulseExpiry _ => true
    | _ => false

theorem exec_keeps_driving {c : Instr} (s : State) (hc : hasPartInOutputs c = false) :
    Leads (fun t => t.driving = s.driving) (exec c s) := by
  cases c with
  | hostWrite | start | apply | clearCounts | softReset | laneHold | laneRelease | outputDrive | outputRelease
  | unknownCommand | journalTakenWrite | subscriptionArm | publicationArm | linkRuleArm | editionWrite
  | hardwareReset | initialisingComplete | commandCompletion | eventOffer | pulseExpiry => cases hc
  | takeComplete =>
    simp only [exec, execTakeComplete]
    split
    · exact leads_next.2 (takeCompletes_driving ..)
    · exact leads_next.2 rfl
  | calendarSend =>
    simp only [exec, execCalendarSend]
    repeat' split
    · exact leads_next.2 (sendDue_driving ..)
    all_goals exact leads_next.2 rfl
  | refreshExpiry k =>
    simp only [exec, execRefreshExpiry]
    repeat' split
    · exact leads_next.2 (expirePub_driving ..)
    all_goals exact leads_next.2 rfl
  | clockGroupUpdate =>
    simp only [exec, execClockGroupUpdate]
    split <;> exact leads_next.2 rfl
  | secondsTick =>
    simp only [exec, execSecondsTick]
    split <;> exact leads_next.2 rfl
  | ageingExpiry p => exact leads_next.2 (by simp [State.driving])
  | laneFrameReceived l f => exact leads_next.2 (receiveLane_driving ..)
  | bayFrameReceived p f => exact leads_next.2 (receiveBay_driving ..)
  | laneLinkUp l => exact leads_next.2 (laneUp_driving ..)
  | laneLinkDown l cut => exact leads_next.2 (laneDown_driving ..)
  | bayLinkUp p => exact leads_next.2 (bayUp_driving ..)
  | bayLinkDown p cut => exact leads_next.2 (bayDown_driving ..)
  | laneTransmitEnd l => exact leads_next.2 (laneSent_driving ..)
  | bayTransmitEnd p => exact leads_next.2 (baySent_driving ..)
  | arrivalTaken => exact leads_next.2 (arrivalTaken_driving s)
  | deliveryComplete k =>
    simp only [exec, execDeliveryComplete]
    split
    · exact leads_next.2 (completeDelivery_driving ..)
    · exact leads_next.2 rfl
  | watchRequest =>
    simp only [exec, execWatchRequest]
    split
    · exact leads_next.2 (watchAsked_driving _ _ _ _ _ { s with twinClaims := _ })
    · exact leads_next.2 rfl
  | twinTaken =>
    simp only [exec, execTwinTaken]
    split
    · exact leads_next.2 (twinJudged_driving _ _ _ _ _ { s with twinClaims := _ })
    · exact leads_next.2 rfl
  | abandon =>
    simp only [exec, execAbandon]
    split <;> exact leads_next.2 rfl
  | laneCleanup =>
    simp only [exec, execLaneCleanup]
    split <;> exact leads_next.2 rfl
  | watchExpiry =>
    simp only [exec, execWatchExpiry]
    (repeat' split) <;> exact leads_next.2 rfl
  | missReport =>
    simp only [exec, execMissReport]
    repeat' split
    · exact leads_next.2 (applyMiss_driving _ _ _ _ { s with reports := _ })
    all_goals exact leads_next.2 rfl
  | creditReport =>
    simp only [exec, execCreditReport]
    repeat' split
    · exact leads_next.2 (applyCredit_driving _ _ _ { s with reports := _ })
    all_goals exact leads_next.2 rfl
  | laneNotice =>
    simp only [exec, execLaneNotice]
    repeat' split
    · next l rest _ _ => exact leads_next.2 ((asEngineClaim_driving ..).trans (noticeLane_driving l { s with laneNotices := rest }))
    all_goals exact leads_next.2 rfl
  | loneCountRise => exact leads_next.2 (takeLone_driving ..)
  | loneCountFall => exact leads_next.2 (takeLone_driving ..)
  | provingTimerExpiry l => exact leads_next.2 (provingExpired_driving ..)
  | freshnessExpiry id => exact leads_next.2 (expireFreshness_driving ..)
  | rawChange n => exact leads_next.2 (rawChange_driving ..)
  | filterTimerExpiry n => exact leads_next.2 (filterExpired_driving ..)
  | blockCountExpiry n => exact leads_next.2 (blockRunOut_driving ..)
  | unblock n => exact leads_next.2 (unblockWaiting_driving ..)
  | journalClaim =>
    simp only [exec, execJournalClaim]
    split <;> exact leads_next.2 rfl
  | intPulseEnd =>
    simp only [exec, execIntPulseEnd]
    (repeat' split) <;> exact leads_next.2 rfl

end Sys2Proof.Machine
end

section
/-! The outputs stay safe over the operations that drive and release them, and so over a step (R160, R161). -/

namespace Sys2Proof.Machine

/-! ## Outputs driven and released -/

/-- R18, R19. What the part keeps at a reset has no output driven. -/
theorem resetTo_outputsSafe (soft : Bool) (mem : List Host.Cell) (s : State) : OutputsSafe (resetTo soft mem s) :=
  reset_outputsSafe

theorem foldl_outputsSafe {α : Type} {f : State → α → State} (hf : ∀ s x, OutputsSafe s → OutputsSafe (f s x)) (l : List α)
    {s : State} (h : OutputsSafe s) : OutputsSafe (l.foldl f s) :=
  List.foldlRecOn l f h fun s hs x _ => hf s x hs

section
variable {s : State} (h : OutputsSafe s)
include h

/-- A change of one output keeps the outputs safe, if the one it leaves driven may be. -/
theorem OutputsSafe.modify {t : State} (n : Fin 4) {f : TripOutput → TripOutput} (hpart : t.partState = s.partState)
    (hset : t.settings = s.settings) (houts : t.outputs = modifyAt s.outputs n f)
    (hf : (f s.outputs[n]).driven = true → s.partState = .running ∧ s.settings.outputs[n].permitted = true) : OutputsSafe t := by
  intro m hd
  rw [houts] at hd
  rw [hpart, hset]
  by_cases hm : m = n
  · subst hm
    rw [modifyAt_outputs_self] at hd
    exact hf hd
  · rw [modifyAt_outputs_ne _ _ hm] at hd
    exact h m hd

/-- R161. A DRIVE is of an output that is permitted, and acted on in RUNNING alone. -/
theorem driveOutput_safe {n : Fin 4} (hp : s.settings.outputs[n].permitted = true) (cause : OutputCause) :
    OutputsSafe (driveOutput n cause s) := by
  by_cases hr : s.partState = .running
  · obtain ⟨e, he⟩ := driveOutput_eq n cause hr
    rw [he]
    exact h.modify n rfl rfl rfl fun _ => ⟨hr, hp⟩
  · rw [driveOutput_off n cause hr]
    exact h

theorem releaseOutput_safe (n : Fin 4) (cause : OutputCause) : OutputsSafe (releaseOutput n cause s) := by
  cases hd : s.outputs[n].driven with
  | true =>
    obtain ⟨e, he⟩ := releaseOutput_driven n cause hd
    rw [he]
    exact h.modify n rfl rfl rfl nofun
  | false =>
    rw [releaseOutput_released n cause hd]
    exact h

theorem pulseExpired_safe (n : Fin 4) : OutputsSafe (pulseExpired n s) := by
  unfold pulseExpired
  repeat' split
  · exact releaseOutput_safe h _ _
  all_goals exact h

/-- R161. An output that stays driven under new settings is permitted by them. -/
theorem putInForce_safe (new : Settings) : OutputsSafe (putInForce new s) := by
  obtain ⟨e, he⟩ := putInForce_eq new s
  rw [he]
  intro n hd
  dsimp only at hd ⊢
  rw [build_fin, follow_driven, Bool.and_eq_true] at hd
  obtain ⟨hdriven, hpermitted⟩ := hd
  exact ⟨(h n hdriven).1, hpermitted⟩

/-! ## The rules -/

theorem act_outputsSafe (k : Fin 16) (a : Action) : OutputsSafe (act k a s).1 := by
  unfold act
  repeat' split
  · next hp => exact driveOutput_safe h hp _
  · exact h
  · exact releaseOutput_safe h _ _
  · exact h.of_same
  · exact h
  · exact h

theorem fire_outputsSafe (k : Fin 16) (c : RuleCopy) (e : RuleEvent) : OutputsSafe (fire k c e s) := by
  have noted : (s.noteFired k c e).driving = s.driving := by
    unfold State.noteFired
    split <;> rfl
  have acted := act_outputsSafe (h.of_same noted) k c.action
  rw [fire_eq]
  split
  · exact acted.of_same rfl
  · exact acted

theorem takeEvent_outputsSafe (e : RuleEvent) : OutputsSafe (takeEvent e s) := by
  refine foldl_outputsSafe (fun u k hu => ?_) _ h
  unfold judgeRule
  dsimp only
  repeat' split
  · exact fire_outputsSafe (hu.of_same (modifyRule_driving ..)) _ _ _
  · exact hu.of_same (modifyRule_driving ..)
  · exact hu
  · exact hu

/-! ## START and the other commands -/

theorem takeArm_outputsSafe (w : ArmWord) : OutputsSafe (takeArm w s) := by
  cases w with
  | subscription k => exact h.of_same (takeSubscription_driving k s)
  | publication k => exact h.of_same (takePublication_driving k s)
  | rule k => exact h.of_same (ruleClaim_driving k s)

theorem doPiece_outputsSafe (p : StartPiece) (left : List StartPiece) (read : List Host.Cell) (w : Working) :
    OutputsSafe (doPiece p left read w s) := by
  have goOn (w : Option Working) : OutputsSafe { s with working := w } := h
  cases p with
  | read a => exact goOn _
  | settings =>
    simp only [doPiece]
    split
    · exact goOn _
    · exact putInForce_safe (goOn (some { w with finish := .starting left read })) (readSettings read)
  | visit arm => exact takeArm_outputsSafe (goOn (some { w with finish := .starting left read })) arm
  | lanes =>
    exact (goOn (some { w with finish := .starting left read })).of_same
      ((beginFiltering_driving _).trans (releaseAtStart_driving _))
  | started => exact h

theorem work_outputsSafe (n : Nat) : OutputsSafe (work n s) := by
  have once {u : State} (hu : OutputsSafe u) : OutputsSafe (workOnce u) := by
    unfold workOnce
    repeat' split
    · exact doPiece_outputsSafe hu _ _ _ _
    all_goals exact hu
  induction n generalizing s with
  | zero => exact h
  | succ n ih => exact ih (once h)

theorem goOnStarting_outputsSafe : OutputsSafe (goOnStarting s) := by
  unfold goOnStarting
  split
  · exact work_outputsSafe (s := { s with free := s.free + 1 }) h _
  · exact h

/-- A command refused, or one that does what keeps the outputs safe. -/
theorem inRunning_outputsSafe (e : Word) {run : State → State} (hr : OutputsSafe (run s)) : OutputsSafe (inRunning e s run) := by
  unfold inRunning
  split
  · exact hr
  · exact h

theorem laneCommand_outputsSafe (e : Word) {run : Lane → State → State} (hr : ∀ l, (run l s).driving = s.driving) :
    OutputsSafe (laneCommand e run s) := by
  refine inRunning_outputsSafe h e ?_
  split
  · exact h.of_same (hr _)
  · exact h

theorem takeCommand_outputsSafe (v : Word) : OutputsSafe (takeCommand v s) := by
  unfold takeCommand
  split
  · unfold commandStart
    split
    · exact goOnStarting_outputsSafe (s := working ..) h
    · exact h
  · refine inRunning_outputsSafe h _ ?_
    split <;> exact h
  · exact h.of_same (by simp [State.driving, commandClearCounts, working, clearNoted, clearGroups])
  · exact resetTo_outputsSafe _ _ _
  · exact laneCommand_outputsSafe h _ (holdLane_driving · s)
  · exact laneCommand_outputsSafe h _ (releaseLane_driving · _ s)
  · refine inRunning_outputsSafe h _ ?_
    repeat' split
    · next hp => exact driveOutput_safe h hp _
    all_goals exact h
  · refine inRunning_outputsSafe h _ ?_
    split
    · exact releaseOutput_safe h _ _
    · exact h
  · exact h

/-- R15, R160. As the part enters RUNNING no output is driven. -/
theorem enterRunning_outputsSafe : OutputsSafe (enterRunning s) :=
  fun n hd => ⟨rfl, (h n hd).2⟩

theorem completeCommand_outputsSafe : OutputsSafe (completeCommand s) := by
  have finished (f : Finish) {u : State} (hu : OutputsSafe u) : OutputsSafe (finishCommand f u) := by
    cases f with
    | nothing => exact hu
    | starting left read => exact foldl_outputsSafe (fun u w hu => takeArm_outputsSafe hu w) _ ((enterRunning_outputsSafe hu).of_same rfl)
    | takeSettings new => exact putInForce_safe hu new
  have worked : OutputsSafe s.workedOut := by
    unfold State.workedOut
    split
    · exact work_outputsSafe h _
    · exact h
  rw [completeCommand_workedOut]
  split
  · exact finished _ worked
  · exact worked

/-- R11. INITIALISING ends with no output driven. -/
theorem enterConfig_outputsSafe (hi : s.partState = .initialising) : OutputsSafe (enterConfig s) := by
  have outs : (enterConfig s).outputs = s.outputs := by
    unfold enterConfig takeLinks
    dsimp only
    rw [foldl_keeps State.outputs _ (fun t p => by simp)]
    simp
  refine outputsSafe_of_released fun n => ?_
  rw [outs]
  exact h.released (by rw [hi]; exact PartState.noConfusion) n

/-! ## Host writes -/

theorem hostWrite_outputsSafe (a : Nat) (v : Word) : OutputsSafe (hostWrite a v s) := by
  have arm (w : ArmWord) {u : State} (hu : OutputsSafe u) : OutputsSafe (armWritten w u) := by
    unfold armWritten
    repeat' split
    · exact takeArm_outputsSafe hu w
    all_goals exact hu
  have write {u : State} (hu : OutputsSafe u) : OutputsSafe (written a v u) := by
    unfold written
    repeat' split
    · exact takeCommand_outputsSafe hu v
    · exact hu
    · exact arm _ hu
    · exact hu.of_same (watchedWrite_driving ..)
    · exact arm _ hu
    · exact hu
    · exact arm _ hu
    · exact hu
    · exact hu
  have refused : OutputsSafe (refuseWrite a v s) := by
    unfold refuseWrite
    dsimp only
    split <;> exact h
  unfold hostWrite
  repeat' split
  · exact h
  · exact write (u := { s with mem := writeWord s.mem a v }) h
  · exact refused
  · exact refused

/-! ## One step -/

theorem exec_outputsSafe (c : Instr) : Leads OutputsSafe (exec c s) := by
  cases hc : hasPartInOutputs c with
  | false => exact fun t ht => h.of_same (exec_keeps_driving s hc t ht)
  | true =>
    cases hw : hostWriteOf c with
    | some w =>
      obtain ⟨a, v⟩ := w
      rw [exec_of_hostWriteOf hw]
      exact leads_next.2 (hostWrite_outputsSafe h a v)
    | none =>
      cases c with
      | hardwareReset => exact leads_next.2 (resetTo_outputsSafe _ _ _)
      | initialisingComplete =>
        simp only [exec, execInitialisingComplete]
        split
        · next hi => exact leads_next.2 (enterConfig_outputsSafe h hi)
        · exact leads_next.2 h
      | commandCompletion => exact leads_next.2 (completeCommand_outputsSafe h)
      | eventOffer =>
        simp only [exec, execEventOffer]
        split
        · next e rest _ => exact leads_next.2 (takeEvent_outputsSafe (s := { s with events := rest }) h e)
        · exact leads_next.2 h
      | pulseExpiry n => exact leads_next.2 (pulseExpired_safe h n)
      | _ => simp [hasPartInOutputs, hw] at hc

end

/-- Settles O56: the commands with a part in the outputs drive none but a permitted one in RUNNING, release those that new settings forbid,
and leave RUNNING by a reset alone, which drives none. -/
theorem stepsDriveOnlyPermittedOutputs : Obligations.StepsDriveOnlyPermittedOutputs := by
  intro s t hs h
  unfold step at h
  split at h
  · next c rest _ => exact exec_outputsSafe (s := { s with pending := rest }) hs c t h
  · injection h with h
    rw [← h, tick]
    exact goOnStarting_outputsSafe (s := { s with clock := s.clock + 1 }) hs

end Sys2Proof.Machine
end

section
/-! LINK_RULE_ARM in RUNNING (R162, R163, R166). -/

namespace Sys2Proof.Machine

theorem exec_linkRuleArm {s : State} {k : Fin 16} {v : Word} (hr : s.partState = .running) :
    exec (.linkRuleArm k v) s = .next (ruleClaim k { s with mem := writeWord s.mem (ruleBase k + 11) v }) := by
  have hlive : s.partState ≠ .initialising := by rw [hr]; exact PartState.noConfusion
  rw [exec_of_hostWriteOf rfl, hostWrite_ruleArm k v s hlive, armWritten_running _ { s with mem := writeWord s.mem _ v } hr]
  rfl

/-- R162. An arm word of 0 disarms, and clears the reason of a refused rule (log entry 40). -/
theorem ruleClaim_disarms {k : Fin 16} {s : State} (h : readWord s.mem (ruleBase k + 11) = 0) (hd : s.rules[k].state ≠ .disarmed) :
    ruleClaim k s = { s with
      rules := modifyAt s.rules k (fun r => { r with state := .disarmed, reason := .none, copy := none }) } := by
  have hne : readWord s.mem (ruleBase k + 11) ≠ 1 := by rw [h]; decide
  rw [ruleClaim, if_neg hne, if_pos h, if_neg hd]
  rfl

/-- Settles O20: the arm word is stored, and the claim on the rule goes by the value that then stands there. -/
theorem linkRuleArmOutcomes : Obligations.LinkRuleArmOutcomes := by
  refine ⟨fun m k => ⟨badRule_first m k, readRule_held m k⟩, fun s k v m hwf hm hr => ?_⟩
  subst hm
  have reads : readWord (writeWord s.mem (ruleBase k + 11) v) (ruleBase k + 11) = v := readWord_writeWord_self hwf _ v
  rw [exec_linkRuleArm hr]
  generalize writeWord s.mem (ruleBase k + 11) v = m at reads ⊢
  refine ⟨fun hone hb => ?_, fun hzero hd => ?_, fun hzero hd => ?_, fun reason detail hwhy => ?_⟩
  · exact congrArg _ (ruleClaim_armed (s := { s with mem := m }) (reads.trans hone) hb)
  · exact congrArg _ (ruleClaim_disarms (s := { s with mem := m }) (reads.trans hzero) hd)
  · exact congrArg _ (ruleClaim_idle (s := { s with mem := m }) (reads.trans hzero) hd)
  · have refused : RuleRefused { s with mem := m } k reason detail := by
      simp only [RuleRefused, reads]
      exact hwhy
    exact congrArg _ (ruleClaim_refused refused)

end Sys2Proof.Machine
end

section
/-! The contact inputs: raw changes, the filter timer, and the block of a chattering input (R155 to R159). -/

namespace Sys2Proof.Machine

/-! ## One input -/

theorem modifyAt_inputs_self (v : Vector ContactInput 8) (n : Fin 8) (f : ContactInput → ContactInput) :
    (modifyAt v n f)[n] = f v[n] := modifyAt_get_self v n f

theorem modifyAt_inputs_ne (v : Vector ContactInput 8) {n m : Fin 8} (f : ContactInput → ContactInput) (h : m ≠ n) :
    (modifyAt v n f)[m] = v[m] := modifyAt_get_ne v n m f (Ne.symm h)

/-- A change of one input changes the contact status group alone. -/
theorem updateContacts_input (n : Fin 8) (f : ContactInput → ContactInput) (s : State) :
    ∃ e, updateContacts (·.modifyInput n f) s = { s with inputs := modifyAt s.inputs n f, contactEdition := e } :=
  updateContacts_eq (·.modifyInput n f) s

/-! ## Raw changes (R155 to R157) -/

section
variable {i : ContactInput} {level : Bool} {filter : Word} {now : Clock}

theorem rawChanged_blocked (hb : i.blocked = true) : i.rawChanged level filter now = { i with rawSince := now } := if_pos hb

theorem rawChanged_returned (hb : i.blocked = false) (ha : i.accepted = some level) :
    i.rawChanged level filter now = { i with settling := none, filterEnds := none, rawSince := now } := by
  simp [ContactInput.rawChanged, hb, ha]

theorem rawChanged_settles (hb : i.blocked = false) (ha : i.accepted ≠ some level) :
    i.rawChanged level filter now = i.settle level filter now := by
  unfold ContactInput.rawChanged
  rw [if_neg (by rw [hb]; exact Bool.false_ne_true)]
  cases hacc : i.accepted with
  | none => rfl
  | some old => exact if_neg fun heq => ha (by rw [hacc, heq])

end

/-- R155. A raw change turns the pin's level over; the input takes it once filtering has begun. -/
theorem rawChange_eq (n : Fin 8) (s : State) : ∃ e, rawChange n s = { s with
    pins := { s.pins with raw := s.pins.raw.set n (!s.pins.raw[n]) }, contactEdition := e
    inputs := if s.filtering then
        modifyAt s.inputs n (ContactInput.rawChanged (!s.pins.raw[n]) s.settings.contacts[n].filter s.clock)
      else s.inputs } := by
  obtain ⟨e, he⟩ := updateContacts_input n (ContactInput.rawChanged (!s.pins.raw[n]) s.settings.contacts[n].filter s.clock)
    { s with pins := { s.pins with raw := s.pins.raw.set n (!s.pins.raw[n]) } }
  unfold rawChange
  dsimp only
  by_cases hf : s.filtering = true
  · refine ⟨e, ?_⟩
    rw [if_pos hf, if_pos hf]
    exact he
  · refine ⟨s.contactEdition, ?_⟩
    rw [if_neg hf, if_neg hf]

/-! ## What the unit claims and offers of an input (R156 to R159) -/

/-- R157. The claim of an input's first settle. -/
def contactSettled (n : Fin 8) (level : Bool) (now : Clock) : JournalClaim :=
  { kind := .contactInitial, subject := .contact n, time := now, d1 := levelCode (some level), d2 := 0, d3 := 0 }

/-- R156, R159. The claim of an accepted change. -/
def contactChanged (n : Fin 8) (left : Option Bool) (level : Bool) (time : Clock) : JournalClaim :=
  { kind := .contactChange, subject := .contact n, time := time, d1 := levelCode left, d2 := levelCode (some level), d3 := 0 }

/-- R158. The claim of a block. -/
def contactBlocked (n : Fin 8) (accepted : Option Bool) (count : Nat) (now : Clock) : JournalClaim :=
  { kind := .contactBlocked, subject := .contact n, time := now, d1 := levelCode accepted, d2 := BitVec.ofNat 16 count, d3 := 0 }

/-- R159. The claim of the end of a block. -/
def contactUnblocked (n : Fin 8) (left : Option Bool) (level : Bool) (now : Clock) : JournalClaim :=
  { kind := .contactUnblocked, subject := .contact n, time := now, d1 := levelCode left, d2 := levelCode (some level), d3 := 0 }

/-- R156. An accepted change in RUNNING: journalled if the flag is on, and offered. -/
theorem announceChange_eq (n : Fin 8) (left : Option Bool) (level : Bool) (time : Clock) {s : State} (h : s.partState = .running) :
    announceChange n left level time s = { s with
      journal := { s.journal with claims := s.journal.claims
        ++ if s.settings.contacts[n].journal then [contactChanged n left level time] else [] }
      events := s.events ++ [.contact n level time] } := by
  unfold announceChange
  dsimp only
  cases hj : s.settings.contacts[n].journal with
  | true => exact offer_running (s := claim (contactChanged n left level time) s) h _
  | false =>
    rw [if_neg Bool.false_ne_true, if_neg Bool.false_ne_true, List.append_nil]
    exact offer_running h _

/-! ## The filter timer (R156 to R158) -/

/-- R156. An input that accepts `level`. -/
def ContactInput.accepts (level : Bool) (i : ContactInput) : ContactInput :=
  { i with accepted := some level, settling := none, filterEnds := none, lastChange := i.rawSince }

/-- R158. The change count of an input that has just accepted a change, or been blocked by it. -/
def ContactInput.counting (start : Clock) (count : Nat) (i : ContactInput) : ContactInput :=
  { i with changes := count, windowStart := some start }

/-- R158. An input blocked for `seconds`. -/
def ContactInput.block (seconds : Nat) (i : ContactInput) : ContactInput :=
  { i with blocked := true, waiting := false, settling := none, filterEnds := none, blockCount := seconds }

theorem firstSettle_eq (n : Fin 8) (level : Bool) (s : State) : ∃ e, firstSettle n level s = { s with
    inputs := modifyAt s.inputs n (ContactInput.accepts level), contactEdition := e
    journal := { s.journal with claims := s.journal.claims ++ [contactSettled n level s.clock] } } := by
  obtain ⟨e, he⟩ := updateContacts_input n (ContactInput.accepts level) s
  exact ⟨e, congrArg (claim (contactSettled n level s.clock)) he⟩

theorem acceptChange_eq (n : Fin 8) (level : Bool) (start : Clock) (count : Nat) {s : State} (h : s.partState = .running) :
    ∃ e, acceptChange n level start count s = { s with
      inputs := modifyAt s.inputs n (fun i => (i.accepts level).counting start count), contactEdition := e
      journal := { s.journal with claims := s.journal.claims ++ if s.settings.contacts[n].journal then
        [contactChanged n s.inputs[n].accepted level s.inputs[n].rawSince] else [] }
      events := s.events ++ [.contact n level s.inputs[n].rawSince] } := by
  obtain ⟨e, he⟩ := updateContacts_input n (fun i => (i.accepts level).counting start count) s
  have announced := announceChange_eq n s.inputs[n].accepted level s.inputs[n].rawSince
    (s := { s with inputs := modifyAt s.inputs n (fun i => (i.accepts level).counting start count), contactEdition := e }) h
  exact ⟨e, (congrArg (announceChange n s.inputs[n].accepted level s.inputs[n].rawSince) he).trans announced⟩

theorem blockInput_eq (n : Fin 8) (start : Clock) (count : Nat) (s : State) : ∃ e, blockInput n start count s = { s with
    inputs := modifyAt s.inputs n (fun i => (i.block s.settings.contacts[n].block.toNat).counting start count)
    contactEdition := e
    journal := { s.journal with claims := s.journal.claims ++ [contactBlocked n s.inputs[n].accepted count s.clock] } } := by
  obtain ⟨e, he⟩ := updateContacts_input n (fun i => (i.block s.settings.contacts[n].block.toNat).counting start count) s
  exact ⟨e, congrArg (claim (contactBlocked n s.inputs[n].accepted count s.clock)) he⟩

/-- R158. The window a change at `due` counts in: one begun there, or the one that runs. -/
theorem counted_eq {i : ContactInput} {due start : Clock} {count : Nat}
    (h : (i.windowStart = none ∧ start = due ∧ count = 1)
      ∨ ∃ w, i.windowStart = some w ∧ ((1000000 ≤ (due - w).toNat ∧ start = due ∧ count = 1)
          ∨ ((due - w).toNat < 1000000 ∧ start = w ∧ count = i.changes + 1))) :
    i.counted due = (start, count) := by
  unfold ContactInput.counted
  obtain ⟨hw, rfl, rfl⟩ | ⟨w, hw, ⟨hold, rfl, rfl⟩ | ⟨hyoung, rfl, rfl⟩⟩ := h
  · rw [hw]
  · rw [hw]
    exact if_pos hold
  · rw [hw]
    exact if_neg (Nat.not_le.2 hyoung)

section
variable {s : State} {n : Fin 8} {due : Clock} {level : Bool} (hends : s.inputs[n].filterEnds = some due)
  (hlevel : s.inputs[n].settling = some level) (hdue : reached s.clock due = true)
include hends hlevel hdue

/-- R157. A reached timer of an input with no accepted level. -/
theorem filterExpired_first (ha : s.inputs[n].accepted = none) : filterExpired n s = firstSettle n level s := by
  unfold filterExpired
  dsimp only
  rw [hends, hlevel]
  dsimp only
  rw [if_pos hdue, ha]

/-- R156, R158. A reached timer of an input with an accepted level. -/
theorem filterExpired_judged {old : Bool} (ha : s.inputs[n].accepted = some old) {start : Clock} {count : Nat}
    (hc : s.inputs[n].counted due = (start, count)) : filterExpired n s =
      if s.settings.contacts[n].limit.toNat < count then blockInput n start count s else acceptChange n level start count s := by
  unfold filterExpired
  dsimp only
  rw [hends, hlevel]
  dsimp only
  rw [if_pos hdue, ha]
  dsimp only
  rw [hc]

end

/-- Settles O50: a raw change does to its input what `rawChanged` says, and a first settle is `firstSettle`. -/
theorem rawChangesAreFiltered : Obligations.RawChangesAreFiltered := by
  refine fun s n => ⟨?_, fun due level hends hlevel ha hdue => ?_⟩
  · obtain ⟨e, he⟩ := rawChange_eq n s
    refine ⟨_, congrArg Host.Outcome.next he, rfl, fun m hm => ?_, fun hf => ?_, fun hf hb => ?_, fun hf hb ha => ?_, fun hf hb ha => ?_, rfl⟩
    · dsimp only
      split
      · exact modifyAt_inputs_ne _ _ hm
      · rfl
    all_goals simp only [hf, if_true, Bool.false_eq_true, if_false]
    · exact (modifyAt_inputs_self ..).trans (rawChanged_blocked hb)
    · exact (modifyAt_inputs_self ..).trans (rawChanged_returned hb ha)
    · exact (modifyAt_inputs_self ..).trans (rawChanged_settles hb ha)
  · obtain ⟨e, he⟩ := firstSettle_eq n level s
    exact ⟨_, congrArg Host.Outcome.next ((filterExpired_first hends hlevel hdue ha).trans he), modifyAt_inputs_self ..,
      fun m hm => modifyAt_inputs_ne _ _ hm, rfl, rfl, rfl⟩

/-! ## The end of a block (R159) -/

/-- R159. An input that unblocks at the raw level `level`. -/
def ContactInput.unblock (level : Bool) (i : ContactInput) : ContactInput :=
  { i with blocked := false, waiting := false, changes := 0, windowStart := none, accepted := some level
           lastChange := if i.accepted = some level then i.lastChange else i.rawSince }

theorem modifyAt_congr {α : Type} {n : Nat} (v : Vector α n) (i : Fin n) {f g : α → α} (h : f v[i] = g v[i]) :
    modifyAt v i f = modifyAt v i g := by
  unfold modifyAt
  exact congrArg (fun x => v.set i.val x i.isLt) h

theorem updateContacts_unblock (n : Fin 8) (s : State) : ∃ e,
    updateContacts (·.modifyInput n (fun i =>
      { i with blocked := false, waiting := false, changes := 0, windowStart := none, accepted := some s.pins.raw[n]
               lastChange := if s.inputs[n].accepted ≠ some s.pins.raw[n] then i.rawSince else i.lastChange })) s
      = { s with inputs := modifyAt s.inputs n (ContactInput.unblock s.pins.raw[n]), contactEdition := e } := by
  obtain ⟨e, he⟩ := updateContacts_input n _ s
  refine ⟨e, he.trans ?_⟩
  rw [modifyAt_congr s.inputs n (g := ContactInput.unblock s.pins.raw[n])]
  simp [ContactInput.unblock]

/-- R159. An input unblocks in RUNNING: its claim, and those of a change where the raw level is not the accepted one. -/
theorem unblockInput_eq (n : Fin 8) {s : State} (h : s.partState = .running) : ∃ e, unblockInput n s = { s with
    inputs := modifyAt s.inputs n (ContactInput.unblock s.pins.raw[n]), contactEdition := e
    journal := { s.journal with claims := s.journal.claims
      ++ [contactUnblocked n s.inputs[n].accepted s.pins.raw[n] s.clock]
      ++ if s.inputs[n].accepted ≠ some s.pins.raw[n] ∧ s.settings.contacts[n].journal = true then
          [contactChanged n s.inputs[n].accepted s.pins.raw[n] s.inputs[n].rawSince] else [] }
    events := s.events ++ if s.inputs[n].accepted = some s.pins.raw[n] then []
      else [.contact n s.pins.raw[n] s.inputs[n].rawSince] } := by
  obtain ⟨e, he⟩ := updateContacts_unblock n s
  refine ⟨e, ?_⟩
  unfold unblockInput
  dsimp only
  rw [he]
  by_cases hm : s.inputs[n].accepted = some s.pins.raw[n]
  · rw [if_neg (not_not.2 hm), if_neg (fun hall => hall.1 hm), if_pos hm, List.append_nil, List.append_nil]
    rfl
  · have moved : (s.inputs[n].accepted ≠ some s.pins.raw[n] ∧ s.settings.contacts[n].journal = true)
        = (s.settings.contacts[n].journal = true) := propext (and_iff_right hm)
    rw [if_pos hm, if_neg hm, announceChange_eq]
    · simp only [moved]
      rfl
    · exact h

theorem rawStable_iff {s : State} {n : Fin 8} : rawStable n s = true
    ↔ (halfMillis s.settings.contacts[n].filter).toNat ≤ (s.clock - s.inputs[n].rawSince).toNat := decide_eq_true_iff

section
variable {s : State} {n : Fin 8} (hb : s.inputs[n].blocked = true)
include hb

/-- R159. A block count run out. -/
theorem blockRunOut_eq (hc : s.inputs[n].blockCount = 0) (hw : s.inputs[n].waiting = false) : blockRunOut n s =
    if rawStable n s then unblockInput n s else s.modifyInput n (fun i => { i with waiting := true }) := by
  unfold blockRunOut
  dsimp only
  rw [hb, hc, hw]
  rfl

/-- R159. A waiting input whose raw level is stable. -/
theorem unblockWaiting_eq (hw : s.inputs[n].waiting = true) (hs : rawStable n s = true) : unblockWaiting n s = unblockInput n s := by
  unfold unblockWaiting
  rw [hb, hw, hs]
  rfl

end

/-- Settles O51: a judged change is `acceptChange` or `blockInput` by its count, and a block ends in `unblockInput`. -/
theorem changesAreAcceptedOrBlocked : Obligations.ChangesAreAcceptedOrBlocked := by
  refine ⟨fun s n due start count old level hr hends hlevel ha hdue hwindow => ?_, fun s n hr hb => ⟨fun hc hw hs => ?_, ?_⟩⟩
  · have judged := filterExpired_judged hends hlevel hdue ha (counted_eq hwindow)
    by_cases hlimit : s.settings.contacts[n].limit.toNat < count
    · obtain ⟨e, he⟩ := blockInput_eq n start count s
      rw [if_pos hlimit, he, ha] at judged
      exact ⟨_, congrArg Host.Outcome.next judged, fun m hm => modifyAt_inputs_ne _ _ hm, fun hle => absurd hlimit (Nat.not_lt.2 hle),
        fun _ => ⟨modifyAt_inputs_self .., rfl, rfl⟩, rfl⟩
    · obtain ⟨e, he⟩ := acceptChange_eq n level start count hr
      rw [if_neg hlimit, he, ha] at judged
      exact ⟨_, congrArg Host.Outcome.next judged, fun m hm => modifyAt_inputs_ne _ _ hm, fun _ => ⟨modifyAt_inputs_self .., rfl, rfl⟩,
        fun hlt => absurd hlt hlimit, rfl⟩
  · have unstable : ¬rawStable n s = true := fun hst => Nat.not_le.2 hs (rawStable_iff.1 hst)
    exact congrArg _ ((blockRunOut_eq hb hc hw).trans (if_neg unstable))
  · intro i hi hs
    have stable : rawStable n s = true := rawStable_iff.2 hs
    have ends : exec i s = .next (unblockInput n s) := by
      obtain ⟨rfl, hc, hw⟩ | ⟨rfl, hw⟩ := hi
      · exact congrArg _ ((blockRunOut_eq hb hc hw).trans (if_pos stable))
      · exact congrArg _ (unblockWaiting_eq hb hw stable)
    obtain ⟨e, he⟩ := unblockInput_eq n hr
    exact ⟨_, ends.trans (congrArg _ he), fun m hm => modifyAt_inputs_ne _ _ hm, modifyAt_inputs_self .., rfl, rfl, rfl⟩

end Sys2Proof.Machine
end

section
/-! What the blocks of the part do to the journal: all but the controller and the Journal Writer hand on claims, and change nothing else of
it (R168). -/

namespace Sys2Proof.Machine

/-- R168. The journal but for the claims that wait. -/
def Journal.unclaimed (j : Journal) : Journal := { j with claims := [] }

@[simp] theorem unclaimed_claims (j : Journal) (cs : List JournalClaim) :
    ({ j with claims := cs } : Journal).unclaimed = j.unclaimed := rfl

/-! ## The operations that claim -/

@[simp] theorem laneSentinel_unclaimed (l : Lane) (c : LaneCounter) (g : LaneGroup) (t : Clock) (s : State) :
    (laneSentinel l c g t s).journal.unclaimed = s.journal.unclaimed := by
  unfold laneSentinel
  split <;> rfl

@[simp] theorem countLane_unclaimed (l : Lane) (f : LaneGroup → LaneGroup) (c : LaneCounter) (t : Clock) (s : State) :
    (countLane l f c t s).journal.unclaimed = s.journal.unclaimed := by
  simp [countLane]

@[simp] theorem countBay_unclaimed (p : Fin 4) (f : BayBlock → BayBlock) (c : BayCounter) (t : Clock) (s : State) :
    (countBay p f c t s).journal.unclaimed = s.journal.unclaimed := by
  unfold countBay baySentinel
  split <;> rfl

@[simp] theorem countEngine_unclaimed (k : EngineCounter) (t : Clock) (s : State) :
    (countEngine k t s).journal.unclaimed = s.journal.unclaimed := by
  unfold countEngine
  split <;> rfl

@[simp] theorem outputClaim_unclaimed (n : Fin 4) (d : Bool) (c : OutputCause) (s : State) :
    (outputClaim n d c s).journal.unclaimed = s.journal.unclaimed := rfl

theorem updateContacts_unclaimed (f : State → State) (s : State) :
    (updateContacts f s).journal.unclaimed = (f s).journal.unclaimed := by
  unfold updateContacts
  dsimp only
  split <;> rfl

theorem asEngineClaim_unclaimed (f : State → State) (s : State) :
    (asEngineClaim f s).journal.unclaimed = (f s).journal.unclaimed := rfl

/-! ## Ports and lanes -/

@[simp] theorem offerLane_unclaimed (l : Lane) (r : TxRecord) (s : State) :
    (offerLane l r s).journal.unclaimed = s.journal.unclaimed := by
  unfold offerLane
  (repeat' split) <;> simp

@[simp] theorem offerBay_unclaimed (p : Fin 4) (r : TxRecord) (s : State) :
    (offerBay p r s).journal.unclaimed = s.journal.unclaimed := by
  unfold offerBay
  dsimp only
  (repeat' split) <;> simp

@[simp] theorem offerBays_unclaimed (set : PortSet) (r : TxRecord) (s : State) :
    (offerBays set r s).journal.unclaimed = s.journal.unclaimed := by
  refine foldl_keeps (·.journal.unclaimed) _ (fun t p => ?_) _ _
  split
  · exact offerBay_unclaimed p r t
  · rfl

theorem laneSent_unclaimed (l : Lane) (s : State) : (laneSent l s).journal.unclaimed = s.journal.unclaimed := by
  unfold laneSent
  split <;> simp

theorem baySent_unclaimed (p : Fin 4) (s : State) : (baySent p s).journal.unclaimed = s.journal.unclaimed := by
  unfold baySent
  split <;> rfl

theorem receiveLane_unclaimed (l : Lane) (f : List Byte) (s : State) :
    (receiveLane l f s).journal.unclaimed = s.journal.unclaimed := by
  unfold receiveLane classifyLane joinLane bareFromLane
  dsimp only
  (repeat' split) <;> simp

theorem receiveBay_unclaimed (p : Fin 4) (f : List Byte) (s : State) :
    (receiveBay p f s).journal.unclaimed = s.journal.unclaimed := by
  unfold receiveBay classifyBay joinBay bareFromBay
  dsimp only
  (repeat' split) <;> simp

@[simp] theorem announce_unclaimed (l : Lane) (o n : LaneState) (c : Word) (d : LaneCause) (s : State) :
    (announce l o n c d s).journal.unclaimed = s.journal.unclaimed := by
  simp [announce]

@[simp] theorem moveLane_unclaimed (l : Lane) (n : LaneState) (c : LaneCause) (f : LaneGroup → LaneGroup) (s : State) :
    (moveLane l n c f s).journal.unclaimed = s.journal.unclaimed := by
  have derived (u : State) : (deriveRedundancy l u).journal.unclaimed = u.journal.unclaimed := by
    unfold deriveRedundancy
    dsimp only
    split <;> simp
  simp [moveLane, derived]

theorem releaseLane_unclaimed (l : Lane) (c : LaneCause) (s : State) :
    (releaseLane l c s).journal.unclaimed = s.journal.unclaimed := by
  unfold releaseLane
  split <;> simp

theorem holdLane_unclaimed (l : Lane) (s : State) : (holdLane l s).journal.unclaimed = s.journal.unclaimed := by
  unfold holdLane
  split <;> simp

theorem releaseAtStart_unclaimed (s : State) : (releaseAtStart s).journal.unclaimed = s.journal.unclaimed := by
  have entered (l : Lane) (u : State) : (enterAtStart l u).journal.unclaimed = u.journal.unclaimed := by simp [enterAtStart]
  have both := (entered .b (enterAtStart .a s)).trans (entered .a s)
  rw [releaseAtStart_eq]
  generalize enterAtStart .b (enterAtStart .a s) = t at both ⊢
  exact both

theorem takeLone_unclaimed (rise : Bool) (s : State) : (takeLone rise s).journal.unclaimed = s.journal.unclaimed := by
  unfold takeLone applyLone
  dsimp only
  (repeat' split) <;> simp

theorem provingExpired_unclaimed (l : Lane) (s : State) : (provingExpired l s).journal.unclaimed = s.journal.unclaimed := by
  unfold provingExpired
  (repeat' split) <;> simp

theorem laneUp_unclaimed (l : Lane) (s : State) : (laneUp l s).journal.unclaimed = s.journal.unclaimed := by
  unfold laneUp
  dsimp only
  (repeat' split) <;> simp

theorem laneDown_unclaimed (l : Lane) (cut : Bool) (s : State) : (laneDown l cut s).journal.unclaimed = s.journal.unclaimed := by
  unfold laneDown
  dsimp only
  (repeat' split) <;> simp

theorem bayUp_unclaimed (p : Fin 4) (s : State) : (bayUp p s).journal.unclaimed = s.journal.unclaimed := by
  unfold bayUp
  dsimp only
  split <;> rfl

theorem bayDown_unclaimed (p : Fin 4) (cut : Bool) (s : State) : (bayDown p cut s).journal.unclaimed = s.journal.unclaimed := by
  unfold bayDown
  dsimp only
  (repeat' split) <;> simp

/-! ## Twin Watch -/

theorem watchAsked_unclaimed (i r q : Word) (l : Lane) (t : Clock) (s : State) :
    (watchAsked i r q l t s).journal.unclaimed = s.journal.unclaimed := by
  unfold watchAsked
  (repeat' split) <;> rfl

theorem twinJudged_unclaimed (i r q : Word) (l : Lane) (t : Clock) (s : State) :
    (twinJudged i r q l t s).journal.unclaimed = s.journal.unclaimed := by
  unfold twinJudged
  dsimp only
  (repeat' split) <;> rfl

/-! ## Delivery and the subscription slots -/

@[simp] theorem applyOutcome_unclaimed (k : Fin 64) (o : SlotOutcome) (s : State) :
    (applyOutcome k o s).journal.unclaimed = s.journal.unclaimed := by
  have flagged (m : Option MarkedBy) (b : Bool) (u : State) : (flagClaim k m b u).journal.unclaimed = u.journal.unclaimed := by
    unfold flagClaim
    split <;> rfl
  unfold applyOutcome
  (repeat' split) <;> simp [flagged]

@[simp] theorem giveOutcome_unclaimed (k : Fin 64) (o : SlotOutcome) (s : State) :
    (giveOutcome k o s).journal.unclaimed = s.journal.unclaimed := by
  unfold giveOutcome
  split <;> simp

@[simp] theorem showFlag_unclaimed (k : Fin 64) (s : State) : (showFlag k s).journal.unclaimed = s.journal.unclaimed := by
  unfold showFlag flagClaim
  dsimp only
  (repeat' split) <;> simp

@[simp] theorem deliver_unclaimed (e : Entry) (c : Copy) (s : State) : (deliver e c s).journal.unclaimed = s.journal.unclaimed := by
  unfold deliver handCopy
  dsimp only
  (repeat' split) <;> simp

theorem completeDelivery_unclaimed (k : Fin 64) (d : InProgress) (s : State) :
    (completeDelivery k d s).journal.unclaimed = s.journal.unclaimed := by
  have updates (c : Copy) (dues : List DueView) (u : State) :
      (updatesAndDelivery k c dues u).journal.unclaimed = u.journal.unclaimed := by
    induction dues generalizing u with
    | nil => rfl
    | cons d rest ih =>
      unfold updatesAndDelivery
      dsimp only
      split
      · exact ih _
      · rfl
  have after (u : State) : (afterDelivery k u).journal.unclaimed = u.journal.unclaimed := by
    unfold afterDelivery
    dsimp only
    split
    · exact foldl_keeps (·.journal.unclaimed) (fun s d => writeView k d s) (fun t d => rfl) _ _
    · exact updates ..
  have written : (writeDelivery k d s).journal.unclaimed = s.journal.unclaimed := by
    unfold writeDelivery notifyClaim flagClaim
    dsimp only
    (repeat' split) <;> rfl
  have outcomes (os : List SlotOutcome) (u : State) :
      (os.foldl (fun s o => applyOutcome k o s) u).journal.unclaimed = u.journal.unclaimed :=
    foldl_keeps (·.journal.unclaimed) _ (fun t o => applyOutcome_unclaimed k o t) os u
  unfold completeDelivery
  dsimp only
  split
  · exact (after _).trans ((outcomes ..).trans written)
  · exact (showFlag_unclaimed ..).trans ((after _).trans ((outcomes ..).trans written))

theorem takeSubscription_unclaimed (k : Fin 64) (s : State) : (takeSubscription k s).journal.unclaimed = s.journal.unclaimed := by
  have arm (u : State) : (armSlot k u).journal.unclaimed = u.journal.unclaimed := by
    unfold armSlot attach armDelivery refuseDelivery
    dsimp only
    (repeat' split) <;> simp
  have off (u : State) : (detach k u).journal.unclaimed = u.journal.unclaimed := by
    unfold detach
    split <;> simp
  unfold takeSubscription asEngineClaim subscriptionClaim refuseDelivery disarmDelivery
  dsimp only
  (repeat' split) <;> simp [arm, off]

/-! ## The stream table and the engine -/

@[simp] theorem expireFreshness_unclaimed (i : Word) (s : State) :
    (expireFreshness i s).journal.unclaimed = s.journal.unclaimed := by
  have stale (p : Fin 512) (e : Entry) (t : Clock) (q m : Word) :
      (goStale p e t q m s).journal.unclaimed = s.journal.unclaimed := by
    unfold goStale
    dsimp only
    (repeat' split) <;> simp
  unfold expireFreshness
  repeat' split
  · exact stale ..
  all_goals rfl

theorem applyMiss_unclaimed (i r : Word) (l : Lane) (c : Word) (s : State) :
    (applyMiss i r l c s).journal.unclaimed = s.journal.unclaimed := by
  unfold applyMiss
  dsimp only
  (repeat' split) <;> simp

theorem applyCredit_unclaimed (i r : Word) (l : Lane) (s : State) :
    (applyCredit i r l s).journal.unclaimed = s.journal.unclaimed := by
  unfold applyCredit
  dsimp only
  (repeat' split) <;> simp

theorem noticeLane_unclaimed (l : Lane) (s : State) : (noticeLane l s).journal.unclaimed = s.journal.unclaimed := by
  refine foldl_keeps (·.journal.unclaimed) _ (fun u k => ?_) _ _
  split <;> simp

@[simp] theorem freshClaim_unclaimed (e : Entry) (a : Arrival) (s : State) :
    (freshClaim e a s).journal.unclaimed = s.journal.unclaimed := by
  unfold freshClaim
  split <;> rfl

@[simp] theorem judgeRemote_unclaimed (p : Fin 512) (e : Entry) (a : Arrival) (q : Word) (l : Lane) (s : State) :
    (judgeRemote p e a q l s).journal.unclaimed = s.journal.unclaimed := by
  unfold judgeRemote acceptFirst changeEpoch
  dsimp only
  (repeat' split) <;> simp

@[simp] theorem acceptBay_unclaimed (p : Fin 512) (e : Entry) (a : Arrival) (q : Fin 4) (s : State) :
    (acceptBay p e a q s).journal.unclaimed = s.journal.unclaimed := by
  simp [acceptBay]

@[simp] theorem clash_unclaimed (p : Fin 512) (e : Entry) (a : Arrival) (s : State) :
    (clash p e a s).journal.unclaimed = s.journal.unclaimed := by
  unfold clash
  dsimp only
  split <;> exact countEngine_unclaimed ..

@[simp] theorem echo_unclaimed (p : Fin 512) (e : Entry) (a : Arrival) (s : State) :
    (echo p e a s).journal.unclaimed = s.journal.unclaimed := by
  unfold echo
  dsimp only
  split <;> exact countEngine_unclaimed ..

@[simp] theorem unplaced_unclaimed (a : Arrival) (s : State) : (unplaced a s).journal.unclaimed = s.journal.unclaimed := by
  unfold unplaced
  dsimp only
  (repeat' split) <;> simp

@[simp] theorem takeArrival_unclaimed (a : Arrival) (s : State) : (takeArrival a s).journal.unclaimed = s.journal.unclaimed := by
  unfold takeArrival takeLaneCopy takeBayCopy
  dsimp only
  (repeat' split) <;> simp

theorem arrivalTaken_unclaimed (s : State) : (arrivalTaken s).journal.unclaimed = s.journal.unclaimed := by
  have judged (a : Arrival) (u : State) : (judgeArrival a u).journal.unclaimed = u.journal.unclaimed := by
    unfold judgeArrival
    dsimp only
    split <;> simp
  have popped (p : Port) (u : State) : (popArrival p u).journal.unclaimed = u.journal.unclaimed := by
    unfold popArrival
    split <;> simp
  unfold arrivalTaken
  (repeat' split) <;> simp only [judged, popped]

/-! ## The scheduler -/

@[simp] theorem sendPub_unclaimed (k : Fin 32) (s : State) : (sendPub k s).journal.unclaimed = s.journal.unclaimed := by
  unfold sendPub
  dsimp only
  split <;> simp

@[simp] theorem completeTake_unclaimed (k : Fin 32) (p : Poster) (e : Word) (c : List Byte) (s : State) :
    (completeTake k p e c s).journal.unclaimed = s.journal.unclaimed := by
  unfold completeTake
  split <;> simp

@[simp] theorem runTakes_unclaimed (s : State) : (runTakes s).journal.unclaimed = s.journal.unclaimed := by
  have begun (p : Post) (u : State) : (beginTake p u).journal.unclaimed = u.journal.unclaimed := by
    unfold beginTake
    split <;> simp
  have takes (n : Nat) (u : State) : (beginTakes n u).journal.unclaimed = u.journal.unclaimed := by
    induction n generalizing u with
    | zero => rfl
    | succ n ih =>
      unfold beginTakes
      repeat' split
      · rfl
      · exact (ih _).trans (begun ..)
      · exact (ih _).trans (begun ..)
      · rfl
  exact takes ..

theorem takeCompletes_unclaimed (t : Take) (s : State) : (takeCompletes t s).journal.unclaimed = s.journal.unclaimed := by
  simp [takeCompletes]

@[simp] theorem post_unclaimed (k : Fin 32) (p : Poster) (s : State) : (post k p s).journal.unclaimed = s.journal.unclaimed := by
  unfold post
  split <;> simp

theorem watchedWrite_unclaimed (k : Fin 32) (o : Nat) (s : State) : (watchedWrite k o s).journal.unclaimed = s.journal.unclaimed := by
  unfold watchedWrite collideAndPost abandonByCollision
  dsimp only
  (repeat' split) <;> simp

theorem takePublication_unclaimed (k : Fin 32) (s : State) : (takePublication k s).journal.unclaimed = s.journal.unclaimed := by
  have dropped (u : State) : (dropIfArmed k u).journal.unclaimed = u.journal.unclaimed := by
    unfold dropIfArmed dropPub
    split <;> simp
  have refused (r : Reason) (d : Word) (u : State) : (refusePub k r d u).journal.unclaimed = u.journal.unclaimed := by
    simp [refusePub]
  have made {c : PubConfig} {epoch : Byte} {u v : State} (h : makeHostEntry k c epoch u = some v) :
      v.journal.unclaimed = u.journal.unclaimed := by
    unfold makeHostEntry at h
    dsimp only at h
    split at h
    · cases h
    · split at h <;> cases h
      simp
  have armed (u : State) : (armPub k u).journal.unclaimed = u.journal.unclaimed := by
    unfold armPub
    dsimp only
    repeat' split
    · exact refused ..
    · next h => exact (made h :)
    · exact refused ..
  have claimed (u : State) : (publicationClaim k u).journal.unclaimed = u.journal.unclaimed := by
    unfold publicationClaim
    dsimp only
    (repeat' split) <;> simp [armed, dropped, refused]
  simp [takePublication, claimed]

theorem sendDue_unclaimed (e : CalendarEntry) (r : List CalendarEntry) (s : State) :
    (sendDue e r s).journal.unclaimed = s.journal.unclaimed := by
  unfold sendDue
  split <;> simp

theorem expirePub_unclaimed (k : Fin 32) (t : Clock) (s : State) : (expirePub k t s).journal.unclaimed = s.journal.unclaimed := by
  simp [expirePub]

/-! ## Contact inputs, outputs and rules -/

theorem beginFiltering_unclaimed (s : State) : (beginFiltering s).journal.unclaimed = s.journal.unclaimed :=
  updateContacts_unclaimed ..

@[simp] theorem announceChange_unclaimed (n : Fin 8) (o : Option Bool) (l : Bool) (t : Clock) (s : State) :
    (announceChange n o l t s).journal.unclaimed = s.journal.unclaimed := by
  unfold announceChange
  split <;> simp

theorem rawChange_unclaimed (n : Fin 8) (s : State) : (rawChange n s).journal.unclaimed = s.journal.unclaimed := by
  unfold rawChange
  dsimp only
  split
  · exact updateContacts_unclaimed _ { s with pins := _ }
  · rfl

theorem filterExpired_unclaimed (n : Fin 8) (s : State) : (filterExpired n s).journal.unclaimed = s.journal.unclaimed := by
  unfold filterExpired firstSettle blockInput acceptChange
  dsimp only
  (repeat' split) <;> simp [updateContacts_unclaimed]

theorem unblockInput_unclaimed (n : Fin 8) (s : State) : (unblockInput n s).journal.unclaimed = s.journal.unclaimed := by
  unfold unblockInput
  dsimp only
  split <;> simp [updateContacts_unclaimed]

theorem blockRunOut_unclaimed (n : Fin 8) (s : State) : (blockRunOut n s).journal.unclaimed = s.journal.unclaimed := by
  unfold blockRunOut
  dsimp only
  (repeat' split) <;> simp [unblockInput_unclaimed]

theorem unblockWaiting_unclaimed (n : Fin 8) (s : State) : (unblockWaiting n s).journal.unclaimed = s.journal.unclaimed := by
  unfold unblockWaiting
  split <;> simp [unblockInput_unclaimed]

theorem driveOutput_unclaimed (n : Fin 4) (c : OutputCause) (s : State) :
    (driveOutput n c s).journal.unclaimed = s.journal.unclaimed := by
  unfold driveOutput
  dsimp only
  (repeat' split) <;> simp [updateContacts_unclaimed]

theorem releaseOutput_unclaimed (n : Fin 4) (c : OutputCause) (s : State) :
    (releaseOutput n c s).journal.unclaimed = s.journal.unclaimed := by
  unfold releaseOutput
  split <;> simp [updateContacts_unclaimed]

theorem pulseExpired_unclaimed (n : Fin 4) (s : State) : (pulseExpired n s).journal.unclaimed = s.journal.unclaimed := by
  unfold pulseExpired
  (repeat' split) <;> simp [releaseOutput_unclaimed]

theorem ruleClaim_unclaimed (k : Fin 16) (s : State) : (ruleClaim k s).journal.unclaimed = s.journal.unclaimed := by
  unfold ruleClaim refuseRule
  dsimp only
  (repeat' split) <;> simp

theorem takeEvent_unclaimed (e : RuleEvent) (s : State) : (takeEvent e s).journal.unclaimed = s.journal.unclaimed := by
  have acted (k : Fin 16) (a : Action) (u : State) : (act k a u).1.journal.unclaimed = u.journal.unclaimed := by
    unfold act
    (repeat' split) <;> simp [driveOutput_unclaimed, releaseOutput_unclaimed]
  have fired (k : Fin 16) (c : RuleCopy) (u : State) : (fire k c e u).journal.unclaimed = u.journal.unclaimed := by
    have noted : (u.noteFired k c e).journal.unclaimed = u.journal.unclaimed := by
      unfold State.noteFired
      split <;> rfl
    rw [fire_eq]
    split <;> exact (acted k c.action _).trans noted
  refine foldl_keeps (·.journal.unclaimed) _ (fun u k => ?_) _ _
  unfold judgeRule
  dsimp only
  (repeat' split) <;> simp [fired]

theorem takeArm_unclaimed (w : ArmWord) (s : State) : (takeArm w s).journal.unclaimed = s.journal.unclaimed := by
  cases w with
  | subscription k => exact takeSubscription_unclaimed k s
  | publication k => exact takePublication_unclaimed k s
  | rule k => exact ruleClaim_unclaimed k s

end Sys2Proof.Machine
end

section
/-! The room of the journal and the INT line over the operations of the Journal Writer and of the controller, and so over a step (R168 to R172). -/

namespace Sys2Proof.Machine

/-! ## The journal under its settings -/

/-- R168, R171, R172. The journal is within its room, and INT stands where the settings `set` put it. -/
def Journal.SoundUnder (set : Settings) (j : Journal) : Prop := j.bounded ∧ j.lineFollows set

/-- The claims that wait have no part in it. -/
theorem soundUnder_unclaimed {set : Settings} {j : Journal} : j.unclaimed.SoundUnder set ↔ j.SoundUnder set := Iff.rfl

section
variable {set : Settings} {j : Journal} (h : j.SoundUnder set)
include h

/-- R168. An entry written where there is room for it. -/
theorem Journal.SoundUnder.write (hr : j.outstanding < 128) (now : Clock) (c : JournalClaim) :
    (j.write set now c).SoundUnder set := by
  refine ⟨?_, write_line set now c j hr h.2⟩
  unfold Journal.bounded
  rw [write_outstanding set now c j (by omega)]
  omega

/-- R168, R170. A claim finds room, or is lost; so does the OVERFLOW entry, and the claim behind it. -/
theorem Journal.SoundUnder.take (now : Clock) (c : JournalClaim) : (j.take set now c).SoundUnder set := by
  unfold Journal.take
  split
  · exact h
  · next hr =>
    have written (d : JournalClaim) := h.write (Nat.not_le.1 hr) now d
    split
    · have told : ({ j.write set now (j.overflowClaim now) with lost := 0, firstLoss := 0, overflowPending := false }
          : Journal).SoundUnder set := written _
      dsimp only
      split
      · exact told
      · next hr' => exact told.write (Nat.not_le.1 hr') now c
    · exact written c

/-- R169, R171. -/
theorem Journal.SoundUnder.giveBack (t : Word) : (j.giveBack set t).SoundUnder set :=
  ⟨giveBack_outstanding set t j h.1, giveBack_line set t j h.2⟩

/-- R169. A write handed to the writer is taken, or waits. -/
theorem Journal.SoundUnder.handWrite (t : Word) : (j.handWrite set t).SoundUnder set := by
  unfold Journal.handWrite
  split
  · exact h.giveBack t
  · exact h

/-- R168, R169. -/
theorem Journal.SoundUnder.takeHead (now : Clock) (c : JournalClaim) (rest : List JournalClaim) :
    (j.takeHead set now c rest).SoundUnder set := by
  have head : ({ j with claims := rest, writes := j.writes.map WaitingWrite.nearer } : Journal).SoundUnder set := h
  exact takeWrites_keeps (Journal.SoundUnder set) set _ (head.take now c) (fun _ _ hk => hk) (fun _ t hk => hk.giveBack t)

/-- R172. The end of a pulse: a pulse is given in PULSE mode alone, with INT active for its length. -/
theorem Journal.SoundUnder.pulseEnd {due : Clock} (hd : j.pulseEnds = some due) :
    ({ j with int := false, pulseEnds := none } : Journal).SoundUnder set := by
  obtain ⟨hroom, -, hidle⟩ := h
  refine ⟨hroom, ?_, fun _ => rfl⟩
  cases hm : set.intEnable && set.intPulse with
  | false =>
    rw [hidle hm] at hd
    cases hd
  | true =>
    rw [Bool.and_eq_true] at hm
    simp [hm.1, hm.2]

/-- R171, R172. INT and its pulse follow new settings. -/
theorem Journal.SoundUnder.follow (new : Settings) : (j.follow set new).SoundUnder new := by
  refine ⟨?_, follow_line set new j h.2⟩
  unfold Journal.bounded Journal.outstanding
  rw [(follow_written set new j).1, (follow_written set new j).2]
  exact h.1

end

/-- R172. An enabling puts INT where the settings say, wherever it stood. -/
theorem follow_enabling_line (set : Settings) (j : Journal) :
    (j.follow { set with intEnable := false } set).lineFollows set := by
  have outstanding := outstanding_pos j
  rw [follow_enabling]
  unfold Journal.lineFollows
  refine ⟨?_, fun _ => rfl⟩
  change _ = if set.intEnable then if set.intPulse then false else decide (0 < j.outstanding) else false
  rw [outstanding]
  cases set.intEnable <;> cases set.intPulse <;> rfl

/-! ## The journal of the part -/

/-- The journal is sound under the settings that INT obeys. -/
def State.JournalSound (s : State) : Prop := s.journal.SoundUnder s.lineSettings

/-- R171, R172. The INT line, as the statement says it. -/
theorem interruptSound_iff (s : State) : InterruptSound s ↔ s.journal.lineFollows s.lineSettings := by
  unfold InterruptSound
  by_cases hr : s.partState = .running
  · rw [lineSettings_running hr]
    cases he : s.settings.intEnable <;> cases hp : s.settings.intPulse <;> simp [hr, he, hp, Journal.lineFollows]
  · rw [lineFollows_off (by rw [lineSettings_off hr])]
    simp [hr]

theorem journalSound_iff (s : State) : s.JournalSound ↔ s.journal.bounded ∧ InterruptSound s :=
  and_congr_right fun _ => (interruptSound_iff s).symm

/-- What `JournalSound` reads of a state. -/
def State.line (s : State) : Settings × Journal := (s.lineSettings, s.journal.unclaimed)

theorem State.JournalSound.of_same {s t : State} (h : s.JournalSound) (same : t.line = s.line) : t.JournalSound := by
  obtain ⟨hset, hj⟩ := Prod.mk.inj same
  unfold State.JournalSound at h ⊢
  rw [hset, ← soundUnder_unclaimed, hj]
  exact h

theorem line_of_parts {s t : State} (hpart : t.partState = s.partState) (hset : t.settings = s.settings)
    (hj : t.journal.unclaimed = s.journal.unclaimed) : t.line = s.line := by
  unfold State.line State.lineSettings
  rw [hpart, hset, hj]

theorem Spine.line {s t : State} (h : Spine s t) (hj : t.journal.unclaimed = s.journal.unclaimed) : t.line = s.line := by
  obtain ⟨-, hpart, -, -, -, -, -, -, -, -, -, -, hset, -⟩ := h
  exact line_of_parts hpart hset hj

theorem takeArm_line (w : ArmWord) (s : State) : (takeArm w s).line = s.line := (takeArm_spine w s).line (takeArm_unclaimed w s)

/-! ## The commands that have no part in the journal -/

/-- The journal, its claims apart, is what a host write, HARDWARE_RESET, the completion of a command, or a row of the Journal Writer may
change. -/
def hasPartInJournal (c : Instr) : Bool :=
  (hostWriteOf c).isSome || match c with
    | .hardwareReset | .commandCompletion | .journalClaim | .intPulseEnd => true
    | _ => false

theorem enterConfig_unclaimed (s : State) : (enterConfig s).journal.unclaimed = s.journal.unclaimed := by
  unfold enterConfig takeLinks
  dsimp only
  rw [foldl_keeps State.journal _ (fun t p => by simp)]
  simp

theorem exec_unclaimed {c : Instr} (s : State) (hc : hasPartInJournal c = false) :
    Leads (fun t => t.journal.unclaimed = s.journal.unclaimed) (exec c s) := by
  cases c with
  | hostWrite | start | apply | clearCounts | softReset | laneHold | laneRelease | outputDrive | outputRelease
  | unknownCommand | journalTakenWrite | subscriptionArm | publicationArm | linkRuleArm | editionWrite
  | hardwareReset | commandCompletion | journalClaim | intPulseEnd => cases hc
  | initialisingComplete =>
    simp only [exec, execInitialisingComplete]
    split
    · exact leads_next.2 (enterConfig_unclaimed s)
    · exact leads_next.2 rfl
  | takeComplete =>
    simp only [exec, execTakeComplete]
    split
    · exact leads_next.2 (takeCompletes_unclaimed ..)
    · exact leads_next.2 rfl
  | calendarSend =>
    simp only [exec, execCalendarSend]
    repeat' split
    · exact leads_next.2 (sendDue_unclaimed ..)
    all_goals exact leads_next.2 rfl
  | refreshExpiry k =>
    simp only [exec, execRefreshExpiry]
    repeat' split
    · exact leads_next.2 (expirePub_unclaimed ..)
    all_goals exact leads_next.2 rfl
  | clockGroupUpdate =>
    simp only [exec, execClockGroupUpdate]
    split <;> exact leads_next.2 rfl
  | secondsTick =>
    simp only [exec, execSecondsTick]
    split <;> exact leads_next.2 rfl
  | ageingExpiry p => exact leads_next.2 (by simp)
  | laneFrameReceived l f => exact leads_next.2 (receiveLane_unclaimed ..)
  | bayFrameReceived p f => exact leads_next.2 (receiveBay_unclaimed ..)
  | laneLinkUp l => exact leads_next.2 (laneUp_unclaimed ..)
  | laneLinkDown l cut => exact leads_next.2 (laneDown_unclaimed ..)
  | bayLinkUp p => exact leads_next.2 (bayUp_unclaimed ..)
  | bayLinkDown p cut => exact leads_next.2 (bayDown_unclaimed ..)
  | laneTransmitEnd l => exact leads_next.2 (laneSent_unclaimed ..)
  | bayTransmitEnd p => exact leads_next.2 (baySent_unclaimed ..)
  | arrivalTaken => exact leads_next.2 (arrivalTaken_unclaimed s)
  | deliveryComplete k =>
    simp only [exec, execDeliveryComplete]
    split
    · exact leads_next.2 (completeDelivery_unclaimed ..)
    · exact leads_next.2 rfl
  | watchRequest =>
    simp only [exec, execWatchRequest]
    split
    · exact leads_next.2 (watchAsked_unclaimed _ _ _ _ _ { s with twinClaims := _ })
    · exact leads_next.2 rfl
  | twinTaken =>
    simp only [exec, execTwinTaken]
    split
    · exact leads_next.2 (twinJudged_unclaimed _ _ _ _ _ { s with twinClaims := _ })
    · exact leads_next.2 rfl
  | abandon =>
    simp only [exec, execAbandon]
    split <;> exact leads_next.2 rfl
  | laneCleanup =>
    simp only [exec, execLaneCleanup]
    split <;> exact leads_next.2 rfl
  | watchExpiry =>
    simp only [exec, execWatchExpiry]
    (repeat' split) <;> exact leads_next.2 rfl
  | missReport =>
    simp only [exec, execMissReport]
    repeat' split
    · exact leads_next.2 (applyMiss_unclaimed _ _ _ _ { s with reports := _ })
    all_goals exact leads_next.2 rfl
  | creditReport =>
    simp only [exec, execCreditReport]
    repeat' split
    · exact leads_next.2 (applyCredit_unclaimed _ _ _ { s with reports := _ })
    all_goals exact leads_next.2 rfl
  | laneNotice =>
    simp only [exec, execLaneNotice]
    repeat' split
    · next l rest _ _ => exact leads_next.2 ((asEngineClaim_unclaimed ..).trans (noticeLane_unclaimed l { s with laneNotices := rest }))
    all_goals exact leads_next.2 rfl
  | loneCountRise => exact leads_next.2 (takeLone_unclaimed ..)
  | loneCountFall => exact leads_next.2 (takeLone_unclaimed ..)
  | provingTimerExpiry l => exact leads_next.2 (provingExpired_unclaimed ..)
  | freshnessExpiry id => exact leads_next.2 (expireFreshness_unclaimed ..)
  | eventOffer =>
    simp only [exec, execEventOffer]
    split
    · exact leads_next.2 (takeEvent_unclaimed _ { s with events := _ })
    · exact leads_next.2 rfl
  | pulseExpiry n => exact leads_next.2 (pulseExpired_unclaimed ..)
  | rawChange n => exact leads_next.2 (rawChange_unclaimed ..)
  | filterTimerExpiry n => exact leads_next.2 (filterExpired_unclaimed ..)
  | blockCountExpiry n => exact leads_next.2 (blockRunOut_unclaimed ..)
  | unblock n => exact leads_next.2 (unblockWaiting_unclaimed ..)

/-- R171. INITIALISING ends with INT still disabled. -/
theorem enterConfig_line {s : State} (hi : s.partState = .initialising) : (enterConfig s).line = s.line := by
  have hpart : (enterConfig s).partState = .config := by
    unfold enterConfig takeLinks
    dsimp only
    rw [foldl_keeps State.partState _ (fun t p => by simp)]
    simp
  have hset : (enterConfig s).settings = s.settings := by
    unfold enterConfig takeLinks
    dsimp only
    rw [foldl_keeps State.settings _ (fun t p => by simp)]
    simp
  have before : s.partState ≠ .running := by rw [hi]; exact PartState.noConfusion
  have after : (enterConfig s).partState ≠ .running := by rw [hpart]; exact PartState.noConfusion
  unfold State.line
  rw [lineSettings_off before, lineSettings_off after, hset, enterConfig_unclaimed]

/-- The commands that may change the outputs, and not the journal but for its claims. -/
theorem hasPartInOutputs_alone {c : Instr} (ho : hasPartInOutputs c = true) (hj : hasPartInJournal c = false) :
    c = .initialisingComplete ∨ c = .eventOffer ∨ ∃ n, c = .pulseExpiry n := by
  cases c with
  | initialisingComplete => exact .inl rfl
  | eventOffer => exact .inr (.inl rfl)
  | pulseExpiry n => exact .inr (.inr ⟨n, rfl⟩)
  | hostWrite | start | apply | clearCounts | softReset | laneHold | laneRelease | outputDrive | outputRelease
  | unknownCommand | journalTakenWrite | subscriptionArm | publicationArm | linkRuleArm | editionWrite
  | hardwareReset | commandCompletion | journalClaim | intPulseEnd => cases hj
  | _ => cases ho

theorem eventOffer_line (s : State) : Leads (fun t => t.line = s.line) (exec .eventOffer s) := by
  simp only [exec, execEventOffer]
  split
  · next e rest _ =>
    exact leads_next.2 ((takeEvent_spine e { s with events := rest }).line (takeEvent_unclaimed e { s with events := rest }))
  · exact leads_next.2 rfl

theorem exec_keeps_line {c : Instr} (s : State) (hc : hasPartInJournal c = false) :
    Leads (fun t => t.line = s.line) (exec c s) := by
  cases ho : hasPartInOutputs c with
  | false =>
    intro t ht
    obtain ⟨hpart, hset, -⟩ : t.partState = s.partState ∧ t.settings = s.settings ∧ t.outputs = s.outputs := by
      simpa [State.driving] using exec_keeps_driving s ho t ht
    exact line_of_parts hpart hset (exec_unclaimed s hc t ht)
  | true =>
    obtain rfl | rfl | ⟨n, rfl⟩ := hasPartInOutputs_alone ho hc
    · simp only [exec, execInitialisingComplete]
      split
      · next hi => exact leads_next.2 (enterConfig_line hi)
      · exact leads_next.2 rfl
    · exact eventOffer_line s
    · exact leads_next.2 ((pulseExpired_spine n s).line (pulseExpired_unclaimed n s))

/-! ## Settings, START and the other commands -/

theorem takeSettings_unclaimed (new : Settings) (s : State) : (takeSettings new s).journal.unclaimed = s.journal.unclaimed := by
  obtain ⟨e, he⟩ := takeSettings_eq new s
  rw [he, unclaimed_claims]

/-- R18, R19. What the part keeps at a reset has an empty journal and INT inactive. -/
theorem resetTo_journalSound (soft : Bool) (mem : List Host.Cell) (s : State) : (resetTo soft mem s).JournalSound :=
  have sound : State.reset.JournalSound := ⟨by unfold Journal.bounded; decide, by unfold Journal.lineFollows; decide⟩
  sound.of_same rfl

section
variable {s : State} (h : s.JournalSound)
include h

theorem putInForce_journalSound (new : Settings) : (putInForce new s).JournalSound := by
  have claims := takeSettings_unclaimed new s
  unfold putInForce
  generalize takeSettings new s = t at claims ⊢
  have before : t.journal.SoundUnder s.lineSettings := soundUnder_unclaimed.1 (by rw [claims]; exact h)
  exact before.follow t.lineSettings

/-- R15 step 5, R171. INT, inactive until now, follows the settings in force. -/
theorem enterRunning_journalSound : (enterRunning s).JournalSound := by
  refine ⟨?_, follow_enabling_line s.settings s.journal⟩
  rw [enterRunning_journal]
  exact h.1

theorem armsTaken_journalSound (arms : List ArmWord) : (arms.foldl (fun u w => takeArm w u) s).JournalSound :=
  h.of_same (foldl_keeps State.line _ (fun u w => takeArm_line w u) arms s)

theorem doPiece_journalSound (p : StartPiece) (left : List StartPiece) (read : List Host.Cell) (w : Working) :
    (doPiece p left read w s).JournalSound := by
  have goOn (w : Option Working) : State.JournalSound { s with working := w } := h
  cases p with
  | read a => exact goOn _
  | settings =>
    simp only [doPiece]
    split
    · exact goOn _
    · exact putInForce_journalSound (goOn (some { w with finish := .starting left read })) (readSettings read)
  | visit arm => exact (goOn (some { w with finish := .starting left read })).of_same (takeArm_line arm _)
  | lanes =>
    exact (goOn (some { w with finish := .starting left read })).of_same
      (((releaseAtStart_spine _).trans (beginFiltering_spine _)).line
        ((beginFiltering_unclaimed _).trans (releaseAtStart_unclaimed _)))
  | started => exact h

theorem work_journalSound (n : Nat) : (work n s).JournalSound := by
  have once {u : State} (hu : u.JournalSound) : (workOnce u).JournalSound := by
    unfold workOnce
    repeat' split
    · exact doPiece_journalSound hu _ _ _ _
    all_goals exact hu
  induction n generalizing s with
  | zero => exact h
  | succ n ih => exact ih (once h)

theorem goOnStarting_journalSound : (goOnStarting s).JournalSound := by
  unfold goOnStarting
  split
  · exact work_journalSound (s := { s with free := s.free + 1 }) h _
  · exact h

theorem completeCommand_journalSound : (completeCommand s).JournalSound := by
  have finished (f : Finish) {u : State} (hu : u.JournalSound) : (finishCommand f u).JournalSound := by
    cases f with
    | nothing => exact hu
    | starting left read => exact armsTaken_journalSound (s := { enterRunning u with heldArms := [] }) (enterRunning_journalSound hu) _
    | takeSettings new => exact putInForce_journalSound hu new
  have worked : s.workedOut.JournalSound := by
    unfold State.workedOut
    split
    · exact work_journalSound h _
    · exact h
  rw [completeCommand_workedOut]
  split
  · exact finished _ worked
  · exact worked

/-- A command refused, or one that does what keeps the journal sound. -/
theorem inRunning_journalSound (e : Word) {run : State → State} (hr : (run s).JournalSound) : (inRunning e s run).JournalSound := by
  unfold inRunning
  split
  · exact hr
  · exact h

theorem laneCommand_journalSound (e : Word) {run : Lane → State → State} (hr : ∀ l, (run l s).line = s.line) :
    (laneCommand e run s).JournalSound := by
  refine inRunning_journalSound h e ?_
  split
  · exact h.of_same (hr _)
  · exact h

theorem takeCommand_journalSound (v : Word) : (takeCommand v s).JournalSound := by
  unfold takeCommand
  split
  · unfold commandStart
    split
    · exact goOnStarting_journalSound (s := working ..) h
    · exact h
  · refine inRunning_journalSound h _ ?_
    split <;> exact h
  · exact h.of_same (((clearGroups_spine s).trans (clearNoted_spine _)).line (by simp [clearNoted, clearGroups]))
  · exact resetTo_journalSound _ _ _
  · exact laneCommand_journalSound h _ fun l => (holdLane_spine l s).line (holdLane_unclaimed l s)
  · exact laneCommand_journalSound h _ fun l => (releaseLane_spine l _ s).line (releaseLane_unclaimed l _ s)
  · refine inRunning_journalSound h _ ?_
    repeat' split
    · exact h.of_same ((driveOutput_spine ..).line (driveOutput_unclaimed ..))
    all_goals exact h
  · refine inRunning_journalSound h _ ?_
    split
    · exact h.of_same ((releaseOutput_spine ..).line (releaseOutput_unclaimed ..))
    · exact h
  · exact h

/-! ## Host writes and the Journal Writer -/

theorem hostWrite_journalSound (a : Nat) (v : Word) : (hostWrite a v s).JournalSound := by
  have arm (w : ArmWord) {u : State} (hu : u.JournalSound) : (armWritten w u).JournalSound := by
    unfold armWritten
    repeat' split
    · exact hu.of_same (takeArm_line w u)
    all_goals exact hu
  have write {u : State} (hu : u.JournalSound) : (written a v u).JournalSound := by
    unfold written
    repeat' split
    · exact takeCommand_journalSound hu v
    · exact hu.handWrite v
    · exact arm _ hu
    · exact hu.of_same ((watchedWrite_spine ..).line (watchedWrite_unclaimed ..))
    · exact arm _ hu
    · exact hu
    · exact arm _ hu
    · exact hu
    · exact hu
  have refused : (refuseWrite a v s).JournalSound := by
    unfold refuseWrite
    dsimp only
    split <;> exact h
  unfold hostWrite
  repeat' split
  · exact h
  · exact write (u := { s with mem := writeWord s.mem a v }) h
  · exact refused
  · exact refused

theorem journalClaim_sound : Leads State.JournalSound (exec .journalClaim s) := by
  simp only [exec, execJournalClaim]
  split
  · next c rest _ => exact leads_next.2 (h.takeHead s.clock c rest)
  · exact leads_next.2 h

theorem intPulseEnd_sound : Leads State.JournalSound (exec .intPulseEnd s) := by
  simp only [exec, execIntPulseEnd]
  repeat' split
  · next hd _ => exact leads_next.2 (h.pulseEnd hd)
  all_goals exact leads_next.2 h

/-! ## One step -/

theorem exec_journalSound (c : Instr) : Leads State.JournalSound (exec c s) := by
  cases hc : hasPartInJournal c with
  | false => exact fun t ht => h.of_same (exec_keeps_line s hc t ht)
  | true =>
    cases hw : hostWriteOf c with
    | some w =>
      obtain ⟨a, v⟩ := w
      rw [exec_of_hostWriteOf hw]
      exact leads_next.2 (hostWrite_journalSound h a v)
    | none =>
      cases c with
      | hardwareReset => exact leads_next.2 (resetTo_journalSound _ _ _)
      | commandCompletion => exact leads_next.2 (completeCommand_journalSound h)
      | journalClaim => exact journalClaim_sound h
      | intPulseEnd => exact intPulseEnd_sound h
      | _ => simp [hasPartInJournal, hw] at hc

end

/-- Settles O55: the rows of the Journal Writer, host writes and the commands keep the journal within its room and INT where the settings in
force put it; every other command hands on claims alone. -/
theorem stepsKeepTheJournalSound : Obligations.StepsKeepTheJournalSound := by
  intro s t hroom hline h
  have hs : s.JournalSound := (journalSound_iff s).2 ⟨hroom, hline⟩
  refine (journalSound_iff t).1 ?_
  unfold step at h
  split at h
  · next c rest _ => exact exec_journalSound (s := { s with pending := rest }) hs c t h
  · cases h
    exact goOnStarting_journalSound (s := { s with clock := s.clock + 1 }) hs

end Sys2Proof.Machine
end

section
/-! JOURNAL_CLAIM and INT_PULSE_END (R168, R170 to R172). -/

namespace Sys2Proof.Machine

/-! ## One entry -/

/-- R168. An entry stands at its number's place in the ring. -/
def Journal.enter (c : JournalClaim) (j : Journal) : Vector (Option JournalEntry) 128 :=
  j.ring.set ((j.written + 1).toNat % 128) (some { number := j.written + 1, claim := c }) (Nat.mod_lt _ (by decide))

theorem enter_get (c : JournalClaim) (j : Journal) (i : Fin 128) : (j.enter c)[i] =
    if i.val = (j.written + 1).toNat % 128 then some { number := j.written + 1, claim := c } else j.ring[i] := by
  refine (Vector.getElem_set ..).trans ?_
  simp only [eq_comm (b := i.val)]
  rfl

/-- R171, R172. INT and its pulse when an entry is written: asserted in LEVEL mode, a pulse in PULSE mode unless one is being given. -/
def entryLine (set : Settings) (now : Clock) (line : Bool × Option Clock) : Bool × Option Clock :=
  if set.intEnable then
    if set.intPulse then if line.2 = none then (true, some (now + 2)) else line else (true, line.2)
  else line

/-- A second entry at the same moment moves the line no further. -/
theorem entryLine_twice (set : Settings) (now : Clock) (line : Bool × Option Clock) :
    entryLine set now (entryLine set now line) = entryLine set now line := by
  obtain ⟨int, ends⟩ := line
  unfold entryLine
  cases set.intEnable <;> cases set.intPulse <;> cases ends <;> rfl

/-- R168, R171, R172. An entry written changes the ring, the number, and INT. -/
theorem write_eq (set : Settings) (now : Clock) (c : JournalClaim) (j : Journal) : j.write set now c = { j with
    ring := j.enter c, written := j.written + 1
    int := (entryLine set now (j.int, j.pulseEnds)).1, pulseEnds := (entryLine set now (j.int, j.pulseEnds)).2 } := by
  unfold Journal.write entryLine
  cases he : set.intEnable <;> cases hp : set.intPulse <;> cases hd : j.pulseEnds <;> simp [Journal.enter]

/-! ## One claim -/

/-- R170. The journal with the OVERFLOW entry written, and its loss told. -/
def Journal.overflowed (set : Settings) (now : Clock) (j : Journal) : Journal :=
  { j.write set now (j.overflowClaim now) with lost := 0, firstLoss := 0, overflowPending := false }

section
variable (set : Settings) (now : Clock) (c : JournalClaim) {j : Journal}

theorem take_full (h : 128 ≤ j.outstanding) : j.take set now c = j.lose now := if_pos h

theorem take_plain (h : j.outstanding < 128) (hp : j.overflowPending = false) : j.take set now c = j.write set now c := by
  unfold Journal.take
  rw [if_neg (Nat.not_le.2 h), hp]
  rfl

/-- R170. With an OVERFLOW entry pending that one is written first, and may leave no room. -/
theorem take_overflow (h : j.outstanding < 128) (hp : j.overflowPending = true) : j.take set now c =
    if j.outstanding = 127 then (j.overflowed set now).lose now else (j.overflowed set now).write set now c := by
  have room : (128 ≤ (j.overflowed set now).outstanding) = (j.outstanding = 127) := by
    rw [show (j.overflowed set now).outstanding = j.outstanding + 1 from write_outstanding _ _ _ _ (by omega), eq_iff_iff]
    omega
  unfold Journal.take
  rw [if_neg (Nat.not_le.2 h), hp, if_pos rfl]
  simp only [← room]
  rfl

/-- R171, R172. A claim that finds room moves the line as one entry does. -/
theorem take_entryLine (h : j.outstanding < 128) :
    ((j.take set now c).int, (j.take set now c).pulseEnds) = entryLine set now (j.int, j.pulseEnds) := by
  cases hp : j.overflowPending with
  | false => rw [take_plain set now c h hp, write_eq]
  | true =>
    have overflow : ((j.overflowed set now).int, (j.overflowed set now).pulseEnds) = entryLine set now (j.int, j.pulseEnds) := by
      unfold Journal.overflowed
      rw [write_eq]
    rw [take_overflow set now c h hp]
    split
    · exact overflow
    · rw [write_eq]
      exact (congrArg (entryLine set now) overflow).trans (entryLine_twice ..)

/-! ## The obligation, clause by clause -/

/-- R170. A claim that finds the journal full. -/
theorem take_lost (h : 128 ≤ j.outstanding) : j.take set now c = { j with
    lost := if j.lost = 0xFFFF then 0xFFFF else j.lost + 1, firstLoss := if j.lost = 0 then now else j.firstLoss
    overflowPending := true } := by
  rw [take_full set now c h, ← satInc_stays]
  rfl

/-- R168. A claim that finds room, with no OVERFLOW entry pending. -/
theorem take_written (h : j.outstanding < 128) (hp : j.overflowPending = false) :
    (j.take set now c).written = j.written + 1
      ∧ (∀ i : Fin 128, (j.take set now c).ring[i] = if i.val = (j.written + 1).toNat % 128
          then some { number := j.written + 1, claim := c } else j.ring[i])
      ∧ (j.take set now c).lost = j.lost ∧ (j.take set now c).overflowPending = false := by
  rw [take_plain set now c h hp, write_eq]
  exact ⟨rfl, enter_get c j, rfl, hp⟩

/-- R170. The OVERFLOW entry written before the claim. -/
theorem take_overflow_entry (h : j.outstanding < 128) (hp : j.overflowPending = true) (i : Fin 128)
    (hi : i.val = (j.written + 1).toNat % 128) :
    (j.take set now c).ring[i] = some { number := j.written + 1, claim := j.overflowClaim now } := by
  have entry : (j.overflowed set now).ring[i] = some { number := j.written + 1, claim := j.overflowClaim now } := by
    unfold Journal.overflowed
    rw [write_eq]
    exact (enter_get ..).trans (if_pos hi)
  have next : (j.overflowed set now).written = j.written + 1 := (write_written ..).1
  rw [take_overflow set now c h hp]
  split
  · exact entry
  · rw [write_eq]
    refine ((enter_get ..).trans (if_neg ?_)).trans entry
    rw [next, hi]
    bv_omega

/-- R170. The OVERFLOW entry takes the last place: the claim is lost, and the next loss begins. -/
theorem take_overflow_last (h : j.outstanding = 127) (hp : j.overflowPending = true) :
    (j.take set now c).written = j.written + 1 ∧ (j.take set now c).lost = 1 ∧ (j.take set now c).firstLoss = now
      ∧ (j.take set now c).overflowPending = true := by
  rw [take_overflow set now c (by omega) hp, if_pos h]
  exact ⟨(write_written ..).1, rfl, rfl, rfl⟩

/-- R170. The claim is written behind the OVERFLOW entry. -/
theorem take_overflow_room (h : j.outstanding < 127) (hp : j.overflowPending = true) :
    (j.take set now c).written = j.written + 2 ∧ (j.take set now c).lost = 0 ∧ (j.take set now c).overflowPending = false
      ∧ ∀ i : Fin 128, i.val = (j.written + 2).toNat % 128 →
          (j.take set now c).ring[i] = some { number := j.written + 2, claim := c } := by
  have next : (j.overflowed set now).written + 1 = j.written + 2 := by
    rw [show (j.overflowed set now).written = j.written + 1 from (write_written ..).1]
    bv_omega
  rw [take_overflow set now c (by omega) hp, if_neg (by omega), write_eq]
  refine ⟨next, rfl, rfl, fun i hi => ?_⟩
  rw [← next] at hi ⊢
  exact (enter_get ..).trans (if_pos hi)

/-- R172. In LEVEL mode an entry asserts INT. -/
theorem take_level (h : j.outstanding < 128) (he : set.intEnable = true) (hp : set.intPulse = false) :
    (j.take set now c).int = true := by
  have line := congrArg Prod.fst (take_entryLine set now c h)
  simpa [entryLine, he, hp] using line

/-- R172. In PULSE mode an entry begins a pulse, unless one is being given. -/
theorem take_pulse (h : j.outstanding < 128) (he : set.intEnable = true) (hp : set.intPulse = true) :
    (j.pulseEnds = none → (j.take set now c).int = true ∧ (j.take set now c).pulseEnds = some (now + 2))
      ∧ (j.pulseEnds ≠ none → (j.take set now c).int = j.int ∧ (j.take set now c).pulseEnds = j.pulseEnds) := by
  have line := take_entryLine set now c h
  unfold entryLine at line
  rw [if_pos he, if_pos hp] at line
  refine ⟨fun hd => ?_, fun hd => ?_⟩
  · rw [if_pos hd] at line
    exact Prod.mk.inj line
  · rw [if_neg hd] at line
    exact Prod.mk.inj line

end

/-- R171. Outside RUNNING, or with the interrupt disabled, INT obeys disabled settings. -/
theorem lineSettings_disabled {s : State} (h : s.partState ≠ .running ∨ s.settings.intEnable = false) :
    s.lineSettings.intEnable = false := by
  unfold State.lineSettings
  split
  · next hr => exact h.resolve_left (not_not.2 hr)
  · rfl

/-- Settles O52: the claim at the head is taken by `Journal.take`, clause by clause. -/
theorem claimsAreWrittenOrLost : Obligations.ClaimsAreWrittenOrLost := by
  refine ⟨fun s c rest hc hw => ?_, fun s due hd hr => ?_⟩
  · let j : Journal := { s.journal with claims := rest }
    have head := takeHead_none s.lineSettings s.clock c rest s.journal hw
    obtain ⟨hclaims, hwrites, htaken⟩ := take_waiting s.lineSettings s.clock c j
    refine ⟨j.take s.lineSettings s.clock c, (exec_journalClaim hc).trans (by rw [head]), hclaims, htaken, hwrites.trans hw,
      take_lost (j := j) _ _ c, take_written (j := j) _ _ c, fun h hp => ⟨take_overflow_entry (j := j) _ _ c h hp,
        fun hl => take_overflow_last (j := j) _ _ c hl hp, fun hl => take_overflow_room (j := j) _ _ c hl hp⟩,
      fun h hr he hp => ?_, fun h hr he hp => ?_, fun hoff => take_off (lineSettings_disabled hoff) s.clock c j⟩
    · rw [lineSettings_running hr]
      exact take_level (j := j) _ _ c h he hp
    · rw [lineSettings_running hr]
      exact take_pulse (j := j) _ _ c h he hp
  · simp only [exec, execIntPulseEnd, hd]
    exact if_pos hr

end Sys2Proof.Machine
end

section
/-! Every command answers a next state, and leaves the commands that wait behind it (O2; log entries 1 and 10). -/

namespace Sys2Proof.Machine

/-- The outcome is a next state in which the commands wait that wait in `s`. -/
def Answers (s : State) (o : Host.Outcome State Fault Refusal) : Prop := ∃ t, o = .next t ∧ t.pending = s.pending

theorem answers_next {s t : State} (h : t.pending = s.pending) : Answers s (.next t) := ⟨t, rfl, h⟩

theorem Spine.keeps_pending {s t : State} (h : Spine s t) : t.pending = s.pending := by
  obtain ⟨hp, -⟩ := h
  exact hp

theorem Kept.keeps_pending {s t : State} (h : Kept s t) : t.pending = s.pending := by
  obtain ⟨hp, -⟩ := h
  exact hp

theorem Spine.answers {s t : State} (h : Spine s t) : Answers s (.next t) := answers_next h.keeps_pending

/-! ## The functions that change the pins, and the end of INITIALISING -/

section
variable (s : State)

theorem laneUp_pending (l : Lane) : (laneUp l s).pending = s.pending := by
  unfold laneUp
  dsimp only
  (repeat' split) <;> simp

theorem laneDown_pending (l : Lane) (cut : Bool) : (laneDown l cut s).pending = s.pending := by
  unfold laneDown
  dsimp only
  (repeat' split) <;> simp

theorem bayUp_pending (p : Fin 4) : (bayUp p s).pending = s.pending := by
  unfold bayUp
  dsimp only
  split <;> simp

theorem bayDown_pending (p : Fin 4) (cut : Bool) : (bayDown p cut s).pending = s.pending := by
  unfold bayDown
  dsimp only
  (repeat' split) <;> simp

theorem rawChange_pending (n : Fin 8) : (rawChange n s).pending = s.pending := by
  unfold rawChange
  dsimp only
  split
  · exact (updateContacts_spine _ { s with pins := _ } (by unfold Spine; simp)).keeps_pending
  · rfl

theorem enterConfig_pending : (enterConfig s).pending = s.pending := by
  unfold enterConfig takeLinks
  dsimp only
  rw [foldl_keeps State.pending _ (fun t p => by simp)]
  simp

/-! ## Every command -/

/-- A host write, a reset and the end of INITIALISING keep the queue; every other command runs a function of its block, which keeps the
queue, or finds its claim, expiry or wait not there and changes nothing (log entry 1). -/
theorem exec_answers (c : Instr) : Answers s (exec c s) := by
  cases hw : hostWriteOf c with
  | some w =>
    obtain ⟨a, v⟩ := w
    rw [exec_of_hostWriteOf hw]
    exact answers_next (hostWrite_pending a v s)
  | none =>
    cases c with
    | hostWrite | start | apply | clearCounts | softReset | laneHold | laneRelease | outputDrive | outputRelease
    | unknownCommand | journalTakenWrite | subscriptionArm | publicationArm | linkRuleArm | editionWrite => cases hw
    | hardwareReset => exact answers_next rfl
    | initialisingComplete =>
      simp only [exec, execInitialisingComplete]
      split
      · exact answers_next (enterConfig_pending s)
      · exact answers_next rfl
    | commandCompletion => exact answers_next (completeCommand_kept s).keeps_pending
    | clockGroupUpdate | secondsTick =>
      simp only [exec, execClockGroupUpdate, execSecondsTick, secondsTicks]
      split <;> exact answers_next (by simp [updateClockGroup])
    | laneLinkUp l => exact answers_next (laneUp_pending s l)
    | laneLinkDown l cut => exact answers_next (laneDown_pending s l cut)
    | bayLinkUp p => exact answers_next (bayUp_pending s p)
    | bayLinkDown p cut => exact answers_next (bayDown_pending s p cut)
    | laneFrameReceived l f => exact (receiveLane_spine l f s).answers
    | bayFrameReceived p f => exact (receiveBay_spine p f s).answers
    | laneTransmitEnd l => exact (laneSent_spine l s).answers
    | bayTransmitEnd p => exact (baySent_spine p s).answers
    | arrivalTaken => exact (arrivalTaken_spine s).answers
    | ageingExpiry p => exact (expireAge_spine p s).answers
    | freshnessExpiry id => exact (expireFreshness_spine id s).answers
    | missReport | creditReport | laneNotice =>
      simp only [exec, execMissReport, execCreditReport, execLaneNotice]
      (repeat' split) <;> exact answers_next (by simp)
    | watchRequest | twinTaken | abandon | laneCleanup | watchExpiry =>
      simp only [exec, execWatchRequest, execTwinTaken, execAbandon, execLaneCleanup, execWatchExpiry]
      (repeat' split) <;> exact answers_next (by simp)
    | loneCountRise => exact (takeLone_spine true s).answers
    | loneCountFall => exact (takeLone_spine false s).answers
    | provingTimerExpiry l => exact (provingExpired_spine l s).answers
    | deliveryComplete =>
      simp only [exec, execDeliveryComplete]
      split <;> exact answers_next (by simp)
    | takeComplete | calendarSend | refreshExpiry =>
      simp only [exec, execTakeComplete, execCalendarSend, execRefreshExpiry]
      (repeat' split) <;> exact answers_next (by simp)
    | eventOffer =>
      simp only [exec, execEventOffer]
      split <;> exact answers_next (by simp)
    | pulseExpiry n => exact (pulseExpired_spine n s).answers
    | rawChange n => exact answers_next (rawChange_pending s n)
    | filterTimerExpiry n => exact (filterExpired_spine n s).answers
    | blockCountExpiry n => exact (blockRunOut_spine n s).answers
    | unblock n => exact (unblockWaiting_spine n s).answers
    | journalClaim | intPulseEnd =>
      simp only [exec, execJournalClaim, execIntPulseEnd]
      (repeat' split) <;> exact answers_next rfl

end

/-- Settles O2, a command at a time (`exec_answers`), from what each function of the part keeps. -/
theorem everyCommandAnswers : Obligations.EveryCommandAnswers :=
  fun c s => exec_answers s c

end Sys2Proof.Machine
end
